-- ==== Sys2Proof/Word.lean ====
section
/-! DEFINITION. The word types of the FZ3208: bytes, 16-bit halves, part time, and the small index types
that number stations (00, Numbering) and sheet classes (R24). -/

namespace Sys2Proof

/-- One byte of the shared store, or of a terminal frame. -/
abbrev Byte := BitVec 8

/-- One 16-bit word of the local bus port (R163). -/
abbrev Half := BitVec 16

/-- Part time: milliseconds since power-on, 32 bits, wrapping (00, Time). -/
abbrev Time := BitVec 32

/-- A station, 0 to 11. The station's number (1 to 12) is one more. -/
abbrev StationId := Fin 12

/-- A sheet class by its class number (R24). -/
abbrev SheetClass := Fin 8

/-- The milliseconds from `since` to `now`, taken modulo 2^32 (00, Time). -/
def elapsed (now since : Time) : Nat := (now - since).toNat

/-- The number, 1 to 12, by which records and orders name a station (00, Numbering). -/
def stationNumber (i : StationId) : Nat := i.val + 1

end Sys2Proof
end

