-- ==== Sys2Proof/Syntax.lean ====
section
/-! DEFINITION. The commands of the FZ3208, one constructor per row of spec/opcode_table.json. A command is one whole,
indivisible step of the part (95_what_each_step_holds.md). Its operands are what the event brings from outside the part. -/

namespace Sys2Proof

/-- The two pulse inputs of a station (01). -/
inductive PulseLine where
  | feed
  | exit
deriving DecidableEq, Repr

/-- One command. Station operands count from 0; the docstring of each names its row and rule. -/
inductive Instr where
  /-- POWER_ON (R172). -/
  | powerOn
  /-- CLEARING_DONE (R172). -/
  | clearingDone
  /-- SOFT_RESET (R171): a RUNCTL write with the soft reset bit set. -/
  | softReset
  /-- RUN_REQUEST (R168): a RUNCTL write with soft reset clear and the run request set. -/
  | runRequest
  /-- STOP_REQUEST (R170): a RUNCTL write with both bits clear. -/
  | stopRequest
  /-- STOPPED_ENTRY (R170). -/
  | stoppedEntry
  /-- ORDPOST_WRITE (R173): the value written to ORDPOST. -/
  | ordpostWrite (v : Half)
  /-- RPTRD_WRITE (R177): the value written to RPTRD. -/
  | rptrdWrite (v : Half)
  /-- IRQFLAG_WRITE (R166): the value written to IRQFLAG. -/
  | irqflagWrite (v : Half)
  /-- REGISTER_WRITE (R163): register number (address bits 4-2), half (address bit 1) and value. -/
  | registerWrite (reg : BitVec 3) (high : Bool) (v : Half)
  /-- LOW_HALF_READ (R163): a read of the low half of register `reg`. -/
  | lowHalfRead (reg : BitVec 3)
  /-- STORE_WRITE (R164): a host write of `v` to the store word at byte address 2 * `word`. -/
  | storeWrite (word : BitVec 16) (v : Half)
  /-- ACCOUNT_OPEN (R138). Every order takes the slot at (done count mod 64). -/
  | accountOpen
  /-- ACCOUNT_CREDIT (R139). -/
  | accountCredit
  /-- ACCOUNT_DEBIT (R140). -/
  | accountDebit
  /-- ACCOUNT_LIMIT (R141). -/
  | accountLimit
  /-- ACCOUNT_FREEZE (R142). -/
  | accountFreeze
  /-- ACCOUNT_THAW (R142). -/
  | accountThaw
  /-- ACCOUNT_CLOSE (R143). -/
  | accountClose
  /-- PERIOD_CLOSE (R160). -/
  | periodClose
  /-- CARD_PUT (R66). -/
  | cardPut
  /-- CARD_DROP (R67). -/
  | cardDrop
  /-- AUTH_ANSWER (R106). -/
  | authAnswer
  /-- PRICE_SWITCH (R38). -/
  | priceSwitch
  /-- STATION_OUT (R97). -/
  | stationOut
  /-- STATION_IN (R99). -/
  | stationIn
  /-- JAM_ACK (R129). -/
  | jamAck
  /-- SESSION_END (R96). -/
  | sessionEnd
  /-- BAD_KIND (R174). -/
  | badKind
  /-- FEED_EVENT (R7): a taken change of FEED to the active level, with the levels (true = high) of the three CLASS inputs at
  that moment (R3). -/
  | feedEvent (st : StationId) (size colour sides : Bool)
  /-- EXIT_EVENT (R10): a taken change of EXIT to the active level. -/
  | exitEvent (st : StationId)
  /-- FAULT_CHANGE (R5): a taken change of FAULT to active or to inactive. -/
  | faultChange (st : StationId) (active : Bool)
  /-- TAKEN_CHANGE (R1): a taken change of FEED or EXIT to the inactive level. -/
  | takenChange (st : StationId) (line : PulseLine)
  /-- TRANSIT_CHECK (R15). -/
  | transitCheck (st : StationId)
  /-- QUIET_NOTICE (R14). -/
  | quietNotice (st : StationId)
  /-- LOW_TIMER_EXPIRY (R84). -/
  | lowTimerExpiry (st : StationId)
  /-- LINK_LOSS_GRACE_EXPIRY (R92). -/
  | linkLossGraceExpiry (st : StationId)
  /-- AUTHORIZATION_TIMER_EXPIRY (R109). -/
  | authorizationTimerExpiry (st : StationId)
  /-- SILENCE_TIMER_EXPIRY (R50). -/
  | silenceTimerExpiry (st : StationId)
  /-- BUSY_TIMER_EXPIRY (R51). -/
  | busyTimerExpiry (st : StationId)
  /-- GAP_LIMIT (R44). -/
  | gapLimit (st : StationId)
  /-- JAM_CLEARS (R122). -/
  | jamClears (st : StationId)
  /-- RECOVERY_TIMEOUT (R127). -/
  | recoveryTimeout (st : StationId)
  /-- WAITING_REPORT_WRITTEN (R178). -/
  | waitingReportWritten
  /-- FRAME_SENT (R56): the last stop bit of a frame's check byte is sent. -/
  | frameSent (st : StationId)
  /-- NEXT_FRAME_START (R56). -/
  | nextFrameStart (st : StationId)
  /-- BYTE_ERROR (R42): a character with its data, its parity bit as received and its first stop bit. -/
  | byteError (st : StationId) (data : Byte) (parityBit stopBit : Bool)
  /-- INVALID_FRAME (R44). -/
  | invalidFrame (st : StationId)
  /-- HELLO (R45): the fields of the frame (3.3, 11.9). -/
  | hello (st : StationId) (level abilities rows : Byte)
  /-- TICK (R46). -/
  | tick (st : StationId) (flags : Byte)
  /-- CARD_IN (R47): the medium code and the 8 card bytes, little-endian. -/
  | cardIn (st : StationId) (medium : Byte) (card : BitVec 64)
  /-- CARD_OUT (R48). -/
  | cardOut (st : StationId)
  /-- KEY_END (R86). -/
  | keyEnd (st : StationId)
  /-- KEY_BALANCE (R87). -/
  | keyBalance (st : StationId)
  /-- BYTE_RECEIVED (R43): a character received without byte error. -/
  | byteReceived (st : StationId) (data : Byte)
  /-- CHARACTER_SENT (R57): the last stop bit of a character within a frame is sent. -/
  | characterSent (st : StationId)
  /-- BUSY_LEVEL_CHANGE (R57): BUSY sampled at a level (true = high). -/
  | busyLevelChange (st : StationId) (high : Bool)
  /-- PART_TIME_TICK (R165), at which every station also takes its next sample of the copier lines (R1). -/
  | partTimeTick
deriving DecidableEq, Repr

end Sys2Proof
end

