-- ==== Sys2Proof/Config.lean ====
section
/-! DEFINITION. The fixed numbers of the part: the store map (R164), the sizes of its records (chapter 11),
saturation limits and the fixed times its rules name. The spec leaves no result open, so no free value stands here. -/

namespace Sys2Proof.Config

/-- Bytes in the shared store (00). -/
def storeBytes : Nat := 0x20000
/-- Report stream (R164, R176). -/
def streamBase : Nat := 0x00800
def streamBytes : Nat := 8192
/-- Station profiles (R164, 11.6). -/
def profileBase : Nat := 0x02800
/-- Price pages (R164, 11.5). -/
def pageABase : Nat := 0x02B00
def pageBBase : Nat := 0x02B40
/-- Part header (R164, 11.8). -/
def headerBase : Nat := 0x02B80
/-- Station records (R164, 11.7). -/
def stationBase : Nat := 0x02C00
def stationEnd : Nat := 0x04400
def stationBytes : Nat := 512
/-- Card directory (R62, 11.4). -/
def directoryBase : Nat := 0x04400
def directoryRoom : Nat := 2048
/-- Account table (R132, 11.3). -/
def accountBase : Nat := 0x0C400
def accountCount : Nat := 1024
/-- Host scratch (R164). -/
def scratchBase : Nat := 0x1C400

/-- The value of an account field that names no account (00, Numbering). -/
def noAccount : Nat := 0xFFFF

def max8 : Nat := 255
def max16 : Nat := 65535
def max32 : Nat := 4294967295
def max48 : Nat := 281474976710655
/-- Greatest and least balance, and greatest hold and limit (R132, R79). -/
def maxUnits : Int := 2147483647
def minUnits : Int := -2147483648

/-- Greatest card number, 10^16 - 1 (R62). -/
def maxCard : Nat := 9999999999999999
/-- The base price that marks a class NOT SOLD (2.2). -/
def notSold : Nat := 0xFFFFFFFF

/-- PARTSTATE: revision and part code (10.4). -/
def revision : Nat := 1
def partCode : Nat := 0x3208

/-- Silence limit (R50), BUSY limit (R51), gap limit (R44). -/
def silenceLimit : Nat := 1500
def busyLimit : Nat := 2000
def gapLimit : Nat := 50
/-- Link-loss grace (R92), jam settle time (R122), recovery time (R127). -/
def graceTime : Nat := 10000
def settleTime : Nat := 2000
def recoveryTime : Nat := 60000
/-- Upper limit of the drain window (R14). -/
def drainLimit : Nat := 10000
/-- Room that must remain after a STATION notice (R180). -/
def noticeRoom : Nat := 2048
/-- Fed count at which a live stray tally is closed (R19). -/
def tallyLimit : Nat := 1000

end Sys2Proof.Config
end

