-- ==== Sys2Proof/Machine/State.lean ====
section
/-! DEFINITION. The state of the FZ3208 as plain data: registers, shared store, the units of each of the twelve stations,
and the queue of waiting commands; and the state right after power-on (R172). INVENTORY.md lists every field with its rule. -/

namespace Sys2Proof.Machine

open Sys2Proof

/-! ### Part-wide names -/

/-- Run states in the order of their PARTSTATE codes (10.4). -/
inductive RunState where
  | clearing | stopped | running | stopping
deriving DecidableEq, Repr

/-- The two price pages (R25). -/
inductive Page where
  | a | b
deriving DecidableEq, Repr

/-- The shared store: (address, byte) pairs; an unlisted address reads 0 (R172). -/
abbrev Memory := List Host.Cell

/-! ### Cards, links and frames -/

/-- Card media (11.9). -/
inductive Medium where
  | shop | bank
deriving DecidableEq, Repr

/-- A card: its medium and its 8 card bytes, little-endian (3.3). -/
structure Card where
  medium : Medium
  bytes : BitVec 64
deriving DecidableEq, Repr

/-- Readers, keypad and panel rows, offered by a terminal or agreed with it (R45). -/
structure Ability where
  shop : Bool
  bank : Bool
  keypad : Bool
  rows : Nat
deriving DecidableEq, Repr

/-- The SHOW message codes (3.6, 11.9). -/
inductive Message where
  | balance | remaining | lowFunds | unknownCard | cardBlocked | notAccepted | insufficient | noService
  | authWait | declined | jam | outOfService | sessionTotal | service
deriving DecidableEq, Repr

/-- A frame bound for the terminal (3.3). The values of a SHOW lie in the signed 32-bit range (R53). -/
inductive TxFrame where
  | welcome (agreed : Ability)
  | showMsg (row : Nat) (msg : Message) (first second : Int)
  | eject
deriving DecidableEq, Repr

/-- The frame assembler: its state and what it keeps (R43). -/
inductive Assembler where
  | hunt
  | length
  /-- `got` holds the kind and payload bytes so far, in order. -/
  | body (len : Nat) (got : List Byte)
  | check (len : Nat) (got : List Byte)
deriving DecidableEq, Repr

/-- The frame being sent: all its bytes, fixed when it began (R56), and the place of the byte in progress or next to go. -/
structure Sending where
  bytes : List Byte
  next : Nat
deriving DecidableEq, Repr

/-- One station's terminal link unit (chapter 3). -/
structure LinkUnit where
  up : Bool
  agreed : Ability
  offered : Ability
  held : Option Card
  cardPresent : Bool
  rxErrors : Nat
  losses : Nat
  assembler : Assembler
  lastByte : Time
  silenceStart : Time
  busyHigh : Bool
  busy : Bool
  busyStart : Option Time
  queue : List TxFrame
  sending : Option Sending
  /-- The line bits of the character in progress, in the order they are sent (R40). -/
  character : Option (List Bool)
  gapStart : Option Time
  /-- The length of the inter-frame gap that runs, taken from the working copy when it starts (R41, R56). -/
  gapLength : Nat
  /-- The receiver waits for the line to return to the 1 level after a framing error (R42). -/
  awaitsHigh : Bool
  /-- The MODEL's own field, an input: for each character to come, whether the line is at the 1 level at some time before its start
  bit. With none listed it is (R42; log 31). -/
  rises : List Bool
deriving DecidableEq, Repr

/-! ### Sheets and the copier line unit -/

/-- What a sheet was charged to: a funding entry (0 to 2 for entries 1 to 3) or the stray tally (R6). -/
inductive ChargeTarget where
  | stray
  | entry (k : Fin 3)
deriving DecidableEq, Repr

/-- An in-path entry (R6). Its faces follow from its class (R24). -/
structure Sheet where
  cls : SheetClass
  price : Nat
  target : ChargeTarget
  feedTime : Time
deriving DecidableEq, Repr

/-- The fate of a lost sheet (R114). -/
inductive Fate where
  | credited | charged | stray
deriving DecidableEq, Repr

/-- A lost-list entry: the in-path entry it came from and its fate (R114). -/
structure LostSheet where
  sheet : Sheet
  fate : Fate
deriving DecidableEq, Repr

/-- The causes for which a session ends or a stray tally is closed (R88, R153, 11.9). -/
inductive EndCause where
  | none | cardOut | userEnd | staff | stop | linkLost | lowTimeout | jamLimit | sessionOpened | out | count
deriving DecidableEq, Repr

/-- A stray tally (R18). -/
structure Tally where
  fed : Nat
  delivered : Nat
  lost : Nat
  price : Nat
deriving DecidableEq, Repr

/-- The closed tally of a station (R19, R153). -/
structure ClosedTally where
  tally : Tally
  house : Nat
  waiting : Bool
  time : Time
  cause : EndCause
deriving DecidableEq, Repr

/-- How many matched exits the pace measurement has seen since it was cleared (R13). -/
inductive Matched where
  | zero | one | more
deriving DecidableEq, Repr

/-- One sample of a station's copier lines: the levels (true = high) of FEED, EXIT and FAULT (R1). -/
structure LineSample where
  feed : Bool
  exit : Bool
  fault : Bool
deriving DecidableEq, Repr

/-- One station's copier line unit (chapter 1). The `...High` fields are the levels of the inputs at the latest sample, the
`...Count` fields the samples in a row that differ from the filtered level (R1). `samples` is the MODEL's own field, an input: the
samples of the ticks to come, in their order. With none listed the levels stay (log 5). -/
structure LineUnit where
  samples : List LineSample
  feedHigh : Bool
  exitHigh : Bool
  faultHigh : Bool
  feedCount : Nat
  exitCount : Nat
  faultCount : Nat
  feed : Bool
  exit : Bool
  fault : Bool
  enable : Bool
  /-- The electrical level of the ENABLE output, true meaning high (R16). -/
  enableHigh : Bool
  lifetimeFeed : Nat
  lifetimeExit : Nat
  orphans : Nat
  classFaults : Nat
  inPath : List Sheet
  pace : Nat
  matched : Matched
  lastExit : Time
  drainStart : Time
  live : Tally
  closed : ClosedTally
deriving DecidableEq, Repr

/-- A working copy of a station profile (R21, 11.6). -/
structure WorkingCopy where
  /-- Active levels, 1 meaning high: bit 0 FEED, 1 EXIT, 2 FAULT, 3 size, 4 colour, 5 sides, 6 ENABLE, 7 BUSY. -/
  levels : Byte
  debounce : Nat
  pathDepth : Nat
  transitLimit : Nat
  drainMin : Nat
  lagSheets : Nat
  /-- The allowed set, one bit per class number. -/
  allowed : Byte
  creditCap : Nat
  jamLimit : Nat
  fallback : Nat
  holdStep : Nat
  bankHold : Nat
  lowTime : Nat
  authTime : Nat
  gap : Nat
  house : Nat
  rate : Nat
  parity : Nat
  stopBits : Nat
  acceptShop : Bool
  acceptBank : Bool
deriving DecidableEq, Repr

/-! ### Sessions and funding -/

/-- Station states in the order of their codes (R77, 11.9). -/
inductive StationState where
  | idle | funding | opened | low | jammed | recovery | draining | settling | out
deriving DecidableEq, Repr

/-- The causes for OUT; `none` is also the empty out-pending mark (R77). -/
inductive OutCause where
  | none | staff | jamLimit
deriving DecidableEq, Repr

/-- The conditions of a session context (R78). -/
inductive Condition where
  | empty | funding | live | ending | settling | abandoned
deriving DecidableEq, Repr

/-- The roles of a session (R78); `none` in a context that holds no session. -/
inductive Role where
  | none | customer | service | bank
deriving DecidableEq, Repr

/-- Kinds of funding entry (R79). -/
inductive FundingKind where
  | account | bank | house
deriving DecidableEq, Repr

/-- A bank grant taken (R112): the host's reference and the amount in units. -/
structure Grant where
  reference : BitVec 64
  amount : Nat
deriving DecidableEq, Repr

/-- A funding entry (R79). -/
structure FundingEntry where
  kind : FundingKind
  account : Nat
  slot : Nat
  hold : Nat
  committed : Nat
  grants : List Grant
deriving DecidableEq, Repr

/-- The chain copied from a directory entry, slot by slot (R62). -/
structure Chain where
  first : Nat
  second : Nat
  third : Nat
deriving DecidableEq, Repr

/-- A session context (R78). The counts are kept in full. -/
structure Context where
  condition : Condition
  role : Role
  card : Option Card
  endCause : EndCause
  number : BitVec 32
  chain : Chain
  foundAt : Nat
  stopAsking : Bool
  startTime : Time
  endTime : Time
  delivered : Vector Nat 8
  fed : Nat
  lagFeeds : Nat
  jams : Nat
  lostCredited : Nat
  lostCharged : Nat
  funding : List FundingEntry
deriving DecidableEq, Repr

/-- The states of an authorization request record (R103). -/
inductive AuthState where
  | none | deferred | unsent | asked
deriving DecidableEq, Repr

/-- The kinds of authorization request (R103). -/
inductive AuthKind where
  | none | first | increment
deriving DecidableEq, Repr

/-- An AUTH WANTED report waiting in a station's report slot (R104). -/
structure AuthWanted where
  id : Half
  kind : AuthKind
  amount : Nat
  token : BitVec 64
  number : BitVec 32
deriving DecidableEq, Repr

/-- A station's authorization state (R103, R105). -/
structure Auth where
  state : AuthState
  kind : AuthKind
  amount : Nat
  id : Half
  written : Time
  lastId : Half
  slot : Option AuthWanted
deriving DecidableEq, Repr

/-! ### Jams -/

/-- The causes of a jam (R115). -/
inductive JamCause where
  | none | copier | transit | overfull
deriving DecidableEq, Repr

/-- The content of one jam, as reported and recorded (R119, R120). -/
structure JamReport where
  cause : JamCause
  declared : Time
  stateAt : StationState
  number : BitVec 32
  jams : Nat
  sheets : List LostSheet
deriving DecidableEq, Repr

/-- One station's jam unit (R114). `record` is `none` when EMPTY, else the held jam and the overflow count. -/
structure JamUnit where
  lost : List LostSheet
  cause : JamCause
  declared : Time
  settleStart : Time
  pendingReport : Option JamReport
  deliveries : Nat
  recoveryStart : Time
  record : Option (JamReport × Nat)
deriving DecidableEq, Repr

/-! ### Stations, port and part -/

/-- One station. `hostImage` holds the record's bytes, as one number, when the host last changed it while STOPPED. -/
structure Station where
  state : StationState
  outCause : OutCause
  outPending : OutCause
  nextCard : Option Card
  lowStart : Option Time
  graceStart : Option Time
  context : Context
  guardValue : Nat
  noService : Bool
  auth : Auth
  jam : JamUnit
  line : LineUnit
  link : LinkUnit
  copy : WorkingCopy
  editCount : Half
  hostImage : Option Nat
deriving DecidableEq, Repr

/-- A kept report produced by station activity, named by the place it waits in (R178). -/
inductive Producer where
  | session (i : StationId)
  | stray (i : StationId)
  | auth (i : StationId)
  | jam (i : StationId)
  | close (account : Nat)
deriving DecidableEq, Repr

/-- What the units read and only the run control, the tariff unit, the clock and the host's RPTRD writes change. -/
structure Mode where
  run : RunState
  page : Page
  partTime : Time
  rptRd : Nat
deriving DecidableEq, Repr

/-- What the units change: the store, the stations, the report writer and the interrupt flags. -/
structure Floor where
  store : Memory
  stations : Vector Station 12
  waitQueue : List Producer
  dropped : Bool
  rptWr : Nat
  irqFlag : Half
deriving DecidableEq, Repr

/-- The remaining registers of the local bus port (10.4), the latched high halves and the word last read (R163). -/
structure Port where
  ordPost : Half
  ordDone : Half
  irqMask : Half
  refusal : Nat
  latch : Vector (Option Half) 8
  data : Half
deriving DecidableEq, Repr

/-- The whole state. `pending` is the queue of commands that wait, first in, first out. -/
structure State where
  mode : Mode
  floor : Floor
  port : Port
  pending : List Instr
deriving DecidableEq, Repr

/-- The reasons a command could stop the machine. There is none: the port completes every access (R163) and every event
has an outcome. -/
inductive Fault where
deriving DecidableEq, Repr

/-- The reasons a command could have no meaning. No meaning answers with one. -/
inductive Refusal where
  /-- Raised by an arm of `exec` whose command has no meaning yet; safe, since nothing can be proved of a refused step. -/
  | notModelled (mnemonic : String)
deriving DecidableEq, Repr

/-! ### Power-on values -/

/-- No readers, no keypad, no rows (R60). -/
def Ability.none : Ability := { shop := false, bank := false, keypad := false, rows := 0 }

/-- The link unit after power-on (R60). -/
def LinkUnit.powerOn : LinkUnit :=
  { up := false, agreed := .none, offered := .none, held := none, cardPresent := false, rxErrors := 0, losses := 0,
    assembler := .hunt, lastByte := 0, silenceStart := 0, busyHigh := true, busy := false, busyStart := none,
    queue := [], sending := none, character := none, gapStart := none, gapLength := 0, awaitsHigh := false, rises := [] }

/-- The empty tally (R23). -/
def Tally.zero : Tally := { fed := 0, delivered := 0, lost := 0, price := 0 }

/-- The empty closed tally (R23). -/
def ClosedTally.zero : ClosedTally := { tally := .zero, house := 0, waiting := false, time := 0, cause := .none }

/-- The line unit after power-on (R23). The input levels are the model's choice (log 6). -/
def LineUnit.powerOn : LineUnit :=
  { samples := [], feedHigh := true, exitHigh := true, faultHigh := true, feedCount := 0, exitCount := 0, faultCount := 0
    feed := false, exit := false, fault := false, enable := false, enableHigh := true, lifetimeFeed := 0, lifetimeExit := 0, orphans := 0, classFaults := 0
    inPath := [], pace := 0, matched := .zero, lastExit := 0, drainStart := 0, live := .zero, closed := .zero }

/-- The power-on working copy: the all-zero profile, clamped (R23). -/
def WorkingCopy.powerOn : WorkingCopy :=
  { levels := 0, debounce := 1, pathDepth := 1, transitLimit := 200, drainMin := 100, lagSheets := 0, allowed := 0,
    creditCap := 0, jamLimit := 1, fallback := 0, holdStep := 100, bankHold := 100, lowTime := 10, authTime := 5,
    gap := 0, house := 0, rate := 0, parity := 0, stopBits := 0, acceptShop := false, acceptBank := false }

/-- The EMPTY context, every field zero (R78). -/
def Context.empty : Context :=
  { condition := .empty, role := .none, card := none, endCause := .none, number := 0,
    chain := { first := 0, second := 0, third := 0 }, foundAt := 0, stopAsking := false, startTime := 0, endTime := 0,
    delivered := .replicate 8 0, fed := 0, lagFeeds := 0, jams := 0, lostCredited := 0, lostCharged := 0, funding := [] }

/-- No request (R103). -/
def Auth.powerOn : Auth :=
  { state := .none, kind := .none, amount := 0, id := 0, written := 0, lastId := 0, slot := none }

/-- The jam unit after power-on (R114). -/
def JamUnit.powerOn : JamUnit :=
  { lost := [], cause := .none, declared := 0, settleStart := 0, pendingReport := none, deliveries := 0,
    recoveryStart := 0, record := none }

/-- A station after power-on (R23, R60, R102, R103, R114). Its guard record is formed when CLEARING is done (R35, R172): until then
the guard is 0 and the no-service mark clear, as in a record of zeroed words (log 2). -/
def Station.powerOn : Station :=
  { state := .idle, outCause := .none, outPending := .none, nextCard := none, lowStart := none, graceStart := none,
    context := .empty, guardValue := 0, noService := false, auth := .powerOn, jam := .powerOn, line := .powerOn,
    link := .powerOn, copy := .powerOn, editCount := 0, hostImage := none }

/-- The state right after power-on (R172): CLEARING, every register and unit at its power-on value, nothing queued. -/
def State.reset : State :=
  { mode := { run := .clearing, page := .a, partTime := 0, rptRd := 0 }
    floor := { store := [], stations := .replicate 12 .powerOn, waitQueue := [], dropped := false, rptWr := 0, irqFlag := 0 }
    port := { ordPost := 0, ordDone := 0, irqMask := 0, refusal := 0, latch := .replicate 8 none, data := 0 }
    pending := [] }

end Sys2Proof.Machine
end

