-- ==== Sys2Proof/Machine/Ops.lean ====
section
/-! DEFINITION. The shared operations under every meaning: store cells and little-endian fields, layouts, saturating
arithmetic, edit counts, the part header, account records, and access to stations. -/

namespace Sys2Proof.Machine

open Sys2Proof

/-! ### Store cells -/

/-- Whether an address has a cell of its own: inside the store and outside the station records, whose bytes are computed
from the stations (log 12). -/
def isCell (a : Nat) : Bool :=
  decide (a < Config.storeBytes) && !(decide (Config.stationBase ≤ a) && decide (a < Config.stationEnd))

/-- The byte at an address; an unlisted address reads 0 (R172). -/
def Memory.read : Memory → Nat → Byte
  | [], _ => 0
  | (k, b) :: rest, a => if k = a then b else Memory.read rest a

/-- Puts a cell before the first cell of a greater address. -/
def Memory.insert : Memory → Nat → Byte → Memory
  | [], a, b => [(a, b)]
  | (k, c) :: rest, a, b => if a < k then (a, b) :: (k, c) :: rest else (k, c) :: Memory.insert rest a b

/-- Writes one byte and keeps the canonical form: a byte of 0 is not listed. An address that has no cell is left alone. -/
def Memory.write (m : Memory) (a : Nat) (b : Byte) : Memory :=
  if isCell a then
    let rest := m.filter fun c => c.1 != a
    if b = 0 then rest else Memory.insert rest a b
  else m

/-- The canonical form from address `lo` on: addresses strictly rise, every address has a cell, no listed byte is 0. -/
def Memory.wfFrom : Nat → Memory → Bool
  | _, [] => true
  | lo, (a, b) :: rest => decide (lo ≤ a) && isCell a && (b != 0) && Memory.wfFrom (a + 1) rest

/-- The canonical form of a store. -/
def Memory.wf (m : Memory) : Bool := Memory.wfFrom 0 m

/-- The little-endian number in the `n` bytes from `a` (00, Store fields). -/
def Memory.readLE (m : Memory) (a : Nat) : Nat → Nat
  | 0 => 0
  | n + 1 => (m.read a).toNat + 256 * Memory.readLE m (a + 1) n

/-- Writes bytes at rising addresses from `a`. -/
def Memory.writeBytes : Memory → Nat → List Byte → Memory
  | m, _, [] => m
  | m, a, b :: bs => Memory.writeBytes (m.write a b) (a + 1) bs

/-- The `n` low bytes of a number, least significant first. -/
def numberBytes : Nat → Nat → List Byte
  | 0, _ => []
  | n + 1, x => BitVec.ofNat 8 x :: numberBytes n (x / 256)

/-- Writes the `n` low bytes of `x` at `a`, least significant first. -/
def Memory.writeLE (m : Memory) (a n x : Nat) : Memory := m.writeBytes a (numberBytes n x)

/-! ### Layouts: (size in bytes, value) in rising order of offset, as the tables of chapter 11 read -/

/-- The bytes of a layout as one little-endian number. A value wider than its size keeps its low bytes. -/
def layoutNumber : List (Nat × Nat) → Nat
  | [] => 0
  | (n, v) :: rest => v % 256 ^ n + 256 ^ n * layoutNumber rest

/-- The bytes a layout takes. -/
def layoutSize : List (Nat × Nat) → Nat
  | [] => 0
  | (n, _) :: rest => n + layoutSize rest

/-- The bytes of a layout, in rising order. -/
def layoutBytes (l : List (Nat × Nat)) : List Byte := numberBytes (layoutSize l) (layoutNumber l)

/-- The field of `n` bytes at offset `o` of a record held as one little-endian number. -/
def imageField (image o n : Nat) : Nat := image / 256 ^ o % 256 ^ n

/-! ### Arithmetic -/

/-- Adds and stops at the greatest value (00, Numbers and ranges). -/
def satAdd (greatest a b : Nat) : Nat := min (a + b) greatest

/-- Adds to a 32-bit count and stops at 4,294,967,295. -/
def satAdd32 (x : BitVec 32) (n : Nat) : BitVec 32 := BitVec.ofNat 32 (satAdd Config.max32 x.toNat n)

/-- Limits a number to the signed 32-bit range (R53, R133). -/
def limit32 (x : Int) : Int := max Config.minUnits (min Config.maxUnits x)

/-- The least whole number not below `x / y` (00, Numbers and ranges). -/
def ceilDiv (x y : Nat) : Nat := (x + (y - 1)) / y

/-- Keeps a number between the ends of its range (R169, step 4). -/
def clampTo (least greatest x : Nat) : Nat := max least (min greatest x)

/-- 1 for true, 0 for false: a bit of a record field. -/
def bit (b : Bool) : Nat := if b then 1 else 0

/-- An edit count after one whole change: made odd before it and even after it (00, R134). -/
def bracket (c : Half) : Half := (c ||| 1) + 1

/-- An edit count made odd before a change; an odd one stays. -/
def opened (c : Half) : Half := c ||| 1

/-- Whether an edit count shows a change in progress. -/
def isOdd (c : Half) : Bool := c.getLsbD 0

/-! ### The part header (R165, 11.8) -/

/-- A header field of `n` bytes at offset `o`. -/
def Memory.header (m : Memory) (o n : Nat) : Nat := m.readLE (Config.headerBase + o) n

/-- Writes a header field outside any edit count. -/
def Memory.setHeader (m : Memory) (o n x : Nat) : Memory := m.writeLE (Config.headerBase + o) n x

/-- The bytes of the header that belong to no field of 11.8 made 0, as a rewrite of the header leaves them (R181; log 14). -/
def Memory.clearReserved (m : Memory) : Memory :=
  m.filter fun c => !(decide (Config.headerBase + 28 ≤ c.1) && decide (c.1 < Config.stationBase))

/-- Changes header fields other than the directory's under one odd header edit count (R165). -/
def Memory.editHeader (m : Memory) (change : Memory → Memory) : Memory :=
  (change m).clearReserved.setHeader 4 2 (bracket (BitVec.ofNat 16 (m.header 4 2))).toNat

/-- The directory count (R62). -/
def Memory.directoryCount (m : Memory) : Nat := m.header 0 2

/-! ### Account records (R132, 11.3) -/

/-- An account record. State and kind are the bytes as they stand, since the host may load any (R137, R148). -/
structure Account where
  state : Byte
  kind : Byte
  tier : Bool
  overdrawn : Bool
  holders : Byte
  editCount : Half
  balance : BitVec 32
  limit : BitVec 32
  held : BitVec 32
  inFlight : BitVec 32
  delivered : BitVec 32
  money : BitVec 32
  faces : Vector (BitVec 32) 8
deriving DecidableEq, Repr

/-- Account states (11.9). -/
def Account.isFree (a : Account) : Bool := a.state == 0
def Account.isOpen (a : Account) : Bool := a.state == 1
def Account.isFrozen (a : Account) : Bool := a.state == 2
def Account.isClosing (a : Account) : Bool := a.state == 3
/-- Account kinds (11.9). -/
def Account.isPrepaid (a : Account) : Bool := a.kind == 1
def Account.isCredit (a : Account) : Bool := a.kind == 2
def Account.isHouse (a : Account) : Bool := a.kind == 3

/-- Whether state and kind hold codes of 11.9 (R137). -/
def Account.codesValid (a : Account) : Bool :=
  decide (a.state.toNat ≤ 3) && (a.isFree || a.isPrepaid || a.isCredit || a.isHouse)

/-- Where account `n` lies (11.3). -/
def accountAddr (n : Nat) : Nat := Config.accountBase + 64 * n

/-- Reads account `n`. -/
def Memory.account (m : Memory) (n : Nat) : Account :=
  let p := accountAddr n
  let word := fun o => BitVec.ofNat 32 (m.readLE (p + o) 4)
  { state := m.read p
    kind := m.read (p + 1)
    tier := (m.read (p + 2)).getLsbD 0
    overdrawn := (m.read (p + 2)).getLsbD 1
    holders := m.read (p + 3)
    editCount := BitVec.ofNat 16 (m.readLE (p + 4) 2)
    balance := word 8
    limit := word 12
    held := word 16
    inFlight := word 20
    delivered := word 24
    money := word 28
    faces := #v[word 32, word 36, word 40, word 44, word 48, word 52, word 56, word 60] }

/-- The layout of an account record; reserved bits and bytes are 0 (11.3, R181). -/
def Account.layout (a : Account) : List (Nat × Nat) :=
  [(1, a.state.toNat), (1, a.kind.toNat), (1, bit a.tier + 2 * bit a.overdrawn), (1, a.holders.toNat),
   (2, a.editCount.toNat), (2, 0), (4, a.balance.toNat), (4, a.limit.toNat), (4, a.held.toNat), (4, a.inFlight.toNat),
   (4, a.delivered.toNat), (4, a.money.toNat)] ++ a.faces.toList.map fun w => (4, w.toNat)

/-- Rewrites account `n` as it is given, edit count and all. A number above 1023 names no record (00, Numbering). -/
def Memory.putAccount (m : Memory) (n : Nat) (a : Account) : Memory :=
  if n < Config.accountCount then m.writeBytes (accountAddr n) (layoutBytes a.layout) else m

/-- One whole account request on record `n`: the change is made under the record's edit count, and a request that
changes nothing writes nothing (R134). -/
def Memory.editAccount (m : Memory) (n : Nat) (change : Account → Account) : Memory :=
  let a := m.account n
  let b := change a
  if b = a then m else m.putAccount n { b with editCount := bracket a.editCount }

/-- One whole account request that has record `n` even under an odd edit count although it may leave every field as it stands:
the application of a block (R134, R155). -/
def Memory.bracketAccount (m : Memory) (n : Nat) (change : Account → Account) : Memory :=
  let a := m.account n
  m.putAccount n { change a with editCount := bracket a.editCount }

/-- The part of a longer request that changes record `n`: the edit count is left odd until `closeAccount` (R134). -/
def Memory.openAccount (m : Memory) (n : Nat) (change : Account → Account) : Memory :=
  let a := m.account n
  let b := change a
  if b = a then m else m.putAccount n { b with editCount := opened a.editCount }

/-- The end of a longer request: an odd edit count becomes even (R134). -/
def Memory.closeAccount (m : Memory) (n : Nat) : Memory :=
  let a := m.account n
  if isOdd a.editCount then m.putAccount n { a with editCount := a.editCount + 1 } else m

/-- The available amount, exact and signed (R133). -/
def Account.available (a : Account) : Int :=
  a.balance.toInt + (if a.isCredit then (a.limit.toNat : Int) else 0) - (a.held.toNat : Int)

/-- Whether the balance stands below the floor of the account's kind (R133). -/
def Account.belowFloor (a : Account) : Bool :=
  if a.isPrepaid then decide (a.balance.toInt < 0)
  else if a.isCredit then decide (a.balance.toInt < -(a.limit.toNat : Int))
  else false

/-- The position P of an account: D + F, saturating (R28). -/
def Account.position (a : Account) : Nat := satAdd Config.max32 a.delivered.toNat a.inFlight.toNat

/-- Sets the balance to a number, limited to the signed 32-bit range (R139, R140, R156). -/
def Account.withBalance (a : Account) (x : Int) : Account := { a with balance := BitVec.ofInt 32 (limit32 x) }

/-- Sets OVERDRAWN when the balance is below the floor, and otherwise leaves it (R140, R156, R158). -/
def Account.markOverdrawn (a : Account) : Account := { a with overdrawn := a.overdrawn || a.belowFloor }

/-- Judges OVERDRAWN afresh (R138, R141, R148). -/
def Account.judgeOverdrawn (a : Account) : Account := { a with overdrawn := a.belowFloor }

/-- Faces fed on the account (R136). -/
def Account.addInFlight (a : Account) (faces : Nat) : Account :=
  { a with inFlight := satAdd32 a.inFlight faces }

/-- Faces that leave the path (R136). -/
def Account.dropInFlight (a : Account) (faces : Nat) : Account :=
  { a with inFlight := BitVec.ofNat 32 (a.inFlight.toNat - faces) }

/-- Faces delivered: D and the count of the class rise, each saturating (R136, R159). -/
def Account.addDelivered (a : Account) (cls : SheetClass) (faces : Nat) : Account :=
  { a with delivered := satAdd32 a.delivered faces, faces := a.faces.set cls (satAdd32 a.faces[cls] faces) }

/-- Ends the billing period: D, the per-class faces and the period money become 0 (R160). -/
def Account.closePeriod (a : Account) : Account :=
  { a with delivered := 0, money := 0, faces := .replicate 8 0 }

/-- All account numbers in ascending order. -/
def accountNumbers : List Nat := List.range Config.accountCount

/-! ### Stations -/

/-- The stations in ascending station number. -/
def stationIds : List StationId := [0, 1, 2, 3, 4, 5, 6, 7, 8, 9, 10, 11]

/-- Station `i` of the floor. -/
def Floor.station (f : Floor) (i : StationId) : Station := f.stations[i]

/-- Replaces station `i`. -/
def Floor.setStation (f : Floor) (i : StationId) (x : Station) : Floor := { f with stations := f.stations.set i x }

/-- Changes station `i`. -/
def Floor.onStation (f : Floor) (i : StationId) (change : Station → Station) : Floor :=
  f.setStation i (change (f.station i))

/-- Changes the store. -/
def Floor.onStore (f : Floor) (change : Memory → Memory) : Floor := { f with store := change f.store }

/-- Does `act` at every station in ascending station number (log 17). -/
def forStations (act : StationId → Floor → Floor) (f : Floor) : Floor := stationIds.foldl (fun g i => act i g) f

/-- RUNNING or STOPPING: the part's own work goes on (R7, R10). -/
def Mode.runs (e : Mode) : Bool := e.run == .running || e.run == .stopping

/-- The faces of a class: 1 simplex, 2 duplex (R24). -/
def facesOf (c : SheetClass) : Nat := if c.val % 2 = 1 then 2 else 1

/-! ### Funding entries and contexts -/

/-- The last funding entry, to which sheets are charged (R79). -/
def Context.lastEntry (c : Context) : Option FundingEntry := c.funding.getLast?

/-- The remaining amount, in milli-units, signed and exact (R34). -/
def FundingEntry.remaining (e : FundingEntry) : Int := (e.hold : Int) * 1000 - (e.committed : Int)

/-- The remaining amount in whole units, rounded down (R11). -/
def FundingEntry.remainingUnits (e : FundingEntry) : Int := Int.fdiv e.remaining 1000

/-- The settled amount: the committed amount rounded half up to whole units (R37). -/
def settledAmount (committed : Nat) : Nat := (committed + 500) / 1000

/-- Whether the entry names an account (R79). -/
def FundingEntry.namesAccount (e : FundingEntry) : Bool := e.kind == .account || e.kind == .house

/-- The total of the session's delivered counts (R11; counted in full, log 24). -/
def Context.totalDelivered (c : Context) : Nat := c.delivered.toList.sum

/-- A session is live from OPEN until SETTLING: its context is LIVE or ENDING (1.6, R78). -/
def Context.hasLiveSession (c : Context) : Bool := c.condition == .live || c.condition == .ending

/-- Changes the entry a sheet names. -/
def Context.onEntry (c : Context) (k : Fin 3) (change : FundingEntry → FundingEntry) : Context :=
  { c with funding := c.funding.modify k change }

/-- The hold need in whole units: ceil(guard / 1000) (R35). -/
def Station.holdNeed (x : Station) : Nat := ceilDiv x.guardValue 1000

/-- The session number a report carries: that of a LIVE or ENDING context, else 0 (R119, R180). -/
def Station.reportedNumber (x : Station) : BitVec 32 := if x.context.hasLiveSession then x.context.number else 0

/-- In service: the part RUNNING or STOPPING and the station not OUT (R7, R47). -/
def inService (e : Mode) (x : Station) : Bool := e.runs && x.state != .out

end Sys2Proof.Machine
end

