-- ==== Sys2Proof/Machine/Flags.lean ====
section
/-! DEFINITION. The interrupt flags and the interrupt output (R166). -/

namespace Sys2Proof.Machine

open Sys2Proof

/-- The flags, in the order of their places in IRQFLAG and IRQMASK (10.4). -/
inductive IrqFlag where
  | order | report | overrun | guard | run
deriving DecidableEq, Repr

/-- The bit number of a flag (10.4). -/
def IrqFlag.place : IrqFlag → Nat
  | .order => 0
  | .report => 1
  | .overrun => 2
  | .guard => 3
  | .run => 4

/-- The IRQFLAG word with one flag set. -/
def IrqFlag.mask (k : IrqFlag) : Half := 1 <<< k.place

/-- Sets a flag (R166). -/
def Floor.raise (k : IrqFlag) (f : Floor) : Floor := { f with irqFlag := f.irqFlag ||| k.mask }

/-- Whether a flag is set. -/
def Floor.flag (f : Floor) (k : IrqFlag) : Bool := f.irqFlag.getLsbD k.place

/-- Clears each flag whose bit in the written value is 1 and leaves the others (R166). -/
def Floor.clearFlags (v : Half) (f : Floor) : Floor := { f with irqFlag := f.irqFlag &&& ~~~v }

/-- The interrupt output: active while at least one flag and its enable are both set (R166). -/
def interruptOutput (s : State) : Bool := (s.floor.irqFlag &&& s.port.irqMask) != 0

end Sys2Proof.Machine
end

