-- ==== Sys2Proof/Machine/Reports.lean ====
section
/-! DEFINITION. The report stream: room, placement, the writing of a report with its PAD, and STATION notices
(R176, R178 to R180, 11.2). -/

namespace Sys2Proof.Machine

open Sys2Proof

/-- The kinds of report (11.9). -/
inductive ReportKind where
  | pad | settlement | authWanted | period | accountClosed | jam | station
deriving DecidableEq, Repr

/-- The code of a report kind (11.9). -/
def ReportKind.code : ReportKind → Nat
  | .pad => 0
  | .settlement => 1
  | .authWanted => 2
  | .period => 3
  | .accountClosed => 4
  | .jam => 5
  | .station => 6

/-- Bytes used by unread reports (R176). -/
def usedBytes (wr rd : Nat) : Nat := (wr + Config.streamBytes - rd) % Config.streamBytes

/-- Free room (R176). -/
def freeRoom (wr rd : Nat) : Nat := 8188 - usedBytes wr rd

/-- The length of the PAD that a report of length `len` at write offset `wr` needs: 0 when it is placed in place (R176). -/
def padLength (wr len : Nat) : Nat :=
  if wr + len ≤ 8184 ∨ wr + len = Config.streamBytes then 0 else Config.streamBytes - wr

/-- The write offset after a report of length `len` placed at `wr` (R176). -/
def offsetAfter (wr len : Nat) : Nat :=
  if padLength wr len = 0 then (wr + len) % Config.streamBytes else len

/-- The room a report needs, with its PAD (R176). -/
def roomNeeded (wr len : Nat) : Nat := padLength wr len + len

/-- Whether a report of length `len` fits the free room (R176). -/
def fits (e : Mode) (f : Floor) (len : Nat) : Bool := decide (roomNeeded f.rptWr len ≤ freeRoom f.rptWr e.rptRd)

/-- Whether `count` reports of one length fit at once, placed in sequence with the PADs their places need (R179). -/
def fitsAll (room wr len : Nat) : Nat → Bool
  | 0 => true
  | count + 1 =>
    decide (roomNeeded wr len ≤ room) && fitsAll (room - roomNeeded wr len) (offsetAfter wr len) len count

/-- The 8-byte header of a report (11.2). -/
def reportHeader (e : Mode) (len kind station : Nat) : List (Nat × Nat) :=
  [(2, len), (1, kind), (1, station), (4, e.partTime.toNat)]

/-- Writes a report whose fields after the header are `body`: the PAD if its place needs one, the content, and then the
write offset; the REPORT flag is set (R166, R176). The caller has found room. -/
def writeReport (e : Mode) (kind : ReportKind) (station : Nat) (body : List (Nat × Nat)) (f : Floor) : Floor :=
  let len := 8 + layoutSize body
  let pad := padLength f.rptWr len
  let report := layoutBytes (reportHeader e len kind.code station ++ body)
  let padded :=
    if pad = 0 then f.store.writeBytes (Config.streamBase + f.rptWr) report
    else (f.store.writeBytes (Config.streamBase + f.rptWr) (layoutBytes (reportHeader e pad 0 0))).writeBytes
      Config.streamBase report
  { f with store := padded, rptWr := offsetAfter f.rptWr len }.raise .report

/-- Whether a kept report may be written now: the wait queue is empty and the report fits (R178, R179). -/
def mayWrite (e : Mode) (f : Floor) (len : Nat) : Bool := f.waitQueue.isEmpty && fits e f len

/-- Puts a producer at the end of the wait queue (R178). -/
def Floor.enqueue (p : Producer) (f : Floor) : Floor := { f with waitQueue := f.waitQueue ++ [p] }

/-- The events of a STATION notice (11.9). -/
inductive NoticeEvent where
  | linkDown | linkUp | out | entered | low
deriving DecidableEq, Repr

/-- The code of a STATION event (11.9). -/
def NoticeEvent.code : NoticeEvent → Nat
  | .linkDown => 1
  | .linkUp => 2
  | .out => 3
  | .entered => 4
  | .low => 5

/-- The code of an out cause (11.9). -/
def OutCause.code : OutCause → Nat
  | .none => 0
  | .staff => 1
  | .jamLimit => 2

/-- Hands a STATION notice to the report writer: produced while RUNNING or STOPPING, written when the wait queue is empty
and at least 2,048 bytes would remain, else dropped and the dropped-notice mark set; a written notice carries the mark and
clears it (R180). -/
def stationNotice (e : Mode) (i : StationId) (event : NoticeEvent) (cause : OutCause) (f : Floor) : Floor :=
  if e.runs then
    if f.waitQueue.isEmpty && decide (roomNeeded f.rptWr 16 + Config.noticeRoom ≤ freeRoom f.rptWr e.rptRd) then
      let body := [(1, event.code), (1, cause.code), (1, bit f.dropped), (1, 0), (4, (f.station i).reportedNumber.toNat)]
      { writeReport e .station (stationNumber i) body f with dropped := false }
    else { f with dropped := true }
  else f

end Sys2Proof.Machine
end

