-- ==== Sys2Proof/Machine/Operands.lean ====
section
/-! DEFINITION. What commands and units read from the store: order slots and their answers (11.1), price pages (11.5),
station profiles and the working copies made of them (11.6, R21, R169), and card directory entries (11.4, R182). -/

namespace Sys2Proof.Machine

open Sys2Proof

/-! ### Order slots -/

/-- The result codes of orders (R175, 11.9). -/
inductive Result where
  | done | clamped | accepted | badKind | badValue | notFound | existing | full | wrongState | tooLate | short | noRoom
deriving DecidableEq, Repr

/-- The code of a result (11.9). -/
def Result.code : Result → Nat
  | .done => 1
  | .clamped => 2
  | .accepted => 3
  | .badKind => 4
  | .badValue => 5
  | .notFound => 6
  | .existing => 7
  | .full => 8
  | .wrongState => 9
  | .tooLate => 10
  | .short => 11
  | .noRoom => 12

/-- What an order writes into its slot: the result and the fields of the answer from answer offset 0 (11.1). -/
structure Reply where
  result : Result
  answer : List (Nat × Nat)
deriving DecidableEq, Repr

/-- A reply whose answer bytes are all 0 (R181). -/
def Reply.bare (r : Result) : Reply := { result := r, answer := [] }

/-- Where the slot of a done count lies: slot (done count mod 64), 32 bytes each (R174, 11.1). -/
def slotAddr (done : Half) : Nat := 32 * (done.toNat % 64)

/-- The kind byte of a slot. -/
def Memory.slotKind (m : Memory) (slot : Nat) : Nat := (m.read slot).toNat

/-- The parameter of `n` bytes at parameter offset `o` of a slot (11.1). -/
def Memory.param (m : Memory) (slot o n : Nat) : Nat := m.readLE (slot + 4 + o) n

/-- Writes the result and the 8 answer bytes, unused ones 0 (R174, R181). -/
def Memory.writeReply (m : Memory) (slot : Nat) (r : Reply) : Memory :=
  (m.write (slot + 1) (BitVec.ofNat 8 r.result.code)).writeLE (slot + 24) 8 (layoutNumber r.answer)

/-- The station an order names at parameter offset 0, when its number is 1 to 12 (R175). -/
def Memory.paramStation (m : Memory) (slot : Nat) : Option StationId :=
  let k := m.param slot 0 1
  if h : 1 ≤ k ∧ k ≤ 12 then some ⟨k - 1, by omega⟩ else none

/-! ### Price pages -/

/-- Where a price page lies (R164). -/
def Page.base : Page → Nat
  | .a => Config.pageABase
  | .b => Config.pageBBase

/-- The other page (R25). -/
def Page.other : Page → Page
  | .a => .b
  | .b => .a

/-- The code of a page (11.9). -/
def Page.code : Page → Nat
  | .a => 0
  | .b => 1

/-- The base price of a class, in milli-units, or the NOT SOLD value (2.2, 11.5). -/
def Memory.basePrice (m : Memory) (p : Page) (c : SheetClass) : Nat := m.readLE (p.base + 4 * c.val) 4

/-- The threshold of a tier; its top byte is not read (11.5, R182). -/
def Memory.threshold (m : Memory) (p : Page) (t : Fin 4) : Nat := m.readLE (p.base + 32 + 4 * t.val) 3

/-- The rate of a tier, in per-mille (11.5). -/
def Memory.rate (m : Memory) (p : Page) (t : Fin 4) : Nat := m.readLE (p.base + 48 + 2 * t.val) 2

/-- The page label (11.5). -/
def Memory.pageLabel (m : Memory) (p : Page) : Nat := m.readLE (p.base + 56) 4

/-- Whether a class is sold on a page (2.2). -/
def Memory.sold (m : Memory) (p : Page) (c : SheetClass) : Bool := m.basePrice p c != Config.notSold

/-- The classes in class-number order (R24). -/
def classIds : List SheetClass := [0, 1, 2, 3, 4, 5, 6, 7]

/-- The first check of R26 that a page fails: the failure kind (11.9) and the tier or class number. -/
def Memory.pageFailure (m : Memory) (p : Page) : Option (Nat × Nat) :=
  if m.threshold p 0 ≠ 0 then some (1, 0)
  else match ([1, 2, 3] : List (Fin 4)).find? fun t => m.threshold p t < m.threshold p (t - 1) with
    | some t => some (2, t.val)
    | none =>
      match ([0, 1, 2, 3] : List (Fin 4)).find? fun t => m.rate p t > 500 with
      | some t => some (3, t.val)
      | none =>
        match classIds.find? fun c => m.basePrice p c > 2000000 && m.sold p c with
        | some c => some (4, c.val)
        | none => none

/-! ### Station profiles -/

/-- Where the profile of a station lies (11.6). -/
def profileAddr (i : StationId) : Nat := Config.profileBase + 64 * i.val

/-- The profile enable flag (11.6). -/
def Memory.profileEnabled (m : Memory) (i : StationId) : Bool := (m.read (profileAddr i)).getLsbD 0

/-- A profile as the host wrote it, field for field, before any clamping (11.6). -/
def Memory.profile (m : Memory) (i : StationId) : WorkingCopy :=
  let p := profileAddr i
  let byte := fun o => (m.read (p + o)).toNat
  { levels := m.read (p + 1)
    debounce := byte 2
    pathDepth := byte 3
    transitLimit := m.readLE (p + 4) 2
    drainMin := m.readLE (p + 6) 2
    lagSheets := byte 8
    allowed := m.read (p + 9)
    creditCap := byte 10
    jamLimit := byte 11
    fallback := m.readLE (p + 12) 4
    holdStep := m.readLE (p + 16) 4
    bankHold := m.readLE (p + 20) 4
    lowTime := m.readLE (p + 24) 2
    authTime := byte 26
    gap := byte 27
    house := m.readLE (p + 28) 2
    rate := byte 30
    parity := byte 31
    stopBits := byte 32
    acceptShop := (m.read (p + 33)).getLsbD 0
    acceptBank := (m.read (p + 33)).getLsbD 1 }

/-- A profile with each field outside its range clamped: numeric fields to the nearest end, coded fields to the last code,
a house account above 1023 to account 0 (R21, R169 step 4). -/
def WorkingCopy.clamped (w : WorkingCopy) : WorkingCopy :=
  { w with
    debounce := clampTo 1 15 w.debounce
    pathDepth := clampTo 1 8 w.pathDepth
    transitLimit := clampTo 200 10000 w.transitLimit
    drainMin := clampTo 100 5000 w.drainMin
    lagSheets := clampTo 0 7 w.lagSheets
    creditCap := clampTo 0 15 w.creditCap
    jamLimit := clampTo 1 7 w.jamLimit
    fallback := clampTo 0 2000000 w.fallback
    holdStep := clampTo 100 100000 w.holdStep
    bankHold := clampTo 100 100000 w.bankHold
    lowTime := clampTo 10 600 w.lowTime
    authTime := clampTo 5 60 w.authTime
    gap := clampTo 0 20 w.gap
    house := if w.house ≤ 1023 then w.house else 0
    rate := clampTo 0 3 w.rate
    parity := clampTo 0 3 w.parity
    stopBits := clampTo 0 1 w.stopBits }

/-- The fields that clamping can change, in the order of 11.6. -/
def WorkingCopy.rangedFields (w : WorkingCopy) : List Nat :=
  [w.debounce, w.pathDepth, w.transitLimit, w.drainMin, w.lagSheets, w.creditCap, w.jamLimit, w.fallback, w.holdStep,
   w.bankHold, w.lowTime, w.authTime, w.gap, w.house, w.rate, w.parity, w.stopBits]

/-- How many fields clamping changes (R169 step 4). -/
def WorkingCopy.clampCount (w : WorkingCopy) : Nat :=
  (List.zipWith (fun a b => bit (a != b)) w.rangedFields w.clamped.rangedFields).sum

/-- Whether the active level of line `k` of the profile's levels byte is high (11.6). -/
def WorkingCopy.activeHigh (w : WorkingCopy) (k : Nat) : Bool := w.levels.getLsbD k

/-- Whether a line at an electrical level is active (00, Names). -/
def WorkingCopy.isActive (w : WorkingCopy) (k : Nat) (high : Bool) : Bool := high == w.activeHigh k

/-- The electrical level, true meaning high, at which line `k` is active or inactive (11.6; 00, Names). -/
def WorkingCopy.levelFor (w : WorkingCopy) (k : Nat) (active : Bool) : Bool := active == w.activeHigh k

/-- Whether a class is in the allowed set (11.6). -/
def WorkingCopy.allows (w : WorkingCopy) (c : SheetClass) : Bool := w.allowed.getLsbD c.val

/-! ### The card directory -/

/-- A directory entry; state and role are the bytes as they stand (R182). -/
structure DirEntry where
  number : Nat
  state : Byte
  role : Byte
  chain : Chain
deriving DecidableEq, Repr

/-- Where a directory entry lies (11.4). -/
def entryAddr (k : Nat) : Nat := Config.directoryBase + 16 * k

/-- Reads a directory entry (11.4). -/
def Memory.dirEntry (m : Memory) (k : Nat) : DirEntry :=
  let p := entryAddr k
  { number := m.readLE p 8
    state := m.read (p + 8)
    role := m.read (p + 9)
    chain := { first := m.readLE (p + 10) 2, second := m.readLE (p + 12) 2, third := m.readLE (p + 14) 2 } }

/-- The layout of a directory entry (11.4). -/
def DirEntry.layout (d : DirEntry) : List (Nat × Nat) :=
  [(8, d.number), (1, d.state.toNat), (1, d.role.toNat), (2, d.chain.first), (2, d.chain.second), (2, d.chain.third)]

/-- The entry of an unused index: all zero (R67). -/
def DirEntry.zero : DirEntry := { number := 0, state := 0, role := 0, chain := { first := 0, second := 0, third := 0 } }

/-- The entries in use, in index order (R62). -/
def Memory.directory (m : Memory) : List DirEntry := (List.range m.directoryCount).map m.dirEntry

/-- Writes entries at rising indexes from `k`. -/
def Memory.writeEntries : Memory → Nat → List DirEntry → Memory
  | m, _, [] => m
  | m, k, d :: ds => Memory.writeEntries (m.writeBytes (entryAddr k) (layoutBytes d.layout)) (k + 1) ds

/-- The index of the first entry that does not ascend from the one before it or has card number 0 (R68, R168). -/
def firstDisorder : Nat → Nat → List DirEntry → Option Nat
  | _, _, [] => none
  | previous, k, d :: ds => if d.number ≤ previous then some k else firstDisorder d.number (k + 1) ds

/-- Why the directory fails the start check's directory rules: the count above 2,048, or the index of the first entry
that fails (R68, R168). -/
inductive DirectoryFault where
  | count (n : Nat)
  | entry (index : Nat)
deriving DecidableEq, Repr

/-- Tests the directory by the start check's rules (R68, R168). -/
def Memory.directoryFault (m : Memory) : Option DirectoryFault :=
  if m.directoryCount > Config.directoryRoom then some (.count m.directoryCount)
  else (firstDisorder 0 0 m.directory).map .entry

/-- A lookup: the entry whose card number equals the given number (R64; on an ascending directory the halving search finds
the same entry, log 26). -/
def Memory.lookup (m : Memory) (number : Nat) : Option DirEntry := m.directory.find? fun d => d.number == number

/-- ACTIVE; any other state byte is read as BLOCKED (R182). -/
def DirEntry.isActive (d : DirEntry) : Bool := d.state == 1

/-- SERVICE; any other role byte is read as CUSTOMER (R182). -/
def DirEntry.isService (d : DirEntry) : Bool := d.role == 2

/-- Changes the directory and its count under one odd directory edit count (R63, R66). -/
def Memory.editDirectory (m : Memory) (change : Memory → Memory) : Memory :=
  (change m).clearReserved.setHeader 2 2 (bracket (BitVec.ofNat 16 (m.header 2 2))).toNat

/-- Overwrites the entry at an index in place (R66, Replace). -/
def Memory.replaceEntry (m : Memory) (k : Nat) (d : DirEntry) : Memory := m.editDirectory fun m => m.writeEntries k [d]

/-- Places a new entry at an index; the entries from there on move up by one and the count rises by 1 (R66, Insert). -/
def Memory.insertEntry (m : Memory) (k : Nat) (d : DirEntry) : Memory :=
  m.editDirectory fun m => (m.writeEntries k (d :: m.directory.drop k)).setHeader 0 2 (m.directoryCount + 1)

/-- Removes the entry at an index; the later entries move down by one, the last is set to all zero, the count falls by 1
(R67). -/
def Memory.removeEntry (m : Memory) (k : Nat) : Memory :=
  m.editDirectory fun m =>
    (m.writeEntries k (m.directory.drop (k + 1) ++ [DirEntry.zero])).setHeader 0 2 (m.directoryCount - 1)

end Sys2Proof.Machine
end

