-- ==== Sys2Proof/Machine/Tariff.lean ====
section
/-! DEFINITION. The tariff unit: the price of a sheet and a station's guard record (chapter 2). -/

namespace Sys2Proof.Machine

open Sys2Proof

/-- The class that the three CLASS levels name under a working copy's polarities: bit 0 sides, bit 1 colour, bit 2 size
(R3, R24). -/
def readClass (w : WorkingCopy) (size colour sides : Bool) : SheetClass :=
  ⟨4 * bit (w.isActive 3 size) + 2 * bit (w.isActive 4 colour) + bit (w.isActive 5 sides), by
    simp only [bit]; split <;> split <;> split <;> omega⟩

/-- The highest-numbered tier whose threshold is at most the position (R30). -/
def tierAt (m : Memory) (p : Page) (position : Nat) : Fin 4 :=
  (([3, 2, 1] : List (Fin 4)).find? fun t => decide (m.threshold p t ≤ position)).getD 0

/-- The price of a sold class with base price `b` at rate `r` (R31, law L8). -/
def soldPrice (b r : Nat) : Nat := b - b * r / 1000

/-- The price of a sheet at a rate: the fallback price for a class NOT SOLD (R27, R32). -/
def sheetPrice (m : Memory) (p : Page) (w : WorkingCopy) (c : SheetClass) (rate : Nat) : Nat :=
  if m.sold p c then soldPrice (m.basePrice p c) rate else w.fallback

/-- The rate of a charge to a funding entry: that of the tier for an ACCOUNT entry whose account has its tier flag set, with
the position as it stands before the sheet's own faces; otherwise 0 (R27, R28). -/
def chargeRate (m : Memory) (p : Page) (entry : FundingEntry) : Nat :=
  let a := m.account entry.account
  if entry.kind = .account ∧ a.tier then m.rate p (tierAt m p a.position) else 0

/-- Whether a FEED of the class advances the class-fault count (R32). -/
def isClassFault (m : Memory) (p : Page) (w : WorkingCopy) (c : SheetClass) : Bool := !m.sold p c || !w.allows c

/-- The classes both allowed at a station and sold on a page (R35). -/
def servedClasses (m : Memory) (p : Page) (w : WorkingCopy) : List SheetClass :=
  classIds.filter fun c => w.allows c && m.sold p c

/-- The guard value (R35): (lag + 1) times the largest base price among the served classes, 0 when there is none. -/
def guardValueOf (m : Memory) (p : Page) (w : WorkingCopy) : Nat :=
  (w.lagSheets + 1) * ((servedClasses m p w).map (m.basePrice p)).foldl max 0

/-- The no-service mark (R35). -/
def noServiceOf (m : Memory) (p : Page) (w : WorkingCopy) : Bool := (servedClasses m p w).isEmpty

/-- Recomputes a station's guard record from a page (R35). -/
def Station.recomputeGuard (m : Memory) (p : Page) (x : Station) : Station :=
  { x with guardValue := guardValueOf m p x.copy, noService := noServiceOf m p x.copy }

end Sys2Proof.Machine
end

