-- ==== Sys2Proof/Machine/Link.lean ====
section
/-! DEFINITION. The terminal link unit: characters and byte errors (R40, R42), frames to the terminal and the transmit
queue (R53 to R57), and the link going DOWN and coming UP (R49 to R52, R59). -/

namespace Sys2Proof.Machine

open Sys2Proof

/-! ### Characters -/

/-- The data bits of a byte, least significant first (R40). -/
def dataBits (b : Byte) : List Bool := (List.range 8).map b.getLsbD

/-- Whether the count of 1 bits in the data is odd. -/
def oddOnes (b : Byte) : Bool := (dataBits b).foldl xor false

/-- The parity bit sent with a byte, none for NONE (R40; codes EVEN 0, ODD 1, ZERO 2, NONE 3). -/
def parityBits (parity : Nat) (b : Byte) : List Bool :=
  if parity = 0 then [oddOnes b] else if parity = 1 then [!oddOnes b] else if parity = 2 then [false] else []

/-- The line bits of a character: a start bit at 0, the data, the parity bit, and 1 or 2 stop bits at 1 (R40). -/
def characterBits (w : WorkingCopy) (b : Byte) : List Bool :=
  [false] ++ dataBits b ++ parityBits w.parity b ++ List.replicate (w.stopBits + 1) true

/-- A parity error: the received parity bit does not match, under EVEN and ODD only (R42). -/
def parityError (w : WorkingCopy) (b : Byte) (received : Bool) : Bool :=
  (w.parity == 0 && received != oddOnes b) || (w.parity == 1 && received != !oddOnes b)

/-! ### Frames to the terminal -/

/-- The code of a SHOW message (11.9). -/
def Message.code : Message → Nat
  | .balance => 1
  | .remaining => 2
  | .lowFunds => 3
  | .unknownCard => 4
  | .cardBlocked => 5
  | .notAccepted => 6
  | .insufficient => 7
  | .noService => 8
  | .authWait => 9
  | .declined => 10
  | .jam => 11
  | .outOfService => 12
  | .sessionTotal => 13
  | .service => 14

/-- The ability byte of HELLO and WELCOME: bit 0 SHOP, bit 1 BANK, bit 2 keypad (11.9). -/
def Ability.byte (a : Ability) : Nat := bit a.shop + 2 * bit a.bank + 4 * bit a.keypad

/-- A SHOW with its values limited to the signed 32-bit range (R53). -/
def showOn (row : Nat) (msg : Message) (first second : Int) : TxFrame := .showMsg row msg (limit32 first) (limit32 second)

/-- The two's-complement number of a SHOW value. -/
def signed32 (x : Int) : Nat := (BitVec.ofInt 32 x).toNat

/-- Kind and payload of a frame (3.3, 11.9). -/
def TxFrame.layout : TxFrame → List (Nat × Nat)
  | .welcome a => [(1, 0x81), (1, 1), (1, a.byte), (1, a.rows)]
  | .showMsg row msg first second => [(1, 0x82), (1, row), (1, msg.code), (4, signed32 first), (4, signed32 second)]
  | .eject => [(1, 0x83)]

/-- The value that makes the sum of the length, the bytes and itself 0 modulo 256 (3.3). -/
def checkByte (len : Nat) (bytes : List Byte) : Byte := BitVec.ofNat 8 (256 - (len + (bytes.map BitVec.toNat).sum) % 256)

/-- All bytes of a frame on the line: start, length, kind, payload, check (3.3, R56). -/
def TxFrame.bytes (t : TxFrame) : List Byte :=
  let content := layoutBytes t.layout
  [0xA5, BitVec.ofNat 8 content.length] ++ content ++ [checkByte content.length content]

/-! ### The transmit queue -/

/-- Whether a frame is a SHOW. -/
def TxFrame.isShow : TxFrame → Bool
  | .showMsg .. => true
  | _ => false

/-- Whether a waiting frame is the one a new frame takes the place of: a SHOW for the same row, or the same kind of
WELCOME or EJECT (R54, cases 3 and 4). -/
def TxFrame.supersedes : TxFrame → TxFrame → Bool
  | .showMsg row .., .showMsg row' .. => row == row'
  | .welcome _, .welcome _ => true
  | .eject, .eject => true
  | _, _ => false

/-- Replaces the first frame that satisfies a test, in its place. -/
def replaceFirst (test : TxFrame → Bool) (new : TxFrame) : List TxFrame → List TxFrame
  | [] => []
  | t :: rest => if test t then new :: rest else t :: replaceFirst test new rest

/-- The frame being sent, as a list of none or one (R54). -/
def LinkUnit.headSent (l : LinkUnit) : List TxFrame := if l.sending.isSome then l.queue.take 1 else []

/-- The waiting frames (R54). -/
def LinkUnit.waiting (l : LinkUnit) : List TxFrame := if l.sending.isSome then l.queue.drop 1 else l.queue

/-- Whether a frame offered is discarded: a SHOW or EJECT in DOWN, or a SHOW above the agreed rows (R54, cases 1 and 2). -/
def LinkUnit.discards (l : LinkUnit) : TxFrame → Bool
  | .welcome _ => false
  | .showMsg row .. => !l.up || decide (l.agreed.rows < row)
  | .eject => !l.up

/-- What a full queue does with a frame: the oldest waiting SHOW gives way (R55). The oldest is the first in queue order, also where
a later SHOW has taken over its place (R54 case 3); that is the model's choice (log 52). -/
def displace (t : TxFrame) (waiting : List TxFrame) : List TxFrame :=
  if t.isShow then replaceFirst TxFrame.isShow t waiting else waiting.eraseP TxFrame.isShow ++ [t]

/-- Offers a frame to the transmit queue: it is admitted, merged, replaced or discarded (R54, R55). -/
def LinkUnit.offer (t : TxFrame) (l : LinkUnit) : LinkUnit :=
  if l.discards t then l
  else if l.waiting.any t.supersedes then { l with queue := l.headSent ++ replaceFirst t.supersedes t l.waiting }
  else if l.queue.length < 4 then { l with queue := l.queue ++ [t] }
  else { l with queue := l.headSent ++ displace t l.waiting }

/-- Offers a frame at station `i`. -/
def offer (i : StationId) (t : TxFrame) (f : Floor) : Floor :=
  f.onStation i fun x => { x with link := x.link.offer t }

/-- A SHOW of a refusal or notice, values 0, and then an EJECT (R70, R98). -/
def showAndEject (i : StationId) (msg : Message) (first second : Int) (f : Floor) : Floor :=
  offer i .eject (offer i (showOn 1 msg first second) f)

/-! ### The transmitter -/

/-- Begins the character at the sending position, in the format of the working copy (R40, R56). -/
def LinkUnit.startCharacter (w : WorkingCopy) (l : LinkUnit) : LinkUnit :=
  match l.sending with
  | some t => { l with character := (t.bytes[t.next]?).map (characterBits w) }
  | none => l

/-- BUSY sampled at a level: an active sample starts the BUSY run in UP, an inactive one ends it and lets a paused frame
resume with its next byte (R51, R57). -/
def LinkUnit.sampleBusy (w : WorkingCopy) (now : Time) (high : Bool) (l : LinkUnit) : LinkUnit :=
  if w.isActive 7 high then
    { l with busyHigh := high, busy := true, busyStart := if l.up && l.busyStart.isNone then some now else l.busyStart }
  else
    let free := { l with busyHigh := high, busy := false, busyStart := none }
    if l.sending.isSome && l.character.isNone then free.startCharacter w else free

/-! ### Link states -/

/-- The agreed ability: the offered readers that are also accepted, the offered keypad and rows (R45). -/
def agreedWith (w : WorkingCopy) (offered : Ability) : Ability :=
  { offered with shop := offered.shop && w.acceptShop, bank := offered.bank && w.acceptBank }

/-- Steps 1 to 4 of R52: the loss is counted, the agreed ability cleared, the queue emptied (a character in progress is
finished), the timers stopped. -/
def LinkUnit.goDown (l : LinkUnit) : LinkUnit :=
  { l with up := false, losses := satAdd Config.max8 l.losses 1, agreed := .none, queue := [], sending := none, busyStart := none }

/-- What the session controller does when told the link is DOWN: the next-card slot is emptied (R75), and the grace starts
for a LIVE or FUNDING context unless it runs (R92). -/
def Station.linkLost (now : Time) (x : Station) : Station :=
  let waits := x.context.condition == .live || x.context.condition == .funding
  { x with nextCard := none, graceStart := if waits && x.graceStart.isNone then some now else x.graceStart }

/-- The link of station `i` goes from UP to DOWN by silence, BUSY or a change of line format (R52). -/
def linkDown (e : Mode) (i : StationId) (f : Floor) : Floor :=
  stationNotice e i .linkDown .none (f.onStation i fun x => { x with link := x.link.goDown }.linkLost e.partTime)

/-- Whether the line format differs between two working copies (R41). -/
def formatChanged (old new : WorkingCopy) : Bool :=
  old.rate != new.rate || old.parity != new.parity || old.stopBits != new.stopBits

/-- Whether the accepted media differ between two working copies (R41). -/
def mediaChanged (old new : WorkingCopy) : Bool := old.acceptShop != new.acceptShop || old.acceptBank != new.acceptBank

/-- The agreed ability with its readers formed again from those the last HELLO offered and the accepted media; keypad and rows stay
as agreed (R41, R45). -/
def LinkUnit.readersAgain (w : WorkingCopy) (l : LinkUnit) : Ability :=
  { l.agreed with shop := l.offered.shop && w.acceptShop, bank := l.offered.bank && w.acceptBank }

/-- The link unit takes up the serial fields of a new working copy, which the station already holds (R41). A change of format
leaves no frame queued: a link that is UP goes DOWN, and in DOWN none waits (R49, R52). A change of the accepted media alone forms
the agreed readers of a link in UP again; other fields change nothing here. -/
def applySerial (e : Mode) (i : StationId) (old : WorkingCopy) (f : Floor) : Floor :=
  let x := f.station i
  if formatChanged old x.copy then
    let g := f.onStation i fun x => { x with link := { x.link with assembler := .hunt, queue := [], sending := none } }
    if x.link.up then linkDown e i g else g
  else
    let agreed := x.link.readersAgain x.copy
    if mediaChanged old x.copy ∧ x.link.up ∧ agreed ≠ x.link.agreed then
      offer i (.welcome agreed) (f.onStation i fun x => { x with link := { x.link with agreed := agreed } })
    else f

/-- The link state after a soft reset (R59). -/
def LinkUnit.softReset (l : LinkUnit) : LinkUnit :=
  { (if l.up then l.goDown else l) with
    queue := [], sending := none, busyStart := none, assembler := .hunt, held := none, cardPresent := false
    agreed := .none, offered := .none }

end Sys2Proof.Machine
end

