-- ==== Sys2Proof/Machine/Codes.lean ====
section
/-! DEFINITION. The codes of 11.9 for the names that reports and station records carry, each with its reading back. A code
outside the table is read as the name of code 0, a funding kind as ACCOUNT and a fate as STRAY (log 12). -/

namespace Sys2Proof.Machine

open Sys2Proof

/-- The name whose code is `n` among the given ones, else `other`. -/
def named {α : Type} (other : α) (names : List α) (n : Nat) : α := names.getD n other

/-- Station states (11.9). -/
def StationState.names : List StationState :=
  [.idle, .funding, .opened, .low, .jammed, .recovery, .draining, .settling, .out]
def StationState.code : StationState → Nat
  | .idle => 0 | .funding => 1 | .opened => 2 | .low => 3 | .jammed => 4 | .recovery => 5 | .draining => 6
  | .settling => 7 | .out => 8
def StationState.ofCode (n : Nat) : StationState := named .idle StationState.names n

/-- Out causes (11.9); their codes stand with the STATION notice. -/
def OutCause.ofCode (n : Nat) : OutCause := named .none [.none, .staff, .jamLimit] n

/-- Context conditions (11.9). -/
def Condition.code : Condition → Nat
  | .empty => 0 | .funding => 1 | .live => 2 | .ending => 3 | .settling => 4 | .abandoned => 5
def Condition.ofCode (n : Nat) : Condition := named .empty [.empty, .funding, .live, .ending, .settling, .abandoned] n

/-- Session roles (11.9). -/
def Role.code : Role → Nat
  | .none => 0 | .customer => 1 | .service => 2 | .bank => 3
def Role.ofCode (n : Nat) : Role := named .none [.none, .customer, .service, .bank] n

/-- The role code of a stray settlement (11.9). -/
def strayRole : Nat := 4

/-- End and closing causes (11.9). -/
def EndCause.code : EndCause → Nat
  | .none => 0 | .cardOut => 1 | .userEnd => 2 | .staff => 3 | .stop => 4 | .linkLost => 5 | .lowTimeout => 6
  | .jamLimit => 7 | .sessionOpened => 8 | .out => 9 | .count => 10
def EndCause.ofCode (n : Nat) : EndCause :=
  named .none [.none, .cardOut, .userEnd, .staff, .stop, .linkLost, .lowTimeout, .jamLimit, .sessionOpened, .out, .count] n

/-- Funding kinds (11.9). -/
def FundingKind.code : FundingKind → Nat
  | .account => 1 | .bank => 2 | .house => 3
def FundingKind.ofCode (n : Nat) : FundingKind := named .account [.account, .account, .bank, .house] n

/-- Authorization record states (11.9). -/
def AuthState.code : AuthState → Nat
  | .none => 0 | .deferred => 1 | .unsent => 2 | .asked => 3
def AuthState.ofCode (n : Nat) : AuthState := named .none [.none, .deferred, .unsent, .asked] n

/-- Request kinds (11.9). -/
def AuthKind.code : AuthKind → Nat
  | .none => 0 | .first => 1 | .increment => 2
def AuthKind.ofCode (n : Nat) : AuthKind := named .none [.none, .first, .increment] n

/-- Jam causes (11.9). -/
def JamCause.code : JamCause → Nat
  | .none => 0 | .copier => 1 | .transit => 2 | .overfull => 3
def JamCause.ofCode (n : Nat) : JamCause := named .none [.none, .copier, .transit, .overfull] n

/-- Media (11.9); 0 names no card. -/
def Medium.code : Medium → Nat
  | .shop => 1 | .bank => 2
def Card.ofCode (medium : Nat) (bytes : Nat) : Option Card :=
  if medium = 1 then some { medium := .shop, bytes := BitVec.ofNat 64 bytes }
  else if medium = 2 then some { medium := .bank, bytes := BitVec.ofNat 64 bytes } else none
def cardMedium (c : Option Card) : Nat := (c.map fun c => c.medium.code).getD 0
def cardBytes (c : Option Card) : Nat := (c.map fun c => c.bytes.toNat).getD 0

/-- Fates (11.9, sheet byte). -/
def Fate.code : Fate → Nat
  | .credited => 0 | .charged => 1 | .stray => 2
def Fate.ofCode (n : Nat) : Fate := named .stray [.credited, .charged, .stray] n

/-- Charge targets (11.9, sheet byte): 0 STRAY, 1 to 3 a funding entry. -/
def ChargeTarget.code : ChargeTarget → Nat
  | .stray => 0 | .entry k => k.val + 1
def ChargeTarget.ofCode (n : Nat) : ChargeTarget := named .stray [.stray, .entry 0, .entry 1, .entry 2] n

/-- The sheet byte: class in bits 2-0, charge target in bits 4-3, fate in bits 6-5 (11.9). -/
def sheetByte (s : Sheet) (fate : Nat) : Nat := s.cls.val + 8 * s.target.code + 32 * fate

end Sys2Proof.Machine
end

