-- ==== Sys2Proof/Machine/Funding.lean ====
section
/-! DEFINITION. Asking a bank (R103 to R105, R110) and keeping a session funded: the funding request, the funding check,
LOW, and the re-evaluation pass (R81 to R85, R146, R147). -/

namespace Sys2Proof.Machine

open Sys2Proof

/-! ### Authorization requests -/

/-- The fields of an AUTH WANTED report (11.2). -/
def AuthWanted.body (w : AuthWanted) : List (Nat × Nat) :=
  [(2, w.id.toNat), (1, w.kind.code), (1, 0), (4, w.amount), (8, w.token.toNat), (4, w.number.toNat), (4, 0)]

/-- The AUTH WANTED report leaves the report slot: an UNSENT record with its id becomes ASKED and its timer starts (R105). -/
def Auth.reportWritten (now : Time) (w : AuthWanted) (a : Auth) : Auth :=
  if a.state = .unsent ∧ a.id = w.id then { a with slot := none, state := .asked, written := now }
  else { a with slot := none }

/-- Writes the AUTH WANTED report that stands in the report slot (R105). -/
def writeAuth (e : Mode) (i : StationId) (f : Floor) : Floor :=
  match (f.station i).auth.slot with
  | none => f
  | some w =>
    (writeReport e .authWanted (stationNumber i) w.body f).onStation i fun x =>
      { x with auth := x.auth.reportWritten e.partTime w }

/-- Produces a request: the next id, an UNSENT record, and the AUTH WANTED report in the report slot, written at once when
the report writer has room and else waiting (R104, R178). The times that an UNSENT record does not hold are 0 (log 47). -/
def produceAuth (e : Mode) (i : StationId) (kind : AuthKind) (amount : Nat) (f : Floor) : Floor :=
  let g := f.onStation i fun x =>
    let id := x.auth.lastId + 1
    let wanted : AuthWanted :=
      { id := id, kind := kind, amount := amount, token := BitVec.ofNat 64 (cardBytes x.context.card)
        number := if kind = .first then 0 else x.context.number }
    { x with auth := { x.auth with
        state := .unsent, kind := kind, amount := amount, id := id, written := 0, lastId := id, slot := some wanted } }
  if mayWrite e g 32 then writeAuth e i g else g.enqueue (.auth i)

/-- A request is wanted: produced at once, or DEFERRED while the slot still holds a cancelled request's report (R104). A DEFERRED
record's id and times are 0 (log 47). -/
def wantAuth (e : Mode) (i : StationId) (kind : AuthKind) (amount : Nat) (f : Floor) : Floor :=
  if (f.station i).auth.slot.isSome then
    f.onStation i fun x =>
      { x with auth := { x.auth with state := .deferred, kind := kind, amount := amount, id := 0, written := 0 } }
  else produceAuth e i kind amount f

/-- The record returns to NONE; a waiting report stays in the slot (R106, R110). The fields it no longer holds become
0 (log 47). -/
def Auth.closed (a : Auth) : Auth := { a with state := .none, kind := .none, amount := 0, id := 0, written := 0 }

/-- Closes a station's request, as a cancellation does (R110). -/
def cancelAuth (i : StationId) (f : Floor) : Floor := f.onStation i fun x => { x with auth := x.auth.closed }

/-- Whether a request is outstanding: UNSENT or ASKED (R103). -/
def Auth.outstanding (a : Auth) : Bool := a.state == .unsent || a.state == .asked

/-! ### The funding request -/

/-- Whether a chain account is usable for a hold: a number of the table, OPEN, and an available amount of at least the hold
need (R72, R82, R182). At a need of 0 an available amount of 0 suffices: a hold of 0 is granted (R135; log 43). -/
def usable (m : Memory) (need n : Nat) : Bool :=
  decide (n < Config.accountCount) && (m.account n).isOpen && decide ((need : Int) ≤ (m.account n).available)

/-- The hold taken on a usable account: min(hold step, available) (R72, R82). -/
def firstHold (m : Memory) (step n : Nat) : Nat := min step (m.account n).available.toNat

/-- The chain slots, numbered 1 to 3 (R62). -/
def Chain.slots (c : Chain) : List (Nat × Nat) := [(1, c.first), (2, c.second), (3, c.third)]

/-- The units by which the last entry is topped up: as many hold steps as bring its remaining amount to the guard, as far as
the available amount and the greatest hold allow (R82 step 1, R135; log 32). -/
def topUpUnits (m : Memory) (step guardValue : Nat) (entry : FundingEntry) : Nat :=
  let a := m.account entry.account
  let room := min a.available.toNat (Config.maxUnits.toNat - entry.hold)
  if a.isOpen then min (step * ceilDiv ((guardValue : Int) - entry.remaining).toNat (1000 * step)) room else 0

/-- Changes the last funding entry. -/
def Context.onLast (c : Context) (change : FundingEntry → FundingEntry) : Context :=
  { c with funding := c.funding.modify (c.funding.length - 1) change }

/-- More held on an account (R135). -/
def Account.addHeld (a : Account) (units : Nat) : Account := { a with held := a.held + BitVec.ofNat 32 units }

/-- One more funding entry on an account, with its hold (R135). -/
def Account.addHolder (a : Account) (units : Nat) : Account := { a.addHeld units with holders := a.holders + 1 }

/-- Whether the last entry's remaining amount is at least the guard (R81). -/
def Station.meetsGuard (x : Station) : Bool :=
  match x.context.lastEntry with
  | some entry => decide ((x.guardValue : Int) ≤ entry.remaining)
  | none => false

/-- Whether the funding check passes as the funds stand (R81). -/
def Station.fundsPass (x : Station) : Bool := x.context.role == .service || x.meetsGuard

/-- Step 1 of the funding request at a station whose last entry is of kind ACCOUNT (R82). -/
def topUp (i : StationId) (f : Floor) : Floor :=
  let x := f.station i
  match x.context.lastEntry with
  | some entry =>
    let units := topUpUnits f.store x.copy.holdStep x.guardValue entry
    (f.onStore fun m => m.openAccount entry.account (·.addHeld units)).onStation i fun x =>
      { x with context := x.context.onLast fun en => { en with hold := en.hold + units } }
  | none => f

/-- The slot and account of the next spill: the first usable account in the slots after the last entry's, not named by an
entry, while the list holds fewer than 3 entries (R82 step 2). -/
def spillTarget (m : Memory) (x : Station) (last : FundingEntry) : Option (Nat × Nat) :=
  if x.context.funding.length < 3 then
    x.context.chain.slots.find? fun c =>
      decide (last.slot < c.1) && usable m x.holdNeed c.2 && x.context.funding.all fun en => en.account != c.2
  else none

/-- Appends an ACCOUNT entry with its first hold (R82 step 2). -/
def spillTo (i : StationId) (slot account : Nat) (f : Floor) : Floor :=
  let hold := firstHold f.store (f.station i).copy.holdStep account
  (f.onStore fun m => m.openAccount account (·.addHolder hold)).onStation i fun x =>
    { x with context := { x.context with funding := x.context.funding ++
        [{ kind := .account, account := account, slot := slot, hold := hold, committed := 0, grants := [] }] } }

/-- The steps of a funding request, with at most `spills` spills: a list holds at most 3 entries (R82). -/
def fundingSteps (i : StationId) : Nat → Floor → Floor
  | 0, f => topUp i f
  | spills + 1, f =>
    let g := topUp i f
    let x := g.station i
    if x.meetsGuard then g
    else
      match x.context.lastEntry with
      | none => g
      | some last =>
        match spillTarget g.store x last with
        | some (slot, account) => fundingSteps i spills (spillTo i slot account g)
        | none => g

/-- The accounts a station's funding requests can change. -/
def Station.requestAccounts (x : Station) : List Nat :=
  x.context.chain.slots.map Prod.snd ++ x.context.funding.map FundingEntry.account

/-- Ends a longer account request: every account of the list that was changed gets an even edit count (R134). -/
def closeAccounts (accounts : List Nat) (f : Floor) : Floor := f.onStore fun m => accounts.foldl Memory.closeAccount m

/-! ### The funding check -/

/-- Asks for an increment when the conditions of R85 hold. -/
def askIncrement (e : Mode) (i : StationId) (f : Floor) : Floor :=
  let x := f.station i
  match x.context.lastEntry with
  | some entry =>
    if entry.kind = .bank ∧ entry.grants.length < 4 ∧ !x.auth.outstanding ∧ !x.context.stopAsking then
      wantAuth e i .increment x.copy.holdStep f
    else f
  | none => f

/-- The remaining units of a station's last entry, as a SHOW carries them. -/
def Station.lastUnits (x : Station) : Int :=
  match x.context.lastEntry with
  | some entry => entry.remainingUnits
  | none => 0

/-- SHOW REMAINING on row 1 with the last entry's remaining units and the delivered total (R11, R84, R123). -/
def showRemaining (i : StationId) (f : Floor) : Floor :=
  let x := f.station i
  offer i (showOn 1 .remaining x.lastUnits x.context.totalDelivered) f

/-- Removes every lost entry as final (R126). -/
def Station.finaliseLost (x : Station) : Station := { x with jam := { x.jam with lost := [] } }

/-- Entry to LOW from OPEN or RECOVERY (R83). -/
def enterLow (e : Mode) (i : StationId) (f : Floor) : Floor :=
  let f := f.onStation i fun x => { (if x.state = .recovery then x.finaliseLost else x) with state := .low }
  let x := f.station i
  let f := offer i (showOn 1 .lowFunds x.lastUnits x.holdNeed) f
  let f := stationNotice e i .low .none f
  let f := f.onStation i fun x => { x with lowStart := some e.partTime }
  askIncrement e i f

/-- What a check that passes does: a LOW session returns to OPEN (R84); OPEN and RECOVERY stay (R81). -/
def checkPassed (i : StationId) (f : Floor) : Floor :=
  if (f.station i).state = .low then
    showRemaining i (f.onStation i fun x => { x with state := .opened, lowStart := none })
  else f

/-- What a check that fails does (R81, R83, R85). -/
def checkFailed (e : Mode) (i : StationId) (f : Floor) : Floor :=
  if (f.station i).state = .low then askIncrement e i f else enterLow e i f

/-- Whether a funding check is made in a station state (R81). -/
def StationState.checksFunds (t : StationState) : Bool := t == .opened || t == .low || t == .recovery

/-- Whether the last funding entry is of a kind. -/
def Context.lastIs (c : Context) (k : FundingKind) : Bool :=
  match c.lastEntry with
  | some entry => entry.kind == k
  | none => false

/-- The funding check, leaving the edit counts of changed accounts odd (R81, R82). -/
def fundingCheckOpen (e : Mode) (i : StationId) (f : Floor) : Floor :=
  let x := f.station i
  if x.state.checksFunds then
    let g := if !x.fundsPass && x.context.lastIs .account then fundingSteps i 2 f else f
    if (g.station i).fundsPass then checkPassed i g else checkFailed e i g
  else f

/-- The funding check with its funding request as one whole account request (R81, R82, R134). -/
def fundingCheck (e : Mode) (i : StationId) (f : Floor) : Floor :=
  let g := fundingCheckOpen e i f
  closeAccounts (g.station i).requestAccounts g

/-! ### Re-evaluation -/

/-- Whether a LOW session waits on one of the accounts: its last ACCOUNT entry's, or a later chain slot's (R84, R147). -/
def Station.waitsOn (accounts : List Nat) (x : Station) : Bool :=
  match x.context.lastEntry with
  | some entry =>
    entry.kind == .account &&
      (accounts.contains entry.account ||
        x.context.chain.slots.any fun c => decide (entry.slot < c.1) && accounts.contains c.2)
  | none => false

/-- The re-evaluation pass over the accounts that gained funds: the waiting LOW stations in ascending number, as one
request (R146, R147). It is made while the part is RUNNING or STOPPING. -/
def reevaluate (e : Mode) (accounts : List Nat) (f : Floor) : Floor :=
  if e.runs then
    let served := stationIds.filter fun i => (f.station i).state == .low && (f.station i).waitsOn accounts
    let g := served.foldl (fun g i => fundingCheckOpen e i g) f
    served.foldl (fun g i => closeAccounts (g.station i).requestAccounts g) g
  else f

end Sys2Proof.Machine
end

