-- ==== Sys2Proof/Machine/Settlement.lean ====
section
/-! DEFINITION. SETTLEMENT reports (R151 to R153, 11.2), the closing of stray tallies and their settlement (R19, R153,
R158), and ACCOUNT CLOSED reports (R144). -/

namespace Sys2Proof.Machine

open Sys2Proof

/-! ### The SETTLEMENT report -/

/-- The block of a funding entry, with the grants of a BANK entry (R152, 11.2). -/
def entryBlock (entry : FundingEntry) : List (Nat × Nat) :=
  [(1, entry.kind.code), (1, entry.slot), (2, entry.account), (4, entry.hold), (6, entry.committed),
   (1, entry.grants.length), (1, 0), (8, settledAmount entry.committed), (8, 0)] ++
  if entry.kind = .bank then entry.grants.flatMap fun g => [(8, g.reference.toNat), (4, g.amount), (4, 0)] else []

/-- The fields of a session's SETTLEMENT report after its header (R151, 11.2). -/
def sessionBody (c : Context) : List (Nat × Nat) :=
  [(4, c.number.toNat), (1, c.role.code), (1, cardMedium c.card), (1, c.endCause.code), (1, 0), (8, cardBytes c.card),
   (4, c.startTime.toNat), (4, c.endTime.toNat)] ++
  (c.delivered.toList.map fun n => (2, min n Config.max16)) ++
  [(4, min c.fed Config.max32), (1, min c.lostCredited Config.max8), (1, min c.lostCharged Config.max8),
   (1, min c.lagFeeds Config.max8), (1, min c.jams Config.max8), (1, c.foundAt), (1, c.funding.length), (2, 0), (4, 0)] ++
  c.funding.flatMap entryBlock

/-- The account a stray settlement is charged to, judged when it is written: the closed tally's house account, or account 0
when that account is FREE (R153). -/
def strayAccount (m : Memory) (c : ClosedTally) : Nat := if (m.account c.house).isFree then 0 else c.house

/-- The fields of a stray settlement after its header (R153, 11.2). R153 gives the lost-charged byte no value: it is 0 (log 51). -/
def strayBody (m : Memory) (c : ClosedTally) : List (Nat × Nat) :=
  let account := strayAccount m c
  [(4, 0), (1, strayRole), (1, 0), (1, c.cause.code), (1, bit (m.account c.house).isFree), (8, 0), (4, c.time.toNat),
   (4, c.time.toNat), (2, c.tally.delivered), (14, 0), (4, c.tally.fed), (1, 0), (1, 0), (1, 0), (1, 0), (1, 0), (1, 1),
   (2, c.tally.lost), (4, 0)] ++
  entryBlock { kind := .house, account := account, slot := 0, hold := 0, committed := c.tally.price, grants := [] }

/-! ### Stray tallies -/

/-- A balance reduced by a settled amount, the period money raised by it, OVERDRAWN set below the floor (R156, R158). -/
def Account.spend (a : Account) (units : Nat) : Account :=
  { (a.withBalance (a.balance.toInt - units)).markOverdrawn with money := satAdd32 a.money units }

/-- Writes the closed tally's stray settlement and applies it under the account's edit count, a settled amount of 0 included;
the closed tally becomes empty (R155, R158; log 14). -/
def writeStray (e : Mode) (i : StationId) (f : Floor) : Floor :=
  let c := (f.station i).line.closed
  let account := strayAccount f.store c
  let g := writeReport e .settlement (stationNumber i) (strayBody f.store c) f
  (g.onStore fun m => m.bracketAccount account (·.spend (settledAmount c.tally.price))).onStation i fun x =>
    { x with line := { x.line with closed := .zero } }

/-- Adds a tally into another field by field, each saturating (R18, R19). -/
def Tally.add (a b : Tally) : Tally :=
  { fed := satAdd Config.max16 a.fed b.fed, delivered := satAdd Config.max16 a.delivered b.delivered
    lost := satAdd Config.max16 a.lost b.lost, price := satAdd Config.max48 a.price b.price }

/-- The live tally moved into the closed tally: a new closed tally, or added into one that waits, whose house account is
kept and whose cause and time become those of this closing (R19, R153). -/
def LineUnit.closeTally (l : LineUnit) (house : Nat) (now : Time) (cause : EndCause) : LineUnit :=
  { l with
    live := .zero
    closed :=
      if l.closed.waiting then { l.closed with tally := l.closed.tally.add l.live, time := now, cause := cause }
      else { tally := l.live, house := house, waiting := true, time := now, cause := cause } }

/-- Closes the live stray tally unless its fed count is 0; a closed tally that did not wait already is produced as a stray
settlement, written at once or queued (R19, R150, R178). One that the host has marked waiting in STOPPED has no place in the wait
queue and gets none here, by the model's choice (R154, R164; log 54). -/
def closeStray (e : Mode) (i : StationId) (cause : EndCause) (f : Floor) : Floor :=
  let x := f.station i
  if x.line.live.fed = 0 then f
  else
    let g := f.onStation i fun x => { x with line := x.line.closeTally x.copy.house e.partTime cause }
    if x.line.closed.waiting then g
    else if mayWrite e g 96 then writeStray e i g
    else g.enqueue (.stray i)

/-- A stray counted lost in the live tally (R18). -/
def LineUnit.loseStrays (l : LineUnit) (n : Nat) : LineUnit :=
  { l with live := { l.live with lost := satAdd Config.max16 l.live.lost n } }

/-! ### ACCOUNT CLOSED -/

/-- The fields of an ACCOUNT CLOSED report (R144, 11.2). -/
def closedBody (n : Nat) (byRelease : Bool) (a : Account) : List (Nat × Nat) :=
  [(2, n), (1, a.kind.toNat), (1, bit a.tier + 2 * bit a.overdrawn + 4 * bit byRelease), (4, a.balance.toNat),
   (4, a.limit.toNat), (4, signed32 (limit32 a.available)), (4, a.money.toNat), (4, a.delivered.toNat)] ++
  a.faces.toList.map fun w => (4, w.toNat)

/-- The record zeroed in every field but the edit count: FREE (R144). -/
def Account.freed (a : Account) : Account :=
  { state := 0, kind := 0, tier := false, overdrawn := false, holders := 0, editCount := a.editCount, balance := 0,
    limit := 0, held := 0, inFlight := 0, delivered := 0, money := 0, faces := .replicate 8 0 }

/-- Writes the ACCOUNT CLOSED report and frees the account (R144). -/
def writeClose (e : Mode) (n : Nat) (byRelease : Bool) (f : Floor) : Floor :=
  (writeReport e .accountClosed 0 (closedBody n byRelease (f.store.account n)) f).onStore fun m => m.editAccount n Account.freed

/-- An account reached its close at the release of its last hold: written at once or a waiting close (R144, R178). -/
def produceClose (e : Mode) (n : Nat) (f : Floor) : Floor :=
  if mayWrite e f 64 then writeClose e n true f else f.enqueue (.close n)

end Sys2Proof.Machine
end

