-- ==== Sys2Proof/Machine/Sessions.lean ====
section
/-! DEFINITION. The session controller: card acceptance and the opening of a session (R69 to R76), the end of a session
(R88), OUT and IDLE (R91, R98), and cards, keys and key values at a station (R86, R87, R89, R93). -/

namespace Sys2Proof.Machine

open Sys2Proof

/-! ### Opening -/

/-- The number a session takes: the next session number, 0 treated as 1 (R74). -/
def Memory.sessionNumber (m : Memory) : Nat := if m.header 8 4 = 0 then 1 else m.header 8 4

/-- Advances the next session number, wrapping from 4,294,967,295 to 1 (R74). -/
def Memory.advanceNumber (m : Memory) : Memory :=
  m.editHeader fun h => h.setHeader 8 4 (if m.sessionNumber = Config.max32 then 1 else m.sessionNumber + 1)

/-- Clears the pace measurement (R13). -/
def LineUnit.clearPace (l : LineUnit) : LineUnit := { l with pace := 0, matched := .zero, lastExit := 0 }

/-- The chain of a context that names no account (00, Numbering; log 33). -/
def Chain.empty : Chain := { first := Config.noAccount, second := Config.noAccount, third := Config.noAccount }

/-- What acceptance found for a session: role, card, chain, slot, first entry, and the SHOW that announces it (R73). -/
structure Opening where
  role : Role
  card : Option Card
  chain : Chain
  foundAt : Nat
  entry : FundingEntry
  announce : TxFrame

/-- The context of a session at its opening (R73 step 4). -/
def Opening.context (o : Opening) (number : Nat) (now : Time) : Context :=
  { Context.empty with
    condition := .live, role := o.role, card := o.card, number := BitVec.ofNat 32 number, chain := o.chain
    foundAt := o.foundAt, startTime := now, funding := [o.entry] }

/-- Opens a session: steps 1 to 6 of R73. -/
def openSession (e : Mode) (i : StationId) (o : Opening) (f : Floor) : Floor :=
  let f := closeStray e i .sessionOpened f
  let number := f.store.sessionNumber
  let f := f.onStore Memory.advanceNumber
  let f := f.onStation i fun x => { x with line := x.line.clearPace, context := o.context number e.partTime }
  let f := offer i o.announce f
  fundingCheck e i (f.onStation i fun x => { x with state := .opened })

/-! ### Judging a card -/

/-- The house account a service session names: the working copy's if OPEN, else account 0 (R71). -/
def serviceAccount (m : Memory) (w : WorkingCopy) : Nat := if (m.account w.house).isOpen then w.house else 0

/-- Opens a service session on a HOUSE entry (R71). -/
def openService (e : Mode) (i : StationId) (card : Card) (d : DirEntry) (f : Floor) : Floor :=
  let account := serviceAccount f.store (f.station i).copy
  openSession e i
    { role := .service, card := some card, chain := d.chain, foundAt := 0
      entry := { kind := .house, account := account, slot := 0, hold := 0, committed := 0, grants := [] }
      announce := showOn 1 .service 0 0 }
    (f.onStore fun m => m.editAccount account (·.addHolder 0))

/-- The greatest available amount among the OPEN accounts a chain names, 0 when it names none (R70). -/
def greatestAvailable (m : Memory) (c : Chain) : Int :=
  let opened := c.slots.filter fun s => decide (s.2 < Config.accountCount) && (m.account s.2).isOpen
  match opened.map fun s => (m.account s.2).available with
  | [] => 0
  | a :: rest => rest.foldl max a

/-- Walks the chain of a CUSTOMER card: the first usable account is granted a hold and the session opens; without one the
card is refused with INSUFFICIENT (R70, R72, R73). -/
def acceptCustomer (e : Mode) (i : StationId) (card : Card) (d : DirEntry) (f : Floor) : Floor :=
  let x := f.station i
  match d.chain.slots.find? fun s => usable f.store x.holdNeed s.2 with
  | some (slot, account) =>
    let hold := firstHold f.store x.copy.holdStep account
    let g := f.onStore fun m => m.editAccount account (·.addHolder hold)
    openSession e i
      { role := .customer, card := some card, chain := d.chain, foundAt := slot
        entry := { kind := .account, account := account, slot := slot, hold := hold, committed := 0, grants := [] }
        announce := showOn 1 .balance hold (g.store.account account).available }
      g
  | none => showAndEject i .insufficient x.holdNeed (greatestAvailable f.store d.chain) f

/-- A bank card at an IDLE station: the context takes the card, a FIRST request is wanted, AUTH WAIT is shown (R69 case 3,
R104). -/
def beginFunding (e : Mode) (i : StationId) (card : Card) (f : Floor) : Floor :=
  let f := f.onStation i fun x =>
    { x with
      state := .funding
      context := { Context.empty with condition := .funding, card := some card, chain := .empty } }
  offer i (showOn 1 .authWait 0 0) (wantAuth e i .first (f.station i).copy.bankHold f)

/-- Judges a card at an IDLE station by the first case of R69 that applies. -/
def judgeCard (e : Mode) (i : StationId) (card : Card) (f : Floor) : Floor :=
  let x := f.station i
  if e.run = .stopping then showAndEject i .outOfService 0 0 f
  else match card.medium with
    | .bank => if x.noService then showAndEject i .noService 0 0 f else beginFunding e i card f
    | .shop =>
      match f.store.lookup card.bytes.toNat with
      | none => showAndEject i .unknownCard 0 0 f
      | some d =>
        if !d.isActive then showAndEject i .cardBlocked 0 0 f
        else if d.isService then openService e i card d f
        else if x.noService then showAndEject i .noService 0 0 f
        else acceptCustomer e i card d f

/-! ### IDLE and OUT -/

/-- The station reaches IDLE: during STOPPING its tally is closed for the stop (R19), and a held next card is taken and
judged (R75, R76, R91). -/
def reachIdle (e : Mode) (i : StationId) (f : Floor) : Floor :=
  let f := f.onStation i fun x => { x with state := .idle }
  let f := if e.run = .stopping then closeStray e i .stop f else f
  match (f.station i).nextCard with
  | some card => judgeCard e i card (f.onStation i fun x => { x with nextCard := none })
  | none => f

/-- A card in the next-card slot is answered OUT OF SERVICE and the slot emptied (R75). -/
def answerNextCard (i : StationId) (f : Floor) : Floor :=
  if (f.station i).nextCard.isSome then
    showAndEject i .outOfService 0 0 (f.onStation i fun x => { x with nextCard := none })
  else f

/-- The strays left in the path are removed and counted lost in the live tally (R20). -/
def LineUnit.dropPath (l : LineUnit) : LineUnit := { l.loseStrays l.inPath.length with inPath := [] }

/-- The station enters OUT (R98). At a start check the tally's closing waits for RUNNING (R19). In STOPPING the tally closes with
cause OUT, not STOP (R19, R95; log 37). -/
def enterOut (e : Mode) (i : StationId) (cause : OutCause) (f : Floor) : Floor :=
  let f := f.onStation i fun x =>
    { x with state := .out, outCause := cause, outPending := .none, line := x.line.dropPath }
  let f := if e.runs then closeStray e i .out f else f
  let f := answerNextCard i f
  let f := offer i (showOn 1 .outOfService 0 0) f
  stationNotice e i .out cause f

/-- The context is cleared to EMPTY, and the grace stops with it (R91, R107). -/
def Station.clearContext (x : Station) : Station := { x with context := .empty, graceStart := none }

/-- A funding wait is given up: the request is closed, the context cleared and the station returns to IDLE (R86, R89, R92,
R96, R100, R107, R109). The frames of each case are offered before. -/
def giveUpFunding (e : Mode) (i : StationId) (f : Floor) : Floor :=
  reachIdle e i ((cancelAuth i f).onStation i Station.clearContext)

/-! ### The end of a session -/

/-- Whether an EJECT is offered at a session's end (R88 step 6). -/
def EndCause.ejects : EndCause → Bool
  | .cardOut => false
  | .linkLost => false
  | _ => true

/-- A LIVE session ends (R88). -/
def endSession (e : Mode) (i : StationId) (cause : EndCause) (f : Floor) : Floor :=
  let f := f.onStation i fun x =>
    { (if x.state = .recovery then x.finaliseLost else x) with
      context := { x.context with condition := .ending, endCause := cause, endTime := e.partTime }
      lowStart := none, graceStart := none, auth := x.auth.closed
      state := if x.state = .jammed then .jammed else .draining }
  if cause.ejects then offer i .eject f else f

/-- The end of a session for `cause` when its context is LIVE, and nothing otherwise (R88). -/
def endIfLive (e : Mode) (i : StationId) (cause : EndCause) (f : Floor) : Floor :=
  if (f.station i).context.condition = .live then endSession e i cause f else f

/-! ### Cards and keys handed on by the link unit -/

/-- A CARD IN while the link-loss grace runs (R93). -/
def cardInGrace (e : Mode) (i : StationId) (card : Card) (f : Floor) : Floor :=
  let x := f.station i
  if x.context.card = some card then f.onStation i fun x => { x with graceStart := none }
  else if x.context.condition = .live then
    (endSession e i .cardOut f).onStation i fun x => { x with nextCard := some card }
  else judgeCard e i card (giveUpFunding e i f)

/-- A CARD IN handed to the session controller (4.4, R75, R93, R98). -/
def sessionCardIn (e : Mode) (i : StationId) (card : Card) (f : Floor) : Floor :=
  let x := f.station i
  if !inService e x then showAndEject i .outOfService 0 0 f
  else if x.graceStart.isSome && (x.context.condition == .live || x.context.condition == .funding) then
    cardInGrace e i card f
  else match x.state with
    | .idle => judgeCard e i card f
    | .draining | .settling => f.onStation i fun x => { x with nextCard := some card }
    | .jammed =>
      if x.context.condition = .live then f else f.onStation i fun x => { x with nextCard := some card }
    | .funding | .opened | .low | .recovery | .out => f

/-- A CARD OUT handed to the session controller: the next-card slot is emptied (R75), a LIVE session ends and a funding
wait is given up without a frame (R89). -/
def sessionCardOut (e : Mode) (i : StationId) (f : Floor) : Floor :=
  let f := f.onStation i fun x => { x with nextCard := none }
  let x := f.station i
  if x.state = .funding then giveUpFunding e i f
  else if x.state.checksFunds || x.state == .jammed then endIfLive e i .cardOut f
  else f

/-- A KEY END handed to the session controller (R86, R98). -/
def sessionKeyEnd (e : Mode) (i : StationId) (f : Floor) : Floor :=
  let x := f.station i
  if !inService e x then f
  else if x.state = .funding then giveUpFunding e i (offer i .eject f)
  else if x.state.checksFunds || x.state == .jammed then endIfLive e i .userEnd f
  else f

/-- The row of SHOW BALANCE and of a declined increment: 2 when 2 or more rows are agreed, else 1 (R87, R108). -/
def Station.secondRow (x : Station) : Nat := if 2 ≤ x.link.agreed.rows then 2 else 1

/-- The values of SHOW BALANCE (R87). -/
def balanceValues (m : Memory) (entry : FundingEntry) : Int × Int :=
  if entry.kind = .bank then (entry.remainingUnits, entry.hold)
  else ((m.account entry.account).available, entry.remainingUnits)

/-- A KEY BALANCE handed to the session controller (R87, R98). -/
def sessionKeyBalance (e : Mode) (i : StationId) (f : Floor) : Floor :=
  let x := f.station i
  if !inService e x || !x.context.hasLiveSession then f
  else
    match x.context.lastEntry with
    | none => f
    | some entry =>
      let v := balanceValues f.store entry
      offer i (showOn x.secondRow .balance v.1 v.2) f

end Sys2Proof.Machine
end

