-- ==== Sys2Proof/Machine/Jams.lean ====
section
/-! DEFINITION. The jam unit: lost sheets and their credit, declaring a jam, the JAM report and the jam record
(R116 to R120). -/

namespace Sys2Proof.Machine

open Sys2Proof

/-- The content of a JAM report after its header (R119, 11.2). -/
def JamReport.body (r : JamReport) : List (Nat × Nat) :=
  [(1, r.cause.code), (1, r.stateAt.code), (1, r.sheets.length), (1, r.jams), (4, r.declared.toNat), (4, r.number.toNat),
   (4, 0)] ++ r.sheets.flatMap fun s => [(1, sheetByte s.sheet s.fate.code), (3, 0), (4, s.sheet.price)]

/-- Writes the JAM report that stands in the pending area (R119). -/
def writeJam (e : Mode) (i : StationId) (f : Floor) : Floor :=
  match (f.station i).jam.pendingReport with
  | none => f
  | some r =>
    (writeReport e .jam (stationNumber i) r.body f).onStation i fun x => { x with jam := { x.jam with pendingReport := none } }

/-- A JAM report is produced: written at once when the report writer has room, else it waits in the pending area (R119,
R178). -/
def produceJam (e : Mode) (i : StationId) (r : JamReport) (f : Floor) : Floor :=
  let g := f.onStation i fun x => { x with jam := { x.jam with pendingReport := some r } }
  if mayWrite e g (8 + layoutSize r.body) then writeJam e i g else g.enqueue (.jam i)

/-- The fate of a lost sheet: CREDITED while the session's lost-credited count is below the credit cap, else CHARGED; STRAY
for a stray (R117). -/
def Station.fateOf (x : Station) (s : Sheet) : Fate :=
  match s.target with
  | .stray => .stray
  | .entry _ => if x.context.lostCredited < x.copy.creditCap then .credited else .charged

/-- A lost sheet's effect on the session, by its fate (R117, R33). -/
def Context.lose (c : Context) (s : Sheet) : Fate → Context
  | .credited =>
    match s.target with
    | .entry k =>
      { c.onEntry k fun en => { en with committed := en.committed - s.price } with lostCredited := c.lostCredited + 1 }
    | .stray => c
  | .charged => { c with lostCharged := c.lostCharged + 1 }
  | .stray => c

/-- The account a sheet's faces are counted on, when its funding entry names one (R117, R136). -/
def Context.accountOf (c : Context) (s : Sheet) : Option Nat :=
  match s.target with
  | .stray => none
  | .entry k =>
    match c.funding[k.val]? with
    | some entry => if entry.namesAccount then some entry.account else none
    | none => none

/-- Changes the account a sheet's faces are counted on, as one request; nothing for a stray or a bank sheet (R117, R134). -/
def onSheetAccount (i : StationId) (s : Sheet) (change : Account → Account) (f : Floor) : Floor :=
  match (f.station i).context.accountOf s with
  | some n => f.onStore fun m => m.editAccount n change
  | none => f

/-- Treats one lost sheet: its faces leave the path, and the session is credited or stays charged, or the stray tally counts
it (R117). -/
def loseSheet (i : StationId) (s : Sheet) (f : Floor) : Floor :=
  let fate := (f.station i).fateOf s
  let g := onSheetAccount i s (·.dropInFlight (facesOf s.cls)) f
  g.onStation i fun x =>
    { x with
      context := x.context.lose s fate
      line := if fate = .stray then x.line.loseStrays 1 else x.line }

/-- Treats sheets oldest first and places them on the lost list with their fates (R116 steps 3 and 4). -/
def loseToList (i : StationId) : List Sheet → Floor → Floor
  | [], f => f
  | s :: rest, f =>
    let fate := (f.station i).fateOf s
    loseToList i rest ((loseSheet i s f).onStation i fun x => { x with jam := { x.jam with lost := x.jam.lost ++ [⟨s, fate⟩] } })

/-- The jam record: an EMPTY one is filled, a HELD one counts an overflow (R120). -/
def JamUnit.recordJam (j : JamUnit) (r : JamReport) : JamUnit :=
  match j.record with
  | none => { j with record := some (r, 0) }
  | some (held, overflow) => { j with record := some (held, satAdd Config.max8 overflow 1) }

/-- Step 2 of R116 with R94: the station becomes JAMMED; a funding wait is given up with an EJECT; the LOW timer stops. -/
def stopForJam (i : StationId) (f : Floor) : Floor :=
  let f :=
    if (f.station i).state = .funding then (offer i .eject (cancelAuth i f)).onStation i Station.clearContext else f
  f.onStation i fun x => { x with state := .jammed, lowStart := none }

/-- Declares a jam: steps 1 to 8 of R116. `extra` is the sheet that comes with an OVERFULL cause. Outside RECOVERY the lost
list is empty already (R114), so step 1 empties it in every state. -/
def declareJam (e : Mode) (i : StationId) (cause : JamCause) (extra : List Sheet) (f : Floor) : Floor :=
  let stateAt := (f.station i).state
  let f := f.onStation i Station.finaliseLost
  let f := stopForJam i f
  let sheets := (f.station i).line.inPath ++ extra
  let f := f.onStation i fun x => { x with line := { x.line with inPath := [] } }
  let f := loseToList i sheets f
  let f := f.onStation i fun x =>
    { x with
      jam := { x.jam with
        cause := cause, declared := e.partTime, settleStart := e.partTime, deliveries := 0, recoveryStart := 0 }
      context := if x.context.hasLiveSession then { x.context with jams := x.context.jams + 1 } else x.context }
  let x := f.station i
  let report : JamReport :=
    { cause := cause, declared := e.partTime, stateAt := stateAt, number := x.reportedNumber
      jams := if x.context.hasLiveSession then min x.context.jams Config.max8 else 0, sheets := x.jam.lost }
  let f := produceJam e i report f
  let f := f.onStation i fun x => { x with jam := x.jam.recordJam report }
  let credited := report.sheets.countP fun s => s.fate == .credited
  offer i (showOn 1 .jam report.sheets.length credited) f

/-- A jam cause reaches the jam unit: it declares a jam unless the station is JAMMED, OUT or the part is not running
(R115). -/
def jamCause (e : Mode) (i : StationId) (cause : JamCause) (extra : List Sheet) (f : Floor) : Floor :=
  let x := f.station i
  if inService e x && x.state != .jammed then declareJam e i cause extra f else f

end Sys2Proof.Machine
end

