-- ==== Sys2Proof/Machine/Finish.lean ====
section
/-! DEFINITION. The settlement of a session, its application and what follows it (R150, R155 to R157), and the wait queue of
kept reports (R178). -/

namespace Sys2Proof.Machine

open Sys2Proof

/-- The change of an account named by a block of settled amount `units` and hold `hold` (R156). -/
def Account.settle (a : Account) (units hold : Nat) : Account :=
  let b := a.spend units
  { b with held := b.held - BitVec.ofNat 32 hold, holders := b.holders - 1 }

/-- Applies one block of a session settlement under the account's edit count; a BANK block changes no account (R155, R156;
log 14). -/
def applyBlock (f : Floor) (entry : FundingEntry) : Floor :=
  if entry.namesAccount then
    f.onStore fun m => m.bracketAccount entry.account (·.settle (settledAmount entry.committed) entry.hold)
  else f

/-- The accounts of a funding list whose available amount rose between two stores (R146, R157). -/
def gainedAccounts (before after : Memory) (funding : List FundingEntry) : List Nat :=
  (funding.filter fun en =>
    en.namesAccount && decide ((before.account en.account).available < (after.account en.account).available)).map
    FundingEntry.account

/-- Step 1 of R157 for one entry: a CLOSING account whose holders reached 0 closes. Two released by one
settlement close in the order of the funding list (log 48). -/
def closeReleased (e : Mode) (f : Floor) (entry : FundingEntry) : Floor :=
  let a := f.store.account entry.account
  if entry.namesAccount && a.isClosing && a.holders == 0 then produceClose e entry.account f else f

/-- Step 4 of R157 with R91: the station stays JAMMED, or goes OUT, or reaches IDLE. -/
def moveOn (e : Mode) (i : StationId) (f : Floor) : Floor :=
  let x := f.station i
  if x.state = .jammed then f
  else if x.outPending ≠ .none then enterOut e i x.outPending f
  else reachIdle e i f

/-- Writes a session's SETTLEMENT report, applies it to the accounts, and finishes the session (R155 to R157; log 48). -/
def writeSession (e : Mode) (i : StationId) (f : Floor) : Floor :=
  let c := (f.station i).context
  let before := f.store
  let f := writeReport e .settlement (stationNumber i) (sessionBody c) f
  let f := c.funding.foldl applyBlock f
  let gained := gainedAccounts before f.store c.funding
  let f := c.funding.foldl (closeReleased e) f
  let f := f.onStation i Station.clearContext
  let f := reevaluate e (gained.filter fun n => !(f.store.account n).isFree) f
  moveOn e i f

/-- The total of the settled amounts of a funding list, in units (R90). -/
def settledTotal (funding : List FundingEntry) : Nat := (funding.map fun en => settledAmount en.committed).sum

/-- Entry to SETTLING: SESSION TOTAL is shown (log 18) and the session settlement is produced, written at once or waiting in
the context (R90, R150, R178). -/
def enterSettling (e : Mode) (i : StationId) (f : Floor) : Floor :=
  let f := f.onStation i fun x =>
    { x with state := .settling, context := { x.context with condition := .settling } }
  let c := (f.station i).context
  let f := offer i (showOn 1 .sessionTotal (settledTotal c.funding) c.totalDelivered) f
  if mayWrite e f (8 + layoutSize (sessionBody c)) then writeSession e i f else f.enqueue (.session i)

/-! ### The wait queue -/

/-- The length of the report a producer waits with. -/
def waitingLength (f : Floor) : Producer → Nat
  | .session i => 8 + layoutSize (sessionBody (f.station i).context)
  | .stray _ => 96
  | .auth _ => 32
  | .jam i =>
    match (f.station i).jam.pendingReport with
    | some r => 8 + layoutSize r.body
    | none => 24
  | .close _ => 64

/-- A waiting AUTH WANTED report is written; a DEFERRED record is then produced (R105). -/
def writeWaitingAuth (e : Mode) (i : StationId) (f : Floor) : Floor :=
  let g := writeAuth e i f
  let a := (g.station i).auth
  if a.state = .deferred then produceAuth e i a.kind a.amount g else g

/-- Writes a waiting report; its producer goes on at that moment (R178). -/
def writeWaiting (e : Mode) (f : Floor) : Producer → Floor
  | .session i => writeSession e i f
  | .stray i => writeStray e i f
  | .auth i => writeWaitingAuth e i f
  | .jam i => writeJam e i f
  | .close n => writeClose e n true f

/-- Writes waiting reports in queue order until the queue is empty or its head does not fit, at most `n` of them (R178). -/
def moveQueue (e : Mode) : Nat → Floor → Floor
  | 0, f => f
  | n + 1, f =>
    match f.waitQueue with
    | [] => f
    | p :: rest =>
      if fits e f (waitingLength f p) then moveQueue e n (writeWaiting e { f with waitQueue := rest } p) else f

/-- More reports than an empty stream can take: a waiting report has at least 24 bytes (11.2). -/
def queueTurns : Nat := 342

end Sys2Proof.Machine
end

