-- ==== Sys2Proof/Machine/Record.lean ====
section
/-! DEFINITION. The station record (11.7): the bytes that show a station, the reading back of bytes a host wrote while
STOPPED (R164), the bytes of the whole store, the ENABLE rule (R16, R17), and the end of a step. -/

namespace Sys2Proof.Machine

open Sys2Proof

/-! ### The bytes of a station record -/

/-- A block list filled up with zero bytes to `room` bytes. -/
def filled (room : Nat) (blocks : List (Nat × Nat)) : List (Nat × Nat) := blocks ++ [(room - layoutSize blocks, 0)]

/-- The LOW timer's expiry (R83). -/
def Station.lowExpiry (x : Station) : Option Time := x.lowStart.map (· + BitVec.ofNat 32 (1000 * x.copy.lowTime))

/-- The authorization timer's expiry while the record is ASKED (R105), and 0 outside it (log 47). -/
def Station.authExpiry (x : Station) : Time :=
  if x.auth.state = .asked then x.auth.written + BitVec.ofNat 32 (1000 * x.copy.authTime) else 0

/-- The number of an optional time, 0 when there is none. -/
def timeNumber (t : Option Time) : Nat := (t.map BitVec.toNat).getD 0

/-- A tally's counts (11.7). -/
def Tally.counts (t : Tally) : List (Nat × Nat) := [(2, t.fed), (2, t.delivered), (2, t.lost)]

/-- Status, offsets 0 to 127 (11.7). -/
def Station.statusLayout (x : Station) : List (Nat × Nat) :=
  [(2, x.editCount.toNat), (1, x.state.code), (1, x.outCause.code + 4 * x.outPending.code),
   (1, bit x.line.feed + 2 * bit x.line.exit + 4 * bit x.line.fault + 8 * bit x.line.enable),
   (1, bit x.link.up + 2 * bit x.link.agreed.shop + 4 * bit x.link.agreed.bank + 8 * bit x.link.agreed.keypad +
     16 * x.link.agreed.rows),
   (1, x.link.offered.byte + 16 * x.link.offered.rows),
   (1, bit x.link.cardPresent + 2 * bit x.link.busy + 4 * x.link.queue.length + 32 * bit x.noService +
     64 * bit x.lowStart.isSome + 128 * bit x.graceStart.isSome),
   (4, x.line.lifetimeFeed), (4, x.line.lifetimeExit), (2, x.line.orphans), (2, x.line.classFaults),
   (1, x.link.rxErrors), (1, x.link.losses), (2, x.line.pace), (4, x.line.drainStart.toNat), (4, x.guardValue),
   (4, timeNumber x.lowExpiry), (4, timeNumber x.graceStart), (1, x.auth.state.code), (1, x.auth.kind.code),
   (2, x.auth.id.toNat), (4, x.auth.amount), (4, x.auth.written.toNat), (4, x.authExpiry.toNat), (2, x.auth.lastId.toNat),
   (1, x.line.inPath.length), (1, x.jam.lost.length), (1, cardMedium x.link.held), (1, cardMedium x.nextCard),
   (1, x.jam.cause.code + 4 * bit x.jam.pendingReport.isSome + 8 * bit x.auth.slot.isSome), (1, x.jam.deliveries),
   (8, cardBytes x.link.held), (8, cardBytes x.nextCard), (4, x.jam.declared.toNat), (4, x.jam.settleStart.toNat),
   (4, x.jam.recoveryStart.toNat)] ++ x.line.live.counts ++ [(6, x.line.live.price)] ++ x.line.closed.tally.counts ++
  [(2, x.line.closed.house), (6, x.line.closed.tally.price), (1, bit x.line.closed.waiting), (1, 0),
   (4, x.line.closed.time.toNat), (1, x.line.closed.cause.code), (3, 0)]

/-- A funding entry of the context, 16 bytes (11.7). -/
def fundingBlock (en : FundingEntry) : List (Nat × Nat) :=
  [(1, en.kind.code), (1, en.slot), (2, en.account), (4, en.hold), (6, en.committed), (1, en.grants.length), (1, 0)]

/-- The session context, offsets 128 to 287, its counts limited to their sizes (R78, 11.7). -/
def Context.layout (c : Context) : List (Nat × Nat) :=
  [(1, c.condition.code), (1, c.role.code), (1, cardMedium c.card), (1, c.endCause.code), (4, c.number.toNat),
   (8, cardBytes c.card), (2, c.chain.first), (2, c.chain.second), (2, c.chain.third), (1, c.foundAt),
   (1, bit c.stopAsking), (4, c.startTime.toNat), (4, c.endTime.toNat)] ++
  (c.delivered.toList.map fun n => (2, min n Config.max16)) ++
  [(4, min c.fed Config.max32), (1, min c.lagFeeds Config.max8), (1, min c.jams Config.max8),
   (1, min c.lostCredited Config.max8), (1, min c.lostCharged Config.max8), (1, c.funding.length), (3, 0)] ++
  filled 48 ((c.funding.take 3).flatMap fundingBlock) ++
  filled 52 (((c.funding.flatMap FundingEntry.grants).take 4).flatMap fun g => [(8, g.reference.toNat), (4, g.amount)])

/-- A list entry, 9 bytes: sheet byte, price, feed time (11.7). -/
def listEntry (s : Sheet) (fate : Nat) : List (Nat × Nat) := [(1, sheetByte s fate), (4, s.price), (4, s.feedTime.toNat)]

/-- The jam record, offsets 448 to 511 (11.7). -/
def jamRecordLayout : Option (JamReport × Nat) → List (Nat × Nat)
  | none => [(64, 0)]
  | some (r, overflow) =>
    [(1, 1), (1, r.cause.code), (1, overflow), (1, r.stateAt.code), (4, r.declared.toNat), (4, r.number.toNat), (1, r.jams),
     (1, r.sheets.length), (2, 0)] ++
    filled 48 ((r.sheets.take 9).flatMap fun s => [(1, sheetByte s.sheet s.fate.code), (4, s.sheet.price)])

/-- The whole record, 512 bytes (11.7). An in-path sheet, a stray too, has 0 in the fate bits of its sheet byte (log 40). -/
def Station.layout (x : Station) : List (Nat × Nat) :=
  x.statusLayout ++ x.context.layout ++ filled 72 ((x.line.inPath.take 8).flatMap fun s => listEntry s 0) ++
  filled 88 ((x.jam.lost.take 9).flatMap fun s => listEntry s.sheet s.fate.code) ++ jamRecordLayout x.jam.record

/-- The bytes that show a station, as one little-endian number. -/
def Station.recordImage (x : Station) : Nat := layoutNumber x.layout

/-- The bytes a host reads: as the host left them while STOPPED, until the part rewrites the record (R164, R181). -/
def Station.shownImage (x : Station) : Nat := x.hostImage.getD x.recordImage

/-! ### Reading back what a host wrote while STOPPED -/

/-- A full count read back from its limited field: unchanged when the field still shows it (R78). -/
def countBack (full shown greatest : Nat) : Nat := if min full greatest = shown then full else shown

/-- Bit `k` of the byte at offset `o` of a record. -/
def imageBit (image o k : Nat) : Bool := (imageField image o 1).testBit k

/-- A time at offset `o` of a record. -/
def imageTime (image o : Nat) : Time := BitVec.ofNat 32 (imageField image o 4)

/-- An ability byte with its rows in bits 6-4 (11.7). -/
def abilityBack (shop bank keypad : Bool) (byte : Nat) : Ability :=
  { shop := shop, bank := bank, keypad := keypad, rows := byte / 16 % 8 }

/-- A sheet at offset `o` of a record (11.7, 11.9). -/
def sheetBack (image o timeOffset : Nat) : Sheet :=
  { cls := ⟨imageField image o 1 % 8, by omega⟩, price := imageField image (o + 1) 4
    target := .ofCode (imageField image o 1 / 8 % 4)
    feedTime := if timeOffset = 0 then 0 else imageTime image (o + timeOffset) }

/-- A lost sheet at offset `o` of a record. -/
def lostBack (image o timeOffset : Nat) : LostSheet :=
  { sheet := sheetBack image o timeOffset, fate := .ofCode (imageField image o 1 / 32 % 4) }

/-- The first `n` of a list's entries, `size` bytes apart from offset `o`. -/
def entriesBack {α : Type} (read : Nat → α) (n size o : Nat) : List α := (List.range n).map fun k => read (o + size * k)

/-- A tally's fields: three counts at `o`, the price sum at `p`. -/
def tallyBack (image o p : Nat) : Tally :=
  { fed := imageField image o 2, delivered := imageField image (o + 2) 2, lost := imageField image (o + 4) 2
    price := imageField image p 6 }

/-- The grants of the BANK entry (11.7). -/
def grantBack (image o : Nat) : Grant :=
  { reference := BitVec.ofNat 64 (imageField image o 8), amount := imageField image (o + 8) 4 }

/-- A funding entry of the context (11.7). -/
def fundingBack (image o : Nat) : FundingEntry :=
  { kind := .ofCode (imageField image o 1), slot := imageField image (o + 1) 1, account := imageField image (o + 2) 2
    hold := imageField image (o + 4) 4, committed := imageField image (o + 8) 6
    grants :=
      if imageField image o 1 = 2 then entriesBack (grantBack image) (min 4 (imageField image (o + 14) 1)) 12 236 else [] }

/-- The context read back from a record (11.7). -/
def Context.readBack (c : Context) (image : Nat) : Context :=
  { condition := .ofCode (imageField image 128 1), role := .ofCode (imageField image 129 1)
    card := Card.ofCode (imageField image 130 1) (imageField image 136 8), endCause := .ofCode (imageField image 131 1)
    number := BitVec.ofNat 32 (imageField image 132 4)
    chain := { first := imageField image 144 2, second := imageField image 146 2, third := imageField image 148 2 }
    foundAt := imageField image 150 1, stopAsking := imageBit image 151 0
    startTime := imageTime image 152, endTime := imageTime image 156
    delivered := .ofFn fun k => countBack c.delivered[k] (imageField image (160 + 2 * k.val) 2) Config.max16
    fed := countBack c.fed (imageField image 176 4) Config.max32
    lagFeeds := countBack c.lagFeeds (imageField image 180 1) Config.max8
    jams := countBack c.jams (imageField image 181 1) Config.max8
    lostCredited := countBack c.lostCredited (imageField image 182 1) Config.max8
    lostCharged := countBack c.lostCharged (imageField image 183 1) Config.max8
    funding := entriesBack (fundingBack image) (min 3 (imageField image 184 1)) 16 188 }

/-- The line unit read back from a record (11.7). The ENABLE output is driven by R16 alone and is not read back, and the mark of a
waiting closed tally (offset 118) is judged by its bit 0, whatever else its byte holds (log 12). A mark that the host loads so puts
nothing into the wait queue, by the model's choice (R154, R164, R178; log 54). -/
def LineUnit.readBack (l : LineUnit) (image : Nat) : LineUnit :=
  { l with
    feed := imageBit image 4 0, exit := imageBit image 4 1, fault := imageBit image 4 2
    lifetimeFeed := imageField image 8 4, lifetimeExit := imageField image 12 4, orphans := imageField image 16 2
    classFaults := imageField image 18 2, pace := imageField image 22 2, drainStart := imageTime image 24
    inPath := entriesBack (fun o => sheetBack image o 5) (min 8 (imageField image 58 1)) 9 288
    live := tallyBack image 92 98
    closed :=
      { tally := tallyBack image 104 112, house := imageField image 110 2, waiting := imageBit image 118 0
        time := imageTime image 120, cause := .ofCode (imageField image 124 1) } }

/-- The link unit read back from a record (11.7). The frames-queued bits show the length of the transmit queue, whose frames the
record does not hold: they are not read back (log 12). -/
def LinkUnit.readBack (l : LinkUnit) (image : Nat) : LinkUnit :=
  { l with
    up := imageBit image 5 0
    agreed := abilityBack (imageBit image 5 1) (imageBit image 5 2) (imageBit image 5 3) (imageField image 5 1)
    offered := abilityBack (imageBit image 6 0) (imageBit image 6 1) (imageBit image 6 2) (imageField image 6 1)
    cardPresent := imageBit image 7 0, busy := imageBit image 7 1
    rxErrors := imageField image 20 1, losses := imageField image 21 1
    held := Card.ofCode (imageField image 60 1) (imageField image 64 8) }

/-- The authorization state read back from a record (11.7). The timer expiry follows from the time of writing and is not read back,
and the report in the slot is no field of the record: the bit that shows it is not read back either (log 12). -/
def Auth.readBack (a : Auth) (image : Nat) : Auth :=
  { a with
    state := .ofCode (imageField image 40 1), kind := .ofCode (imageField image 41 1)
    id := BitVec.ofNat 16 (imageField image 42 2), amount := imageField image 44 4, written := imageTime image 48
    lastId := BitVec.ofNat 16 (imageField image 56 2) }

/-- The jam unit read back from a record (11.7). The report in the pending area is no field of the record, and the bit that shows it
is not read back. The jam record is HELD at a mark of 1 (offset 448) and EMPTY at any other (log 12). -/
def JamUnit.readBack (j : JamUnit) (image : Nat) : JamUnit :=
  { j with
    cause := .ofCode (imageField image 62 1 % 4), deliveries := imageField image 63 1, declared := imageTime image 80
    settleStart := imageTime image 84, recoveryStart := imageTime image 88
    lost := entriesBack (fun o => lostBack image o 5) (min 9 (imageField image 59 1)) 9 360
    record :=
      if imageField image 448 1 = 1 then
        some ({ cause := .ofCode (imageField image 449 1), stateAt := .ofCode (imageField image 451 1)
                declared := imageTime image 452, number := BitVec.ofNat 32 (imageField image 456 4)
                jams := imageField image 460 1
                sheets := entriesBack (fun o => lostBack image o 0) (min 9 (imageField image 461 1)) 5 464 },
              imageField image 450 1)
      else none }

/-- A station whose record the host has changed while STOPPED: the part takes the fields as they stand (R164), but for those that
only follow from others, reads a code outside 11.9 as none, and the host reads back what it wrote (log 12). -/
def Station.readBack (x : Station) (image : Nat) : Station :=
  { x with
    editCount := BitVec.ofNat 16 (imageField image 0 2), state := .ofCode (imageField image 2 1)
    outCause := .ofCode (imageField image 3 1 % 4), outPending := .ofCode (imageField image 3 1 / 4 % 4)
    line := x.line.readBack image, link := x.link.readBack image, guardValue := imageField image 28 4
    noService := imageBit image 7 5
    lowStart :=
      if imageBit image 7 6 then some (imageTime image 32 - BitVec.ofNat 32 (1000 * x.copy.lowTime)) else none
    graceStart := if imageBit image 7 7 then some (imageTime image 36) else none
    auth := x.auth.readBack image
    nextCard := Card.ofCode (imageField image 61 1) (imageField image 72 8)
    context := x.context.readBack image, jam := x.jam.readBack image, hostImage := some image }

/-! ### The bytes of the whole store -/

/-- Whether an address lies in the station records, and of which station at which offset. -/
def stationPlace (a : Nat) : Option (StationId × Nat) :=
  if h : Config.stationBase ≤ a ∧ a < Config.stationEnd then
    some (⟨(a - Config.stationBase) / 512, by simp only [Config.stationBase, Config.stationEnd] at h ⊢; omega⟩,
      (a - Config.stationBase) % 512)
  else none

/-- The byte a host reads at a store address (R163). -/
def Floor.readByte (f : Floor) (a : Nat) : Byte :=
  match stationPlace a with
  | some (i, o) => BitVec.ofNat 8 (imageField (f.station i).shownImage o 1)
  | none => f.store.read a

/-- A record image with the two bytes at offset `o` replaced. -/
def patchWord (image o : Nat) (v : Half) : Nat :=
  image / 256 ^ (o + 2) * 256 ^ (o + 2) + v.toNat * 256 ^ o + image % 256 ^ o

/-- Makes a host write of the word at byte address `a` (R164). -/
def Floor.writeWord (f : Floor) (a : Nat) (v : Half) : Floor :=
  match stationPlace a with
  | some (i, o) => f.onStation i fun x => x.readBack (patchWord x.shownImage o v)
  | none => f.onStore fun m => m.writeLE a 2 v.toNat

/-! ### ENABLE and the end of a step -/

/-- The conditions of the ENABLE output (R16, law L4). -/
def Station.mayFeed (e : Mode) (x : Station) : Bool :=
  e.run == .running && (x.state == .opened || x.state == .recovery) && x.fundsPass

/-- Drives ENABLE by its conditions to the working copy's active or inactive level (R16); a fall from active to inactive sets the
drain start (R14, R17; log 15). -/
def Station.driveEnable (e : Mode) (x : Station) : Station :=
  { x with
    line := { x.line with
      enable := x.mayFeed e
      enableHigh := x.copy.levelFor 6 (x.mayFeed e)
      drainStart := if x.line.enable && !x.mayFeed e then e.partTime else x.line.drainStart } }

/-- Whether a step changed the bytes of a station's record. -/
def recordChanged (old new : Station) : Bool := new.recordImage != old.recordImage

/-- The record of a station at the end of a step: a changed one has had one odd edit count and is shown as the part wrote it,
reserved bytes 0 (R78, R181; log 13). -/
def Station.settleRecord (old new : Station) : Station :=
  { new with
    editCount := if recordChanged old new then bracket new.editCount else new.editCount
    hostImage := if recordChanged old new then none else new.hostImage }

/-- The end of a step of the part: ENABLE is driven at every station, and every changed record gets its edit count. -/
def settle (e : Mode) (before after : Floor) : Floor :=
  { after with stations := before.stations.zipWith (fun old new => old.settleRecord (new.driveEnable e)) after.stations }

/-- A step in which the units change the floor under an unchanged mode. -/
def State.act (s : State) (change : Mode → Floor → Floor) : State :=
  { s with floor := settle s.mode s.floor (change s.mode s.floor) }

/-- A step that changes the mode to `e` and the floor to `f`. -/
def State.become (s : State) (e : Mode) (f : Floor) : State := { s with mode := e, floor := settle e s.floor f }

end Sys2Proof.Machine
end

