-- ==== Sys2Proof/Machine/PartRun.lean ====
section
/-! DEFINITION. The part's run states: POWER_ON, CLEARING_DONE, RUN_REQUEST with its start check, STOP_REQUEST,
STOPPED_ENTRY, SOFT_RESET and PART_TIME_TICK (R165, R167 to R172). -/

namespace Sys2Proof.Machine

open Sys2Proof

/-! ### Power-on -/

/-- A station after power-on whose input lines keep their levels, and what is to come on them (log 30). -/
def Station.powerOnWithLines (x : Station) : Station :=
  { Station.powerOn with
    line := { LineUnit.powerOn with
      samples := x.line.samples, feedHigh := x.line.feedHigh, exitHigh := x.line.exitHigh, faultHigh := x.line.faultHigh }
    link := { LinkUnit.powerOn with busyHigh := x.link.busyHigh, rises := x.link.rises } }

/-- POWER_ON (R172): CLEARING, with every register and unit at its power-on value. -/
def execPowerOn (s : State) : Host.Outcome State Fault Refusal :=
  .next { State.reset with
    floor := { State.reset.floor with stations := s.floor.stations.map Station.powerOnWithLines }
    pending := s.pending }

/-- Account 0 as the house account: OPEN and of kind HOUSE, its other fields as they stand (R133). -/
def Account.asHouse (a : Account) : Account := { a with state := 1, kind := 3 }

/-- The levels that the next sample of a station's lines finds; with no sample listed they stay (R1, R2; log 5). -/
def LineUnit.nextSample (l : LineUnit) : LineSample :=
  l.samples.headD { feed := l.feedHigh, exit := l.exitHigh, fault := l.faultHigh }

/-- The filtered levels of FEED, EXIT and FAULT taken from the next sample under the station's working copy, and the debounce
counts discarded (R2). The tick of that sample still takes it (log 5). -/
def Station.seedFilters (x : Station) : Station :=
  let p := x.line.nextSample
  { x with
    line := { x.line with
      feed := x.copy.isActive 0 p.feed, exit := x.copy.isActive 1 p.exit, fault := x.copy.isActive 2 p.fault
      feedCount := 0, exitCount := 0, faultCount := 0 } }

/-- A station at the end of CLEARING: a working copy of the zeroed profile, its guard record, seeded filters, IDLE (R172). -/
def Station.afterClearing (m : Memory) (i : StationId) (x : Station) : Station :=
  let y := ({ x with state := .idle, copy := (m.profile i).clamped }.recomputeGuard m .a).seedFilters
  { y with link := { y.link with busy := y.copy.isActive 7 y.link.busyHigh } }

/-- CLEARING_DONE (R172): the store is zero, account 0 is OPEN and HOUSE, working copies and guards are formed, part time
starts in the header, and the part is STOPPED with RUN set. Records whose bytes change advance their edit counts (log 13), and
ENABLE is driven (R16). Outside CLEARING the event does not arise (log 3). -/
def execClearingDone (s : State) : Host.Outcome State Fault Refusal :=
  if s.mode.run = .clearing then
    let zeroed : Memory := Memory.putAccount [] 0 (Account.asHouse (Memory.account [] 0))
    let timed := zeroed.editHeader fun m => m.setHeader 12 4 s.mode.partTime.toNat
    let f := forStations (fun i f => f.onStation i (Station.afterClearing zeroed i)) { s.floor with store := timed }
    .next (s.become { s.mode with run := .stopped } (f.raise .run))
  else .next s

/-! ### The start check -/

/-- Whether an account's state is one the start check admits: FREE, OPEN or FROZEN (R148, R168). -/
def Account.startStateValid (a : Account) : Bool := a.isFree || a.isOpen || a.isFrozen

/-- Whether an account passes both account tests of the start check (R168). -/
def Account.startValid (a : Account) : Bool :=
  a.startStateValid && (a.isFree || a.isPrepaid || a.isCredit || a.isHouse)

/-- The result of a refused start check: the code, the page failure kind and the refusal number (R168). -/
structure StartRefusal where
  code : Nat
  kind : Nat
  number : Nat
deriving DecidableEq, Repr

/-- The first test of R168 that fails. -/
def startRefusal (m : Memory) (p : Page) : Option StartRefusal :=
  match m.pageFailure p with
  | some (kind, number) => some ⟨1, kind, number⟩
  | none =>
    match m.directoryFault with
    | some (.count n) => some ⟨2, 0, n⟩
    | some (.entry k) => some ⟨3, 0, k⟩
    | none =>
      match accountNumbers.find? fun n => !(m.account n).startValid with
      | some n => some ⟨if (m.account n).startStateValid then 5 else 4, 0, n⟩
      | none => none

/-- Whether the start work clamps an account's limit (R148). -/
def Account.limitClamped (a : Account) : Bool :=
  !a.isFree && a.isCredit && decide (Config.maxUnits < (a.limit.toNat : Int))

/-- The start work on account `n`, but for its edit count (R133, R148). -/
def Account.started (n : Nat) (a : Account) : Account :=
  let b := { a with
    held := 0, holders := 0, inFlight := 0
    limit := if a.limitClamped then BitVec.ofInt 32 Config.maxUnits else a.limit }
  let c := if n = 0 then b.asHouse else b
  if c.isFree then c else c.judgeOverdrawn

/-- The start work on account `n`: a changed record gets its edit count, an odd count becomes even (R134, R148). -/
def Memory.startAccount (m : Memory) (n : Nat) : Memory := (m.editAccount n (Account.started n)).closeAccount n

/-- How many account limits the start work clamps (R148). -/
def accountClamps (m : Memory) : Nat := accountNumbers.countP fun n => (m.account n).limitClamped

/-- A station takes up its profile: a new clamped working copy, seeded filters, cleared pace, drain start, the guard record
and the serial fields (R2, R13, R14, R21, R35, R41). -/
def takeProfile (e : Mode) (i : StationId) (f : Floor) : Floor :=
  let old := (f.station i).copy
  let m := f.store
  let g := f.onStation i fun x =>
    let y := ({ x with copy := (m.profile i).clamped }.recomputeGuard m e.page).seedFilters
    { y with line := { y.line.clearPace with drainStart := e.partTime } }
  applySerial e i old g

/-- A station enters service: IDLE, without an out cause (R77, R99). A card that the host has loaded into the next-card slot stays
there, not judged, by the model's choice (R75, R76, R164; log 53). -/
def Station.inServiceAgain (x : Station) : Station := { x with state := .idle, outCause := .none }

/-- At the moment the run state becomes RUNNING: a FAULT line found active is a taken change to active at a station in
service, and a station set to OUT has its live tally closed (R2, R19, R169). -/
def atRunning (e : Mode) (i : StationId) (f : Floor) : Floor :=
  let x := f.station i
  if x.state = .out then closeStray e i .out f
  else if x.line.fault then jamCause e i .copier [] f
  else f

/-- The fields of a start check that fails (R168): nothing but the code, the detail and the RUN flag changes. -/
def refuseStart (r : StartRefusal) (s : State) : State :=
  let f := s.floor.onStore fun m => m.editHeader fun h => ((h.setHeader 24 1 r.code).setHeader 25 1 r.kind).setHeader 26 2 r.number
  { s with floor := f.raise .run, port := { s.port with refusal := r.code } }

/-- The work of a start check that passes: steps 1 to 6 of R169 and what follows at the moment of RUNNING. A station that is set
to OUT keeps its pace measurement (log 41), and a loaded next card of one set to IDLE stays in its slot (log 53). -/
def passStart (s : State) : State :=
  let e := s.mode
  let m := s.floor.store
  let enabled := fun i => m.profileEnabled i
  let clamps := accountClamps m + ((stationIds.filter enabled).map fun i => (m.profile i).clampCount).sum
  let f := s.floor.onStore fun m => m.editHeader fun h =>
    (((h.setHeader 24 1 0).setHeader 25 1 0).setHeader 26 2 0).setHeader 6 2 (min clamps Config.max16)
  let f := f.onStore fun m => accountNumbers.foldl Memory.startAccount m
  let f := forStations (fun i f => if enabled i then takeProfile e i f else f) f
  let f := forStations
    (fun i f => if enabled i then f.onStation i Station.inServiceAgain else enterOut e i .staff f) f
  let e' := { e with run := .running }
  let f := forStations (atRunning e') (f.raise .run)
  { s.become e' f with port := { s.port with refusal := 0 } }

/-- A run request (R167, R168). -/
def requestRun (s : State) : State :=
  if s.mode.run = .stopped then
    match startRefusal s.floor.store s.mode.page with
    | some r => refuseStart r s
    | none => passStart s
  else s

/-- RUN_REQUEST (R168). -/
def execRunRequest (s : State) : Host.Outcome State Fault Refusal := .next (requestRun s)

/-! ### Stopping -/

/-- What a station does at entry to STOPPING (R100). -/
def stopStation (e : Mode) (i : StationId) (f : Floor) : Floor :=
  let x := f.station i
  if x.context.condition = .live then endSession e i .stop f
  else if x.context.condition = .funding then giveUpFunding e i (showAndEject i .outOfService 0 0 f)
  else if x.state = .idle ∨ x.state = .out then closeStray e i .stop f
  else f

/-- A stop request (R167, R170). -/
def requestStop (s : State) : State :=
  if s.mode.run = .running then
    let e := { s.mode with run := .stopping }
    s.become e (forStations (stopStation e) (s.floor.raise .run))
  else s

/-- STOP_REQUEST (R170). -/
def execStopRequest (s : State) : Host.Outcome State Fault Refusal := .next (requestStop s)

/-- Whether the stop is complete: every station IDLE or OUT and the wait queue empty (R170). -/
def stopComplete (s : State) : Bool :=
  s.mode.run == .stopping && s.floor.waitQueue.isEmpty &&
    stationIds.all fun i => (s.floor.station i).state == .idle || (s.floor.station i).state == .out

/-- What happens at a station at entry to STOPPED: the next card is answered, the path emptied (R20, R75). -/
def stationStopped (i : StationId) (f : Floor) : Floor :=
  (answerNextCard i f).onStation i fun x => { x with line := x.line.dropPath }

/-- STOPPED_ENTRY (R170): while the stop is not complete the event does not arise (log 3). -/
def execStoppedEntry (s : State) : Host.Outcome State Fault Refusal :=
  if stopComplete s then
    .next (s.become { s.mode with run := .stopped } (forStations stationStopped (s.floor.raise .run)))
  else .next s

/-! ### Soft reset -/

/-- A soft reset of the line state (R22); debounce counts are discarded. -/
def LineUnit.softReset (l : LineUnit) : LineUnit :=
  let strays := l.inPath.countP fun s => s.target == .stray
  let lost := l.loseStrays strays
  { lost.clearPace with
    enable := false, inPath := [], closed := .zero, feedCount := 0, exitCount := 0, faultCount := 0
    live := if l.closed.waiting then lost.live.add l.closed.tally else lost.live }

/-- A soft reset of the session context: any session or funding wait is ABANDONED (R101). -/
def Context.abandon (now : Time) (c : Context) : Context :=
  if c.condition = .empty then c
  else { c with
    condition := .abandoned
    endTime := if c.condition = .live ∨ c.condition = .funding then now else c.endTime }

/-- A soft reset of the jam unit: the record is kept (R130). -/
def JamUnit.softReset (j : JamUnit) : JamUnit := { JamUnit.powerOn with record := j.record }

/-- A soft reset of a station (R22, R59, R101, R113, R130). -/
def Station.softReset (now : Time) (x : Station) : Station :=
  { x with
    state := if x.state = .out then .out else .idle
    outPending := .none, nextCard := none, lowStart := none, graceStart := none
    context := x.context.abandon now
    auth := { x.auth.closed with slot := none }
    jam := x.jam.softReset, line := x.line.softReset, link := x.link.softReset }

/-- A soft reset of an account: no hold, no holder, no face in flight; CLOSING becomes FROZEN (R149). -/
def Account.softReset (a : Account) : Account :=
  { a with held := 0, holders := 0, inFlight := 0, state := if a.isClosing then 2 else a.state }

/-- The account table after a soft reset; the edit counts are kept (R149). -/
def Memory.softResetAccounts (m : Memory) : Memory :=
  accountNumbers.foldl (fun m n => if (m.account n).softReset = m.account n then m else m.putAccount n (m.account n).softReset) m

/-- A soft reset request (R167, R171). -/
def requestSoftReset (s : State) : State :=
  if s.mode.run = .clearing then s
  else
    let f : Floor :=
      { store := s.floor.store.softResetAccounts
        stations := s.floor.stations.map (Station.softReset s.mode.partTime)
        waitQueue := [], dropped := false, rptWr := 0, irqFlag := 0 }
    let g := if s.mode.run = .stopped then f else f.raise .run
    { s.become { s.mode with run := .stopped, rptRd := 0 } g with port := { s.port with ordPost := 0, ordDone := 0 } }

/-- SOFT_RESET (R171). -/
def execSoftReset (s : State) : Host.Outcome State Fault Refusal := .next (requestSoftReset s)

/-! ### Part time -/

/-- The inputs of a station are sampled: their levels at this millisecond are held (R1). -/
def LineUnit.sample (l : LineUnit) : LineUnit :=
  { l with
    samples := l.samples.tail
    feedHigh := l.nextSample.feed, exitHigh := l.nextSample.exit, faultHigh := l.nextSample.fault }

/-- The debounce count of a line after a sample: one more when the sample differs from the filtered level, up to the debounce
time, and 0 when it agrees (R1). -/
def WorkingCopy.debounced (w : WorkingCopy) (k : Nat) (filtered high : Bool) (count : Nat) : Nat :=
  if w.isActive k high = filtered then 0 else min (count + 1) w.debounce

/-- The debounce counts of a station after the latest sample (R1). -/
def Station.countSamples (x : Station) : Station :=
  { x with
    line := { x.line with
      feedCount := x.copy.debounced 0 x.line.feed x.line.feedHigh x.line.feedCount
      exitCount := x.copy.debounced 1 x.line.exit x.line.exitHigh x.line.exitCount
      faultCount := x.copy.debounced 2 x.line.fault x.line.faultHigh x.line.faultCount } }

/-- The copier lines of a station are sampled (R1). -/
def Station.sampleLevels (x : Station) : Station := { x with line := x.line.sample }

/-- BUSY of a station is sampled at the level where it stands (R51; log 49). -/
def Station.sampleBusy (now : Time) (x : Station) : Station :=
  { x with link := x.link.sampleBusy x.copy now x.link.busyHigh }

/-- The samples of one millisecond at a station whose units run (R1, R51). -/
def Station.sampleInputs (now : Time) (x : Station) : Station := x.sampleLevels.countSamples.sampleBusy now

/-- PART_TIME_TICK (R165): part time advances, and from the end of CLEARING on it is rewritten in the header (log 7) and the
inputs of every station are sampled (R1, R51). In CLEARING the units do not run and the lines are only looked at (R23; log 5). -/
def execPartTimeTick (s : State) : Host.Outcome State Fault Refusal :=
  let e := { s.mode with partTime := s.mode.partTime + 1 }
  if s.mode.run = .clearing then
    .next { s with mode := e, floor := { s.floor with stations := s.floor.stations.map Station.sampleLevels } }
  else
    let f := s.floor.onStore fun m => m.editHeader fun h => h.setHeader 12 4 e.partTime.toNat
    .next (s.become e { f with stations := f.stations.map (Station.sampleInputs e.partTime) })

end Sys2Proof.Machine
end

