-- ==== Sys2Proof/Machine/Port.lean ====
section
/-! DEFINITION. The local bus port: register writes and reads, and host writes to the store under the store guard
(R163, R164, R166, R173, R177, 10.4). -/

namespace Sys2Proof.Machine

open Sys2Proof

/-! ### Registers -/

/-- A port write that has its effect unless the part is CLEARING (R163). -/
def State.hostWrite (s : State) (change : State → State) : State := if s.mode.run = .clearing then s else change s

/-- How far a posted count stands ahead of a done count, modulo 65,536 (R173). -/
def aheadOf (posted done : Half) : Nat := (posted - done).toNat

/-- Whether a write of ORDPOST is accepted (R173). -/
def postAccepted (p : Port) (v : Half) : Bool :=
  decide (aheadOf v p.ordDone ≤ 64) && decide (aheadOf p.ordPost p.ordDone ≤ aheadOf v p.ordDone)

/-- A write of ORDPOST: the new posted count, or OVERRUN (R173). -/
def writeOrdpost (v : Half) (s : State) : State :=
  if postAccepted s.port v then { s with port := { s.port with ordPost := v } }
  else { s with floor := s.floor.raise .overrun }

/-- The distance from one stream offset forward to another (R177). -/
def spanTo (new old : Nat) : Nat := (new + Config.streamBytes - old) % Config.streamBytes

/-- Whether a write of RPTRD is accepted: an offset of the stream in the unread span (R176, R177; log 20). -/
def readAccepted (s : State) (v : Half) : Bool :=
  v.toNat % 4 == 0 && decide (v.toNat < Config.streamBytes) &&
    decide (spanTo v.toNat s.mode.rptRd ≤ spanTo s.floor.rptWr s.mode.rptRd)

/-- Counts a discarded RPTRD write in the header and sets GUARD (R177). -/
def refuseRptrd (f : Floor) : Floor :=
  (f.onStore fun m => m.editHeader fun h => h.setHeader 18 2 (satAdd Config.max16 (m.header 18 2) 1)).raise .guard

/-- A write of RPTRD: the new read offset, or a counted refusal with GUARD (R177). -/
def writeRptrd (v : Half) (s : State) : State :=
  if readAccepted s v then { s with mode := { s.mode with rptRd := v.toNat } }
  else { s with floor := refuseRptrd s.floor }

/-- A write of IRQFLAG (R166). -/
def writeIrqflag (v : Half) (s : State) : State := { s with floor := s.floor.clearFlags v }

/-- A write of IRQMASK (R166; log 22). -/
def writeIrqmask (v : Half) (s : State) : State := { s with port := { s.port with irqMask := v } }

/-- A write of RUNCTL (R167). -/
def writeRunctl (v : Half) (s : State) : State :=
  if v.getLsbD 1 then requestSoftReset s else if v.getLsbD 0 then requestRun s else requestStop s

/-- A write of a register half: high halves and read-only registers ignore it (R163, 10.4). -/
def writeRegister (reg : BitVec 3) (high : Bool) (v : Half) (s : State) : State :=
  if high then s
  else if reg = 1 then writeRunctl v s
  else if reg = 2 then writeOrdpost v s
  else if reg = 5 then writeRptrd v s
  else if reg = 6 then writeIrqflag v s
  else if reg = 7 then writeIrqmask v s
  else s

/-- ORDPOST_WRITE (R173). -/
def execOrdpostWrite (v : Half) (s : State) : Host.Outcome State Fault Refusal := .next (s.hostWrite (writeOrdpost v))

/-- RPTRD_WRITE (R177). -/
def execRptrdWrite (v : Half) (s : State) : Host.Outcome State Fault Refusal := .next (s.hostWrite (writeRptrd v))

/-- IRQFLAG_WRITE (R166). -/
def execIrqflagWrite (v : Half) (s : State) : Host.Outcome State Fault Refusal := .next (s.hostWrite (writeIrqflag v))

/-- REGISTER_WRITE (R163). -/
def execRegisterWrite (reg : BitVec 3) (high : Bool) (v : Half) (s : State) : Host.Outcome State Fault Refusal :=
  .next (s.hostWrite (writeRegister reg high v))

/-- The code of a run state in PARTSTATE (10.4). -/
def RunState.code : RunState → Nat
  | .clearing => 0
  | .stopped => 1
  | .running => 2
  | .stopping => 3

/-- The low half of PARTSTATE (10.4). -/
def partState (s : State) : Half :=
  BitVec.ofNat 16 (s.mode.run.code + 4 * s.mode.page.code + 16 * (s.port.refusal % 16) + 256 * Config.revision)

/-- The low half of a register (10.4). RUNCTL reads as 0. -/
def lowHalf (s : State) (reg : BitVec 3) : Half :=
  if reg = 0 then partState s
  else if reg = 2 then s.port.ordPost
  else if reg = 3 then s.port.ordDone
  else if reg = 4 then BitVec.ofNat 16 s.floor.rptWr
  else if reg = 5 then BitVec.ofNat 16 s.mode.rptRd
  else if reg = 6 then s.floor.irqFlag
  else if reg = 7 then s.port.irqMask
  else 0

/-- The high half of a register as it stands (10.4). -/
def highHalf (reg : BitVec 3) : Half := if reg = 0 then BitVec.ofNat 16 Config.partCode else 0

/-- What a read of a register's high half returns: the latched value, or the half as it stands (R163). -/
def readHigh (s : State) (reg : BitVec 3) : Half := s.port.latch[reg.toNat].getD (highHalf reg)

/-- LOW_HALF_READ (R163): the low half goes to the host and the high half is latched. Reads are served in CLEARING too. -/
def execLowHalfRead (reg : BitVec 3) (s : State) : Host.Outcome State Fault Refusal :=
  .next { s with
    port := { s.port with latch := s.port.latch.set reg.toNat (some (highHalf reg)), data := lowHalf s reg } }

/-! ### The store guard -/

/-- The regions of the store (R164). -/
inductive Region where
  | orderList | reportStream | profiles | pageA | pageB | header | stationRecords | directory | accounts | scratch
deriving DecidableEq, Repr

/-- The region an address falls in (R164). -/
def regionOf (a : Nat) : Region :=
  if a < Config.streamBase then .orderList
  else if a < Config.profileBase then .reportStream
  else if a < Config.pageABase then .profiles
  else if a < Config.pageBBase then .pageA
  else if a < Config.headerBase then .pageB
  else if a < Config.stationBase then .header
  else if a < Config.directoryBase then .stationRecords
  else if a < Config.accountBase then .directory
  else if a < Config.scratchBase then .accounts
  else .scratch

/-- Whether a region belongs to the part (R164). -/
def partOwns (e : Mode) : Region → Bool
  | .orderList => false
  | .profiles => false
  | .scratch => false
  | .pageA => e.runs && e.page == .a
  | .pageB => e.runs && e.page == .b
  | .reportStream => e.runs
  | .header => e.runs
  | .stationRecords => e.runs
  | .directory => e.runs
  | .accounts => e.runs

/-- Refuses a store write at byte address `a`: it is counted, its address recorded and GUARD set (R164; log 21). -/
def refuseStoreWrite (a : Nat) (f : Floor) : Floor :=
  (f.onStore fun m => m.editHeader fun h =>
    (h.setHeader 16 2 (satAdd Config.max16 (m.header 16 2) 1)).setHeader 20 4 a).raise .guard

/-- A host write of the store word at byte address `a` (R164). -/
def hostStore (a : Nat) (v : Half) (s : State) : State :=
  if partOwns s.mode (regionOf a) then { s with floor := refuseStoreWrite a s.floor }
  else { s with floor := s.floor.writeWord a v }

/-- STORE_WRITE (R164). -/
def execStoreWrite (word : BitVec 16) (v : Half) (s : State) : Host.Outcome State Fault Refusal :=
  .next (s.hostWrite (hostStore (2 * word.toNat) v))

end Sys2Proof.Machine
end

