-- ==== Sys2Proof/Machine/Orders.lean ====
section
/-! DEFINITION. The order unit: taking the slot at the done count, writing its answer, and the tests that come before an
order's own rule (R174, R175). -/

namespace Sys2Proof.Machine

open Sys2Proof

/-- What an order leaves behind: its reply, the active page and the floor. -/
structure Executed where
  reply : Reply
  page : Page
  floor : Floor

/-- An order that leaves the part as it stands. -/
def Executed.unchanged (e : Mode) (f : Floor) (r : Reply) : Executed := { reply := r, page := e.page, floor := f }

/-- Whether the order unit has a slot to take (R174). -/
def orderWaits (s : State) : Bool := s.mode.run != .clearing && s.port.ordDone != s.port.ordPost

/-- The kind byte of the slot at the done count (R174). -/
def State.orderKind (s : State) : Nat := s.floor.store.slotKind (slotAddr s.port.ordDone)

/-- Ends an order: the result and answer are written into the slot, the done count advances and ORDER is set (R174). -/
def finishOrder (s : State) (x : Executed) : State :=
  let f := (x.floor.onStore fun m => m.writeReply (slotAddr s.port.ordDone) x.reply).raise .order
  { s.become { s.mode with page := x.page } f with port := { s.port with ordDone := s.port.ordDone + 1 } }

/-- Takes the slot at the done count when an order waits there whose kind satisfies `taken`, and executes it whole on the
slot's parameters (R174). Otherwise the event does not arise (log 3, log 11). -/
def takeOrder (taken : Nat → Bool) (body : Mode → Nat → Floor → Executed) (s : State) : State :=
  if orderWaits s && taken s.orderKind then finishOrder s (body s.mode (slotAddr s.port.ordDone) s.floor) else s

/-- Whether a kind is unknown (R174). -/
def kindUnknown (kind : Nat) : Bool := kind == 0 || decide (16 < kind)

/-- A slot of unknown kind (R174). -/
def badKindOrder (e : Mode) (_slot : Nat) (f : Floor) : Executed := .unchanged e f (.bare .badKind)

/-- BAD_KIND (R174). -/
def execBadKind (s : State) : Host.Outcome State Fault Refusal := .next (takeOrder kindUnknown badKindOrder s)

/-- An order that names a station and is not executed in STOPPED: WRONG STATE there, BAD VALUE for a station number outside
1 to 12, else its own rule (R175). -/
def stationOrder (body : Mode → StationId → Nat → Floor → Executed) (e : Mode) (slot : Nat) (f : Floor) : Executed :=
  if e.run = .stopped then .unchanged e f (.bare .wrongState)
  else
    match f.store.paramStation slot with
    | none => .unchanged e f (.bare .badValue)
    | some i => body e i slot f

end Sys2Proof.Machine
end

