-- ==== Sys2Proof/Machine/AccountOrders.lean ====
section
/-! DEFINITION. The account orders (R137 to R143) and PERIOD CLOSE (R160 to R162). -/

namespace Sys2Proof.Machine

open Sys2Proof

/-! ### What account orders share -/

/-- The answer that shows an account: balance and available amount, both 0 for a FREE account or one whose codes are invalid, in
STOPPED too (R137; log 44). -/
def accountAnswer (a : Account) : List (Nat × Nat) :=
  if a.isFree || !a.codesValid then [] else [(4, a.balance.toNat), (4, signed32 (limit32 a.available))]

/-- A refused account order: nothing changes, and the answer shows the account as it stands (R137). -/
def accountRefused (e : Mode) (f : Floor) (n : Nat) (r : Result) : Executed :=
  .unchanged e f { result := r, answer := if n < Config.accountCount then accountAnswer (f.store.account n) else [] }

/-- The work of an account order that is not refused: its result, the account its answer shows, the floor it leaves, and
whether the account gained funds (R146). -/
structure AccountWork where
  result : Result
  shown : Account
  floor : Floor
  gains : Bool

/-- Answers an account order's work and makes the re-evaluation pass of an account that gained funds; the answer shows the
account as it was before the pass (R146). -/
def accountDone (e : Mode) (n : Nat) (w : AccountWork) : Executed :=
  { reply := { result := w.result, answer := accountAnswer w.shown }, page := e.page
    floor := if w.gains then reevaluate e [n] w.floor else w.floor }

/-- A change of one account, as one request (R134). -/
def accountWork (f : Floor) (n : Nat) (r : Result) (gains : Bool) (change : Account → Account) : AccountWork :=
  let g := f.onStore fun m => m.editAccount n change
  { result := r, shown := g.store.account n, floor := g, gains := gains }

/-- The account an order names (11.1). -/
def Memory.paramAccount (m : Memory) (slot : Nat) : Nat := m.param slot 0 2

/-- The tests every account order makes before the account's state is judged, in the order of R137: the account number, the
account's codes, and the order's own parameters. Account 0 is then refused, just before the table is consulted; that it comes after
the codes and the parameters, and not before one of them, is the model's choice (R133, R137; log 50). `body` judges the state. -/
def accountOrder (valid : Bool) (sparesHouse : Bool) (body : Nat → Account → Executed) (e : Mode) (slot : Nat) (f : Floor) :
    Executed :=
  let n := f.store.paramAccount slot
  let a := f.store.account n
  if Config.accountCount ≤ n then .unchanged e f (.bare .badValue)
  else if !a.codesValid then .unchanged e f (.bare .badValue)
  else if !valid then accountRefused e f n .badValue
  else if sparesHouse && n == 0 then accountRefused e f n .wrongState
  else body n a

/-- An amount from 1 to 2,147,483,647 (R139, R140). -/
def amountValid (x : Nat) : Bool := decide (1 ≤ x) && decide ((x : Int) ≤ Config.maxUnits)

/-! ### ACCOUNT OPEN -/

/-- The record an ACCOUNT OPEN makes of a FREE account; the edit count goes on (R138). -/
def openedAccount (m : Memory) (slot : Nat) (a : Account) : Account :=
  let kind := m.param slot 2 1
  Account.judgeOverdrawn
    { Account.freed a with
      state := 1, kind := BitVec.ofNat 8 kind, tier := m.param slot 3 1 != 0
      limit := BitVec.ofNat 32 (if kind = 2 then m.param slot 4 4 else 0), balance := BitVec.ofNat 32 (m.param slot 8 4) }

/-- Whether the parameters of an ACCOUNT OPEN pass its tests (R138). -/
def openParams (m : Memory) (slot : Nat) : Bool :=
  let kind := m.param slot 2 1
  (kind == 1 || kind == 2 || kind == 3) && (kind != 2 || decide ((m.param slot 4 4 : Int) ≤ Config.maxUnits))

/-- ACCOUNT OPEN (R138). -/
def accountOpenOrder (e : Mode) (slot : Nat) (f : Floor) : Executed :=
  accountOrder (openParams f.store slot) true
    (fun n a =>
      if a.isFree then
        accountDone e n (accountWork f n .done (decide (0 < (openedAccount f.store slot a).available)) (openedAccount f.store slot))
      else accountRefused e f n .existing)
    e slot f

/-- ACCOUNT_OPEN (R138). -/
def execAccountOpen (s : State) : Host.Outcome State Fault Refusal := .next (takeOrder (· == 1) accountOpenOrder s)

/-! ### ACCOUNT CREDIT and DEBIT -/

/-- A credit: the balance rises, limited; OVERDRAWN is cleared at or above the floor (R139), at a balance already at its greatest
too (log 46). -/
def Account.credit (amount : Nat) (a : Account) : Account :=
  let b := a.withBalance (a.balance.toInt + amount)
  { b with overdrawn := b.overdrawn && b.belowFloor }

/-- A debit: the balance falls, limited; OVERDRAWN is set below the floor (R140). -/
def Account.debit (amount : Nat) (a : Account) : Account := (a.withBalance (a.balance.toInt - amount)).markOverdrawn

/-- DONE, or CLAMPED when the exact balance would lie outside its range (R139, R140). -/
def clampedResult (exact : Int) : Result := if limit32 exact = exact then .done else .clamped

/-- ACCOUNT CREDIT (R139). -/
def accountCreditOrder (e : Mode) (slot : Nat) (f : Floor) : Executed :=
  let amount := f.store.param slot 4 4
  accountOrder (amountValid amount) false
    (fun n a =>
      if a.isFree then accountRefused e f n .notFound
      else
        accountDone e n (accountWork f n (clampedResult (a.balance.toInt + amount))
          (decide (a.balance.toInt < (a.credit amount).balance.toInt)) (Account.credit amount)))
    e slot f

/-- ACCOUNT_CREDIT (R139). -/
def execAccountCredit (s : State) : Host.Outcome State Fault Refusal := .next (takeOrder (· == 2) accountCreditOrder s)

/-- ACCOUNT DEBIT (R140). -/
def accountDebitOrder (e : Mode) (slot : Nat) (f : Floor) : Executed :=
  let amount := f.store.param slot 4 4
  accountOrder (amountValid amount) false
    (fun n a =>
      if a.isFree then accountRefused e f n .notFound
      else accountDone e n (accountWork f n (clampedResult (a.balance.toInt - amount)) false (Account.debit amount)))
    e slot f

/-- ACCOUNT_DEBIT (R140). -/
def execAccountDebit (s : State) : Host.Outcome State Fault Refusal := .next (takeOrder (· == 3) accountDebitOrder s)

/-! ### ACCOUNT LIMIT -/

/-- The limit replaced and OVERDRAWN judged again, by a limit equal to the old one too (R141; log 45). -/
def Account.setLimit (limit : Nat) (a : Account) : Account := { a with limit := BitVec.ofNat 32 limit }.judgeOverdrawn

/-- ACCOUNT LIMIT (R141). -/
def accountLimitOrder (e : Mode) (slot : Nat) (f : Floor) : Executed :=
  let limit := f.store.param slot 4 4
  accountOrder (decide ((limit : Int) ≤ Config.maxUnits)) false
    (fun n a =>
      if a.isFree then accountRefused e f n .notFound
      else if !a.isCredit then accountRefused e f n .wrongState
      else accountDone e n (accountWork f n .done (decide (a.limit.toNat < limit)) (Account.setLimit limit)))
    e slot f

/-- ACCOUNT_LIMIT (R141). -/
def execAccountLimit (s : State) : Host.Outcome State Fault Refusal := .next (takeOrder (· == 4) accountLimitOrder s)

/-! ### ACCOUNT FREEZE, THAW and CLOSE -/

/-- An account order that is not executed in STOPPED (R137, R175): WRONG STATE there before any other test, the answer
showing the account named unless it is out of range, FREE or of invalid codes (log 44). -/
def runningAccountOrder (body : Nat → Account → Executed) (e : Mode) (slot : Nat) (f : Floor) : Executed :=
  if e.run = .stopped then accountRefused e f (f.store.paramAccount slot) .wrongState
  else accountOrder true true body e slot f

/-- A change of an account's state. -/
def Account.withState (state : Byte) (a : Account) : Account := { a with state := state }

/-- ACCOUNT FREEZE (R142). -/
def accountFreezeOrder (e : Mode) (slot : Nat) (f : Floor) : Executed :=
  runningAccountOrder
    (fun n a =>
      if a.isFree then accountRefused e f n .notFound
      else if a.isOpen then accountDone e n (accountWork f n .done false (Account.withState 2))
      else accountRefused e f n .wrongState)
    e slot f

/-- ACCOUNT_FREEZE (R142). -/
def execAccountFreeze (s : State) : Host.Outcome State Fault Refusal := .next (takeOrder (· == 5) accountFreezeOrder s)

/-- ACCOUNT THAW (R142). -/
def accountThawOrder (e : Mode) (slot : Nat) (f : Floor) : Executed :=
  runningAccountOrder
    (fun n a =>
      if a.isFree then accountRefused e f n .notFound
      else if a.isFrozen then accountDone e n (accountWork f n .done true (Account.withState 1))
      else accountRefused e f n .wrongState)
    e slot f

/-- ACCOUNT_THAW (R142). -/
def execAccountThaw (s : State) : Host.Outcome State Fault Refusal := .next (takeOrder (· == 6) accountThawOrder s)

/-- ACCOUNT CLOSE at an OPEN or FROZEN account (R143). -/
def closeAccountOrder (e : Mode) (f : Floor) (n : Nat) (a : Account) : Executed :=
  if !mayWrite e f 64 then accountRefused e f n .noRoom
  else if a.holders = 0 then
    accountDone e n { result := .done, shown := a, floor := writeClose e n false f, gains := false }
  else accountDone e n (accountWork f n .accepted false (Account.withState 3))

/-- ACCOUNT CLOSE (R143). -/
def accountCloseOrder (e : Mode) (slot : Nat) (f : Floor) : Executed :=
  runningAccountOrder
    (fun n a =>
      if a.isFree then accountRefused e f n .notFound
      else if a.isClosing then accountRefused e f n .wrongState
      else closeAccountOrder e f n a)
    e slot f

/-- ACCOUNT_CLOSE (R143). -/
def execAccountClose (s : State) : Host.Outcome State Fault Refusal := .next (takeOrder (· == 7) accountCloseOrder s)

/-! ### PERIOD CLOSE -/

/-- The fields of a PERIOD report after its header (R162, 11.2). -/
def periodBody (n position size : Nat) (a : Account) : List (Nat × Nat) :=
  [(2, n), (1, a.kind.toNat % 4 + 4 * (a.state.toNat % 4)), (1, bit a.tier + 2 * bit a.overdrawn), (2, position), (2, size),
   (4, a.balance.toNat), (4, a.money.toNat), (4, a.delivered.toNat), (4, a.inFlight.toNat)] ++
  a.faces.toList.map fun w => (4, w.toNat)

/-- Closes the period of one account: its report, then its totals to 0 (R160). -/
def closeOnePeriod (e : Mode) (n position size : Nat) (f : Floor) : Floor :=
  (writeReport e .period 0 (periodBody n position size (f.store.account n)) f).onStore fun m =>
    m.editAccount n Account.closePeriod

/-- Closes the periods of a batch from a position on (R161). -/
def closePeriods (e : Mode) (size : Nat) : Nat → List Nat → Floor → Floor
  | _, [], f => f
  | position, n :: rest, f => closePeriods e size (position + 1) rest (closeOnePeriod e n position size f)

/-- The reply to a PERIOD CLOSE that wrote its reports: their number and the sum of their period money (R160). -/
def periodReply (m : Memory) (accounts : List Nat) : Reply :=
  let sum := (accounts.map fun n => (m.account n).money.toNat).sum
  { result := .done, answer := [(2, accounts.length), (2, 0), (4, min sum Config.max32)] }

/-- The accounts a batch covers: every account not FREE, in ascending number (R161). -/
def Memory.usedAccounts (m : Memory) : List Nat := accountNumbers.filter fun n => !(m.account n).isFree

/-- PERIOD CLOSE of a list of accounts, when all the reports fit at once (R160, R161, R179). -/
def periodBatch (e : Mode) (accounts : List Nat) (f : Floor) : Executed :=
  if f.waitQueue.isEmpty && fitsAll (freeRoom f.rptWr e.rptRd) f.rptWr 64 accounts.length then
    { reply := periodReply f.store accounts, page := e.page, floor := closePeriods e accounts.length 1 accounts f }
  else .unchanged e f (.bare .noRoom)

/-- PERIOD CLOSE (R160, R161). -/
def periodCloseOrder (e : Mode) (slot : Nat) (f : Floor) : Executed :=
  let n := f.store.paramAccount slot
  if e.run = .stopped then .unchanged e f (.bare .wrongState)
  else if n = Config.noAccount then periodBatch e f.store.usedAccounts f
  else if Config.accountCount ≤ n then .unchanged e f (.bare .badValue)
  else if (f.store.account n).isFree then .unchanged e f (.bare .notFound)
  else periodBatch e [n] f

/-- PERIOD_CLOSE (R160). -/
def execPeriodClose (s : State) : Host.Outcome State Fault Refusal := .next (takeOrder (· == 8) periodCloseOrder s)

end Sys2Proof.Machine
end

