-- ==== Sys2Proof/Machine/CardOrders.lean ====
section
/-! DEFINITION. CARD PUT and CARD DROP (R65 to R68). -/

namespace Sys2Proof.Machine

open Sys2Proof

/-- The marks of a card order's answer (11.9). -/
inductive CardMark where
  | none | inserted | replaced | invalid
deriving DecidableEq, Repr

/-- The code of a mark (11.9). -/
def CardMark.code : CardMark → Nat
  | .none => 0
  | .inserted => 1
  | .replaced => 2
  | .invalid => 3

/-- The answer of a card order: index, mark, failing test, directory count (11.1). -/
def cardReply (r : Result) (index : Nat) (mark : CardMark) (test count : Nat) : Reply :=
  { result := r, answer := [(2, index), (1, mark.code), (1, test), (2, count)] }

/-- The entry a CARD PUT carries (11.1). -/
def Memory.paramEntry (m : Memory) (slot : Nat) : DirEntry :=
  { number := m.param slot 0 8
    state := BitVec.ofNat 8 (m.param slot 8 1), role := BitVec.ofNat 8 (m.param slot 9 1)
    chain := { first := m.param slot 10 2, second := m.param slot 12 2, third := m.param slot 14 2 } }

/-- Whether a chain slot may be put: an account of the table, or none (R65, test 4). -/
def chainSlotValid (n : Nat) : Bool := decide (n < Config.accountCount) || n == Config.noAccount

/-- Whether two chain slots name the same account (R65, test 5). -/
def sameAccount (a b : Nat) : Bool := a == b && a != Config.noAccount

/-- The number of the first test of R65 that an entry fails. -/
def DirEntry.failingTest (d : DirEntry) : Option Nat :=
  let c := d.chain
  if d.number = 0 ∨ Config.maxCard < d.number then some 1
  else if d.state ≠ 1 ∧ d.state ≠ 2 then some 2
  else if d.role ≠ 1 ∧ d.role ≠ 2 then some 3
  else if !(chainSlotValid c.first && chainSlotValid c.second && chainSlotValid c.third) then some 4
  else if sameAccount c.first c.second || sameAccount c.first c.third || sameAccount c.second c.third then some 5
  else none

/-- The number that names a directory fault in an answer: the count, or the index of the first entry that fails (R68). -/
def DirectoryFault.number : DirectoryFault → Nat
  | .count n => n
  | .entry k => k

/-- In STOPPED, a directory that fails the start check's rules (R68). -/
def standingFault (e : Mode) (m : Memory) : Option DirectoryFault := if e.run = .stopped then m.directoryFault else none

/-- Carries out a CARD PUT on a sound directory: Replace, Insert or Full (R66). -/
def putEntry (e : Mode) (d : DirEntry) (f : Floor) : Executed :=
  let m := f.store
  match m.directory.findIdx? fun x => x.number == d.number with
  | some k =>
    { reply := cardReply .done k .replaced 0 m.directoryCount, page := e.page, floor := f.onStore fun m => m.replaceEntry k d }
  | none =>
    if m.directoryCount < Config.directoryRoom then
      let k := (m.directory.findIdx? fun x => d.number < x.number).getD m.directoryCount
      { reply := cardReply .done k .inserted 0 (m.directoryCount + 1), page := e.page
        floor := f.onStore fun m => m.insertEntry k d }
    else .unchanged e f (cardReply .full 0 .none 0 m.directoryCount)

/-- CARD PUT (R65, R66, R68). -/
def cardPutOrder (e : Mode) (slot : Nat) (f : Floor) : Executed :=
  let d := f.store.paramEntry slot
  match d.failingTest with
  | some test => .unchanged e f (cardReply .badValue 0 .none test 0)
  | none =>
    match standingFault e f.store with
    | some fault => .unchanged e f (cardReply .badValue fault.number .invalid 0 0)
    | none => putEntry e d f

/-- CARD_PUT (R66). -/
def execCardPut (s : State) : Host.Outcome State Fault Refusal := .next (takeOrder (· == 9) cardPutOrder s)

/-- CARD DROP (R67, R68). -/
def cardDropOrder (e : Mode) (slot : Nat) (f : Floor) : Executed :=
  let m := f.store
  match standingFault e m with
  | some fault => .unchanged e f (cardReply .badValue fault.number .invalid 0 0)
  | none =>
    match m.directory.findIdx? fun x => x.number == m.param slot 0 8 with
    | some k =>
      { reply := cardReply .done k .none 0 (m.directoryCount - 1), page := e.page, floor := f.onStore fun m => m.removeEntry k }
    | none => .unchanged e f (.bare .notFound)

/-- CARD_DROP (R67). -/
def execCardDrop (s : State) : Host.Outcome State Fault Refusal := .next (takeOrder (· == 10) cardDropOrder s)

end Sys2Proof.Machine
end

