-- ==== Sys2Proof/Machine/StationOrders.lean ====
section
/-! DEFINITION. AUTH ANSWER (R106 to R108), PRICE SWITCH (R36, R38), STATION OUT, STATION IN and SESSION END (R96, R97, R99)
and JAM ACK (R129). -/

namespace Sys2Proof.Machine

open Sys2Proof

/-! ### AUTH ANSWER -/

/-- The answer of an AUTH ANSWER: grant taken and session number (11.1). -/
def authReply (r : Result) (taken : Nat) (number : BitVec 32) : Reply :=
  { result := r, answer := [(4, taken), (4, number.toNat)] }

/-- SHOW DECLINED as an increment's decline or timeout offers it (R108, R109). -/
def showDeclined (i : StationId) (f : Floor) : Floor := offer i (showOn (f.station i).secondRow .declined 0 0) f

/-- Sets the session's stop-asking mark (R103). -/
def Station.stopAsking (x : Station) : Station := { x with context := { x.context with stopAsking := true } }

/-- An increment's grant joins the BANK entry (R108, R112). -/
def Station.addGrant (g : Grant) (x : Station) : Station :=
  { x with context := x.context.onLast fun en => { en with hold := en.hold + g.amount, grants := en.grants ++ [g] } }

/-- The bank session that a first grant opens (R73, R107 case 4). -/
def bankOpening (card : Option Card) (g : Grant) : Opening :=
  { role := .bank, card := card, chain := .empty, foundAt := 0
    entry := { kind := .bank, account := Config.noAccount, slot := 0, hold := g.amount, committed := 0, grants := [g] }
    announce := showOn 1 .balance g.amount 0 }

/-- A taken answer to a FIRST request; the request is closed already (R107). -/
def firstGrant (e : Mode) (i : StationId) (ok : Result) (g : Grant) (f : Floor) : Executed :=
  let x := f.station i
  if g.amount = 0 then
    { reply := .bare .done, page := e.page, floor := giveUpFunding e i (showAndEject i .declined 0 0 f) }
  else if x.noService then
    { reply := .bare .wrongState, page := e.page, floor := giveUpFunding e i (showAndEject i .noService 0 0 f) }
  else if g.amount < x.holdNeed then
    { reply := .bare .short, page := e.page, floor := giveUpFunding e i (showAndEject i .declined 0 0 f) }
  else
    { reply := authReply ok g.amount (BitVec.ofNat 32 f.store.sessionNumber), page := e.page
      floor := openSession e i (bankOpening x.context.card g) f }

/-- A taken answer to an INCREMENT request; the request is closed already. The answer to a decline is a grant taken of 0 and,
since the rule gives it no session number, 0 there too (R108, 6.3). -/
def incrementGrant (e : Mode) (i : StationId) (ok : Result) (g : Grant) (f : Floor) : Executed :=
  let number := (f.station i).context.number
  if g.amount = 0 then
    { reply := .bare .done, page := e.page, floor := showDeclined i (f.onStation i Station.stopAsking) }
  else
    { reply := authReply ok g.amount number, page := e.page
      floor := fundingCheck e i (f.onStation i (Station.addGrant g)) }

/-- An AUTH ANSWER at a station, by the first case of R106 that applies. -/
def judgeAnswer (e : Mode) (i : StationId) (slot : Nat) (f : Floor) : Executed :=
  let m := f.store
  let a := (f.station i).auth
  let offered := m.param slot 4 4
  if !a.outstanding || a.id.toNat != m.param slot 2 2 then .unchanged e f (.bare .tooLate)
  else if a.state = .unsent then .unchanged e f (.bare .wrongState)
  else
    let g : Grant := { reference := BitVec.ofNat 64 (m.param slot 8 8), amount := min offered a.amount }
    let ok : Result := if a.amount < offered then .clamped else .done
    if a.kind = .first then firstGrant e i ok g (cancelAuth i f) else incrementGrant e i ok g (cancelAuth i f)

/-- AUTH ANSWER (R106). -/
def authAnswerOrder : Mode → Nat → Floor → Executed := stationOrder judgeAnswer

/-- AUTH_ANSWER (R106). -/
def execAuthAnswer (s : State) : Host.Outcome State Fault Refusal := .next (takeOrder (· == 11) authAnswerOrder s)

/-! ### PRICE SWITCH -/

/-- The answer of a PRICE SWITCH: active page, failure kind, tier or class number, page label (11.1). -/
def pageReply (r : Result) (p : Page) (kind number label : Nat) : Reply :=
  { result := r, answer := [(1, p.code), (1, kind), (1, number), (1, 0), (4, label)] }

/-- A station's guard record recomputed from a page that became active; a changed guard leads to a funding check at a station
with a live session (R35, R36). -/
def switchGuard (e : Mode) (p : Page) (i : StationId) (f : Floor) : Floor :=
  let x := f.station i
  let g := f.onStation i (Station.recomputeGuard f.store p)
  if (g.station i).guardValue ≠ x.guardValue ∧ x.context.hasLiveSession then fundingCheck { e with page := p } i g else g

/-- The answer to a PRICE SWITCH refused for its page: the failure kind and number (R38). -/
def pageRefused (kind number : Nat) : Reply := { result := .badValue, answer := [(1, 0), (1, kind), (1, number)] }

/-- PRICE SWITCH (R38). -/
def priceSwitchOrder (e : Mode) (_slot : Nat) (f : Floor) : Executed :=
  let p := e.page.other
  match f.store.pageFailure p with
  | some (kind, number) => .unchanged e f (pageRefused kind number)
  | none =>
    { reply := pageReply .done p 0 0 (f.store.pageLabel p), page := p, floor := forStations (switchGuard e p) f }

/-- PRICE_SWITCH (R38). -/
def execPriceSwitch (s : State) : Host.Outcome State Fault Refusal := .next (takeOrder (· == 12) priceSwitchOrder s)

/-! ### STATION OUT -/

/-- The out-pending mark set, unless it holds a cause already (R77, R97, R123). -/
def Station.setOutPending (cause : OutCause) (x : Station) : Station :=
  { x with outPending := if x.outPending = .none then cause else x.outPending }

/-- What a STATION OUT does at a station that is not OUT (R97). -/
def takeOut (e : Mode) (i : StationId) (f : Floor) : Floor :=
  let x := f.station i
  if x.state = .idle then enterOut e i .staff f
  else if x.state = .funding then
    enterOut e i .staff ((cancelAuth i (showAndEject i .outOfService 0 0 f)).onStation i Station.clearContext)
  else endIfLive e i .staff (f.onStation i (Station.setOutPending .staff))

/-- STATION OUT at a station (R97). -/
def judgeOut (e : Mode) (i : StationId) (_slot : Nat) (f : Floor) : Executed :=
  if (f.station i).state = .out then .unchanged e f (.bare .wrongState)
  else { reply := .bare .accepted, page := e.page, floor := takeOut e i f }

/-- STATION OUT (R97). -/
def stationOutOrder : Mode → Nat → Floor → Executed := stationOrder judgeOut

/-- STATION_OUT (R97). -/
def execStationOut (s : State) : Host.Outcome State Fault Refusal := .next (takeOrder (· == 13) stationOutOrder s)

/-! ### STATION IN -/

/-- Adds to the clamped-field count of the header (R165, R169). -/
def Memory.countClamps (m : Memory) (n : Nat) : Memory :=
  if n = 0 then m else m.editHeader fun h => h.setHeader 6 2 (satAdd Config.max16 (m.header 6 2) n)

/-- What a STATION IN does at an OUT station: a fresh working copy and guard, IDLE, a STATION notice, and then a jam where FAULT
is found active (R2, R99, R169; log 39; log 53 for a loaded next card). -/
def takeIn (e : Mode) (i : StationId) (f : Floor) : Floor :=
  let f := f.onStore fun m => m.countClamps (m.profile i).clampCount
  let f := (takeProfile e i f).onStation i Station.inServiceAgain
  let f := stationNotice e i .entered .none f
  if (f.station i).line.fault then jamCause e i .copier [] f else f

/-- The answer of a STATION IN: guard value, hold need, no-service mark (11.1). -/
def inReply (x : Station) : Reply :=
  { result := .done, answer := [(4, x.guardValue), (2, x.holdNeed), (1, bit x.noService)] }

/-- STATION IN at a station (R99). -/
def judgeIn (e : Mode) (i : StationId) (_slot : Nat) (f : Floor) : Executed :=
  if (f.station i).state = .out then
    let g := takeIn e i f
    { reply := inReply (g.station i), page := e.page, floor := g }
  else .unchanged e f (.bare .wrongState)

/-- STATION IN: in STOPPING it is answered WRONG STATE before its station number is looked at (R99, R175). -/
def stationInOrder (e : Mode) (slot : Nat) (f : Floor) : Executed :=
  if e.run = .stopping then .unchanged e f (.bare .wrongState) else stationOrder judgeIn e slot f

/-- STATION_IN (R99). -/
def execStationIn (s : State) : Host.Outcome State Fault Refusal := .next (takeOrder (· == 14) stationInOrder s)

/-! ### JAM ACK -/

/-- The answer of a JAM ACK: declaration time, low 16 bits of the session number, cause, overflow count (11.1). -/
def ackReply (r : JamReport) (overflow : Nat) : Reply :=
  { result := .done, answer := [(4, r.declared.toNat), (2, r.number.toNat % 65536), (1, r.cause.code), (1, overflow)] }

/-- JAM ACK at a station (R129). -/
def judgeAck (e : Mode) (i : StationId) (_slot : Nat) (f : Floor) : Executed :=
  match (f.station i).jam.record with
  | some (r, overflow) =>
    { reply := ackReply r overflow, page := e.page
      floor := f.onStation i fun x => { x with jam := { x.jam with record := none } } }
  | none => .unchanged e f (.bare .notFound)

/-- JAM ACK (R129). -/
def jamAckOrder : Mode → Nat → Floor → Executed := stationOrder judgeAck

/-- JAM_ACK (R129). -/
def execJamAck (s : State) : Host.Outcome State Fault Refusal := .next (takeOrder (· == 15) jamAckOrder s)

/-! ### SESSION END -/

/-- SESSION END at a station (R96). -/
def judgeEnd (e : Mode) (i : StationId) (_slot : Nat) (f : Floor) : Executed :=
  let c := (f.station i).context
  match c.condition with
  | .live =>
    { reply := { result := .accepted, answer := [(4, c.number.toNat)] }, page := e.page, floor := endSession e i .staff f }
  | .funding =>
    { reply := .bare .accepted, page := e.page, floor := giveUpFunding e i (showAndEject i .declined 0 0 f) }
  | .empty | .ending | .settling | .abandoned => .unchanged e f (.bare .wrongState)

/-- SESSION END (R96). -/
def sessionEndOrder : Mode → Nat → Floor → Executed := stationOrder judgeEnd

/-- SESSION_END (R96). -/
def execSessionEnd (s : State) : Host.Outcome State Fault Refusal := .next (takeOrder (· == 16) sessionEndOrder s)

end Sys2Proof.Machine
end

