-- ==== Sys2Proof/Machine/LineEvents.lean ====
section
/-! DEFINITION. The copier line events: FEED with its charge and placement, EXIT with deliveries and late deliveries, FAULT,
and changes to the inactive level (R1, R4, R5, R7 to R13, R18, R19, R118, R121, R124, R125, R127). -/

namespace Sys2Proof.Machine

open Sys2Proof

/-- A step of the station units. They run from the end of CLEARING onward (R23, R58; log 3). -/
def State.unitStep (s : State) (change : Mode → Floor → Floor) : State :=
  if s.mode.run = .clearing then s else s.act change

/-- Changes a station's line unit. -/
def Station.onLine (change : LineUnit → LineUnit) (x : Station) : Station := { x with line := change x.line }

/-- Changes a station's session context. -/
def Station.onContext (change : Context → Context) (x : Station) : Station := { x with context := change x.context }

/-- Changes a station's jam unit. -/
def Station.onJam (change : JamUnit → JamUnit) (x : Station) : Station := { x with jam := change x.jam }

/-! ### Filtered levels: a change is taken when the new level has been seen in every sample of the debounce time -/

/-- Whether a change of a filtered level to `active` is due: the filtered level is the other one, the latest sample shows
`active`, and as many samples in a row as the debounce time has milliseconds have differed (R1; log 5). -/
def WorkingCopy.changeDue (w : WorkingCopy) (k : Nat) (active filtered high : Bool) (count : Nat) : Bool :=
  filtered != active && w.isActive k high == active && decide (w.debounce ≤ count)

/-- Whether a taken change of FEED is due (R1). -/
def Station.feedDue (active : Bool) (x : Station) : Bool :=
  x.copy.changeDue 0 active x.line.feed x.line.feedHigh x.line.feedCount

/-- Whether a taken change of EXIT is due (R1). -/
def Station.exitDue (active : Bool) (x : Station) : Bool :=
  x.copy.changeDue 1 active x.line.exit x.line.exitHigh x.line.exitCount

/-- Whether a taken change of FAULT is due (R1). -/
def Station.faultDue (active : Bool) (x : Station) : Bool :=
  x.copy.changeDue 2 active x.line.fault x.line.faultHigh x.line.faultCount

/-- A taken change of FEED (R1). -/
def Station.takeFeedLevel (active : Bool) (x : Station) : Station := x.onLine fun l => { l with feed := active, feedCount := 0 }

/-- A taken change of EXIT (R1). -/
def Station.takeExitLevel (active : Bool) (x : Station) : Station := x.onLine fun l => { l with exit := active, exitCount := 0 }

/-- A taken change of FAULT (R1). -/
def Station.takeFaultLevel (active : Bool) (x : Station) : Station :=
  x.onLine fun l => { l with fault := active, faultCount := 0 }

/-! ### FEED -/

/-- Counts a FEED event, in every run state after CLEARING and every station state (R4). -/
def LineUnit.countFeed (l : LineUnit) : LineUnit := { l with lifetimeFeed := satAdd Config.max32 l.lifetimeFeed 1 }

/-- The funding entry that a FEED is charged to: the last one of a live session (R7). -/
def Context.feedEntry (c : Context) : Option FundingEntry := if c.hasLiveSession then c.lastEntry else none

/-- The charge target that names the last funding entry (R80). -/
def Context.lastTarget (c : Context) : ChargeTarget := .entry (Fin.ofNat 3 (c.funding.length - 1))

/-- The sheet of a FEED: its price and its charge target, as they stand before the charge (R6, R7, R27). -/
def sheetOf (e : Mode) (i : StationId) (cls : SheetClass) (f : Floor) : Sheet :=
  let x := f.station i
  match x.context.feedEntry with
  | some entry =>
    { cls := cls, price := sheetPrice f.store e.page x.copy cls (chargeRate f.store e.page entry)
      target := x.context.lastTarget, feedTime := e.partTime }
  | none => { cls := cls, price := sheetPrice f.store e.page x.copy cls 0, target := .stray, feedTime := e.partTime }

/-- What a FEED at a station in service sets before its charge: drain start (R14), the class-fault count (R32), and the
recovery start while in RECOVERY (R127). -/
def noteFeed (e : Mode) (i : StationId) (cls : SheetClass) (f : Floor) : Floor :=
  let m := f.store
  f.onStation i fun x =>
    let faults := if isClassFault m e.page x.copy cls then satAdd Config.max16 x.line.classFaults 1 else x.line.classFaults
    { x with
      line := { x.line with drainStart := e.partTime, classFaults := faults }
      jam := if x.state = .recovery then { x.jam with recoveryStart := e.partTime } else x.jam }

/-- The charge of a sheet to the last funding entry: committed amount, fed count, and the lag feed count when ENABLE was
inactive (R9, R33, R80). -/
def Context.charge (price : Nat) (lag : Bool) (c : Context) : Context :=
  { c.onLast fun en => { en with committed := satAdd Config.max48 en.committed price } with
    fed := c.fed + 1, lagFeeds := c.lagFeeds + bit lag }

/-- Charges a session's sheet: the price to the last entry, the faces to the account it names, then the funding check
(R7, R28, R80). -/
def chargeSession (e : Mode) (i : StationId) (entry : FundingEntry) (s : Sheet) (f : Floor) : Floor :=
  let lag := !(f.station i).line.enable
  let f := if entry.namesAccount then f.onStore fun m => m.editAccount entry.account (·.addInFlight (facesOf s.cls)) else f
  fundingCheck e i (f.onStation i (Station.onContext (Context.charge s.price lag)))

/-- The live tally with one more stray fed (R18). -/
def Tally.addFed (price : Nat) (t : Tally) : Tally :=
  { t with fed := satAdd Config.max16 t.fed 1, price := satAdd Config.max48 t.price price }

/-- Charges a stray to the live tally, which is closed when its fed count reaches 1,000 (R18, R19). A tally that a soft reset's
add-back has left at 1,000 or more is closed at the next stray (log 38). -/
def chargeStray (e : Mode) (i : StationId) (s : Sheet) (f : Floor) : Floor :=
  let g := f.onStation i (Station.onLine fun l => { l with live := l.live.addFed s.price })
  if Config.tallyLimit ≤ (g.station i).line.live.fed then closeStray e i .count g else g

/-- Charges a sheet to the target chosen at the moment of the FEED (R7). -/
def chargeSheet (e : Mode) (i : StationId) (s : Sheet) (f : Floor) : Floor :=
  match (f.station i).context.feedEntry with
  | some entry => chargeSession e i entry s f
  | none => chargeStray e i s f

/-- Places a charged sheet: into the path, or lost at feed when JAMMED, or to the jam unit with a cause OVERFULL
(R8, R118). -/
def placeSheet (e : Mode) (i : StationId) (s : Sheet) (f : Floor) : Floor :=
  let x := f.station i
  if x.line.inPath.length < x.copy.pathDepth then f.onStation i (Station.onLine fun l => { l with inPath := l.inPath ++ [s] })
  else if x.state = .jammed then loseSheet i s f
  else jamCause e i .overfull [s] f

/-- A FEED event at a station in service; a stray fed at an IDLE station during STOPPING has the tally closed for the stop
(R7, R8, R19; log 19). -/
def feedInService (e : Mode) (i : StationId) (cls : SheetClass) (f : Floor) : Floor :=
  let s := sheetOf e i cls f
  let idle := (f.station i).state == .idle
  let g := placeSheet e i s (chargeSheet e i s (noteFeed e i cls f))
  if idle && e.run == .stopping && s.target == .stray then closeStray e i .stop g else g

/-- A FEED event with the levels of the CLASS inputs (R3, R4, R7, R20). -/
def feedEvent (i : StationId) (size colour sides : Bool) (e : Mode) (f : Floor) : Floor :=
  let f := f.onStation i fun x => (x.takeFeedLevel true).onLine LineUnit.countFeed
  let x := f.station i
  if inService e x then feedInService e i (readClass x.copy size colour sides) f else f

/-- A taken change of FEED to active, when one is due (R1, R7; log 3). -/
def feedTaken (i : StationId) (size colour sides : Bool) (e : Mode) (f : Floor) : Floor :=
  if (f.station i).feedDue true then feedEvent i size colour sides e f else f

/-- FEED_EVENT (R7). -/
def execFeedEvent (i : StationId) (size colour sides : Bool) (s : State) : Host.Outcome State Fault Refusal :=
  .next (s.unitStep (feedTaken i size colour sides))

/-! ### EXIT -/

/-- Counts an EXIT event (R4). -/
def LineUnit.countExit (l : LineUnit) : LineUnit := { l with lifetimeExit := satAdd Config.max32 l.lifetimeExit 1 }

/-- The pace measurement after a matched exit (R13). -/
def LineUnit.matchExit (now : Time) (l : LineUnit) : LineUnit :=
  match l.matched with
  | .zero => { l with matched := .one, lastExit := now }
  | .one | .more => { l with matched := .more, lastExit := now, pace := min (elapsed now l.lastExit) Config.max16 }

/-- One more sheet of a class delivered to the session (R11). -/
def Context.deliver (cls : SheetClass) (c : Context) : Context :=
  { c with delivered := c.delivered.set cls (c.delivered[cls] + 1) }

/-- The SHOW of a delivery: REMAINING, or SERVICE in a SERVICE session (R11, R124). -/
def showDelivery (i : StationId) (f : Floor) : Floor :=
  let c := (f.station i).context
  if c.role = .service then offer i (showOn 1 .service 0 c.totalDelivered) f else showRemaining i f

/-- The live tally's delivered count of an exit matched to a stray (R12). -/
def Tally.addDelivered (t : Tally) : Tally := { t with delivered := satAdd Config.max16 t.delivered 1 }

/-- Delivers an in-path entry (R11, R12). -/
def deliverSheet (i : StationId) (s : Sheet) (f : Floor) : Floor :=
  match s.target with
  | .stray => f.onStation i (Station.onLine fun l => { l with live := l.live.addDelivered })
  | .entry _ =>
    let g := onSheetAccount i s (fun a => (a.dropInFlight (facesOf s.cls)).addDelivered s.cls (facesOf s.cls)) f
    showDelivery i (g.onStation i (Station.onContext (Context.deliver s.cls)))

/-- An in-path delivery in RECOVERY advances the delivery count; the third ends the recovery (R127). -/
def Station.countRecovery (x : Station) : Station :=
  if x.state = .recovery then
    let y := x.onJam fun j => { j with deliveries := j.deliveries + 1 }
    if 3 ≤ y.jam.deliveries then { y.finaliseLost with state := .opened } else y
  else x

/-- Case 1 of R10: the oldest in-path entry leaves the list and is delivered. -/
def exitInPath (e : Mode) (i : StationId) (s : Sheet) (rest : List Sheet) (f : Floor) : Floor :=
  let f := f.onStation i (Station.onLine fun l => { l.matchExit e.partTime with inPath := rest })
  (deliverSheet i s f).onStation i Station.countRecovery

/-- A late delivery's effect on the session's lost counts and on the committed amount, by the lost sheet's fate (R124). -/
def Context.recover (l : LostSheet) (c : Context) : Context :=
  match l.fate, l.sheet.target with
  | .credited, .entry k =>
    { c.onEntry k fun en => { en with committed := satAdd Config.max48 en.committed l.sheet.price } with
      lostCredited := c.lostCredited - 1 }
  | .charged, .entry _ => { c with lostCharged := c.lostCharged - 1 }
  | _, _ => c

/-- The live tally after a stray's late delivery: one more delivered, one fewer lost, not below 0 (R125). -/
def Tally.recover (t : Tally) : Tally := { t.addDelivered with lost := t.lost - 1 }

/-- Delivers a lost sheet late; a credit charged back in RECOVERY is followed by a funding check (R81, R124, R125). -/
def deliverLate (e : Mode) (i : StationId) (l : LostSheet) (f : Floor) : Floor :=
  match l.fate with
  | .stray => f.onStation i (Station.onLine fun u => { u with live := u.live.recover })
  | .credited | .charged =>
    let g := onSheetAccount i l.sheet (·.addDelivered l.sheet.cls (facesOf l.sheet.cls)) f
    let g := showDelivery i (g.onStation i (Station.onContext fun c => (c.recover l).deliver l.sheet.cls))
    if l.fate = .credited ∧ (g.station i).state = .recovery then fundingCheck e i g else g

/-- Case 2 of R10: the oldest lost entry leaves the lost list and is delivered late. -/
def exitLate (e : Mode) (i : StationId) (l : LostSheet) (rest : List LostSheet) (f : Floor) : Floor :=
  let f := f.onStation i fun x => (x.onLine (LineUnit.matchExit e.partTime)).onJam fun j => { j with lost := rest }
  deliverLate e i l f

/-- Case 3 of R10: an orphan exit. -/
def LineUnit.orphan (l : LineUnit) : LineUnit := { l with orphans := satAdd Config.max16 l.orphans 1 }

/-- Whether the lost entries of a station can be matched: it is JAMMED or in RECOVERY (R10). -/
def StationState.matchesLost (t : StationState) : Bool := t == .jammed || t == .recovery

/-- An EXIT event at a station in service, by the first case of R10 that applies. -/
def exitInService (e : Mode) (i : StationId) (f : Floor) : Floor :=
  let x := f.station i
  match x.line.inPath, x.jam.lost with
  | s :: rest, _ => exitInPath e i s rest f
  | [], l :: rest => if x.state.matchesLost then exitLate e i l rest f else f.onStation i (Station.onLine LineUnit.orphan)
  | [], [] => f.onStation i (Station.onLine LineUnit.orphan)

/-- An EXIT event (R4, R10, R20). -/
def exitEvent (i : StationId) (e : Mode) (f : Floor) : Floor :=
  let f := f.onStation i fun x => (x.takeExitLevel true).onLine LineUnit.countExit
  if inService e (f.station i) then exitInService e i f else f

/-- A taken change of EXIT to active, when one is due (R1, R10; log 3). -/
def exitTaken (i : StationId) (e : Mode) (f : Floor) : Floor := if (f.station i).exitDue true then exitEvent i e f else f

/-- EXIT_EVENT (R10). -/
def execExitEvent (i : StationId) (s : State) : Host.Outcome State Fault Refusal := .next (s.unitStep (exitTaken i))

/-! ### FAULT and inactive levels -/

/-- A taken change of FAULT: a jam cause COPIER, or in JAMMED a settle start at a change to inactive (R5, R115, R121). -/
def faultEvent (i : StationId) (active : Bool) (e : Mode) (f : Floor) : Floor :=
  let f := f.onStation i (Station.takeFaultLevel active)
  let x := f.station i
  if !inService e x then f
  else if active then jamCause e i .copier [] f
  else if x.state = .jammed then f.onStation i (Station.onJam fun j => { j with settleStart := e.partTime })
  else f

/-- A taken change of FAULT, when one is due (R1, R5; log 3). -/
def faultTaken (i : StationId) (active : Bool) (e : Mode) (f : Floor) : Floor :=
  if (f.station i).faultDue active then faultEvent i active e f else f

/-- FAULT_CHANGE (R5). -/
def execFaultChange (i : StationId) (active : Bool) (s : State) : Host.Outcome State Fault Refusal :=
  .next (s.unitStep (faultTaken i active))

/-- A taken change of FEED or EXIT to the inactive level, when one is due: it updates the filtered level (R1; log 3). -/
def inactiveTaken (i : StationId) (line : PulseLine) (_e : Mode) (f : Floor) : Floor :=
  match line with
  | .feed => if (f.station i).feedDue false then f.onStation i (Station.takeFeedLevel false) else f
  | .exit => if (f.station i).exitDue false then f.onStation i (Station.takeExitLevel false) else f

/-- TAKEN_CHANGE (R1). -/
def execTakenChange (i : StationId) (line : PulseLine) (s : State) : Host.Outcome State Fault Refusal :=
  .next (s.unitStep (inactiveTaken i line))

end Sys2Proof.Machine
end

