-- ==== Sys2Proof/Machine/TimerEvents.lean ====
section
/-! DEFINITION. The checks and timers of the stations: the transit check, the quiet notice, the LOW timer, the link-loss
grace, the authorization timer, the silence and BUSY timers, the gap limit, jam clearing and recovery; and the movement of
the wait queue. An event whose condition does not hold has no effect (log 3). -/

namespace Sys2Proof.Machine

open Sys2Proof

/-- Whether a timer started at a time, if it runs, has reached its length in milliseconds. -/
def timerReached (now : Time) (start : Option Time) (length : Nat) : Bool :=
  match start with
  | some t => decide (length ≤ elapsed now t)
  | none => false

/-! ### The sheet path -/

/-- Whether the oldest in-path entry is older than the transit limit (R15). -/
def Station.overdue (now : Time) (x : Station) : Bool :=
  match x.line.inPath with
  | s :: _ => decide (x.copy.transitLimit < elapsed now s.feedTime)
  | [] => false

/-- TRANSIT_CHECK (R15); a JAMMED station and one not in service are passed over by the jam unit's own test (R115). -/
def transitDue (i : StationId) (e : Mode) (f : Floor) : Floor :=
  if (f.station i).overdue e.partTime then jamCause e i .transit [] f else f

/-- TRANSIT_CHECK (R15). -/
def execTransitCheck (i : StationId) (s : State) : Host.Outcome State Fault Refusal := .next (s.unitStep (transitDue i))

/-- The drain window of the present pace (R14). -/
def Station.drainWindow (x : Station) : Nat :=
  if x.line.pace = 0 ∨ x.line.pace = Config.max16 then x.copy.drainMin
  else min (max (3 * x.line.pace) x.copy.drainMin) Config.drainLimit

/-- Whether the path is quiet: empty, and the drain window passed since drain start (R14). -/
def Station.quiet (now : Time) (x : Station) : Bool :=
  x.line.inPath.isEmpty && decide (x.drainWindow ≤ elapsed now x.line.drainStart)

/-- The quiet notice of a DRAINING station: it enters SETTLING (R14, R90). -/
def quietDue (i : StationId) (e : Mode) (f : Floor) : Floor :=
  let x := f.station i
  if e.runs && x.state == .draining && x.quiet e.partTime then enterSettling e i f else f

/-- QUIET_NOTICE (R14). -/
def execQuietNotice (i : StationId) (s : State) : Host.Outcome State Fault Refusal := .next (s.unitStep (quietDue i))

/-! ### Session timers -/

/-- The LOW timer expires in LOW: the session ends with cause LOW TIMEOUT (R84). -/
def lowDue (i : StationId) (e : Mode) (f : Floor) : Floor :=
  let x := f.station i
  if x.state == .low && timerReached e.partTime x.lowStart (1000 * x.copy.lowTime) then endIfLive e i .lowTimeout f else f

/-- LOW_TIMER_EXPIRY (R84). -/
def execLowTimerExpiry (i : StationId) (s : State) : Host.Outcome State Fault Refusal := .next (s.unitStep (lowDue i))

/-- The link-loss grace expires: a LIVE session ends with LINK LOST, a funding wait is given up without a frame (R92). -/
def graceDue (i : StationId) (e : Mode) (f : Floor) : Floor :=
  let x := f.station i
  if timerReached e.partTime x.graceStart Config.graceTime then
    if x.context.condition = .live then endSession e i .linkLost f
    else if x.context.condition = .funding then giveUpFunding e i f
    else f
  else f

/-- LINK_LOSS_GRACE_EXPIRY (R92). -/
def execLinkLossGraceExpiry (i : StationId) (s : State) : Host.Outcome State Fault Refusal := .next (s.unitStep (graceDue i))

/-- The authorization timer of an ASKED request expires: a FIRST request's card is declined; an INCREMENT sets stop-asking
(R109). -/
def authDue (i : StationId) (e : Mode) (f : Floor) : Floor :=
  let x := f.station i
  if x.auth.state == .asked && timerReached e.partTime (some x.auth.written) (1000 * x.copy.authTime) then
    let g := cancelAuth i f
    if x.auth.kind = .first then giveUpFunding e i (showAndEject i .declined 0 0 g)
    else showDeclined i (g.onStation i Station.stopAsking)
  else f

/-- AUTHORIZATION_TIMER_EXPIRY (R109). -/
def execAuthorizationTimerExpiry (i : StationId) (s : State) : Host.Outcome State Fault Refusal :=
  .next (s.unitStep (authDue i))

/-! ### Link timers -/

/-- 1,500 ms in UP with no valid frame: the link goes DOWN (R50). -/
def silenceDue (i : StationId) (e : Mode) (f : Floor) : Floor :=
  let l := (f.station i).link
  if l.up && timerReached e.partTime (some l.silenceStart) Config.silenceLimit then linkDown e i f else f

/-- SILENCE_TIMER_EXPIRY (R50). -/
def execSilenceTimerExpiry (i : StationId) (s : State) : Host.Outcome State Fault Refusal := .next (s.unitStep (silenceDue i))

/-- BUSY active for more than 2,000 ms in UP: the link goes DOWN (R51). -/
def busyDue (i : StationId) (e : Mode) (f : Floor) : Floor :=
  let l := (f.station i).link
  if l.up && l.busy && timerReached e.partTime l.busyStart (Config.busyLimit + 1) then linkDown e i f else f

/-- BUSY_TIMER_EXPIRY (R51). -/
def execBusyTimerExpiry (i : StationId) (s : State) : Host.Outcome State Fault Refusal := .next (s.unitStep (busyDue i))

/-- A frame or character that fails its tests: it is discarded and counted, and the assembler returns to HUNT
(R42 to R44). -/
def LinkUnit.receiveError (l : LinkUnit) : LinkUnit :=
  { l with assembler := .hunt, rxErrors := satAdd Config.max8 l.rxErrors 1 }

/-- Changes a station's link unit. -/
def Station.onLink (change : LinkUnit → LinkUnit) (x : Station) : Station := { x with link := change x.link }

/-- More than 50 ms since the last byte of a frame: the frame is discarded and counted (R44). -/
def gapDue (i : StationId) (e : Mode) (f : Floor) : Floor :=
  let l := (f.station i).link
  if l.assembler ≠ .hunt ∧ Config.gapLimit < elapsed e.partTime l.lastByte then
    f.onStation i (Station.onLink LinkUnit.receiveError)
  else f

/-- GAP_LIMIT (R44). -/
def execGapLimit (i : StationId) (s : State) : Host.Outcome State Fault Refusal := .next (s.unitStep (gapDue i))

/-! ### Jams -/

/-- The three conditions at which a jam clears, at a JAMMED station (R122). -/
def Station.jamOver (now : Time) (x : Station) : Bool :=
  x.state == .jammed && !x.line.fault && decide (Config.settleTime ≤ elapsed now x.jam.settleStart) &&
    x.jam.pendingReport.isNone

/-- Entry to RECOVERY: the tracker starts, REMAINING is shown, and the funding check follows (R123, R127). -/
def enterRecovery (e : Mode) (i : StationId) (f : Floor) : Floor :=
  let f := f.onStation i fun x =>
    { x with state := .recovery, jam := { x.jam with deliveries := 0, recoveryStart := e.partTime } }
  fundingCheck e i (showRemaining i f)

/-- The session ends at the jam limit: out-pending takes the cause, and the station drains (R95, R123). -/
def endAtJamLimit (e : Mode) (i : StationId) (f : Floor) : Floor :=
  let f := f.onStation i fun x => x.finaliseLost.setOutPending .jamLimit
  (endSession e i .jamLimit f).onStation i fun x => { x with state := .draining }

/-- Moves a station whose jam has cleared by the first case of R95 that applies. -/
def afterJam (e : Mode) (i : StationId) (f : Floor) : Floor :=
  let x := f.station i
  match x.context.condition with
  | .live => if x.copy.jamLimit ≤ x.context.jams then endAtJamLimit e i f else enterRecovery e i f
  | .ending => f.onStation i fun x => { x.finaliseLost with state := .draining }
  | .settling => f.onStation i fun x => { x.finaliseLost with state := .settling }
  | .empty | .funding | .abandoned =>
    let f := f.onStation i Station.finaliseLost
    if x.outPending ≠ .none then enterOut e i x.outPending f else reachIdle e i f

/-- A jam clears (R95, R122, R123). -/
def jamDue (i : StationId) (e : Mode) (f : Floor) : Floor :=
  if e.runs && (f.station i).jamOver e.partTime then afterJam e i f else f

/-- JAM_CLEARS (R122). -/
def execJamClears (i : StationId) (s : State) : Host.Outcome State Fault Refusal := .next (s.unitStep (jamDue i))

/-- 60,000 ms since the recovery start: the station returns to OPEN (R127). -/
def recoveryDue (i : StationId) (e : Mode) (f : Floor) : Floor :=
  let x := f.station i
  if x.state == .recovery && timerReached e.partTime (some x.jam.recoveryStart) Config.recoveryTime then
    f.onStation i fun x => { x.finaliseLost with state := .opened }
  else f

/-- RECOVERY_TIMEOUT (R127). -/
def execRecoveryTimeout (i : StationId) (s : State) : Host.Outcome State Fault Refusal := .next (s.unitStep (recoveryDue i))

/-! ### The wait queue -/

/-- WAITING_REPORT_WRITTEN (R178): waiting reports are written in queue order as far as they fit (log 10). -/
def execWaitingReportWritten (s : State) : Host.Outcome State Fault Refusal :=
  .next (s.unitStep fun e f => moveQueue e queueTurns f)

end Sys2Proof.Machine
end

