-- ==== Sys2Proof/WellFormed.lean ====
section
/-! DEFINITION. Which commands are well formed: a frame command carries the fields of a VALID frame (R44, test 4), and
REGISTER_WRITE names a half that has no row of its own. The meanings are total; these are the commands a sender may queue. -/

namespace Sys2Proof

/-- The fields of a valid HELLO (R44): protocol level 1 and panel rows 1 to 4. -/
def helloFieldsValid (level rows : Byte) : Bool :=
  level == 1 && decide (1 ≤ rows.toNat) && decide (rows.toNat ≤ 4)

/-- The fields of a valid CARD IN (R44): medium SHOP (1) or BANK (2), and a SHOP card number other than 0. -/
def cardFieldsValid (medium : Byte) (card : BitVec 64) : Bool :=
  (medium == 1 && card != 0) || medium == 2

/-- The register halves that RUNCTL, ORDPOST, RPTRD and IRQFLAG writes are rows of their own for (R163, 10.4). -/
def hasOwnRow (reg : BitVec 3) (high : Bool) : Bool :=
  !high && (reg == 1 || reg == 2 || reg == 5 || reg == 6)

/-- The commands a sender may queue. -/
def Instr.wellFormed : Instr → Bool
  | .hello _ level _ rows => helloFieldsValid level rows
  | .cardIn _ medium card => cardFieldsValid medium card
  | .registerWrite reg high _ => !hasOwnRow reg high
  | _ => true

end Sys2Proof
end

