-- ==== Sys2Proof/Machine/LinkEvents.lean ====
section
/-! DEFINITION. The terminal link events: received frames, bytes and errors (R42 to R50), and the transmitter (R56, R57). -/

namespace Sys2Proof.Machine

open Sys2Proof

/-! ### Frames from the terminal -/

/-- A frame from the terminal, with its fields (3.3, 11.9). -/
inductive RxFrame where
  | hello (level abilities rows : Byte)
  | tick (flags : Byte)
  | cardIn (medium : Byte) (card : BitVec 64)
  | cardOut
  | keyEnd
  | keyBalance
deriving DecidableEq, Repr

/-- Whether the fields hold values the kind allows (R44, test 4). -/
def RxFrame.fieldsValid : RxFrame → Bool
  | .hello level _ rows => helloFieldsValid level rows
  | .cardIn medium card => cardFieldsValid medium card
  | .tick _ => true
  | .cardOut => true
  | .keyEnd => true
  | .keyBalance => true

/-- The ability a HELLO offers (11.9). -/
def offeredAbility (abilities rows : Byte) : Ability :=
  { shop := abilities.getLsbD 0, bank := abilities.getLsbD 1, keypad := abilities.getLsbD 2, rows := rows.toNat }

/-- Whether a frame is a SHOW for a row above the given rows (R45). -/
def TxFrame.aboveRows (rows : Nat) : TxFrame → Bool
  | .showMsg row .. => decide (rows < row)
  | _ => false

/-- A renegotiation removes the waiting SHOW frames above the new agreed rows (R45). -/
def LinkUnit.trimRows (rows : Nat) (l : LinkUnit) : LinkUnit :=
  { l with queue := l.headSent ++ l.waiting.filter fun t => !t.aboveRows rows }

/-- A link entering UP: the silence timer starts, and the BUSY timer when BUSY is active already (R50, R51). -/
def LinkUnit.enterUp (now : Time) (l : LinkUnit) : LinkUnit :=
  { l with up := true, silenceStart := now, busyStart := if l.busy then some now else none }

/-- A valid HELLO (R45, R52). -/
def takeHello (e : Mode) (i : StationId) (abilities rows : Byte) (f : Floor) : Floor :=
  let x := f.station i
  let offered := offeredAbility abilities rows
  let agreed := agreedWith x.copy offered
  if x.link.up then
    f.onStation i (Station.onLink fun l =>
      (({ l with offered := offered, agreed := agreed }.trimRows rows.toNat).offer (.welcome agreed)))
  else
    stationNotice e i .linkUp .none (f.onStation i (Station.onLink fun l =>
      ({ l with offered := offered, agreed := agreed }.offer (.welcome agreed)).enterUp e.partTime))

/-- The card leaves: the card-held mark is cleared and a CARD OUT handed on, if the mark was set (R46, R48). -/
def cardLeaves (e : Mode) (i : StationId) (f : Floor) : Floor :=
  if (f.station i).link.held.isSome then
    sessionCardOut e i (f.onStation i (Station.onLink fun l => { l with held := none }))
  else f

/-- A TICK in UP (R46). -/
def takeTick (e : Mode) (i : StationId) (flags : Byte) (f : Floor) : Floor :=
  let f := f.onStation i (Station.onLink fun l => { l with cardPresent := flags.getLsbD 0 })
  if flags.getLsbD 0 then f else cardLeaves e i f

/-- The medium a valid CARD IN names: SHOP 1, else BANK (11.9). -/
def mediumOf (medium : Byte) : Medium := if medium = 1 then .shop else .bank

/-- Whether a medium is among the agreed readers (R45). -/
def Ability.reads (a : Ability) : Medium → Bool
  | .shop => a.shop
  | .bank => a.bank

/-- A CARD IN in UP (R47). -/
def takeCardIn (e : Mode) (i : StationId) (card : Card) (f : Floor) : Floor :=
  let x := f.station i
  if inService e x && !x.link.agreed.reads card.medium then showAndEject i .notAccepted 0 0 f
  else sessionCardIn e i card (f.onStation i (Station.onLink fun l => { l with held := some card }))

/-- Hands on a key when the keypad is agreed (R48). -/
def takeKey (i : StationId) (key : Floor → Floor) (f : Floor) : Floor := if (f.station i).link.agreed.keypad then key f else f

/-- A valid frame in UP restarts the silence timer (R50). -/
def LinkUnit.heard (now : Time) (l : LinkUnit) : LinkUnit := if l.up then { l with silenceStart := now } else l

/-- Acts on a valid frame: a HELLO in either link state, any other frame in UP only (R45 to R49). -/
def actOnFrame (e : Mode) (i : StationId) (t : RxFrame) (f : Floor) : Floor :=
  let up := (f.station i).link.up
  match t with
  | .hello _ abilities rows => takeHello e i abilities rows f
  | .tick flags => if up then takeTick e i flags f else f
  | .cardIn medium card => if up then takeCardIn e i { medium := mediumOf medium, bytes := card } f else f
  | .cardOut => if up then cardLeaves e i f else f
  | .keyEnd => if up then takeKey i (sessionKeyEnd e i) f else f
  | .keyBalance => if up then takeKey i (sessionKeyBalance e i) f else f

/-- A frame judged at its check byte: the assembler returns to HUNT; a valid frame is taken, any other counted as a receive
error (R43, R44). -/
def receiveFrame (i : StationId) (t : RxFrame) (e : Mode) (f : Floor) : Floor :=
  if t.fieldsValid then
    actOnFrame e i t (f.onStation i (Station.onLink fun l => { l.heard e.partTime with assembler := .hunt }))
  else f.onStation i (Station.onLink LinkUnit.receiveError)

/-- HELLO (R45). -/
def execHello (i : StationId) (level abilities rows : Byte) (s : State) : Host.Outcome State Fault Refusal :=
  .next (s.unitStep (receiveFrame i (.hello level abilities rows)))

/-- TICK (R46). -/
def execTick (i : StationId) (flags : Byte) (s : State) : Host.Outcome State Fault Refusal :=
  .next (s.unitStep (receiveFrame i (.tick flags)))

/-- CARD_IN (R47). -/
def execCardIn (i : StationId) (medium : Byte) (card : BitVec 64) (s : State) : Host.Outcome State Fault Refusal :=
  .next (s.unitStep (receiveFrame i (.cardIn medium card)))

/-- CARD_OUT (R48). -/
def execCardOut (i : StationId) (s : State) : Host.Outcome State Fault Refusal :=
  .next (s.unitStep (receiveFrame i .cardOut))

/-- KEY_END (R86). -/
def execKeyEnd (i : StationId) (s : State) : Host.Outcome State Fault Refusal := .next (s.unitStep (receiveFrame i .keyEnd))

/-- KEY_BALANCE (R87). -/
def execKeyBalance (i : StationId) (s : State) : Host.Outcome State Fault Refusal :=
  .next (s.unitStep (receiveFrame i .keyBalance))

/-- INVALID_FRAME (R44). -/
def execInvalidFrame (i : StationId) (s : State) : Host.Outcome State Fault Refusal :=
  .next (s.unitStep fun _ f => f.onStation i (Station.onLink LinkUnit.receiveError))

/-! ### Bytes and characters -/

/-- The little-endian number of 8 card bytes (3.3). -/
def cardNumber : List Byte → Nat
  | [] => 0
  | b :: bs => b.toNat + 256 * cardNumber bs

/-- The frame that kind and payload bytes spell, when the kind is known and the length is that of the kind (R44, tests 2
and 3; 11.9). A KEY other than END and BALANCE spells none (test 4). -/
def RxFrame.ofBytes : List Byte → Option RxFrame
  | [] => none
  | kind :: payload =>
    if kind = 1 then
      match payload with
      | [level, abilities, rows] => some (.hello level abilities rows)
      | _ => none
    else if kind = 2 then
      match payload with
      | [flags] => some (.tick flags)
      | _ => none
    else if kind = 3 then
      match payload with
      | [medium, b0, b1, b2, b3, b4, b5, b6, b7] =>
        some (.cardIn medium (BitVec.ofNat 64 (cardNumber [b0, b1, b2, b3, b4, b5, b6, b7])))
      | _ => none
    else if kind = 4 then
      match payload with
      | [] => some .cardOut
      | _ => none
    else if kind = 5 then
      match payload with
      | [key] => if key = 1 then some .keyEnd else if key = 2 then some .keyBalance else none
      | _ => none
    else none

/-- Whether the length, kind, payload and check bytes sum to 0 modulo 256 (R44, test 1). -/
def sumIsZero (len : Nat) (bytes : List Byte) (check : Byte) : Bool :=
  (len + (bytes.map BitVec.toNat).sum + check.toNat) % 256 == 0

/-- Judges a frame at its check byte (R44). -/
def judgeFrame (i : StationId) (len : Nat) (bytes : List Byte) (check : Byte) (e : Mode) (f : Floor) : Floor :=
  match RxFrame.ofBytes bytes with
  | some t =>
    if sumIsZero len bytes check then receiveFrame i t e f else f.onStation i (Station.onLink LinkUnit.receiveError)
  | none => f.onStation i (Station.onLink LinkUnit.receiveError)

/-- A byte kept in BODY (R43). -/
def keepByte (len : Nat) (got : List Byte) (b : Byte) : Assembler :=
  if (got ++ [b]).length = len then .check len (got ++ [b]) else .body len (got ++ [b])

/-- The character receiver has found the line at the 1 level again after a framing error (R42). -/
def LinkUnit.foundHigh (l : LinkUnit) : LinkUnit := { l with awaitsHigh := false }

/-- Whether the line has been at the 1 level before the character that comes (R42; log 31). -/
def LinkUnit.rose (l : LinkUnit) : Bool := l.rises.headD true

/-- Whether the receiver looks for a start bit: it does not after a framing error until the line has been at the 1 level
(R42). -/
def LinkUnit.listens (l : LinkUnit) : Bool := !l.awaitsHigh || l.rose

/-- A character has come and gone on the line (log 31). -/
def LinkUnit.pastCharacter (l : LinkUnit) : LinkUnit := { l with rises := l.rises.tail }

/-- A delivered byte, by the state of the assembler (R43). -/
def byteDelivered (i : StationId) (b : Byte) (e : Mode) (f : Floor) : Floor :=
  let f := f.onStation i (Station.onLink fun l => { l with lastByte := e.partTime })
  let become := fun a => f.onStation i (Station.onLink fun l => { l with assembler := a })
  match (f.station i).link.assembler with
  | .hunt => if b = 0xA5 then become .length else f
  | .length =>
    if 1 ≤ b.toNat ∧ b.toNat ≤ 40 then become (.body b.toNat []) else f.onStation i (Station.onLink LinkUnit.receiveError)
  | .body len got => become (keepByte len got b)
  | .check len got => judgeFrame i len got b e f

/-- A character received without byte error, when the receiver looks for one (R42, R43). -/
def characterReceived (i : StationId) (data : Byte) (e : Mode) (f : Floor) : Floor :=
  let g := f.onStation i (Station.onLink LinkUnit.pastCharacter)
  if (f.station i).link.listens then byteDelivered i data e (g.onStation i (Station.onLink LinkUnit.foundHigh)) else g

/-- BYTE_RECEIVED (R43). -/
def execByteReceived (i : StationId) (data : Byte) (s : State) : Host.Outcome State Fault Refusal :=
  .next (s.unitStep (characterReceived i data))

/-- Whether a character carries a byte error: a parity error or a framing error (R42). -/
def isByteError (w : WorkingCopy) (data : Byte) (parityBit stopBit : Bool) : Bool := parityError w data parityBit || !stopBit

/-- A character with a byte error, when the receiver looks for one: the frame being assembled is discarded and the error
counted, and after a framing error the receiver waits for the line's return to the 1 level (R42). -/
def characterFailed (i : StationId) (data : Byte) (parityBit stopBit : Bool) (_e : Mode) (f : Floor) : Floor :=
  let x := f.station i
  if isByteError x.copy data parityBit stopBit then
    let g := f.onStation i (Station.onLink LinkUnit.pastCharacter)
    if x.link.listens then g.onStation i (Station.onLink fun l => { l.receiveError with awaitsHigh := !stopBit }) else g
  else f

/-- BYTE_ERROR (R42). -/
def execByteError (i : StationId) (data : Byte) (parityBit stopBit : Bool) (s : State) :
    Host.Outcome State Fault Refusal :=
  .next (s.unitStep (characterFailed i data parityBit stopBit))

/-! ### The transmitter -/

/-- Whether the frame at the head of the queue may start; a gap that runs keeps the length it started with (R41, R56, R57). -/
def LinkUnit.mayStart (now : Time) (l : LinkUnit) : Bool :=
  l.up && !l.queue.isEmpty && l.sending.isNone && l.character.isNone && !l.busy &&
    (l.gapStart.isNone || timerReached now l.gapStart l.gapLength)

/-- The frame at the head of the queue begins, with its start byte (R54, R56). -/
def LinkUnit.startFrame (w : WorkingCopy) (now : Time) (l : LinkUnit) : LinkUnit :=
  if l.mayStart now then
    match l.queue with
    | t :: _ => { l with sending := some { bytes := t.bytes, next := 0 }, gapStart := none }.startCharacter w
    | [] => l
  else l

/-- NEXT_FRAME_START (R56). -/
def execNextFrameStart (i : StationId) (s : State) : Host.Outcome State Fault Refusal :=
  .next (s.unitStep fun e f => f.onStation i fun x => x.onLink (LinkUnit.startFrame x.copy e.partTime))

/-- The character in progress ends within a frame: the next one begins unless BUSY is active; after an abandoned frame
nothing follows, and no gap is run (R52, R56, R57; log 42). -/
def LinkUnit.endCharacter (w : WorkingCopy) (l : LinkUnit) : LinkUnit :=
  match l.character, l.sending with
  | none, _ => l
  | some _, none => { l with character := none }
  | some _, some t =>
    if t.next + 1 < t.bytes.length then
      let ended := { l with character := none, sending := some { t with next := t.next + 1 } }
      if l.busy then ended else ended.startCharacter w
    else l

/-- CHARACTER_SENT (R57). -/
def execCharacterSent (i : StationId) (s : State) : Host.Outcome State Fault Refusal :=
  .next (s.unitStep fun _ f => f.onStation i fun x => x.onLink (LinkUnit.endCharacter x.copy))

/-- The inter-frame gap begins, with the working copy's length (R41, R56). -/
def LinkUnit.startGap (w : WorkingCopy) (now : Time) (l : LinkUnit) : LinkUnit :=
  { l with gapStart := some now, gapLength := w.gap }

/-- The last stop bit of the check byte is sent: the frame leaves the queue and the inter-frame gap begins (R56). A character
left of an abandoned frame that ends by this event begins a gap too (log 42). -/
def LinkUnit.endFrame (w : WorkingCopy) (now : Time) (l : LinkUnit) : LinkUnit :=
  match l.character, l.sending with
  | none, _ => l
  | some _, none => { l with character := none }.startGap w now
  | some _, some t =>
    if t.next + 1 < t.bytes.length then l
    else { l with character := none, sending := none, queue := l.queue.drop 1 }.startGap w now

/-- FRAME_SENT (R56). -/
def execFrameSent (i : StationId) (s : State) : Host.Outcome State Fault Refusal :=
  .next (s.unitStep fun e f => f.onStation i fun x => x.onLink (LinkUnit.endFrame x.copy e.partTime))

/-- BUSY_LEVEL_CHANGE (R57): BUSY is sampled at a new level, and the ticks sample that level from then on (R51; log 49). -/
def execBusyLevelChange (i : StationId) (high : Bool) (s : State) : Host.Outcome State Fault Refusal :=
  .next (s.unitStep fun e f => f.onStation i fun x => x.onLink (LinkUnit.sampleBusy x.copy e.partTime high))

end Sys2Proof.Machine
end

