-- ==== Sys2Proof/Machine/Dispatch.lean ====
section
/-! DEFINITION. The meaning of every command: one direct call for each row of spec/opcode_table.json. -/

namespace Sys2Proof.Machine

open Sys2Proof

/-- The effect of a command on everything but the queue. -/
def exec (i : Instr) (s : State) : Host.Outcome State Fault Refusal :=
  match i with
  | .powerOn => Sys2Proof.Machine.execPowerOn s
  | .clearingDone => Sys2Proof.Machine.execClearingDone s
  | .softReset => Sys2Proof.Machine.execSoftReset s
  | .runRequest => Sys2Proof.Machine.execRunRequest s
  | .stopRequest => Sys2Proof.Machine.execStopRequest s
  | .stoppedEntry => Sys2Proof.Machine.execStoppedEntry s
  | .ordpostWrite v => Sys2Proof.Machine.execOrdpostWrite v s
  | .rptrdWrite v => Sys2Proof.Machine.execRptrdWrite v s
  | .irqflagWrite v => Sys2Proof.Machine.execIrqflagWrite v s
  | .registerWrite reg high v => Sys2Proof.Machine.execRegisterWrite reg high v s
  | .lowHalfRead reg => Sys2Proof.Machine.execLowHalfRead reg s
  | .storeWrite word v => Sys2Proof.Machine.execStoreWrite word v s
  | .accountOpen => Sys2Proof.Machine.execAccountOpen s
  | .accountCredit => Sys2Proof.Machine.execAccountCredit s
  | .accountDebit => Sys2Proof.Machine.execAccountDebit s
  | .accountLimit => Sys2Proof.Machine.execAccountLimit s
  | .accountFreeze => Sys2Proof.Machine.execAccountFreeze s
  | .accountThaw => Sys2Proof.Machine.execAccountThaw s
  | .accountClose => Sys2Proof.Machine.execAccountClose s
  | .periodClose => Sys2Proof.Machine.execPeriodClose s
  | .cardPut => Sys2Proof.Machine.execCardPut s
  | .cardDrop => Sys2Proof.Machine.execCardDrop s
  | .authAnswer => Sys2Proof.Machine.execAuthAnswer s
  | .priceSwitch => Sys2Proof.Machine.execPriceSwitch s
  | .stationOut => Sys2Proof.Machine.execStationOut s
  | .stationIn => Sys2Proof.Machine.execStationIn s
  | .jamAck => Sys2Proof.Machine.execJamAck s
  | .sessionEnd => Sys2Proof.Machine.execSessionEnd s
  | .badKind => Sys2Proof.Machine.execBadKind s
  | .feedEvent st size colour sides => Sys2Proof.Machine.execFeedEvent st size colour sides s
  | .exitEvent st => Sys2Proof.Machine.execExitEvent st s
  | .faultChange st active => Sys2Proof.Machine.execFaultChange st active s
  | .takenChange st line => Sys2Proof.Machine.execTakenChange st line s
  | .transitCheck st => Sys2Proof.Machine.execTransitCheck st s
  | .quietNotice st => Sys2Proof.Machine.execQuietNotice st s
  | .lowTimerExpiry st => Sys2Proof.Machine.execLowTimerExpiry st s
  | .linkLossGraceExpiry st => Sys2Proof.Machine.execLinkLossGraceExpiry st s
  | .authorizationTimerExpiry st => Sys2Proof.Machine.execAuthorizationTimerExpiry st s
  | .silenceTimerExpiry st => Sys2Proof.Machine.execSilenceTimerExpiry st s
  | .busyTimerExpiry st => Sys2Proof.Machine.execBusyTimerExpiry st s
  | .gapLimit st => Sys2Proof.Machine.execGapLimit st s
  | .jamClears st => Sys2Proof.Machine.execJamClears st s
  | .recoveryTimeout st => Sys2Proof.Machine.execRecoveryTimeout st s
  | .waitingReportWritten => Sys2Proof.Machine.execWaitingReportWritten s
  | .frameSent st => Sys2Proof.Machine.execFrameSent st s
  | .nextFrameStart st => Sys2Proof.Machine.execNextFrameStart st s
  | .byteError st data parityBit stopBit => Sys2Proof.Machine.execByteError st data parityBit stopBit s
  | .invalidFrame st => Sys2Proof.Machine.execInvalidFrame st s
  | .hello st level abilities rows => Sys2Proof.Machine.execHello st level abilities rows s
  | .tick st flags => Sys2Proof.Machine.execTick st flags s
  | .cardIn st medium card => Sys2Proof.Machine.execCardIn st medium card s
  | .cardOut st => Sys2Proof.Machine.execCardOut st s
  | .keyEnd st => Sys2Proof.Machine.execKeyEnd st s
  | .keyBalance st => Sys2Proof.Machine.execKeyBalance st s
  | .byteReceived st data => Sys2Proof.Machine.execByteReceived st data s
  | .characterSent st => Sys2Proof.Machine.execCharacterSent st s
  | .busyLevelChange st high => Sys2Proof.Machine.execBusyLevelChange st high s
  | .partTimeTick => Sys2Proof.Machine.execPartTimeTick s

end Sys2Proof.Machine
end

