-- ==== Sys2Proof/Machine/Step.lean ====
section
/-! DEFINITION. The step of the block: the command at the front of the queue is executed with the rest of the queue. -/

namespace Sys2Proof.Machine

open Sys2Proof

/-- The same state with another queue of waiting commands. -/
def State.withPending (s : State) (queue : List Instr) : State := { s with pending := queue }

/-- One step: the first waiting command, first in, first out; with an empty queue the block idles (log 1). -/
def step (s : State) : Host.Outcome State Fault Refusal :=
  match s.pending with
  | [] => .next s
  | c :: rest => exec c (s.withPending rest)

/-- The state with the command a word spells put at the front of its queue; unchanged where the word spells none. -/
def State.withFetchWord (s : State) (nbits w : Nat) : State :=
  match decodeTableWord nbits w with
  | some c => s.withPending (c :: s.pending)
  | none => s

end Sys2Proof.Machine
end

