-- ==== Sys2Proof/Safety.lean ====
section
/-! DEFINITION. What claims about the part are stated in: the laws of the manual as predicates of a state, and what it means
that a step leaves a piece of state alone. -/

namespace Sys2Proof.Machine

open Sys2Proof

/-! ### Laws of the manual -/

/-- ENABLE of a station is active as its three conditions say, and stands at the working copy's level for that (R16). -/
def EnableStands (e : Mode) (x : Station) : Prop :=
  x.line.enable = x.mayFeed e ∧ x.line.enableHigh = if x.line.enable then x.copy.activeHigh 6 else !x.copy.activeHigh 6

/-- Law L4 (R16): every ENABLE output stands as its three conditions say. -/
def EnableLaw (s : State) : Prop := ∀ i, EnableStands s.mode (s.floor.station i)

/-- Law L10 (R173): the posted count is never more than 64 ahead of the done count. -/
def OrdersLaw (s : State) : Prop := aheadOf s.port.ordPost s.port.ordDone ≤ 64

/-- The store is in its canonical form. -/
def StoreLaw (s : State) : Prop := s.floor.store.wf = true

/-- The bounds of law L5 on one station: at most 8 sheets in the path, a path depth of at most 8, at most 9 lost sheets. -/
def PathBound (x : Station) : Prop := x.line.inPath.length ≤ 8 ∧ x.copy.pathDepth ≤ 8 ∧ x.jam.lost.length ≤ 9

/-- Law L5 for the sheet lists (R6, R114). -/
def PathLaw (s : State) : Prop := ∀ i, PathBound (s.floor.station i)

/-- The bound of law L7 (R79): a funding list holds at most 3 entries. -/
def FundingLaw (s : State) : Prop := ∀ i, (s.floor.station i).context.funding.length ≤ 3

/-- Whether a frame is a WELCOME. -/
def TxFrame.isWelcome : TxFrame → Bool
  | .welcome _ => true
  | _ => false

/-- Whether a frame is an EJECT. -/
def TxFrame.isEject : TxFrame → Bool
  | .eject => true
  | _ => false

/-- A transmit queue as R54 keeps it: at most 4 frames, at most one WELCOME and at most one EJECT waiting. -/
def QueueBound (l : LinkUnit) : Prop :=
  l.queue.length ≤ 4 ∧ l.waiting.countP TxFrame.isWelcome ≤ 1 ∧ l.waiting.countP TxFrame.isEject ≤ 1

/-- Every transmit queue is as R54 keeps it. -/
def QueueLaw (s : State) : Prop := ∀ i, QueueBound (s.floor.station i).link

/-! ### What a step leaves alone -/

/-- Everything of a state but its floor is unchanged. -/
def KeepsOutside (s t : State) : Prop := t.mode = s.mode ∧ t.port = s.port ∧ t.pending = s.pending

/-- The report writer, the interrupt flags and the store's own cells are unchanged. -/
def KeepsShared (f g : Floor) : Prop :=
  g.store = f.store ∧ g.waitQueue = f.waitQueue ∧ g.dropped = f.dropped ∧ g.rptWr = f.rptWr ∧ g.irqFlag = f.irqFlag

/-- Every station but `i` is unchanged. -/
def KeepsOthers (i : StationId) (f g : Floor) : Prop := ∀ j, j ≠ i → g.station j = f.station j

/-- Whether an address lies in the record of station `i` (11.7). -/
def inRecord (i : StationId) (a : Nat) : Prop :=
  Config.stationBase + 512 * i.val ≤ a ∧ a < Config.stationBase + 512 * i.val + 512

/-- Whether an address lies in some station's record. -/
def inRecords (a : Nat) : Prop := Config.stationBase ≤ a ∧ a < Config.stationEnd

/-- Whether an address is one of the `n` bytes from `start`. -/
def inBytes (start n a : Nat) : Prop := start ≤ a ∧ a < start + n

/-- Whether an address lies in the report stream (R164). -/
def inStream (a : Nat) : Prop := inBytes Config.streamBase Config.streamBytes a

/-- Whether an address lies in the part header (R164). -/
def inHeader (a : Nat) : Prop := inBytes Config.headerBase 128 a

/-- Whether an address lies in the record of account `n` (R132). -/
def inAccount (n a : Nat) : Prop := inBytes (accountAddr n) 64 a

/-- Whether an address lies in the account table (R164). -/
def inAccounts (a : Nat) : Prop := Config.accountBase ≤ a ∧ a < Config.scratchBase

/-- Every byte a host reads from the store is unchanged, apart from the addresses that `stored` names. -/
def KeepsBytes (stored : Nat → Prop) (f g : Floor) : Prop := ∀ a, ¬ stored a → g.readByte a = f.readByte a

/-- A step that changes station `i` alone: nothing outside the floor, nothing shared, no other station, and no byte of the
store outside the station's record. -/
def OnlyStation (i : StationId) (s t : State) : Prop :=
  KeepsOutside s t ∧ KeepsShared s.floor t.floor ∧ KeepsOthers i s.floor t.floor ∧
    KeepsBytes (inRecord i) s.floor t.floor

/-- The session controller's part of a station is unchanged, and so are the working copy and the guard record. -/
def KeepsSession (x y : Station) : Prop :=
  y.state = x.state ∧ y.outCause = x.outCause ∧ y.outPending = x.outPending ∧ y.nextCard = x.nextCard ∧
    y.lowStart = x.lowStart ∧ y.graceStart = x.graceStart ∧ y.context = x.context ∧ y.auth = x.auth ∧
    y.copy = x.copy ∧ y.guardValue = x.guardValue ∧ y.noService = x.noService

/-! ### Where bytes are stored -/

/-- Whether an address lies in the `n` bytes at offset `o` of the part header (11.8). -/
def inHeaderField (o n a : Nat) : Prop := inBytes (Config.headerBase + o) n a

/-- Whether an address lies in the bytes of the header region that no field of 11.8 takes. -/
def inHeaderRest (a : Nat) : Prop := inBytes (Config.headerBase + 28) 100 a

/-- Whether an address lies in the card directory (R164). -/
def inDirectory (a : Nat) : Prop := inBytes Config.directoryBase 32768 a

/-- Where a report of length `len` is placed when the write offset is `wr` (R176). -/
def reportPlace (wr len : Nat) : Nat := Config.streamBase + if padLength wr len = 0 then wr else 0

/-- Whether an address lies in a report of length `len` written at write offset `wr`, or in the header of the PAD before it
(R176). -/
def inReport (wr len a : Nat) : Prop :=
  inBytes (reportPlace wr len) len a ∨ (padLength wr len ≠ 0 ∧ inBytes (Config.streamBase + wr) 8 a)

/-- Whether an address lies in the result or the answer of the slot that the done count names (11.1). -/
def inAnswer (done : Half) (a : Nat) : Prop := inBytes (slotAddr done + 1) 1 a ∨ inBytes (slotAddr done + 24) 8 a

/-- The 8-byte header of a report stands at address `p` (11.2). -/
def ReportHeaderAt (m : Memory) (p len : Nat) (kind : ReportKind) (station : Nat) (now : Time) : Prop :=
  m.readLE p 2 = len ∧ (m.read (p + 2)).toNat = kind.code ∧ (m.read (p + 3)).toNat = station ∧ m.readLE (p + 4) 4 = now.toNat

/-! ### More laws -/

/-- The write offset stands where R176 lets it stand, and the read offset is an offset of the stream. -/
def OffsetLaw (s : State) : Prop :=
  s.floor.rptWr % 4 = 0 ∧ s.floor.rptWr ≤ 8184 ∧ s.mode.rptRd % 4 = 0 ∧ s.mode.rptRd < 8192

/-- While the part is CLEARING the report stream is empty, as power-on leaves it (R172). -/
def ClearingLaw (s : State) : Prop := s.mode.run = .clearing → s.floor.rptWr = 0 ∧ s.mode.rptRd = 0

/-- Between commands no account record is left with an odd edit count while the part is RUNNING or STOPPING (R134). -/
def EvenLaw (s : State) : Prop := s.mode.runs = true → ∀ n, n < 1024 → isOdd (s.floor.store.account n).editCount = false

/-- Whether a command is a write of RUNCTL with the given soft reset and run request bits, by one row or the other (R167). -/
def isRunctl (soft run : Bool) (c : Instr) : Prop :=
  (∃ v : Half, c = .registerWrite 1 false v ∧ v.getLsbD 1 = soft ∧ (soft = true ∨ v.getLsbD 0 = run)) ∨
    (soft = true ∧ c = .softReset) ∨ (soft = false ∧ run = true ∧ c = .runRequest) ∨
    (soft = false ∧ run = false ∧ c = .stopRequest)

/-- Whether a command has an effect while the part is CLEARING. -/
def actsInClearing : Instr → Bool
  | .powerOn | .clearingDone | .lowHalfRead _ | .partTimeTick => true
  | _ => false

/-- Law L6: while the part is RUNNING or STOPPING the card directory is as the start check wants it: at most 2,048 entries,
strictly ascending by card number, none with card number 0. -/
def DirectoryLaw (s : State) : Prop :=
  s.mode.runs = true → s.floor.store.directoryCount ≤ 2048 ∧
    (∀ k, k < s.floor.store.directoryCount → (s.floor.store.dirEntry k).number ≠ 0) ∧
    ∀ j k, j < k → k < s.floor.store.directoryCount →
      (s.floor.store.dirEntry j).number < (s.floor.store.dirEntry k).number

/-! ### How one station ends a step -/

/-- The end of a step at a station that the step has made `new`: ENABLE is driven (R16, R17), and a record whose bytes changed
has had one edit count (R78). -/
def finished (e : Mode) (old new : Station) : Station := old.settleRecord (new.driveEnable e)

/-- A step that changes station `i`, and of the store nothing outside the station's record and the addresses `stored`. -/
def OnlyStationAnd (stored : Nat → Prop) (i : StationId) (s t : State) : Prop :=
  KeepsOutside s t ∧ t.floor.waitQueue = s.floor.waitQueue ∧ t.floor.dropped = s.floor.dropped ∧
    t.floor.rptWr = s.floor.rptWr ∧ t.floor.irqFlag = s.floor.irqFlag ∧ KeepsOthers i s.floor t.floor ∧
    KeepsBytes (fun a => inRecord i a ∨ stored a) s.floor t.floor

/-- Command `c` answers the state in which station `i` alone has changed: it has become `y`. -/
def ChangesTo (c : Instr) (i : StationId) (s : State) (y : Station) : Prop :=
  ∃ t, exec c s = .next t ∧ OnlyStation i s t ∧ t.floor.station i = finished s.mode (s.floor.station i) y

/-- Command `c` answers the state in which station `i` has become `y`, and nothing else has changed but the store at the
addresses `stored`, whose new content `holds` states. -/
def ChangesToAnd (stored : Nat → Prop) (holds : Memory → Prop) (c : Instr) (i : StationId) (s : State) (y : Station) : Prop :=
  ∃ t, exec c s = .next t ∧ OnlyStationAnd stored i s t ∧ holds t.floor.store ∧
    t.floor.station i = finished s.mode (s.floor.station i) y

/-- An account after one request that would make it `new`: a changed record has had one edit count (R134). -/
def edited (old new : Account) : Account := if new = old then old else { new with editCount := bracket old.editCount }

/-- An account without what holds and requests change: held amount, holders and edit count. -/
def Account.facts (a : Account) : Account := { a with held := 0, holders := 0, editCount := 0 }

/-- An authorization request closed: the record is NONE; the last id and a report in the slot stay (R106, R110), and the fields it no
longer holds are 0 by the model's choice (log 47). -/
def Auth.shut (a : Auth) : Auth := { a with state := .none, kind := .none, amount := 0, id := 0, written := 0 }

/-- A station's session ended as R88 says; its request is closed (log 47 for the fields of the record). -/
def Station.ended (now : Time) (cause : EndCause) (x : Station) : Station :=
  { x with
    state := if x.state = .jammed then .jammed else .draining
    context := { x.context with condition := .ending, endCause := cause, endTime := now }
    lowStart := none, graceStart := none
    auth := x.auth.shut
    jam := { x.jam with lost := if x.state = .recovery then [] else x.jam.lost }
    link := if cause = .cardOut ∨ cause = .linkLost then x.link else x.link.offer .eject }

/-- A station whose funding wait has been given up and that is IDLE again (R107, R109; log 47 for the fields of the request). -/
def Station.givenUp (x : Station) : Station :=
  { x with
    state := .idle, context := .empty, graceStart := none
    auth := x.auth.shut }

/-- A frame judged valid at its check byte: the assembler is in HUNT and, in UP, the silence timer starts again (R43, R50). -/
def Station.heardFrame (now : Time) (x : Station) : Station :=
  { x with link := { x.link with assembler := .hunt, silenceStart := if x.link.up then now else x.link.silenceStart } }

/-- The frames of a refusal: a SHOW on row 1 and an EJECT (R70). -/
def Station.refusal (msg : Message) (first second : Int) (x : Station) : Station :=
  { x with link := (x.link.offer (showOn 1 msg first second)).offer .eject }

/-! ### Orders and notices -/

/-- An order of kind `kind` waits at the done count of a part that has left CLEARING (R174). -/
def OrderAt (s : State) (kind : Nat) : Prop :=
  s.mode.run ≠ .clearing ∧ s.port.ordDone ≠ s.port.ordPost ∧ s.orderKind = kind

/-- The address of the slot the order unit takes (R174). -/
def State.slot (s : State) : Nat := slotAddr s.port.ordDone

/-- The order was answered: result and answer stand in its slot, the done count has advanced, ORDER is set (R174). -/
def Answered (s t : State) (r : Result) (answer : List (Nat × Nat)) : Prop :=
  t.port = { s.port with ordDone := s.port.ordDone + 1 } ∧ t.pending = s.pending ∧ t.floor.flag .order = true ∧
    (t.floor.store.read (s.slot + 1)).toNat = r.code ∧ t.floor.store.readLE (s.slot + 24) 8 = layoutNumber answer

/-- An order left alone the mode, the report writer, every flag but ORDER, every station outside `stations`, and every byte
of the store but the slot's result and answer and the addresses `stored`. -/
def OrderKeeps (stations : StationId → Prop) (stored : Nat → Prop) (s t : State) : Prop :=
  t.mode = s.mode ∧ t.floor.irqFlag = s.floor.irqFlag ||| IrqFlag.order.mask ∧ t.floor.waitQueue = s.floor.waitQueue ∧
    t.floor.dropped = s.floor.dropped ∧ t.floor.rptWr = s.floor.rptWr ∧
    (∀ j, ¬ stations j → t.floor.station j = s.floor.station j) ∧
    KeepsBytes (fun a => inAnswer s.port.ordDone a ∨ (∃ j, stations j ∧ inRecord j a) ∨ stored a) s.floor t.floor

/-- Order command `c` is answered with `r` and `answer`, and nothing else changes. -/
def RefusedWith (c : Instr) (s : State) (r : Result) (answer : List (Nat × Nat)) : Prop :=
  ∃ t, exec c s = .next t ∧ Answered s t r answer ∧ OrderKeeps (fun _ => False) (fun _ => False) s t

/-- Order command `c` is answered with `r` and `answer`, makes station `i` `y`, and changes nothing else. -/
def OrderChangesTo (c : Instr) (i : StationId) (s : State) (r : Result) (answer : List (Nat × Nat)) (y : Station) : Prop :=
  ∃ t, exec c s = .next t ∧ Answered s t r answer ∧ OrderKeeps (· = i) (fun _ => False) s t ∧
    t.floor.station i = finished s.mode (s.floor.station i) y

/-- Whether the report writer takes a STATION notice: the part runs, no report waits, and the room is there (R180). -/
abbrev noticeRoom (e : Mode) (f : Floor) : Prop :=
  e.runs = true ∧ f.waitQueue = [] ∧ roomNeeded f.rptWr 16 + 2048 ≤ freeRoom f.rptWr e.rptRd

/-- What the hand-over of a STATION notice did to the report writer and the flags, with the report itself (R180). -/
def NoticeHandedOn (e : Mode) (number : Nat) (event : NoticeEvent) (cause : OutCause) (session : BitVec 32) (f g : Floor) :
    Prop :=
  g.waitQueue = f.waitQueue ∧
    if noticeRoom e f then
      let p := reportPlace f.rptWr 16
      ReportHeaderAt g.store p 16 .station number e.partTime ∧ (g.store.read (p + 8)).toNat = event.code ∧
        (g.store.read (p + 9)).toNat = cause.code ∧ (g.store.read (p + 10)).toNat = bit f.dropped ∧
        g.store.readLE (p + 12) 4 = session.toNat ∧ g.dropped = false ∧ g.rptWr = offsetAfter f.rptWr 16 ∧
        g.irqFlag = f.irqFlag ||| IrqFlag.report.mask
    else g.dropped = (f.dropped || e.runs) ∧ g.rptWr = f.rptWr ∧ g.irqFlag = f.irqFlag

/-- A STATION notice was handed on, and nothing else happened to the store's cells (R180). -/
def NoticeHandled (e : Mode) (number : Nat) (event : NoticeEvent) (cause : OutCause) (session : BitVec 32) (f g : Floor) : Prop :=
  NoticeHandedOn e number event cause session f g ∧
    if noticeRoom e f then ∀ a, ¬ inReport f.rptWr 16 a → g.store.read a = f.store.read a else g.store = f.store

/-- The kind byte of each order command; BAD KIND and every other command have none (11.9). -/
def orderCode : Instr → Option Nat
  | .accountOpen => some 1
  | .accountCredit => some 2
  | .accountDebit => some 3
  | .accountLimit => some 4
  | .accountFreeze => some 5
  | .accountThaw => some 6
  | .accountClose => some 7
  | .periodClose => some 8
  | .cardPut => some 9
  | .cardDrop => some 10
  | .authAnswer => some 11
  | .priceSwitch => some 12
  | .stationOut => some 13
  | .stationIn => some 14
  | .jamAck => some 15
  | .sessionEnd => some 16
  | _ => none

/-- What an account order that is carried out does to the account it names, apart from holds: ACCOUNT OPEN makes a FREE account
as its parameters say (R138), CREDIT and DEBIT move the balance within the signed 32-bit range and judge OVERDRAWN (R139, R140),
LIMIT replaces the limit of a CREDIT account and judges OVERDRAWN again (R141), FREEZE and THAW change the state (R142). No
re-evaluation pass that follows changes these fields (R146). -/
def accountChanged (kind : Nat) (m : Memory) (slot : Nat) (a : Account) : Account :=
  let amount := m.param slot 4 4
  let up := BitVec.ofInt 32 (min 2147483647 (a.balance.toInt + amount))
  let down := BitVec.ofInt 32 (max (-2147483648) (a.balance.toInt - amount))
  if kind = 1 then
    let b : Account :=
      { state := 1, kind := BitVec.ofNat 8 (m.param slot 2 1), tier := m.param slot 3 1 != 0, overdrawn := false, holders := 0
        editCount := a.editCount, balance := BitVec.ofNat 32 (m.param slot 8 4)
        limit := if m.param slot 2 1 = 2 then BitVec.ofNat 32 amount else 0
        held := 0, inFlight := 0, delivered := 0, money := 0, faces := .replicate 8 0 }
    { b with overdrawn := b.belowFloor }
  else if kind = 2 then { a with balance := up, overdrawn := a.overdrawn && { a with balance := up }.belowFloor }
  else if kind = 3 then { a with balance := down, overdrawn := a.overdrawn || { a with balance := down }.belowFloor }
  else if kind = 4 then
    { a with limit := BitVec.ofNat 32 amount, overdrawn := { a with limit := BitVec.ofNat 32 amount }.belowFloor }
  else if kind = 5 then { a with state := 2 }
  else { a with state := 1 }

/-- Whether an account order of kinds 1 to 6 passes every test of R137 to R142 on its account. -/
def accountOrderPasses (kind : Nat) (s : State) (n : Nat) (a : Account) : Prop :=
  let amount := s.floor.store.param s.slot 4 4
  n < 1024 ∧ a.codesValid = true ∧
    ((kind = 1 ∧ n ≠ 0 ∧ openParams s.floor.store s.slot = true ∧ a.isFree = true) ∨
      ((kind = 2 ∨ kind = 3) ∧ 1 ≤ amount ∧ amount ≤ 2147483647 ∧ a.isFree = false) ∨
      (kind = 4 ∧ amount ≤ 2147483647 ∧ a.isFree = false ∧ a.isCredit = true) ∨
      (kind = 5 ∧ (s.mode.run = .running ∨ s.mode.run = .stopping) ∧ n ≠ 0 ∧ a.isOpen = true) ∨
      (kind = 6 ∧ (s.mode.run = .running ∨ s.mode.run = .stopping) ∧ n ≠ 0 ∧ a.isFrozen = true))

/-- The number of the first test of R65 that an entry fails, 0 when it passes all five. -/
def cardTestFailed (d : DirEntry) : Nat :=
  let slotOk := fun n : Nat => n < 1024 ∨ n = 65535
  let same := fun a b : Nat => a = b ∧ a ≠ 65535
  let c := d.chain
  if d.number = 0 ∨ 9999999999999999 < d.number then 1
  else if d.state ≠ 1 ∧ d.state ≠ 2 then 2
  else if d.role ≠ 1 ∧ d.role ≠ 2 then 3
  else if ¬ (slotOk c.first ∧ slotOk c.second ∧ slotOk c.third) then 4
  else if same c.first c.second ∨ same c.first c.third ∨ same c.second c.third then 5
  else 0

/-! ### Sheets -/

/-- The levels of the next sample of a station's lines: the first that is listed, and else those of the latest one (R1; log 5). -/
def LineUnit.comingSample (l : LineUnit) : LineSample :=
  match l.samples with
  | [] => { feed := l.feedHigh, exit := l.exitHigh, fault := l.faultHigh }
  | p :: _ => p

/-- BUSY sampled at an electrical level (R51, R57): an active sample is a pause, and in UP starts the BUSY run where none runs; an
inactive one ends the run, and a frame paused between its bytes resumes with the next byte. -/
def Station.busySampled (now : Time) (high : Bool) (x : Station) : LinkUnit :=
  let l := x.link
  if high = x.copy.activeHigh 7 then
    { l with
      busyHigh := high, busy := true
      busyStart := if l.up = true ∧ l.busyStart = none then some now else l.busyStart }
  else
    { l with
      busyHigh := high, busy := false, busyStart := none
      character :=
        match l.character, l.sending with
        | none, some t => (t.bytes[t.next]?).map (characterBits x.copy)
        | c, _ => c }

/-- A link unit whose station takes up the working copy `new` in place of `old` (R41). A change of rate, parity or stop bits returns
the assembler to HUNT, abandons the frames to be sent and takes a link that is UP down (R52). Else, where the accepted media change
with the link UP, readers agreed anew that differ from those held are agreed, and a WELCOME is offered. Else nothing happens. -/
def LinkUnit.serialTaken (old new : WorkingCopy) (l : LinkUnit) : LinkUnit :=
  let sameFormat := old.rate = new.rate ∧ old.parity = new.parity ∧ old.stopBits = new.stopBits
  let sameMedia := old.acceptShop = new.acceptShop ∧ old.acceptBank = new.acceptBank
  let shop := l.offered.shop && new.acceptShop
  let bank := l.offered.bank && new.acceptBank
  let agreed := { l.agreed with shop := shop, bank := bank }
  if ¬ sameFormat then
    let stopped := { l with assembler := .hunt, queue := [], sending := none }
    if l.up then { stopped with up := false, losses := min (l.losses + 1) 255, agreed := .none, busyStart := none } else stopped
  else if ¬ sameMedia ∧ l.up = true ∧ (shop ≠ l.agreed.shop ∨ bank ≠ l.agreed.bank) then
    { l with agreed := agreed }.offer (.welcome agreed)
  else l

/-- A change of FEED to `active` is due (R1): the filtered level is the other one, the latest sample shows `active`, and every
sample of the debounce time has differed. -/
def FeedDue (active : Bool) (x : Station) : Prop :=
  x.line.feed = !active ∧ x.copy.isActive 0 x.line.feedHigh = active ∧ x.copy.debounce ≤ x.line.feedCount

/-- A change of EXIT to `active` is due (R1). -/
def ExitDue (active : Bool) (x : Station) : Prop :=
  x.line.exit = !active ∧ x.copy.isActive 1 x.line.exitHigh = active ∧ x.copy.debounce ≤ x.line.exitCount

/-- A change of FAULT to `active` is due (R1). -/
def FaultDue (active : Bool) (x : Station) : Prop :=
  x.line.fault = !active ∧ x.copy.isActive 2 x.line.faultHigh = active ∧ x.copy.debounce ≤ x.line.faultCount

/-- The sheet a FEED makes at a station: its class from the three CLASS levels (R3), the price and target as given, and the
part time. -/
def fedSheet (e : Mode) (x : Station) (size colour sides : Bool) (price : Nat) (target : ChargeTarget) : Sheet :=
  { cls := readClass x.copy size colour sides, price := price, target := target, feedTime := e.partTime }

/-- A station after a FEED taken in service, but for what the charge changes: the FEED level and the lifetime count (R1, R4), the
drain start (R14), the class-fault count (R32), the sheet at the end of the path (R8), and in RECOVERY the recovery start
(R127). -/
def Station.fedInto (e : Mode) (m : Memory) (s : Sheet) (x : Station) : Station :=
  { x with
    line := { x.line with
      feed := true, feedCount := 0, lifetimeFeed := min (x.line.lifetimeFeed + 1) 4294967295
      drainStart := e.partTime, inPath := x.line.inPath ++ [s]
      classFaults :=
        if m.sold e.page s.cls = true ∧ x.copy.allows s.cls = true then x.line.classFaults
        else min (x.line.classFaults + 1) 65535 }
    jam := { x.jam with recoveryStart := if x.state = .recovery then e.partTime else x.jam.recoveryStart } }

/-- A line unit after an EXIT event: the EXIT level and the lifetime count (R1, R4). -/
def Station.exited (x : Station) : LineUnit :=
  { x.line with
    exit := true, exitCount := 0, lifetimeExit := min (x.line.lifetimeExit + 1) 4294967295 }

/-- A line unit after a matched exit (R13). -/
def LineUnit.paced (now : Time) (l : LineUnit) : LineUnit :=
  { l with
    lastExit := now
    matched := if l.matched = .zero then .one else .more
    pace := if l.matched = .zero then l.pace else min (elapsed now l.lastExit) 65535 }

/-- What an in-path delivery does in RECOVERY: it is counted, and the third ends the recovery (R127). -/
def Station.recoveryCounted (x : Station) : Station :=
  if x.state = .recovery then
    if 3 ≤ x.jam.deliveries + 1 then
      { x with state := .opened, jam := { x.jam with deliveries := x.jam.deliveries + 1, lost := [] } }
    else { x with jam := { x.jam with deliveries := x.jam.deliveries + 1 } }
  else x

/-! ### Reports of more than one account or producer -/

/-- The write offset after `count` reports of one length (R176). -/
def batchOffset (wr len : Nat) : Nat → Nat
  | 0 => wr
  | count + 1 => offsetAfter (batchOffset wr len count) len

/-- The PERIOD report of account `n` stands at address `p`, with its batch position and size (R162, 11.2). -/
def PeriodReportAt (m : Memory) (p n position size : Nat) (a : Account) (now : Time) : Prop :=
  ReportHeaderAt m p 64 .period 0 now ∧ m.readLE (p + 8) 2 = n ∧ m.readLE (p + 12) 2 = position ∧
    m.readLE (p + 14) 2 = size ∧ m.readLE (p + 16) 4 = a.balance.toNat ∧ m.readLE (p + 20) 4 = a.money.toNat ∧
    m.readLE (p + 24) 4 = a.delivered.toNat ∧ m.readLE (p + 28) 4 = a.inFlight.toNat ∧
    ∀ k : Fin 8, m.readLE (p + 32 + 4 * k.val) 4 = a.faces[k].toNat

/-- The write offset after reports of the given lengths (R176). -/
def offsetAfterAll (wr : Nat) (lengths : List Nat) : Nat := lengths.foldl offsetAfter wr

/-- Whether reports of the given lengths fit one after the other (R176, R178). -/
def fitInTurn (room wr : Nat) : List Nat → Prop
  | [] => True
  | len :: rest => roomNeeded wr len ≤ room ∧ fitInTurn (room - roomNeeded wr len) (offsetAfter wr len) rest

/-- The kind and station byte of the report a producer waits with (R178, 11.2). -/
def Producer.header : Producer → ReportKind × Nat
  | .session i => (.settlement, i.val + 1)
  | .stray i => (.settlement, i.val + 1)
  | .auth i => (.authWanted, i.val + 1)
  | .jam i => (.jam, i.val + 1)
  | .close _ => (.accountClosed, 0)

/-- Whether a producer waits with its report and goes on without producing another when it is written (R178): not a session's
settlement, and no request is DEFERRED behind the report. -/
def Producer.waitsAlone (f : Floor) : Producer → Bool
  | .session _ => false
  | .stray i => (f.station i).line.closed.waiting
  | .auth i => (f.station i).auth.slot.isSome && (f.station i).auth.state != .deferred
  | .jam i => (f.station i).jam.pendingReport.isSome
  | .close n => decide (n < 1024)

/-! ### Settlements and stray tallies -/

/-- An account after the application of a block (R155, R156, R158): the balance falls by `units`, OVERDRAWN is set below the
floor, the period money rises, and the edit count has been odd (log 14). -/
def Account.charged (units : Nat) (a : Account) : Account :=
  let b := { a with balance := BitVec.ofInt 32 (max (-2147483648) (a.balance.toInt - units)) }
  { b with
    overdrawn := a.overdrawn || b.belowFloor, money := BitVec.ofNat 32 (min (a.money.toNat + units) 4294967295)
    editCount := bracket a.editCount }

/-- Account `n` after the settlement of a session with the given funding list (R156). -/
def settledBy (funding : List FundingEntry) (n : Nat) (a : Account) : Account :=
  funding.foldl
    (fun a en =>
      if (en.kind = .account ∨ en.kind = .house) ∧ en.account = n then
        { a.charged ((en.committed + 500) / 1000) with
          held := a.held - BitVec.ofNat 32 en.hold, holders := a.holders - 1 }
      else a) a

/-- The account a stray settlement is charged to (R153). -/
def houseOrZero (m : Memory) (house : Nat) : Nat := if (m.account house).isFree = true then 0 else house

/-- The sum of two tallies, each field saturating (R18, R19). -/
def Tally.plus (a b : Tally) : Tally :=
  { fed := min (a.fed + b.fed) 65535, delivered := min (a.delivered + b.delivered) 65535, lost := min (a.lost + b.lost) 65535
    price := min (a.price + b.price) 281474976710655 }

/-- What the closing of station `i`'s live tally, standing at `live`, has left of the tallies, the wait queue and the account
charged (R19, R153, R158, R178): nothing happens to an empty tally; one is added into a closed tally that waits; else its
settlement is written with room, or waits. The report stands at the write offset of `f`. That a tally which only the host has marked
waiting is added to in the same way, and no report made of it, is the model's choice (log 54). -/
def TallyClosed (e : Mode) (i : StationId) (cause : EndCause) (live : Tally) (f g : Floor) : Prop :=
  let x := f.station i
  let y := g.station i
  let room := f.waitQueue = [] ∧ roomNeeded f.rptWr 96 ≤ freeRoom f.rptWr e.rptRd
  let n := houseOrZero f.store x.copy.house
  let a := (f.store.account n).charged ((live.price + 500) / 1000)
  let b := g.store.account n
  if live.fed = 0 then y.line.live = live ∧ y.line.closed = x.line.closed ∧ g.waitQueue = f.waitQueue
  else
    y.line.live = .zero ∧
      if x.line.closed.waiting = true then
        y.line.closed = { x.line.closed with tally := x.line.closed.tally.plus live, time := e.partTime, cause := cause } ∧
          g.waitQueue = f.waitQueue
      else if room then
        y.line.closed = .zero ∧ g.waitQueue = [] ∧ g.flag .report = true ∧
          ReportHeaderAt g.store (reportPlace f.rptWr 96) 96 .settlement (i.val + 1) e.partTime ∧
          (n < 1024 → b.balance = a.balance ∧ b.money = a.money ∧ b.overdrawn = a.overdrawn)
      else
        y.line.closed = { tally := live, house := x.copy.house, waiting := true, time := e.partTime, cause := cause } ∧
          g.waitQueue = f.waitQueue ++ [.stray i]

/-- What closing station `i`'s live tally for `cause` has made of the floor `f`, and that nothing else happened: the station keeps all
but its two tallies, and the store changes in the place of the report and in the accounts alone (R19, R153, R158, R178). -/
def ClosesTally (e : Mode) (i : StationId) (cause : EndCause) (f g : Floor) : Prop :=
  let x := f.station i
  let line := (g.station i).line
  let written := x.line.live.fed ≠ 0 ∧ x.line.closed.waiting = false ∧ f.waitQueue = [] ∧
    roomNeeded f.rptWr 96 ≤ freeRoom f.rptWr e.rptRd
  TallyClosed e i cause x.line.live f g ∧
    g = { f with
      store := g.store, waitQueue := g.waitQueue, rptWr := if written then offsetAfter f.rptWr 96 else f.rptWr
      irqFlag := if written then f.irqFlag ||| IrqFlag.report.mask else f.irqFlag
      stations := f.stations.set i { x with line := { x.line with live := line.live, closed := line.closed } } } ∧
    ∀ p, ¬ (written ∧ (inReport f.rptWr 96 p ∨ inAccounts p)) → g.store.read p = f.store.read p

/-- What entering OUT has left of a floor on which station `i` comes from IDLE or a funding wait (R98): the strays of the path are
lost and the tally is closed (R19, R20; log 37), a next card is answered OUT OF SERVICE (R75), OUT OF SERVICE is shown, and a
STATION notice has been handed on (R180). -/
def WentOut (e : Mode) (i : StationId) (cause : OutCause) (f g : Floor) : Prop :=
  let x := f.station i
  let y := g.station i
  let live := { x.line.live with lost := min (x.line.live.lost + x.line.inPath.length) 65535 }
  let link := if x.nextCard.isSome then (x.refusal .outOfService 0 0).link else x.link
  let room := f.waitQueue = [] ∧ roomNeeded f.rptWr 96 ≤ freeRoom f.rptWr e.rptRd
  let wr := if live.fed ≠ 0 ∧ x.line.closed.waiting = false ∧ room then offsetAfter f.rptWr 96 else f.rptWr
  TallyClosed e i .out live f g ∧ KeepsOthers i f g ∧
    (g.dropped = true ∨ ReportHeaderAt g.store (reportPlace wr 16) 16 .station (i.val + 1) e.partTime) ∧
    (∀ p, ¬ inStream p → ¬ inAccounts p → g.store.read p = f.store.read p) ∧
    y = { x with
      state := .out, outCause := cause, outPending := .none, nextCard := none
      line := { x.line with inPath := [], live := y.line.live, closed := y.line.closed }
      link := link.offer (showOn 1 .outOfService 0 0) }

/-- What reaching IDLE has left of a floor (R91, R95): in STOPPING station `i`'s live tally has been closed for the stop (R19), and a
card in the next-card slot has been taken and judged as a card at an IDLE station (R76), which in STOPPING refuses it (R69). -/
def BecameIdle (e : Mode) (i : StationId) (f g : Floor) : Prop :=
  let idle := f.onStation i fun x => { x with state := .idle }
  let d := if e.run = .stopping then closeStray e i .stop idle else idle
  (e.run = .stopping → ClosesTally e i .stop idle d) ∧
    match (f.station i).nextCard with
    | none => g = d
    | some card =>
      let taken := d.onStation i fun x => { x with nextCard := none }
      if e.run = .stopping then g = taken.onStation i (Station.refusal .outOfService 0 0) else g = judgeCard e i card taken

/-! ### Strays and jams -/

/-- The sheet of a stray FEED: its class from the three CLASS levels (R3) and its price at rate 0 (R27), or the fallback for a class
not sold (R32). -/
def straySheet (e : Mode) (m : Memory) (x : Station) (size colour sides : Bool) : Sheet :=
  let k := readClass x.copy size colour sides
  fedSheet e x size colour sides (if m.sold e.page k = true then m.basePrice e.page k else x.copy.fallback) .stray

/-- What the charge of a stray fed at station `i` has made of the floor, before the sheet is placed (R7, R18): the live tally counts
and prices it, and is closed with cause COUNT when its fed count reaches 1,000 (R19; log 38 for a tally found at 1,000 or more). -/
def StrayCharged (i : StationId) (sheet : Sheet) (s : State) (d : Floor) : Prop :=
  let x := s.floor.station i
  let noted := x.fedInto s.mode s.floor.store sheet
  let tally := { x.line.live with
    fed := min (x.line.live.fed + 1) 65535, price := min (x.line.live.price + sheet.price) 281474976710655 }
  let f := s.floor.onStation i fun _ => { noted with line := { noted.line with inPath := x.line.inPath, live := tally } }
  if 1000 ≤ tally.fed then ClosesTally s.mode i .count f d else d = f

/-- What declaring a jam has made of the floor `f` (R116 to R120). The lost sheets are those of the path with `extra`, the sheet that
overfilled it; the oldest of the session's are credited up to the credit cap and the rest charged (R117), and every one leaves the
in-flight faces of the account its entry names. A funding wait is given up (R116). The JAM report is written with room and else
waits (R119, R178); the jam record is filled, or its overflow counted (R120). -/
def JamDeclared (e : Mode) (i : StationId) (cause : JamCause) (extra : List Sheet) (f g : Floor) : Prop :=
  let x := f.station i
  let y := g.station i
  let sheets := x.line.inPath ++ extra
  let strays := sheets.countP fun p => p.target == .stray
  let charged := sheets.countP fun p => p.target != .stray
  let credited := min charged (x.copy.creditCap - if x.state = .funding then 0 else x.context.lostCredited)
  let live := x.state ≠ .funding ∧ (x.context.condition = .live ∨ x.context.condition = .ending)
  let len := 24 + 8 * sheets.length
  let room := f.waitQueue = [] ∧ roomNeeded f.rptWr len ≤ freeRoom f.rptWr e.rptRd
  let report : JamReport :=
    { cause := cause, declared := e.partTime, stateAt := x.state, number := if live then x.context.number else 0
      jams := if live then min (x.context.jams + 1) 255 else 0, sheets := y.jam.lost }
  g = { f with
    store := g.store, stations := f.stations.set i y, waitQueue := if room then [] else f.waitQueue ++ [.jam i]
    rptWr := if room then offsetAfter f.rptWr len else f.rptWr
    irqFlag := if room then f.irqFlag ||| IrqFlag.report.mask else f.irqFlag } ∧
  y = { x with
    state := .jammed, lowStart := none, graceStart := if x.state = .funding then none else x.graceStart
    context := y.context, auth := y.auth
    line := { x.line with
      inPath := []
      live := { x.line.live with lost := if strays = 0 then x.line.live.lost else min (x.line.live.lost + strays) 65535 } }
    link := (if x.state = .funding then x.link.offer .eject else x.link).offer (showOn 1 .jam sheets.length credited)
    jam := { x.jam with
      lost := y.jam.lost, cause := cause, declared := e.partTime, settleStart := e.partTime, deliveries := 0
      recoveryStart := y.jam.recoveryStart, pendingReport := if room then none else some report
      record := match x.jam.record with
        | none => some (report, 0)
        | some (held, overflow) => some (held, min (overflow + 1) 255) } } ∧
  y.jam.lost.map LostSheet.sheet = sheets ∧ (∀ l ∈ y.jam.lost, l.fate = .stray ↔ l.sheet.target = .stray) ∧
  (y.jam.lost.map LostSheet.fate).filter (· != .stray) =
    List.replicate credited .credited ++ List.replicate (charged - credited) .charged ∧
  (if x.state = .funding then y.context.condition = .empty ∧ y.auth.state = .none ∧ y.auth.lastId = x.auth.lastId ∧
      y.auth.slot = x.auth.slot ∧ ∀ n, g.store.account n = f.store.account n
    else y.auth = x.auth ∧
      y.context = { x.context with
        funding := y.context.funding, lostCredited := x.context.lostCredited + credited
        lostCharged := x.context.lostCharged + (charged - credited)
        jams := if live then x.context.jams + 1 else x.context.jams } ∧
      y.context.funding.length = x.context.funding.length ∧
      (∀ (k : Fin 3) (en : FundingEntry), x.context.funding[k.val]? = some en →
        y.context.funding[k.val]? = some { en with
          committed := en.committed -
            ((y.jam.lost.filter fun l => l.fate == .credited && l.sheet.target == .entry k).map fun l => l.sheet.price).sum }) ∧
      ∀ n, n < 1024 → let a := f.store.account n
        let b := g.store.account n
        b = { a with inFlight := b.inFlight, editCount := b.editCount } ∧ b.inFlight.toNat = a.inFlight.toNat -
          ((sheets.filter fun p => x.context.accountOf p == some n).map fun p => facesOf p.cls).sum) ∧
  (room → ReportHeaderAt g.store (reportPlace f.rptWr len) len .jam (i.val + 1) e.partTime) ∧
  ∀ p, ¬ inAccounts p → ¬ (room ∧ inReport f.rptWr len p) → g.store.read p = f.store.read p

/-! ### The settlement of a session -/

/-- The ACCOUNT CLOSED report of account `n`, whose record stood at `a`, stands at address `p` (R144, 11.2). -/
def ClosedReportAt (m : Memory) (p n : Nat) (a : Account) (now : Time) : Prop :=
  ReportHeaderAt m p 64 .accountClosed 0 now ∧ m.readLE (p + 8) 2 = n ∧ m.readLE (p + 12) 4 = a.balance.toNat

/-- What the writing of station `i`'s session settlement and its application have made of a floor, before the session is finished
(R155 to R157 step 2): the report stands in the stream, every account that the funding list names is settled, and each CLOSING
account so left without holders is closed in the order of the list (log 48), its report behind the settlement; those whose report
has no room wait. The accounts `freed` are those closed, `waiting` those that wait. -/
def SettlementApplied (e : Mode) (i : StationId) (freed waiting : List Nat) (f a : Floor) : Prop :=
  let x := f.station i
  let c := x.context
  let len := 8 + layoutSize (sessionBody c)
  let wr := offsetAfter f.rptWr len
  let after := fun n => settledBy c.funding n (f.store.account n)
  let named := (c.funding.filter fun en => en.kind == .account || en.kind == .house).map FundingEntry.account
  let places := fun l : List Nat => offsetAfterAll wr (l.map fun _ => 64)
  let fit := fun l : List Nat => fitInTurn (freeRoom wr e.rptRd) wr (l.map fun _ => 64)
  (named.filter fun n => (f.store.account n).isClosing && (after n).holders == 0) = freed ++ waiting ∧
    (freed ≠ [] → f.waitQueue = [] ∧ fit freed) ∧
    (∀ n rest, waiting = n :: rest → f.waitQueue = [] → ¬ fit (freed ++ [n])) ∧
    a = { f with
      store := a.store, stations := f.stations.set i { x with context := .empty, graceStart := none }
      waitQueue := f.waitQueue ++ waiting.map Producer.close, rptWr := places freed, irqFlag := f.irqFlag ||| 2 } ∧
    ReportHeaderAt a.store (reportPlace f.rptWr len) len .settlement (i.val + 1) e.partTime ∧
    a.store.readLE (reportPlace f.rptWr len + 8) 4 = c.number.toNat ∧
    (∀ before n rest, freed = before ++ n :: rest →
      ClosedReportAt a.store (reportPlace (places before) 64) n (after n) e.partTime ∧
        let b := a.store.account n
        b = { state := 0, kind := 0, tier := false, overdrawn := false, holders := 0, editCount := b.editCount, balance := 0
              limit := 0, held := 0, inFlight := 0, delivered := 0, money := 0, faces := .replicate 8 0 }) ∧
    (∀ n, n < 1024 → n ∉ freed → a.store.account n = after n) ∧
    ∀ p, ¬ inStream p → (∀ n ∈ named, ¬ inAccount n p) → a.store.read p = f.store.read p

/-- What the writing of station `i`'s session settlement leaves (R155 to R157, R91). After the application the re-evaluation pass
is made over the accounts whose available amount rose and that are not FREE (R146, R147); then a JAMMED station stays as it is,
an out-pending station goes OUT, and any other is IDLE: in STOPPING its tally is closed for the stop (R19), and a next card is
judged as a card at an IDLE station (R76), which in STOPPING refuses it. -/
def SessionSettled (e : Mode) (i : StationId) (f g : Floor) : Prop :=
  let x := f.station i
  let after := fun n => settledBy x.context.funding n (f.store.account n)
  let named := (x.context.funding.filter fun en => en.kind == .account || en.kind == .house).map FundingEntry.account
  ∃ (freed waiting : List Nat) (a : Floor), SettlementApplied e i freed waiting f a ∧
    let gained := named.filter fun n =>
      decide ((f.store.account n).available < (after n).available) && !(a.store.account n).isFree
    let b := reevaluate e gained a
    if x.state = .jammed then g = b
    else if x.outPending ≠ .none then WentOut e i x.outPending b g
    else (b.station i).line = x.line ∧ (b.station i).nextCard = x.nextCard ∧ BecameIdle e i b g

/-- The outcome of a command whose work has made the floor `g`: the mode, the port and the queue are kept, and every station has
ended the step. -/
def EndsWith (c : Instr) (s : State) (g : Floor) : Prop :=
  ∃ t, exec c s = .next t ∧ KeepsOutside s t ∧ t.floor = { g with stations := t.floor.stations } ∧
    ∀ j, t.floor.station j = finished s.mode (s.floor.station j) (g.station j)

/-! ### Laws L1, L2, L3, L5, L7, L11 and L12 between commands -/

/-- Whether a context's funding entries are live (R135): from a session's opening until its settlement is applied. -/
def Context.holdsFunds (c : Context) : Bool := c.condition == .live || c.condition == .ending || c.condition == .settling

/-- The live funding entries that name account `n` (R135). -/
def liveEntries (f : Floor) (n : Nat) : List FundingEntry :=
  stationIds.flatMap fun i =>
    let c := (f.station i).context
    if c.holdsFunds then c.funding.filter fun en => en.namesAccount && en.account == n else []

/-- The faces in the paths of sheets whose funding entry names account `n` (R136). -/
def facesInPaths (f : Floor) (n : Nat) : Nat :=
  (stationIds.map fun i =>
    let x := f.station i
    ((x.line.inPath.filter fun p => x.context.accountOf p == some n).map fun p => facesOf p.cls).sum).sum

/-- Laws L1 and L2 (R135, R136), with what they rest on: while the part is RUNNING or STOPPING every account's held amount and
holders are those of the live entries that name it, its in-flight faces those in the paths; an account that is FREE is named by
none; a CREDIT account's limit is at most 2,147,483,647; and account 0 is OPEN. -/
def AccountLaw (s : State) : Prop :=
  s.mode.runs = true → (s.floor.store.account 0).isOpen = true ∧ ∀ n, n < 1024 →
    let a := s.floor.store.account n
    let named := liveEntries s.floor n
    a.held.toNat = (named.map FundingEntry.hold).sum ∧ a.holders.toNat = named.length ∧
      a.inFlight.toNat = facesInPaths s.floor n ∧ (a.isFree = true → named = []) ∧
      (a.isCredit = true → a.isFree = false → a.limit.toNat ≤ 2147483647)

/-- Law L3 (R80): the sheets fed into a live session are those delivered, in the path, lost and credited, and lost and charged. -/
def CountLaw (x : Station) : Prop :=
  x.context.condition = .live ∨ x.context.condition = .ending →
    x.context.fed = x.context.delivered.toList.sum + (x.line.inPath.countP fun p => p.target != .stray) +
      x.context.lostCredited + x.context.lostCharged

/-- Law L5 and what lists of sheets name (R6, R80, R114): the path holds at most the path depth, the house account is one of the
table; a sheet that is no stray names a
funding entry of the live session; and the lost list agrees with the session's lost counts. -/
def SheetLaw (x : Station) : Prop :=
  let names := fun p : Sheet => ∀ k : Fin 3, p.target = .entry k → x.context.hasLiveSession = true ∧ k.val < x.context.funding.length
  x.line.inPath.length ≤ x.copy.pathDepth ∧ x.copy.pathDepth ≤ 8 ∧ x.copy.house < 1024 ∧ x.jam.lost.length ≤ 9 ∧
    (∀ p ∈ x.line.inPath, names p) ∧ (∀ l ∈ x.jam.lost, names l.sheet ∧ (l.fate = .stray ↔ l.sheet.target = .stray)) ∧
    (x.jam.lost.countP fun l => l.fate == .credited) ≤ x.context.lostCredited ∧
    (x.jam.lost.countP fun l => l.fate == .charged) ≤ x.context.lostCharged

/-- Law L7 (R79): at most 3 funding entries, in the order of the card's chain, no account named twice, and 1 at least in a session.
An entry of kind ACCOUNT names the account of its chain slot, and every account named is one of the table. -/
def FundsLaw (c : Context) : Prop :=
  c.funding.length ≤ 3 ∧ ((c.funding.filter FundingEntry.namesAccount).map FundingEntry.account).Nodup ∧
    (c.holdsFunds = true → c.funding ≠ []) ∧
    (c.funding.map FundingEntry.slot).Pairwise (· < ·) ∧
    (∀ en ∈ c.funding, (en.kind = .account → (en.slot, en.account) ∈ c.chain.slots) ∧
      (en.namesAccount = true → en.account < 1024))

/-- Law L12 (R103, R112): a BANK entry holds at most 4 grants, and a request belongs to a funding wait, or as an increment to a
LIVE session whose last entry is of kind BANK with fewer than 4 grants. -/
def RequestLaw (x : Station) : Prop :=
  (∀ en ∈ x.context.funding, en.grants.length ≤ 4) ∧
    (x.auth.state = .none ∨ (x.auth.kind = .first ∧ x.context.condition = .funding) ∨
      (x.auth.kind = .increment ∧ x.context.condition = .live ∧
        (x.context.lastEntry.any fun en => en.kind == .bank && decide (en.grants.length < 4)) = true)) ∧
    (x.auth.state = .deferred → x.auth.slot.isSome = true)

/-- How a station's state, its context and its lists stand together (R77, R78, R75, R114): out of service it holds no work,
and a JAM report waits at a JAMMED station alone (R119, R122). -/
def StandingLaw (e : Mode) (x : Station) : Prop :=
  let c := x.context.condition
  (e.runs = false → (x.state = .idle ∨ x.state = .out) ∧ x.line.inPath = []) ∧
    (match x.state with
      | .idle => c = .empty ∨ c = .abandoned
      | .out => (c = .empty ∨ c = .abandoned) ∧ x.line.inPath = []
      | .funding => c = .funding
      | .opened | .low | .recovery => c = .live
      | .jammed => c ≠ .funding
      | .draining => c = .ending
      | .settling => c = .settling) ∧
    (x.nextCard.isSome = true → x.state = .draining ∨ x.state = .settling ∨ (x.state = .jammed ∧ c ≠ .live)) ∧
    (x.state ≠ .jammed → x.state ≠ .recovery → x.jam.lost = []) ∧ (x.jam.pendingReport.isSome = true → x.state = .jammed)

/-- Every station meets laws L3, L5, L7 and L12 and stands as its state says. -/
def StationLaw (s : State) : Prop :=
  ∀ i, let x := s.floor.station i
    StandingLaw s.mode x ∧ SheetLaw x ∧ CountLaw x ∧ FundsLaw x.context ∧ RequestLaw x

/-- Law L11 for the kept reports that wait (R178): each waits once, and a producer stands in the wait queue exactly while it has a
report that is produced and not written. -/
def WaitLaw (s : State) : Prop :=
  let q := s.floor.waitQueue
  q.Nodup ∧ (s.mode.runs = false → q = []) ∧
    (∀ i, let x := s.floor.station i
      (Producer.session i ∈ q ↔ x.context.condition = .settling) ∧ (Producer.stray i ∈ q ↔ x.line.closed.waiting = true) ∧
      (Producer.auth i ∈ q ↔ x.auth.slot.isSome = true) ∧ (Producer.jam i ∈ q ↔ x.jam.pendingReport.isSome = true)) ∧
    (∀ n, 1024 ≤ n → Producer.close n ∉ q) ∧
    (s.mode.runs = true → ∀ n, n < 1024 →
      (Producer.close n ∈ q ↔ (s.floor.store.account n).isClosing = true ∧ (s.floor.store.account n).holders = 0))

/-- The laws of stations, accounts and waiting reports, which rest on one another, with the places of the stream and the
directory that keep every write in its region. -/
def Books (s : State) : Prop := StationLaw s ∧ AccountLaw s ∧ WaitLaw s ∧ OffsetLaw s ∧ DirectoryLaw s

/-- Whether a command is a host write into a station record, which in STOPPED may load anything (R164). -/
def writesRecord : Instr → Bool
  | .storeWrite word _ => decide (Config.stationBase ≤ 2 * word.toNat) && decide (2 * word.toNat < Config.stationEnd)
  | _ => false

end Sys2Proof.Machine
end

