-- ==== Sys2Proof/Certificates/Slice0/Obligations.lean ====
section
/-! DEFINITION. The statements for the provers. Each says in its docstring which rules of the spec it formalises. -/

open Sys2Proof Sys2Proof.Machine

/-! ### The machine -/

/-- A step executes the command at the front of the queue with the rest of the queue, and idles on an empty queue (log 1). -/
def Obligations.StepRunsTheFrontCommand : Prop :=
  (∀ (c : Instr) (queue : List Instr) (s : State), step (s.withPending (c :: queue)) = exec c (s.withPending queue)) ∧
  ∀ s : State, step (s.withPending []) = .next (s.withPending [])

/-- Every command is completed, in every state, and leaves the queue of waiting commands alone: R163 completes every host
access, and every event of the other chapters has an outcome. That POWER_ON too leaves the queue as it is, is the model's choice
(log 30), and so is that an event whose conditions do not hold completes without an effect (log 3). -/
def Obligations.EveryCommandCompletes : Prop :=
  ∀ (c : Instr) (s : State), ∃ t, exec c s = .next t ∧ t.pending = s.pending

/-- The state right after reset meets every law that the steps keep. -/
def Obligations.ResetMeetsEveryLaw : Prop :=
  let s := State.reset
  EnableLaw s ∧ StoreLaw s ∧ OrdersLaw s ∧ OffsetLaw s ∧ PathLaw s ∧ FundingLaw s ∧ QueueLaw s ∧ DirectoryLaw s ∧
    EvenLaw s ∧ StationLaw s ∧ AccountLaw s ∧ WaitLaw s ∧ ClearingLaw s

/-- Law L4 is kept by every command: after a step each ENABLE is active exactly while its conditions hold, and its output stands at
the working copy's active level or at its inactive level accordingly (R16, R17). -/
def Obligations.EveryStepKeepsTheEnableLaw : Prop :=
  ∀ (c : Instr) (s t : State), EnableLaw s → exec c s = .next t → EnableLaw t

/-- The store stays in its canonical form (the model's own form, log 2). -/
def Obligations.EveryStepKeepsTheStoreForm : Prop :=
  ∀ (c : Instr) (s t : State), StoreLaw s → exec c s = .next t → StoreLaw t

/-- Law L10 for the orders (R173), and the places where the stream offsets may stand (R176), are kept by every command; so is it
that the report stream of a CLEARING part is empty (R172). -/
def Obligations.EveryStepKeepsOrdersAndOffsets : Prop :=
  (∀ (c : Instr) (s t : State), OrdersLaw s → OffsetLaw s → exec c s = .next t → OrdersLaw t ∧ OffsetLaw t) ∧
  ∀ (c : Instr) (s t : State), ClearingLaw s → exec c s = .next t → ClearingLaw t

/-- The greatest lengths of law L5's sheet lists (R6, R114) and of law L7's funding lists (R79) are kept by every command, host
writes into station records among them; the path depth itself and law L7's distinct accounts are in
EveryStepKeepsTheStationLaws. That a host write keeps them rests on the model's choice of what the part makes of the bytes a host
loads into a station record: a list longer than its field is cut at the field's length (log 12). -/
def Obligations.EveryStepKeepsPathAndFundingBounds : Prop :=
  ∀ (c : Instr) (s t : State), PathLaw s → FundingLaw s → exec c s = .next t → PathLaw t ∧ FundingLaw t

/-- Every transmit queue keeps at most 4 frames, with at most one WELCOME and one EJECT waiting (R54, R55). -/
def Obligations.EveryStepKeepsTheQueueBounds : Prop :=
  ∀ (c : Instr) (s t : State), QueueLaw s → exec c s = .next t → QueueLaw t

/-- Law L6 is kept by every command: while the part is RUNNING or STOPPING the card directory holds at most 2,048 entries,
strictly ascending by card number, none with card number 0 (R62, R66, R67, R168). While the part is RUNNING or
STOPPING no command leaves an account record with an odd edit count (R134). -/
def Obligations.EveryStepKeepsDirectoryAndEditCounts : Prop :=
  (∀ (c : Instr) (s t : State), DirectoryLaw s → OffsetLaw s → exec c s = .next t → DirectoryLaw t) ∧
  (∀ (c : Instr) (s t : State), EvenLaw s → DirectoryLaw s → OffsetLaw s → exec c s = .next t → EvenLaw t)

/-- Laws L3, L5, L7 and L12 are kept at every station (R6, R79, R80, R103, R112): the path within the path depth, the funding
entries in the order of the card's chain with no account named twice, every sheet fed into a live session counted once, one
request at most, and 4 grants at most; and every station stands as its state and its context's condition say (R77, R78). The host
may load anything into a station record in STOPPED (R164): its writes there are left out. -/
def Obligations.EveryStepKeepsTheStationLaws : Prop :=
  ∀ (c : Instr) (s t : State), Books s → writesRecord c = false → exec c s = .next t → StationLaw t

/-- Laws L1 and L2 are kept for every account while the part is RUNNING or STOPPING (R135, R136): held is the sum of the holds of
the live entries that name it, holders their number, and the in-flight faces are those in the paths. Host writes into station
records are left out (R164). -/
def Obligations.EveryStepKeepsTheAccountsBalanced : Prop :=
  ∀ (c : Instr) (s t : State), Books s → writesRecord c = false → exec c s = .next t → AccountLaw t

/-- Law L11 (R176, R178). The write offset never passes the read offset, and the bytes of the reports not read yet stand as they
were written, unless the host moves the read offset or writes into the stream of a stopped part, or a reset empties it; a part
that is CLEARING has none (R172). A kept report that is produced waits once in the wait queue until it is written, and its
producer with it; host writes into station records are left out (R164). -/
def Obligations.EveryStepKeepsTheReports : Prop :=
  (∀ (c : Instr) (s t : State), OffsetLaw s → ClearingLaw s → exec c s = .next t → c ≠ .powerOn → ¬ isRunctl true false c →
     t.mode.rptRd = s.mode.rptRd → (∀ w v, c = .storeWrite w v → ¬ inStream (2 * w.toNat)) →
     let unread := usedBytes s.floor.rptWr s.mode.rptRd
     unread ≤ usedBytes t.floor.rptWr t.mode.rptRd ∧
       ∀ k, k < unread → let a := 0x800 + (s.mode.rptRd + k) % 8192
         t.floor.readByte a = s.floor.readByte a) ∧
  (∀ (c : Instr) (s t : State), Books s → writesRecord c = false → exec c s = .next t → WaitLaw t)

/-- The run state changes only as R167, R168, R170, R171 and R172 say: to RUNNING by a run request in STOPPED whose start check
passes; to STOPPING by a stop request in RUNNING; to STOPPED by a soft reset, by the end of CLEARING or by the end of a
complete stop; to CLEARING by power-on. -/
def Obligations.RunStateMovesOnlySo : Prop :=
  ∀ (c : Instr) (s t : State), exec c s = .next t → t.mode.run ≠ s.mode.run →
    match t.mode.run with
    | .running => s.mode.run = .stopped ∧ isRunctl false true c ∧ startRefusal s.floor.store s.mode.page = none
    | .stopping => s.mode.run = .running ∧ isRunctl false false c
    | .stopped =>
      (s.mode.run ≠ .clearing ∧ isRunctl true false c) ∨ (s.mode.run = .clearing ∧ c = .clearingDone) ∨
        (s.mode.run = .stopping ∧ stopComplete s = true ∧ c = .stoppedEntry)
    | .clearing => c = .powerOn

/-- Part time moves by the tick alone (R165), the active page by PRICE SWITCH alone (R38), and a station's lifetime counts by
its own FEED and EXIT events alone (R4); power-on sets all of them (R172), and in STOPPED a host write may load the counts with
a station record (R164). -/
def Obligations.WhatOnlyItsOwnCommandMoves : Prop :=
  ∀ (c : Instr) (s t : State), exec c s = .next t → c ≠ .powerOn →
    (c ≠ .partTimeTick → t.mode.partTime = s.mode.partTime) ∧
    (c ≠ .priceSwitch → t.mode.page = s.mode.page) ∧
    ∀ i : StationId,
      ((∀ p q r, c ≠ .feedEvent i p q r) → (∀ a v, c ≠ .storeWrite a v) →
        (t.floor.station i).line.lifetimeFeed = (s.floor.station i).line.lifetimeFeed) ∧
      (c ≠ .exitEvent i → (∀ a v, c ≠ .storeWrite a v) →
        (t.floor.station i).line.lifetimeExit = (s.floor.station i).line.lifetimeExit)

/-! ### The local bus port -/

/-- A write of ORDPOST is judged on two numbers, modulo 65,536 (R173): how far the written value and how far the present posted count
stand ahead of the done count, as it stands when the write is taken. It is accepted when the first is at most 64 and not less than
the second, and the posted count then becomes the written value; any other write is discarded and sets OVERRUN, one that would move
the posted count backwards among them. A write of the present posted count is accepted and changes nothing. Law L10: every command
keeps the posted count at most 64 ahead of the done count, which therefore never passes it. In CLEARING the write has no effect
(RequestsWithoutEffect). -/
def Obligations.OrdpostWritesAreJudged : Prop :=
  (∀ (v : Half) (s : State), s.mode.run ≠ .clearing →
     let after := (v.toNat + 65536 - s.port.ordDone.toNat) % 65536
     let before := (s.port.ordPost.toNat + 65536 - s.port.ordDone.toNat) % 65536
     (after ≤ 64 ∧ before ≤ after → exec (.ordpostWrite v) s = .next { s with port := { s.port with ordPost := v } }) ∧
     (¬ (after ≤ 64 ∧ before ≤ after) →
       exec (.ordpostWrite v) s = .next { s with floor := { s.floor with irqFlag := s.floor.irqFlag ||| 4 } })) ∧
  (∀ s : State, OrdersLaw s → exec (.ordpostWrite s.port.ordPost) s = .next s) ∧
  ∀ (c : Instr) (s t : State), OrdersLaw s → exec c s = .next t → OrdersLaw t

/-- A read of a register's low half answers the register as it stands and latches the high half at that moment (R163, 10.4);
nothing else changes. PARTSTATE shows run state, active page, refusal code, revision and, in its high half, the part code. A write
of RPTRD is accepted at a multiple of 4 within the unread span; any other is counted and sets GUARD (R177); that 8,192 and
above are no offset at all is log 20, and that an accepted write moves no waiting report itself is log 9. A write of IRQFLAG
clears each flag whose bit is 1 (R166). A write of a register half: the high halves, PARTSTATE, ORDDONE and RPTWR ignore it,
IRQMASK takes it (log 22), and the low halves of RUNCTL, ORDPOST, RPTRD and IRQFLAG act as their own rows (R163, R167; 10.4). -/
def Obligations.PortReadsAndWritesTakeEffect : Prop :=
  (∀ (reg : BitVec 3) (s : State), ∃ t, exec (.lowHalfRead reg) s = .next t ∧ t.mode = s.mode ∧ t.floor = s.floor ∧
     t.pending = s.pending ∧
     t.port = { s.port with data := t.port.data, latch := s.port.latch.set reg.toNat (some (if reg = 0 then 0x3208 else 0)) } ∧
     (reg = 0 → s.port.refusal < 16 →
       t.port.data.toNat % 4 = s.mode.run.code ∧ t.port.data.toNat / 4 % 4 = s.mode.page.code ∧
       t.port.data.toNat / 16 % 16 = s.port.refusal ∧ t.port.data.toNat / 256 = 1) ∧
     (reg = 1 → t.port.data = 0) ∧ (reg = 2 → t.port.data = s.port.ordPost) ∧ (reg = 3 → t.port.data = s.port.ordDone) ∧
     (reg = 4 → s.floor.rptWr < 65536 → t.port.data.toNat = s.floor.rptWr) ∧
     (reg = 5 → s.mode.rptRd < 65536 → t.port.data.toNat = s.mode.rptRd) ∧
     (reg = 6 → t.port.data = s.floor.irqFlag) ∧ (reg = 7 → t.port.data = s.port.irqMask)) ∧
  (∀ (v : Half) (s : State), s.mode.run ≠ .clearing →
     let accepted := v.toNat % 4 = 0 ∧ v.toNat < 8192 ∧
       (v.toNat + 8192 - s.mode.rptRd) % 8192 ≤ (s.floor.rptWr + 8192 - s.mode.rptRd) % 8192
     (accepted → exec (.rptrdWrite v) s = .next { s with mode := { s.mode with rptRd := v.toNat } }) ∧
     (¬ accepted → ∃ t, exec (.rptrdWrite v) s = .next t ∧ t.mode = s.mode ∧ t.port = s.port ∧ t.pending = s.pending ∧
       t.floor = { s.floor with store := t.floor.store, irqFlag := s.floor.irqFlag ||| 8 } ∧
       t.floor.store.header 18 2 = min (s.floor.store.header 18 2 + 1) 65535 ∧
       KeepsBytes (fun a => inHeaderField 4 2 a ∨ inHeaderField 18 2 a ∨ inHeaderRest a) s.floor t.floor)) ∧
  (∀ (v : Half) (s : State), s.mode.run ≠ .clearing →
     exec (.irqflagWrite v) s = .next { s with floor := { s.floor with irqFlag := s.floor.irqFlag &&& ~~~v } } ∧
     (∀ reg : BitVec 3, exec (.registerWrite reg true v) s = .next s) ∧
     (∀ reg : BitVec 3, reg = 0 ∨ reg = 3 ∨ reg = 4 → exec (.registerWrite reg false v) s = .next s) ∧
     exec (.registerWrite 7 false v) s = .next { s with port := { s.port with irqMask := v } } ∧
     exec (.registerWrite 1 false v) s =
       (if v.getLsbD 1 then exec .softReset s else if v.getLsbD 0 then exec .runRequest s else exec .stopRequest s) ∧
     exec (.registerWrite 2 false v) s = exec (.ordpostWrite v) s ∧
     exec (.registerWrite 5 false v) s = exec (.rptrdWrite v) s ∧
     exec (.registerWrite 6 false v) s = exec (.irqflagWrite v) s)

/-- A host write to a store word that the part does not own makes its two bytes read as written and leaves every other byte,
in a station record too (R164; log 12 for the records). A host write to a store word that the part owns changes no byte but
the header's: the refused write is counted, its address recorded (log 21), and GUARD set (R164, R165); the header bytes of no
field become 0 (log 14). -/
def Obligations.HostStoreWritesAreMadeOrRefused : Prop :=
  (∀ (word : BitVec 16) (v : Half) (s : State), s.mode.run ≠ .clearing →
    partOwns s.mode (regionOf (2 * word.toNat)) = false →
    ∃ t, exec (.storeWrite word v) s = .next t ∧ t.mode = s.mode ∧ t.port = s.port ∧ t.pending = s.pending ∧
      t.floor.irqFlag = s.floor.irqFlag ∧ t.floor.rptWr = s.floor.rptWr ∧ t.floor.waitQueue = s.floor.waitQueue ∧
      t.floor.dropped = s.floor.dropped ∧
      t.floor.readByte (2 * word.toNat) = v.extractLsb' 0 8 ∧ t.floor.readByte (2 * word.toNat + 1) = v.extractLsb' 8 8 ∧
      KeepsBytes (inBytes (2 * word.toNat) 2) s.floor t.floor ∧
      (¬ inRecords (2 * word.toNat) → t.floor.stations = s.floor.stations) ∧
      ∀ i, ¬ inRecord i (2 * word.toNat) → t.floor.station i = s.floor.station i) ∧
  (∀ (word : BitVec 16) (v : Half) (s : State), partOwns s.mode (regionOf (2 * word.toNat)) = true →
    ∃ t, exec (.storeWrite word v) s = .next t ∧ t.mode = s.mode ∧ t.port = s.port ∧ t.pending = s.pending ∧
      t.floor = { s.floor with store := t.floor.store, irqFlag := s.floor.irqFlag ||| 8 } ∧
      t.floor.store.header 16 2 = min (s.floor.store.header 16 2 + 1) 65535 ∧
      t.floor.store.header 20 4 = 2 * word.toNat ∧
      KeepsBytes (fun a => inHeaderField 4 2 a ∨ inHeaderField 16 2 a ∨ inHeaderField 20 4 a ∨ inHeaderRest a)
        s.floor t.floor ∧
      ∀ a, inHeaderRest a → t.floor.readByte a = 0)

/-! ### Run states -/

/-- Power-on puts the part in CLEARING with every register, unit and store byte at its power-on value (R172, R23, R35, R102): the
store, the station records with it, reads zero at once (log 2), some unit values are the model's (log 29), and the input lines keep their levels, what is to
come on them stays (log 5, log 31), and the queue keeps its commands (log 30). The end of CLEARING (R172): a store of zeros but
for account 0, OPEN and HOUSE (R132), and the part time in the header; the working copies of the zeroed profiles with their values
of R23, guards of 0 with the no-service mark (R35), filters taken from the next samples of the lines (R2; log 5), BUSY as it
stands (log 29), ENABLE at its inactive level, the lowest being active (R16, R23), stations IDLE; STOPPED, with RUN set. Edit
counts are those of log 13. -/
def Obligations.PowerOnClearsThenStops : Prop :=
  (∀ s : State, ∃ t, exec .powerOn s = .next t ∧ t.mode = State.reset.mode ∧ t.port = State.reset.port ∧
    t.pending = s.pending ∧ t.floor = { State.reset.floor with stations := t.floor.stations } ∧
    (∀ a, t.floor.readByte a = 0) ∧
    ∀ i : StationId, let x := s.floor.station i
      t.floor.station i =
        { Station.powerOn with
          line := { LineUnit.powerOn with
            samples := x.line.samples, feedHigh := x.line.feedHigh, exitHigh := x.line.exitHigh, faultHigh := x.line.faultHigh }
          link := { LinkUnit.powerOn with busyHigh := x.link.busyHigh, rises := x.link.rises } }) ∧
  (∀ s : State, s.mode.run = .clearing → ∃ t, exec .clearingDone s = .next t ∧ t.mode = { s.mode with run := .stopped } ∧
    t.port = s.port ∧ t.pending = s.pending ∧
    t.floor = { s.floor with store := t.floor.store, stations := t.floor.stations, irqFlag := s.floor.irqFlag ||| 16 } ∧
    t.floor.store.account 0 =
      { state := 1, kind := 3, tier := false, overdrawn := false, holders := 0, editCount := 0, balance := 0, limit := 0
        held := 0, inFlight := 0, delivered := 0, money := 0, faces := .replicate 8 0 } ∧
    t.floor.store.header 12 4 = s.mode.partTime.toNat ∧
    (∀ a, ¬ inRecords a → ¬ inAccount 0 a → ¬ inHeaderField 4 2 a → ¬ inHeaderField 12 4 a → t.floor.readByte a = 0) ∧
    ∀ i : StationId, let x := s.floor.station i
      let y := t.floor.station i
      let p := x.line.comingSample
      y = finished t.mode x { x with
        state := .idle, copy := y.copy, guardValue := 0, noService := true
        line := { x.line with
          feed := !p.feed, exit := !p.exit, fault := !p.fault, feedCount := 0, exitCount := 0, faultCount := 0 }
        link := { x.link with busy := !x.link.busyHigh } } ∧
      y.line.enable = false ∧ y.line.enableHigh = true ∧
      y.copy.levels = 0 ∧ y.copy.debounce = 1 ∧ y.copy.pathDepth = 1 ∧ y.copy.transitLimit = 200 ∧ y.copy.drainMin = 100 ∧
      y.copy.allowed = 0)

/-- A soft reset (R171) acts on the port, the report writer and the run state, on every station (R22, R59, R101, R113, R130)
and on every account (R149), and keeps every byte of the store outside the accounts and the station records. A closed tally
that waits is added back into the live tally, after the strays in the path have been counted lost there (R22); a debounce count
in progress is discarded. -/
def Obligations.SoftResetClearsTheWork : Prop :=
  ∀ s : State, s.mode.run ≠ .clearing → ∃ t, exec .softReset s = .next t ∧
    t.mode = { s.mode with run := .stopped, rptRd := 0 } ∧ t.port = { s.port with ordPost := 0, ordDone := 0 } ∧
    t.pending = s.pending ∧ t.floor.waitQueue = [] ∧ t.floor.dropped = false ∧ t.floor.rptWr = 0 ∧
    t.floor.irqFlag = (if s.mode.run = .stopped then 0 else 16) ∧
    (∀ n, n < 1024 → let a := s.floor.store.account n
      t.floor.store.account n =
        { a with held := 0, holders := 0, inFlight := 0, state := if a.state = 3 then 2 else a.state }) ∧
    KeepsBytes (fun a => inRecords a ∨ inAccounts a) s.floor t.floor ∧
    ∀ i : StationId, let x := s.floor.station i
      let y := t.floor.station i
      let lost := { x.line.live with lost := min (x.line.live.lost + x.line.inPath.countP fun p => p.target == .stray) 65535 }
      y.state = (if x.state = .out then .out else .idle) ∧ y.outCause = x.outCause ∧ y.outPending = .none ∧
      y.nextCard = none ∧ y.lowStart = none ∧ y.graceStart = none ∧ y.copy = x.copy ∧ y.guardValue = x.guardValue ∧
      y.noService = x.noService ∧
      y.context.condition = (if x.context.condition = .empty then .empty else .abandoned) ∧
      y.context.funding = x.context.funding ∧ y.context.number = x.context.number ∧
      y.context.endTime =
        (if x.context.condition = .live ∨ x.context.condition = .funding then s.mode.partTime else x.context.endTime) ∧
      y.auth.state = .none ∧ y.auth.slot = none ∧ y.auth.lastId = x.auth.lastId ∧
      y.jam.lost = [] ∧ y.jam.pendingReport = none ∧ y.jam.record = x.jam.record ∧
      y.line.enable = false ∧ y.line.inPath = [] ∧ y.line.closed = .zero ∧ y.line.pace = 0 ∧
      y.line.lifetimeFeed = x.line.lifetimeFeed ∧ y.line.lifetimeExit = x.line.lifetimeExit ∧
      y.line.orphans = x.line.orphans ∧ y.line.classFaults = x.line.classFaults ∧
      y.line.live = (if x.line.closed.waiting then lost.plus x.line.closed.tally else lost) ∧
      y.line.feedCount = 0 ∧ y.line.exitCount = 0 ∧ y.line.faultCount = 0 ∧
      y.link.up = false ∧ y.link.queue = [] ∧ y.link.held = none ∧ y.link.agreed = .none ∧ y.link.offered = .none ∧
      y.link.assembler = .hunt ∧ y.link.rxErrors = x.link.rxErrors

/-- A run request whose start check fails records why and sets RUN; the part stays STOPPED, and no byte but the header's
changes (R168). Why a start check refuses, in the order of R168: the page, the directory count, the first directory
entry out of order, the first account whose state, and else whose kind, is not admitted. -/
def Obligations.RefusedStartIsRecorded : Prop :=
  (∀ (r : StartRefusal) (s : State), s.mode.run = .stopped → startRefusal s.floor.store s.mode.page = some r →
     ∃ t, exec .runRequest s = .next t ∧ t.mode = s.mode ∧ t.port = { s.port with refusal := r.code } ∧
       t.pending = s.pending ∧ t.floor = { s.floor with store := t.floor.store, irqFlag := s.floor.irqFlag ||| 16 } ∧
       t.floor.store.header 24 1 = r.code ∧ t.floor.store.header 25 1 = r.kind ∧ t.floor.store.header 26 2 = r.number ∧
       KeepsBytes (fun a => inHeaderField 4 2 a ∨ inHeaderField 24 4 a ∨ inHeaderRest a) s.floor t.floor) ∧
  (∀ (m : Memory) (p : Page),
     (∀ kind number, m.pageFailure p = some (kind, number) → startRefusal m p = some ⟨1, kind, number⟩) ∧
     (m.pageFailure p = none → 2048 < m.directoryCount → startRefusal m p = some ⟨2, 0, m.directoryCount⟩) ∧
     (∀ k, m.pageFailure p = none → m.directoryCount ≤ 2048 → k < m.directoryCount →
       ((m.dirEntry k).number = 0 ∨ (k ≠ 0 ∧ (m.dirEntry k).number ≤ (m.dirEntry (k - 1)).number)) →
       (∀ j, j < k → (m.dirEntry j).number ≠ 0 ∧ (j ≠ 0 → (m.dirEntry (j - 1)).number < (m.dirEntry j).number)) →
       startRefusal m p = some ⟨3, 0, k⟩) ∧
     (∀ n, n < 1024 → m.pageFailure p = none → m.directoryFault = none →
       (∀ j, j < n → (m.account j).startValid = true) → (m.account n).startValid = false →
       startRefusal m p = some ⟨if 2 < (m.account n).state.toNat then 4 else 5, 0, n⟩) ∧
     (m.pageFailure p = none → m.directoryFault = none → (∀ n, n < 1024 → (m.account n).startValid = true) →
       startRefusal m p = none))

/-- A run request whose start check passes puts the part in RUNNING (R169): the refusal is cleared, no account holds anything,
account 0 is OPEN and HOUSE (R133, R148), an enabled station has a working copy of its profile and a guard record of the active
page (R35) and is IDLE, or JAMMED where the next sample finds its FAULT line active (R2; log 5 for the samples), every other
station is OUT for the staff with its guard record kept, and no ENABLE is active. The clamped fields of profiles and account
limits are counted (R148, R169). Where no stray tally is closed for a station set OUT and no path holds a sheet, every account
keeps its balance, its totals and its state, its limit is clamped, OVERDRAWN is judged, and its edit count is even (R134, R148).
At an enabled station the link unit takes up the copy's serial fields: a change of format takes the link down, a change of accepted media that changes
the agreed readers is told by a WELCOME, and with neither the link is left as it is, but for the SHOW of a jam (R41, R61, R116). -/
def Obligations.PassedStartRuns : Prop :=
  ∀ s : State, OffsetLaw s → s.mode.run = .stopped → startRefusal s.floor.store s.mode.page = none →
    ∃ t, exec .runRequest s = .next t ∧ t.mode = { s.mode with run := .running } ∧
      t.port = { s.port with refusal := 0 } ∧ t.pending = s.pending ∧ t.floor.flag .run = true ∧
      let m := s.floor.store
      let clampsLimit := fun a : Account => !a.isFree && a.isCredit && decide (2147483647 < a.limit.toNat)
      t.floor.store.header 24 1 = 0 ∧ t.floor.store.header 25 1 = 0 ∧ t.floor.store.header 26 2 = 0 ∧
      (∀ n, n < 1024 → let a := t.floor.store.account n
        a.held = 0 ∧ a.holders = 0 ∧ a.inFlight = 0 ∧ (n = 0 → a.state = 1 ∧ a.kind = 3)) ∧
      t.floor.store.header 6 2 =
        min (((List.range 1024).countP fun n => clampsLimit (m.account n)) +
          ((stationIds.filter m.profileEnabled).map fun i => (m.profile i).clampCount).sum) 65535 ∧
      ((∀ i, (s.floor.station i).line.live.fed = 0 ∧ (s.floor.station i).line.inPath = []) → ∀ n, n < 1024 →
        let a := m.account n
        let b := t.floor.store.account n
        let c := { a with
          state := if n = 0 then 1 else a.state, kind := if n = 0 then 3 else a.kind
          limit := if clampsLimit a then 2147483647 else a.limit, held := 0, holders := 0, inFlight := 0
          editCount := b.editCount }
        isOdd b.editCount = false ∧ b = if c.isFree then c else { c with overdrawn := c.belowFloor }) ∧
      ∀ i : StationId, let x := s.floor.station i
        let y := t.floor.station i
        y.line.enable = false ∧
        (s.floor.store.profileEnabled i = true →
          y.copy = (s.floor.store.profile i).clamped ∧ y.outCause = .none ∧
          y.guardValue = guardValueOf s.floor.store s.mode.page y.copy ∧
          y.noService = noServiceOf s.floor.store s.mode.page y.copy ∧
          y.state = (if x.line.comingSample.fault = y.copy.activeHigh 2 then .jammed else .idle) ∧
          let link := x.link.serialTaken x.copy y.copy
          (y.state = .idle → y.link = link) ∧
          (y.state = .jammed → x.line.inPath = [] → y.link = link.offer (showOn 1 .jam 0 0))) ∧
        (s.floor.store.profileEnabled i = false →
          y.state = .out ∧ y.outCause = .staff ∧ y.copy = x.copy ∧ y.line.inPath = [] ∧ y.guardValue = x.guardValue ∧
          y.noService = x.noService)

/-- A stop request in RUNNING puts the part in STOPPING and sets RUN (R170); every live session ends with cause STOP, every
funding wait is given up, and no other session changes (R100). The stations act one after the other in ascending number (log 17),
each on what those before it have left, from `h 0` to `h 12`: a live session ends (R88); a funding wait is refused OUT OF SERVICE
and its station is IDLE, where its live tally is closed for the stop; at an IDLE or OUT station the live tally is closed with
cause STOP unless it is empty, and its settlement is written and applied or waits (R19); any other station goes on. The store
changes in the stream and the accounts alone, by these settlements. The fields of a request closed at the stop are 0 (log 47). The
part enters STOPPED when every station is IDLE or OUT and no kept report waits (R170): RUN is set, strays left in a path are
counted lost (R20), a card in a next-card slot is answered OUT OF SERVICE (R75), and nothing else changes; the edit counts and
drain starts of the records are those of log 13 and log 15. A closed tally that only the host has marked waiting is added to, is
not written, and does not hold the stop back, by the model's choice (log 54). -/
def Obligations.StopsRunToTheirEnd : Prop :=
  (∀ s : State, OffsetLaw s → s.mode.run = .running → ∃ t, exec .stopRequest s = .next t ∧
    t.mode = { s.mode with run := .stopping } ∧ t.port = s.port ∧ t.pending = s.pending ∧ t.floor.flag .run = true ∧
    KeepsBytes (fun a => inRecords a ∨ inStream a ∨ inAccounts a) s.floor t.floor ∧
    ∀ i : StationId, let x := s.floor.station i
      let y := t.floor.station i
      y.line.enable = false ∧ y.line.inPath = x.line.inPath ∧ y.copy = x.copy ∧ y.jam.record = x.jam.record ∧
      (x.context.condition = .live →
        y.context = { x.context with condition := .ending, endCause := .stop, endTime := s.mode.partTime } ∧
        y.state = (if x.state = .jammed then .jammed else .draining) ∧ y.auth.state = .none ∧ y.lowStart = none) ∧
      (x.context.condition = .funding →
        y.context = .empty ∧ y.state = .idle ∧ y.auth.state = .none ∧ y.nextCard = none) ∧
      (x.context.condition ≠ .live → x.context.condition ≠ .funding → y.context = x.context ∧ y.state = x.state ∧
        y.auth = x.auth)) ∧
  (∀ s : State, OffsetLaw s → s.mode.run = .running →
    let e := { s.mode with run := .stopping }
    ∃ (t : State) (h : Nat → Floor), exec .stopRequest s = .next t ∧
      h 0 = { s.floor with irqFlag := s.floor.irqFlag ||| 16 } ∧ t.floor = { h 12 with stations := t.floor.stations } ∧
      ∀ i : StationId, let x := s.floor.station i
        let f := h i.val
        let g := h (i.val + 1)
        let goesOn := x.context.condition ≠ .live ∧ x.context.condition ≠ .funding
        f.station i = x ∧ KeepsOthers i f g ∧ t.floor.station i = finished e x (g.station i) ∧
        (x.context.condition = .live → g = f.onStation i fun _ => x.ended s.mode.partTime .stop) ∧
        (x.context.condition = .funding →
          BecameIdle e i (f.onStation i fun _ => (x.refusal .outOfService 0 0).givenUp) g) ∧
        (goesOn → x.state = .idle ∨ x.state = .out → ClosesTally e i .stop f g) ∧
        (goesOn → x.state ≠ .idle → x.state ≠ .out → g = f)) ∧
  (∀ s : State, s.mode.run = .stopping → s.floor.waitQueue = [] →
    (∀ i, (s.floor.station i).state = .idle ∨ (s.floor.station i).state = .out) →
    ∃ t, exec .stoppedEntry s = .next t ∧ t.mode = { s.mode with run := .stopped } ∧ t.port = s.port ∧
      t.pending = s.pending ∧
      t.floor = { s.floor with stations := t.floor.stations, irqFlag := s.floor.irqFlag ||| 16 } ∧
      KeepsBytes inRecords s.floor t.floor ∧
      ∀ i : StationId, let x := s.floor.station i
        t.floor.station i = finished t.mode x
          { x with
            nextCard := none
            line := { x.line with
              inPath := [], live := { x.line.live with lost := min (x.line.live.lost + x.line.inPath.length) 65535 } }
            link := if x.nextCard.isSome then (x.link.offer (showOn 1 .outOfService 0 0)).offer .eject else x.link })

/-- Run requests outside STOPPED, stop requests outside RUNNING, and the events whose conditions do not hold, change nothing and
set no flag (R167; log 3 for the events). In CLEARING every host write, every order and every event of the units is without
effect, and no discarded write is counted (R163, R172; log 3 for the events): only power-on, the end of CLEARING, the tick and a
register read act. -/
def Obligations.RequestsWithoutEffect : Prop :=
  ∀ s : State,
    (s.mode.run ≠ .stopped → exec .runRequest s = .next s) ∧
    (s.mode.run ≠ .running → exec .stopRequest s = .next s) ∧
    (s.mode.run = .clearing → ∀ c, actsInClearing c = false → exec c s = .next s) ∧
    (s.mode.run ≠ .clearing → exec .clearingDone s = .next s) ∧
    ((s.mode.run ≠ .stopping ∨ s.floor.waitQueue ≠ [] ∨
        ∃ i, (s.floor.station i).state ≠ .idle ∧ (s.floor.station i).state ≠ .out) → exec .stoppedEntry s = .next s)

/-- The tick advances part time by 1, modulo 2^32, and from the end of CLEARING on shows it in the header under the header edit
count; the bytes of the header that belong to no field are 0 then (R165, R181; log 7, log 14). The FEED, EXIT and FAULT inputs of
every station are sampled: the levels of the next sample, or those held where none is listed, are held, and from the end of
CLEARING on a sample that differs from the filtered level advances its line's count, up to the debounce time, while one that
agrees ends it (R1; log 5). From then on BUSY is sampled too, at the level where it stands, by the working copy's polarity (R51,
R57, R41; log 49). Nothing else changes; edit counts are those of log 13. -/
def Obligations.TickAdvancesPartTime : Prop :=
  ∀ s : State, ∃ t, exec .partTimeTick s = .next t ∧
    t.mode = { s.mode with partTime := s.mode.partTime + 1 } ∧
    t.port = s.port ∧ t.pending = s.pending ∧
    t.floor = { s.floor with store := t.floor.store, stations := t.floor.stations } ∧
    (∀ i : StationId, let x := s.floor.station i
      let p := x.line.comingSample
      let counted := fun (line : Nat) (filtered high : Bool) (count : Nat) =>
        if s.mode.run = .clearing then count
        else if x.copy.isActive line high = filtered then 0 else min (count + 1) x.copy.debounce
      let y := { x with
          line := { x.line with
            samples := x.line.samples.drop 1, feedHigh := p.feed, exitHigh := p.exit, faultHigh := p.fault
            feedCount := counted 0 x.line.feed p.feed x.line.feedCount
            exitCount := counted 1 x.line.exit p.exit x.line.exitCount
            faultCount := counted 2 x.line.fault p.fault x.line.faultCount }
          link := if s.mode.run = .clearing then x.link else x.busySampled (s.mode.partTime + 1) x.link.busyHigh }
      t.floor.station i = if s.mode.run = .clearing then y else finished t.mode x y) ∧
    (s.mode.run = .clearing → t.floor.store = s.floor.store ∧ KeepsBytes (fun _ => False) s.floor t.floor) ∧
    (s.mode.run ≠ .clearing → t.floor.store.header 12 4 = (s.mode.partTime.toNat + 1) % 4294967296 ∧
      t.floor.store.header 4 2 % 2 = 0 ∧
      KeepsBytes (fun a => inRecords a ∨ inHeaderField 4 2 a ∨ inHeaderField 12 4 a ∨ inHeaderRest a) s.floor t.floor ∧
      ∀ a, inHeaderRest a → t.floor.readByte a = 0)

/-! ### Orders -/

/-- An order command takes the slot at the done count, when an order of its kind waits there: the slot gets a result of 11.9,
the done count advances by 1, ORDER is set, and no other byte of the order list changes (R173, R174). Otherwise the event does
not arise (log 11). -/
def Obligations.OrdersAreAnsweredOneByOne : Prop :=
  ∀ (c : Instr) (kind : Nat) (s : State), orderCode c = some kind →
    (OrderAt s kind → OffsetLaw s → ∃ t r answer, exec c s = .next t ∧ Answered s t r answer ∧ t.mode.run = s.mode.run ∧
      ∀ a, a < 0x800 → ¬ inAnswer s.port.ordDone a → t.floor.readByte a = s.floor.readByte a) ∧
    (¬ OrderAt s kind → exec c s = .next s)

/-- A slot whose kind is 0 or above 16 is answered BAD KIND in every run state after CLEARING, and nothing else changes
(R174). In STOPPED the kinds that need a running part are answered WRONG STATE whatever their parameters hold, and
nothing else changes; the account orders among them show the account they name (R137, R175; log 44 for a record of invalid
codes). While the part runs, an
order that names a station by a number outside 1 to 12 is answered BAD VALUE; STATION IN is answered WRONG STATE in
STOPPING before its number is looked at (R99, R175). Nothing else changes. That the BAD KIND command does nothing at a slot
of kind 1 to 16, or where no order waits, is the model's choice (log 11, log 3). -/
def Obligations.OrdersOutOfPlaceAreRefused : Prop :=
  (∀ s : State, EnableLaw s →
     (OrderAt s s.orderKind → s.orderKind = 0 ∨ 16 < s.orderKind → RefusedWith .badKind s .badKind []) ∧
     ((s.mode.run = .clearing ∨ s.port.ordDone = s.port.ordPost ∨ (1 ≤ s.orderKind ∧ s.orderKind ≤ 16)) →
       exec .badKind s = .next s)) ∧
  (∀ (c : Instr) (kind : Nat) (s : State), EnableLaw s → s.mode.run = .stopped → orderCode c = some kind → OrderAt s kind →
     let n := s.floor.store.param s.slot 0 2
     let a := s.floor.store.account n
     (kind = 5 ∨ kind = 6 ∨ kind = 7 →
       RefusedWith c s .wrongState (if n < 1024 ∧ a.isFree = false ∧ a.codesValid = true then accountAnswer a else [])) ∧
     (kind = 8 ∨ kind = 11 ∨ kind = 13 ∨ kind = 14 ∨ kind = 15 ∨ kind = 16 → RefusedWith c s .wrongState [])) ∧
  (∀ (c : Instr) (kind : Nat) (s : State), EnableLaw s → s.mode.run = .running ∨ s.mode.run = .stopping →
     orderCode c = some kind → OrderAt s kind →
     let number := s.floor.store.param s.slot 0 1
     (kind = 11 ∨ kind = 13 ∨ kind = 15 ∨ kind = 16 → number = 0 ∨ 12 < number → RefusedWith c s .badValue []) ∧
     (kind = 14 → s.mode.run = .running → number = 0 ∨ 12 < number → RefusedWith c s .badValue []) ∧
     (kind = 14 → s.mode.run = .stopping → RefusedWith c s .wrongState []))

/-- What the refusals of account orders say, in the order of R137 to R143: a number above 1023 or a record of invalid codes is
BAD VALUE with an empty answer; an order that may not touch account 0 is WRONG STATE there, after those tests and the order's own
parameters and before the account's state (the model's choice of the place, log 50); a FREE account is NOT FOUND, and an
account in use is EXISTS to ACCOUNT OPEN. Nothing but the slot changes. ACCOUNT OPEN, CREDIT, DEBIT and LIMIT are refused so in
STOPPED too, where they are executed; FREEZE, THAW and CLOSE are answered WRONG STATE there before any of these tests
(OrdersOutOfPlaceAreRefused). -/
def Obligations.AccountOrdersAreRefusedInOrder : Prop :=
  ∀ (c : Instr) (kind : Nat) (s : State), EnableLaw s → kind ≤ 4 ∨ s.mode.run = .running ∨ s.mode.run = .stopping →
    orderCode c = some kind → kind ≤ 7 → OrderAt s kind →
    let m := s.floor.store
    let n := m.param s.slot 0 2
    let a := m.account n
    (1024 ≤ n → RefusedWith c s .badValue []) ∧
    (n < 1024 → a.codesValid = false → RefusedWith c s .badValue []) ∧
    (n < 1024 → a.codesValid = true → kind = 2 ∨ kind = 3 → m.param s.slot 4 4 = 0 ∨ 2147483647 < m.param s.slot 4 4 →
      RefusedWith c s .badValue (accountAnswer a)) ∧
    (n < 1024 → a.codesValid = true → kind = 4 → 2147483647 < m.param s.slot 4 4 →
      RefusedWith c s .badValue (accountAnswer a)) ∧
    (n < 1024 → a.codesValid = true → kind = 1 → openParams m s.slot = false → RefusedWith c s .badValue (accountAnswer a)) ∧
    (n = 0 → a.codesValid = true → kind = 5 ∨ kind = 6 ∨ kind = 7 ∨ (kind = 1 ∧ openParams m s.slot = true) →
      RefusedWith c s .wrongState (accountAnswer a)) ∧
    (n < 1024 → a.isFree = true → kind = 2 ∨ kind = 3 → 1 ≤ m.param s.slot 4 4 → m.param s.slot 4 4 ≤ 2147483647 →
      RefusedWith c s .notFound []) ∧
    (n < 1024 → a.isFree = true → kind = 4 → m.param s.slot 4 4 ≤ 2147483647 → RefusedWith c s .notFound []) ∧
    (n < 1024 → a.codesValid = true → kind = 4 → m.param s.slot 4 4 ≤ 2147483647 → a.isFree = false → a.isCredit = false →
      RefusedWith c s .wrongState (accountAnswer a)) ∧
    (n ≠ 0 → n < 1024 → a.codesValid = true → kind = 7 → a.isClosing = true →
      RefusedWith c s .wrongState (accountAnswer a)) ∧
    (n ≠ 0 → n < 1024 → a.codesValid = true → a.isFree = true → kind = 5 ∨ kind = 6 ∨ kind = 7 →
      RefusedWith c s .notFound []) ∧
    (n ≠ 0 → n < 1024 → a.codesValid = true → kind = 1 → openParams m s.slot = true → a.isFree = false →
      RefusedWith c s .existing (accountAnswer a)) ∧
    (n ≠ 0 → n < 1024 → a.codesValid = true → kind = 5 → a.isFree = false → a.isOpen = false →
      RefusedWith c s .wrongState (accountAnswer a)) ∧
    (n ≠ 0 → n < 1024 → a.codesValid = true → kind = 6 → a.isFree = false → a.isFrozen = false →
      RefusedWith c s .wrongState (accountAnswer a))

/-- An account order of kinds 1 to 6 that passes its tests is answered DONE, or CLAMPED where a CREDIT or DEBIT would leave the
signed 32-bit range; the answer shows the changed account; the account is changed as R138 to R142 say, and a re-evaluation pass
changes none of these fields (R146). Where no station is in LOW there is no pass to make: the account record alone changes, by
one request (R134; log 14), and its held amount and holders are as the order left them. That a LIMIT equal to the old one and a
CREDIT at the greatest balance still judge OVERDRAWN is the model's choice (log 45, log 46). -/
def Obligations.AccountOrdersChangeTheirAccount : Prop :=
  ∀ (c : Instr) (kind : Nat) (s : State), EnableLaw s → OffsetLaw s → orderCode c = some kind → OrderAt s kind →
    let m := s.floor.store
    let n := m.param s.slot 0 2
    let a := m.account n
    let b := accountChanged kind m s.slot a
    let exact := if kind = 2 then a.balance.toInt + (m.param s.slot 4 4 : Int)
      else if kind = 3 then a.balance.toInt - (m.param s.slot 4 4 : Int) else 0
    accountOrderPasses kind s n a →
    ∃ t, exec c s = .next t ∧
      Answered s t (if -2147483648 ≤ exact ∧ exact ≤ 2147483647 then .done else .clamped)
        [(4, b.balance.toNat), (4, signed32 (limit32 b.available))] ∧
      (t.floor.store.account n).facts = b.facts ∧
      ((∀ i, (s.floor.station i).state ≠ .low) →
        t.floor.store.account n = edited a b ∧ OrderKeeps (fun _ => False) (inAccount n) s t)

/-- ACCOUNT CLOSE at an OPEN or FROZEN account other than account 0 (R143, R144): without room for its report it is answered NO
ROOM; with no holder, the ACCOUNT CLOSED report is written and the record freed; else the account becomes CLOSING. The edit
counts are those of log 14. -/
def Obligations.AccountCloseFreesOrWaits : Prop :=
  ∀ s : State, EnableLaw s → OffsetLaw s → s.mode.run = .running ∨ s.mode.run = .stopping → OrderAt s 7 →
    let n := s.floor.store.param s.slot 0 2
    let a := s.floor.store.account n
    let wr := s.floor.rptWr
    let room := s.floor.waitQueue = [] ∧ roomNeeded wr 64 ≤ freeRoom wr s.mode.rptRd
    n ≠ 0 → n < 1024 → a.codesValid = true → a.isOpen = true ∨ a.isFrozen = true →
    (¬ room → RefusedWith .accountClose s .noRoom (accountAnswer a)) ∧
    (room → a.holders ≠ 0 → ∃ t, exec .accountClose s = .next t ∧
      Answered s t .accepted [(4, a.balance.toNat), (4, signed32 (limit32 a.available))] ∧
      t.floor.store.account n = edited a { a with state := 3 } ∧ OrderKeeps (fun _ => False) (inAccount n) s t) ∧
    (room → a.holders = 0 → ∃ t, exec .accountClose s = .next t ∧
      Answered s t .done [(4, a.balance.toNat), (4, signed32 (limit32 a.available))] ∧
      t.floor.store.account n =
        { state := 0, kind := 0, tier := false, overdrawn := false, holders := 0, editCount := bracket a.editCount, balance := 0
          limit := 0, held := 0, inFlight := 0, delivered := 0, money := 0, faces := .replicate 8 0 } ∧
      ReportHeaderAt t.floor.store (reportPlace wr 64) 64 .accountClosed 0 s.mode.partTime ∧
      t.floor.store.readLE (reportPlace wr 64 + 8) 2 = n ∧ t.floor.store.readLE (reportPlace wr 64 + 12) 4 = a.balance.toNat ∧
      t.mode = s.mode ∧ t.floor.rptWr = offsetAfter wr 64 ∧ t.floor.flag .report = true ∧ t.floor.waitQueue = [] ∧
      (∀ i, t.floor.station i = s.floor.station i) ∧
      KeepsBytes (fun p => inAnswer s.port.ordDone p ∨ inAccount n p ∨ inReport wr 64 p) s.floor t.floor)

/-- PERIOD CLOSE of one account while the part runs (R160): a number from 1024 to 0xFFFE is BAD VALUE, a FREE account NOT
FOUND; without room it is NO ROOM; else the PERIOD report is written and the account's D, faces and period money
become 0, all else kept, and the answer gives one report and the money. PERIOD CLOSE of all accounts while the part
runs (R161, R179): one report for every account not FREE, all or none. With room, the PERIOD reports are written in ascending
account number, one after the other from the write offset, each with its batch position and the batch size and the account as it
stood (R162, R176); every such account's D, faces and period money become 0 and every other field of every account stays; the
answer gives the number of reports and the sum of the period money. The edit counts are those of log 14. -/
def Obligations.PeriodCloseReportsAndClears : Prop :=
  (∀ s : State, EnableLaw s → OffsetLaw s → s.mode.run = .running ∨ s.mode.run = .stopping → OrderAt s 8 →
     let n := s.floor.store.param s.slot 0 2
     let a := s.floor.store.account n
     let wr := s.floor.rptWr
     let room := s.floor.waitQueue = [] ∧ roomNeeded wr 64 ≤ freeRoom wr s.mode.rptRd
     (1024 ≤ n → n ≠ 65535 → RefusedWith .periodClose s .badValue []) ∧
     (n < 1024 → a.isFree = true → RefusedWith .periodClose s .notFound []) ∧
     (n < 1024 → a.isFree = false → ¬ room → RefusedWith .periodClose s .noRoom []) ∧
     (n < 1024 → a.isFree = false → room → ∃ t, exec .periodClose s = .next t ∧
       Answered s t .done [(2, 1), (2, 0), (4, a.money.toNat)] ∧
       t.floor.store.account n = edited a { a with delivered := 0, money := 0, faces := .replicate 8 0 } ∧
       PeriodReportAt t.floor.store (reportPlace wr 64) n 1 1 a s.mode.partTime ∧
       t.mode = s.mode ∧ t.floor.rptWr = offsetAfter wr 64 ∧ t.floor.flag .report = true ∧ t.floor.waitQueue = [] ∧
       (∀ i, t.floor.station i = s.floor.station i) ∧
       KeepsBytes (fun p => inAnswer s.port.ordDone p ∨ inAccount n p ∨ inReport wr 64 p) s.floor t.floor)) ∧
  (∀ s : State, EnableLaw s → OffsetLaw s → s.mode.run = .running ∨ s.mode.run = .stopping → OrderAt s 8 →
     s.floor.store.param s.slot 0 2 = 65535 →
     let used := (List.range 1024).filter fun n => !(s.floor.store.account n).isFree
     let room := s.floor.waitQueue = [] ∧ fitsAll (freeRoom s.floor.rptWr s.mode.rptRd) s.floor.rptWr 64 used.length = true
     (¬ room → RefusedWith .periodClose s .noRoom []) ∧
     (room → ∃ t, exec .periodClose s = .next t ∧
       Answered s t .done [(2, used.length), (2, 0),
         (4, min (used.map fun n => (s.floor.store.account n).money.toNat).sum 4294967295)] ∧
       (∀ n, n < 1024 → let a := s.floor.store.account n
         t.floor.store.account n =
           if a.isFree then a else edited a { a with delivered := 0, money := 0, faces := .replicate 8 0 }) ∧
       (∀ k n, used[k]? = some n →
         PeriodReportAt t.floor.store (reportPlace (batchOffset s.floor.rptWr 64 k) 64) n (k + 1) used.length
           (s.floor.store.account n) s.mode.partTime) ∧
       t.floor.rptWr = batchOffset s.floor.rptWr 64 used.length ∧ (used ≠ [] → t.floor.flag .report = true) ∧
       t.mode = s.mode ∧ t.floor.waitQueue = [] ∧ (∀ i, t.floor.station i = s.floor.station i) ∧
       KeepsBytes (fun p => inAnswer s.port.ordDone p ∨ inAccounts p ∨ inStream p) s.floor t.floor))

/-- CARD PUT (R65, R66): an entry that fails a test is BAD VALUE with the test's number; on a sound directory a known
number is replaced in place, a new one inserted while fewer than 2,048 entries are in use, and a full directory
answers FULL. Every lookup of another number finds what it found before (R64), and the directory stays sound (law L6).
CARD DROP (R67): on a sound directory the entry of the number is removed, and a number that is not there is NOT FOUND;
every lookup of another number finds what it found before, and the directory stays sound (law L6). In STOPPED an
unsound directory is answered BAD VALUE by both card orders, with the count or the first failing index (R68). -/
def Obligations.CardOrdersKeepTheDirectory : Prop :=
  (∀ s : State, EnableLaw s → OrderAt s 9 →
     let m := s.floor.store
     let d := m.paramEntry s.slot
     let count := m.directoryCount
     (cardTestFailed d ≠ 0 → RefusedWith .cardPut s .badValue [(2, 0), (1, 0), (1, cardTestFailed d), (2, 0)]) ∧
     (∀ fault, cardTestFailed d = 0 → s.mode.run = .stopped → m.directoryFault = some fault →
       RefusedWith .cardPut s .badValue [(2, fault.number), (1, 3), (1, 0), (2, 0)]) ∧
     (cardTestFailed d = 0 → m.directoryFault = none →
       (m.lookup d.number = none → count = 2048 → RefusedWith .cardPut s .full [(2, 0), (1, 0), (1, 0), (2, count)]) ∧
       (m.lookup d.number ≠ none ∨ count < 2048 → ∃ t index, exec .cardPut s = .next t ∧
         Answered s t .done [(2, index), (1, if m.lookup d.number = none then 1 else 2), (1, 0),
           (2, if m.lookup d.number = none then count + 1 else count)] ∧
         t.floor.store.dirEntry index = d ∧
         t.floor.store.directoryCount = (if m.lookup d.number = none then count + 1 else count) ∧
         t.floor.store.directoryFault = none ∧
         (∀ k, t.floor.store.lookup k = if k = d.number then some d else m.lookup k) ∧
         OrderKeeps (fun _ => False) (fun a => inHeaderField 0 4 a ∨ inHeaderRest a ∨ inDirectory a) s t))) ∧
  (∀ s : State, EnableLaw s → OrderAt s 10 →
     let m := s.floor.store
     let number := m.param s.slot 0 8
     let count := m.directoryCount
     (m.directoryFault = none → m.lookup number = none → RefusedWith .cardDrop s .notFound []) ∧
     (∀ fault, s.mode.run = .stopped → m.directoryFault = some fault →
       RefusedWith .cardDrop s .badValue [(2, fault.number), (1, 3), (1, 0), (2, 0)]) ∧
     (m.directoryFault = none → m.lookup number ≠ none → ∃ t index, exec .cardDrop s = .next t ∧
       Answered s t .done [(2, index), (1, 0), (1, 0), (2, count - 1)] ∧ (m.dirEntry index).number = number ∧
       t.floor.store.directoryCount = count - 1 ∧ t.floor.store.directoryFault = none ∧
       (∀ k, t.floor.store.lookup k = if k = number then none else m.lookup k) ∧
       OrderKeeps (fun _ => False) (fun a => inHeaderField 0 4 a ∨ inHeaderRest a ∨ inDirectory a) s t))

/-- AUTH ANSWER to an INCREMENT request that is ASKED (R106, R108). A grant of 0 sets stop-asking, shows DECLINED and is answered
with a grant taken of 0 and, as the rule gives it no session number, 0 there (6.3). A grant above 0 joins the BANK entry, at most
what was asked; where the guard is then met, or no funding check is made, nothing else follows but the return from LOW to OPEN
with its SHOW (R84), and where it is not met the session stays LOW or goes there. An answer for another request is TOO LATE, and
one to an UNSENT request is WRONG STATE. The delivered total shown is taken from full counts (log 24); edit counts and drain
starts are those of log 13 and log 15; that the kind, amount, id and times of the answered request read 0 in the record afterwards
is the model's choice (log 47). -/
def Obligations.AuthAnswerGrantsAnIncrement : Prop :=
  ∀ (i : StationId) (s : State), EnableLaw s → EvenLaw s → s.mode.run = .running ∨ s.mode.run = .stopping → OrderAt s 11 →
    s.floor.store.param s.slot 0 1 = i.val + 1 →
    let m := s.floor.store
    let x := s.floor.station i
    let offered := m.param s.slot 4 4
    let taken := min offered x.auth.amount
    let outstanding := x.auth.state = .unsent ∨ x.auth.state = .asked
    (¬ outstanding ∨ x.auth.id.toNat ≠ m.param s.slot 2 2 → RefusedWith .authAnswer s .tooLate []) ∧
    (x.auth.state = .unsent → x.auth.id.toNat = m.param s.slot 2 2 → RefusedWith .authAnswer s .wrongState []) ∧
    (x.auth.state = .asked → x.auth.id.toNat = m.param s.slot 2 2 → x.auth.kind ≠ .first → offered = 0 ∨ x.auth.amount = 0 →
      OrderChangesTo .authAnswer i s .done []
        { x with
          auth := x.auth.shut, context := { x.context with stopAsking := true }
          link := x.link.offer (showOn (if 2 ≤ x.link.agreed.rows then 2 else 1) .declined 0 0) }) ∧
    (∀ (before : List FundingEntry) (last : FundingEntry), x.auth.state = .asked → x.auth.id.toNat = m.param s.slot 2 2 →
      x.auth.kind ≠ .first → 0 < taken → x.context.funding = before ++ [last] → last.kind = .bank →
      let result : Result := if x.auth.amount < offered then .clamped else .done
      let answer := [(4, taken), (4, x.context.number.toNat)]
      let entry : FundingEntry :=
        { last with
          hold := last.hold + taken, grants := last.grants ++ [⟨BitVec.ofNat 64 (m.param s.slot 8 8), taken⟩] }
      let y := { x with auth := x.auth.shut, context := { x.context with funding := before ++ [entry] } }
      let checked := x.state = .opened ∨ x.state = .low ∨ x.state = .recovery
      let met := x.context.role = .service ∨ (x.guardValue : Int) ≤ (entry.hold : Int) * 1000 - entry.committed
      (¬ checked ∨ (met ∧ x.state ≠ .low) → OrderChangesTo .authAnswer i s result answer y) ∧
      (x.state = .low → met →
        OrderChangesTo .authAnswer i s result answer
          { y with
            state := .opened, lowStart := none
            link := x.link.offer (showOn 1 .remaining entry.remainingUnits x.context.totalDelivered) }) ∧
      (checked → ¬ met → OffsetLaw s → ∃ t, exec .authAnswer s = .next t ∧ Answered s t result answer ∧
        (t.floor.station i).state = .low ∧ (t.floor.station i).context = y.context ∧
        (t.floor.station i).line.enable = false))

/-- AUTH ANSWER to a FIRST request that is ASKED, at a station in FUNDING (R107), in RUNNING and with an empty next-card slot,
where every funding wait stands: a stop gives the waits up (R100), and the slot holds a card in DRAINING, SETTLING and JAMMED
alone (R75): declined for a grant of 0, refused without service or below the hold need, in each case with its SHOW, an EJECT, and
IDLE; else the bank session opens with the grant as its hold and takes the next session number (R73, R74). A live tally that is
not empty is closed at the opening with cause SESSION OPENED, and its settlement is written or waits (R19). The empty chain of the
context is 0xFFFF three times (log 33); edit counts and drain starts are those of log 13, log 14 and log 15. That the kind,
amount, id and times of the answered request read 0 in the record afterwards, in every outcome, is the model's choice (log 47). -/
def Obligations.AuthAnswerOpensABankSession : Prop :=
  ∀ (i : StationId) (s : State), EnableLaw s → EvenLaw s → s.mode.run = .running → OrderAt s 11 →
    s.floor.store.param s.slot 0 1 = i.val + 1 →
    let m := s.floor.store
    let x := s.floor.station i
    let offered := m.param s.slot 4 4
    let taken := min offered x.auth.amount
    let need := (x.guardValue + 999) / 1000
    x.auth.state = .asked → x.auth.id.toNat = m.param s.slot 2 2 → x.auth.kind = .first → x.nextCard = none →
    (taken = 0 → OrderChangesTo .authAnswer i s .done [] (x.refusal .declined 0 0).givenUp) ∧
    (0 < taken → x.noService = true → OrderChangesTo .authAnswer i s .wrongState [] (x.refusal .noService 0 0).givenUp) ∧
    (0 < taken → x.noService = false → taken < need →
      OrderChangesTo .authAnswer i s .short [] (x.refusal .declined 0 0).givenUp) ∧
    let next := m.header 8 4
    let number := if next = 0 then 1 else next
    let session :=
      { Context.empty with
        condition := .live, role := .bank, card := x.context.card, number := BitVec.ofNat 32 number
        chain := { first := 65535, second := 65535, third := 65535 }, startTime := s.mode.partTime
        funding := [{ kind := .bank, account := 65535, slot := 0, hold := taken, committed := 0
                      grants := [⟨BitVec.ofNat 64 (m.param s.slot 8 8), taken⟩] }] }
    (0 < taken → x.noService = false → need ≤ taken → x.line.live.fed = 0 →
      ∃ t, exec .authAnswer s = .next t ∧
        Answered s t (if x.auth.amount < offered then .clamped else .done) [(4, taken), (4, number)] ∧
        OrderKeeps (· = i) (fun a => inHeaderField 4 2 a ∨ inHeaderField 8 4 a ∨ inHeaderRest a) s t ∧
        t.floor.store.header 8 4 = (if number = 4294967295 then 1 else number + 1) ∧
        t.floor.station i = finished s.mode x
          { x with
            state := .opened, auth := x.auth.shut
            line := { x.line with pace := 0, matched := .zero, lastExit := 0 }
            context := session, link := x.link.offer (showOn 1 .balance taken 0) }) ∧
    (0 < taken → x.noService = false → need ≤ taken → x.line.live.fed ≠ 0 → OffsetLaw s →
      ∃ t, exec .authAnswer s = .next t ∧
        Answered s t (if x.auth.amount < offered then .clamped else .done) [(4, taken), (4, number)] ∧ t.mode = s.mode ∧
        KeepsOthers i s.floor t.floor ∧ TallyClosed s.mode i .sessionOpened x.line.live s.floor t.floor ∧
        t.floor.store.header 8 4 = (if number = 4294967295 then 1 else number + 1) ∧
        KeepsBytes (fun a => inAnswer s.port.ordDone a ∨ inRecord i a ∨ inHeader a ∨ inStream a ∨ inAccounts a)
          s.floor t.floor ∧
        let y := t.floor.station i
        y.state = .opened ∧ y.context = session ∧ y.auth = x.auth.shut ∧ y.line.pace = 0 ∧ y.line.inPath = x.line.inPath ∧
        y.link = x.link.offer (showOn 1 .balance taken 0))

/-- PRICE SWITCH (R38): an invalid inactive page is BAD VALUE with the failure and its number, and nothing changes; a valid one
becomes the active page, every station's guard record is computed from it (R35), and no account, sheet or committed amount is
repriced (R39). The stations are taken in ascending number (log 17): each has its guard record computed, and a guard value that
differs from the old one leads to a funding check where the station has a live session (R36), on what the stations before it have
left: a station in OPEN, LOW or RECOVERY is then in LOW where its guard is not met, and else in OPEN or still in RECOVERY, as
FundingCheckDecidesTheState says (R81; log 32 for top-ups, log 43 for a hold need of 0, log 47 for a request asked for there).
Where no station has a live session nothing else changes (log 13, log 15 for edit counts and drain starts). -/
def Obligations.PriceSwitchChangesThePage : Prop :=
  ∀ s : State, EnableLaw s → OffsetLaw s → OrderAt s 12 →
    let m := s.floor.store
    let other : Page := if s.mode.page = .a then .b else .a
    (∀ kind number, m.pageFailure other = some (kind, number) →
      RefusedWith .priceSwitch s .badValue [(1, 0), (1, kind), (1, number)]) ∧
    (m.pageFailure other = none → ∃ t, exec .priceSwitch s = .next t ∧
      Answered s t .done [(1, other.code), (1, 0), (1, 0), (1, 0), (4, m.pageLabel other)] ∧
      t.mode = { s.mode with page := other } ∧
      (∀ i, let x := s.floor.station i
        let y := t.floor.station i
        let served := classIds.filter fun k => x.copy.allows k && m.sold other k
        y.noService = served.isEmpty ∧
        y.guardValue = (x.copy.lagSheets + 1) * (served.map (m.basePrice other)).foldl max 0 ∧ y.copy = x.copy ∧
        y.line.inPath = x.line.inPath ∧ (y.state ≠ .low → y.jam.lost = x.jam.lost) ∧
        y.context.number = x.context.number ∧
        ∀ (k : Nat) (en : FundingEntry), x.context.funding[k]? = some en →
          ∃ en', y.context.funding[k]? = some en' ∧ en'.committed = en.committed) ∧
      (let switched := fun (f : Floor) (i : StationId) =>
         let x := f.station i
         let y := { x with guardValue := guardValueOf m other x.copy, noService := noServiceOf m other x.copy }
         let g := f.onStation i fun _ => y
         if y.guardValue ≠ x.guardValue ∧ (x.context.condition = .live ∨ x.context.condition = .ending) then
           fundingCheck { s.mode with page := other } i g
         else g
       let checked := stationIds.foldl switched s.floor
       t.floor.waitQueue = checked.waitQueue ∧ t.floor.dropped = checked.dropped ∧ t.floor.rptWr = checked.rptWr ∧
       t.floor.irqFlag = checked.irqFlag ||| 1 ∧
       (∀ i, t.floor.station i = finished t.mode (s.floor.station i) (checked.station i)) ∧
       (∀ a, ¬ inAnswer s.port.ordDone a → ¬ inRecords a → t.floor.readByte a = checked.readByte a) ∧
       ∀ i, let x := s.floor.station i
         let y := t.floor.station i
         x.context.condition = .live → x.state = .opened ∨ x.state = .low ∨ x.state = .recovery → y.guardValue ≠ x.guardValue →
         y.state = if y.fundsPass then (if x.state = .recovery then .recovery else .opened) else .low) ∧
      ((∀ i, (s.floor.station i).context.condition ≠ .live ∧ (s.floor.station i).context.condition ≠ .ending) →
        t.floor.irqFlag = s.floor.irqFlag ||| 1 ∧ t.floor.waitQueue = s.floor.waitQueue ∧
        t.floor.rptWr = s.floor.rptWr ∧
        KeepsBytes (fun a => inAnswer s.port.ordDone a ∨ inRecords a) s.floor t.floor ∧
        ∀ i, let x := s.floor.station i
          t.floor.station i = finished t.mode x
            { x with guardValue := (t.floor.station i).guardValue, noService := (t.floor.station i).noService }))

/-- STATION OUT while the part runs (R97): WRONG STATE at an OUT station; an IDLE one enters OUT with cause STAFF, dropping the
strays of its path and handing on a STATION notice (R20, R98, R180); a FUNDING one is first shown OUT OF SERVICE with an EJECT,
its request closed and its context cleared, and a card in the next-card slot is answered OUT OF SERVICE (R75); a live session ends
with cause STAFF and the station is out pending; any other station is out pending. STATION IN in RUNNING (R99): WRONG STATE at a
station that is not OUT; else the station has a fresh working copy of its clamped profile, a fresh guard record (R35), filters
taken from the next sample of its lines (R2; log 5 for the samples) and no out cause, and is IDLE, or JAMMED where that sample
finds FAULT active; the answer gives guard, hold need and no-service mark; the clamped fields are counted (R165). A live tally
that is not empty at entry to OUT is closed with cause OUT, the strays of the path counted lost in it, and its settlement is
written or waits (R19, R98; log 37 for STOPPING). At STATION IN the link unit takes up the copy's serial fields: a change of
format takes the link down, a change of accepted media that changes the agreed readers is told by a WELCOME, and with neither the
link is left as it is, but for the SHOW of a jam (R41, R61, R116). A link so taken down hands on its STATION notice (R52), then the
entry to service hands on its own (R99, R180), and only then is the jam of an active FAULT declared (the model's order, log 39), its
JAM report written with room and else waiting (R119, R178). Edit counts and drain starts are those of log 13 and log 15.
That the kind, amount, id and times of a request closed by STATION OUT read 0 in the record afterwards is the model's choice (log
47). -/
def Obligations.StationsLeaveAndReturn : Prop :=
  (∀ (i : StationId) (s : State), EnableLaw s → s.mode.run = .running ∨ s.mode.run = .stopping → OrderAt s 13 →
     s.floor.store.param s.slot 0 1 = i.val + 1 →
     let x := s.floor.station i
     let pending := { x with outPending := if x.outPending = .none then .staff else x.outPending }
     (x.state = .out → RefusedWith .stationOut s .wrongState []) ∧
     (x.state = .idle → x.line.live.fed = 0 → x.nextCard = none → OffsetLaw s →
       ∃ t, exec .stationOut s = .next t ∧ Answered s t .accepted [] ∧ t.mode = s.mode ∧
         t.floor.station i = finished s.mode x
           { x with
             state := .out, outCause := .staff, outPending := .none
             line := { x.line with
               inPath := [], live := { x.line.live with lost := min (x.line.live.lost + x.line.inPath.length) 65535 } }
             link := x.link.offer (showOn 1 .outOfService 0 0) } ∧
         (∀ j, j ≠ i → t.floor.station j = s.floor.station j) ∧ t.floor.waitQueue = s.floor.waitQueue ∧
         (t.floor.dropped = true ∨ ReportHeaderAt t.floor.store (reportPlace s.floor.rptWr 16) 16 .station (i.val + 1)
           s.mode.partTime) ∧
         KeepsBytes (fun a => inAnswer s.port.ordDone a ∨ inRecord i a ∨ inReport s.floor.rptWr 16 a) s.floor t.floor) ∧
     (x.state = .idle → x.line.live.fed ≠ 0 → x.nextCard = none → OffsetLaw s →
       ∃ t, exec .stationOut s = .next t ∧ Answered s t .accepted [] ∧ t.mode = s.mode ∧
         TallyClosed s.mode i .out
           { x.line.live with lost := min (x.line.live.lost + x.line.inPath.length) 65535 } s.floor t.floor ∧
         (∀ j, j ≠ i → t.floor.station j = s.floor.station j) ∧
         KeepsBytes (fun a => inAnswer s.port.ordDone a ∨ inRecord i a ∨ inStream a ∨ inAccounts a) s.floor t.floor ∧
         let y := t.floor.station i
         y.state = .out ∧ y.outCause = .staff ∧ y.outPending = .none ∧ y.line.inPath = [] ∧ y.line.enable = false ∧
         y.context = x.context ∧ y.link = x.link.offer (showOn 1 .outOfService 0 0)) ∧
     (x.state = .funding → x.line.live.fed = 0 → x.nextCard = none →
       ∃ t, exec .stationOut s = .next t ∧ Answered s t .accepted [] ∧ t.mode = s.mode ∧
         (∀ j, j ≠ i → t.floor.station j = s.floor.station j) ∧
         t.floor.station i = finished s.mode x
           { (x.refusal .outOfService 0 0).givenUp with
             state := .out, outCause := .staff, outPending := .none
             line := { x.line with
               inPath := [], live := { x.line.live with lost := min (x.line.live.lost + x.line.inPath.length) 65535 } }
             link := (x.refusal .outOfService 0 0).link.offer (showOn 1 .outOfService 0 0) }) ∧
     (x.state = .idle ∨ x.state = .funding → OffsetLaw s →
       let y := if x.state = .funding then
         { (x.refusal .outOfService 0 0).givenUp with state := .funding } else x
       let f := s.floor.onStation i fun _ => y
       ∃ (d : Floor) (t : State), WentOut s.mode i .staff f d ∧ exec .stationOut s = .next t ∧ Answered s t .accepted [] ∧
         t.mode = s.mode ∧ t.floor.waitQueue = d.waitQueue ∧ t.floor.dropped = d.dropped ∧ t.floor.rptWr = d.rptWr ∧
         (∀ j, t.floor.station j = finished s.mode (s.floor.station j) (d.station j)) ∧
         ∀ a, ¬ inAnswer s.port.ordDone a → ¬ inRecords a → t.floor.readByte a = d.readByte a) ∧
     (x.state ≠ .out → x.state ≠ .idle → x.state ≠ .funding → x.context.condition = .live →
       OrderChangesTo .stationOut i s .accepted [] (pending.ended s.mode.partTime .staff)) ∧
     (x.state ≠ .out → x.state ≠ .idle → x.state ≠ .funding → x.context.condition ≠ .live →
       OrderChangesTo .stationOut i s .accepted [] pending)) ∧
  (∀ (i : StationId) (s : State), EnableLaw s → OffsetLaw s → s.mode.run = .running → OrderAt s 14 →
     s.floor.store.param s.slot 0 1 = i.val + 1 →
     let m := s.floor.store
     let x := s.floor.station i
     let copy := (m.profile i).clamped
     (x.state ≠ .out → RefusedWith .stationIn s .wrongState []) ∧
     (x.state = .out → ∃ t, let y := t.floor.station i
       exec .stationIn s = .next t ∧
       Answered s t .done [(4, y.guardValue), (2, (y.guardValue + 999) / 1000), (1, bit y.noService)] ∧ t.mode = s.mode ∧
       y.copy = copy ∧ y.guardValue = guardValueOf m s.mode.page copy ∧ y.noService = noServiceOf m s.mode.page copy ∧
       y.outCause = .none ∧ y.line.feed = copy.isActive 0 x.line.comingSample.feed ∧
       y.line.exit = copy.isActive 1 x.line.comingSample.exit ∧ y.line.fault = copy.isActive 2 x.line.comingSample.fault ∧
       y.line.feedCount = 0 ∧ y.line.exitCount = 0 ∧ y.line.faultCount = 0 ∧
       y.state = (if copy.isActive 2 x.line.comingSample.fault then .jammed else .idle) ∧
       y.line.drainStart = s.mode.partTime ∧ y.line.pace = 0 ∧ y.line.enable = false ∧
       (let link := x.link.serialTaken x.copy copy
        (y.state = .idle → y.link = link) ∧
        (y.state = .jammed → x.line.inPath = [] → y.link = link.offer (showOn 1 .jam 0 0))) ∧
       y.line.lifetimeFeed = x.line.lifetimeFeed ∧ y.line.lifetimeExit = x.line.lifetimeExit ∧
       t.floor.store.header 6 2 = min (m.header 6 2 + (m.profile i).clampCount) 65535 ∧
       (∃ f h n g : Floor,
         f = { s.floor with store := f.store } ∧ (∀ p, ¬ inHeader p → f.store.read p = m.read p) ∧
         (if x.link.up = true ∧ ¬ (x.copy.rate = copy.rate ∧ x.copy.parity = copy.parity ∧ x.copy.stopBits = copy.stopBits) then
            NoticeHandled s.mode (i.val + 1) .linkDown .none x.reportedNumber f h
          else h = { f with stations := h.stations }) ∧
         NoticeHandled s.mode (i.val + 1) .entered .none x.reportedNumber h n ∧ KeepsOthers i s.floor n ∧
         (let z := n.station i
          z.state = .idle ∧ z.copy = copy ∧ z.context = x.context ∧ z.jam = x.jam ∧ z.line.inPath = x.line.inPath ∧
            z.line.live = x.line.live ∧ z.link = x.link.serialTaken x.copy copy) ∧
         (if copy.isActive 2 x.line.comingSample.fault then JamDeclared s.mode i .copier [] n g else g = n) ∧
         t.floor.waitQueue = g.waitQueue ∧ t.floor.dropped = g.dropped ∧ t.floor.rptWr = g.rptWr ∧
         t.floor.irqFlag = g.irqFlag ||| 1 ∧ y = finished s.mode x (g.station i) ∧
         ∀ a, ¬ inAnswer s.port.ordDone a → ¬ inRecords a → t.floor.readByte a = g.readByte a) ∧
       (∀ j, j ≠ i → t.floor.station j = s.floor.station j) ∧
       KeepsBytes (fun a => inAnswer s.port.ordDone a ∨ inRecord i a ∨ inStream a ∨ inHeader a ∨ inAccounts a)
         s.floor t.floor))

/-- JAM ACK while the part runs (R129) answers from a HELD jam record and empties it, and is NOT FOUND on an EMPTY one. SESSION
END (R96) ends a LIVE session with cause STAFF, gives up a FUNDING wait with DECLINED and an EJECT (in RUNNING and with an empty
next-card slot, where every funding wait stands: R75, R100), and is WRONG STATE in any other condition. Edit counts and drain
starts are those of log 13 and log 15. That the kind, amount, id and times of the request that SESSION END closes read 0 in the
record afterwards is the model's choice (log 47). -/
def Obligations.JamAckAndSessionEnd : Prop :=
  ∀ (i : StationId) (s : State), EnableLaw s → s.mode.run = .running ∨ s.mode.run = .stopping →
    s.floor.store.param s.slot 0 1 = i.val + 1 →
    let x := s.floor.station i
    (OrderAt s 15 →
      (x.jam.record = none → RefusedWith .jamAck s .notFound []) ∧
      (∀ r overflow, x.jam.record = some (r, overflow) →
        OrderChangesTo .jamAck i s .done
          [(4, r.declared.toNat), (2, r.number.toNat % 65536), (1, r.cause.code), (1, overflow)]
          { x with jam := { x.jam with record := none } })) ∧
    (OrderAt s 16 →
      (x.context.condition = .live →
        OrderChangesTo .sessionEnd i s .accepted [(4, x.context.number.toNat)] (x.ended s.mode.partTime .staff)) ∧
      (x.context.condition = .funding → x.nextCard = none → s.mode.run = .running →
        OrderChangesTo .sessionEnd i s .accepted [] (x.refusal .declined 0 0).givenUp) ∧
      (x.context.condition ≠ .live → x.context.condition ≠ .funding → RefusedWith .sessionEnd s .wrongState []))

/-! ### Copier lines -/

/-- Line events that make or move no sheet of the part: a change that is not due, because the samples have not shown the new level
for the debounce time, is not taken (R1; log 3, log 5); a FEED or an EXIT while the part is STOPPED or the station OUT is only
counted (R4, R20); a taken change of FEED or EXIT to the inactive level sets the filtered level (R1); an EXIT that finds no sheet
is an orphan (R10); and a change of FAULT that declares no jam sets the level, and in JAMMED a change to inactive sets the
settle start (R5, R121). Edit counts are those of log 13. -/
def Obligations.LineEventsWithoutASheet : Prop :=
  ∀ (i : StationId) (s : State), EnableLaw s → s.mode.run ≠ .clearing →
    let x := s.floor.station i
    (∀ p q r, ¬ FeedDue true x → exec (.feedEvent i p q r) s = .next s) ∧
    (¬ ExitDue true x → exec (.exitEvent i) s = .next s) ∧
    (¬ FeedDue false x → exec (.takenChange i .feed) s = .next s) ∧
    (¬ ExitDue false x → exec (.takenChange i .exit) s = .next s) ∧
    (∀ active, ¬ FaultDue active x → exec (.faultChange i active) s = .next s) ∧
    (∀ p q r, FeedDue true x → inService s.mode x = false → ChangesTo (.feedEvent i p q r) i s
      { x with line := { x.line with
          feed := true, feedCount := 0, lifetimeFeed := min (x.line.lifetimeFeed + 1) 4294967295 } }) ∧
    (ExitDue true x → inService s.mode x = false → ChangesTo (.exitEvent i) i s { x with line := x.exited }) ∧
    (ExitDue true x → inService s.mode x = true → x.line.inPath = [] → x.jam.lost = [] ∨ (x.state ≠ .jammed ∧ x.state ≠ .recovery) →
      ChangesTo (.exitEvent i) i s { x with line := { x.exited with orphans := min (x.line.orphans + 1) 65535 } }) ∧
    (FeedDue false x →
      ChangesTo (.takenChange i .feed) i s { x with line := { x.line with feed := false, feedCount := 0 } }) ∧
    (ExitDue false x →
      ChangesTo (.takenChange i .exit) i s { x with line := { x.line with exit := false, exitCount := 0 } }) ∧
    (∀ active : Bool, FaultDue active x → inService s.mode x = false ∨ x.state = .jammed →
      ChangesTo (.faultChange i active) i s
        { x with
          line := { x.line with fault := active, faultCount := 0 }
          jam := { x.jam with
            settleStart := if inService s.mode x = true ∧ active = false then s.mode.partTime else x.jam.settleStart } }) ∧
    (FaultDue false x → inService s.mode x = true → x.state ≠ .jammed →
      ChangesTo (.faultChange i false) i s { x with line := { x.line with fault := false, faultCount := 0 } })

/-- A FEED in service without a live session is a stray (R7): priced at rate 0 (R27), charged to the live tally (R18), and put at the
end of the path when it has room (R8); in JAMMED with a full path it is lost at feed instead (R118), and at any other station with a
full path it declares a jam with cause OVERFULL (R8, R116). The stray that makes the live tally's fed count 1,000 closes the tally
(R19), before the sheet is placed: with room its settlement is written at once and applied to the house account by R158, and no
tally is left; without room the closed tally waits with the tally's counts, cause COUNT and the working copy's house account, and
the station joins the wait queue (R178); into a closed tally that waits already it is added. So is a live tally closed that is found
at 1,000 or more (log 38). A closed tally that only the host has marked waiting is added to alike and not written (log 54). In
STOPPING a stray fed at an IDLE station closes the live tally for the stop after it is placed (R19). The order of this work is
log 19. Edit counts are those of log 13 and log 14, and drain starts those of log 15. -/
def Obligations.FeedMakesAStray : Prop :=
  (∀ (i : StationId) (size colour sides : Bool) (s : State), EnableLaw s → s.mode.run = .running →
     let x := s.floor.station i
     let m := s.floor.store
     let k := readClass x.copy size colour sides
     let price := if m.sold s.mode.page k = true then m.basePrice s.mode.page k else x.copy.fallback
     let sheet := fedSheet s.mode x size colour sides price .stray
     let tally := { x.line.live with
       fed := x.line.live.fed + 1, price := min (x.line.live.price + price) 281474976710655 }
     let y := x.fedInto s.mode m sheet
     FeedDue true x → x.state ≠ .out → x.context.condition ≠ .live → x.context.condition ≠ .ending →
     x.line.live.fed < 999 →
     (x.line.inPath.length < x.copy.pathDepth →
       ChangesTo (.feedEvent i size colour sides) i s { y with line := { y.line with live := tally } }) ∧
     (x.copy.pathDepth ≤ x.line.inPath.length → x.state = .jammed →
       ChangesTo (.feedEvent i size colour sides) i s
         { y with line := { y.line with
             inPath := x.line.inPath, live := { tally with lost := min (tally.lost + 1) 65535 } } })) ∧
  (∀ (i : StationId) (size colour sides : Bool) (s : State), EnableLaw s → OffsetLaw s → s.mode.run = .running →
     let x := s.floor.station i
     let y := fun t : State => t.floor.station i
     let wr := s.floor.rptWr
     let room := s.floor.waitQueue = [] ∧ roomNeeded wr 96 ≤ freeRoom wr s.mode.rptRd
     FeedDue true x → x.state ≠ .out → x.context.condition ≠ .live → x.context.condition ≠ .ending →
     x.line.inPath.length < x.copy.pathDepth → x.line.live.fed = 999 → x.line.closed.waiting = false → x.copy.house < 1024 →
     ∃ t price, exec (.feedEvent i size colour sides) s = .next t ∧
       (y t).line.inPath.map Sheet.price = x.line.inPath.map Sheet.price ++ [price] ∧ (y t).line.live = .zero ∧
       (∀ j, j ≠ i → t.floor.station j = s.floor.station j) ∧
       (¬ room → t.floor.store = s.floor.store ∧ t.floor.waitQueue = s.floor.waitQueue ++ [.stray i] ∧
         (y t).line.closed =
           { tally := { x.line.live with fed := 1000, price := min (x.line.live.price + price) 281474976710655 }
             house := x.copy.house, waiting := true, time := s.mode.partTime, cause := .count }) ∧
       (room → t.floor.waitQueue = [] ∧ (y t).line.closed = .zero ∧ t.floor.rptWr = offsetAfter wr 96 ∧
         t.floor.flag .report = true ∧
         ReportHeaderAt t.floor.store (reportPlace wr 96) 96 .settlement (i.val + 1) s.mode.partTime ∧
         let n := houseOrZero s.floor.store x.copy.house
         let units : Nat := (min (x.line.live.price + price) 281474976710655 + 500) / 1000
         t.floor.store.account n = (s.floor.store.account n).charged units ∧
         KeepsBytes (fun p => inRecord i p ∨ inAccount n p ∨ inReport wr 96 p) s.floor t.floor)) ∧
  ∀ (i : StationId) (size colour sides : Bool) (s : State), EnableLaw s → OffsetLaw s →
    inService s.mode (s.floor.station i) = true →
    let x := s.floor.station i
    let sheet := straySheet s.mode s.floor.store x size colour sides
    FeedDue true x → x.context.condition ≠ .live → x.context.condition ≠ .ending →
    ∃ d g h : Floor, StrayCharged i sheet s d ∧
      (if x.line.inPath.length < x.copy.pathDepth then
         g = d.onStation i fun z => { z with line := { z.line with inPath := x.line.inPath ++ [sheet] } }
       else if x.state = .jammed then
         g = d.onStation i fun z =>
           { z with line := { z.line with live := { z.line.live with lost := min (z.line.live.lost + 1) 65535 } } }
       else JamDeclared s.mode i .overfull [sheet] d g) ∧
      (if s.mode.run = .stopping ∧ x.state = .idle then ClosesTally s.mode i .stop g h else h = g) ∧
      EndsWith (.feedEvent i size colour sides) s h

/-- A FEED in service at a station with a live session is charged to the last funding entry (R7, R33, R80): its price, at the
tier's rate for an ACCOUNT entry of an account with its tier flag set and else at rate 0 (R27, R28, R31), joins the committed
amount, its faces join the in-flight faces of the account the entry names (R28), the fed count rises, and the lag count with it
when ENABLE was inactive (R9). Where no funding check is made, or it finds the guard met, nothing else changes (log 19); in OPEN,
LOW and RECOVERY the funding check decides what follows, as FundingCheckDecidesTheState says (R81; log 32 for top-ups, log 47 for
a request asked for there). At a JAMMED station whose path is full the sheet is charged so and at once lost at feed, credited or
charged (R8, R117, R118). Edit counts are those of log 13 and log 14, and drain starts those of log 15. -/
def Obligations.FeedIsChargedToTheSession : Prop :=
  ∀ (i : StationId) (size colour sides : Bool) (before : List FundingEntry) (last : FundingEntry) (s : State),
    EnableLaw s → EvenLaw s → s.mode.run = .running ∨ s.mode.run = .stopping →
    let x := s.floor.station i
    let m := s.floor.store
    let k := readClass x.copy size colour sides
    let a := m.account last.account
    let rate := if last.kind = .account ∧ a.tier = true then m.rate s.mode.page (tierAt m s.mode.page a.position) else 0
    let base := m.basePrice s.mode.page k
    let price := if m.sold s.mode.page k = true then base - base * rate / 1000 else x.copy.fallback
    let charged := { last with committed := min (last.committed + price) 281474976710655 }
    let sheet := fedSheet s.mode x size colour sides price (.entry (Fin.ofNat 3 before.length))
    let named := (last.kind = .account ∨ last.kind = .house) ∧ last.account < 1024
    let flight := min (a.inFlight.toNat + if k.val % 2 = 1 then 2 else 1) 4294967295
    let y := { x.fedInto s.mode m sheet with
      context := { x.context with
        funding := before ++ [charged], fed := x.context.fed + 1
        lagFeeds := x.context.lagFeeds + if x.line.enable then 0 else 1 } }
    FeedDue true x → x.state ≠ .out → x.context.condition = .live ∨ x.context.condition = .ending →
    x.context.funding = before ++ [last] →
    (x.state ≠ .low → x.line.inPath.length < x.copy.pathDepth → (x.state ≠ .opened ∧ x.state ≠ .recovery) ∨ x.context.role = .service ∨
      (x.guardValue : Int) ≤ (charged.hold : Int) * 1000 - charged.committed →
      ChangesToAnd (fun p => named ∧ inAccount last.account p)
        (fun after => named → after.account last.account = edited a { a with inFlight := BitVec.ofNat 32 flight })
        (.feedEvent i size colour sides) i s y) ∧
    (x.state = .opened ∨ x.state = .low ∨ x.state = .recovery → x.line.inPath.length < x.copy.pathDepth →
      let fed := { s.floor with
        store := if named then m.editAccount last.account fun a => { a with inFlight := BitVec.ofNat 32 flight } else m
        stations := s.floor.stations.set i { y with line := { y.line with inPath := x.line.inPath } } }
      let checked := fundingCheck s.mode i fed
      ∃ t, exec (.feedEvent i size colour sides) s = .next t ∧ KeepsOutside s t ∧
        t.floor = { checked with stations := t.floor.stations } ∧ KeepsOthers i s.floor t.floor ∧
        let z := checked.station i
        t.floor.station i = finished s.mode x { z with line := { z.line with inPath := x.line.inPath ++ [sheet] } }) ∧
    (x.state = .jammed → before.length < 3 → x.copy.pathDepth ≤ x.line.inPath.length →
      let credit := decide (x.context.lostCredited < x.copy.creditCap)
      ChangesToAnd (fun p => named ∧ inAccount last.account p)
        (fun after => named → let b := after.account last.account
          b = { a with
            inFlight := BitVec.ofNat 32 (flight - if k.val % 2 = 1 then 2 else 1), editCount := b.editCount })
        (.feedEvent i size colour sides) i s
        { y with
          line := { y.line with inPath := x.line.inPath }
          context := { y.context with
            funding := before ++ [if credit then { charged with committed := charged.committed - price } else charged]
            lostCredited := x.context.lostCredited + bit credit, lostCharged := x.context.lostCharged + bit !credit } })

/-- An EXIT matched to an in-path stray advances the live tally's delivered count; no account field and no session count changes,
and no SHOW is queued, also when a session has opened since (R12). The pace measurement goes on (R13), and in RECOVERY the delivery
is counted (R127). Edit counts and drain starts are those of log 13 and log 15, the model's choices. -/
def Obligations.ExitDeliversAStray : Prop :=
  ∀ (i : StationId) (sheet : Sheet) (rest : List Sheet) (s : State), EnableLaw s → inService s.mode (s.floor.station i) = true →
    let x := s.floor.station i
    ExitDue true x → x.line.inPath = sheet :: rest → sheet.target = .stray →
    ChangesTo (.exitEvent i) i s
      (Station.recoveryCounted
        { x with line := { x.exited.paced s.mode.partTime with
            inPath := rest, live := { x.line.live with delivered := min (x.line.live.delivered + 1) 65535 } } })

/-- An EXIT matched to an in-path sheet of the session delivers it (R11): the oldest entry leaves the path, the session's count
of its class rises, a SHOW with the remaining units and the delivered total is offered, or SERVICE in a service session, and the
account its entry names has its in-flight faces lowered and its delivered faces raised (R136, R159). The total shown is taken
from full counts (log 24); edit counts and drain starts are those of log 13, log 14 and log 15. -/
def Obligations.ExitDeliversASessionSheet : Prop :=
  ∀ (i : StationId) (sheet : Sheet) (rest : List Sheet) (k : Fin 3) (entry : FundingEntry) (s : State),
    EnableLaw s → inService s.mode (s.floor.station i) = true →
    let x := s.floor.station i
    let faces := if sheet.cls.val % 2 = 1 then 2 else 1
    let a := s.floor.store.account entry.account
    let total := x.context.delivered.toList.sum + 1
    let named := (entry.kind = .account ∨ entry.kind = .house) ∧ entry.account < 1024
    let display := if x.context.role = .service then showOn 1 .service 0 total else showOn 1 .remaining x.lastUnits total
    ExitDue true x → x.line.inPath = sheet :: rest → sheet.target = .entry k → x.context.funding[k.val]? = some entry →
    ChangesToAnd (fun p => named ∧ inAccount entry.account p)
      (fun after => named → after.account entry.account =
        edited a { a with
          inFlight := BitVec.ofNat 32 (a.inFlight.toNat - faces)
          delivered := BitVec.ofNat 32 (min (a.delivered.toNat + faces) 4294967295)
          faces := a.faces.set sheet.cls (BitVec.ofNat 32 (min (a.faces[sheet.cls].toNat + faces) 4294967295)) })
      (.exitEvent i) i s
      (Station.recoveryCounted
        { x with
          line := { x.exited.paced s.mode.partTime with inPath := rest }
          context := { x.context with delivered := x.context.delivered.set sheet.cls (x.context.delivered[sheet.cls] + 1) }
          link := x.link.offer display })

/-- An EXIT with an empty path in JAMMED or RECOVERY delivers the oldest lost sheet late (R10, R124, R125): a STRAY changes the
live tally alone; a CREDITED one is charged again to its entry and leaves the lost-credited count, and a CHARGED one leaves the
lost-charged count; either is counted delivered to the session and its account and shown. After a CREDITED one in RECOVERY a
funding check follows (R81): where it finds the guard met nothing else changes, and else it decides what follows, as
FundingCheckDecidesTheState says: the station stays in RECOVERY where funds are found, and is in LOW, its lost list final, where
they are not (R83, R126; log 32 for top-ups, log 43 for a hold need of 0, log 47 for a request asked for there). The delivered
total shown is taken from full counts (log 24); edit counts and drain starts are those of log 13, log 14 and log 15. -/
def Obligations.ExitDeliversALostSheet : Prop :=
  ∀ (i : StationId) (lost : LostSheet) (rest : List LostSheet) (s : State), EnableLaw s → EvenLaw s →
    inService s.mode (s.floor.station i) = true →
    let x := s.floor.station i
    let sheet := lost.sheet
    let faces := if sheet.cls.val % 2 = 1 then 2 else 1
    let total := x.context.delivered.toList.sum + 1
    let jam := { x.jam with lost := rest }
    let line := x.exited.paced s.mode.partTime
    ExitDue true x → x.state = .jammed ∨ x.state = .recovery → x.line.inPath = [] → x.jam.lost = lost :: rest →
    (lost.fate = .stray → ChangesTo (.exitEvent i) i s
      { x with
        jam := jam
        line := { line with live := { x.line.live with
          delivered := min (x.line.live.delivered + 1) 65535, lost := x.line.live.lost - 1 } } }) ∧
    ∀ (k : Fin 3) (entry : FundingEntry), lost.fate ≠ .stray → sheet.target = .entry k →
      x.context.funding[k.val]? = some entry →
      let a := s.floor.store.account entry.account
      let named := (entry.kind = .account ∨ entry.kind = .house) ∧ entry.account < 1024
      let again := { entry with committed := min (entry.committed + sheet.price) 281474976710655 }
      let funding := if lost.fate = Fate.credited then x.context.funding.set k.val again else x.context.funding
      let y := { x with
        jam := jam, line := line
        context := { x.context with
          funding := funding
          delivered := x.context.delivered.set sheet.cls (x.context.delivered[sheet.cls] + 1)
          lostCredited := if lost.fate = Fate.credited then x.context.lostCredited - 1 else x.context.lostCredited
          lostCharged := if lost.fate = Fate.charged then x.context.lostCharged - 1 else x.context.lostCharged } }
      let display := if x.context.role = .service then showOn 1 .service 0 total else showOn 1 .remaining y.lastUnits total
      let counted := fun b : Account => { b with
        delivered := BitVec.ofNat 32 (min (b.delivered.toNat + faces) 4294967295)
        faces := b.faces.set sheet.cls (BitVec.ofNat 32 (min (b.faces[sheet.cls].toNat + faces) 4294967295)) }
      ((lost.fate = .credited → x.state = .recovery → y.fundsPass = true) →
        ChangesToAnd (fun p => named ∧ inAccount entry.account p)
          (fun after => named → after.account entry.account = edited a (counted a))
          (.exitEvent i) i s { y with link := x.link.offer display }) ∧
      (lost.fate = .credited → x.state = .recovery →
        let late := { s.floor with
          store := if named then s.floor.store.editAccount entry.account counted else s.floor.store
          stations := s.floor.stations.set i { y with link := x.link.offer display } }
        let checked := fundingCheck s.mode i late
        let z := checked.station i
        EndsWith (.exitEvent i) s checked ∧
          (z.fundsPass = true → z.state = .recovery ∧ z.jam.lost = rest) ∧
          (z.fundsPass = false → z.state = .low ∧ z.jam.lost = [] ∧ z.lowStart = some s.mode.partTime))

/-! ### Jams -/

/-- What declares a jam at a station in service that is not JAMMED, and what the declaration leaves (R115 to R120), as JamDeclared
says it: a change of FAULT to active (COPIER), a sheet in the path for longer than the transit limit (TRANSIT), and a sheet fed into
a full path (OVERFULL, R8), in RUNNING and in STOPPING. The ENABLE of the JAMMED station is inactive. A stray that overfills the path
has been charged to the live tally first, which a fed count of 1,000 closes (R18, R19; log 38 above it), and in STOPPING a stray fed
at an IDLE station has the live tally closed for the stop after the jam (R19). A session's sheet has first been charged to the last
funding entry (R7), and the funding check has been made (R81) that leaves the station as it was where none is made or the guard is
met, and else decides its state and its entries, as FundingCheckDecidesTheState says (log 32 for top-ups, log 43 for a hold need of
0, log 47 for a request asked for there); the jam finds the station and the accounts as that check left them. The order of the work
inside a FEED is log 19. The jam phase keeps its values afterwards (log 25); edit counts are those of log 13 and log 14, and drain
starts those of log 15. -/
def Obligations.JamIsDeclared : Prop :=
  ∀ (i : StationId) (s : State), EnableLaw s → OffsetLaw s → EvenLaw s → inService s.mode (s.floor.station i) = true →
    let x := s.floor.station i
    let m := s.floor.store
    let ends := fun (c : Instr) (g : Floor) =>
      EndsWith c s g ∧ ∀ t, exec c s = .next t → (t.floor.station i).line.enable = false
    x.state ≠ .jammed →
    (FaultDue true x → ∃ g, ends (.faultChange i true) g ∧
      JamDeclared s.mode i .copier [] (s.floor.onStation i fun _ => { x with line := { x.line with fault := true, faultCount := 0 } })
        g) ∧
    (∀ oldest rest, x.line.inPath = oldest :: rest → x.copy.transitLimit < elapsed s.mode.partTime oldest.feedTime →
      ∃ g, ends (.transitCheck i) g ∧ JamDeclared s.mode i .transit [] s.floor g) ∧
    (FeedDue true x → x.copy.pathDepth ≤ x.line.inPath.length → ∀ size colour sides : Bool,
      (x.context.condition ≠ .live → x.context.condition ≠ .ending →
        let sheet := straySheet s.mode m x size colour sides
        ∃ d g h : Floor, StrayCharged i sheet s d ∧ JamDeclared s.mode i .overfull [sheet] d g ∧
          (if s.mode.run = .stopping ∧ x.state = .idle then ClosesTally s.mode i .stop g h else h = g) ∧
          ends (.feedEvent i size colour sides) h) ∧
      ∀ before last, x.context.condition = .live ∨ x.context.condition = .ending → x.context.funding = before ++ [last] →
        before.length < 3 →
        let k := readClass x.copy size colour sides
        let price := sheetPrice m s.mode.page x.copy k (chargeRate m s.mode.page last)
        let sheet := fedSheet s.mode x size colour sides price (.entry (Fin.ofNat 3 before.length))
        let named := (last.kind = .account ∨ last.kind = .house) ∧ last.account < 1024
        let noted := x.fedInto s.mode m sheet
        let fed := { s.floor with
          store := if named then m.editAccount last.account fun a => { a with
            inFlight := BitVec.ofNat 32 (min (a.inFlight.toNat + facesOf k) 4294967295) } else m
          stations := s.floor.stations.set i { noted with
            line := { noted.line with inPath := x.line.inPath }
            context := { x.context with
              funding := before ++ [{ last with committed := min (last.committed + price) 281474976710655 }]
              fed := x.context.fed + 1, lagFeeds := x.context.lagFeeds + if x.line.enable then 0 else 1 } } }
        let checked := fundingCheck s.mode i fed
        (x.state ≠ .low → (x.state ≠ .opened ∧ x.state ≠ .recovery) ∨ (fed.station i).fundsPass = true → checked = fed) ∧
        ∃ g, ends (.feedEvent i size colour sides) g ∧ JamDeclared s.mode i .overfull [sheet] checked g)

/-- A jam clears once FAULT is inactive, 2,000 ms have passed since the settle start and no JAM report waits (R122), and the
station moves on by R95 and R123. A LIVE session at the jam limit ends, the station out pending and DRAINING. A LIVE session below
it enters RECOVERY with its tracker and SHOW, and the funding check of that entry decides what follows, as
FundingCheckDecidesTheState says (R81): where the guard is met the station stays in RECOVERY, and where it is not met and no funds
are found it is in LOW, its lost list final (R83, R126). An ENDING or SETTLING session drains or settles on. With an EMPTY or
ABANDONED context an out-pending station goes OUT with the cause of its mark (R98; log 37 for a tally closed in STOPPING), and any
other is IDLE, as BecameIdle says: in STOPPING its live tally is closed for the stop (R19), and a next card is judged as any card
at an IDLE station (R76), refused in STOPPING. While a condition is open nothing happens (log 3). A recovery ends 60,000 ms after
its start (R127); every way out finalises the lost list (R126). The fields of a request closed at the jam limit are 0, and so are
those that a request asked for here does not hold (log 47); a card judged here rests on log 23, log 33 and log 43, and top-ups on
log 32. The jam phase and the recovery tracker keep their values afterwards (log 25), the delivered total shown is taken from full
counts (log 24), and edit counts and drain starts are those of log 13, log 14 and log 15. -/
def Obligations.JamsClearAndRecoveriesEnd : Prop :=
  ∀ (i : StationId) (s : State), EnableLaw s → EvenLaw s → s.mode.run = .running ∨ s.mode.run = .stopping →
    let x := s.floor.station i
    let now := s.mode.partTime
    let final := { x with jam := { x.jam with lost := [] } }
    let clears := x.state = .jammed ∧ x.line.fault = false ∧ 2000 ≤ elapsed now x.jam.settleStart ∧ x.jam.pendingReport = none
    (¬ clears → exec (.jamClears i) s = .next s) ∧
    (clears → x.context.condition = .live → x.context.jams < x.copy.jamLimit → x.fundsPass = true →
      ChangesTo (.jamClears i) i s
        { x with
          state := .recovery, jam := { x.jam with deliveries := 0, recoveryStart := now }
          link := x.link.offer (showOn 1 .remaining x.lastUnits x.context.totalDelivered) }) ∧
    (clears → x.context.condition = .live → x.context.jams < x.copy.jamLimit →
      let checked := fundingCheck s.mode i (s.floor.onStation i fun _ =>
        { x with
          state := .recovery, jam := { x.jam with deliveries := 0, recoveryStart := now }
          link := x.link.offer (showOn 1 .remaining x.lastUnits x.context.totalDelivered) })
      let y := checked.station i
      EndsWith (.jamClears i) s checked ∧
        (y.fundsPass = true → y.state = .recovery ∧ y.jam.lost = x.jam.lost) ∧
        (y.fundsPass = false → y.state = .low ∧ y.jam.lost = [] ∧ y.lowStart = some now)) ∧
    (clears → x.context.condition = .live → x.copy.jamLimit ≤ x.context.jams →
      ChangesTo (.jamClears i) i s
        { Station.ended now .jamLimit
            { final with outPending := if x.outPending = .none then .jamLimit else x.outPending } with
          state := .draining }) ∧
    (clears → x.context.condition = .ending → ChangesTo (.jamClears i) i s { final with state := .draining }) ∧
    (clears → x.context.condition = .settling → ChangesTo (.jamClears i) i s { final with state := .settling }) ∧
    (clears → x.context.condition = .empty → x.outPending = .none → x.nextCard = none → s.mode.run = .running →
      ChangesTo (.jamClears i) i s { final with state := .idle }) ∧
    (clears → x.context.condition = .empty ∨ x.context.condition = .abandoned → OffsetLaw s →
      let f := s.floor.onStation i fun _ => final
      ∃ g, EndsWith (.jamClears i) s g ∧
        if x.outPending = .none then BecameIdle s.mode i f g else WentOut s.mode i x.outPending f g) ∧
    (x.state = .recovery → 60000 ≤ elapsed now x.jam.recoveryStart →
      ChangesTo (.recoveryTimeout i) i s { final with state := .opened }) ∧
    (x.state ≠ .recovery ∨ elapsed now x.jam.recoveryStart < 60000 → exec (.recoveryTimeout i) s = .next s)

/-! ### Sessions -/

/-- The events that end a LIVE session end it as R88 says, each with its cause: the LOW timer (R84), the link-loss grace (R92),
KEY END (R86), CARD OUT (R89), a TICK that finds the card gone (R46), and a different card during the link-loss grace, which is
then held as the next card (R93). Edit counts and drain starts are those of log 13 and log 15. That the kind, amount, id and times
of the request closed with the session read 0 in the record afterwards is the model's choice (log 47). -/
def Obligations.EventsEndALiveSession : Prop :=
  ∀ (i : StationId) (s : State), EnableLaw s → s.mode.run ≠ .clearing →
    let x := s.floor.station i
    let now := s.mode.partTime
    let heard := x.heardFrame now
    let active := x.state = .opened ∨ x.state = .low ∨ x.state = .recovery ∨ x.state = .jammed
    x.context.condition = .live →
    (∀ start, x.state = .low → x.lowStart = some start → 1000 * x.copy.lowTime ≤ elapsed now start →
      ChangesTo (.lowTimerExpiry i) i s (x.ended now .lowTimeout)) ∧
    (∀ start, x.graceStart = some start → 10000 ≤ elapsed now start →
      ChangesTo (.linkLossGraceExpiry i) i s (x.ended now .linkLost)) ∧
    (x.link.up = true → x.link.agreed.keypad = true → inService s.mode x = true → active →
      ChangesTo (.keyEnd i) i s (heard.ended now .userEnd)) ∧
    (x.link.up = true → x.link.held.isSome = true → active →
      ChangesTo (.cardOut i) i s
        (Station.ended now .cardOut { heard with nextCard := none, link := { heard.link with held := none } })) ∧
    (∀ flags : Byte, x.link.up = true → x.link.held.isSome = true → active → flags.getLsbD 0 = false →
      ChangesTo (.tick i flags) i s
        (Station.ended now .cardOut
          { heard with nextCard := none, link := { heard.link with held := none, cardPresent := false } })) ∧
    (∀ (medium : Byte) (number : BitVec 64), cardFieldsValid medium number = true → x.link.up = true →
      inService s.mode x = true → x.graceStart.isSome = true →
      (if medium = 1 then x.link.agreed.shop else x.link.agreed.bank) = true →
      let card : Card := { medium := if medium = 1 then .shop else .bank, bytes := number }
      x.context.card ≠ some card →
      ChangesTo (.cardIn i medium number) i s
        { Station.ended now .cardOut { heard with link := { heard.link with held := some card } } with
          nextCard := some card })

/-- The events that give up a funding wait, in RUNNING and with an empty next-card slot, where every funding wait stands (R75,
R100), leave the request closed, the context EMPTY and the station IDLE (R107): KEY END with an EJECT (R86), CARD OUT and a TICK
that finds the card gone without a frame (R89, R46), the link-loss grace without a frame (R92), and the authorization timer of a
FIRST request with DECLINED and an EJECT; at an INCREMENT that timer sets stop-asking and shows DECLINED (R109). A different card
during the grace gives the wait up and is judged at the IDLE station as any card is: refused here as unknown, blocked or without
service, or as a BANK card waiting again, its request DEFERRED behind the report in the slot (R93, R69, R104), the new context
holding the card alone with an empty chain (log 23, log 33). A timer that has not run out changes nothing (log 3). Edit counts and
drain starts are those of log 13 and log 15. That the kind, amount, id and times of the closed request read 0 in the record
afterwards, and the id and times of the DEFERRED one, is the model's choice (log 47). -/
def Obligations.EventsGiveUpAFundingWait : Prop :=
  ∀ (i : StationId) (s : State), EnableLaw s → s.mode.run = .running →
    let x := s.floor.station i
    let now := s.mode.partTime
    let heard := x.heardFrame now
    let due := x.auth.state = .asked ∧ 1000 * x.copy.authTime ≤ elapsed now x.auth.written
    (x.state = .funding → x.link.up = true → x.link.agreed.keypad = true → x.nextCard = none →
      ChangesTo (.keyEnd i) i s (Station.givenUp { heard with link := heard.link.offer .eject })) ∧
    (x.state = .funding → x.link.up = true → x.link.held.isSome = true →
      ChangesTo (.cardOut i) i s
        (Station.givenUp { heard with nextCard := none, link := { heard.link with held := none } }) ∧
      ∀ flags : Byte, flags.getLsbD 0 = false → ChangesTo (.tick i flags) i s
        (Station.givenUp { heard with nextCard := none, link := { heard.link with held := none, cardPresent := false } })) ∧
    (∀ start, x.context.condition = .funding → x.graceStart = some start → 10000 ≤ elapsed now start → x.nextCard = none →
      ChangesTo (.linkLossGraceExpiry i) i s x.givenUp) ∧
    (due → x.auth.kind = .first → x.nextCard = none →
      ChangesTo (.authorizationTimerExpiry i) i s (x.refusal .declined 0 0).givenUp) ∧
    (due → x.auth.kind ≠ .first →
      ChangesTo (.authorizationTimerExpiry i) i s
        { x with
          auth := x.auth.shut, context := { x.context with stopAsking := true }
          link := x.link.offer (showOn (if 2 ≤ x.link.agreed.rows then 2 else 1) .declined 0 0) }) ∧
    (¬ due → exec (.authorizationTimerExpiry i) s = .next s) ∧
    ((∀ start, x.graceStart = some start → elapsed now start < 10000) → exec (.linkLossGraceExpiry i) s = .next s) ∧
    ((∀ start, x.lowStart = some start → elapsed now start < 1000 * x.copy.lowTime) →
      exec (.lowTimerExpiry i) s = .next s) ∧
    (∀ (medium : Byte) (number : BitVec 64), cardFieldsValid medium number = true → x.link.up = true →
      x.state = .funding → x.context.condition = .funding → x.graceStart.isSome = true → x.nextCard = none →
      (if medium = 1 then x.link.agreed.shop else x.link.agreed.bank) = true →
      let m := s.floor.store
      let card : Card := { medium := if medium = 1 then .shop else .bank, bytes := number }
      let idle := Station.givenUp { heard with link := { heard.link with held := some card } }
      let becomes := ChangesTo (.cardIn i medium number) i s
      x.context.card ≠ some card →
      (medium = 1 → m.lookup number.toNat = none → becomes (idle.refusal .unknownCard 0 0)) ∧
      (∀ d, medium = 1 → m.lookup number.toNat = some d → d.state ≠ 1 → becomes (idle.refusal .cardBlocked 0 0)) ∧
      (medium = 2 → x.noService = true → becomes (idle.refusal .noService 0 0)) ∧
      (medium = 2 → x.noService = false → x.auth.slot.isSome = true →
        becomes { idle with
          state := .funding
          auth := { idle.auth with state := .deferred, kind := .first, amount := x.copy.bankHold }
          context := { Context.empty with
            condition := .funding, card := some card, chain := { first := 65535, second := 65535, third := 65535 } }
          link := idle.link.offer (showOn 1 .authWait 0 0) }))

/-- A DRAINING station whose path is quiet enters SETTLING and shows SESSION TOTAL (R14, R90). Without room the settlement waits
and the station with it (R154, R178). With room it is written and applied to every account its blocks name (R155, R156), the
context is cleared, and the station is IDLE again (R157). Whatever else stands open, the settlement is made as SessionSettled
says: CLOSING accounts left without holders close, LOW stations that wait on released money are served, and the station stays
JAMMED, goes OUT, or is IDLE, where in STOPPING its tally is closed and a next card is judged (R157, R146, R91, R76, R19; log 48
for the order of two closes). A live tally that an entry to OUT closes in STOPPING carries cause OUT by the model's choice (log
37); a next card judged here rests on log 23, log 33 and log 43, top-ups of the pass on log 32, and the 0 in the fields that a
request asked for here does not hold on log 47. A path that is not quiet changes nothing (log 3). The total is shown before the
settlement is written (log 18), from full counts (log 24). Edit counts and drain starts are those of log 13, log 14 and log 15. -/
def Obligations.QuietPathSettlesTheSession : Prop :=
  ∀ (i : StationId) (s : State), EnableLaw s → OffsetLaw s → s.mode.run = .running ∨ s.mode.run = .stopping →
    let x := s.floor.station i
    let f := s.floor
    let window := if x.line.pace = 0 ∨ x.line.pace = 65535 then x.copy.drainMin
      else min (max (3 * x.line.pace) x.copy.drainMin) 10000
    let quiet := x.state = .draining ∧ x.line.inPath = [] ∧ window ≤ elapsed s.mode.partTime x.line.drainStart
    let len := 8 + layoutSize (sessionBody x.context)
    let room := f.waitQueue = [] ∧ roomNeeded f.rptWr len ≤ freeRoom f.rptWr s.mode.rptRd
    let total : Nat := (x.context.funding.map fun en => (en.committed + 500) / 1000).sum
    let link := x.link.offer (showOn 1 .sessionTotal total x.context.totalDelivered)
    (¬ quiet → exec (.quietNotice i) s = .next s) ∧
    (quiet → ¬ room → ∃ t, exec (.quietNotice i) s = .next t ∧ KeepsOutside s t ∧
      t.floor = { f with stations := t.floor.stations, waitQueue := f.waitQueue ++ [.session i] } ∧
      KeepsOthers i f t.floor ∧ KeepsBytes (inRecord i) f t.floor ∧
      t.floor.station i = finished s.mode x
        { x with state := .settling, context := { x.context with condition := .settling }, link := link }) ∧
    (quiet → room → FundsLaw x.context → ∃ g, EndsWith (.quietNotice i) s g ∧ SessionSettled s.mode i
      (f.onStation i fun _ => { x with state := .settling, context := { x.context with condition := .settling }, link := link }) g) ∧
    (quiet → room → s.mode.run = .running → x.nextCard = none → x.outPending = .none → (∀ j, (f.station j).state ≠ .low) →
      (∀ en ∈ x.context.funding, (f.store.account en.account).isClosing = false) →
      ∃ t, exec (.quietNotice i) s = .next t ∧ KeepsOutside s t ∧ t.floor.waitQueue = [] ∧
        t.floor.rptWr = offsetAfter f.rptWr len ∧ t.floor.irqFlag = f.irqFlag ||| 2 ∧
        ReportHeaderAt t.floor.store (reportPlace f.rptWr len) len .settlement (i.val + 1) s.mode.partTime ∧
        t.floor.store.readLE (reportPlace f.rptWr len + 8) 4 = x.context.number.toNat ∧
        (∀ n, n < 1024 → t.floor.store.account n = settledBy x.context.funding n (f.store.account n)) ∧
        KeepsOthers i f t.floor ∧
        KeepsBytes (fun a => inRecord i a ∨ inReport f.rptWr len a ∨
          ∃ en ∈ x.context.funding, (en.kind = .account ∨ en.kind = .house) ∧ inAccount en.account a) f t.floor ∧
        t.floor.station i = finished s.mode x
          { x with state := .idle, context := .empty, graceStart := none, link := link })

/-- Waiting reports are written in the order of the wait queue as far as they fit (R178; log 10): whatever waits behind them, the
reports that fit stand one after the other in the stream, and the queue begins with the first that does not fit. An empty queue
and a head that does not fit change nothing (log 3). A waiting AUTH WANTED report that is written starts its request's timer, and
a request DEFERRED behind it is then produced (R105); a waiting JAM report leaves the pending area (R119); a waiting close is
written and frees its account (R144); a waiting stray settlement is applied (R155, R158); and a waiting session settlement is
written and applied to every account its blocks name, and the session is finished as SessionSettled says, CLOSING accounts, LOW
stations, an out-pending mark, a next card and a stop included (R154 to R157, R91; log 48): where none of them stands open the
station is IDLE again, or stays JAMMED. A live tally that an entry to OUT closes in STOPPING carries cause OUT by the model's
choice (log 37), and by its choice too the part time of writing of an UNSENT request reads 0 in the record, as do the other fields
that a request does not hold (log 47); a next card judged here rests on log 23, log 33 and log 43, top-ups of the pass on log 32.
Edit counts and drain starts are those of log 13, log 14 and log 15. -/
def Obligations.WaitingReportsAreWritten : Prop :=
  ∀ (i : StationId) (s : State), EnableLaw s → OffsetLaw s → s.mode.run = .running ∨ s.mode.run = .stopping →
    let x := s.floor.station i
    let f := s.floor
    let fit := fun len => roomNeeded f.rptWr len ≤ freeRoom f.rptWr s.mode.rptRd
    let written := fun (len : Nat) (kind : ReportKind) (station : Nat) (t : State) =>
      KeepsOutside s t ∧ t.floor.waitQueue = [] ∧ t.floor.dropped = f.dropped ∧ t.floor.rptWr = offsetAfter f.rptWr len ∧
        t.floor.irqFlag = f.irqFlag ||| 2 ∧
        ReportHeaderAt t.floor.store (reportPlace f.rptWr len) len kind station s.mode.partTime
    (f.waitQueue = [] → exec .waitingReportWritten s = .next s) ∧
    (∀ done rest, f.waitQueue = done ++ rest → f.waitQueue.Nodup → (∀ p ∈ done, p.waitsAlone f = true) →
      let lengths := done.map (waitingLength f)
      let free := freeRoom f.rptWr s.mode.rptRd
      fitInTurn free f.rptWr lengths →
      (∀ p after, rest = p :: after → ¬ fitInTurn free f.rptWr (lengths ++ [waitingLength f p])) →
      ∃ t, exec .waitingReportWritten s = .next t ∧ KeepsOutside s t ∧ t.floor.waitQueue = rest ∧
        t.floor.rptWr = offsetAfterAll f.rptWr lengths ∧
        ∀ before p after, done = before ++ p :: after →
          let len := waitingLength f p
          ReportHeaderAt t.floor.store (reportPlace (offsetAfterAll f.rptWr (before.map (waitingLength f))) len) len
            p.header.1 p.header.2 s.mode.partTime) ∧
    (∀ p rest, f.waitQueue = p :: rest → ¬ fit (waitingLength f p) → exec .waitingReportWritten s = .next s) ∧
    (∀ w, f.waitQueue = [.auth i] → x.auth.slot = some w → x.auth.state ≠ .deferred → fit 32 →
      ∃ t, exec .waitingReportWritten s = .next t ∧ written 32 .authWanted (i.val + 1) t ∧ KeepsOthers i f t.floor ∧
        KeepsBytes (fun a => inRecord i a ∨ inReport f.rptWr 32 a) f t.floor ∧
        t.floor.station i = finished s.mode x
          { x with auth :=
              if x.auth.state = .unsent ∧ x.auth.id = w.id then
                { x.auth with slot := none, state := .asked, written := s.mode.partTime }
              else { x.auth with slot := none } }) ∧
    (∀ w, f.waitQueue = [.auth i] → x.auth.slot = some w → x.auth.state = .deferred → fit 32 →
      let id := x.auth.lastId + 1
      let wanted : AuthWanted :=
        { id := id, kind := x.auth.kind, amount := x.auth.amount, token := BitVec.ofNat 64 (cardBytes x.context.card)
          number := if x.auth.kind = .first then 0 else x.context.number }
      let wr := offsetAfter f.rptWr 32
      let second := roomNeeded wr 32 ≤ freeRoom wr s.mode.rptRd
      ∃ t, exec .waitingReportWritten s = .next t ∧ KeepsOutside s t ∧ KeepsOthers i f t.floor ∧
        ReportHeaderAt t.floor.store (reportPlace f.rptWr 32) 32 .authWanted (i.val + 1) s.mode.partTime ∧
        t.floor.store.readLE (reportPlace f.rptWr 32 + 8) 2 = w.id.toNat ∧
        (second → t.floor.waitQueue = [] ∧ t.floor.rptWr = offsetAfter wr 32 ∧
          t.floor.store.readLE (reportPlace wr 32 + 8) 2 = id.toNat ∧
          t.floor.station i = finished s.mode x
            { x with auth :=
                { x.auth with state := .asked, id := id, written := s.mode.partTime, lastId := id, slot := none } }) ∧
        (¬ second → t.floor.waitQueue = [.auth i] ∧ t.floor.rptWr = wr ∧
          t.floor.station i = finished s.mode x
            { x with auth := { x.auth with state := .unsent, id := id, written := 0, lastId := id, slot := some wanted } })) ∧
    (f.waitQueue = [.session i] → x.context.condition = .settling → x.state = .settling ∨ x.state = .jammed →
      FundsLaw x.context → fit (8 + layoutSize (sessionBody x.context)) →
      ∃ g, EndsWith .waitingReportWritten s g ∧ SessionSettled s.mode i { f with waitQueue := [] } g) ∧
    (f.waitQueue = [.session i] → s.mode.run = .running → x.context.condition = .settling →
      fit (8 + layoutSize (sessionBody x.context)) →
      x.nextCard = none → x.outPending = .none → x.state = .settling ∨ x.state = .jammed →
      (∀ j, (f.station j).state ≠ .low) → (∀ en ∈ x.context.funding, (f.store.account en.account).isClosing = false) →
      let len := 8 + layoutSize (sessionBody x.context)
      ∃ t, exec .waitingReportWritten s = .next t ∧ written len .settlement (i.val + 1) t ∧ KeepsOthers i f t.floor ∧
        t.floor.store.readLE (reportPlace f.rptWr len + 8) 4 = x.context.number.toNat ∧
        (∀ n, n < 1024 → t.floor.store.account n = settledBy x.context.funding n (f.store.account n)) ∧
        t.floor.station i = finished s.mode x
          { x with
            state := if x.state = .jammed then .jammed else .idle, context := .empty, graceStart := none }) ∧
    (∀ r, f.waitQueue = [.jam i] → x.jam.pendingReport = some r → fit (24 + 8 * r.sheets.length) →
      ∃ t, exec .waitingReportWritten s = .next t ∧ written (24 + 8 * r.sheets.length) .jam (i.val + 1) t ∧
        KeepsOthers i f t.floor ∧
        KeepsBytes (fun a => inRecord i a ∨ inReport f.rptWr (24 + 8 * r.sheets.length) a) f t.floor ∧
        t.floor.station i = finished s.mode x { x with jam := { x.jam with pendingReport := none } }) ∧
    (∀ n, n < 1024 → f.waitQueue = [.close n] → (f.store.account n).isFree = false → fit 64 →
      ∃ t, exec .waitingReportWritten s = .next t ∧ written 64 .accountClosed 0 t ∧ (∀ j, t.floor.station j = f.station j) ∧
        KeepsBytes (fun a => inAccount n a ∨ inReport f.rptWr 64 a) f t.floor ∧
        (t.floor.store.account n).state = 0 ∧ (t.floor.store.account n).balance = 0) ∧
    (f.waitQueue = [.stray i] → fit 96 → x.line.closed.house < 1024 →
      ∃ t, exec .waitingReportWritten s = .next t ∧ written 96 .settlement (i.val + 1) t ∧ KeepsOthers i f t.floor ∧
        t.floor.station i = finished s.mode x { x with line := { x.line with closed := .zero } } ∧
        let n := houseOrZero f.store x.line.closed.house
        t.floor.store.account n = (f.store.account n).charged ((x.line.closed.tally.price + 500) / 1000) ∧
        KeepsBytes (fun p => inRecord i p ∨ inAccount n p ∨ inReport f.rptWr 96 p) f t.floor)

/-! ### Cards and keys -/

/-- A valid CARD IN that opens nothing (R47, R69, R70, R75, R93, R98): an unagreed medium, a station out of service, a part that
is stopping, an unknown or blocked card, a station without service and a chain without funds (log 43 for a hold need of 0) are
each refused with a SHOW and an EJECT; a DRAINING or SETTLING station keeps the card for later; and the card of the session ends a
link-loss grace (a different card then is in EventsEndALiveSession and EventsGiveUpAFundingWait). What an IDLE station makes of a
card is judgeCard, by which a next card is judged too (R69, R76); where it opens a session or starts a funding wait, log 23, log
32, log 33 and log 47 bear on it. Edit counts and drain starts are those of log 13 and log 15. -/
def Obligations.CardInIsRefusedOrHeld : Prop :=
  ∀ (i : StationId) (medium : Byte) (card : BitVec 64) (s : State), EnableLaw s → s.mode.run ≠ .clearing →
    cardFieldsValid medium card = true →
    let x := s.floor.station i
    let m := s.floor.store
    let c : Card := { medium := if medium = 1 then .shop else .bank, bytes := card }
    let agreed := if medium = 1 then x.link.agreed.shop else x.link.agreed.bank
    let heard := x.heardFrame s.mode.partTime
    let held := { heard with link := { heard.link with held := some c } }
    let serves := x.link.up = true ∧ inService s.mode x = true ∧ agreed = true ∧ x.graceStart = none
    let judged := serves ∧ x.state = .idle ∧ s.mode.run = .running
    let becomes := ChangesTo (.cardIn i medium card) i s
    (serves → x.state = .idle →
      EndsWith (.cardIn i medium card) s (judgeCard s.mode i c (s.floor.onStation i fun _ => held))) ∧
    (x.link.up = false → becomes heard) ∧
    (x.link.up = true → inService s.mode x = true → agreed = false → becomes (heard.refusal .notAccepted 0 0)) ∧
    (x.link.up = true → inService s.mode x = false → becomes (held.refusal .outOfService 0 0)) ∧
    (serves → x.state = .idle → s.mode.run = .stopping → becomes (held.refusal .outOfService 0 0)) ∧
    (judged → medium = 1 → m.lookup card.toNat = none → becomes (held.refusal .unknownCard 0 0)) ∧
    (∀ d, judged → medium = 1 → m.lookup card.toNat = some d → d.state ≠ 1 → becomes (held.refusal .cardBlocked 0 0)) ∧
    (∀ d, judged → medium = 1 → m.lookup card.toNat = some d → d.state = 1 → d.role ≠ 2 → x.noService = true →
      becomes (held.refusal .noService 0 0)) ∧
    (judged → medium = 2 → x.noService = true → becomes (held.refusal .noService 0 0)) ∧
    (∀ d, judged → medium = 1 → m.lookup card.toNat = some d → d.state = 1 → d.role ≠ 2 → x.noService = false →
      (∀ n, n = d.chain.first ∨ n = d.chain.second ∨ n = d.chain.third → usable m x.holdNeed n = false) →
      becomes (held.refusal .insufficient x.holdNeed (greatestAvailable m d.chain))) ∧
    (serves → x.state = .draining ∨ x.state = .settling ∨ (x.state = .jammed ∧ x.context.condition ≠ .live) →
      becomes { held with nextCard := some c }) ∧
    (serves → x.state = .funding ∨ x.state = .opened ∨ x.state = .low ∨ x.state = .recovery ∨
      (x.state = .jammed ∧ x.context.condition = .live) → becomes held) ∧
    (x.link.up = true → inService s.mode x = true → agreed = true → x.graceStart.isSome = true →
      x.context.condition = .live ∨ x.context.condition = .funding → x.context.card = some c →
      becomes { held with graceStart := none })

/-- A SHOP card that an IDLE station accepts opens a session (R69, R71 to R74). A CUSTOMER card takes a hold on the first usable
account of its chain, and the greeting shows the hold and what is left; a SERVICE card takes no hold on the house account, or on
account 0. That at a hold need of 0 an account with nothing available is usable, with a hold of 0, is log 43. The hold is the hold
step or what the account has, so that with a step of at least the hold need the guard is met
and the station is OPEN. Whatever the step, the session opens with that hold on the floor `o`, and the funding check of the opening is
made there at once (R73 step 6), as FundingCheckDecidesTheState says: with a smaller step it tops the entry up or spills (R82; log 32)
and leaves the station OPEN with its guard met, or in LOW. The session takes the next session number. A live tally that is not empty
is closed at the opening with cause SESSION OPENED, and its settlement is written or waits (R19). Edit counts and drain starts are
those of log 13, log 14 and log 15. -/
def Obligations.ShopCardOpensASession : Prop :=
  ∀ (i : StationId) (card : BitVec 64) (d : DirEntry) (s : State), EnableLaw s → EvenLaw s → s.mode.run = .running →
    card ≠ 0 →
    let x := s.floor.station i
    let m := s.floor.store
    let next := m.header 8 4
    let number := if next = 0 then 1 else next
    let heard := x.heardFrame s.mode.partTime
    let link := { heard.link with held := some { medium := .shop, bytes := card } }
    let opened := fun (role : Role) (found : Nat) (entry : FundingEntry) (greeting : TxFrame) =>
      { heard with
        state := .opened, line := { x.line with pace := 0, matched := .zero, lastExit := 0 }
        context := { Context.empty with
          condition := .live, role := role, card := some { medium := .shop, bytes := card }
          number := BitVec.ofNat 32 number, chain := d.chain, foundAt := found, startTime := s.mode.partTime
          funding := [entry] }
        link := link.offer greeting }
    let becomes := fun (n : Nat) (b : Account) (y : Station) =>
      (x.line.live.fed = 0 →
        ChangesToAnd (fun a => inAccount n a ∨ inHeaderField 4 2 a ∨ inHeaderField 8 4 a ∨ inHeaderRest a)
          (fun after => after.account n = edited (m.account n) b ∧
            after.header 8 4 = if number = 4294967295 then 1 else number + 1)
          (.cardIn i 1 card) i s y) ∧
      (x.line.live.fed ≠ 0 → OffsetLaw s → ∃ t, exec (.cardIn i 1 card) s = .next t ∧ KeepsOutside s t ∧
        KeepsOthers i s.floor t.floor ∧ TallyClosed s.mode i .sessionOpened x.line.live s.floor t.floor ∧
        t.floor.store.header 8 4 = (if number = 4294967295 then 1 else number + 1) ∧
        (t.floor.store.account n).held = b.held ∧ (t.floor.store.account n).holders = b.holders ∧
        KeepsBytes (fun a => inRecord i a ∨ inHeader a ∨ inStream a ∨ inAccounts a) s.floor t.floor ∧
        let z := t.floor.station i
        z.state = y.state ∧ z.context = y.context ∧ z.link = y.link ∧ z.auth = y.auth ∧ z.line.pace = 0 ∧
        z.line.inPath = x.line.inPath)
    x.link.up = true → x.link.agreed.shop = true → x.state = .idle → x.graceStart = none →
    m.lookup card.toNat = some d → d.state = 1 →
    (∀ slot n, d.role ≠ 2 → x.noService = false → x.holdNeed ≤ x.copy.holdStep →
      d.chain.slots.find? (fun c => usable m x.holdNeed c.2) = some (slot, n) →
      let a := m.account n
      let hold := min x.copy.holdStep a.available.toNat
      let b := { a with held := a.held + BitVec.ofNat 32 hold, holders := a.holders + 1 }
      becomes n b (opened .customer slot
        { kind := .account, account := n, slot := slot, hold := hold, committed := 0, grants := [] }
        (showOn 1 .balance hold b.available))) ∧
    (∀ slot n, d.role ≠ 2 → x.noService = false → OffsetLaw s →
      d.chain.slots.find? (fun c => usable m x.holdNeed c.2) = some (slot, n) →
      let a := m.account n
      let hold := min x.copy.holdStep a.available.toNat
      let b := { a with held := a.held + BitVec.ofNat 32 hold, holders := a.holders + 1 }
      let y := opened .customer slot
        { kind := .account, account := n, slot := slot, hold := hold, committed := 0, grants := [] }
        (showOn 1 .balance hold b.available)
      ∃ o : Floor, EndsWith (.cardIn i 1 card) s (fundingCheck s.mode i o) ∧
        TallyClosed s.mode i .sessionOpened x.line.live s.floor o ∧ KeepsOthers i s.floor o ∧ o.dropped = s.floor.dropped ∧
        (let line := (o.station i).line
         o.station i = { y with line := { y.line with live := line.live, closed := line.closed } }) ∧
        o.store.header 8 4 = (if number = 4294967295 then 1 else number + 1) ∧
        (o.store.account n).held = b.held ∧ (o.store.account n).holders = b.holders ∧
        (x.line.live.fed = 0 → o = { s.floor with store := o.store, stations := o.stations } ∧
          o.store.account n = edited a b ∧
          ∀ p, ¬ inAccount n p → ¬ inHeader p → o.store.read p = m.read p) ∧
        (∀ p, ¬ inStream p → ¬ inHeader p → ¬ inAccounts p → o.store.read p = m.read p) ∧
        let z := (fundingCheck s.mode i o).station i
        z.state = (if z.fundsPass then .opened else .low) ∧
        ∃ first rest, z.context = { y.context with funding := first :: rest } ∧ first.account = n ∧ first.slot = slot ∧
          first.committed = 0 ∧ hold ≤ first.hold) ∧
    (d.role = 2 → x.copy.house < 1024 →
      let n := if (m.account x.copy.house).isOpen = true then x.copy.house else 0
      becomes n { m.account n with holders := (m.account n).holders + 1 } (opened .service 0
        { kind := .house, account := n, slot := 0, hold := 0, committed := 0, grants := [] } (showOn 1 .service 0 0)))

/-- A BANK card that an IDLE station accepts starts a funding wait (R69, R104): the context holds the card, AUTH WAIT is shown,
and a FIRST request for the bank hold takes the next id. Its AUTH WANTED report is written at once, with the request ASKED and its
timer started (R105), or it waits with the request UNSENT; while an older report stands in the slot the request is DEFERRED. While
it waits the context holds the card alone, with an empty chain (log 23, log 33). Edit counts and drain starts are those of log 13
and log 15. That the id and the times of a DEFERRED request, and the part time of writing of an UNSENT one, read 0 in the record
is the model's choice (log 47). -/
def Obligations.BankCardStartsAFundingWait : Prop :=
  ∀ (i : StationId) (card : BitVec 64) (s : State), EnableLaw s → OffsetLaw s → s.mode.run = .running →
    let x := s.floor.station i
    let f := s.floor
    let heard := x.heardFrame s.mode.partTime
    let c : Card := { medium := .bank, bytes := card }
    let id := x.auth.lastId + 1
    let room := f.waitQueue = [] ∧ roomNeeded f.rptWr 32 ≤ freeRoom f.rptWr s.mode.rptRd
    let y := fun auth : Auth =>
      { heard with
        state := .funding, auth := auth
        context := { Context.empty with condition := .funding, card := some c, chain := { first := 65535, second := 65535, third := 65535 } }
        link := LinkUnit.offer (showOn 1 .authWait 0 0) { heard.link with held := some c } }
    let wanted : AuthWanted :=
      { id := id, kind := .first, amount := x.copy.bankHold, token := card, number := 0 }
    let asked : Auth :=
      { state := .asked, kind := .first, amount := x.copy.bankHold, id := id, written := s.mode.partTime, lastId := id, slot := none }
    x.link.up = true → x.link.agreed.bank = true → x.state = .idle → x.graceStart = none → x.noService = false →
    (x.auth.slot.isSome = true →
      ChangesTo (.cardIn i 2 card) i s
        (y { x.auth with state := .deferred, kind := .first, amount := x.copy.bankHold, id := 0, written := 0 })) ∧
    (x.auth.slot = none → ¬ room → ∃ t, exec (.cardIn i 2 card) s = .next t ∧ KeepsOutside s t ∧
      t.floor = { f with stations := t.floor.stations, waitQueue := f.waitQueue ++ [.auth i] } ∧ KeepsOthers i f t.floor ∧
      t.floor.station i = finished s.mode x (y { asked with state := .unsent, written := 0, slot := some wanted })) ∧
    (x.auth.slot = none → room → ∃ t, exec (.cardIn i 2 card) s = .next t ∧ KeepsOutside s t ∧ t.floor.waitQueue = [] ∧
      t.floor.rptWr = offsetAfter f.rptWr 32 ∧ t.floor.irqFlag = f.irqFlag ||| 2 ∧
      ReportHeaderAt t.floor.store (reportPlace f.rptWr 32) 32 .authWanted (i.val + 1) s.mode.partTime ∧
      t.floor.store.readLE (reportPlace f.rptWr 32 + 8) 2 = id.toNat ∧
      t.floor.store.readLE (reportPlace f.rptWr 32 + 16) 8 = card.toNat ∧ KeepsOthers i f t.floor ∧
      KeepsBytes (fun a => inRecord i a ∨ inReport f.rptWr 32 a) f t.floor ∧
      t.floor.station i = finished s.mode x (y asked))

/-- KEY BALANCE shows the available amount and the remaining units, or for a BANK entry the remaining units and the hold, on row
2 where it is agreed (R87). A key without an agreed keypad or out of service, a KEY END without a session, a TICK with the card
still held or none held, and a CARD OUT with none held change the link unit alone (R46, R48, R86, R98); a CARD OUT at a station
without a live session, or whose session is ending or settling, also empties the next-card slot (R75, R89). A JAMMED station whose
context is not LIVE is such a station, for KEY END and CARD OUT alike. In DOWN these frames are discarded (R49). Edit counts are
those of log 13. -/
def Obligations.KeysTicksAndCardsWithoutASessionChange : Prop :=
  ∀ (i : StationId) (flags : Byte) (s : State), EnableLaw s → s.mode.run ≠ .clearing →
    let x := s.floor.station i
    let heard := x.heardFrame s.mode.partTime
    let ticked := { heard with link := { heard.link with cardPresent := flags.getLsbD 0 } }
    let waiting := x.state = .idle ∨ x.state = .draining ∨ x.state = .settling ∨ x.state = .out ∨
      (x.state = .jammed ∧ x.context.condition ≠ .live)
    (x.link.up = false →
      ChangesTo (.keyBalance i) i s heard ∧ ChangesTo (.keyEnd i) i s heard ∧ ChangesTo (.tick i flags) i s heard ∧
      ChangesTo (.cardOut i) i s heard) ∧
    (x.link.up = true → x.link.agreed.keypad = false ∨ inService s.mode x = false →
      ChangesTo (.keyBalance i) i s heard ∧ ChangesTo (.keyEnd i) i s heard) ∧
    (waiting → ChangesTo (.keyEnd i) i s heard) ∧
    (x.context.condition ≠ .live → x.context.condition ≠ .ending → ChangesTo (.keyBalance i) i s heard) ∧
    (∀ before entry, x.link.up = true → x.link.agreed.keypad = true → inService s.mode x = true →
      x.context.condition = .live ∨ x.context.condition = .ending → x.context.funding = before ++ [entry] →
      let remaining := Int.fdiv ((entry.hold : Int) * 1000 - entry.committed) 1000
      let row := if 2 ≤ x.link.agreed.rows then 2 else 1
      let display := if entry.kind = .bank then showOn row .balance remaining entry.hold
        else showOn row .balance (s.floor.store.account entry.account).available remaining
      ChangesTo (.keyBalance i) i s { heard with link := heard.link.offer display }) ∧
    (x.link.up = true → flags.getLsbD 0 = true ∨ x.link.held = none → ChangesTo (.tick i flags) i s ticked) ∧
    (x.link.up = true → x.link.held = none → ChangesTo (.cardOut i) i s heard) ∧
    (x.link.up = true → x.link.held.isSome = true → waiting →
      ChangesTo (.cardOut i) i s { heard with nextCard := none, link := { heard.link with held := none } })

/-! ### Terminal link -/

/-- A link that is silent for 1,500 ms, or BUSY for more than 2,000 ms, goes DOWN (R50 to R52): the loss is counted, the agreed
ability and the queue are empty, the next-card slot is emptied (R75), the link-loss grace starts where a session or a funding
wait stands (R92), and a STATION notice is handed on (R180). A valid HELLO in DOWN brings the link UP with the abilities both
sides have, a WELCOME and a notice; in UP it renegotiates, drops the waiting SHOW frames of rows no longer agreed, and answers
with a WELCOME (R45). Timers that have not run out change nothing (log 3). Edit counts are those of log 13. -/
def Obligations.LinkGoesDownAndUp : Prop :=
  ∀ (i : StationId) (s : State), EnableLaw s → OffsetLaw s → s.mode.run ≠ .clearing →
    let x := s.floor.station i
    let now := s.mode.partTime
    let session := if x.context.condition = .live ∨ x.context.condition = .ending then x.context.number else 0
    let noticed := fun (c : Instr) (event : NoticeEvent) (y : Station) =>
      ∃ t, exec c s = .next t ∧ KeepsOutside s t ∧ KeepsOthers i s.floor t.floor ∧
        NoticeHandled s.mode (i.val + 1) event .none session s.floor t.floor ∧
        t.floor.station i = finished s.mode x y
    let down := { x with
      nextCard := none
      graceStart := if (x.context.condition = .live ∨ x.context.condition = .funding) ∧ x.graceStart = none then some now
        else x.graceStart
      link := { x.link with
        up := false, losses := min (x.link.losses + 1) 255, agreed := .none, queue := [], sending := none, busyStart := none } }
    let silent := x.link.up = true ∧ 1500 ≤ elapsed now x.link.silenceStart
    let stuck := x.link.up = true ∧ x.link.busy = true ∧ ∃ start, x.link.busyStart = some start ∧ 2000 < elapsed now start
    (silent → noticed (.silenceTimerExpiry i) .linkDown down) ∧ (¬ silent → exec (.silenceTimerExpiry i) s = .next s) ∧
    (stuck → noticed (.busyTimerExpiry i) .linkDown down) ∧ (¬ stuck → exec (.busyTimerExpiry i) s = .next s) ∧
    ∀ abilities rows : Byte, 1 ≤ rows.toNat → rows.toNat ≤ 4 →
      let offered : Ability :=
        { shop := abilities.getLsbD 0, bank := abilities.getLsbD 1, keypad := abilities.getLsbD 2, rows := rows.toNat }
      let agreed : Ability :=
        { offered with shop := offered.shop && x.copy.acceptShop, bank := offered.bank && x.copy.acceptBank }
      let told := { x.link with assembler := .hunt, offered := offered, agreed := agreed }
      (x.link.up = false → noticed (.hello i 1 abilities rows) .linkUp
        { x with link := { told.offer (.welcome agreed) with
            up := true, silenceStart := now, busyStart := if x.link.busy then some now else none } }) ∧
      let trimmed := { told with
        silenceStart := now, queue := x.link.headSent ++ x.link.waiting.filter fun t : TxFrame => !t.aboveRows rows.toNat }
      (x.link.up = true → ChangesTo (.hello i 1 abilities rows) i s { x with link := trimmed.offer (.welcome agreed) })

/-- A received byte moves the frame assembler (R43): the start byte opens a frame, a length of 1 to 40 follows, and the kind and
payload bytes are kept up to the length. A character with a parity error or a framing error (R42), an impossible length, a frame
whose bytes stay out for more than 50 ms, and an invalid frame, each return the assembler to HUNT and count one receive error
(R44). The check byte of a frame whose bytes spell a known kind and sum to 0 acts as the frame's own command does (R43, R44): the
same outcome, but for the time of the byte. A wrong check byte is one receive error, and so is the check byte of a frame that sums
to 0 but is of an unknown kind, of another length than its kind's, or a KEY whose key is neither END nor BALANCE (R44): it acts as
an invalid frame does. After a framing error the receiver takes no character, and counts none, until the line has been at 1 (R42),
which the link unit's list of rises says for each character that comes (log 31). That a frame's command and its check byte act
alike is the model's choice (log 8); that a gap limit before its time and a BYTE ERROR without an error change nothing is log 3;
edit counts are those of log 13. -/
def Obligations.ReceiverAssemblesFrames : Prop :=
  (∀ (i : StationId) (b : Byte) (s : State), EnableLaw s → s.mode.run ≠ .clearing →
     let x := s.floor.station i
     let now := s.mode.partTime
     let listens := x.link.awaitsHigh = false ∨ x.link.rises.head? ≠ some false
     let past := { x with link := { x.link with rises := x.link.rises.drop 1 } }
     let received := fun a : Assembler =>
       { past with link := { past.link with lastByte := now, assembler := a, awaitsHigh := false } }
     let failed := fun y : Station =>
       { y with link := { y.link with assembler := .hunt, rxErrors := min (y.link.rxErrors + 1) 255 } }
     let error := failed x
     let byte := ChangesTo (.byteReceived i b) i s
     (¬ listens → byte past) ∧
     (listens → x.link.assembler = .hunt → byte (received (if b = 0xA5 then .length else .hunt))) ∧
     (listens → x.link.assembler = .length → 1 ≤ b.toNat → b.toNat ≤ 40 → byte (received (.body b.toNat []))) ∧
     (listens → x.link.assembler = .length → b.toNat = 0 ∨ 40 < b.toNat →
       byte { failed past with link := { (failed past).link with lastByte := now, awaitsHigh := false } }) ∧
     (∀ len got, listens → x.link.assembler = .body len got → byte (received
       (if got.length + 1 = len then .check len (got ++ [b]) else .body len (got ++ [b])))) ∧
     (∀ parityBit stopBit : Bool,
       let ones := (List.range 8).countP b.getLsbD
       let wrong := (x.copy.parity = 0 ∧ parityBit = decide (ones % 2 = 0)) ∨ (x.copy.parity = 1 ∧ parityBit = decide (ones % 2 = 1))
       (wrong ∨ stopBit = false →
         (listens → ChangesTo (.byteError i b parityBit stopBit) i s
           { failed past with link := { (failed past).link with awaitsHigh := !stopBit } }) ∧
         (¬ listens → ChangesTo (.byteError i b parityBit stopBit) i s past)) ∧
       (¬ wrong → stopBit = true → exec (.byteError i b parityBit stopBit) s = .next s)) ∧
     (x.link.assembler ≠ .hunt → 50 < elapsed now x.link.lastByte → ChangesTo (.gapLimit i) i s error) ∧
     (x.link.assembler = .hunt ∨ elapsed now x.link.lastByte ≤ 50 → exec (.gapLimit i) s = .next s) ∧
     ChangesTo (.invalidFrame i) i s error ∧
     (∀ level abilities rows : Byte, level ≠ 1 ∨ rows.toNat = 0 ∨ 4 < rows.toNat →
       ChangesTo (.hello i level abilities rows) i s error) ∧
     (∀ (medium : Byte) (card : BitVec 64), (medium ≠ 1 ∧ medium ≠ 2) ∨ (medium = 1 ∧ card = 0) →
       ChangesTo (.cardIn i medium card) i s error)) ∧
  (∀ (i : StationId) (len : Nat) (got : List Byte) (b : Byte) (s : State), s.mode.run ≠ .clearing →
     let l := (s.floor.station i).link
     l.assembler = .check len got → l.awaitsHigh = false ∨ l.rises.head? ≠ some false →
     let noted := { s with floor := s.floor.onStation i fun x =>
       { x with link := { x.link with
           lastByte := s.mode.partTime, awaitsHigh := false, rises := x.link.rises.drop 1 } } }
     let good := (len + (got.map BitVec.toNat).sum + b.toNat) % 256 = 0
     let byte := exec (.byteReceived i b) s
     (∀ level abilities rows, good → got = [1, level, abilities, rows] → byte = exec (.hello i level abilities rows) noted) ∧
     (∀ flags, good → got = [2, flags] → byte = exec (.tick i flags) noted) ∧
     (∀ medium b0 b1 b2 b3 b4 b5 b6 b7, good → got = [3, medium, b0, b1, b2, b3, b4, b5, b6, b7] →
       byte = exec (.cardIn i medium (b7 ++ b6 ++ b5 ++ b4 ++ b3 ++ b2 ++ b1 ++ b0)) noted) ∧
     (good → got = [4] → byte = exec (.cardOut i) noted) ∧
     (good → got = [5, 1] → byte = exec (.keyEnd i) noted) ∧
     (good → got = [5, 2] → byte = exec (.keyBalance i) noted) ∧
     (∀ (kind : Byte) (payload : List Byte), good → got = kind :: payload →
       (kind.toNat = 0 ∨ 5 < kind.toNat) ∨ (kind = 1 ∧ payload.length ≠ 3) ∨ (kind = 2 ∧ payload.length ≠ 1) ∨
         (kind = 3 ∧ payload.length ≠ 9) ∨ (kind = 4 ∧ payload.length ≠ 0) ∨ (kind = 5 ∧ payload.length ≠ 1) →
       byte = exec (.invalidFrame i) noted) ∧
     (∀ key : Byte, good → got = [5, key] → key ≠ 1 → key ≠ 2 → byte = exec (.invalidFrame i) noted) ∧
     (¬ good → byte = exec (.invalidFrame i) noted))

/-- The transmitter (R56, R57): the frame at the head of the queue starts when nothing is being sent, BUSY is inactive and the gap
that runs has passed, with its bytes as they stand then; each character ends with the next one, or with a pause while BUSY is
active; the frame leaves the queue at the end of its check byte, and the gap begins with the working copy's length of that moment
(R41). The character left of an abandoned frame ends with no gap by CHARACTER_SENT and with one by FRAME_SENT (R52; log 42). BUSY
sampled active starts its timer in UP, and sampled inactive ends it and resumes a paused frame (R51, R57). R51 samples BUSY once a
millisecond; that a change of its level is itself a sample, which starts or ends the timer at the present part time, is the
model's choice (log 49). An event whose conditions do not hold changes nothing (log 3). Edit counts are those of log 13. -/
def Obligations.TransmitterSendsTheQueue : Prop :=
  ∀ (i : StationId) (s : State), EnableLaw s → s.mode.run ≠ .clearing →
    let x := s.floor.station i
    let l := x.link
    let now := s.mode.partTime
    let line := fun b : Byte => some (characterBits x.copy b)
    let ready := l.up = true ∧ l.sending = none ∧ l.character = none ∧ l.busy = false ∧
      (l.gapStart = none ∨ ∃ start, l.gapStart = some start ∧ l.gapLength ≤ elapsed now start)
    (∀ t rest, ready → l.queue = t :: rest → ChangesTo (.nextFrameStart i) i s
      { x with link := { l with sending := some { bytes := t.bytes, next := 0 }, gapStart := none, character := line 0xA5 } }) ∧
    (¬ ready ∨ l.queue = [] → exec (.nextFrameStart i) s = .next s) ∧
    (∀ t b, l.character.isSome = true → l.sending = some t → t.bytes[t.next + 1]? = some b →
      ChangesTo (.characterSent i) i s
        { x with link := { l with
            sending := some { t with next := t.next + 1 }, character := if l.busy then none else line b } } ∧
      exec (.frameSent i) s = .next s) ∧
    (∀ t, l.character.isSome = true → l.sending = some t → t.bytes.length ≤ t.next + 1 →
      ChangesTo (.frameSent i) i s
        { x with link := { l with
            character := none, sending := none, queue := l.queue.drop 1, gapStart := some now, gapLength := x.copy.gap } } ∧
      exec (.characterSent i) s = .next s) ∧
    (l.character.isSome = true → l.sending = none →
      ChangesTo (.characterSent i) i s { x with link := { l with character := none } } ∧
      ChangesTo (.frameSent i) i s
        { x with link := { l with character := none, gapStart := some now, gapLength := x.copy.gap } }) ∧
    (l.character = none → exec (.characterSent i) s = .next s ∧ exec (.frameSent i) s = .next s) ∧
    (∀ high : Bool, high = x.copy.activeHigh 7 → ChangesTo (.busyLevelChange i high) i s
      { x with link := { l with
          busyHigh := high, busy := true
          busyStart := if l.up = true ∧ l.busyStart = none then some now else l.busyStart } }) ∧
    (∀ high : Bool, high ≠ x.copy.activeHigh 7 →
      (l.sending = none ∨ l.character.isSome = true → ChangesTo (.busyLevelChange i high) i s
        { x with link := { l with busyHigh := high, busy := false, busyStart := none } }) ∧
      ∀ t b, l.sending = some t → l.character = none → t.bytes[t.next]? = some b →
        ChangesTo (.busyLevelChange i high) i s
          { x with link := { l with busyHigh := high, busy := false, busyStart := none, character := line b } })

/-- A frame that reaches a full transmit queue displaces the oldest waiting SHOW (R55): a SHOW takes its place, and a WELCOME or
EJECT is put at the end. No waiting WELCOME or EJECT is displaced, and a full queue holds a waiting SHOW to give way. That the
oldest is the first waiting SHOW in queue order, also where a later SHOW has taken over an earlier one's place (R54 case 3), is the
model's choice (log 52): neither rule says whether age is that of the place or that of the offering. -/
def Obligations.FullQueueGivesUpItsOldestShow : Prop :=
  ∀ (l : LinkUnit) (t : TxFrame), QueueBound l → l.queue.length = 4 → l.discards t = false →
    l.waiting.any t.supersedes = false →
    ∃ before show' after, l.waiting = before ++ show' :: after ∧ show'.isShow = true ∧
      (∀ u ∈ before, u.isShow = false) ∧
      (l.offer t).waiting = (if t.isShow then before ++ t :: after else before ++ after ++ [t]) ∧
      (l.offer t).headSent = l.headSent ∧ (l.offer t).queue.length = 4 ∧
      l.offer t = { l with queue := (l.offer t).queue } ∧
      (∀ u ∈ l.waiting, u.isShow = false → u ∈ (l.offer t).waiting)

/-- A frame offered to the transmit queue (R54): a SHOW or EJECT in DOWN and a SHOW above the agreed rows are discarded; a SHOW
takes the place of the waiting SHOW for its row, and a WELCOME or EJECT that of the waiting one of its kind, with the new
content; any other frame joins the end of a queue with room. The frame being sent stays, and every other frame keeps its place. -/
def Obligations.OfferedFramesAreAdmittedMergedOrDiscarded : Prop :=
  ∀ (l : LinkUnit) (t : TxFrame),
    let same := fun u : TxFrame => match t, u with
      | .showMsg row .., .showMsg row' .. => row = row'
      | .welcome _, .welcome _ => True
      | .eject, .eject => True
      | _, _ => False
    let discarded := (t.isWelcome = false ∧ l.up = false) ∨ ∃ row msg a b, t = .showMsg row msg a b ∧ l.agreed.rows < row
    (discarded → l.offer t = l) ∧
    (∀ before old after, ¬ discarded → l.waiting = before ++ old :: after → same old → (∀ u ∈ before, ¬ same u) →
      l.offer t = { l with queue := l.headSent ++ (before ++ t :: after) }) ∧
    (¬ discarded → (∀ u ∈ l.waiting, ¬ same u) → l.queue.length < 4 → l.offer t = { l with queue := l.queue ++ [t] })

/-! ### Pricing -/

/-- Law L8 (R31). The price of a sold class with base price B at rate R is B − floor(B × R / 1000). For B at most 2,000,000 and R
at most 500 the product is at most 1,000,000,000, the discount is at most floor(B / 2), the price lies between ceil(B / 2) and B,
and the rounding costs less than one milli-unit; rate 0 gives B, rate 500 gives ceil(B / 2), and B = 0 gives 0. On a page that
passes R26 the prices and rates are within those bounds, so that every price of a sold class lies between ceil(B / 2) and B. The
rate is that of the highest-numbered tier whose threshold is at most the position D + F of the account, which always exists, for a
charge to an ACCOUNT entry whose account has its tier flag set, and 0 for any other charge; a class that is not sold is priced at
the fallback. -/
def Obligations.PricesStayInTheirBounds : Prop :=
  (∀ b r : Nat, b ≤ 2000000 → r ≤ 500 →
    soldPrice b r = b - b * r / 1000 ∧ b * r ≤ 1000000000 ∧ b * r / 1000 ≤ b / 2 ∧ (b + 1) / 2 ≤ soldPrice b r ∧
      soldPrice b r ≤ b ∧ 1000 * soldPrice b r < 1000 * b - b * r + 1000 ∧ 1000 * b - b * r ≤ 1000 * soldPrice b r ∧
      soldPrice b 0 = b ∧ soldPrice b 500 = (b + 1) / 2 ∧ soldPrice 0 r = 0) ∧
  (∀ (m : Memory) (p : Page) (position : Nat), m.pageFailure p = none →
    m.threshold p (tierAt m p position) ≤ position ∧ m.rate p (tierAt m p position) ≤ 500 ∧
    ∀ t : Fin 4, tierAt m p position < t → position < m.threshold p t) ∧
  (∀ (m : Memory) (p : Page) (w : WorkingCopy) (k : SheetClass) (entry : FundingEntry), m.pageFailure p = none →
    m.sold p k = true →
    let price := sheetPrice m p w k (chargeRate m p entry)
    m.basePrice p k ≤ 2000000 ∧ (m.basePrice p k + 1) / 2 ≤ price ∧ price ≤ m.basePrice p k) ∧
  ∀ (m : Memory) (p : Page) (w : WorkingCopy) (k : SheetClass) (entry : FundingEntry),
    (m.sold p k = false → sheetPrice m p w k (chargeRate m p entry) = w.fallback) ∧
    (m.sold p k = true → entry.kind ≠ .account ∨ (m.account entry.account).tier = false →
      sheetPrice m p w k (chargeRate m p entry) = m.basePrice p k) ∧
    (m.sold p k = true → entry.kind = .account → (m.account entry.account).tier = true →
      let a := m.account entry.account
      let tier := tierAt m p (min (a.delivered.toNat + a.inFlight.toNat) 4294967295)
      sheetPrice m p w k (chargeRate m p entry) = soldPrice (m.basePrice p k) (m.rate p tier))

/-- The funding check (R81 to R85) leaves a station in OPEN, LOW or RECOVERY with its guard met, LOW having returned to OPEN with
SHOW REMAINING, or in LOW with its guard not met; it changes no other station, no balance, and no committed amount, and under even
edit counts (R134) it does nothing in any other state. A guard that is not met at an ACCOUNT entry first leads to a top-up of the
entry's hold by hold steps, as far as the account has funds (R82 step 1; log 32), every byte of the store reading as one request on
that account leaves it (R134), and then to a spill: the first usable account of
a later chain slot that no entry names is held on by a new entry (R82 step 2; log 43 for a hold need of 0). Entry to LOW finalises
a recovery's lost list, shows LOW FUNDS, hands on a STATION notice and starts the LOW timer (R83, R126), whatever the kind of the
last entry; a BANK entry with fewer than 4 grants then asks for an increment, unless a request is outstanding or stop-asking is
set (R85). A check that fails in LOW shows nothing, hands on nothing and leaves the timer running (R83); a BANK entry asks there
too (R85). The delivered total shown is taken from full counts (log 24). -/
def Obligations.FundingCheckDecidesTheState : Prop :=
  ∀ (e : Mode) (i : StationId) (f : Floor), f.rptWr % 4 = 0 → f.rptWr ≤ 8184 →
    let x := f.station i
    let g := fundingCheck e i f
    let y := g.station i
    let checked := x.state = .opened ∨ x.state = .low ∨ x.state = .recovery
    let even := ∀ n, n < 1024 → isOdd (f.store.account n).editCount = false
    let remaining := fun en : FundingEntry => (en.hold : Int) * 1000 - en.committed
    -- A check that passes with the session's context at `c`.
    let passed := fun c : Context =>
      if x.state = .low then
        { x with
          state := .opened, lowStart := none, context := c
          link := x.link.offer (showOn 1 .remaining { x with context := c }.lastUnits c.totalDelivered) }
      else { x with context := c }
    let asks := ∃ before last, x.context.funding = before ++ [last] ∧ last.kind = .bank ∧ last.grants.length < 4 ∧
      x.auth.state ≠ .unsent ∧ x.auth.state ≠ .asked ∧ x.context.stopAsking = false
    -- The increment asked for on the floor `h`.
    let asked := fun h : Floor =>
      y.auth.kind = .increment ∧ y.auth.amount = x.copy.holdStep ∧
        (x.auth.slot.isSome = true → y.auth.state = .deferred ∧ y.auth.slot = x.auth.slot ∧ g.waitQueue = h.waitQueue) ∧
        (x.auth.slot = none → y.auth.id = x.auth.lastId + 1 ∧
          if h.waitQueue = [] ∧ roomNeeded h.rptWr 32 ≤ freeRoom h.rptWr e.rptRd then
            y.auth.state = .asked ∧ y.auth.slot = none ∧ y.auth.written = e.partTime ∧
              ReportHeaderAt g.store (reportPlace h.rptWr 32) 32 .authWanted (i.val + 1) e.partTime
          else y.auth.state = .unsent ∧ y.auth.slot.isSome = true ∧ g.waitQueue = h.waitQueue ++ [.auth i])
    (∀ j, j ≠ i → g.station j = f.station j) ∧
    (∀ n, n < 1024 → (g.store.account n).facts = (f.store.account n).facts) ∧
    (∀ (k : Nat) (en : FundingEntry), x.context.funding[k]? = some en →
      ∃ en', y.context.funding[k]? = some en' ∧ en'.committed = en.committed ∧ en'.account = en.account ∧ en.hold ≤ en'.hold) ∧
    (checked →
      (y.fundsPass = true ∧ y.state = if x.state = .low then .opened else x.state) ∨
        (y.fundsPass = false ∧ y.state = .low)) ∧
    (¬ checked → even → g = f) ∧
    (checked → even → x.fundsPass = true → g = f.onStation i fun _ => passed x.context) ∧
    (∀ before last, checked → even → x.fundsPass = false → x.context.funding = before ++ [last] → last.kind = .account →
      last.account < 1024 →
      let a := f.store.account last.account
      let step := x.copy.holdStep
      let wanted := step * ((((x.guardValue : Int) - remaining last).toNat + (1000 * step - 1)) / (1000 * step))
      let units := if a.isOpen = true then min wanted (min a.available.toNat (2147483647 - last.hold)) else 0
      let topped := { last with hold := last.hold + units }
      let c := { x.context with funding := before ++ [topped] }
      (0 < units → (x.guardValue : Int) ≤ remaining topped →
        g = { f with store := g.store, stations := f.stations.set i (passed c) } ∧
          g.store.account last.account = edited a { a with held := a.held + BitVec.ofNat 32 units } ∧
          ∀ p, g.store.read p =
            (f.store.editAccount last.account fun b => { b with held := b.held + BitVec.ofNat 32 units }).read p) ∧
      (∀ slot n, remaining topped < (x.guardValue : Int) → before.length < 2 → n ≠ last.account →
        x.context.chain.slots.find? (fun k => decide (last.slot < k.1) && usable f.store x.holdNeed k.2 &&
          x.context.funding.all fun en => en.account != k.2) = some (slot, n) →
        let b := f.store.account n
        let hold := min step b.available.toNat
        let entry : FundingEntry :=
          { kind := .account, account := n, slot := slot, hold := hold, committed := 0, grants := [] }
        (x.guardValue : Int) ≤ remaining entry →
        y = passed { x.context with funding := before ++ [topped, entry] } ∧
          g.store.account last.account = edited a { a with held := a.held + BitVec.ofNat 32 units } ∧
          g.store.account n = edited b { b with held := b.held + BitVec.ofNat 32 hold, holders := b.holders + 1 })) ∧
    (x.state = .opened ∨ x.state = .recovery → even → x.fundsPass = false → x.context.lastIs .account = false →
      let l := { x with
        state := .low, lowStart := some e.partTime
        jam := { x.jam with lost := if x.state = .recovery then [] else x.jam.lost }
        link := x.link.offer (showOn 1 .lowFunds x.lastUnits ((x.guardValue + 999) / 1000 : Nat)) }
      let h := stationNotice e i .low .none f
      (¬ asks → y = l ∧ NoticeHandled e (i.val + 1) .low .none x.reportedNumber f g) ∧
      (asks → y.state = .low ∧ y.lowStart = some e.partTime ∧ y.link = l.link ∧ y.jam = l.jam ∧ y.context = x.context ∧
        NoticeHandled e (i.val + 1) .low .none x.reportedNumber f h ∧ asked h)) ∧
    (x.state = .opened ∨ x.state = .recovery → even → x.context.lastIs .account = true → y.fundsPass = false →
      y = { x with
        state := .low, lowStart := some e.partTime, context := y.context
        jam := { x.jam with lost := if x.state = .recovery then [] else x.jam.lost }
        link := x.link.offer (showOn 1 .lowFunds y.lastUnits ((x.guardValue + 999) / 1000 : Nat)) } ∧
        NoticeHandedOn e (i.val + 1) .low .none x.reportedNumber f g ∧
        ∀ p, ¬ inReport f.rptWr 16 p → ¬ inAccounts p → g.store.read p = f.store.read p) ∧
    (x.state = .low → even → x.context.lastIs .account = false → x.fundsPass = false →
      (¬ asks → g = f) ∧
      (asks → y.state = .low ∧ y.lowStart = x.lowStart ∧ y.link = x.link ∧ y.jam = x.jam ∧ y.context = x.context ∧ asked f)) ∧
    (x.state = .low → even → x.context.lastIs .account = true → y.fundsPass = false →
      y = { x with context := y.context } ∧
        g = { f with store := g.store, stations := g.stations } ∧ ∀ p, ¬ inAccounts p → g.store.read p = f.store.read p)

/-- The re-evaluation pass over accounts that gained funds (R146, R147) is made while the part is RUNNING or STOPPING. It serves
the LOW stations whose last ACCOUNT entry names one of the accounts, or whose chain names one in a later slot, in ascending
station number: what it leaves of stations, accounts, wait queue and stream is what a funding check at each of them in turn
leaves, each made on the outcome of those before it, but for the edit counts of the accounts, which are even at its end (R134). -/
def Obligations.ReEvaluationServesTheWaitingStations : Prop :=
  ∀ (e : Mode) (accounts : List Nat) (f : Floor), f.rptWr % 4 = 0 → f.rptWr ≤ 8184 →
    (∀ n, n < 1024 → isOdd (f.store.account n).editCount = false) →
    let waits := fun x : Station => x.state = .low ∧ ∃ before last, x.context.funding = before ++ [last] ∧
      last.kind = .account ∧ (last.account ∈ accounts ∨ (last.slot < 1 ∧ x.context.chain.first ∈ accounts) ∨
        (last.slot < 2 ∧ x.context.chain.second ∈ accounts) ∨ (last.slot < 3 ∧ x.context.chain.third ∈ accounts))
    let g := reevaluate e accounts f
    (e.runs = false → g = f) ∧
    (∀ i, ¬ waits (f.station i) → g.station i = f.station i) ∧
    (e.runs = true → ∀ served : List StationId, served.Pairwise (· < ·) → (∀ i, i ∈ served ↔ waits (f.station i)) →
      let h := served.foldl (fun h i => fundingCheck e i h) f
      g.stations = h.stations ∧ g.waitQueue = h.waitQueue ∧ g.dropped = h.dropped ∧ g.rptWr = h.rptWr ∧
        g.irqFlag = h.irqFlag ∧ (∀ a, ¬ inAccounts a → g.readByte a = h.readByte a) ∧
        ∀ n, n < 1024 → isOdd (g.store.account n).editCount = false ∧
          { g.store.account n with editCount := 0 } = { h.store.account n with editCount := 0 })
end

