-- ==== Sys2Proof/Laws/Memory.lean ====
section
/-! SUPPORT. The store: reading back what was written, what a write leaves alone, and the canonical form. -/

namespace Sys2Proof.Machine

open Sys2Proof

/-! ### One byte -/

theorem isCell_of_ranges {a : Nat} (h : a < Config.storeBytes)
    (outside : a < Config.stationBase ∨ Config.stationEnd ≤ a) : isCell a = true := by
  simp only [isCell, Bool.and_eq_true, Bool.not_eq_true', decide_eq_true_eq, h, true_and, Bool.and_eq_false_iff,
    decide_eq_false_iff_not]
  omega

theorem Memory.read_filter_other {a b : Nat} (m : Memory) (h : b ≠ a) :
    Memory.read (m.filter fun c => c.1 != a) b = m.read b := by
  induction m with
  | nil => rfl
  | cons c rest ih =>
    obtain ⟨k, v⟩ := c
    by_cases hk : k = a
    · subst hk
      simp [Memory.read, ih, Ne.symm h]
    · simp [hk, Memory.read, ih]

theorem Memory.read_filter_self (m : Memory) (a : Nat) : Memory.read (m.filter fun c => c.1 != a) a = 0 := by
  induction m with
  | nil => rfl
  | cons c rest ih =>
    obtain ⟨k, v⟩ := c
    by_cases hk : k = a
    · simp [hk, ih]
    · simp [hk, Memory.read, ih]

/-- A filter that keeps every cell of an address keeps what is read there. -/
theorem Memory.read_filter_keeps {a : Nat} (m : Memory) (p : Host.Cell → Bool) (h : ∀ b, p (a, b) = true) :
    Memory.read (m.filter p) a = m.read a := by
  induction m with
  | nil => rfl
  | cons c rest ih =>
    obtain ⟨k, v⟩ := c
    by_cases hp : p (k, v)
    · simp only [List.filter_cons, hp, if_true, Memory.read, ih]
    · have hk : k ≠ a := fun hk => hp (hk ▸ h v)
      simp [hp, Memory.read, ih, hk]

/-- A filter that drops every cell of an address leaves 0 there. -/
theorem Memory.read_filter_drops {a : Nat} (m : Memory) (p : Host.Cell → Bool) (h : ∀ b, p (a, b) = false) :
    Memory.read (m.filter p) a = 0 := by
  induction m with
  | nil => rfl
  | cons c rest ih =>
    obtain ⟨k, v⟩ := c
    by_cases hp : p (k, v)
    · have hk : k ≠ a := fun hk => by simp [hk, h v] at hp
      simp [hp, Memory.read, ih, hk]
    · simp [hp, ih]

theorem Memory.read_insert_self (m : Memory) (a : Nat) (b : Byte) (h : ∀ c ∈ m, c.1 ≠ a) :
    Memory.read (Memory.insert m a b) a = b := by
  induction m with
  | nil => simp [Memory.insert, Memory.read]
  | cons c rest ih =>
    obtain ⟨k, v⟩ := c
    have hk : k ≠ a := h (k, v) (by simp)
    by_cases hlt : a < k
    · simp [Memory.insert, hlt, Memory.read]
    · simp [Memory.insert, hlt, Memory.read, hk, ih fun c hc => h c (by simp [hc])]

theorem Memory.read_insert_other {a a' : Nat} (m : Memory) (b : Byte) (h : a' ≠ a) :
    Memory.read (Memory.insert m a b) a' = m.read a' := by
  induction m with
  | nil => simp [Memory.insert, Memory.read, Ne.symm h]
  | cons c rest ih =>
    obtain ⟨k, v⟩ := c
    by_cases hlt : a < k
    · simp [Memory.insert, hlt, Memory.read, Ne.symm h]
    · simp [Memory.insert, hlt, Memory.read, ih]

/-- Reading a cell gives the byte last written to it. -/
theorem Memory.read_write_self (m : Memory) (a : Nat) (b : Byte) (h : isCell a = true) : (m.write a b).read a = b := by
  by_cases hb : b = 0
  · simp [Memory.write, h, hb, Memory.read_filter_self]
  · simp only [Memory.write, h, if_true, hb, if_false]
    exact Memory.read_insert_self _ _ _ (by simp)

/-- A write leaves every other address alone. -/
theorem Memory.read_write_other (m : Memory) {a a' : Nat} (b : Byte) (h : a' ≠ a) : (m.write a b).read a' = m.read a' := by
  unfold Memory.write
  split
  · split
    · exact Memory.read_filter_other m h
    · exact (Memory.read_insert_other _ _ h).trans (Memory.read_filter_other m h)
  · rfl

/-! ### The canonical form -/

theorem Memory.wfFrom_mono {lo lo' : Nat} {m : Memory} (h : Memory.wfFrom lo' m = true) (hl : lo ≤ lo') :
    Memory.wfFrom lo m = true := by
  cases m with
  | nil => rfl
  | cons c rest =>
    simp only [Memory.wfFrom, Bool.and_eq_true, decide_eq_true_eq] at h ⊢
    exact ⟨⟨⟨Nat.le_trans hl h.1.1.1, h.1.1.2⟩, h.1.2⟩, h.2⟩

theorem Memory.wfFrom_filter {lo : Nat} {m : Memory} (p : Host.Cell → Bool) (h : Memory.wfFrom lo m = true) :
    Memory.wfFrom lo (m.filter p) = true := by
  induction m generalizing lo with
  | nil => rfl
  | cons c rest ih =>
    simp only [Memory.wfFrom, Bool.and_eq_true, decide_eq_true_eq] at h
    by_cases hp : p c
    · simp only [List.filter_cons, hp, if_true, Memory.wfFrom, Bool.and_eq_true, decide_eq_true_eq]
      exact ⟨h.1, ih h.2⟩
    · simp only [List.filter_cons, hp, Bool.false_eq_true, if_false]
      exact Memory.wfFrom_mono (ih h.2) (by omega)

theorem Memory.wfFrom_insert {lo a : Nat} {m : Memory} {b : Byte} (h : Memory.wfFrom lo m = true) (hlo : lo ≤ a)
    (hc : isCell a = true) (hb : b ≠ 0) (hn : ∀ c ∈ m, c.1 ≠ a) : Memory.wfFrom lo (Memory.insert m a b) = true := by
  induction m generalizing lo with
  | nil => simpa [Memory.insert, Memory.wfFrom, hlo, hc] using hb
  | cons c rest ih =>
    obtain ⟨k, v⟩ := c
    have hk : k ≠ a := hn (k, v) (by simp)
    simp only [Memory.wfFrom, Bool.and_eq_true, decide_eq_true_eq] at h
    by_cases hlt : a < k
    · simp only [Memory.insert, hlt, if_true, Memory.wfFrom, Bool.and_eq_true, decide_eq_true_eq]
      exact ⟨⟨⟨hlo, hc⟩, by simpa using hb⟩, ⟨⟨hlt, h.1.1.2⟩, h.1.2⟩, h.2⟩
    · simp only [Memory.insert, hlt, if_false, Memory.wfFrom, Bool.and_eq_true, decide_eq_true_eq]
      exact ⟨h.1, ih h.2 (by omega) fun c hc => hn c (by simp [hc])⟩

/-- A write keeps the canonical form. -/
theorem Memory.write_wf {m : Memory} (a : Nat) (b : Byte) (h : m.wf = true) : (m.write a b).wf = true := by
  unfold Memory.write
  split
  · rename_i hc
    split
    · exact Memory.wfFrom_filter _ h
    · rename_i hb
      exact Memory.wfFrom_insert (Memory.wfFrom_filter _ h) (Nat.zero_le _) hc hb (by simp)
  · exact h

/-! ### Several bytes -/

theorem Memory.writeBytes_wf {m : Memory} (a : Nat) (bs : List Byte) (h : m.wf = true) : (m.writeBytes a bs).wf = true := by
  induction bs generalizing m a with
  | nil => exact h
  | cons b bs ih => exact ih _ (Memory.write_wf a b h)

theorem Memory.writeLE_wf {m : Memory} (a n x : Nat) (h : m.wf = true) : (m.writeLE a n x).wf = true :=
  Memory.writeBytes_wf a _ h

theorem Memory.read_writeBytes_outside (m : Memory) {a p : Nat} (bs : List Byte) (h : a < p ∨ p + bs.length ≤ a) :
    (m.writeBytes p bs).read a = m.read a := by
  induction bs generalizing m p with
  | nil => rfl
  | cons b bs ih =>
    simp only [List.length_cons] at h
    simp only [Memory.writeBytes]
    rw [ih (m.write p b) (by omega), Memory.read_write_other _ _ (by omega)]

theorem Memory.read_writeBytes_inside (m : Memory) {p k : Nat} (bs : List Byte) (hk : k < bs.length)
    (hc : isCell (p + k) = true) : (m.writeBytes p bs).read (p + k) = bs[k] := by
  induction bs generalizing m p k with
  | nil => simp at hk
  | cons b bs ih =>
    simp only [Memory.writeBytes]
    cases k with
    | zero =>
      rw [Memory.read_writeBytes_outside _ _ (by omega)]
      exact Memory.read_write_self _ _ _ hc
    | succ k =>
      have e : p + (k + 1) = (p + 1) + k := by omega
      rw [e] at hc ⊢
      exact ih _ (by simpa using hk) hc

theorem numberBytes_length (n x : Nat) : (numberBytes n x).length = n := by
  induction n generalizing x with
  | zero => rfl
  | succ n ih => simp [numberBytes, ih]

theorem numberBytes_get (n x k : Nat) (h : k < (numberBytes n x).length) :
    (numberBytes n x)[k] = BitVec.ofNat 8 (x / 256 ^ k) := by
  induction n generalizing x k with
  | zero => simp [numberBytes] at h
  | succ n ih =>
    cases k with
    | zero => simp [numberBytes]
    | succ k =>
      simp only [numberBytes, List.getElem_cons_succ]
      rw [ih, Nat.div_div_eq_div_mul, Nat.pow_succ, Nat.mul_comm]

/-- A little-endian read that meets only bytes of a number written at `p` reads that field of the number. -/
theorem Memory.readLE_writeBytes (m : Memory) (p size x : Nat) :
    ∀ (n o : Nat), o + n ≤ size → (∀ k, k < size → isCell (p + k) = true) →
      (m.writeBytes p (numberBytes size x)).readLE (p + o) n = imageField x o n := by
  intro n
  induction n with
  | zero => intro o _ _; simp [Memory.readLE, imageField, Nat.mod_one]
  | succ n ih =>
    intro o ho hc
    have hb : (m.writeBytes p (numberBytes size x)).read (p + o) = BitVec.ofNat 8 (x / 256 ^ o) := by
      rw [Memory.read_writeBytes_inside _ _ (by rw [numberBytes_length]; omega) (hc o (by omega)), numberBytes_get]
    simp only [Memory.readLE, hb]
    rw [show p + o + 1 = p + (o + 1) by omega, ih (o + 1) (by omega) hc]
    simp only [imageField, BitVec.toNat_ofNat]
    rw [show (2 : Nat) ^ 8 = 256 by norm_num, Nat.pow_succ 256 o, ← Nat.div_div_eq_div_mul,
      Nat.pow_succ', Nat.mod_mul]

/-- A little-endian read that agrees byte for byte. -/
theorem Memory.readLE_congr {m m' : Memory} (n a : Nat) (h : ∀ k, a ≤ k → k < a + n → m.read k = m'.read k) :
    m.readLE a n = m'.readLE a n := by
  induction n generalizing a with
  | zero => rfl
  | succ n ih =>
    simp only [Memory.readLE]
    rw [h a (by omega) (by omega), ih (a + 1) fun k hk hk' => h k (by omega) (by omega)]

/-- Bytes written elsewhere do not touch a little-endian read. -/
theorem Memory.readLE_writeBytes_outside (m : Memory) {a n p : Nat} (bs : List Byte)
    (h : a + n ≤ p ∨ p + bs.length ≤ a) : (m.writeBytes p bs).readLE a n = m.readLE a n :=
  Memory.readLE_congr n a fun _ _ _ => Memory.read_writeBytes_outside m bs (by omega)

/-- Reading back a little-endian field that was written. -/
theorem Memory.readLE_writeLE_self (m : Memory) (a n x : Nat) (h : ∀ k, k < n → isCell (a + k) = true) :
    (m.writeLE a n x).readLE a n = x % 256 ^ n := by
  have := Memory.readLE_writeBytes m a n x n 0 (by omega) h
  simpa [Memory.writeLE, imageField] using this

theorem Memory.readLE_writeLE_outside (m : Memory) {a n p k : Nat} (x : Nat) (h : a + n ≤ p ∨ p + k ≤ a) :
    (m.writeLE p k x).readLE a n = m.readLE a n :=
  Memory.readLE_writeBytes_outside m _ (by rw [numberBytes_length]; exact h)

theorem Memory.read_writeLE_outside (m : Memory) {a p k : Nat} (x : Nat) (h : a < p ∨ p + k ≤ a) :
    (m.writeLE p k x).read a = m.read a :=
  Memory.read_writeBytes_outside m _ (by rw [numberBytes_length]; exact h)

/-! ### Layouts -/

theorem layoutBytes_length (l : List (Nat × Nat)) : (layoutBytes l).length = layoutSize l := numberBytes_length ..

/-- The first field of a layout. -/
theorem imageField_layout_head (n v : Nat) (rest : List (Nat × Nat)) :
    imageField (layoutNumber ((n, v) :: rest)) 0 n = v % 256 ^ n := by
  simp [imageField, layoutNumber, Nat.add_mul_mod_self_left]

/-- A later field of a layout is a field of the rest. -/
theorem imageField_layout_tail (n v o k : Nat) (rest : List (Nat × Nat)) (h : n ≤ o) :
    imageField (layoutNumber ((n, v) :: rest)) o k = imageField (layoutNumber rest) (o - n) k := by
  obtain ⟨d, rfl⟩ := Nat.exists_eq_add_of_le h
  have hpos : 0 < 256 ^ n := by positivity
  simp only [imageField, layoutNumber, Nat.add_sub_cancel_left, Nat.pow_add, ← Nat.div_div_eq_div_mul]
  rw [Nat.add_mul_div_left _ _ hpos, Nat.div_eq_of_lt (Nat.mod_lt _ hpos), Nat.zero_add]

end Sys2Proof.Machine
end

