-- ==== Sys2Proof/Laws/Accounts.lean ====
section
/-! SUPPORT. Account records: reading back a record that was written, what a request on one record leaves alone, and the
canonical form. -/

namespace Sys2Proof.Machine

open Sys2Proof

theorem Memory.read_eq_readLE (m : Memory) (a : Nat) : m.read a = BitVec.ofNat 8 (m.readLE a 1) := by
  simp [Memory.readLE]

/-- The eight counts of a record in order. -/
theorem faces_toList (v : Vector (BitVec 32) 8) : v.toList = [v[0], v[1], v[2], v[3], v[4], v[5], v[6], v[7]] := by
  apply List.ext_getElem
  · simp
  · intro k h1 h2
    simp only [Vector.length_toList] at h1
    have : k = 0 ∨ k = 1 ∨ k = 2 ∨ k = 3 ∨ k = 4 ∨ k = 5 ∨ k = 6 ∨ k = 7 := by omega
    rcases this with rfl | rfl | rfl | rfl | rfl | rfl | rfl | rfl <;> simp

theorem faces_eta (v : Vector (BitVec 32) 8) : #v[v[0], v[1], v[2], v[3], v[4], v[5], v[6], v[7]] = v := by
  apply Vector.ext
  intro k hk
  have : k = 0 ∨ k = 1 ∨ k = 2 ∨ k = 3 ∨ k = 4 ∨ k = 5 ∨ k = 6 ∨ k = 7 := by omega
  rcases this with rfl | rfl | rfl | rfl | rfl | rfl | rfl | rfl <;> simp

theorem accountLayout_size (a : Account) : layoutSize a.layout = 64 := by
  simp [Account.layout, faces_toList, layoutSize]

theorem accountAddr_isCell {n k : Nat} (hn : n < Config.accountCount) (hk : k < 64) : isCell (accountAddr n + k) = true := by
  apply isCell_of_ranges <;>
    simp only [accountAddr, Config.accountCount, Config.accountBase, Config.storeBytes, Config.stationBase,
      Config.stationEnd] at * <;> omega

/-- A field of account `n` after the record was rewritten. -/
theorem Memory.readLE_putAccount (m : Memory) {n o k : Nat} (a : Account) (hn : n < Config.accountCount) (h : o + k ≤ 64) :
    (m.putAccount n a).readLE (accountAddr n + o) k = imageField (layoutNumber a.layout) o k := by
  rw [Memory.putAccount, if_pos hn, layoutBytes, accountLayout_size]
  exact Memory.readLE_writeBytes m _ 64 _ k o h fun j hj => accountAddr_isCell hn hj

/-- Reading back an account record that was written. -/
theorem Memory.account_putAccount_self (m : Memory) {n : Nat} (a : Account) (hn : n < Config.accountCount) :
    (m.putAccount n a).account n = a := by
  have word : ∀ o, o + 4 ≤ 64 → (m.putAccount n a).readLE (accountAddr n + o) 4 = imageField (layoutNumber a.layout) o 4 :=
    fun o h => Memory.readLE_putAccount m a hn h
  have byte : ∀ o, o + 1 ≤ 64 →
      (m.putAccount n a).read (accountAddr n + o) = BitVec.ofNat 8 (imageField (layoutNumber a.layout) o 1) := fun o h => by
    rw [Memory.read_eq_readLE, Memory.readLE_putAccount m a hn h]
  have byte0 := byte 0 (by omega)
  rw [Nat.add_zero] at byte0
  have half := Memory.readLE_putAccount m (n := n) (o := 4) (k := 2) a hn (by omega)
  obtain ⟨state, kind, tier, od, holders, ec, bal, lim, held, fl, del, mon, faces⟩ := a
  simp only [Memory.account, word, byte, byte0, half, Nat.reduceAdd, Nat.reduceLeDiff]
  simp only [Account.layout, faces_toList, List.map_cons, List.map_nil, List.cons_append, List.nil_append,
    imageField_layout_tail, imageField_layout_head, Nat.reduceLeDiff, Nat.reduceSub, Nat.le_refl]
  have pow1 : (256 : Nat) ^ 1 = 2 ^ 8 := by norm_num
  have pow2 : (256 : Nat) ^ 2 = 2 ^ 16 := by norm_num
  have pow4 : (256 : Nat) ^ 4 = 2 ^ 32 := by norm_num
  simp only [pow1, pow2, pow4]
  simp only [Nat.mod_eq_of_lt (BitVec.isLt _), BitVec.ofNat_toNat, BitVec.setWidth_eq]
  congr 1
  · cases tier <;> cases od <;> rfl
  · cases tier <;> cases od <;> rfl
  · exact faces_eta faces

/-! ### What a rewritten record leaves alone -/

theorem Memory.read_putAccount_outside (m : Memory) {n a : Nat} (r : Account)
    (h : a < accountAddr n ∨ accountAddr n + 64 ≤ a) : (m.putAccount n r).read a = m.read a := by
  unfold Memory.putAccount
  split
  · exact Memory.read_writeBytes_outside m _ (by rw [layoutBytes_length, accountLayout_size]; exact h)
  · rfl

/-- An account record depends on its 64 bytes only. -/
theorem Memory.account_congr {m m' : Memory} {n : Nat}
    (h : ∀ a, accountAddr n ≤ a → a < accountAddr n + 64 → m.read a = m'.read a) : m.account n = m'.account n := by
  have word : ∀ o k, o + k ≤ 64 → m.readLE (accountAddr n + o) k = m'.readLE (accountAddr n + o) k := fun o k ho =>
    Memory.readLE_congr k _ fun a ha ha' => h a (by omega) (by omega)
  have byte : ∀ o, o + 1 ≤ 64 → m.read (accountAddr n + o) = m'.read (accountAddr n + o) := fun o ho =>
    h _ (by omega) (by omega)
  have byte0 := byte 0 (by omega)
  rw [Nat.add_zero] at byte0
  simp only [Memory.account, word _ _, byte0, byte, Nat.reduceAdd, Nat.reduceLeDiff]

theorem Memory.account_putAccount_other (m : Memory) {n k : Nat} (r : Account) (h : k ≠ n) :
    (m.putAccount n r).account k = m.account k := by
  apply Memory.account_congr
  intro a ha ha'
  apply Memory.read_putAccount_outside
  simp only [accountAddr] at *
  omega

theorem Memory.putAccount_wf {m : Memory} (n : Nat) (r : Account) (h : m.wf = true) : (m.putAccount n r).wf = true := by
  unfold Memory.putAccount
  split
  · exact Memory.writeBytes_wf _ _ h
  · exact h

/-! ### Requests on one record -/

/-- What a request leaves in the record it changes: the change, under the edit count (R134). -/
theorem Memory.account_editAccount_self (m : Memory) {n : Nat} (change : Account → Account) (hn : n < Config.accountCount) :
    (m.editAccount n change).account n =
      if change (m.account n) = m.account n then m.account n
      else { change (m.account n) with editCount := bracket (m.account n).editCount } := by
  simp only [Memory.editAccount]
  split
  · rfl
  · exact Memory.account_putAccount_self m _ hn

theorem Memory.account_editAccount_other (m : Memory) {n k : Nat} (change : Account → Account) (h : k ≠ n) :
    (m.editAccount n change).account k = m.account k := by
  simp only [Memory.editAccount]
  split
  · rfl
  · exact Memory.account_putAccount_other m _ h

theorem Memory.read_editAccount_outside (m : Memory) {n a : Nat} (change : Account → Account)
    (h : a < accountAddr n ∨ accountAddr n + 64 ≤ a) : (m.editAccount n change).read a = m.read a := by
  simp only [Memory.editAccount]
  split
  · rfl
  · exact Memory.read_putAccount_outside m _ h

theorem Memory.editAccount_wf {m : Memory} (n : Nat) (change : Account → Account) (h : m.wf = true) :
    (m.editAccount n change).wf = true := by
  simp only [Memory.editAccount]
  split
  · exact h
  · exact Memory.putAccount_wf _ _ h

/-- A field that a change writes and the edit count does not hold is read back as changed. -/
theorem Memory.field_editAccount_self {α : Type} (m : Memory) {n : Nat} (change : Account → Account) (field : Account → α)
    (hn : n < Config.accountCount) (hf : ∀ (a : Account) (c : Half), field { a with editCount := c } = field a) :
    field ((m.editAccount n change).account n) = field (change (m.account n)) := by
  rw [Memory.account_editAccount_self m change hn]
  split
  · rename_i h
    rw [h]
  · exact hf _ _

/-- What the application of a block leaves in the record: the change, under an edit count made odd and even (R155). -/
theorem Memory.account_bracketAccount_self (m : Memory) {n : Nat} (change : Account → Account) (hn : n < Config.accountCount) :
    (m.bracketAccount n change).account n = { change (m.account n) with editCount := bracket (m.account n).editCount } :=
  Memory.account_putAccount_self m _ hn

theorem Memory.account_bracketAccount_other (m : Memory) {n k : Nat} (change : Account → Account) (h : k ≠ n) :
    (m.bracketAccount n change).account k = m.account k := Memory.account_putAccount_other m _ h

theorem Memory.read_bracketAccount_outside (m : Memory) {n a : Nat} (change : Account → Account)
    (h : a < accountAddr n ∨ accountAddr n + 64 ≤ a) : (m.bracketAccount n change).read a = m.read a :=
  Memory.read_putAccount_outside m _ h

theorem Memory.bracketAccount_wf {m : Memory} (n : Nat) (change : Account → Account) (h : m.wf = true) :
    (m.bracketAccount n change).wf = true := Memory.putAccount_wf _ _ h

theorem Memory.account_openAccount_self (m : Memory) {n : Nat} (change : Account → Account) (hn : n < Config.accountCount) :
    (m.openAccount n change).account n =
      if change (m.account n) = m.account n then m.account n
      else { change (m.account n) with editCount := opened (m.account n).editCount } := by
  simp only [Memory.openAccount]
  split
  · rfl
  · exact Memory.account_putAccount_self m _ hn

theorem Memory.account_openAccount_other (m : Memory) {n k : Nat} (change : Account → Account) (h : k ≠ n) :
    (m.openAccount n change).account k = m.account k := by
  simp only [Memory.openAccount]
  split
  · rfl
  · exact Memory.account_putAccount_other m _ h

theorem Memory.read_openAccount_outside (m : Memory) {n a : Nat} (change : Account → Account)
    (h : a < accountAddr n ∨ accountAddr n + 64 ≤ a) : (m.openAccount n change).read a = m.read a := by
  simp only [Memory.openAccount]
  split
  · rfl
  · exact Memory.read_putAccount_outside m _ h

theorem Memory.openAccount_wf {m : Memory} (n : Nat) (change : Account → Account) (h : m.wf = true) :
    (m.openAccount n change).wf = true := by
  simp only [Memory.openAccount]
  split
  · exact h
  · exact Memory.putAccount_wf _ _ h

theorem Memory.account_closeAccount_other (m : Memory) {n k : Nat} (h : k ≠ n) :
    (m.closeAccount n).account k = m.account k := by
  simp only [Memory.closeAccount]
  split
  · exact Memory.account_putAccount_other m _ h
  · rfl

/-- The end of a request changes nothing of a record but its edit count (R134). -/
theorem Memory.field_closeAccount_self {α : Type} (m : Memory) {n : Nat} (field : Account → α)
    (hn : n < Config.accountCount) (hf : ∀ (a : Account) (c : Half), field { a with editCount := c } = field a) :
    field ((m.closeAccount n).account n) = field (m.account n) := by
  simp only [Memory.closeAccount]
  split
  · rw [Memory.account_putAccount_self m _ hn]
    exact hf _ _
  · rfl

theorem Memory.read_closeAccount_outside (m : Memory) {n a : Nat}
    (h : a < accountAddr n ∨ accountAddr n + 64 ≤ a) : (m.closeAccount n).read a = m.read a := by
  simp only [Memory.closeAccount]
  split
  · exact Memory.read_putAccount_outside m _ h
  · rfl

theorem Memory.closeAccount_wf {m : Memory} (n : Nat) (h : m.wf = true) : (m.closeAccount n).wf = true := by
  simp only [Memory.closeAccount]
  split
  · exact Memory.putAccount_wf _ _ h
  · exact h

/-! ### A longer request on one record -/

/-- A rewritten record holds the bytes of its new fields, whatever stood there. -/
theorem Memory.read_putAccount_congr {m m' : Memory} {n : Nat} (r : Account) (hn : n < Config.accountCount)
    (h : ∀ a, a < accountAddr n ∨ accountAddr n + 64 ≤ a → m.read a = m'.read a) (a : Nat) :
    (m.putAccount n r).read a = (m'.putAccount n r).read a := by
  by_cases outside : a < accountAddr n ∨ accountAddr n + 64 ≤ a
  · rw [Memory.read_putAccount_outside m r outside, Memory.read_putAccount_outside m' r outside, h a outside]
  · obtain ⟨o, rfl⟩ : ∃ o, a = accountAddr n + o := ⟨a - accountAddr n, by omega⟩
    rw [Memory.read_eq_readLE, Memory.read_eq_readLE, Memory.readLE_putAccount m r hn (by omega),
      Memory.readLE_putAccount m' r hn (by omega)]

/-- An edit count made odd and then even has been bracketed. -/
theorem opened_succ (c : Half) : opened c + 1 = bracket c := rfl

theorem isOdd_opened (c : Half) : isOdd (opened c) = true := by
  simp [isOdd, opened]

/-- A longer request that changes one record, begun under an even edit count, leaves every byte as one whole request does (R134). -/
theorem Memory.read_closeAccount_openAccount (m : Memory) {n : Nat} (change : Account → Account) (hn : n < Config.accountCount)
    (even : isOdd (m.account n).editCount = false) (a : Nat) :
    ((m.openAccount n change).closeAccount n).read a = (m.editAccount n change).read a := by
  by_cases same : change (m.account n) = m.account n
  · have kept : m.openAccount n change = m := by simp only [Memory.openAccount, same, if_true]
    simp only [kept, Memory.closeAccount, even, Memory.editAccount, same, if_true, Bool.false_eq_true, if_false]
  · have record := Memory.account_openAccount_self m change hn
    rw [if_neg same] at record
    simp only [Memory.closeAccount, record, isOdd_opened, if_true, opened_succ, Memory.editAccount, same, if_false]
    exact Memory.read_putAccount_congr _ hn (fun b hb => Memory.read_openAccount_outside m change hb) a

end Sys2Proof.Machine
end

