-- ==== Sys2Proof/Laws/State.lean ====
section
/-! SUPPORT. One lemma per field per update of the state and its parts, so that no later proof unfolds a record update. -/

namespace Sys2Proof.Machine

open Sys2Proof

section FloorUpdates

variable (f : Floor) (i j : StationId) (x : Station) (change : Station → Station) (onMem : Memory → Memory)
variable (k : IrqFlag) (v : Half) (p : Producer)

@[simp] theorem setStation_store : (f.setStation i x).store = f.store := rfl
@[simp] theorem setStation_waitQueue : (f.setStation i x).waitQueue = f.waitQueue := rfl
@[simp] theorem setStation_dropped : (f.setStation i x).dropped = f.dropped := rfl
@[simp] theorem setStation_rptWr : (f.setStation i x).rptWr = f.rptWr := rfl
@[simp] theorem setStation_irqFlag : (f.setStation i x).irqFlag = f.irqFlag := rfl
@[simp] theorem station_setStation_self : (f.setStation i x).station i = x := by
  simp [Floor.setStation, Floor.station]
@[simp] theorem station_setStation_other (h : j ≠ i) : (f.setStation i x).station j = f.station j := by
  have : i.val ≠ j.val := fun e => h (Fin.ext e.symm)
  simp [Floor.setStation, Floor.station, this]

@[simp] theorem onStation_store : (f.onStation i change).store = f.store := rfl
@[simp] theorem onStation_waitQueue : (f.onStation i change).waitQueue = f.waitQueue := rfl
@[simp] theorem onStation_dropped : (f.onStation i change).dropped = f.dropped := rfl
@[simp] theorem onStation_rptWr : (f.onStation i change).rptWr = f.rptWr := rfl
@[simp] theorem onStation_irqFlag : (f.onStation i change).irqFlag = f.irqFlag := rfl
@[simp] theorem station_onStation_self : (f.onStation i change).station i = change (f.station i) :=
  station_setStation_self ..
@[simp] theorem station_onStation_other (h : j ≠ i) : (f.onStation i change).station j = f.station j :=
  station_setStation_other _ _ _ _ h

@[simp] theorem onStore_store : (f.onStore onMem).store = onMem f.store := rfl
@[simp] theorem onStore_stations : (f.onStore onMem).stations = f.stations := rfl
@[simp] theorem onStore_waitQueue : (f.onStore onMem).waitQueue = f.waitQueue := rfl
@[simp] theorem onStore_dropped : (f.onStore onMem).dropped = f.dropped := rfl
@[simp] theorem onStore_rptWr : (f.onStore onMem).rptWr = f.rptWr := rfl
@[simp] theorem onStore_irqFlag : (f.onStore onMem).irqFlag = f.irqFlag := rfl
@[simp] theorem station_onStore : (f.onStore onMem).station i = f.station i := rfl

@[simp] theorem raise_store : (f.raise k).store = f.store := rfl
@[simp] theorem raise_stations : (f.raise k).stations = f.stations := rfl
@[simp] theorem raise_waitQueue : (f.raise k).waitQueue = f.waitQueue := rfl
@[simp] theorem raise_dropped : (f.raise k).dropped = f.dropped := rfl
@[simp] theorem raise_rptWr : (f.raise k).rptWr = f.rptWr := rfl
@[simp] theorem raise_irqFlag : (f.raise k).irqFlag = f.irqFlag ||| k.mask := rfl
@[simp] theorem station_raise : (f.raise k).station i = f.station i := rfl

@[simp] theorem clearFlags_store : (f.clearFlags v).store = f.store := rfl
@[simp] theorem clearFlags_stations : (f.clearFlags v).stations = f.stations := rfl
@[simp] theorem clearFlags_waitQueue : (f.clearFlags v).waitQueue = f.waitQueue := rfl
@[simp] theorem clearFlags_dropped : (f.clearFlags v).dropped = f.dropped := rfl
@[simp] theorem clearFlags_rptWr : (f.clearFlags v).rptWr = f.rptWr := rfl
@[simp] theorem clearFlags_irqFlag : (f.clearFlags v).irqFlag = f.irqFlag &&& ~~~v := rfl
@[simp] theorem station_clearFlags : (f.clearFlags v).station i = f.station i := rfl

@[simp] theorem enqueue_store : (f.enqueue p).store = f.store := rfl
@[simp] theorem enqueue_stations : (f.enqueue p).stations = f.stations := rfl
@[simp] theorem enqueue_waitQueue : (f.enqueue p).waitQueue = f.waitQueue ++ [p] := rfl
@[simp] theorem enqueue_dropped : (f.enqueue p).dropped = f.dropped := rfl
@[simp] theorem enqueue_rptWr : (f.enqueue p).rptWr = f.rptWr := rfl
@[simp] theorem enqueue_irqFlag : (f.enqueue p).irqFlag = f.irqFlag := rfl
@[simp] theorem station_enqueue : (f.enqueue p).station i = f.station i := rfl

end FloorUpdates

section StationUpdates

variable (x : Station) (e : Mode) (old : Station)
variable (onLine : LineUnit → LineUnit) (onLink : LinkUnit → LinkUnit) (onJam : JamUnit → JamUnit)
variable (onContext : Context → Context)

@[simp] theorem onLine_line : (x.onLine onLine).line = onLine x.line := rfl
@[simp] theorem onLine_state : (x.onLine onLine).state = x.state := rfl
@[simp] theorem onLine_context : (x.onLine onLine).context = x.context := rfl
@[simp] theorem onLine_link : (x.onLine onLine).link = x.link := rfl
@[simp] theorem onLine_jam : (x.onLine onLine).jam = x.jam := rfl
@[simp] theorem onLine_auth : (x.onLine onLine).auth = x.auth := rfl
@[simp] theorem onLine_copy : (x.onLine onLine).copy = x.copy := rfl
@[simp] theorem onLine_guardValue : (x.onLine onLine).guardValue = x.guardValue := rfl
@[simp] theorem onLine_noService : (x.onLine onLine).noService = x.noService := rfl

@[simp] theorem onLink_link : (x.onLink onLink).link = onLink x.link := rfl
@[simp] theorem onLink_state : (x.onLink onLink).state = x.state := rfl
@[simp] theorem onLink_context : (x.onLink onLink).context = x.context := rfl
@[simp] theorem onLink_line : (x.onLink onLink).line = x.line := rfl
@[simp] theorem onLink_jam : (x.onLink onLink).jam = x.jam := rfl
@[simp] theorem onLink_auth : (x.onLink onLink).auth = x.auth := rfl
@[simp] theorem onLink_copy : (x.onLink onLink).copy = x.copy := rfl
@[simp] theorem onLink_guardValue : (x.onLink onLink).guardValue = x.guardValue := rfl
@[simp] theorem onLink_noService : (x.onLink onLink).noService = x.noService := rfl

@[simp] theorem onJam_jam : (x.onJam onJam).jam = onJam x.jam := rfl
@[simp] theorem onJam_state : (x.onJam onJam).state = x.state := rfl
@[simp] theorem onJam_context : (x.onJam onJam).context = x.context := rfl
@[simp] theorem onJam_line : (x.onJam onJam).line = x.line := rfl
@[simp] theorem onJam_link : (x.onJam onJam).link = x.link := rfl
@[simp] theorem onJam_auth : (x.onJam onJam).auth = x.auth := rfl
@[simp] theorem onJam_copy : (x.onJam onJam).copy = x.copy := rfl
@[simp] theorem onJam_guardValue : (x.onJam onJam).guardValue = x.guardValue := rfl

@[simp] theorem onContext_context : (x.onContext onContext).context = onContext x.context := rfl
@[simp] theorem onContext_state : (x.onContext onContext).state = x.state := rfl
@[simp] theorem onContext_line : (x.onContext onContext).line = x.line := rfl
@[simp] theorem onContext_link : (x.onContext onContext).link = x.link := rfl
@[simp] theorem onContext_jam : (x.onContext onContext).jam = x.jam := rfl
@[simp] theorem onContext_auth : (x.onContext onContext).auth = x.auth := rfl
@[simp] theorem onContext_copy : (x.onContext onContext).copy = x.copy := rfl
@[simp] theorem onContext_guardValue : (x.onContext onContext).guardValue = x.guardValue := rfl

@[simp] theorem driveEnable_enable : (x.driveEnable e).line.enable = x.mayFeed e := rfl
@[simp] theorem driveEnable_enableHigh : (x.driveEnable e).line.enableHigh = x.copy.levelFor 6 (x.mayFeed e) := rfl
@[simp] theorem driveEnable_state : (x.driveEnable e).state = x.state := rfl
@[simp] theorem driveEnable_context : (x.driveEnable e).context = x.context := rfl
@[simp] theorem driveEnable_link : (x.driveEnable e).link = x.link := rfl
@[simp] theorem driveEnable_jam : (x.driveEnable e).jam = x.jam := rfl
@[simp] theorem driveEnable_auth : (x.driveEnable e).auth = x.auth := rfl
@[simp] theorem driveEnable_copy : (x.driveEnable e).copy = x.copy := rfl
@[simp] theorem driveEnable_guardValue : (x.driveEnable e).guardValue = x.guardValue := rfl
@[simp] theorem driveEnable_noService : (x.driveEnable e).noService = x.noService := rfl
@[simp] theorem driveEnable_outCause : (x.driveEnable e).outCause = x.outCause := rfl
@[simp] theorem driveEnable_outPending : (x.driveEnable e).outPending = x.outPending := rfl
@[simp] theorem driveEnable_nextCard : (x.driveEnable e).nextCard = x.nextCard := rfl
@[simp] theorem driveEnable_lowStart : (x.driveEnable e).lowStart = x.lowStart := rfl
@[simp] theorem driveEnable_graceStart : (x.driveEnable e).graceStart = x.graceStart := rfl
@[simp] theorem driveEnable_inPath : (x.driveEnable e).line.inPath = x.line.inPath := rfl
@[simp] theorem driveEnable_live : (x.driveEnable e).line.live = x.line.live := rfl
@[simp] theorem driveEnable_closed : (x.driveEnable e).line.closed = x.line.closed := rfl

@[simp] theorem settleRecord_line : (x.settleRecord old).line = old.line := by
  simp only [Station.settleRecord]
@[simp] theorem settleRecord_state : (x.settleRecord old).state = old.state := by
  simp only [Station.settleRecord]
@[simp] theorem settleRecord_context : (x.settleRecord old).context = old.context := by
  simp only [Station.settleRecord]
@[simp] theorem settleRecord_link : (x.settleRecord old).link = old.link := by
  simp only [Station.settleRecord]
@[simp] theorem settleRecord_jam : (x.settleRecord old).jam = old.jam := by
  simp only [Station.settleRecord]
@[simp] theorem settleRecord_auth : (x.settleRecord old).auth = old.auth := by
  simp only [Station.settleRecord]
@[simp] theorem settleRecord_copy : (x.settleRecord old).copy = old.copy := by
  simp only [Station.settleRecord]
@[simp] theorem settleRecord_guardValue : (x.settleRecord old).guardValue = old.guardValue := by
  simp only [Station.settleRecord]
@[simp] theorem settleRecord_noService : (x.settleRecord old).noService = old.noService := by
  simp only [Station.settleRecord]
@[simp] theorem settleRecord_outCause : (x.settleRecord old).outCause = old.outCause := by
  simp only [Station.settleRecord]
@[simp] theorem settleRecord_outPending : (x.settleRecord old).outPending = old.outPending := by
  simp only [Station.settleRecord]
@[simp] theorem settleRecord_nextCard : (x.settleRecord old).nextCard = old.nextCard := by
  simp only [Station.settleRecord]
@[simp] theorem settleRecord_lowStart : (x.settleRecord old).lowStart = old.lowStart := by
  simp only [Station.settleRecord]
@[simp] theorem settleRecord_graceStart : (x.settleRecord old).graceStart = old.graceStart := by
  simp only [Station.settleRecord]

end StationUpdates

section Filters

variable (l : LineUnit) (x : Station) (active : Bool) (w : WorkingCopy) (now : Time) (k : LinkUnit)

@[simp] theorem sample_samples : l.sample.samples = l.samples.tail := rfl
@[simp] theorem sample_feedHigh : l.sample.feedHigh = l.nextSample.feed := rfl
@[simp] theorem sample_exitHigh : l.sample.exitHigh = l.nextSample.exit := rfl
@[simp] theorem sample_faultHigh : l.sample.faultHigh = l.nextSample.fault := rfl
@[simp] theorem sample_feed : l.sample.feed = l.feed := rfl
@[simp] theorem sample_exit : l.sample.exit = l.exit := rfl
@[simp] theorem sample_fault : l.sample.fault = l.fault := rfl
@[simp] theorem takeFeedLevel_feed : (x.takeFeedLevel active).line.feed = active := rfl
@[simp] theorem takeFeedLevel_feedCount : (x.takeFeedLevel active).line.feedCount = 0 := rfl
@[simp] theorem takeExitLevel_exit : (x.takeExitLevel active).line.exit = active := rfl
@[simp] theorem takeExitLevel_exitCount : (x.takeExitLevel active).line.exitCount = 0 := rfl
@[simp] theorem takeFaultLevel_fault : (x.takeFaultLevel active).line.fault = active := rfl
@[simp] theorem takeFaultLevel_faultCount : (x.takeFaultLevel active).line.faultCount = 0 := rfl
@[simp] theorem seedFilters_feed : x.seedFilters.line.feed = x.copy.isActive 0 x.line.nextSample.feed := rfl
@[simp] theorem seedFilters_exit : x.seedFilters.line.exit = x.copy.isActive 1 x.line.nextSample.exit := rfl
@[simp] theorem seedFilters_fault : x.seedFilters.line.fault = x.copy.isActive 2 x.line.nextSample.fault := rfl
@[simp] theorem seedFilters_samples : x.seedFilters.line.samples = x.line.samples := rfl
@[simp] theorem seedFilters_copy : x.seedFilters.copy = x.copy := rfl
@[simp] theorem sampleLevels_line : x.sampleLevels.line = x.line.sample := rfl
@[simp] theorem sampleLevels_link : x.sampleLevels.link = x.link := rfl
@[simp] theorem sampleLevels_copy : x.sampleLevels.copy = x.copy := rfl
@[simp] theorem countSamples_link : x.countSamples.link = x.link := rfl
@[simp] theorem countSamples_copy : x.countSamples.copy = x.copy := rfl
@[simp] theorem sampleBusy_line : (x.sampleBusy now).line = x.line := rfl
@[simp] theorem sampleBusy_copy : (x.sampleBusy now).copy = x.copy := rfl
@[simp] theorem sampleBusy_link : (x.sampleBusy now).link = x.link.sampleBusy x.copy now x.link.busyHigh := rfl
@[simp] theorem sampleInputs_line : (x.sampleInputs now).line = x.sampleLevels.countSamples.line := rfl
@[simp] theorem sampleInputs_copy : (x.sampleInputs now).copy = x.copy := rfl
@[simp] theorem sampleInputs_link : (x.sampleInputs now).link = x.link.sampleBusy x.copy now x.link.busyHigh := rfl
@[simp] theorem seedFilters_feedCount : x.seedFilters.line.feedCount = 0 := rfl
@[simp] theorem seedFilters_exitCount : x.seedFilters.line.exitCount = 0 := rfl
@[simp] theorem seedFilters_faultCount : x.seedFilters.line.faultCount = 0 := rfl
@[simp] theorem startGap_gapStart : (k.startGap w now).gapStart = some now := rfl
@[simp] theorem startGap_gapLength : (k.startGap w now).gapLength = w.gap := rfl
@[simp] theorem startGap_queue : (k.startGap w now).queue = k.queue := rfl
@[simp] theorem foundHigh_awaitsHigh : k.foundHigh.awaitsHigh = false := rfl
@[simp] theorem foundHigh_assembler : k.foundHigh.assembler = k.assembler := rfl
@[simp] theorem foundHigh_rises : k.foundHigh.rises = k.rises := rfl
@[simp] theorem readersAgain_shop : (k.readersAgain w).shop = (k.offered.shop && w.acceptShop) := rfl
@[simp] theorem readersAgain_bank : (k.readersAgain w).bank = (k.offered.bank && w.acceptBank) := rfl
@[simp] theorem readersAgain_keypad : (k.readersAgain w).keypad = k.agreed.keypad := rfl
@[simp] theorem readersAgain_rows : (k.readersAgain w).rows = k.agreed.rows := rfl
@[simp] theorem pastCharacter_rises : k.pastCharacter.rises = k.rises.tail := rfl
@[simp] theorem pastCharacter_awaitsHigh : k.pastCharacter.awaitsHigh = k.awaitsHigh := rfl
@[simp] theorem pastCharacter_assembler : k.pastCharacter.assembler = k.assembler := rfl

/-- The level of a line is its active level when it is active, and the other one when it is not (00, Names). -/
theorem levelFor_eq (line : Nat) (on : Bool) :
    w.levelFor line on = if on then w.activeHigh line else !w.activeHigh line := by
  unfold WorkingCopy.levelFor
  cases on <;> cases w.activeHigh line <;> rfl

/-- No debounce count passes the debounce time (R1). -/
theorem debounced_le (line : Nat) (filtered high : Bool) (count : Nat) :
    w.debounced line filtered high count ≤ w.debounce := by
  unfold WorkingCopy.debounced
  split <;> omega

end Filters

section EndOfStep

variable (e : Mode) (f g : Floor) (s : State) (i : StationId) (change : Mode → Floor → Floor)

@[simp] theorem settle_store : (settle e f g).store = g.store := rfl
@[simp] theorem settle_waitQueue : (settle e f g).waitQueue = g.waitQueue := rfl
@[simp] theorem settle_dropped : (settle e f g).dropped = g.dropped := rfl
@[simp] theorem settle_rptWr : (settle e f g).rptWr = g.rptWr := rfl
@[simp] theorem settle_irqFlag : (settle e f g).irqFlag = g.irqFlag := rfl
@[simp] theorem settle_station :
    (settle e f g).station i = (f.station i).settleRecord ((g.station i).driveEnable e) := by
  simp [settle, Floor.station]

@[simp] theorem act_mode : (s.act change).mode = s.mode := rfl
@[simp] theorem act_port : (s.act change).port = s.port := rfl
@[simp] theorem act_pending : (s.act change).pending = s.pending := rfl
@[simp] theorem act_floor : (s.act change).floor = settle s.mode s.floor (change s.mode s.floor) := rfl

@[simp] theorem become_mode : (s.become e g).mode = e := rfl
@[simp] theorem become_port : (s.become e g).port = s.port := rfl
@[simp] theorem become_pending : (s.become e g).pending = s.pending := rfl
@[simp] theorem become_floor : (s.become e g).floor = settle e s.floor g := rfl

@[simp] theorem withPending_mode (q : List Instr) : (s.withPending q).mode = s.mode := rfl
@[simp] theorem withPending_floor (q : List Instr) : (s.withPending q).floor = s.floor := rfl
@[simp] theorem withPending_port (q : List Instr) : (s.withPending q).port = s.port := rfl
@[simp] theorem withPending_pending (q : List Instr) : (s.withPending q).pending = q := rfl

end EndOfStep

end Sys2Proof.Machine
end

