-- ==== Sys2Proof/Laws/Settle.lean ====
section
/-! SUPPORT. The end of a step: a station that stands as law L4 says and that no work touched is left as it is, and what a
step of one station leaves alone. -/

namespace Sys2Proof.Machine

open Sys2Proof

/-- Driving an ENABLE that already stands as R16 says changes nothing. -/
theorem driveEnable_same {e : Mode} {x : Station} (h : EnableStands e x) : x.driveEnable e = x := by
  obtain ⟨active, level⟩ := h
  have drain : (if x.line.enable && !x.mayFeed e then e.partTime else x.line.drainStart) = x.line.drainStart := by
    rw [active]
    cases x.mayFeed e <;> simp
  unfold Station.driveEnable
  rw [drain, ← active, levelFor_eq, ← level]

/-- A record that did not change keeps its edit count and the bytes the host left. -/
theorem settleRecord_same (x : Station) : x.settleRecord x = x := by
  have same : recordChanged x x = false := by simp only [recordChanged, bne_self_eq_false]
  simp only [Station.settleRecord, same, Bool.false_eq_true, if_false]

/-- The end of a step leaves an untouched station alone when its ENABLE stands as R16 says (L4). -/
theorem settle_same {e : Mode} {f g : Floor} {j : StationId} (h : g.station j = f.station j)
    (l4 : EnableStands e (f.station j)) : (settle e f g).station j = f.station j := by
  rw [settle_station, h, driveEnable_same l4, settleRecord_same]

/-- After a step of the units every ENABLE stands as R16 says (L4). -/
theorem settle_enable (e : Mode) (f g : Floor) (j : StationId) : EnableStands e ((settle e f g).station j) := by
  have record : ∀ x y : Station, (x.settleRecord y).mayFeed e = y.mayFeed e := by
    intro x y
    unfold Station.mayFeed Station.fundsPass Station.meetsGuard
    rw [settleRecord_state, settleRecord_context, settleRecord_guardValue]
  have drive : ∀ y : Station, (y.driveEnable e).mayFeed e = y.mayFeed e := fun y => rfl
  rw [settle_station, EnableStands, settleRecord_line, settleRecord_copy, driveEnable_enable, driveEnable_enableHigh,
    driveEnable_copy, record, drive, levelFor_eq]
  exact ⟨rfl, rfl⟩

/-- A step that leaves the floor alone is the same state, under law L4. -/
theorem act_same {s : State} {change : Mode → Floor → Floor} (l4 : EnableLaw s) (h : change s.mode s.floor = s.floor) :
    s.act change = s := by
  have stations : (settle s.mode s.floor s.floor).stations = s.floor.stations := by
    ext j hj
    exact settle_same (f := s.floor) (g := s.floor) (j := ⟨j, hj⟩) rfl (l4 ⟨j, hj⟩)
  have floor : settle s.mode s.floor s.floor = s.floor := by
    unfold settle at stations ⊢
    exact congrArg (fun v => { s.floor with stations := v }) stations
  unfold State.act
  rw [h, floor]

/-- The byte read at an address outside the station records is the store's cell. -/
theorem readByte_cell (f : Floor) {a : Nat} (h : ¬ inRecords a) : f.readByte a = f.store.read a := by
  have place : stationPlace a = none := dif_neg h
  simp only [Floor.readByte, place]

/-- The byte read in the record of station `i` depends on that station alone. -/
theorem readByte_record (f : Floor) (i : StationId) {o : Nat} (h : o < 512) :
    f.readByte (Config.stationBase + 512 * i.val + o) = BitVec.ofNat 8 (imageField (f.station i).shownImage o 1) := by
  have hi := i.isLt
  have place : stationPlace (Config.stationBase + 512 * i.val + o) = some (i, o) := by
    unfold stationPlace
    rw [dif_pos (by simp only [Config.stationBase, Config.stationEnd]; omega)]
    simp only [Option.some.injEq, Prod.mk.injEq, Fin.ext_iff]
    omega
  simp only [Floor.readByte, place]

/-- An address of the station records lies in one record at one offset. -/
theorem record_of_inRecords {a : Nat} (h : inRecords a) : ∃ (i : StationId) (o : Nat), o < 512 ∧
    a = Config.stationBase + 512 * i.val + o := by
  simp only [inRecords, Config.stationBase, Config.stationEnd] at h
  exact ⟨⟨(a - 0x2C00) / 512, by omega⟩, (a - 0x2C00) % 512, by omega, by simp only [Config.stationBase]; omega⟩

/-- What keeps the store's cells outside some addresses, and every station but one, keeps every other byte a host reads. -/
theorem keepsBytes_of {stored : Nat → Prop} {i : StationId} {f g : Floor} (others : KeepsOthers i f g)
    (cells : ∀ a, ¬ stored a → ¬ inRecords a → g.store.read a = f.store.read a) (record : ∀ a, inRecord i a → stored a) :
    KeepsBytes stored f g := by
  intro a ha
  by_cases hr : inRecords a
  · obtain ⟨j, o, ho, rfl⟩ := record_of_inRecords hr
    by_cases hj : j = i
    · subst hj
      exact absurd (record _ (by simp only [inRecord]; omega)) ha
    · rw [readByte_record g j ho, readByte_record f j ho, others j hj]
  · rw [readByte_cell g hr, readByte_cell f hr]
    exact cells a ha hr

/-- A step of the units that touches station `i` alone changes station `i` alone, under law L4. -/
theorem act_onlyStation {s : State} {i : StationId} {change : Mode → Floor → Floor} (l4 : EnableLaw s)
    (shared : KeepsShared s.floor (change s.mode s.floor)) (others : KeepsOthers i s.floor (change s.mode s.floor)) :
    OnlyStation i s (s.act change) := by
  have keeps : KeepsOthers i s.floor (s.act change).floor := fun j hj => settle_same (others j hj) (l4 j)
  exact ⟨⟨rfl, rfl, rfl⟩, shared, keeps, keepsBytes_of keeps (fun a _ _ => by rw [act_floor, settle_store, shared.1]) fun _ h => h⟩

/-! ### What a tick and an entry to service look at -/

/-- The next sample of the lines (R1, R2). -/
theorem nextSample_eq (l : LineUnit) : l.nextSample = l.comingSample := by
  unfold LineUnit.nextSample LineUnit.comingSample
  cases l.samples <;> rfl

/-- A sample of BUSY (R51, R57). -/
theorem sampleBusy_eq (x : Station) (now : Time) (high : Bool) :
    x.link.sampleBusy x.copy now high = x.busySampled now high := by
  unfold LinkUnit.sampleBusy Station.busySampled WorkingCopy.isActive LinkUnit.startCharacter
  by_cases active : high = x.copy.activeHigh 7
  · cases up : x.link.up <;> cases run : x.link.busyStart <;> simp [active, up, run]
  · cases sending : x.link.sending <;> cases char : x.link.character <;> simp [active, sending, char]

/-! ### What the link unit makes of a new working copy -/

/-- A STATION notice changes no station (R180). -/
@[simp] theorem station_stationNotice (e : Mode) (i j : StationId) (event : NoticeEvent) (cause : OutCause) (f : Floor) :
    (stationNotice e i event cause f).station j = f.station j := by
  unfold stationNotice
  split
  · split <;> rfl
  · rfl

/-- Readers agreed anew are another ability exactly when a reader differs (R41). -/
theorem readersAgain_ne (w : WorkingCopy) (l : LinkUnit) :
    l.readersAgain w ≠ l.agreed ↔
      (l.offered.shop && w.acceptShop) ≠ l.agreed.shop ∨ (l.offered.bank && w.acceptBank) ≠ l.agreed.bank := by
  unfold LinkUnit.readersAgain
  cases h : l.agreed
  simp only [ne_eq, Ability.mk.injEq, and_true]
  tauto

/-- The link unit after its station has taken up a working copy (R41). -/
theorem applySerial_link (e : Mode) (i : StationId) (old : WorkingCopy) (f : Floor) :
    ((applySerial e i old f).station i).link = (f.station i).link.serialTaken old (f.station i).copy := by
  have format : formatChanged old (f.station i).copy = true ↔
      ¬ (old.rate = (f.station i).copy.rate ∧ old.parity = (f.station i).copy.parity ∧
        old.stopBits = (f.station i).copy.stopBits) := by
    simp only [formatChanged, Bool.or_eq_true, bne_iff_ne]
    tauto
  have media : mediaChanged old (f.station i).copy = true ↔
      ¬ (old.acceptShop = (f.station i).copy.acceptShop ∧ old.acceptBank = (f.station i).copy.acceptBank) := by
    simp only [mediaChanged, Bool.or_eq_true, bne_iff_ne]
    tauto
  unfold applySerial LinkUnit.serialTaken
  dsimp only
  rw [if_congr format rfl rfl, if_congr (and_congr media (and_congr Iff.rfl (readersAgain_ne _ _))) rfl rfl]
  split
  · cases up : (f.station i).link.up <;> simp [linkDown, LinkUnit.goDown, Station.linkLost, satAdd, Config.max8, up]
  · split
    · simp only [offer, station_onStation_self]
      rfl
    · rfl

end Sys2Proof.Machine
end

