-- ==== Sys2Proof/Laws/Changes.lean ====
section
/-! SUPPORT. Work at one station composes into one change of that station, and a step of the units that is such a change
answers the state in which that station alone has changed; and the bytes that spell no frame. -/

namespace Sys2Proof.Machine

open Sys2Proof

theorem floor_ext {f g : Floor} (store : f.store = g.store) (stations : ∀ i, f.station i = g.station i)
    (waitQueue : f.waitQueue = g.waitQueue) (dropped : f.dropped = g.dropped) (rptWr : f.rptWr = g.rptWr)
    (irqFlag : f.irqFlag = g.irqFlag) : f = g := by
  have all : f.stations = g.stations := by
    ext j hj
    exact stations ⟨j, hj⟩
  cases f
  cases g
  simp_all

/-- Two changes of one station are one. -/
theorem onStation_onStation (f : Floor) (i : StationId) (a b : Station → Station) :
    (f.onStation i a).onStation i b = f.onStation i fun x => b (a x) := by
  refine floor_ext rfl (fun j => ?_) rfl rfl rfl rfl
  by_cases h : j = i
  · subst h
    simp
  · simp [h]

/-- A change that leaves a station as it is leaves the floor as it is. -/
theorem onStation_self (f : Floor) (i : StationId) {a : Station → Station} (h : a (f.station i) = f.station i) :
    f.onStation i a = f := by
  refine floor_ext rfl (fun j => ?_) rfl rfl rfl rfl
  by_cases hj : j = i
  · subst hj
    simp [h]
  · simp [hj]

/-- What a change of a station gives depends on what it makes of the station. -/
theorem onStation_congr (f : Floor) (i : StationId) {a b : Station → Station} (h : a (f.station i) = b (f.station i)) :
    f.onStation i a = f.onStation i b := by
  unfold Floor.onStation
  rw [h]

theorem unitStep_act {s : State} (change : Mode → Floor → Floor) (h : s.mode.run ≠ .clearing) :
    s.unitStep change = s.act change := if_neg h

/-- A step of the units that makes station `i` `y` answers the state in which that station alone has changed. -/
theorem changesTo_of {c : Instr} {i : StationId} {s : State} {y : Station} {change : Mode → Floor → Floor}
    (hc : exec c s = .next (s.unitStep change)) (run : s.mode.run ≠ .clearing) (l4 : EnableLaw s)
    (h : change s.mode s.floor = s.floor.onStation i fun _ => y) : ChangesTo c i s y := by
  refine ⟨s.act change, by rw [hc, unitStep_act change run], act_onlyStation l4 ?_ ?_, ?_⟩
  · rw [h]
    exact ⟨rfl, rfl, rfl, rfl, rfl⟩
  · intro j hj
    rw [h]
    simp [hj]
  · rw [act_floor, settle_station, h, station_onStation_self]
    rfl

/-- A step of the units ends as its work has made the floor. -/
theorem endsWith_of {c : Instr} {s : State} {change : Mode → Floor → Floor} (hc : exec c s = .next (s.unitStep change))
    (run : s.mode.run ≠ .clearing) : EndsWith c s (change s.mode s.floor) :=
  ⟨s.act change, by rw [hc, unitStep_act change run], ⟨rfl, rfl, rfl⟩, rfl, fun _ => settle_station ..⟩

/-- A step of the units that leaves the floor alone has no effect, under law L4. -/
theorem noEffect_of {c : Instr} {s : State} {change : Mode → Floor → Floor}
    (hc : exec c s = .next (s.unitStep change)) (l4 : EnableLaw s) (h : change s.mode s.floor = s.floor) :
    exec c s = .next s := by
  rw [hc]
  by_cases run : s.mode.run = .clearing
  · unfold State.unitStep
    rw [if_pos run]
  · rw [unitStep_act change run, act_same l4 h]

/-- Offering a frame at a station is a change of that station. -/
theorem offer_eq (i : StationId) (t : TxFrame) (f : Floor) :
    offer i t f = f.onStation i fun x => { x with link := x.link.offer t } := rfl

theorem showAndEject_eq (i : StationId) (msg : Message) (a b : Int) (f : Floor) :
    showAndEject i msg a b f = f.onStation i (Station.refusal msg a b) := by
  unfold showAndEject
  rw [offer_eq, offer_eq, onStation_onStation]
  rfl

theorem cancelAuth_eq (i : StationId) (f : Floor) :
    cancelAuth i f = f.onStation i fun x => { x with auth := x.auth.closed } := rfl

/-- The end of a session is a change of its station, as R88 says it. -/
theorem endSession_eq (e : Mode) (i : StationId) (cause : EndCause) (f : Floor) :
    endSession e i cause f = f.onStation i (Station.ended e.partTime cause) := by
  unfold endSession
  dsimp only
  by_cases h : (f.station i).state = .recovery <;> cases cause <;>
    simp only [EndCause.ejects, Bool.false_eq_true, if_false, if_true, offer_eq, onStation_onStation] <;>
    refine onStation_congr _ _ ?_ <;>
    simp only [h, if_true, if_false, Station.finaliseLost, Station.ended, Auth.shut, Auth.closed, reduceCtorEq,
      or_true, true_or, or_self]

theorem endIfLive_eq {e : Mode} {i : StationId} {cause : EndCause} {f : Floor}
    (h : (f.station i).context.condition = .live) :
    endIfLive e i cause f = f.onStation i (Station.ended e.partTime cause) := by
  unfold endIfLive
  rw [if_pos h, endSession_eq]

/-- A funding wait given up at a station without a next card, while the part does not stop, is a change of its station. -/
theorem giveUpFunding_eq {e : Mode} {i : StationId} {f : Floor} (run : e.run ≠ .stopping)
    (card : (f.station i).nextCard = none) : giveUpFunding e i f = f.onStation i Station.givenUp := by
  unfold giveUpFunding reachIdle
  simp only [run, if_false, cancelAuth_eq, onStation_onStation, station_onStation_self, Station.clearContext, card]
  rfl

/-! ### Frames that spell nothing -/

/-- Bytes of an unknown kind, of another length than their kind's, or of a KEY with an unknown key spell no frame (R44, tests 2 to 4). -/
theorem ofBytes_none {kind : Byte} {payload : List Byte}
    (h : (kind.toNat = 0 ∨ 5 < kind.toNat) ∨ (kind = 1 ∧ payload.length ≠ 3) ∨ (kind = 2 ∧ payload.length ≠ 1) ∨
      (kind = 3 ∧ payload.length ≠ 9) ∨ (kind = 4 ∧ payload.length ≠ 0) ∨ (kind = 5 ∧ payload.length ≠ 1)) :
    RxFrame.ofBytes (kind :: payload) = none := by
  unfold RxFrame.ofBytes
  dsimp only
  split_ifs with h1 h2 h3 h4 h5
  case neg => rfl
  all_goals
    subst kind
    split
    · simp at h
    · rfl

theorem ofBytes_key_none {key : Byte} (h1 : key ≠ 1) (h2 : key ≠ 2) : RxFrame.ofBytes [5, key] = none := by
  unfold RxFrame.ofBytes
  exact (if_neg h1).trans (if_neg h2)

end Sys2Proof.Machine
end

