-- ==== Sys2Proof/Laws/Floor.lean ====
section
/-! SUPPORT. What the work of the units can do to the store and to the write offset: they write account records, the report
stream and the part header only, keep the canonical form, and keep the write offset a multiple of 4 up to 8,184 (R176). -/

namespace Sys2Proof.Machine

open Sys2Proof

/-! ### The relation -/

/-- The addresses that the units' work can write: accounts, report stream, part header. -/
def inWork (a : Nat) : Prop := inAccounts a ∨ inStream a ∨ inHeader a

/-- Where a write offset may stand (R176). -/
def goodOffset (wr : Nat) : Prop := wr % 4 = 0 ∧ wr ≤ 8184

/-- What the work of the units can do to the store and the write offset. -/
structure FloorStep (f g : Floor) : Prop where
  wf : f.store.wf = true → g.store.wf = true
  offset : goodOffset f.rptWr → goodOffset g.rptWr
  keeps : goodOffset f.rptWr → ∀ a, ¬ inWork a → g.store.read a = f.store.read a

theorem FloorStep.refl (f : Floor) : FloorStep f f := ⟨id, id, fun _ _ _ => rfl⟩

theorem FloorStep.trans {f g h : Floor} (a : FloorStep f g) (b : FloorStep g h) : FloorStep f h :=
  ⟨fun w => b.wf (a.wf w), fun w => b.offset (a.offset w),
    fun w k hk => (b.keeps (a.offset w) k hk).trans (a.keeps w k hk)⟩

/-- A change that leaves the store and the write offset alone. -/
theorem FloorStep.of_same {f g : Floor} (hs : g.store = f.store) (hw : g.rptWr = f.rptWr) : FloorStep f g :=
  ⟨fun w => hs ▸ w, fun w => hw ▸ w, fun _ _ _ => by rw [hs]⟩

theorem onStation_step (f : Floor) (i : StationId) (change : Station → Station) : FloorStep f (f.onStation i change) :=
  .of_same rfl rfl

theorem setStation_step (f : Floor) (i : StationId) (x : Station) : FloorStep f (f.setStation i x) := .of_same rfl rfl

theorem enqueue_step (f : Floor) (p : Producer) : FloorStep f (f.enqueue p) := .of_same rfl rfl

theorem raise_step (f : Floor) (k : IrqFlag) : FloorStep f (f.raise k) := .of_same rfl rfl

/-- A fold over a list of steps. -/
theorem foldl_step {α : Type} (act : Floor → α → Floor) (h : ∀ f a, FloorStep f (act f a)) (l : List α) (f : Floor) :
    FloorStep f (l.foldl act f) := by
  induction l generalizing f with
  | nil => exact .refl f
  | cons a l ih => exact (h f a).trans (ih _)

theorem forStations_step (act : StationId → Floor → Floor) (h : ∀ i f, FloorStep f (act i f)) (f : Floor) :
    FloorStep f (forStations act f) := foldl_step _ (fun f i => h i f) _ f

/-! ### Accounts -/

theorem accountBytes_inAccounts {n a : Nat} (hn : n < Config.accountCount)
    (h : ¬ (a < accountAddr n ∨ accountAddr n + 64 ≤ a)) : inAccounts a := by
  simp only [inAccounts, accountAddr, Config.accountCount, Config.accountBase, Config.scratchBase] at *
  omega

theorem putAccount_keeps (m : Memory) (n : Nat) (r : Account) {a : Nat} (h : ¬ inAccounts a) :
    (m.putAccount n r).read a = m.read a := by
  by_cases hn : n < Config.accountCount
  · exact Memory.read_putAccount_outside m r (by by_contra hc; exact h (accountBytes_inAccounts hn hc))
  · simp [Memory.putAccount, hn]

theorem putAccount_step (f : Floor) (n : Nat) (r : Account) : FloorStep f (f.onStore fun m => m.putAccount n r) :=
  ⟨Memory.putAccount_wf n r, id, fun _ _ ha => putAccount_keeps _ n r fun h => ha (.inl h)⟩

theorem bracketAccount_step (f : Floor) (n : Nat) (change : Account → Account) :
    FloorStep f (f.onStore fun m => m.bracketAccount n change) := by
  refine ⟨Memory.bracketAccount_wf n change, id, fun _ a ha => ?_⟩
  exact putAccount_keeps _ n _ fun h => ha (.inl h)

theorem editAccount_step (f : Floor) (n : Nat) (change : Account → Account) :
    FloorStep f (f.onStore fun m => m.editAccount n change) := by
  unfold Memory.editAccount
  dsimp only
  refine ⟨fun w => ?_, id, fun _ a ha => ?_⟩
  · exact Memory.editAccount_wf n change w
  · simp only [onStore_store]
    split
    · rfl
    · exact putAccount_keeps _ n _ fun h => ha (.inl h)

theorem openAccount_step (f : Floor) (n : Nat) (change : Account → Account) :
    FloorStep f (f.onStore fun m => m.openAccount n change) := by
  refine ⟨Memory.openAccount_wf n change, id, fun _ a ha => ?_⟩
  simp only [onStore_store, Memory.openAccount]
  split
  · rfl
  · exact putAccount_keeps _ n _ fun h => ha (.inl h)

theorem closeAccount_step (f : Floor) (n : Nat) : FloorStep f (f.onStore fun m => m.closeAccount n) := by
  refine ⟨Memory.closeAccount_wf n, id, fun _ a ha => ?_⟩
  simp only [onStore_store, Memory.closeAccount]
  split
  · exact putAccount_keeps _ n _ fun h => ha (.inl h)
  · rfl

theorem closeAccounts_step (accounts : List Nat) (f : Floor) : FloorStep f (closeAccounts accounts f) := by
  have : closeAccounts accounts f = accounts.foldl (fun g n => g.onStore fun m => m.closeAccount n) f := by
    unfold closeAccounts
    induction accounts generalizing f with
    | nil => rfl
    | cons n rest ih => exact ih (f.onStore fun m => m.closeAccount n)
  rw [this]
  exact foldl_step _ (fun f n => closeAccount_step f n) _ f

/-! ### The part header -/

theorem headerBytes_inHeader {o n a : Nat} (h : o + n ≤ 128)
    (hc : ¬ (a < Config.headerBase + o ∨ Config.headerBase + o + n ≤ a)) : inHeader a := by
  simp only [inHeader, inBytes, Config.headerBase] at *
  omega

theorem setHeader_keeps (m : Memory) {o n a : Nat} (x : Nat) (h : o + n ≤ 128) (ha : ¬ inHeader a) :
    (m.setHeader o n x).read a = m.read a :=
  Memory.read_writeLE_outside m x (by by_contra hc; exact ha (headerBytes_inHeader h hc))

theorem setHeader_wf {m : Memory} (o n x : Nat) (h : m.wf = true) : (m.setHeader o n x).wf = true :=
  Memory.writeLE_wf _ _ _ h

theorem setHeader_step (f : Floor) {o n : Nat} (x : Nat) (h : o + n ≤ 128) :
    FloorStep f (f.onStore fun m => m.setHeader o n x) :=
  ⟨setHeader_wf o n x, id, fun _ _ ha => setHeader_keeps _ x h fun hh => ha (.inr (.inr hh))⟩

theorem clearReserved_keeps (m : Memory) {a : Nat} (ha : ¬ inHeader a) : m.clearReserved.read a = m.read a := by
  refine Memory.read_filter_keeps m _ fun b => ?_
  simp only [inHeader, inBytes, Config.headerBase, not_and] at ha
  simp only [Config.headerBase, Config.stationBase]
  by_cases h : 0x02B80 + 28 ≤ a
  · have : ¬ a < 0x02C00 := by omega
    simp [this]
  · simp [h]

theorem clearReserved_wf {m : Memory} (h : m.wf = true) : m.clearReserved.wf = true := Memory.wfFrom_filter _ h

theorem clearReserved_step (f : Floor) : FloorStep f (f.onStore Memory.clearReserved) :=
  ⟨clearReserved_wf, id, fun _ _ ha => clearReserved_keeps _ fun hh => ha (.inr (.inr hh))⟩

/-- A header edit is a step when its change is. -/
theorem editHeader_step (f : Floor) (change : Memory → Memory) (h : FloorStep f (f.onStore change)) :
    FloorStep f (f.onStore fun m => m.editHeader change) :=
  h.trans ((clearReserved_step (f.onStore change)).trans (setHeader_step ((f.onStore change).onStore Memory.clearReserved) _ (by omega)))

theorem advanceNumber_step (f : Floor) : FloorStep f (f.onStore Memory.advanceNumber) :=
  editHeader_step f _ (setHeader_step f _ (by omega))

/-! ### The report stream -/

/-- The two placements of a report: in place, or at offset 0 after a PAD (R176). -/
theorem placement (wr len : Nat) :
    (padLength wr len = 0 ∧ offsetAfter wr len = (wr + len) % 8192 ∧ (wr + len ≤ 8184 ∨ wr + len = 8192)) ∨
    (8192 ≤ wr ∧ padLength wr len = 0) ∨
    (0 < padLength wr len ∧ padLength wr len = 8192 - wr ∧ offsetAfter wr len = len) := by
  by_cases hp : wr + len ≤ 8184 ∨ wr + len = 8192
  · have : padLength wr len = 0 := if_pos hp
    exact .inl ⟨this, by simp [offsetAfter, this, Config.streamBytes], hp⟩
  · have h : padLength wr len = 8192 - wr := if_neg hp
    by_cases hw : 8192 ≤ wr
    · exact .inr (.inl ⟨hw, by omega⟩)
    · exact .inr (.inr ⟨by omega, h, by simp [offsetAfter, show padLength wr len ≠ 0 by omega]⟩)

theorem reportHeader_size (e : Mode) (len kind station : Nat) (body : List (Nat × Nat)) :
    layoutSize (reportHeader e len kind station ++ body) = 8 + layoutSize body := by
  simp only [reportHeader, List.cons_append, List.nil_append, layoutSize]
  omega

theorem padHeader_size (e : Mode) (len kind station : Nat) : layoutSize (reportHeader e len kind station) = 8 := rfl

/-- A report whose length is a multiple of 4 and that fits stays in the stream and leaves a good write offset (R176). -/
theorem writeReport_step (e : Mode) (f : Floor) (kind : ReportKind) (station : Nat) (body : List (Nat × Nat))
    (h4 : layoutSize body % 4 = 0) (hfit : fits e f (8 + layoutSize body) = true) :
    FloorStep f (writeReport e kind station body f) := by
  have hroom : padLength f.rptWr (8 + layoutSize body) + (8 + layoutSize body) ≤ 8188 := by
    have := of_decide_eq_true hfit
    unfold freeRoom roomNeeded at this
    omega
  have hplace := placement f.rptWr (8 + layoutSize body)
  refine ⟨fun w => ?_, fun ho => ?_, fun ho a ha => ?_⟩
  · simp only [writeReport, raise_store]
    split
    · exact Memory.writeBytes_wf _ _ w
    · exact Memory.writeBytes_wf _ _ (Memory.writeBytes_wf _ _ w)
  · simp only [writeReport, raise_rptWr]
    unfold goodOffset at *
    omega
  · have hs : ¬ inStream a := fun hh => ha (.inr (.inl hh))
    simp only [inStream, inBytes, Config.streamBase, Config.streamBytes, goodOffset] at hs ho
    simp only [writeReport, raise_store, Config.streamBase]
    split
    · exact Memory.read_writeBytes_outside _ _ (by rw [layoutBytes_length, reportHeader_size]; omega)
    · rw [Memory.read_writeBytes_outside _ _ (by rw [layoutBytes_length, reportHeader_size]; omega)]
      exact Memory.read_writeBytes_outside _ _ (by rw [layoutBytes_length, padHeader_size]; omega)

theorem stationNotice_step (e : Mode) (i : StationId) (event : NoticeEvent) (cause : OutCause) (f : Floor) :
    FloorStep f (stationNotice e i event cause f) := by
  unfold stationNotice
  split
  · split
    · rename_i h
      refine FloorStep.trans (writeReport_step e f .station _ _ ?_ ?_) (.of_same rfl rfl)
      · simp [layoutSize]
      · simp only [Bool.and_eq_true, decide_eq_true_eq] at h
        simp only [fits, decide_eq_true_eq]
        have := h.2
        simp only [Config.noticeRoom] at this
        exact Nat.le_trans (Nat.le_add_right _ 2048) this
    · exact .of_same rfl rfl
  · exact .refl f

end Sys2Proof.Machine
end

