-- ==== Sys2Proof/Laws/Units.lean ====
section
/-! SUPPORT. One lemma for each shared operation of the units: what it can do to the store and the write offset. -/

namespace Sys2Proof.Machine

open Sys2Proof

/-! ### Frames and authorization -/

theorem offer_step (i : StationId) (t : TxFrame) (f : Floor) : FloorStep f (offer i t f) := onStation_step ..

theorem showAndEject_step (i : StationId) (msg : Message) (a b : Int) (f : Floor) :
    FloorStep f (showAndEject i msg a b f) := (offer_step ..).trans (offer_step ..)

theorem linkDown_step (e : Mode) (i : StationId) (f : Floor) : FloorStep f (linkDown e i f) :=
  (onStation_step ..).trans (stationNotice_step ..)

theorem applySerial_step (e : Mode) (i : StationId) (old : WorkingCopy) (f : Floor) : FloorStep f (applySerial e i old f) := by
  unfold applySerial
  dsimp only
  split
  · split
    · exact (onStation_step ..).trans (linkDown_step ..)
    · exact onStation_step ..
  · split
    · exact (onStation_step ..).trans (offer_step ..)
    · exact .refl f

theorem authBody_size (w : AuthWanted) : layoutSize w.body = 24 := rfl

theorem writeAuth_step (e : Mode) (i : StationId) (f : Floor) (h : fits e f 32 = true) : FloorStep f (writeAuth e i f) := by
  unfold writeAuth
  split
  · exact .refl f
  · exact (writeReport_step e f _ _ _ (by simp [authBody_size]) (by simpa [authBody_size] using h)).trans (onStation_step ..)

theorem fits_of_mayWrite {e : Mode} {f : Floor} {len : Nat} (h : mayWrite e f len = true) : fits e f len = true := by
  simp only [mayWrite, Bool.and_eq_true] at h
  exact h.2

theorem produceAuth_step (e : Mode) (i : StationId) (kind : AuthKind) (amount : Nat) (f : Floor) :
    FloorStep f (produceAuth e i kind amount f) := by
  have next : ∀ g : Floor, FloorStep g (if mayWrite e g 32 then writeAuth e i g else g.enqueue (.auth i)) := by
    intro g
    split
    · rename_i h
      exact writeAuth_step e i g (fits_of_mayWrite h)
    · exact enqueue_step ..
  exact (onStation_step ..).trans (next _)

theorem wantAuth_step (e : Mode) (i : StationId) (kind : AuthKind) (amount : Nat) (f : Floor) :
    FloorStep f (wantAuth e i kind amount f) := by
  unfold wantAuth
  split
  · exact onStation_step ..
  · exact produceAuth_step ..

theorem cancelAuth_step (i : StationId) (f : Floor) : FloorStep f (cancelAuth i f) := onStation_step ..

/-! ### Funding -/

theorem topUp_step (i : StationId) (f : Floor) : FloorStep f (topUp i f) := by
  unfold topUp
  dsimp only
  split
  · exact (openAccount_step ..).trans (onStation_step ..)
  · exact .refl f

theorem spillTo_step (i : StationId) (slot account : Nat) (f : Floor) : FloorStep f (spillTo i slot account f) := by
  unfold spillTo
  exact (openAccount_step ..).trans (onStation_step ..)

theorem fundingSteps_step (i : StationId) (spills : Nat) (f : Floor) : FloorStep f (fundingSteps i spills f) := by
  induction spills generalizing f with
  | zero => exact topUp_step i f
  | succ n ih =>
    simp only [fundingSteps]
    split
    · exact topUp_step i f
    · split
      · exact topUp_step i f
      · split
        · exact (topUp_step i f).trans ((spillTo_step ..).trans (ih _))
        · exact topUp_step i f

theorem askIncrement_step (e : Mode) (i : StationId) (f : Floor) : FloorStep f (askIncrement e i f) := by
  unfold askIncrement
  dsimp only
  split
  · split
    · exact wantAuth_step ..
    · exact .refl f
  · exact .refl f

theorem showRemaining_step (i : StationId) (f : Floor) : FloorStep f (showRemaining i f) := offer_step ..

theorem enterLow_step (e : Mode) (i : StationId) (f : Floor) : FloorStep f (enterLow e i f) := by
  unfold enterLow
  exact (onStation_step ..).trans ((offer_step ..).trans ((stationNotice_step ..).trans
    ((onStation_step ..).trans (askIncrement_step ..))))

theorem checkPassed_step (i : StationId) (f : Floor) : FloorStep f (checkPassed i f) := by
  unfold checkPassed
  split
  · exact (onStation_step ..).trans (showRemaining_step ..)
  · exact .refl f

theorem checkFailed_step (e : Mode) (i : StationId) (f : Floor) : FloorStep f (checkFailed e i f) := by
  unfold checkFailed
  split
  · exact askIncrement_step ..
  · exact enterLow_step ..

theorem fundingCheckOpen_step (e : Mode) (i : StationId) (f : Floor) : FloorStep f (fundingCheckOpen e i f) := by
  have outcome : ∀ g, FloorStep g (if (g.station i).fundsPass then checkPassed i g else checkFailed e i g) := by
    intro g
    split
    · exact checkPassed_step ..
    · exact checkFailed_step ..
  unfold fundingCheckOpen
  dsimp only
  split
  · split
    · exact (fundingSteps_step ..).trans (outcome _)
    · exact outcome _
  · exact .refl f

theorem fundingCheck_step (e : Mode) (i : StationId) (f : Floor) : FloorStep f (fundingCheck e i f) :=
  (fundingCheckOpen_step e i f).trans (closeAccounts_step ..)

theorem reevaluate_step (e : Mode) (accounts : List Nat) (f : Floor) : FloorStep f (reevaluate e accounts f) := by
  unfold reevaluate
  dsimp only
  split
  · exact (foldl_step _ (fun g i => fundingCheckOpen_step e i g) _ f).trans
      (foldl_step _ (fun g i => closeAccounts_step (g.station i).requestAccounts g) _ _)
  · exact .refl f

/-! ### Stray tallies and account closes -/

theorem strayBody_size (m : Memory) (c : ClosedTally) : layoutSize (strayBody m c) = 88 := by
  simp [strayBody, entryBlock, layoutSize]

theorem writeStray_step (e : Mode) (i : StationId) (f : Floor) (h : fits e f 96 = true) : FloorStep f (writeStray e i f) := by
  unfold writeStray
  exact (writeReport_step e f _ _ (strayBody f.store (f.station i).line.closed) (by simp [strayBody_size])
    (by simpa [strayBody_size] using h)).trans ((bracketAccount_step ..).trans (onStation_step ..))

theorem closeStray_step (e : Mode) (i : StationId) (cause : EndCause) (f : Floor) : FloorStep f (closeStray e i cause f) := by
  unfold closeStray
  dsimp only
  split
  · exact .refl f
  · split
    · exact onStation_step ..
    · split
      · rename_i h
        exact (onStation_step ..).trans (writeStray_step e i _ (fits_of_mayWrite h))
      · exact (onStation_step ..).trans (enqueue_step ..)

theorem closedBody_size (n : Nat) (b : Bool) (a : Account) : layoutSize (closedBody n b a) = 56 := by
  simp [closedBody, faces_toList, layoutSize]

theorem writeClose_step (e : Mode) (n : Nat) (byRelease : Bool) (f : Floor) (h : fits e f 64 = true) :
    FloorStep f (writeClose e n byRelease f) := by
  unfold writeClose
  exact (writeReport_step e f _ _ _ (by simp [closedBody_size]) (by simpa [closedBody_size] using h)).trans
    (editAccount_step ..)

theorem produceClose_step (e : Mode) (n : Nat) (f : Floor) : FloorStep f (produceClose e n f) := by
  unfold produceClose
  split
  · rename_i h
    exact writeClose_step e n true f (fits_of_mayWrite h)
  · exact enqueue_step ..

/-! ### Sessions -/

theorem openSession_step (e : Mode) (i : StationId) (o : Opening) (f : Floor) : FloorStep f (openSession e i o f) := by
  unfold openSession
  exact (closeStray_step ..).trans ((advanceNumber_step ..).trans ((onStation_step ..).trans ((offer_step ..).trans
    ((onStation_step ..).trans (fundingCheck_step ..)))))

theorem openService_step (e : Mode) (i : StationId) (card : Card) (d : DirEntry) (f : Floor) :
    FloorStep f (openService e i card d f) := (editAccount_step ..).trans (openSession_step ..)

theorem acceptCustomer_step (e : Mode) (i : StationId) (card : Card) (d : DirEntry) (f : Floor) :
    FloorStep f (acceptCustomer e i card d f) := by
  unfold acceptCustomer
  dsimp only
  split
  · exact (editAccount_step ..).trans (openSession_step ..)
  · exact showAndEject_step ..

theorem beginFunding_step (e : Mode) (i : StationId) (card : Card) (f : Floor) : FloorStep f (beginFunding e i card f) :=
  (onStation_step ..).trans ((wantAuth_step ..).trans (offer_step ..))

theorem judgeCard_step (e : Mode) (i : StationId) (card : Card) (f : Floor) : FloorStep f (judgeCard e i card f) := by
  unfold judgeCard
  dsimp only
  split
  · exact showAndEject_step ..
  · split
    · split
      · exact showAndEject_step ..
      · exact beginFunding_step ..
    · split
      · exact showAndEject_step ..
      · split
        · exact showAndEject_step ..
        · split
          · exact openService_step ..
          · split
            · exact showAndEject_step ..
            · exact acceptCustomer_step ..

theorem reachIdle_step (e : Mode) (i : StationId) (f : Floor) : FloorStep f (reachIdle e i f) := by
  have next : ∀ g, FloorStep g (match (g.station i).nextCard with
      | some card => judgeCard e i card (g.onStation i fun x => { x with nextCard := none })
      | none => g) := by
    intro g
    split
    · exact (onStation_step ..).trans (judgeCard_step ..)
    · exact .refl g
  have stop : ∀ g, FloorStep g (if e.run = .stopping then closeStray e i .stop g else g) := by
    intro g
    split
    · exact closeStray_step ..
    · exact .refl g
  exact (onStation_step ..).trans ((stop _).trans (next _))

theorem answerNextCard_step (i : StationId) (f : Floor) : FloorStep f (answerNextCard i f) := by
  unfold answerNextCard
  split
  · exact (onStation_step ..).trans (showAndEject_step ..)
  · exact .refl f

theorem enterOut_step (e : Mode) (i : StationId) (cause : OutCause) (f : Floor) : FloorStep f (enterOut e i cause f) := by
  unfold enterOut
  dsimp only
  split
  · exact (onStation_step ..).trans ((closeStray_step ..).trans ((answerNextCard_step ..).trans ((offer_step ..).trans
      (stationNotice_step ..))))
  · exact (onStation_step ..).trans ((answerNextCard_step ..).trans ((offer_step ..).trans (stationNotice_step ..)))

theorem giveUpFunding_step (e : Mode) (i : StationId) (f : Floor) : FloorStep f (giveUpFunding e i f) :=
  (cancelAuth_step ..).trans ((onStation_step ..).trans (reachIdle_step ..))

theorem endSession_step (e : Mode) (i : StationId) (cause : EndCause) (f : Floor) : FloorStep f (endSession e i cause f) := by
  unfold endSession
  dsimp only
  split
  · exact (onStation_step ..).trans (offer_step ..)
  · exact onStation_step ..

theorem endIfLive_step (e : Mode) (i : StationId) (cause : EndCause) (f : Floor) : FloorStep f (endIfLive e i cause f) := by
  unfold endIfLive
  split
  · exact endSession_step ..
  · exact .refl f

theorem cardInGrace_step (e : Mode) (i : StationId) (card : Card) (f : Floor) : FloorStep f (cardInGrace e i card f) := by
  unfold cardInGrace
  dsimp only
  split
  · exact onStation_step ..
  · split
    · exact (endSession_step ..).trans (onStation_step ..)
    · exact (giveUpFunding_step ..).trans (judgeCard_step ..)

theorem sessionCardIn_step (e : Mode) (i : StationId) (card : Card) (f : Floor) : FloorStep f (sessionCardIn e i card f) := by
  unfold sessionCardIn
  dsimp only
  split
  · exact showAndEject_step ..
  · split
    · exact cardInGrace_step ..
    · split
      · exact judgeCard_step ..
      · exact onStation_step ..
      · exact onStation_step ..
      · split
        · exact .refl f
        · exact onStation_step ..
      all_goals exact .refl f

theorem sessionCardOut_step (e : Mode) (i : StationId) (f : Floor) : FloorStep f (sessionCardOut e i f) := by
  unfold sessionCardOut
  dsimp only
  split
  · exact (onStation_step ..).trans (giveUpFunding_step ..)
  · split
    · exact (onStation_step ..).trans (endIfLive_step ..)
    · exact onStation_step ..

theorem sessionKeyEnd_step (e : Mode) (i : StationId) (f : Floor) : FloorStep f (sessionKeyEnd e i f) := by
  unfold sessionKeyEnd
  dsimp only
  split
  · exact .refl f
  · split
    · exact (offer_step ..).trans (giveUpFunding_step ..)
    · split
      · exact endIfLive_step ..
      · exact .refl f

theorem sessionKeyBalance_step (e : Mode) (i : StationId) (f : Floor) : FloorStep f (sessionKeyBalance e i f) := by
  unfold sessionKeyBalance
  dsimp only
  split
  · exact .refl f
  · split
    · exact .refl f
    · exact offer_step ..

/-! ### Jams -/

theorem jamBody_size (r : JamReport) : layoutSize r.body = 16 + 8 * r.sheets.length := by
  have : ∀ l : List LostSheet, layoutSize (l.flatMap fun s => [(1, sheetByte s.sheet s.fate.code), (3, 0), (4, s.sheet.price)]) =
      8 * l.length := by
    intro l
    induction l with
    | nil => rfl
    | cons a l ih =>
      simp only [List.flatMap_cons, List.cons_append, List.nil_append, layoutSize, ih, List.length_cons]
      omega
  simp only [JamReport.body, List.cons_append, List.nil_append, layoutSize, this]
  omega

theorem writeJam_step (e : Mode) (i : StationId) (f : Floor)
    (h : ∀ r, (f.station i).jam.pendingReport = some r → fits e f (8 + layoutSize r.body) = true) :
    FloorStep f (writeJam e i f) := by
  unfold writeJam
  split
  · exact .refl f
  · rename_i r hr
    exact (writeReport_step e f _ _ _ (by rw [jamBody_size]; omega) (h r hr)).trans (onStation_step ..)

theorem produceJam_step (e : Mode) (i : StationId) (r : JamReport) (f : Floor) : FloorStep f (produceJam e i r f) := by
  unfold produceJam
  dsimp only
  split
  · rename_i h
    refine (onStation_step ..).trans (writeJam_step e i _ ?_)
    intro r' hr
    simp only [station_onStation_self, Option.some.injEq] at hr
    subst hr
    exact fits_of_mayWrite h
  · exact (onStation_step ..).trans (enqueue_step ..)

theorem onSheetAccount_step (i : StationId) (s : Sheet) (change : Account → Account) (f : Floor) :
    FloorStep f (onSheetAccount i s change f) := by
  unfold onSheetAccount
  split
  · exact editAccount_step ..
  · exact .refl f

theorem loseSheet_step (i : StationId) (s : Sheet) (f : Floor) : FloorStep f (loseSheet i s f) := by
  unfold loseSheet
  exact (onSheetAccount_step ..).trans (onStation_step ..)

theorem loseToList_step (i : StationId) (l : List Sheet) (f : Floor) : FloorStep f (loseToList i l f) := by
  induction l generalizing f with
  | nil => exact .refl f
  | cons s rest ih => exact (loseSheet_step ..).trans ((onStation_step ..).trans (ih _))

theorem stopForJam_step (i : StationId) (f : Floor) : FloorStep f (stopForJam i f) := by
  unfold stopForJam
  dsimp only
  split
  · exact (cancelAuth_step ..).trans ((offer_step ..).trans ((onStation_step ..).trans (onStation_step ..)))
  · exact onStation_step ..

theorem declareJam_step (e : Mode) (i : StationId) (cause : JamCause) (extra : List Sheet) (f : Floor) :
    FloorStep f (declareJam e i cause extra f) := by
  unfold declareJam
  exact (onStation_step ..).trans ((stopForJam_step ..).trans ((onStation_step ..).trans ((loseToList_step ..).trans
    ((onStation_step ..).trans ((produceJam_step ..).trans ((onStation_step ..).trans (offer_step ..)))))))

theorem jamCause_step (e : Mode) (i : StationId) (cause : JamCause) (extra : List Sheet) (f : Floor) :
    FloorStep f (jamCause e i cause extra f) := by
  unfold jamCause
  dsimp only
  split
  · exact declareJam_step ..
  · exact .refl f

/-! ### Settlement and the wait queue -/

theorem layoutSize_append (a b : List (Nat × Nat)) : layoutSize (a ++ b) = layoutSize a + layoutSize b := by
  induction a with
  | nil => simp [layoutSize]
  | cons x a ih => simp only [List.cons_append, layoutSize, ih]; omega

theorem entryBlock_size (en : FundingEntry) : layoutSize (entryBlock en) % 4 = 0 := by
  have grants : ∀ l : List Grant, layoutSize (l.flatMap fun g => [(8, g.reference.toNat), (4, g.amount), (4, 0)]) = 16 * l.length := by
    intro l
    induction l with
    | nil => rfl
    | cons a l ih =>
      simp only [List.flatMap_cons, List.cons_append, List.nil_append, layoutSize, ih, List.length_cons]
      omega
  unfold entryBlock
  rw [layoutSize_append]
  split
  · rw [grants]
    simp only [layoutSize]
    omega
  · simp [layoutSize]

theorem sessionBody_size (c : Context) : layoutSize (sessionBody c) % 4 = 0 := by
  have blocks : ∀ l : List FundingEntry, layoutSize (l.flatMap entryBlock) % 4 = 0 := by
    intro l
    induction l with
    | nil => rfl
    | cons a l ih =>
      rw [List.flatMap_cons, layoutSize_append]
      have := entryBlock_size a
      omega
  have delivered : layoutSize (c.delivered.toList.map fun n => (2, min n Config.max16)) = 16 := by
    have : ∀ l : List Nat, layoutSize (l.map fun n => (2, min n Config.max16)) = 2 * l.length := by
      intro l
      induction l with
      | nil => rfl
      | cons a l ih => simp only [List.map_cons, layoutSize, ih, List.length_cons]; omega
    rw [this, Vector.length_toList]
  have := blocks c.funding
  simp only [sessionBody, layoutSize_append, delivered, layoutSize]
  omega

theorem applyBlock_step (f : Floor) (en : FundingEntry) : FloorStep f (applyBlock f en) := by
  unfold applyBlock
  split
  · exact bracketAccount_step ..
  · exact .refl f

theorem closeReleased_step (e : Mode) (f : Floor) (en : FundingEntry) : FloorStep f (closeReleased e f en) := by
  unfold closeReleased
  dsimp only
  split
  · exact produceClose_step ..
  · exact .refl f

theorem moveOn_step (e : Mode) (i : StationId) (f : Floor) : FloorStep f (moveOn e i f) := by
  unfold moveOn
  dsimp only
  split
  · exact .refl f
  · split
    · exact enterOut_step ..
    · exact reachIdle_step ..

theorem writeSession_step (e : Mode) (i : StationId) (f : Floor)
    (h : fits e f (8 + layoutSize (sessionBody (f.station i).context)) = true) : FloorStep f (writeSession e i f) := by
  unfold writeSession
  exact (writeReport_step e f _ _ _ (sessionBody_size _) h).trans ((foldl_step _ applyBlock_step _ _).trans
    ((foldl_step _ (closeReleased_step e) _ _).trans ((onStation_step ..).trans ((reevaluate_step ..).trans
      (moveOn_step ..)))))

theorem enterSettling_step (e : Mode) (i : StationId) (f : Floor) : FloorStep f (enterSettling e i f) := by
  unfold enterSettling
  dsimp only
  split
  · rename_i h
    refine (onStation_step ..).trans ((offer_step ..).trans (writeSession_step e i _ ?_))
    have ctx : ∀ (g : Floor) (t : TxFrame), ((offer i t g).station i).context = (g.station i).context := by
      intro g t
      simp [offer]
    rw [ctx]
    exact fits_of_mayWrite h
  · exact (onStation_step ..).trans ((offer_step ..).trans (enqueue_step ..))

theorem writeWaitingAuth_step (e : Mode) (i : StationId) (f : Floor) (h : fits e f 32 = true) :
    FloorStep f (writeWaitingAuth e i f) := by
  unfold writeWaitingAuth
  dsimp only
  split
  · exact (writeAuth_step e i f h).trans (produceAuth_step ..)
  · exact writeAuth_step e i f h

theorem writeWaiting_step (e : Mode) (f : Floor) (p : Producer) (h : fits e f (waitingLength f p) = true) :
    FloorStep f (writeWaiting e f p) := by
  cases p with
  | session i => exact writeSession_step e i f h
  | stray i => exact writeStray_step e i f h
  | auth i => exact writeWaitingAuth_step e i f h
  | jam i =>
    refine writeJam_step e i f fun r hr => ?_
    simpa [waitingLength, hr] using h
  | close n => exact writeClose_step e n true f h

theorem moveQueue_step (e : Mode) (n : Nat) (f : Floor) : FloorStep f (moveQueue e n f) := by
  induction n generalizing f with
  | zero => exact .refl f
  | succ n ih =>
    simp only [moveQueue]
    split
    · exact .refl f
    · rename_i p rest _
      split
      · rename_i h
        refine (FloorStep.of_same (f := f) (g := { f with waitQueue := rest }) rfl rfl).trans
          ((writeWaiting_step e { f with waitQueue := rest } p ?_).trans (ih _))
        have len : waitingLength { f with waitQueue := rest } p = waitingLength f p := by
          cases p <;> rfl
        rw [len]
        exact h
      · exact .refl f

end Sys2Proof.Machine
end

