-- ==== Sys2Proof/Laws/Closing.lean ====
section
/-! SUPPORT. What writing a report leaves in the stream (R176), and what the closing of a live tally (R19, R153, R158) and the
arrival at IDLE (R91, R95, R76) do to a floor. -/

namespace Sys2Proof.Machine

open Sys2Proof

/-! ### A written report -/

theorem inStream_isCell {a : Nat} (h : inStream a) : isCell a = true := by
  simp only [inStream, inBytes, Config.streamBase, Config.streamBytes] at h
  apply isCell_of_ranges <;> simp only [Config.storeBytes, Config.stationBase, Config.stationEnd] <;> omega

/-- The place of a report that fits lies in the stream (R176). -/
theorem reportPlace_inStream {e : Mode} {f : Floor} {len k : Nat} (hfit : fits e f len = true) (ho : goodOffset f.rptWr)
    (hk : k < len) : inStream (reportPlace f.rptWr len + k) := by
  have room := of_decide_eq_true hfit
  have place := placement f.rptWr len
  simp only [freeRoom, roomNeeded, goodOffset, inStream, inBytes, reportPlace, Config.streamBase, Config.streamBytes] at *
  split <;> omega

section WriteReport

variable (e : Mode) (kind : ReportKind) (station : Nat) (body : List (Nat × Nat)) (f : Floor)

@[simp] theorem writeReport_stations : (writeReport e kind station body f).stations = f.stations := rfl
@[simp] theorem station_writeReport (i : StationId) : (writeReport e kind station body f).station i = f.station i := rfl
@[simp] theorem writeReport_waitQueue : (writeReport e kind station body f).waitQueue = f.waitQueue := rfl
@[simp] theorem writeReport_dropped : (writeReport e kind station body f).dropped = f.dropped := rfl
@[simp] theorem writeReport_rptWr :
    (writeReport e kind station body f).rptWr = offsetAfter f.rptWr (8 + layoutSize body) := rfl
@[simp] theorem writeReport_irqFlag :
    (writeReport e kind station body f).irqFlag = f.irqFlag ||| IrqFlag.report.mask := rfl

end WriteReport

/-- A field of a written report, header and body as one layout, stands at its offset from the report's place. -/
theorem readLE_writeReport {e : Mode} {f : Floor} {kind : ReportKind} {station : Nat} {body : List (Nat × Nat)} {o n : Nat}
    (hfit : fits e f (8 + layoutSize body) = true) (ho : goodOffset f.rptWr) (h : o + n ≤ 8 + layoutSize body) :
    (writeReport e kind station body f).store.readLE (reportPlace f.rptWr (8 + layoutSize body) + o) n =
      imageField (layoutNumber (reportHeader e (8 + layoutSize body) kind.code station ++ body)) o n := by
  have cells : ∀ k, k < 8 + layoutSize body → isCell (reportPlace f.rptWr (8 + layoutSize body) + k) = true :=
    fun k hk => inStream_isCell (reportPlace_inStream hfit ho hk)
  simp only [writeReport, raise_store, reportPlace, layoutBytes, reportHeader_size] at cells ⊢
  split at cells
  · rename_i pad
    rw [if_pos pad, if_pos pad]
    exact Memory.readLE_writeBytes _ _ _ _ n o h cells
  · rename_i pad
    rw [if_neg pad, if_neg pad]
    exact Memory.readLE_writeBytes _ _ _ _ n o h cells

/-- The header of a written report stands at its place (R176, 11.2). -/
theorem writeReport_header {e : Mode} {f : Floor} {kind : ReportKind} {station : Nat} {body : List (Nat × Nat)}
    (hfit : fits e f (8 + layoutSize body) = true) (ho : goodOffset f.rptWr) (hs : station < 256) :
    ReportHeaderAt (writeReport e kind station body f).store (reportPlace f.rptWr (8 + layoutSize body)) (8 + layoutSize body)
      kind station e.partTime := by
  have room := of_decide_eq_true hfit
  have small : 8 + layoutSize body < 65536 := by simp only [freeRoom, roomNeeded] at room; omega
  have code : kind.code < 256 := by cases kind <;> decide
  have field := fun o n => readLE_writeReport (kind := kind) (station := station) (o := o) (n := n) hfit ho
  refine ⟨?_, ?_, ?_, ?_⟩
  · have := field 0 2 (by omega)
    rw [Nat.add_zero] at this
    rw [this, reportHeader, List.cons_append, imageField_layout_head]
    omega
  · rw [Memory.read_eq_readLE, field 2 1 (by omega)]
    simp only [reportHeader, List.cons_append, imageField_layout_tail, imageField_layout_head, Nat.reduceSub, Nat.le_refl,
      BitVec.toNat_ofNat]
    omega
  · rw [Memory.read_eq_readLE, field 3 1 (by omega)]
    simp only [reportHeader, List.cons_append, imageField_layout_tail, imageField_layout_head, Nat.reduceLeDiff, Nat.reduceSub,
      Nat.le_refl, BitVec.toNat_ofNat]
    omega
  · rw [field 4 4 (by omega)]
    simp only [reportHeader, List.cons_append, imageField_layout_tail, imageField_layout_head, Nat.reduceLeDiff, Nat.reduceSub,
      Nat.le_refl]
    exact Nat.mod_eq_of_lt e.partTime.isLt

/-- A written report leaves every byte outside its place and its PAD alone (R176). -/
theorem read_writeReport_outside {e : Mode} {f : Floor} {kind : ReportKind} {station a : Nat} {body : List (Nat × Nat)}
    (h : ¬ inReport f.rptWr (8 + layoutSize body) a) :
    (writeReport e kind station body f).store.read a = f.store.read a := by
  simp only [inReport, inBytes, reportPlace, writeReport, raise_store] at *
  split
  · rename_i pad
    rw [if_pos pad] at h
    exact Memory.read_writeBytes_outside _ _ (by rw [layoutBytes_length, reportHeader_size]; omega)
  · rename_i pad
    rw [if_neg pad] at h
    rw [Memory.read_writeBytes_outside _ _ (by rw [layoutBytes_length, reportHeader_size]; omega)]
    exact Memory.read_writeBytes_outside _ _ (by rw [layoutBytes_length, padHeader_size]; omega)

/-- What a changed account record leaves of a report header: the accounts and the stream are apart (R164). -/
theorem ReportHeaderAt.congr {m m' : Memory} {p len station : Nat} {kind : ReportKind} {now : Time}
    (h : ReportHeaderAt m p len kind station now) (same : ∀ k, k < 8 → m'.read (p + k) = m.read (p + k)) :
    ReportHeaderAt m' p len kind station now := by
  have eq : ∀ o n, o + n ≤ 8 → m'.readLE (p + o) n = m.readLE (p + o) n := fun o n ho =>
    Memory.readLE_congr n _ fun a _ _ => by
      have := same (a - p) (by omega)
      rwa [show p + (a - p) = a by omega] at this
  obtain ⟨h1, h2, h3, h4⟩ := h
  have e0 := eq 0 2 (by omega)
  rw [Nat.add_zero] at e0
  exact ⟨e0.trans h1, by rw [same 2 (by omega)]; exact h2, by rw [same 3 (by omega)]; exact h3, (eq 4 4 (by omega)).trans h4⟩

/-! ### A closed tally -/

theorem strayAccount_eq (m : Memory) (c : ClosedTally) : strayAccount m c = houseOrZero m c.house := by
  unfold strayAccount houseOrZero
  cases (m.account c.house).isFree <;> rfl

section WriteStray

variable (e : Mode) (i : StationId) (f : Floor)

@[simp] theorem writeStray_waitQueue : (writeStray e i f).waitQueue = f.waitQueue := by
  simp only [writeStray, onStation_waitQueue, onStore_waitQueue, writeReport_waitQueue]
@[simp] theorem writeStray_dropped : (writeStray e i f).dropped = f.dropped := by
  simp only [writeStray, onStation_dropped, onStore_dropped, writeReport_dropped]
@[simp] theorem writeStray_irqFlag : (writeStray e i f).irqFlag = f.irqFlag ||| IrqFlag.report.mask := by
  simp only [writeStray, onStation_irqFlag, onStore_irqFlag, writeReport_irqFlag]
@[simp] theorem writeStray_rptWr : (writeStray e i f).rptWr = offsetAfter f.rptWr 96 := by
  simp only [writeStray, onStation_rptWr, onStore_rptWr, writeReport_rptWr, strayBody_size, Nat.reduceAdd]
theorem writeStray_station_self :
    (writeStray e i f).station i = { f.station i with line := { (f.station i).line with closed := .zero } } := by
  simp only [writeStray, station_onStation_self, station_onStore, station_writeReport]
theorem writeStray_station_other {j : StationId} (h : j ≠ i) : (writeStray e i f).station j = f.station j := by
  simp only [writeStray, station_onStation_other _ i j _ h, station_onStore, station_writeReport]
theorem writeStray_store :
    (writeStray e i f).store =
      (writeReport e .settlement (stationNumber i) (strayBody f.store (f.station i).line.closed) f).store.bracketAccount
        (houseOrZero f.store (f.station i).line.closed.house)
        (·.spend (settledAmount (f.station i).line.closed.tally.price)) := by
  simp only [writeStray, onStation_store, onStore_store, strayAccount_eq]

end WriteStray

/-- A charge, in the fields a settlement may change (R156, R158). -/
theorem spend_charged (a : Account) (units : Nat) : { a.spend units with editCount := bracket a.editCount } = a.charged units := by
  have hb : a.balance.toInt ≤ 2147483647 := by have := a.balance.toInt_lt; omega
  have limited : limit32 (a.balance.toInt - units) = max (-2147483648) (a.balance.toInt - units) := by
    simp only [limit32, Config.minUnits, Config.maxUnits]
    omega
  simp only [Account.spend, Account.withBalance, Account.markOverdrawn, Account.charged, limited, satAdd32, satAdd,
    Config.max32]

/-- Two floors that differ in nothing but the store, the wait queue, the write offset, the flags and station `i`. -/
theorem floor_with_station {f g : Floor} {i : StationId} (others : KeepsOthers i f g) (dropped : g.dropped = f.dropped) :
    g = { f with
      store := g.store, waitQueue := g.waitQueue, rptWr := g.rptWr, irqFlag := g.irqFlag
      stations := f.stations.set i (g.station i) } := by
  refine floor_ext rfl (fun j => ?_) rfl dropped rfl rfl
  by_cases h : j = i
  · subst h
    simp [Floor.station]
  · exact (others j h).trans (station_setStation_other f i j _ h).symm

/-- Station `x` with other tallies. -/
abbrev Station.withTallies (x : Station) (live : Tally) (closed : ClosedTally) : Station :=
  { x with line := { x.line with live := live, closed := closed } }

theorem bracketAccount_none (m : Memory) {n : Nat} (change : Account → Account) (hn : ¬ n < 1024) :
    m.bracketAccount n change = m := if_neg hn

/-- A report in the stream and an account record have no byte in common (R164). -/
theorem stream_account_apart {p n : Nat} (hp : inStream p) : p < accountAddr n ∨ accountAddr n + 64 ≤ p := by
  simp only [inStream, inBytes, accountAddr, Config.streamBase, Config.streamBytes, Config.accountBase] at *
  omega

theorem inReport_inStream {e : Mode} {f : Floor} {len p : Nat} (hfit : fits e f len = true) (ho : goodOffset f.rptWr)
    (h : inReport f.rptWr len p) : inStream p := by
  have room := of_decide_eq_true hfit
  have place := placement f.rptWr len
  simp only [inReport, inBytes, reportPlace, freeRoom, roomNeeded, goodOffset, inStream, Config.streamBase,
    Config.streamBytes] at *
  split at h <;> omega

/-- What the writing of a stray settlement leaves in the store: the report in the stream, the account charged, and every other byte
as it was (R153, R155, R158, R176). -/
theorem writeStray_leaves {e : Mode} {i : StationId} {f : Floor} {n : Nat}
    (named : houseOrZero f.store (f.station i).line.closed.house = n) (hfit : fits e f 96 = true) (ho : goodOffset f.rptWr) :
    ReportHeaderAt (writeStray e i f).store (reportPlace f.rptWr 96) 96 .settlement (i.val + 1) e.partTime ∧
      (n < 1024 → (writeStray e i f).store.account n =
        (f.store.account n).charged (((f.station i).line.closed.tally.price + 500) / 1000)) ∧
      ∀ p, ¬ inReport f.rptWr 96 p → ¬ inAccounts p → (writeStray e i f).store.read p = f.store.read p := by
  have size : 8 + layoutSize (strayBody f.store (f.station i).line.closed) = 96 := by rw [strayBody_size]
  rw [← size] at hfit
  have header := writeReport_header (kind := .settlement) (station := stationNumber i) hfit ho
    (by have := i.isLt; simp only [stationNumber]; omega)
  rw [size] at header hfit
  have outside : ∀ p, ¬ inReport f.rptWr 96 p →
      (writeReport e .settlement (stationNumber i) (strayBody f.store (f.station i).line.closed) f).store.read p =
        f.store.read p := by
    rw [← size]
    exact fun p hp => read_writeReport_outside hp
  rw [writeStray_store, named]
  generalize writeReport e .settlement (stationNumber i) (strayBody f.store (f.station i).line.closed) f = w at *
  refine ⟨header.congr fun k hk => ?_, fun hn => ?_, fun p hp ha => ?_⟩
  · by_cases hn : n < 1024
    · exact Memory.read_bracketAccount_outside _ _ (stream_account_apart (reportPlace_inStream hfit ho (by omega)))
    · rw [bracketAccount_none _ _ hn]
  · have same : w.store.account n = f.store.account n :=
      Memory.account_congr fun a h1 h2 => outside a fun h => by
        have := stream_account_apart (n := n) (inReport_inStream hfit ho h)
        omega
    rw [Memory.account_bracketAccount_self _ _ hn, same]
    exact spend_charged _ _
  · rw [← outside p hp]
    by_cases hn : n < 1024
    · refine Memory.read_bracketAccount_outside _ _ ?_
      by_contra h
      exact ha (accountBytes_inAccounts hn h)
    · rw [bracketAccount_none _ _ hn]

/-- A floor in which station `i` has other tallies, and else only the store, the wait queue, the write offset and the flags differ. -/
theorem floor_with_tallies {f g : Floor} {i : StationId} {live : Tally} {closed : ClosedTally} {wr : Nat} {flag : Half}
    (others : KeepsOthers i f g) (dropped : g.dropped = f.dropped) (hs : g.station i = (f.station i).withTallies live closed)
    (hw : g.rptWr = wr) (hf : g.irqFlag = flag) :
    g = { f with
      store := g.store, waitQueue := g.waitQueue, rptWr := wr, irqFlag := flag
      stations := f.stations.set i ((f.station i).withTallies (g.station i).line.live (g.station i).line.closed) } := by
  have same : (f.station i).withTallies (g.station i).line.live (g.station i).line.closed = g.station i := by rw [hs]
  rw [same, ← hw, ← hf]
  exact floor_with_station others dropped

/-- The live tally moved to a closed tally that does not wait (R19). -/
theorem closeTally_new {l : LineUnit} (house : Nat) (now : Time) (cause : EndCause) (h : l.closed.waiting = false) :
    l.closeTally house now cause =
      { l with
        live := .zero, closed := { tally := l.live, house := house, waiting := true, time := now, cause := cause } } := by
  simp only [LineUnit.closeTally, h, Bool.false_eq_true, if_false]

/-- The closing of a live tally, as `ClosesTally` says it (R19, R153, R158, R178). -/
theorem closeStray_closesTally (e : Mode) (i : StationId) (cause : EndCause) (f : Floor) (ho : goodOffset f.rptWr) :
    ClosesTally e i cause f (closeStray e i cause f) := by
  unfold closeStray
  dsimp only
  by_cases fed : (f.station i).line.live.fed = 0
  · rw [if_pos fed]
    refine ⟨?_, ?_, fun _ _ => rfl⟩
    · simp only [TallyClosed, fed, if_true, and_self]
    · simp only [fed, ne_eq, not_true, false_and, if_false]
      exact floor_with_tallies (fun _ _ => rfl) rfl rfl rfl rfl
  rw [if_neg fed]
  have others : ∀ (x : Station → Station), KeepsOthers i f (f.onStation i x) := fun x j hj =>
    station_onStation_other f i j x hj
  by_cases waiting : (f.station i).line.closed.waiting = true
  · rw [if_pos waiting]
    refine ⟨?_, ?_, fun _ _ => rfl⟩
    · simp only [TallyClosed, fed, if_false, waiting, if_true, station_onStation_self, LineUnit.closeTally, Tally.add,
        Tally.plus, satAdd, Config.max16, Config.max48, onStation_waitQueue, and_self]
    · simp only [waiting, Bool.true_eq_false, and_false, false_and, if_false]
      exact floor_with_tallies (others _) rfl (station_onStation_self ..) rfl rfl
  rw [if_neg waiting]
  rw [Bool.not_eq_true] at waiting
  have room : ∀ x : Station → Station, mayWrite e (f.onStation i x) 96 = true ↔
      f.waitQueue = [] ∧ roomNeeded f.rptWr 96 ≤ freeRoom f.rptWr e.rptRd := fun x => by
    simp only [mayWrite, fits, onStation_waitQueue, onStation_rptWr, Bool.and_eq_true, List.isEmpty_iff]
    exact and_congr Iff.rfl decide_eq_true_iff
  have moved := station_onStation_self f i fun x => { x with line := x.line.closeTally x.copy.house e.partTime cause }
  rw [closeTally_new _ _ _ waiting] at moved
  by_cases may : mayWrite e
      (f.onStation i fun x => { x with line := x.line.closeTally x.copy.house e.partTime cause }) 96 = true
  · rw [if_pos may]
    have may' := (room _).mp may
    have fit := fits_of_mayWrite may
    have leaves := writeStray_leaves (i := i) (n := houseOrZero f.store (f.station i).copy.house) (by rw [moved, onStation_store])
      fit ho
    rw [moved] at leaves
    have hi := writeStray_station_self e i
      (f.onStation i fun x => { x with line := x.line.closeTally x.copy.house e.partTime cause })
    rw [moved] at hi
    have hj : KeepsOthers i f (writeStray e i
        (f.onStation i fun x => { x with line := x.line.closeTally x.copy.house e.partTime cause })) := fun j hj => by
      rw [writeStray_station_other _ _ _ hj, station_onStation_other _ _ _ _ hj]
    have queue := writeStray_waitQueue e i
      (f.onStation i fun x => { x with line := x.line.closeTally x.copy.house e.partTime cause })
    have dropped := writeStray_dropped e i
      (f.onStation i fun x => { x with line := x.line.closeTally x.copy.house e.partTime cause })
    have flags := writeStray_irqFlag e i
      (f.onStation i fun x => { x with line := x.line.closeTally x.copy.house e.partTime cause })
    have offset := writeStray_rptWr e i
      (f.onStation i fun x => { x with line := x.line.closeTally x.copy.house e.partTime cause })
    generalize writeStray e i (f.onStation i fun x => { x with line := x.line.closeTally x.copy.house e.partTime cause }) = g at *
    obtain ⟨header, charged, cells⟩ := leaves
    refine ⟨?_, ?_, fun p hp => cells p (fun h => hp ⟨⟨fed, waiting, may'⟩, .inl h⟩) fun h => hp ⟨⟨fed, waiting, may'⟩, .inr h⟩⟩
    · simp only [TallyClosed, fed, if_false, waiting, Bool.false_eq_true]
      rw [if_pos may', hi]
      refine ⟨rfl, rfl, queue.trans may'.1, ?_, header, fun hn => ?_⟩
      · rw [Floor.flag, flags, onStation_irqFlag]
        simp [IrqFlag.mask, IrqFlag.place]
      · rw [charged hn]
        exact ⟨rfl, rfl, rfl⟩
    · rw [if_pos ⟨fed, waiting, may'⟩, if_pos ⟨fed, waiting, may'⟩]
      exact floor_with_tallies hj dropped hi offset flags
  · rw [if_neg may]
    have may' := mt (room _).mpr may
    refine ⟨?_, ?_, fun p _ => rfl⟩
    · simp only [TallyClosed, fed, if_false, waiting, Bool.false_eq_true, may', station_enqueue, moved, enqueue_waitQueue,
        onStation_waitQueue, and_self]
    · rw [if_neg fun h => may' h.2.2, if_neg fun h => may' h.2.2]
      exact floor_with_tallies (fun j hj => (station_enqueue ..).trans (others _ j hj)) rfl moved rfl rfl

/-- A field of an account that a charge does not write stays when a live tally is closed (R155, R158). -/
theorem field_closeStray {α : Type} (e : Mode) (i : StationId) (cause : EndCause) (f : Floor) {n : Nat} (field : Account → α)
    (hn : n < 1024) (ho : goodOffset f.rptWr)
    (hf : ∀ (a : Account) (units : Nat) (c : Half), field { a.spend units with editCount := c } = field a) :
    field ((closeStray e i cause f).store.account n) = field (f.store.account n) := by
  unfold closeStray
  dsimp only
  split
  · rfl
  split
  · rfl
  split
  · rename_i may
    rw [writeStray_store]
    have fit := fits_of_mayWrite may
    generalize moved : f.onStation i _ = g at *
    have store : g.store = f.store := by rw [← moved]; rfl
    have good : goodOffset g.rptWr := by rw [← moved]; exact ho
    have size : 8 + layoutSize (strayBody g.store (g.station i).line.closed) = 96 := by rw [strayBody_size]
    have same : (writeReport e .settlement (stationNumber i) (strayBody g.store (g.station i).line.closed) g).store.account n =
        f.store.account n := by
      rw [← store]
      refine Memory.account_congr fun a h1 h2 => read_writeReport_outside ?_
      rw [size]
      intro h
      have := stream_account_apart (n := n) (inReport_inStream fit good h)
      omega
    by_cases hk : houseOrZero g.store (g.station i).line.closed.house < 1024
    · by_cases hkn : n = houseOrZero g.store (g.station i).line.closed.house
      · rw [← hkn, Memory.account_bracketAccount_self _ _ hn, same]
        exact hf _ _ _
      · rw [Memory.account_bracketAccount_other _ _ hkn, same]
    · rw [bracketAccount_none _ _ hk, same]
  · rfl

/-! ### The arrival at IDLE -/

/-- Closing a live tally leaves every other station as it is. -/
theorem closeStray_others (e : Mode) (i : StationId) (cause : EndCause) (f : Floor) :
    KeepsOthers i f (closeStray e i cause f) := by
  intro j hj
  unfold closeStray
  dsimp only
  split
  · rfl
  split
  · exact station_onStation_other _ _ _ _ hj
  split
  · rw [writeStray_station_other _ _ _ hj, station_onStation_other _ _ _ _ hj]
  · rw [station_enqueue, station_onStation_other _ _ _ _ hj]

/-- Closing a live tally leaves the next-card slot as it is. -/
theorem closeStray_nextCard (e : Mode) (i : StationId) (cause : EndCause) (f : Floor) :
    ((closeStray e i cause f).station i).nextCard = (f.station i).nextCard := by
  unfold closeStray
  dsimp only
  split
  · rfl
  split
  · rw [station_onStation_self]
  split
  · rw [writeStray_station_self, station_onStation_self]
  · rw [station_enqueue, station_onStation_self]

/-- The arrival at IDLE, as `BecameIdle` says it (R91, R95, R19, R76). -/
theorem reachIdle_becameIdle (e : Mode) (i : StationId) (f : Floor) (ho : goodOffset f.rptWr) :
    BecameIdle e i f (reachIdle e i f) := by
  unfold reachIdle BecameIdle
  dsimp only
  refine ⟨fun stop => ?_, ?_⟩
  · rw [if_pos stop]
    exact closeStray_closesTally _ _ _ _ ho
  · by_cases stop : e.run = .stopping
    · simp only [stop, if_true, closeStray_nextCard, station_onStation_self]
      cases (f.station i).nextCard with
      | none => rfl
      | some card => simp only [judgeCard, stop, if_true, showAndEject_eq]
    · simp only [stop, if_false, station_onStation_self]
      cases (f.station i).nextCard <;> rfl

end Sys2Proof.Machine
end

