-- ==== Sys2Proof/Laws/Jams.lean ====
section
/-! SUPPORT. What the jam unit does: the treatment of lost sheets (R117), and the declaration of a jam (R116 to R120). -/

namespace Sys2Proof.Machine

open Sys2Proof

/-! ### One lost sheet -/

/-- The account a sheet is counted on is that of its entry, whatever the entry has committed. -/
theorem accountOf_lose (c : Context) (s t : Sheet) (fate : Fate) : (c.lose s fate).accountOf t = c.accountOf t := by
  unfold Context.lose Context.accountOf
  cases fate <;> cases s.target <;> cases t.target <;> try rfl
  rename_i k j
  simp only [Context.onEntry, List.getElem?_modify]
  by_cases h : k.val = j.val
  · cases c.funding[j.val]? <;> simp [h, FundingEntry.namesAccount]
  · simp only [h, if_false]
    cases c.funding[j.val]? <;> rfl

/-- What the treatment of one lost sheet does to the account it is counted on (R117, R136). -/
theorem field_onSheetAccount_drop (i : StationId) (s : Sheet) (f : Floor) {n : Nat} (hn : n < 1024) :
    let a := f.store.account n
    let b := (onSheetAccount i s (·.dropInFlight (facesOf s.cls)) f).store.account n
    b = { a with inFlight := b.inFlight, editCount := b.editCount } ∧
      b.inFlight.toNat = a.inFlight.toNat - if (f.station i).context.accountOf s = some n then facesOf s.cls else 0 := by
  intro a b
  have same : ∀ h : b = a, b = { a with inFlight := b.inFlight, editCount := b.editCount } := fun h => by rw [h]
  cases named : (f.station i).context.accountOf s with
  | none =>
    have e : b = a := by simp only [b, onSheetAccount, named, a]
    exact ⟨same e, by rw [e]; simp⟩
  | some m =>
    by_cases h : m = n
    · subst h
      have e : b = if a.dropInFlight (facesOf s.cls) = a then a
          else { a.dropInFlight (facesOf s.cls) with editCount := bracket a.editCount } := by
        simp only [b, onSheetAccount, named, onStore_store, a]
        exact Memory.account_editAccount_self _ _ hn
      have drop : (BitVec.ofNat 32 (a.inFlight.toNat - facesOf s.cls)).toNat = a.inFlight.toNat - facesOf s.cls := by
        have := a.inFlight.isLt
        rw [BitVec.toNat_ofNat]
        omega
      by_cases unchanged : a.dropInFlight (facesOf s.cls) = a
      · rw [if_pos unchanged] at e
        refine ⟨same e, ?_⟩
        rw [e, if_pos rfl, ← drop]
        exact congrArg (fun x : Account => x.inFlight.toNat) unchanged.symm
      · rw [if_neg unchanged] at e
        exact ⟨by rw [e]; rfl, by rw [e, if_pos rfl, ← drop]; rfl⟩
    · have e : b = a := by
        simp only [b, onSheetAccount, named, onStore_store, a]
        exact Memory.account_editAccount_other _ _ fun hh => h hh.symm
      have ne : ¬ some m = some n := fun hh => h (Option.some.inj hh)
      exact ⟨same e, by rw [e, if_neg ne, Nat.sub_zero]⟩

/-- A change of the account a sheet is counted on keeps everything of the floor but account records. -/
theorem onSheetAccount_keeps (i : StationId) (s : Sheet) (change : Account → Account) (f : Floor) :
    let g := onSheetAccount i s change f
    g = { f with store := g.store } ∧ ∀ p, ¬ inAccounts p → g.store.read p = f.store.read p := by
  unfold onSheetAccount
  split
  · refine ⟨rfl, fun p hp => ?_⟩
    simp only [onStore_store, Memory.editAccount]
    split
    · rfl
    · exact putAccount_keeps _ _ _ hp
  · exact ⟨rfl, fun _ _ => rfl⟩

/-! ### The lost sheets of a jam -/

/-- How many sheets of a list are strays, and how many belong to the session. -/
abbrev straysOf (sheets : List Sheet) : Nat := sheets.countP fun p => p.target == .stray
abbrev sessionsOf (sheets : List Sheet) : Nat := sheets.countP fun p => p.target != .stray

/-- What entry `k` is credited for a lost list (R117). -/
abbrev creditOf (lost : List LostSheet) (k : Fin 3) : Nat :=
  ((lost.filter fun l => l.fate == .credited && l.sheet.target == .entry k).map fun l => l.sheet.price).sum

/-- A station whose path has lost a sheet to the lost list (R116, R117). -/
abbrev Station.losing (s : Sheet) (x : Station) : Station :=
  { x with
    context := x.context.lose s (x.fateOf s)
    line := if x.fateOf s = .stray then x.line.loseStrays 1 else x.line
    jam := { x.jam with lost := x.jam.lost ++ [⟨s, x.fateOf s⟩] } }

/-- One step of `loseToList`. -/
abbrev losePushed (i : StationId) (s : Sheet) (f : Floor) : Floor :=
  (loseSheet i s f).onStation i fun x =>
    { x with jam := { x.jam with lost := x.jam.lost ++ [⟨s, (f.station i).fateOf s⟩] } }

theorem loseOne (i : StationId) (s : Sheet) (f : Floor) :
    let g := losePushed i s f
    g = { f with store := g.store, stations := f.stations.set i ((f.station i).losing s) } ∧
      (∀ n, n < 1024 → let a := f.store.account n
        let b := g.store.account n
        b = { a with inFlight := b.inFlight, editCount := b.editCount } ∧ b.inFlight.toNat =
          a.inFlight.toNat - if (f.station i).context.accountOf s = some n then facesOf s.cls else 0) ∧
      ∀ p, ¬ inAccounts p → g.store.read p = f.store.read p := by
  obtain ⟨kept, cells⟩ := onSheetAccount_keeps i s (·.dropInFlight (facesOf s.cls)) f
  have store : (losePushed i s f).store = (onSheetAccount i s (·.dropInFlight (facesOf s.cls)) f).store := by
    simp only [losePushed, loseSheet, onStation_store]
  refine ⟨?_, fun n hn => ?_, fun p hp => by rw [store, cells p hp]⟩
  · unfold losePushed loseSheet
    dsimp only
    rw [kept, onStation_onStation]
    rfl
  · simp only [store]
    exact field_onSheetAccount_drop i s f hn

/-- What a floor that differs in its store and one station keeps. -/
theorem stored_facts {f g : Floor} {i : StationId} {y : Station}
    (h : g = { f with store := g.store, stations := f.stations.set i y }) :
    g.station i = y ∧ KeepsOthers i f g ∧ g.waitQueue = f.waitQueue ∧ g.dropped = f.dropped ∧ g.rptWr = f.rptWr ∧
      g.irqFlag = f.irqFlag := by
  rw [h]
  exact ⟨station_setStation_self .., fun j hj => station_setStation_other _ i j _ hj, rfl, rfl, rfl, rfl⟩

/-- What a floor keeps that differs in its store, one station, the wait queue, the write offset and the flags. -/
theorem written_facts {f g : Floor} {i : StationId} {y : Station} {wq : List Producer} {wr : Nat} {fl : Half}
    (h : g = { f with
      store := g.store, stations := f.stations.set i y, waitQueue := wq, rptWr := wr, irqFlag := fl }) :
    g.station i = y ∧ KeepsOthers i f g ∧ g.waitQueue = wq ∧ g.dropped = f.dropped ∧ g.rptWr = wr ∧ g.irqFlag = fl := by
  rw [h]
  exact ⟨station_setStation_self .., fun j hj => station_setStation_other _ i j _ hj, rfl, rfl, rfl, rfl⟩

/-- Treating the sheets of a jam, oldest first (R116 steps 3 and 4, R117). -/
theorem loseToList_leaves (i : StationId) (sheets : List Sheet) (f : Floor) :
    let x := f.station i
    let g := loseToList i sheets f
    let credited := min (sessionsOf sheets) (x.copy.creditCap - x.context.lostCredited)
    ∃ (lost : List LostSheet) (funding : List FundingEntry),
      g = { f with
        store := g.store
        stations := f.stations.set i { x with
          context := { x.context with
            funding := funding, lostCredited := x.context.lostCredited + credited
            lostCharged := x.context.lostCharged + (sessionsOf sheets - credited) }
          line := { x.line with live := { x.line.live with
            lost := if straysOf sheets = 0 then x.line.live.lost else min (x.line.live.lost + straysOf sheets) 65535 } }
          jam := { x.jam with lost := x.jam.lost ++ lost } } } ∧
      lost.map LostSheet.sheet = sheets ∧ (∀ l ∈ lost, l.fate = .stray ↔ l.sheet.target = .stray) ∧
      (lost.map LostSheet.fate).filter (· != .stray) =
        List.replicate credited .credited ++ List.replicate (sessionsOf sheets - credited) .charged ∧
      funding.length = x.context.funding.length ∧
      (∀ (k : Fin 3) (en : FundingEntry), x.context.funding[k.val]? = some en →
        funding[k.val]? = some { en with committed := en.committed - creditOf lost k }) ∧
      (∀ n, n < 1024 → let a := f.store.account n
        let b := g.store.account n
        b = { a with inFlight := b.inFlight, editCount := b.editCount } ∧ b.inFlight.toNat = a.inFlight.toNat -
          ((sheets.filter fun p => x.context.accountOf p == some n).map fun p => facesOf p.cls).sum) ∧
      ∀ p, ¬ inAccounts p → g.store.read p = f.store.read p := by
  induction sheets generalizing f with
  | nil =>
    refine ⟨[], (f.station i).context.funding, ?_, rfl, by simp, by simp, rfl, fun k en h => by simpa [creditOf] using h,
      fun n _ => ⟨rfl, by simp [loseToList]⟩, fun _ _ => rfl⟩
    refine floor_ext rfl (fun j => ?_) rfl rfl rfl rfl
    by_cases h : j = i
    · subst h
      simp [Floor.station, loseToList]
    · exact (station_setStation_other f i j _ h).symm
  | cons s rest ih =>
    obtain ⟨floor, account, cells⟩ := loseOne i s f
    have counts : straysOf (s :: rest) = straysOf rest + (if s.target = .stray then 1 else 0) ∧
        sessionsOf (s :: rest) = sessionsOf rest + (if s.target = .stray then 0 else 1) := by
      simp only [straysOf, sessionsOf, List.countP_cons]
      cases s.target <;> simp
    rw [show loseToList i (s :: rest) f = loseToList i rest (losePushed i s f) from rfl]
    generalize losePushed i s f = g at *
    have at_i : g.station i = (f.station i).losing s := by
      rw [floor]
      exact station_setStation_self ..
    obtain ⟨lost, funding, h1, h2, h3, h4, h5, h6, h7, h8⟩ := ih g
    clear ih
    simp only [at_i] at h1 h4 h5 h6 h7
    have fate_iff : (f.station i).fateOf s = .stray ↔ s.target = .stray := by
      unfold Station.fateOf
      cases s.target <;> simp
      split <;> simp
    have all_iff : ∀ l ∈ (⟨s, (f.station i).fateOf s⟩ : LostSheet) :: lost, l.fate = .stray ↔ l.sheet.target = .stray := by
      intro l hl
      rcases List.mem_cons.mp hl with rfl | hl
      · exact fate_iff
      · exact h3 l hl
    have accounts : ∀ n, n < 1024 → let a := f.store.account n
        let b := (loseToList i rest g).store.account n
        b = { a with inFlight := b.inFlight, editCount := b.editCount } ∧ b.inFlight.toNat = a.inFlight.toNat -
          (((s :: rest).filter fun p => (f.station i).context.accountOf p == some n).map fun p => facesOf p.cls).sum := by
      intro n hn a b
      obtain ⟨e1, v1⟩ := account n hn
      obtain ⟨e2, v2⟩ := h7 n hn
      refine ⟨?_, ?_⟩
      · rw [show b = _ from e2, e1]
      · rw [v2, v1, Nat.sub_sub]
        simp only [accountOf_lose, List.filter_cons]
        by_cases named : (f.station i).context.accountOf s = some n
        · rw [if_pos named, if_pos (by simp [named]), List.map_cons, List.sum_cons]
        · rw [if_neg named, if_neg (by simp [named]), Nat.zero_add]
    have whole : ∀ y z : Station, y = z →
        loseToList i rest g = { g with store := (loseToList i rest g).store, stations := g.stations.set i y } →
        loseToList i rest g = { f with store := (loseToList i rest g).store, stations := f.stations.set i z } := by
      intro y z yz h
      generalize loseToList i rest g = r at *
      rw [h, floor]
      refine floor_ext rfl (fun j => ?_) rfl rfl rfl rfl
      by_cases hj : j = i
      · subst hj
        simp [Floor.station, yz]
      · have hv : i.val ≠ j.val := fun e => hj (Fin.ext e.symm)
        simp [Floor.station, hv]
    refine ⟨⟨s, (f.station i).fateOf s⟩ :: lost, funding, ?_⟩
    cases target : s.target with
    | stray =>
      have fate : (f.station i).fateOf s = .stray := fate_iff.mpr target
      simp only [target, if_true, Nat.add_zero] at counts
      simp only [fate, Context.lose, if_true, LineUnit.loseStrays] at h1 h4 h5 h6
      refine ⟨?_, by simp [h2], all_iff, ?_, h5, ?_, accounts, fun p hp => (h8 p hp).trans (cells p hp)⟩
      · refine whole _ _ ?_ h1
        simp only [fate, counts.2, counts.1, List.append_assoc, List.cons_append, List.nil_append, satAdd, Config.max16,
          if_neg (Nat.succ_ne_zero _)]
        congr 3
        split <;> omega
      · simp only [List.map_cons, fate, List.filter_cons, counts.2]
        exact h4
      · intro k en hen
        rw [h6 k en hen]
        simp [creditOf, fate]
    | entry k =>
      have notStray : ¬ (f.station i).fateOf s = .stray := fun h => by rw [fate_iff, target] at h; cases h
      simp only [target, reduceCtorEq, if_false, Nat.add_zero] at counts
      simp only [notStray, if_false] at h1 h4 h5 h6
      by_cases credit : (f.station i).context.lostCredited < (f.station i).copy.creditCap
      · have fate : (f.station i).fateOf s = .credited := by simp [Station.fateOf, target, credit]
        simp only [fate, Context.lose, target, Context.onEntry] at h1 h4 h5 h6
        refine ⟨?_, by simp [h2], all_iff, ?_, by simpa using h5, ?_, accounts, fun p hp => (h8 p hp).trans (cells p hp)⟩
        · refine whole _ _ ?_ h1
          simp only [fate, counts.2, counts.1, List.append_assoc, List.cons_append, List.nil_append]
          congr 2 <;> omega
        · simp only [List.map_cons, fate, List.filter_cons, counts.2]
          rw [if_pos (by decide), h4,
            show min (sessionsOf rest + 1) ((f.station i).copy.creditCap - (f.station i).context.lostCredited) =
              min (sessionsOf rest) ((f.station i).copy.creditCap - ((f.station i).context.lostCredited + 1)) + 1 by omega,
            List.replicate_succ, List.cons_append, Nat.add_sub_add_right]
        · intro j en hen
          by_cases same : k = j
          · subst same
            rw [h6 k { en with committed := en.committed - s.price } (by simp [hen])]
            simp [creditOf, fate, target, Nat.sub_sub]
          · have ne : ¬ k.val = j.val := fun h => same (Fin.ext h)
            rw [h6 j en (by simp [hen, ne])]
            simp [creditOf, fate, target, same]
      · have fate : (f.station i).fateOf s = .charged := by simp [Station.fateOf, target, credit]
        simp only [fate, Context.lose] at h1 h4 h5 h6
        refine ⟨?_, by simp [h2], all_iff, ?_, h5, ?_, accounts, fun p hp => (h8 p hp).trans (cells p hp)⟩
        · refine whole _ _ ?_ h1
          simp only [fate, counts.2, counts.1, List.append_assoc, List.cons_append, List.nil_append]
          congr 2 <;> omega
        · simp only [List.map_cons, fate, List.filter_cons, counts.2]
          have none : (f.station i).copy.creditCap - (f.station i).context.lostCredited = 0 := by omega
          rw [none, Nat.min_zero, Nat.sub_zero, List.replicate_zero, List.nil_append] at h4 ⊢
          rw [if_pos (by decide), h4, List.replicate_succ]
        · intro j en hen
          rw [h6 j en hen]
          simp [creditOf, fate]

/-- Sheets lost while no funding entry stands change no byte of the store. -/
theorem loseToList_store (i : StationId) (sheets : List Sheet) (f : Floor) (h : (f.station i).context.funding = []) :
    (loseToList i sheets f).store = f.store := by
  induction sheets generalizing f with
  | nil => rfl
  | cons s rest ih =>
    have unnamed : (f.station i).context.accountOf s = none := by
      unfold Context.accountOf
      cases s.target <;> simp [h]
    have store : (losePushed i s f).store = f.store := by
      simp only [losePushed, loseSheet, onStation_store, onSheetAccount, unnamed]
    have next : ((losePushed i s f).station i).context.funding = [] := by
      rw [(stored_facts (loseOne i s f).1).1]
      simp only [Context.lose]
      cases (f.station i).fateOf s <;> cases s.target <;> simp [h, Context.onEntry]
    rw [show loseToList i (s :: rest) f = loseToList i rest (losePushed i s f) from rfl, ih _ next, store]

/-! ### The JAM report and the declaration -/

/-- Whether the report writer has room for a report of length `len` at once (R178). -/
theorem mayWrite_iff (e : Mode) (f : Floor) (len : Nat) :
    mayWrite e f len = true ↔ f.waitQueue = [] ∧ roomNeeded f.rptWr len ≤ freeRoom f.rptWr e.rptRd := by
  simp [mayWrite, fits]

/-- The production of a JAM report: written with room, else waiting (R119, R178). -/
theorem produceJam_leaves (e : Mode) (i : StationId) (r : JamReport) (f : Floor) (ho : goodOffset f.rptWr) :
    let g := produceJam e i r f
    let len := 24 + 8 * r.sheets.length
    let room := f.waitQueue = [] ∧ roomNeeded f.rptWr len ≤ freeRoom f.rptWr e.rptRd
    g = { f with
      store := g.store
      stations := f.stations.set i
        { f.station i with jam := { (f.station i).jam with pendingReport := if room then none else some r } }
      waitQueue := if room then [] else f.waitQueue ++ [.jam i]
      rptWr := if room then offsetAfter f.rptWr len else f.rptWr
      irqFlag := if room then f.irqFlag ||| IrqFlag.report.mask else f.irqFlag } ∧
      (room → ReportHeaderAt g.store (reportPlace f.rptWr len) len .jam (i.val + 1) e.partTime) ∧
      ∀ p, ¬ (room ∧ inReport f.rptWr len p) → g.store.read p = f.store.read p := by
  intro g len room
  have size : 8 + layoutSize r.body = len := by rw [jamBody_size]; omega
  have combine : KeepsOthers i f g → g.dropped = f.dropped → ∀ y wq wr fl, g.station i = y → g.waitQueue = wq →
      g.rptWr = wr → g.irqFlag = fl →
      g = { f with store := g.store, stations := f.stations.set i y, waitQueue := wq, rptWr := wr, irqFlag := fl } := by
    intro others dropped y wq wr fl hy hwq hwr hfl
    subst hy hwq hwr hfl
    exact floor_with_station others dropped
  by_cases h : room
  · have fit : fits e f (8 + layoutSize r.body) = true := by rw [size]; exact decide_eq_true h.2
    have written : g = (writeReport e .jam (stationNumber i) r.body f).onStation i fun x =>
        { x with jam := { x.jam with pendingReport := none } } := by
      simp only [g, produceJam]
      rw [if_pos ((mayWrite_iff e _ _).mpr (by rw [size]; exact h)), writeJam]
      simp only [station_onStation_self]
      refine floor_ext rfl (fun j => ?_) rfl rfl rfl rfl
      by_cases hj : j = i
      · subst hj
        simp only [station_onStation_self, station_writeReport]
      · simp only [station_onStation_other _ i j _ hj, station_writeReport]
    rw [if_pos h, if_pos h, if_pos h, if_pos h]
    refine ⟨combine ?_ ?_ _ _ _ _ ?_ ?_ ?_ ?_, fun _ => ?_, fun p hp => ?_⟩
    · intro j hj
      rw [written, station_onStation_other _ i j _ hj, station_writeReport]
    · rw [written, onStation_dropped, writeReport_dropped]
    · rw [written, station_onStation_self, station_writeReport]
    · rw [written, onStation_waitQueue, writeReport_waitQueue, h.1]
    · rw [written, onStation_rptWr, writeReport_rptWr, size]
    · rw [written, onStation_irqFlag, writeReport_irqFlag]
    · rw [written, onStation_store, ← size]
      exact writeReport_header fit ho (by have := i.isLt; simp only [stationNumber]; omega)
    · rw [written, onStation_store]
      exact read_writeReport_outside (by rw [size]; exact fun hin => hp ⟨h, hin⟩)
  · have waits : g = (f.onStation i fun x => { x with jam := { x.jam with pendingReport := some r } }).enqueue (.jam i) := by
      simp only [g, produceJam]
      rw [if_neg fun hm => h (by rw [mayWrite_iff, size] at hm; exact hm)]
    rw [if_neg h, if_neg h, if_neg h, if_neg h]
    refine ⟨combine ?_ ?_ _ _ _ _ ?_ ?_ ?_ ?_, fun hr => absurd hr h, fun p _ => by rw [waits, enqueue_store, onStation_store]⟩
    · intro j hj
      rw [waits, station_enqueue, station_onStation_other _ i j _ hj]
    · rw [waits, enqueue_dropped, onStation_dropped]
    · rw [waits, station_enqueue, station_onStation_self]
    · rw [waits, enqueue_waitQueue, onStation_waitQueue]
    · rw [waits, enqueue_rptWr, onStation_rptWr]
    · rw [waits, enqueue_irqFlag, onStation_irqFlag]

/-- A station made ready for a jam: steps 1 and 2 of R116, and the path's sheets taken. -/
def Station.jamming (x : Station) : Station :=
  let y := { x with
    state := .jammed, lowStart := none, line := { x.line with inPath := [] }, jam := { x.jam with lost := [] } }
  if x.state = .funding then
    { y with auth := x.auth.closed, link := x.link.offer .eject, context := .empty, graceStart := none }
  else y

theorem jamming_funding {x : Station} (h : x.state = .funding) :
    x.jamming = { x with
      state := .jammed, lowStart := none, line := { x.line with inPath := [] }, jam := { x.jam with lost := [] }
      auth := x.auth.closed, link := x.link.offer .eject, context := .empty, graceStart := none } := if_pos h

theorem jamming_other {x : Station} (h : ¬ x.state = .funding) :
    x.jamming = { x with
      state := .jammed, lowStart := none, line := { x.line with inPath := [] }, jam := { x.jam with lost := [] } } := if_neg h

/-- How many entries of a lost list are credited, when its fates come in the order of R117. -/
theorem credited_count {lost : List LostSheet} {c d : Nat}
    (h : (lost.map LostSheet.fate).filter (· != .stray) = List.replicate c .credited ++ List.replicate d .charged) :
    (lost.countP fun l => l.fate == .credited) = c := by
  have e : (lost.countP fun l => l.fate == .credited) = ((lost.map LostSheet.fate).filter (· != .stray)).count .credited := by
    clear h
    induction lost with
    | nil => rfl
    | cons l rest ih =>
      rw [List.countP_cons, ih]
      cases hf : l.fate <;> simp [hf]
  rw [e, h]
  simp [List.count_replicate]

/-- The jam record is filled, or counts an overflow, and nothing else of the jam unit changes (R120). -/
theorem recordJam_eq (j : JamUnit) (r : JamReport) :
    j.recordJam r = { j with
      record := match j.record with
        | none => some (r, 0)
        | some (held, overflow) => some (held, min (overflow + 1) 255) } := by
  unfold JamUnit.recordJam
  split <;> simp_all [satAdd, Config.max8]

/-- The station a declaration makes, before its report. -/
abbrev Station.jamMarked (now : Time) (cause : JamCause) (x : Station) : Station :=
  { x with
    jam := { x.jam with cause := cause, declared := now, settleStart := now, deliveries := 0, recoveryStart := 0 }
    context := if x.context.hasLiveSession then { x.context with jams := x.context.jams + 1 } else x.context }

/-- The report a declaration produces. -/
abbrev Station.jamReport (now : Time) (cause : JamCause) (stateAt : StationState) (x : Station) : JamReport :=
  { cause := cause, declared := now, stateAt := stateAt, number := x.reportedNumber
    jams := if x.context.hasLiveSession then min x.context.jams Config.max8 else 0, sheets := x.jam.lost }

/-- The declaration of a jam in three parts: the sheets are lost, the report is produced, and the record and the SHOW follow. -/
theorem declareJam_eq (e : Mode) (i : StationId) (cause : JamCause) (extra : List Sheet) (f : Floor) :
    let x := f.station i
    let q := loseToList i (x.line.inPath ++ extra) (f.onStation i Station.jamming)
    let z := (q.station i).jamMarked e.partTime cause
    let r := z.jamReport e.partTime cause x.state
    declareJam e i cause extra f = (produceJam e i r (q.onStation i fun _ => z)).onStation i fun y =>
      { y with
        jam := y.jam.recordJam r
        link := y.link.offer (showOn 1 .jam r.sheets.length (r.sheets.countP fun s => s.fate == .credited)) } := by
  have ready : stopForJam i (f.onStation i Station.finaliseLost) = f.onStation i fun x =>
      { x.jamming with line := x.line } := by
    unfold stopForJam
    simp only [station_onStation_self, Station.finaliseLost]
    by_cases h : (f.station i).state = .funding
    · simp only [h, if_true, offer, cancelAuth, onStation_onStation]
      exact onStation_congr _ _ (by rw [jamming_funding h]; rfl)
    · simp only [h, if_false, onStation_onStation]
      exact onStation_congr _ _ (by rw [jamming_other h]; rfl)
  have path : ((f.onStation i fun x => { x.jamming with line := x.line }).onStation i fun x =>
      { x with line := { x.line with inPath := [] } }) = f.onStation i Station.jamming := by
    rw [onStation_onStation]
    refine onStation_congr _ _ ?_
    by_cases h : (f.station i).state = .funding
    · rw [jamming_funding h]
    · rw [jamming_other h]
  intro x q z r
  unfold declareJam
  simp only [ready, station_onStation_self, path]
  unfold offer
  rw [onStation_onStation]
  rfl

/-- What declaring a jam does, as JamDeclared says it (R116 to R120). -/
theorem declareJam_declares (e : Mode) (i : StationId) (cause : JamCause) (extra : List Sheet) (f : Floor)
    (ho : goodOffset f.rptWr) : JamDeclared e i cause extra f (declareJam e i cause extra f) := by
  have split := declareJam_eq e i cause extra f
  dsimp only at split
  rw [split]
  clear split
  obtain ⟨lost, funding, hq, hsheets, hstray, hfates, hlen, hfund, hacc, hcells⟩ :=
    loseToList_leaves i ((f.station i).line.inPath ++ extra) (f.onStation i Station.jamming)
  have credits := credited_count hfates
  have count : lost.length = ((f.station i).line.inPath ++ extra).length := by rw [← hsheets, List.length_map]
  simp only [station_onStation_self] at hq hsheets hfates hlen hfund hacc hcells credits
  obtain ⟨hqi, hqo, hwq, hdr, hwr, hfl⟩ := stored_facts hq
  have unfunded := loseToList_store i ((f.station i).line.inPath ++ extra) (f.onStation i Station.jamming)
  rw [station_onStation_self] at unfunded
  clear hq
  generalize loseToList i ((f.station i).line.inPath ++ extra) (f.onStation i Station.jamming) = q at *
  generalize hz : (q.station i).jamMarked e.partTime cause = z
  generalize hr : z.jamReport e.partTime cause (f.station i).state = r
  obtain ⟨hp, hreport, hpcells⟩ := produceJam_leaves e i r (q.onStation i fun _ => z) (by rw [onStation_rptWr, hwr]; exact ho)
  obtain ⟨hpi, hpo, hpq, hpd, hpw, hpf⟩ := written_facts hp
  clear hp
  have onList : (q.station i).jam.lost = lost := by
    rw [hqi]
    by_cases fund : (f.station i).state = .funding
    · simp [jamming_funding fund]
    · simp [jamming_other fund]
  have sheets : r.sheets = lost := by rw [← hr, ← hz]; exact onList
  simp only [station_onStation_self, onStation_store, onStation_waitQueue, onStation_rptWr, onStation_irqFlag,
    onStation_dropped, hwq, hwr, hfl, hdr, sheets, count, credits, onList] at hpi hpq hpd hpw hpf hreport hpcells ⊢
  generalize produceJam e i r (q.onStation i fun _ => z) = p at *
  have others : KeepsOthers i f p := fun j hj => by
    rw [hpo j hj, station_onStation_other _ i j _ hj, hqo j hj, station_onStation_other _ i j _ hj]
  have apart : ∀ n, p.store.account n = q.store.account n := by
    refine fun n => Memory.account_congr fun a h1 h2 => hpcells a fun h => ?_
    have := stream_account_apart (n := n) (inReport_inStream (f := f) (decide_eq_true h.1.2) ho h.2)
    omega
  have goal : ∀ g : Floor, g = p.onStation i (fun y => { y with
      jam := y.jam.recordJam r
      link := y.link.offer (showOn 1 .jam ((f.station i).line.inPath ++ extra).length
        (min (sessionsOf ((f.station i).line.inPath ++ extra))
          ((f.station i).jamming.copy.creditCap - (f.station i).jamming.context.lostCredited) : Nat)) }) →
      JamDeclared e i cause extra f g := by
    intro g hg
    obtain ⟨gs, gq, gd, gw, gf⟩ : g.store = p.store ∧ g.waitQueue = p.waitQueue ∧ g.dropped = p.dropped ∧
        g.rptWr = p.rptWr ∧ g.irqFlag = p.irqFlag := by rw [hg]; exact ⟨rfl, rfl, rfl, rfl, rfl⟩
    have gi := congrArg (fun h : Floor => h.station i) hg
    have go : KeepsOthers i f g := fun j hj => by rw [hg, station_onStation_other _ i j _ hj, others j hj]
    simp only [station_onStation_self] at gi
    have whole := floor_with_station go (gd.trans hpd)
    rw [gq, gw, gf, hpq, hpw, hpf] at whole
    clear hg
    simp only [← hz, hqi] at gi hr hpi
    rw [hpi] at gi
    by_cases fund : (f.station i).state = .funding
    · simp only [jamming_funding fund] at *
      have glost : (g.station i).jam.lost = lost := by rw [gi, recordJam_eq]; simp
      have value : r =
          { cause := cause, declared := e.partTime, stateAt := (f.station i).state, number := 0, jams := 0, sheets := lost } := by
        rw [← hr]
        simp [Station.reportedNumber, Context.hasLiveSession, Context.empty]
      simp only [recordJam_eq, List.nil_append, Context.hasLiveSession, Context.empty, Nat.zero_add] at gi
      refine ⟨whole, ?_, by rw [glost, hsheets], by rw [glost]; exact hstray, ?_, ?_, by rw [gs]; exact hreport, ?_⟩
      · simp only [glost, fund, ne_eq, not_true, false_and, if_false, if_true]
        rw [gi]
        subst value
        cases (f.station i).jam.record <;> simp only [fund]
      · rw [glost, hfates]; simp only [fund, if_true]; rfl
      · rw [if_pos fund, gi]
        refine ⟨rfl, rfl, rfl, rfl, fun n => ?_⟩
        rw [gs, apart n, unfunded rfl, onStation_store]
      · intro a ha hin
        rw [gs, hpcells a hin, hcells a ha, onStation_store]
    · simp only [jamming_other fund] at *
      have glost : (g.station i).jam.lost = lost := by rw [gi, recordJam_eq]; simp
      have liveIff : ((f.station i).context.condition == .live || (f.station i).context.condition == .ending) = true ↔
          ((f.station i).context.condition = .live ∨ (f.station i).context.condition = .ending) := by simp
      have value : r =
          { cause := cause, declared := e.partTime, stateAt := (f.station i).state
            number := if (f.station i).context.condition = .live ∨ (f.station i).context.condition = .ending then
              (f.station i).context.number else 0
            jams := if (f.station i).context.condition = .live ∨ (f.station i).context.condition = .ending then
              min ((f.station i).context.jams + 1) 255 else 0
            sheets := lost } := by
        rw [← hr]
        by_cases live : (f.station i).context.condition = .live ∨ (f.station i).context.condition = .ending
        · simp [Station.reportedNumber, Context.hasLiveSession, live, Config.max8]
        · simp [Station.reportedNumber, Context.hasLiveSession, live]
      simp only [recordJam_eq, List.nil_append, Context.hasLiveSession, liveIff] at gi
      refine ⟨whole, ?_, by rw [glost, hsheets], by rw [glost]; exact hstray, ?_, ?_, by rw [gs]; exact hreport, ?_⟩
      · simp only [glost, fund, ne_eq, not_false_eq_true, true_and, if_false]
        rw [gi]
        subst value
        cases (f.station i).jam.record <;> rfl
      · rw [glost, hfates]; simp only [fund, if_false]
      · rw [if_neg fund]
        refine ⟨by rw [gi], ?_, ?_, ?_, ?_⟩
        · rw [gi]
          simp only [fund, ne_eq, not_false_eq_true, true_and, if_false]
          split <;> rfl
        · rw [gi]
          dsimp only
          split <;> exact hlen
        · rw [gi]
          dsimp only
          split <;> exact hfund
        · intro n hn
          rw [gs, apart n]
          exact hacc n hn
      · intro a ha hin
        rw [gs, hpcells a hin, hcells a ha, onStation_store]
  exact goal _ rfl

/-- A jam cause at a station in service that is not JAMMED declares a jam (R115). -/
theorem jamCause_declares (e : Mode) (i : StationId) (cause : JamCause) (extra : List Sheet) (f : Floor)
    (ho : goodOffset f.rptWr) (service : inService e (f.station i) = true) (free : (f.station i).state ≠ .jammed) :
    JamDeclared e i cause extra f (jamCause e i cause extra f) := by
  unfold jamCause
  dsimp only
  rw [if_pos (by simp [service, free])]
  exact declareJam_declares e i cause extra f ho

end Sys2Proof.Machine
end

