-- ==== Sys2Proof/Tests/Slice0.lean ====
section
/-! SUPPORT. The model's own tests: ill-formed commands are refused, numbers worked by hand from the spec's tables and
sequences come out, and for each obligation with hypotheses a concrete state and operands that meet them. -/

namespace Sys2Proof.Tests

open Sys2Proof Sys2Proof.Machine

-- One test after the other: tests that wait for one another hold a thread each, and their memory with it.
set_option Elab.async false

/-! ### WellFormed -/

/-- R44, test 4: a HELLO of another protocol level, or of 0 or 5 panel rows. -/
theorem test_wellFormed_hello :
    (Instr.hello 0 2 7 4).wellFormed = false ∧ (Instr.hello 0 1 7 0).wellFormed = false ∧
      (Instr.hello 0 1 7 5).wellFormed = false ∧ (Instr.hello 0 1 7 4).wellFormed = true := by decide

/-- R44, test 4: a CARD IN of an unknown medium, or a SHOP card of number 0. -/
theorem test_wellFormed_cardIn :
    (Instr.cardIn 0 3 7).wellFormed = false ∧ (Instr.cardIn 0 1 0).wellFormed = false ∧
      (Instr.cardIn 0 2 0).wellFormed = true := by decide

/-- 10.4: a write of the low half of RUNCTL, ORDPOST, RPTRD or IRQFLAG has a row of its own. -/
theorem test_wellFormed_registerWrite :
    (Instr.registerWrite 1 false 0).wellFormed = false ∧ (Instr.registerWrite 2 false 0).wellFormed = false ∧
      (Instr.registerWrite 5 false 0).wellFormed = false ∧ (Instr.registerWrite 6 false 0).wellFormed = false ∧
      (Instr.registerWrite 7 false 0).wellFormed = true ∧ (Instr.registerWrite 1 true 0).wellFormed = true := by decide

/-! ### Cells and small states -/

/-- A store with little-endian fields (address, size, value). -/
def cells (fields : List (Nat × Nat × Nat)) : Memory := fields.foldl (fun m c => m.writeLE c.1 c.2.1 c.2.2) []

/-- The fields of an account: state, kind, balance. -/
def acc (n state kind balance : Nat) : List (Nat × Nat × Nat) :=
  [(0xC400 + 64 * n, 1, state), (0xC401 + 64 * n, 1, kind), (0xC408 + 64 * n, 4, balance)]

/-- The fields of a directory entry: index, number, state, role, and one account in its chain. -/
def ent (k number state role first : Nat) : List (Nat × Nat × Nat) :=
  [(0x4400 + 16 * k, 8, number), (0x4408 + 16 * k, 1, state), (0x4409 + 16 * k, 1, role), (0x440A + 16 * k, 2, first),
   (0x440C + 16 * k, 4, 0xFFFFFFFF), (0x2B80, 2, k + 1)]

/-- A store with an order in slot 0: its kind, its parameters (offset, size, value), and further fields. -/
def order (kind : Nat) (params rest : List (Nat × Nat × Nat)) : Memory :=
  cells ((0, 1, kind) :: params.map (fun p => (4 + p.1, p.2.1, p.2.2)) ++ rest)

/-- No account of the store has a listed edit count. -/
def even (m : Memory) : Bool := m.all fun c => decide (c.1 % 64 ≠ 4) || decide (c.1 < 0xC400)

/-- Part time 100,000; station 1 is `x` with ENABLE driven, the others as after power-on; one order is posted. -/
def world (run : RunState) (m : Memory) (x : Station) : State :=
  let e : Mode := { run := run, page := .a, partTime := 100000, rptRd := 0 }
  { State.reset with
    mode := e
    floor := { State.reset.floor with store := m, stations := State.reset.floor.stations.set 0 (x.driveEnable e) }
    port := { State.reset.port with ordPost := 1 } }

/-- The same with nothing but a full wait queue head, or another place of the offsets. -/
def queued (s : State) (queue : List Producer) (wr rd : Nat) : State :=
  { s with mode := { s.mode with rptRd := rd }, floor := { s.floor with waitQueue := queue, rptWr := wr } }

/-- The premises that many statements share. -/
def Lawful (s : State) : Prop := EnableLaw s ∧ OffsetLaw s ∧ EvenLaw s

theorem read_unlisted {a : Nat} (m : Memory) (h : ∀ c ∈ m, c.1 ≠ a) : m.read a = 0 := by
  induction m with
  | nil => rfl
  | cons c rest ih =>
    obtain ⟨k, b⟩ := c
    have hk : k ≠ a := h (k, b) (by simp)
    simpa [Memory.read, hk] using ih fun c hc => h c (by simp [hc])

theorem even_editCount {m : Memory} (h : even m = true) (n : Nat) : isOdd (m.account n).editCount = false := by
  have zero : m.read (accountAddr n + 4) = 0 := by
    refine read_unlisted m fun c hc e => ?_
    have := List.all_eq_true.mp h c hc
    simp only [Bool.or_eq_true, decide_eq_true_eq, e, accountAddr, Config.accountBase] at this
    omega
  have value : (m.account n).editCount = BitVec.ofNat 16 (256 * (m.read (accountAddr n + 5)).toNat) := by
    simp [Memory.account, Memory.readLE, zero]
  have low : 256 * (m.read (accountAddr n + 5)).toNat % 2 = 0 := by omega
  simp only [value, isOdd, BitVec.getLsbD_ofNat, Nat.testBit_zero, low]
  decide

theorem world_enable (run : RunState) (m : Memory) (x : Station) : EnableLaw (world run m x) := by
  intro i
  by_cases h : i = 0
  · subst h
    exact ⟨rfl, levelFor_eq x.copy 6 _⟩
  · have other : (world run m x).floor.station i = Station.powerOn := by
      have hi : i.val ≠ 0 := fun e => h (Fin.ext e)
      simp [world, Floor.station, State.reset, hi.symm]
    rw [other]
    cases run <;> exact ⟨rfl, rfl⟩

theorem queued_lawful {run : RunState} {m : Memory} {x : Station} (queue : List Producer) (wr rd : Nat)
    (h : even m = true) (o : wr % 4 = 0 ∧ wr ≤ 8184 ∧ rd % 4 = 0 ∧ rd < 8192) :
    Lawful (queued (world run m x) queue wr rd) :=
  ⟨fun i => world_enable run m x i, o, fun _ n _ => even_editCount h n⟩

/-- Station 1 of a lawful state meets `h`. -/
def Meets (s : State) (h : State → Station → Prop) : Prop := Lawful s ∧ h s (s.floor.station 0)

theorem meets {run : RunState} {m : Memory} {x : Station} {h : State → Station → Prop} (e : even m = true)
    (p : h (world run m x) ((world run m x).floor.station 0)) : Meets (world run m x) h :=
  ⟨⟨world_enable run m x, ⟨rfl, Nat.zero_le _, rfl, Nat.zero_lt_succ _⟩, fun _ n _ => even_editCount e n⟩, p⟩

theorem meetsQueued {run : RunState} {m : Memory} {x : Station} {queue : List Producer} {wr rd : Nat}
    {h : State → Station → Prop} (e : even m = true) (o : wr % 4 = 0 ∧ wr ≤ 8184 ∧ rd % 4 = 0 ∧ rd < 8192)
    (p : h (queued (world run m x) queue wr rd) ((queued (world run m x) queue wr rd).floor.station 0)) :
    Meets (queued (world run m x) queue wr rd) h := ⟨queued_lawful queue wr rd e o, p⟩

/-- A station whose link is UP with every ability agreed, holding a shop card. -/
def up : Station :=
  { Station.powerOn with
    noService := false
    link := { LinkUnit.powerOn with
      up := true, agreed := { shop := true, bank := true, keypad := true, rows := 4 }
      held := some { medium := .shop, bytes := 777 } } }

/-- A station in `state` with a context of condition `cond`. -/
def sess (state : StationState) (cond : Condition) : Station :=
  { up with
    state := state
    context := { Context.empty with
      condition := cond, role := .customer, card := some { medium := .shop, bytes := 777 }, number := 9 } }

/-- A funding entry on account 1. -/
def paid (hold committed : Nat) : FundingEntry :=
  { kind := .account, account := 1, slot := 1, hold := hold, committed := committed, grants := [] }

/-- A bank funding entry. -/
def bank (hold committed : Nat) : FundingEntry :=
  { kind := .bank, account := 65535, slot := 0, hold := hold, committed := committed, grants := [] }

/-- A station with a funding list. -/
def funded (entries : List FundingEntry) (x : Station) : Station := { x with context := { x.context with funding := entries } }

/-- A simplex small colour sheet of 35,000 milli-units. -/
def sheet (target : ChargeTarget) : Sheet := { cls := 2, price := 35000, target := target, feedTime := 99000 }

/-- A station with sheets in its path. -/
def pathed (sheets : List Sheet) (x : Station) : Station := { x with line := { x.line with inPath := sheets } }

/-- A station at which a change of FEED, EXIT and FAULT to `active` is due to the sample; all three lines are active at low. -/
def sampled (active : Bool) (x : Station) : Station :=
  { x with line := { x.line with
      feed := !active, exit := !active, fault := !active, feedHigh := !active, exitHigh := !active, faultHigh := !active
      feedCount := x.copy.debounce, exitCount := x.copy.debounce, faultCount := x.copy.debounce } }

/-- A station with strays in its live tally. -/
def strayed (fed : Nat) (x : Station) : Station := { x with line := { x.line with live := { Tally.zero with fed := fed } } }

/-- A station with a closed tally that waits. -/
def waited (x : Station) : Station :=
  { x with line := { x.line with closed :=
      { tally := { Tally.zero with fed := 5 }, house := 0, waiting := true, time := 90000, cause := .stop } } }

/-- A station with a guard value. -/
def guarded (value : Nat) (x : Station) : Station := { x with guardValue := value }

/-- A station whose session has the chain 1, 2. -/
def chained (x : Station) : Station := { x with context := { x.context with chain := ⟨1, 2, 65535⟩ } }

/-- A station with a lost list. -/
def missed (lost : List LostSheet) (x : Station) : Station := { x with jam := { x.jam with lost := lost } }

/-- A station whose FAULT line is inactive. -/
def calm (x : Station) : Station := { x with line := { x.line with fault := false } }

/-! ### Numbers of the spec -/

/-- R31 and the worked case of chapter 2: prices at rates 0, 100 and 500. -/
theorem test_prices :
    soldPrice 2000000 500 = 1000000 ∧ soldPrice 14000 0 = 14000 ∧ soldPrice 8000 100 = 7200 ∧
      soldPrice 35000 100 = 31500 := by decide

/-- R37: half up to whole units, as in chapters 2, 5 and 7. -/
theorem test_settledAmounts :
    settledAmount 35200 = 35 ∧ settledAmount 66700 = 67 ∧ settledAmount 325000 = 325 ∧ settledAmount 499 = 0 ∧
      settledAmount 500 = 1 := by decide

/-- Page A of the worked case of chapter 2. -/
def pageA : Memory :=
  cells [(0x2B00, 4, 8000), (0x2B04, 4, 14000), (0x2B08, 4, 35000), (0x2B0C, 4, 65000), (0x2B10, 4, 15000),
    (0x2B14, 4, 27000), (0x2B18, 4, 70000), (0x2B1C, 4, 130000), (0x2B24, 4, 500), (0x2B28, 4, 2000), (0x2B2C, 4, 10000),
    (0x2B32, 2, 100), (0x2B34, 2, 200), (0x2B36, 2, 300)]

/-- The worked case of chapter 2: a guard of 195,000, and tiers 0, 0, 1 and 1 at positions 497, 499, 501 and 502. -/
theorem test_guardAndTiers :
    guardValueOf pageA .a { WorkingCopy.powerOn with lagSheets := 2, allowed := 0x0F } = 195000 ∧
      noServiceOf pageA .a { WorkingCopy.powerOn with allowed := 0x0F } = false ∧
      tierAt pageA .a 497 = 0 ∧ tierAt pageA .a 499 = 0 ∧ tierAt pageA .a 501 = 1 ∧ tierAt pageA .a 502 = 1 := by decide

/-- The worked sequence of chapter 10: room, placement and the PAD near the wrap. -/
theorem test_streamNearTheWrap :
    freeRoom 8080 120 = 228 ∧ padLength 8080 96 = 0 ∧ offsetAfter 8080 96 = 8176 ∧ freeRoom 8176 120 = 132 ∧
      padLength 8176 40 = 16 ∧ roomNeeded 8176 40 = 56 ∧ offsetAfter 8176 40 = 40 ∧ freeRoom 40 120 = 76 ∧
      freeRoom 40 8176 = 8132 ∧ freeRoom 184 8176 = 7988 := by decide

/-- R43: the four bytes of an EJECT; the sum of length, kind and check byte is 0 modulo 256. -/
theorem test_ejectFrame : TxFrame.bytes .eject = [0xA5, 0x01, 0x83, 0x7C] := by decide

/-- The worked sequence of chapter 3: A is being sent; E takes B's place in the full queue, F takes C's on its row. -/
theorem test_fullQueue :
    let l : LinkUnit := { LinkUnit.powerOn with
      up := true, agreed := { shop := true, bank := true, keypad := true, rows := 4 }
      sending := some ⟨[], 1⟩
      queue := [.showMsg 1 .remaining 1 0, .showMsg 1 .remaining 2 0, .showMsg 2 .lowFunds 3 0, .eject] }
    ((l.offer (.showMsg 3 .sessionTotal 5 0)).offer (.showMsg 2 .sessionTotal 6 0)).queue =
      [.showMsg 1 .remaining 1 0, .showMsg 3 .sessionTotal 5 0, .showMsg 2 .sessionTotal 6 0, .eject] := by decide

/-! ### Witnesses: for each statement with hypotheses, states and operands that meet them, clause by clause -/

/-- The present posted count is accepted, 64 orders ahead still is; 65 is not, nor a count behind the posted one; law L10 holds in a
state in which commands answer. -/
theorem test_witness_OrdpostWritesAreJudged :
    Meets (world .running [] up) (fun s _ => s.mode.run ≠ .clearing ∧ ((64 : Half).toNat + 65536 -
      s.port.ordDone.toNat) % 65536 ≤ 64 ∧ (s.port.ordPost.toNat + 65536 - s.port.ordDone.toNat) % 65536 ≤ ((64 :
      Half).toNat + 65536 - s.port.ordDone.toNat) % 65536) ∧
    Meets (world .running [] up) (fun s _ => ¬ ((65 : Half).toNat + 65536 - s.port.ordDone.toNat) % 65536 ≤ 64) ∧
    Meets (world .running [] up) (fun s _ => ¬ (s.port.ordPost.toNat + 65536 - s.port.ordDone.toNat) % 65536 ≤ ((0 :
      Half).toNat + 65536 - s.port.ordDone.toNat) % 65536) ∧
    Meets (world .running [] up) (fun s _ => OrdersLaw s ∧ s.port.ordPost ≠ s.port.ordDone ∧
      ∃ t, exec .stopRequest s = .next t) :=
  ⟨meets (by decide) (by decide), meets (by decide) (by decide), meets (by decide) (by decide),
    meets (by decide) ⟨by unfold OrdersLaw; decide, by decide, _, rfl⟩⟩

/-- RPTRD at the write offset, past the wrap, past the write offset, off a multiple of 4 and at 8,192; registers in their
ranges. -/
theorem test_witness_PortReadsAndWritesTakeEffect :
    Meets (queued (world .running [] up) [] 8184 8184) (fun s _ => s.mode.run ≠ .clearing ∧ (8184 : Half).toNat % 4 = 0 ∧
      (8184 : Half).toNat < 8192 ∧ ((8184 : Half).toNat + 8192 - s.mode.rptRd) % 8192 ≤ (s.floor.rptWr + 8192 -
      s.mode.rptRd) % 8192 ∧ s.port.refusal < 16 ∧ s.floor.rptWr < 65536 ∧ s.mode.rptRd < 65536) ∧
    Meets (queued (world .running [] up) [] 40 8176) (fun s _ => (40 : Half).toNat % 4 = 0 ∧ ((40 : Half).toNat + 8192
      - s.mode.rptRd) % 8192 ≤ (s.floor.rptWr + 8192 - s.mode.rptRd) % 8192) ∧
    Meets (queued (world .running [] up) [] 40 8176) (fun s _ => ¬ ((44 : Half).toNat + 8192 - s.mode.rptRd) % 8192 ≤
      (s.floor.rptWr + 8192 - s.mode.rptRd) % 8192 ∧ ¬ (2 : Half).toNat % 4 = 0 ∧ ¬ (8192 : Half).toNat < 8192) :=
  ⟨meetsQueued (by decide) (by decide) (by decide), meetsQueued (by decide) (by decide) (by decide), meetsQueued
    (by decide) (by decide) (by decide)⟩

/-- The last word of the store in RUNNING; in STOPPED the first and last words of the station records and an account;
the first word of the stream and the last of the accounts while the part runs. -/
theorem test_witness_HostStoreWritesAreMadeOrRefused :
    Meets (world .running [] up) (fun s _ => s.mode.run ≠ .clearing ∧ partOwns s.mode (regionOf (2 * (65535 : BitVec
      16).toNat)) = false ∧ ¬ inRecords (2 * (65535 : BitVec 16).toNat)) ∧
    Meets (world .stopped [] up) (fun s _ => partOwns s.mode (regionOf (2 * (0x1600 : BitVec 16).toNat)) = false ∧
      partOwns s.mode (regionOf (2 * (0x21FF : BitVec 16).toNat)) = false ∧ ¬ inRecord 0 (2 * (0x21FF : BitVec
      16).toNat) ∧ partOwns s.mode (regionOf (2 * (0x6200 : BitVec 16).toNat)) = false) ∧
    Meets (world .running [] up) (fun s _ => partOwns s.mode (regionOf (2 * (0x400 : BitVec 16).toNat)) = true ∧
      partOwns s.mode (regionOf (2 * (0xE1FF : BitVec 16).toNat)) = true) :=
  ⟨meets (by decide) (by unfold inRecords; decide), meets (by decide) (by unfold inRecord; decide), meets (by decide)
    (by decide)⟩

/-- The premises of the statements on registers, power-on, the soft reset, the tick and commands without effect. -/
theorem test_witness_RunControl :
    Meets (world .running [] up) (fun s _ => s.mode.run ≠ .clearing ∧ s.mode.run ≠ .stopped ∧ s.port.refusal < 16 ∧
      s.floor.rptWr < 65536 ∧ s.mode.rptRd < 65536) ∧
    Meets (world .clearing [] up) (fun s _ => s.mode.run = .clearing ∧ s.mode.run ≠ .running ∧ actsInClearing
      (.storeWrite 0 0) = false) ∧
    Meets (world .stopping [] (sess .opened .live)) (fun s _ => s.mode.run ≠ .clearing ∧ ∃ i, (s.floor.station
      i).state ≠ .idle ∧ (s.floor.station i).state ≠ .out) :=
  ⟨meets (by decide) (by decide), meets (by decide) (by decide), meets (by decide) (by decide)⟩

/-- A rate of 501; 2,049 directory entries; entries out of order at index 0 and 1; an account state of 4 at account 0.
-/
theorem test_witness_RefusedStartIsRecorded :
    Meets (world .stopped (cells [(0x2B30, 2, 501)]) up) (fun s _ => s.mode.run = .stopped ∧ startRefusal
      s.floor.store s.mode.page = some ⟨1, 3, 0⟩ ∧ s.floor.store.pageFailure .a = some (3, 0)) ∧
    Meets (world .stopped (cells [(0x2B80, 2, 2049)]) up) (fun s _ => s.floor.store.pageFailure .a = none ∧ 2048 <
      s.floor.store.directoryCount) ∧
    Meets (world .stopped (cells (ent 0 0 1 1 1)) up) (fun s _ => s.floor.store.pageFailure .a = none ∧
      s.floor.store.directoryCount ≤ 2048 ∧ 0 < s.floor.store.directoryCount ∧ (s.floor.store.dirEntry 0).number = 0 ∧
      ∀ j, j < 0 → (s.floor.store.dirEntry j).number ≠ 0) ∧
    Meets (world .stopped (cells (ent 0 5 1 1 1 ++ ent 1 5 1 1 1)) up) (fun s _ => s.floor.store.directoryCount ≤ 2048
      ∧ 1 < s.floor.store.directoryCount ∧ (s.floor.store.dirEntry 1).number ≤ (s.floor.store.dirEntry 0).number ∧ ∀
      j, j < 1 → (s.floor.store.dirEntry j).number ≠ 0) ∧
    Meets (world .stopped (cells (acc 0 4 1 0)) up) (fun s _ => s.floor.store.pageFailure .a = none ∧
      s.floor.store.directoryFault = none ∧ (∀ j, j < 0 → (s.floor.store.account j).startValid = true) ∧
      (s.floor.store.account 0).startValid = false) :=
  ⟨meets (by decide) (by decide +kernel), meets (by decide) (by decide), meets (by decide) (by decide), meets
    (by decide) (by decide), meets (by decide) (by decide)⟩

/-- Station 1 has its profile enabled, station 2 has not; account 0 is OPEN. -/
theorem test_witness_PassedStartRuns :
    Meets (world .stopped (cells ((0x2800, 1, 1) :: acc 0 1 3 0)) up) (fun s _ => s.mode.run = .stopped ∧ startRefusal
      s.floor.store s.mode.page = none ∧ s.floor.store.profileEnabled 0 = true ∧ s.floor.store.profileEnabled 1 =
      false ∧ ∀ i, (s.floor.station i).line.live.fed = 0 ∧ (s.floor.station i).line.inPath = []) :=
  meets (by decide) (by decide +kernel)

/-- A live session, a funding wait with and without a stray in the live tally, and a session that is ending; an IDLE and an OUT
station with a live tally that is not empty, beside IDLE ones whose tally is empty; every station IDLE, one with a stray in its
path. -/
theorem test_witness_StopsRunToTheirEnd :
    Meets (world .running [] (sess .opened .live)) (fun s x => s.mode.run = .running ∧ x.context.condition = .live) ∧
    Meets (world .running [] (sess .funding .funding)) (fun s x => s.mode.run = .running ∧ x.context.condition =
      .funding) ∧
    Meets (world .running [] (sess .draining .ending)) (fun _ x => x.context.condition ≠ .live ∧ x.context.condition ≠
      .funding) ∧
    Meets (world .running [] (strayed 3 (sess .funding .funding))) (fun s x => s.mode.run = .running ∧ x.context.condition =
      .funding ∧ x.line.live.fed ≠ 0) ∧
    Meets (world .running [] (strayed 3 up)) (fun s x => s.mode.run = .running ∧ x.context.condition ≠ .live ∧
      x.context.condition ≠ .funding ∧ x.state = .idle ∧ x.line.live.fed ≠ 0 ∧ x.line.closed.waiting = false ∧
      s.floor.waitQueue = [] ∧ roomNeeded s.floor.rptWr 96 ≤ freeRoom s.floor.rptWr s.mode.rptRd ∧
      (s.floor.station 1).state = .idle ∧ (s.floor.station 1).line.live.fed = 0) ∧
    Meets (queued (world .running [] (strayed 3 (sess .out .empty))) [] 0 96) (fun s x => s.mode.run = .running ∧
      x.context.condition ≠ .live ∧ x.context.condition ≠ .funding ∧ x.state = .out ∧ x.line.live.fed ≠ 0 ∧
      ¬ roomNeeded s.floor.rptWr 96 ≤ freeRoom s.floor.rptWr s.mode.rptRd) ∧
    Meets (world .stopping [] (pathed [sheet .stray] up)) (fun s _ => s.mode.run = .stopping ∧ s.floor.waitQueue = []
      ∧ ∀ i, (s.floor.station i).state = .idle ∨ (s.floor.station i).state = .out) :=
  ⟨meets (by decide) (by decide), meets (by decide) (by decide), meets (by decide) (by decide), meets (by decide)
    (by decide), meets (by decide) (by decide), meetsQueued (by decide) (by decide) (by decide), meets (by decide)
    (by decide)⟩

/-- An order of the command's kind waits; an order of another kind waits; none waits in CLEARING. -/
theorem test_witness_OrdersAreAnsweredOneByOne :
    Meets (world .running (order 2 [] []) up) (fun s _ => orderCode .accountCredit = some 2 ∧ s.mode.run ≠ .clearing ∧
      s.port.ordDone ≠ s.port.ordPost ∧ s.orderKind = 2) ∧
    Meets (world .running (order 3 [] []) up) (fun s _ => orderCode .accountCredit = some 2 ∧ s.orderKind ≠ 2) ∧
    Meets (world .clearing (order 2 [] []) up) (fun s _ => ¬ s.mode.run ≠ .clearing) :=
  ⟨meets (by decide) (by decide), meets (by decide) (by decide), meets (by decide) (by decide)⟩

/-- Kinds 0, 17 and 1; kinds 7 and 16 in STOPPED on a used and on a FREE account; station numbers 0, 13 and a stopping
part. -/
theorem test_witness_OrdersOutOfPlaceAreRefused :
    Meets (world .running (order 0 [] []) up) (fun s _ => s.mode.run ≠ .clearing ∧ s.port.ordDone ≠ s.port.ordPost ∧
      s.orderKind = 0) ∧
    Meets (world .running (order 17 [] []) up) (fun s _ => s.mode.run ≠ .clearing ∧ s.port.ordDone ≠ s.port.ordPost ∧
      s.orderKind = 17) ∧
    Meets (world .running (order 1 [] []) up) (fun s _ => 1 ≤ s.orderKind ∧ s.orderKind ≤ 16) ∧
    Meets (world .stopped (order 7 [(0, 2, 1)] (acc 1 1 1 5)) up) (fun s _ => s.mode.run = .stopped ∧ orderCode
      .accountClose = some 7 ∧ s.mode.run ≠ .clearing ∧ s.port.ordDone ≠ s.port.ordPost ∧ s.orderKind = 7) ∧
    Meets (world .stopped (order 16 [] []) up) (fun s _ => s.mode.run = .stopped ∧ orderCode .sessionEnd = some 16 ∧
      s.mode.run ≠ .clearing ∧ s.port.ordDone ≠ s.port.ordPost ∧ s.orderKind = 16) ∧
    Meets (world .running (order 15 [(0, 1, 13)] []) up) (fun s _ => s.mode.run = .running ∧ orderCode .jamAck = some
      15 ∧ s.mode.run ≠ .clearing ∧ s.port.ordDone ≠ s.port.ordPost ∧ s.orderKind = 15 ∧ 12 < s.floor.store.param
      s.slot 0 1) ∧
    Meets (world .stopping (order 11 [] []) up) (fun s _ => s.mode.run = .stopping ∧ orderCode .authAnswer = some 11 ∧
      s.mode.run ≠ .clearing ∧ s.port.ordDone ≠ s.port.ordPost ∧ s.orderKind = 11 ∧ s.floor.store.param s.slot 0 1 =
      0) ∧
    Meets (world .running (order 14 [] []) up) (fun s _ => s.mode.run = .running ∧ orderCode .stationIn = some 14 ∧
      s.mode.run ≠ .clearing ∧ s.port.ordDone ≠ s.port.ordPost ∧ s.orderKind = 14 ∧ s.floor.store.param s.slot 0 1 =
      0) ∧
    Meets (world .stopping (order 14 [] []) up) (fun s _ => s.mode.run = .stopping ∧ s.mode.run ≠ .clearing ∧
      s.port.ordDone ≠ s.port.ordPost ∧ s.orderKind = 14) :=
  ⟨meets (by decide) (by decide), meets (by decide) (by decide), meets (by decide) (by decide), meets (by decide)
    (by decide), meets (by decide) (by decide), meets (by decide) (by decide), meets (by decide) (by decide), meets
    (by decide) (by decide), meets (by decide) (by decide)⟩

/-- Each refusal in turn: number 1,024; invalid codes at account 1,023; amounts 0 and 2^31; a limit of 2^31; kind 4;
account 0; FREE; not CREDIT; CLOSING; EXISTS; not OPEN; not FROZEN. In STOPPED: number 1,024; EXISTS; not CREDIT. -/
theorem test_witness_AccountOrdersAreRefusedInOrder :
    Meets (world .running (order 2 [(0, 2, 1024)] []) up) (fun s _ => s.mode.run = .running ∧ s.mode.run ≠ .clearing ∧
      s.port.ordDone ≠ s.port.ordPost ∧ s.orderKind = 2 ∧ 1024 ≤ s.floor.store.param s.slot 0 2) ∧
    Meets (world .running (order 2 [(0, 2, 1023)] (acc 1023 4 1 0)) up) (fun s _ => s.mode.run = .running ∧ s.mode.run
      ≠ .clearing ∧ s.port.ordDone ≠ s.port.ordPost ∧ s.orderKind = 2 ∧ s.floor.store.param s.slot 0 2 = 1023 ∧
      (s.floor.store.account 1023).codesValid = false) ∧
    Meets (world .running (order 2 [(0, 2, 1)] (acc 1 1 1 0)) up) (fun s _ => s.mode.run = .running ∧ s.mode.run ≠
      .clearing ∧ s.port.ordDone ≠ s.port.ordPost ∧ s.orderKind = 2 ∧ (s.floor.store.account 1).codesValid = true ∧
      s.floor.store.param s.slot 0 2 = 1 ∧ s.floor.store.param s.slot 4 4 = 0) ∧
    Meets (world .running (order 3 [(0, 2, 1), (4, 4, 2147483648)] (acc 1 1 1 0)) up) (fun s _ => s.mode.run =
      .running ∧ s.mode.run ≠ .clearing ∧ s.port.ordDone ≠ s.port.ordPost ∧ s.orderKind = 3 ∧ (s.floor.store.account
      1).codesValid = true ∧ s.floor.store.param s.slot 0 2 = 1 ∧ 2147483647 < s.floor.store.param s.slot 4 4) ∧
    Meets (world .running (order 4 [(0, 2, 1), (4, 4, 2147483648)] (acc 1 1 2 0)) up) (fun s _ => s.mode.run =
      .running ∧ s.mode.run ≠ .clearing ∧ s.port.ordDone ≠ s.port.ordPost ∧ s.orderKind = 4 ∧ (s.floor.store.account
      1).codesValid = true ∧ s.floor.store.param s.slot 0 2 = 1 ∧ 2147483647 < s.floor.store.param s.slot 4 4) ∧
    Meets (world .running (order 1 [(0, 2, 1), (2, 1, 4)] []) up) (fun s _ => s.mode.run = .running ∧ s.mode.run ≠
      .clearing ∧ s.port.ordDone ≠ s.port.ordPost ∧ s.orderKind = 1 ∧ (s.floor.store.account 1).codesValid = true ∧
      s.floor.store.param s.slot 0 2 = 1 ∧ openParams s.floor.store s.slot = false) ∧
    Meets (world .running (order 5 [] (acc 0 1 3 0)) up) (fun s _ => s.mode.run = .running ∧ s.mode.run ≠ .clearing ∧
      s.port.ordDone ≠ s.port.ordPost ∧ s.orderKind = 5 ∧ s.floor.store.param s.slot 0 2 = 0 ∧ (s.floor.store.account
      0).codesValid = true) ∧
    Meets (world .running (order 1 [(2, 1, 1)] (acc 0 1 3 0)) up) (fun s _ => s.mode.run = .running ∧ s.mode.run ≠
      .clearing ∧ s.port.ordDone ≠ s.port.ordPost ∧ s.orderKind = 1 ∧ s.floor.store.param s.slot 0 2 = 0 ∧
      (s.floor.store.account 0).codesValid = true ∧ openParams s.floor.store s.slot = true) ∧
    Meets (world .running (order 2 [(0, 2, 1), (4, 4, 2147483647)] []) up) (fun s _ => s.mode.run = .running ∧
      s.mode.run ≠ .clearing ∧ s.port.ordDone ≠ s.port.ordPost ∧ s.orderKind = 2 ∧ (s.floor.store.account 1).isFree =
      true ∧ s.floor.store.param s.slot 0 2 = 1 ∧ s.floor.store.param s.slot 4 4 = 2147483647) ∧
    Meets (world .running (order 4 [(0, 2, 1), (4, 4, 2147483647)] []) up) (fun s _ => s.mode.run = .running ∧
      s.mode.run ≠ .clearing ∧ s.port.ordDone ≠ s.port.ordPost ∧ s.orderKind = 4 ∧ (s.floor.store.account 1).isFree =
      true ∧ s.floor.store.param s.slot 0 2 = 1 ∧ s.floor.store.param s.slot 4 4 ≤ 2147483647) ∧
    Meets (world .running (order 4 [(0, 2, 1)] (acc 1 1 1 0)) up) (fun s _ => s.mode.run = .running ∧ s.mode.run ≠
      .clearing ∧ s.port.ordDone ≠ s.port.ordPost ∧ s.orderKind = 4 ∧ (s.floor.store.account 1).codesValid = true ∧
      s.floor.store.param s.slot 0 2 = 1 ∧ (s.floor.store.account 1).isFree = false ∧ (s.floor.store.account
      1).isCredit = false) ∧
    Meets (world .running (order 7 [(0, 2, 1)] (acc 1 3 1 0)) up) (fun s _ => s.mode.run = .running ∧ s.mode.run ≠
      .clearing ∧ s.port.ordDone ≠ s.port.ordPost ∧ s.orderKind = 7 ∧ (s.floor.store.account 1).codesValid = true ∧
      s.floor.store.param s.slot 0 2 = 1 ∧ (s.floor.store.account 1).isClosing = true) ∧
    Meets (world .running (order 6 [(0, 2, 1023)] []) up) (fun s _ => s.mode.run = .running ∧ s.mode.run ≠ .clearing ∧
      s.port.ordDone ≠ s.port.ordPost ∧ s.orderKind = 6 ∧ (s.floor.store.account 1023).codesValid = true ∧
      s.floor.store.param s.slot 0 2 = 1023 ∧ (s.floor.store.account 1023).isFree = true) ∧
    Meets (world .running (order 1 [(0, 2, 1), (2, 1, 1)] (acc 1 1 1 0)) up) (fun s _ => s.mode.run = .running ∧
      s.mode.run ≠ .clearing ∧ s.port.ordDone ≠ s.port.ordPost ∧ s.orderKind = 1 ∧ (s.floor.store.account
      1).codesValid = true ∧ s.floor.store.param s.slot 0 2 = 1 ∧ openParams s.floor.store s.slot = true ∧
      (s.floor.store.account 1).isFree = false) ∧
    Meets (world .running (order 5 [(0, 2, 1)] (acc 1 2 1 0)) up) (fun s _ => s.mode.run = .running ∧ s.mode.run ≠
      .clearing ∧ s.port.ordDone ≠ s.port.ordPost ∧ s.orderKind = 5 ∧ (s.floor.store.account 1).codesValid = true ∧
      s.floor.store.param s.slot 0 2 = 1 ∧ (s.floor.store.account 1).isFree = false ∧ (s.floor.store.account 1).isOpen
      = false) ∧
    Meets (world .running (order 6 [(0, 2, 1)] (acc 1 1 1 0)) up) (fun s _ => s.mode.run = .running ∧ s.mode.run ≠
      .clearing ∧ s.port.ordDone ≠ s.port.ordPost ∧ s.orderKind = 6 ∧ (s.floor.store.account 1).codesValid = true ∧
      s.floor.store.param s.slot 0 2 = 1 ∧ (s.floor.store.account 1).isFree = false ∧ (s.floor.store.account
      1).isFrozen = false) ∧
    Meets (world .stopped (order 2 [(0, 2, 1024)] []) up) (fun s _ => s.mode.run = .stopped ∧ s.port.ordDone ≠
      s.port.ordPost ∧ s.orderKind = 2 ∧ s.orderKind ≤ 4 ∧ 1024 ≤ s.floor.store.param s.slot 0 2) ∧
    Meets (world .stopped (order 1 [(0, 2, 1), (2, 1, 1)] (acc 1 1 1 0)) up) (fun s _ => s.mode.run = .stopped ∧
      s.port.ordDone ≠ s.port.ordPost ∧ s.orderKind = 1 ∧ (s.floor.store.account 1).codesValid = true ∧
      s.floor.store.param s.slot 0 2 = 1 ∧ openParams s.floor.store s.slot = true ∧ (s.floor.store.account 1).isFree =
      false) ∧
    Meets (world .stopped (order 4 [(0, 2, 1)] (acc 1 1 1 0)) up) (fun s _ => s.mode.run = .stopped ∧ s.port.ordDone ≠
      s.port.ordPost ∧ s.orderKind = 4 ∧ (s.floor.store.account 1).codesValid = true ∧ s.floor.store.param s.slot 0 2 =
      1 ∧ (s.floor.store.account 1).isFree = false ∧ (s.floor.store.account 1).isCredit = false) :=
  ⟨meets (by decide) (by decide), meets (by decide) (by decide), meets (by decide) (by decide), meets (by decide)
    (by decide), meets (by decide) (by decide), meets (by decide) (by decide), meets (by decide) (by decide), meets
    (by decide) (by decide), meets (by decide) (by decide), meets (by decide) (by decide), meets (by decide)
    (by decide), meets (by decide) (by decide), meets (by decide) (by decide), meets (by decide) (by decide), meets
    (by decide) (by decide), meets (by decide) (by decide),
    meets (by decide) (by decide), meets (by decide) (by decide), meets (by decide) (by decide)⟩

/-- Each order that passes: OPEN of account 1,023 with the greatest limit; CREDIT and DEBIT of 1 and of 2^31 - 1;
LIMIT; FREEZE; THAW. -/
theorem test_witness_AccountOrdersChangeTheirAccount :
    Meets (world .running (order 1 [(0, 2, 1023), (2, 1, 2), (4, 4, 2147483647)] []) up) (fun s _ => orderCode
      .accountOpen = some 1 ∧ s.mode.run ≠ .clearing ∧ s.port.ordDone ≠ s.port.ordPost ∧ s.orderKind = 1 ∧
      s.floor.store.param s.slot 0 2 = 1023 ∧ (s.floor.store.account 1023).codesValid = true ∧ openParams
      s.floor.store s.slot = true ∧ (s.floor.store.account 1023).isFree = true ∧ ∀ i, (s.floor.station i).state ≠
      .low) ∧
    Meets (world .running (order 2 [(0, 2, 1), (4, 4, 2147483647)] (acc 1 1 1 5)) up) (fun s _ => orderCode
      .accountCredit = some 2 ∧ s.mode.run ≠ .clearing ∧ s.port.ordDone ≠ s.port.ordPost ∧ s.orderKind = 2 ∧
      s.floor.store.param s.slot 0 2 = 1 ∧ (s.floor.store.account 1).codesValid = true ∧ s.floor.store.param s.slot 4
      4 = 2147483647 ∧ (s.floor.store.account 1).isFree = false ∧ ∀ i, (s.floor.station i).state ≠ .low) ∧
    Meets (world .running (order 3 [(4, 4, 1)] (acc 0 1 3 5)) up) (fun s _ => orderCode .accountDebit = some 3 ∧
      s.mode.run ≠ .clearing ∧ s.port.ordDone ≠ s.port.ordPost ∧ s.orderKind = 3 ∧ s.floor.store.param s.slot 0 2 = 0
      ∧ (s.floor.store.account 0).codesValid = true ∧ s.floor.store.param s.slot 4 4 = 1 ∧ (s.floor.store.account
      0).isFree = false ∧ ∀ i, (s.floor.station i).state ≠ .low) ∧
    Meets (world .running (order 4 [(0, 2, 1), (4, 4, 2147483647)] (acc 1 1 2 5)) up) (fun s _ => orderCode
      .accountLimit = some 4 ∧ s.mode.run ≠ .clearing ∧ s.port.ordDone ≠ s.port.ordPost ∧ s.orderKind = 4 ∧
      s.floor.store.param s.slot 0 2 = 1 ∧ (s.floor.store.account 1).codesValid = true ∧ s.floor.store.param s.slot 4
      4 ≤ 2147483647 ∧ (s.floor.store.account 1).isFree = false ∧ (s.floor.store.account 1).isCredit = true ∧ ∀ i,
      (s.floor.station i).state ≠ .low) ∧
    Meets (world .running (order 5 [(0, 2, 1)] (acc 1 1 1 5)) up) (fun s _ => orderCode .accountFreeze = some 5 ∧
      s.mode.run ≠ .clearing ∧ s.port.ordDone ≠ s.port.ordPost ∧ s.orderKind = 5 ∧ s.floor.store.param s.slot 0 2 = 1
      ∧ (s.floor.store.account 1).codesValid = true ∧ s.mode.run = .running ∧ (s.floor.store.account 1).isOpen = true
      ∧ ∀ i, (s.floor.station i).state ≠ .low) ∧
    Meets (world .running (order 6 [(0, 2, 1)] (acc 1 2 1 5)) up) (fun s _ => orderCode .accountThaw = some 6 ∧
      s.mode.run ≠ .clearing ∧ s.port.ordDone ≠ s.port.ordPost ∧ s.orderKind = 6 ∧ s.floor.store.param s.slot 0 2 = 1
      ∧ (s.floor.store.account 1).codesValid = true ∧ s.mode.run = .running ∧ (s.floor.store.account 1).isFrozen =
      true ∧ ∀ i, (s.floor.station i).state ≠ .low) :=
  ⟨meets (by decide) (by decide), meets (by decide) (by decide), meets (by decide) (by decide), meets (by decide)
    (by decide), meets (by decide) (by decide), meets (by decide) (by decide)⟩

/-- Exactly 64 bytes of room, one word less, and an account with a holder. -/
theorem test_witness_AccountCloseFreesOrWaits :
    Meets (queued (world .running (order 7 [(0, 2, 1)] (acc 1 1 1 5)) up) [] 0 72) (fun s _ => s.mode.run ≠ .clearing
      ∧ s.port.ordDone ≠ s.port.ordPost ∧ s.orderKind = 7 ∧ s.floor.store.param s.slot 0 2 = 1 ∧
      (s.floor.store.account 1).codesValid = true ∧ (s.floor.store.account 1).isOpen = true ∧ (s.floor.store.account
      1).holders = 0 ∧ freeRoom s.floor.rptWr s.mode.rptRd = 68 ∧ s.floor.waitQueue = [] ∧ roomNeeded s.floor.rptWr 64
      ≤ freeRoom s.floor.rptWr s.mode.rptRd) ∧
    Meets (queued (world .running (order 7 [(0, 2, 1)] (acc 1 1 1 5)) up) [] 0 64) (fun s _ => s.mode.run ≠ .clearing
      ∧ s.port.ordDone ≠ s.port.ordPost ∧ s.orderKind = 7 ∧ (s.floor.store.account 1).isOpen = true ∧ freeRoom
      s.floor.rptWr s.mode.rptRd = 60 ∧ ¬ roomNeeded s.floor.rptWr 64 ≤ freeRoom s.floor.rptWr s.mode.rptRd) ∧
    Meets (world .running (order 7 [(0, 2, 1)] ((0xC443, 1, 1) :: acc 1 2 1 5)) up) (fun s _ => s.mode.run ≠ .clearing
      ∧ s.port.ordDone ≠ s.port.ordPost ∧ s.orderKind = 7 ∧ s.floor.store.param s.slot 0 2 = 1 ∧
      (s.floor.store.account 1).codesValid = true ∧ (s.floor.store.account 1).isFrozen = true ∧ (s.floor.store.account
      1).holders ≠ 0 ∧ s.floor.waitQueue = [] ∧ roomNeeded s.floor.rptWr 64 ≤ freeRoom s.floor.rptWr s.mode.rptRd) :=
  ⟨meetsQueued (by decide) (by decide) (by decide), meetsQueued (by decide) (by decide) (by decide), meets (by decide)
    (by decide)⟩

/-- Numbers 1,024 and 0xFFFE; a FREE account; an account with and without room; all accounts with and without room. -/
theorem test_witness_PeriodCloseReportsAndClears :
    Meets (world .running (order 8 [(0, 2, 1024)] []) up) (fun s _ => s.mode.run ≠ .clearing ∧ s.port.ordDone ≠
      s.port.ordPost ∧ s.orderKind = 8 ∧ 1024 ≤ s.floor.store.param s.slot 0 2 ∧ s.floor.store.param s.slot 0 2 ≠
      65535) ∧
    Meets (world .running (order 8 [(0, 2, 65534)] []) up) (fun s _ => s.mode.run ≠ .clearing ∧ s.port.ordDone ≠
      s.port.ordPost ∧ s.orderKind = 8 ∧ 1024 ≤ s.floor.store.param s.slot 0 2 ∧ s.floor.store.param s.slot 0 2 ≠
      65535) ∧
    Meets (world .running (order 8 [(0, 2, 1023)] []) up) (fun s _ => s.mode.run ≠ .clearing ∧ s.port.ordDone ≠
      s.port.ordPost ∧ s.orderKind = 8 ∧ s.floor.store.param s.slot 0 2 = 1023 ∧ (s.floor.store.account 1023).isFree =
      true) ∧
    Meets (world .running (order 8 [(0, 2, 1)] (acc 1 1 1 5)) up) (fun s _ => s.mode.run ≠ .clearing ∧ s.port.ordDone
      ≠ s.port.ordPost ∧ s.orderKind = 8 ∧ s.floor.store.param s.slot 0 2 = 1 ∧ (s.floor.store.account 1).isFree =
      false ∧ s.floor.waitQueue = [] ∧ roomNeeded s.floor.rptWr 64 ≤ freeRoom s.floor.rptWr s.mode.rptRd) ∧
    Meets (queued (world .running (order 8 [(0, 2, 1)] (acc 1 1 1 5)) up) [] 0 64) (fun s _ => s.mode.run ≠ .clearing
      ∧ s.port.ordDone ≠ s.port.ordPost ∧ s.orderKind = 8 ∧ s.floor.store.param s.slot 0 2 = 1 ∧
      (s.floor.store.account 1).isFree = false ∧ ¬ roomNeeded s.floor.rptWr 64 ≤ freeRoom s.floor.rptWr s.mode.rptRd) ∧
    Meets (world .running (order 8 [(0, 2, 65535)] (acc 1023 1 1 5)) up) (fun s _ => s.mode.run ≠ .clearing ∧
      s.port.ordDone ≠ s.port.ordPost ∧ s.orderKind = 8 ∧ s.floor.store.param s.slot 0 2 = 65535 ∧ s.floor.waitQueue =
      [] ∧ fitsAll (freeRoom s.floor.rptWr s.mode.rptRd) s.floor.rptWr 64 ((List.range 1024).filter fun n =>
      !(s.floor.store.account n).isFree).length = true ∧ ((List.range 1024).filter fun n => !(s.floor.store.account
      n).isFree)[0]? = some 1023) ∧
    Meets (queued (world .running (order 8 [(0, 2, 65535)] (acc 1023 1 1 5)) up) [] 0 64) (fun s _ => s.mode.run ≠
      .clearing ∧ s.port.ordDone ≠ s.port.ordPost ∧ s.orderKind = 8 ∧ s.floor.store.param s.slot 0 2 = 65535 ∧ fitsAll
      (freeRoom s.floor.rptWr s.mode.rptRd) s.floor.rptWr 64 ((List.range 1024).filter fun n =>
      !(s.floor.store.account n).isFree).length = false) :=
  ⟨meets (by decide) (by decide), meets (by decide) (by decide), meets (by decide) (by decide), meets (by decide)
    (by decide), meetsQueued (by decide) (by decide) (by decide), meets (by decide) (by decide +kernel), meetsQueued
    (by decide) (by decide) (by decide +kernel)⟩

/-- CARD PUT: a bad role; an unsound directory in STOPPED; a known and a new number. CARD DROP: unknown, unsound,
known. -/
theorem test_witness_CardOrdersKeepTheDirectory :
    Meets (world .running (order 9 [(0, 8, 777), (8, 1, 1), (9, 1, 3)] []) up) (fun s _ => s.mode.run ≠ .clearing ∧
      s.port.ordDone ≠ s.port.ordPost ∧ s.orderKind = 9 ∧ cardTestFailed (s.floor.store.paramEntry s.slot) ≠ 0) ∧
    Meets (world .stopped (order 9 [(0, 8, 777), (8, 1, 1), (9, 1, 1), (10, 2, 1), (12, 4, 0xFFFFFFFF)] (ent 0 0 1 1
      1)) up) (fun s _ => s.mode.run ≠ .clearing ∧ s.port.ordDone ≠ s.port.ordPost ∧ s.orderKind = 9 ∧ cardTestFailed
      (s.floor.store.paramEntry s.slot) = 0 ∧ s.mode.run = .stopped ∧ s.floor.store.directoryFault = some (.entry 0)) ∧
    Meets (world .running (order 9 [(0, 8, 777), (8, 1, 1), (9, 1, 1), (10, 2, 1), (12, 4, 0xFFFFFFFF)] (ent 0 777 2 1
      1)) up) (fun s _ => s.mode.run ≠ .clearing ∧ s.port.ordDone ≠ s.port.ordPost ∧ s.orderKind = 9 ∧ cardTestFailed
      (s.floor.store.paramEntry s.slot) = 0 ∧ s.floor.store.directoryFault = none ∧ s.floor.store.lookup
      (s.floor.store.paramEntry s.slot).number ≠ none) ∧
    Meets (world .running (order 9 [(0, 8, 777), (8, 1, 1), (9, 1, 1), (10, 2, 1), (12, 4, 0xFFFFFFFF)] (ent 0 778 2 1
      1)) up) (fun s _ => s.mode.run ≠ .clearing ∧ s.port.ordDone ≠ s.port.ordPost ∧ s.orderKind = 9 ∧ cardTestFailed
      (s.floor.store.paramEntry s.slot) = 0 ∧ s.floor.store.directoryFault = none ∧ s.floor.store.lookup
      (s.floor.store.paramEntry s.slot).number = none ∧ s.floor.store.directoryCount < 2048) ∧
    Meets (world .running (order 10 [(0, 8, 777)] (ent 0 778 1 1 1)) up) (fun s _ => s.mode.run ≠ .clearing ∧
      s.port.ordDone ≠ s.port.ordPost ∧ s.orderKind = 10 ∧ s.floor.store.directoryFault = none ∧ s.floor.store.lookup
      (s.floor.store.param s.slot 0 8) = none) ∧
    Meets (world .stopped (order 10 [(0, 8, 777)] [(0x2B80, 2, 2049)]) up) (fun s _ => s.mode.run ≠ .clearing ∧
      s.port.ordDone ≠ s.port.ordPost ∧ s.orderKind = 10 ∧ s.mode.run = .stopped ∧ s.floor.store.directoryFault = some
      (.count 2049)) ∧
    Meets (world .running (order 10 [(0, 8, 777)] (ent 0 777 1 1 1)) up) (fun s _ => s.mode.run ≠ .clearing ∧
      s.port.ordDone ≠ s.port.ordPost ∧ s.orderKind = 10 ∧ s.floor.store.directoryFault = none ∧ s.floor.store.lookup
      (s.floor.store.param s.slot 0 8) ≠ none) :=
  ⟨meets (by decide) (by decide), meets (by decide) (by decide), meets (by decide) (by decide), meets (by decide)
    (by decide), meets (by decide) (by decide), meets (by decide) (by decide), meets (by decide) (by decide)⟩

/-- No request; an UNSENT one; a grant of 0; a grant joined in DRAINING, in OPEN, from LOW with the guard met, and
short of the guard. -/
theorem test_witness_AuthAnswerGrantsAnIncrement :
    Meets (world .running (order 11 [(0, 1, 1), (2, 2, 5), (4, 4, 100)] []) (funded [bank 300 0] (sess .opened
      .live))) (fun s x => s.mode.run ≠ .clearing ∧ s.port.ordDone ≠ s.port.ordPost ∧ s.orderKind = 11 ∧
      s.floor.store.param s.slot 0 1 = 1 ∧ ¬ (x.auth.state = .unsent ∨ x.auth.state = .asked)) ∧
    Meets (world .running (order 11 [(0, 1, 1), (2, 2, 5), (4, 4, 100)] [])
      ({ (funded [bank 300 300000] (sess .low .live)) with auth := { Auth.powerOn with state := .unsent, kind := .increment, amount := 200, id := 5 } }
      : Station)) (fun s x => s.mode.run ≠ .clearing ∧ s.port.ordDone ≠ s.port.ordPost ∧ s.orderKind = 11 ∧
      s.floor.store.param s.slot 0 1 = 1 ∧ x.auth.state = .unsent ∧ x.auth.id.toNat = s.floor.store.param s.slot 2 2) ∧
    Meets (world .running (order 11 [(0, 1, 1), (2, 2, 5), (4, 4, 0)] [])
      ({ (funded [bank 300 300000] (sess .low .live)) with auth := { Auth.powerOn with state := .asked, kind := .increment, amount := 200, id := 5 } }
      : Station)) (fun s x => s.mode.run ≠ .clearing ∧ s.port.ordDone ≠ s.port.ordPost ∧ s.orderKind = 11 ∧
      s.floor.store.param s.slot 0 1 = 1 ∧ x.auth.state = .asked ∧ x.auth.id.toNat = s.floor.store.param s.slot 2 2 ∧
      x.auth.kind ≠ .first ∧ s.floor.store.param s.slot 4 4 = 0) ∧
    Meets (world .running (order 11 [(0, 1, 1), (2, 2, 5), (4, 4, 201)] [])
      ({ (funded [bank 300 0] (sess .jammed .live)) with auth := { Auth.powerOn with state := .asked, kind := .increment, amount := 200, id := 5 } }
      : Station)) (fun s x => s.mode.run ≠ .clearing ∧ s.port.ordDone ≠ s.port.ordPost ∧ s.orderKind = 11 ∧
      s.floor.store.param s.slot 0 1 = 1 ∧ x.auth.state = .asked ∧ x.auth.id.toNat = s.floor.store.param s.slot 2 2 ∧
      x.auth.kind ≠ .first ∧ 0 < min (s.floor.store.param s.slot 4 4) x.auth.amount ∧ x.context.funding = [] ++ [bank
      300 0] ∧ ¬ (x.state = .opened ∨ x.state = .low ∨ x.state = .recovery) ∧ x.auth.amount < s.floor.store.param
      s.slot 4 4) ∧
    Meets (world .running (order 11 [(0, 1, 1), (2, 2, 5), (4, 4, 200)] [])
      ({ (funded [bank 300 500000] (sess .low .live)) with auth := { Auth.powerOn with state := .asked, kind := .increment, amount := 200, id := 5 } }
      : Station)) (fun s x => s.mode.run ≠ .clearing ∧ s.port.ordDone ≠ s.port.ordPost ∧ s.orderKind = 11 ∧
      s.floor.store.param s.slot 0 1 = 1 ∧ x.auth.state = .asked ∧ x.auth.id.toNat = s.floor.store.param s.slot 2 2 ∧
      x.auth.kind ≠ .first ∧ 0 < min (s.floor.store.param s.slot 4 4) x.auth.amount ∧ x.context.funding = [] ++ [bank
      300 500000] ∧ x.state = .low ∧ (x.guardValue : Int) ≤ ((300 + 200 : Nat) : Int) * 1000 - 500000) ∧
    Meets (world .running (order 11 [(0, 1, 1), (2, 2, 5), (4, 4, 200)] [])
      ({ ({ (funded [bank 300 500000] (sess .low .live)) with guardValue := 1 } : Station) with auth := { Auth.powerOn with state := .asked, kind := .increment, amount := 200, id := 5 } }
      : Station)) (fun s x => s.mode.run ≠ .clearing ∧ s.port.ordDone ≠ s.port.ordPost ∧ s.orderKind = 11 ∧
      s.floor.store.param s.slot 0 1 = 1 ∧ x.auth.state = .asked ∧ x.state = .low ∧ ¬ (x.context.role = .service ∨
      (x.guardValue : Int) ≤ ((300 + 200 : Nat) : Int) * 1000 - 500000)) :=
  ⟨meets (by decide) (by decide), meets (by decide) (by decide), meets (by decide) (by decide), meets (by decide)
    (by decide), meets (by decide) (by decide), meets (by decide) (by decide)⟩

/-- A grant of 0; no service; a grant 1 below the hold need of 195; a grant of exactly 195, without and with a stray
in the live tally. -/
theorem test_witness_AuthAnswerOpensABankSession :
    Meets (world .running (order 11 [(0, 1, 1), (2, 2, 5), (4, 4, 0)] [])
      ({ ({ (sess .funding .funding) with guardValue := 195000, noService := false } : Station) with auth := { Auth.powerOn with state := .asked, kind := .first, amount := 300, id := 5 } }
      : Station)) (fun s x => s.mode.run ≠ .clearing ∧ s.port.ordDone ≠ s.port.ordPost ∧ s.orderKind = 11 ∧
      s.floor.store.param s.slot 0 1 = 1 ∧ s.mode.run = .running ∧ x.auth.state = .asked ∧ x.auth.id.toNat =
      s.floor.store.param s.slot 2 2 ∧ x.auth.kind = .first ∧ x.nextCard = none ∧ min (s.floor.store.param s.slot 4 4)
      x.auth.amount = 0) ∧
    Meets (world .running (order 11 [(0, 1, 1), (2, 2, 5), (4, 4, 1)] [])
      ({ ({ (sess .funding .funding) with guardValue := 195000, noService := true } : Station) with auth := { Auth.powerOn with state := .asked, kind := .first, amount := 300, id := 5 } }
      : Station)) (fun s x => s.mode.run ≠ .clearing ∧ s.port.ordDone ≠ s.port.ordPost ∧ s.orderKind = 11 ∧
      s.floor.store.param s.slot 0 1 = 1 ∧ s.mode.run = .running ∧ x.auth.state = .asked ∧ x.auth.id.toNat =
      s.floor.store.param s.slot 2 2 ∧ x.auth.kind = .first ∧ x.nextCard = none ∧ 0 < min (s.floor.store.param s.slot
      4 4) x.auth.amount ∧ x.noService = true) ∧
    Meets (world .running (order 11 [(0, 1, 1), (2, 2, 5), (4, 4, 194)] [])
      ({ ({ (sess .funding .funding) with guardValue := 195000, noService := false } : Station) with auth := { Auth.powerOn with state := .asked, kind := .first, amount := 300, id := 5 } }
      : Station)) (fun s x => s.mode.run ≠ .clearing ∧ s.port.ordDone ≠ s.port.ordPost ∧ s.orderKind = 11 ∧
      s.floor.store.param s.slot 0 1 = 1 ∧ s.mode.run = .running ∧ x.auth.state = .asked ∧ x.auth.id.toNat =
      s.floor.store.param s.slot 2 2 ∧ x.auth.kind = .first ∧ x.nextCard = none ∧ 0 < min (s.floor.store.param s.slot
      4 4) x.auth.amount ∧ x.noService = false ∧ min (s.floor.store.param s.slot 4 4) x.auth.amount < (x.guardValue +
      999) / 1000) ∧
    Meets (world .running (order 11 [(0, 1, 1), (2, 2, 5), (4, 4, 195)] [])
      ({ ({ (sess .funding .funding) with guardValue := 195000, noService := false } : Station) with auth := { Auth.powerOn with state := .asked, kind := .first, amount := 300, id := 5 } }
      : Station)) (fun s x => s.mode.run ≠ .clearing ∧ s.port.ordDone ≠ s.port.ordPost ∧ s.orderKind = 11 ∧
      s.floor.store.param s.slot 0 1 = 1 ∧ s.mode.run = .running ∧ x.auth.state = .asked ∧ x.auth.id.toNat =
      s.floor.store.param s.slot 2 2 ∧ x.auth.kind = .first ∧ x.nextCard = none ∧ 0 < min (s.floor.store.param s.slot
      4 4) x.auth.amount ∧ x.noService = false ∧ (x.guardValue + 999) / 1000 = min (s.floor.store.param s.slot 4 4)
      x.auth.amount ∧ x.line.live.fed = 0) ∧
    Meets (world .running (order 11 [(0, 1, 1), (2, 2, 5), (4, 4, 195)] []) (strayed 1
      ({ ({ (sess .funding .funding) with guardValue := 195000, noService := false } : Station) with auth := { Auth.powerOn with state := .asked, kind := .first, amount := 300, id := 5 } }
      : Station))) (fun s x => s.mode.run ≠ .clearing ∧ s.port.ordDone ≠ s.port.ordPost ∧ s.orderKind = 11 ∧
      s.floor.store.param s.slot 0 1 = 1 ∧ s.mode.run = .running ∧ x.auth.state = .asked ∧ x.auth.id.toNat =
      s.floor.store.param s.slot 2 2 ∧ x.auth.kind = .first ∧ x.nextCard = none ∧ 0 < min (s.floor.store.param s.slot
      4 4) x.auth.amount ∧ x.noService = false ∧ (x.guardValue + 999) / 1000 = min (s.floor.store.param s.slot 4 4)
      x.auth.amount ∧ x.line.live.fed ≠ 0) :=
  ⟨meets (by decide) (by decide), meets (by decide) (by decide), meets (by decide) (by decide), meets (by decide)
    (by decide), meets (by decide) (by decide)⟩

/-- An invalid and a valid other page without a live session; a LOW, an OPEN and a RECOVERY station whose guard value the switch
changes. -/
theorem test_witness_PriceSwitchChangesThePage :
    Meets (world .running (order 12 [] [(0x2B70, 2, 501)]) up) (fun s _ => s.mode.run ≠ .clearing ∧ s.port.ordDone ≠
      s.port.ordPost ∧ s.orderKind = 12 ∧ s.floor.store.pageFailure .b = some (3, 0)) ∧
    Meets (world .running (order 12 [] []) up) (fun s _ => s.mode.run ≠ .clearing ∧ s.port.ordDone ≠ s.port.ordPost ∧
      s.orderKind = 12 ∧ s.floor.store.pageFailure .b = none ∧ ∀ i, (s.floor.station i).context.condition ≠ .live ∧
      (s.floor.station i).context.condition ≠ .ending) ∧
    Meets (world .running (order 12 [] []) (guarded 195000 (funded [paid 300 300000] (sess .low .live)))) (fun s x =>
      s.mode.run ≠ .clearing ∧ s.port.ordDone ≠ s.port.ordPost ∧ s.orderKind = 12 ∧ s.floor.store.pageFailure .b = none ∧
      x.context.condition = .live ∧ x.state = .low ∧ guardValueOf s.floor.store .b x.copy ≠ x.guardValue) ∧
    Meets (world .running (order 12 [] []) (guarded 195000 (funded [paid 300 300001] (sess .opened .live)))) (fun s x =>
      s.floor.store.pageFailure .b = none ∧ x.context.condition = .live ∧ x.state = .opened ∧ x.context.lastIs .account =
      true ∧ guardValueOf s.floor.store .b x.copy ≠ x.guardValue) ∧
    Meets (world .running (order 12 [] []) (guarded 195000 (funded [paid 300 0] (sess .recovery .live)))) (fun s x =>
      s.floor.store.pageFailure .b = none ∧ x.context.condition = .live ∧ x.state = .recovery ∧ guardValueOf s.floor.store
      .b x.copy ≠ x.guardValue) :=
  ⟨meets (by decide) (by decide), meets (by decide) (by decide), meets (by decide) (by decide), meets (by decide)
    (by decide), meets (by decide) (by decide)⟩

/-- STATION OUT at an OUT station, an IDLE one without and with a live tally, a FUNDING one, one with a live tally and
a next card, and an OPEN and SETTLING one; STATION IN at an IDLE and an OUT one, at one where FAULT is found active, and at one
whose link is UP and whose serial rate changes. -/
theorem test_witness_StationsLeaveAndReturn :
    Meets (world .running (order 13 [(0, 1, 1)] []) (sess .out .empty)) (fun s x => s.mode.run ≠ .clearing ∧
      s.port.ordDone ≠ s.port.ordPost ∧ s.orderKind = 13 ∧ s.mode.run = .running ∧ s.floor.store.param s.slot 0 1 = 1
      ∧ x.state = .out) ∧
    Meets (world .running (order 13 [(0, 1, 1)] []) (pathed [sheet .stray] up)) (fun s x => s.mode.run ≠ .clearing ∧
      s.port.ordDone ≠ s.port.ordPost ∧ s.orderKind = 13 ∧ s.mode.run = .running ∧ s.floor.store.param s.slot 0 1 = 1
      ∧ x.state = .idle ∧ x.line.live.fed = 0 ∧ x.nextCard = none) ∧
    Meets (world .running (order 13 [(0, 1, 1)] []) (strayed 1 (pathed [sheet .stray] up))) (fun s x => s.mode.run ≠
      .clearing ∧ s.port.ordDone ≠ s.port.ordPost ∧ s.orderKind = 13 ∧ s.mode.run = .running ∧ s.floor.store.param
      s.slot 0 1 = 1 ∧ x.state = .idle ∧ x.line.live.fed ≠ 0 ∧ x.nextCard = none) ∧
    Meets (world .running (order 13 [(0, 1, 1)] []) (sess .funding .funding)) (fun s x => s.mode.run ≠ .clearing ∧
      s.port.ordDone ≠ s.port.ordPost ∧ s.orderKind = 13 ∧ s.mode.run = .running ∧ s.floor.store.param s.slot 0 1 = 1
      ∧ x.state = .funding ∧ x.line.live.fed = 0 ∧ x.nextCard = none) ∧
    Meets (world .running (order 13 [(0, 1, 1)] [])
      ({ strayed 1 (pathed [sheet .stray] (sess .funding .funding)) with nextCard := some { medium := .bank, bytes := 5 } }
      : Station)) (fun s x => s.mode.run ≠ .clearing ∧ s.port.ordDone ≠ s.port.ordPost ∧ s.orderKind = 13 ∧ s.mode.run
      = .running ∧ s.floor.store.param s.slot 0 1 = 1 ∧ x.state = .funding ∧ x.line.live.fed ≠ 0 ∧ x.nextCard ≠ none) ∧
    Meets (world .running (order 13 [(0, 1, 1)] []) (sess .opened .live)) (fun s x => s.mode.run ≠ .clearing ∧
      s.port.ordDone ≠ s.port.ordPost ∧ s.orderKind = 13 ∧ s.mode.run = .running ∧ s.floor.store.param s.slot 0 1 = 1
      ∧ x.state ≠ .out ∧ x.state ≠ .idle ∧ x.state ≠ .funding ∧ x.context.condition = .live) ∧
    Meets (world .running (order 13 [(0, 1, 1)] []) (sess .settling .settling)) (fun s x => s.mode.run ≠ .clearing ∧
      s.port.ordDone ≠ s.port.ordPost ∧ s.orderKind = 13 ∧ s.mode.run = .running ∧ s.floor.store.param s.slot 0 1 = 1
      ∧ x.state ≠ .out ∧ x.state ≠ .idle ∧ x.state ≠ .funding ∧ x.context.condition ≠ .live) ∧
    Meets (world .running (order 14 [(0, 1, 1)] []) up) (fun s x => s.mode.run ≠ .clearing ∧ s.port.ordDone ≠
      s.port.ordPost ∧ s.orderKind = 14 ∧ s.mode.run = .running ∧ s.floor.store.param s.slot 0 1 = 1 ∧ x.state ≠ .out) ∧
    Meets (world .running (order 14 [(0, 1, 1)] []) (sess .out .empty)) (fun s x => s.mode.run ≠ .clearing ∧
      s.port.ordDone ≠ s.port.ordPost ∧ s.orderKind = 14 ∧ s.mode.run = .running ∧ s.floor.store.param s.slot 0 1 = 1
      ∧ x.state = .out) ∧
    Meets (world .running (order 14 [(0, 1, 1)] []) (sampled true (sess .out .empty))) (fun s x => s.mode.run ≠ .clearing ∧
      s.port.ordDone ≠ s.port.ordPost ∧ s.orderKind = 14 ∧ s.mode.run = .running ∧ s.floor.store.param s.slot 0 1 = 1
      ∧ x.state = .out ∧ (s.floor.store.profile 0).clamped.isActive 2 x.line.comingSample.fault = true) ∧
    Meets (world .running (order 14 [(0, 1, 1)] [(0x2800, 1, 1)])
      ({ (sess .out .empty) with copy := { up.copy with rate := 3 } } : Station)) (fun s x => s.mode.run ≠ .clearing ∧
      s.port.ordDone ≠ s.port.ordPost ∧ s.orderKind = 14 ∧ s.mode.run = .running ∧ s.floor.store.param s.slot 0 1 = 1
      ∧ x.state = .out ∧ (s.floor.store.profile 0).clamped.isActive 2 x.line.comingSample.fault = false ∧ x.link.up =
      true ∧ x.copy.rate ≠ (s.floor.store.profile 0).clamped.rate) :=
  ⟨meets (by decide) (by decide), meets (by decide) (by decide), meets (by decide) (by decide), meets (by decide)
    (by decide), meets (by decide) (by decide), meets (by decide) (by decide), meets (by decide) (by decide), meets
    (by decide) (by decide), meets (by decide) (by decide),
    meets (by decide) (by decide), meets (by decide) (by decide)⟩

/-- An EMPTY and a HELD jam record; a LIVE, a FUNDING and an EMPTY context. -/
theorem test_witness_JamAckAndSessionEnd :
    Meets (world .running (order 15 [(0, 1, 1)] []) up) (fun s x => s.mode.run ≠ .clearing ∧ s.port.ordDone ≠
      s.port.ordPost ∧ s.orderKind = 15 ∧ s.floor.store.param s.slot 0 1 = 1 ∧ x.jam.record = none) ∧
    Meets (world .running (order 15 [(0, 1, 1)] [])
      ({ up with jam := { JamUnit.powerOn with record := some ({ cause := .copier, declared := 5, stateAt := .opened, number := 9, jams := 1, sheets := [] }, 255) } }
      : Station)) (fun s x => s.mode.run ≠ .clearing ∧ s.port.ordDone ≠ s.port.ordPost ∧ s.orderKind = 15 ∧
      s.floor.store.param s.slot 0 1 = 1 ∧ x.jam.record = some
      ({ cause := .copier, declared := 5, stateAt := .opened, number := 9, jams := 1, sheets := [] }, 255)) ∧
    Meets (world .running (order 16 [(0, 1, 1)] []) (sess .opened .live)) (fun s x => s.mode.run ≠ .clearing ∧
      s.port.ordDone ≠ s.port.ordPost ∧ s.orderKind = 16 ∧ s.floor.store.param s.slot 0 1 = 1 ∧ x.context.condition =
      .live) ∧
    Meets (world .running (order 16 [(0, 1, 1)] []) (sess .funding .funding)) (fun s x => s.mode.run ≠ .clearing ∧
      s.port.ordDone ≠ s.port.ordPost ∧ s.orderKind = 16 ∧ s.floor.store.param s.slot 0 1 = 1 ∧ x.context.condition =
      .funding ∧ x.nextCard = none ∧ s.mode.run = .running) ∧
    Meets (world .running (order 16 [(0, 1, 1)] []) up) (fun s x => s.mode.run ≠ .clearing ∧ s.port.ordDone ≠
      s.port.ordPost ∧ s.orderKind = 16 ∧ s.floor.store.param s.slot 0 1 = 1 ∧ x.context.condition ≠ .live ∧
      x.context.condition ≠ .funding) :=
  ⟨meets (by decide) (by decide), meets (by decide) (by decide), meets (by decide) (by decide), meets (by decide)
    (by decide), meets (by decide) (by decide)⟩

/-- No change due; each change due at an OUT station, in OPEN with an empty path, and in JAMMED with an empty lost
list. -/
theorem test_witness_LineEventsWithoutASheet :
    Meets (world .running [] up) (fun s x => s.mode.run ≠ .clearing ∧ ¬ FeedDue true x ∧ ¬ ExitDue true x ∧ ¬ FeedDue
      false x ∧ ¬ ExitDue false x ∧ ¬ FaultDue true x ∧ ¬ FaultDue false x) ∧
    Meets (world .running [] (sampled true (sess .out .empty))) (fun s x => inService s.mode x = false ∧ FeedDue true
      x ∧ ExitDue true x ∧ FaultDue true x) ∧
    Meets (world .running [] (sampled true (sess .opened .live))) (fun s x => inService s.mode x = true ∧ ExitDue true
      x ∧ x.line.inPath = [] ∧ x.state ≠ .jammed ∧ x.state ≠ .recovery) ∧
    Meets (world .running [] (sampled true (sess .jammed .live))) (fun s x => inService s.mode x = true ∧ ExitDue true
      x ∧ x.line.inPath = [] ∧ x.jam.lost = [] ∧ FaultDue true x ∧ x.state = .jammed) ∧
    Meets (world .running [] (sampled false (sess .jammed .live))) (fun s x => inService s.mode x = true ∧ FeedDue
      false x ∧ ExitDue false x ∧ FaultDue false x ∧ x.state = .jammed) ∧
    Meets (world .running [] (sampled false (sess .opened .live))) (fun s x => inService s.mode x = true ∧ FaultDue
      false x ∧ x.state ≠ .jammed) :=
  ⟨meets (by decide) (by unfold FeedDue ExitDue FaultDue; decide), meets (by decide)
    (by unfold FeedDue ExitDue FaultDue; decide), meets (by decide) (by unfold ExitDue; decide), meets (by decide)
    (by unfold ExitDue FaultDue; decide), meets (by decide) (by unfold FeedDue ExitDue FaultDue; decide), meets
    (by decide) (by unfold FaultDue; decide)⟩

/-- 998 strays so far and a path with room; a full path in JAMMED; the 1,000th stray with and without room, with a full path in
JAMMED, and behind a closed tally that waits; a live tally found at 1,000; an IDLE station in STOPPING; a full path in FUNDING. -/
theorem test_witness_FeedMakesAStray :
    Meets (world .running [] (sampled true (strayed 998 up))) (fun s x => s.mode.run = .running ∧ FeedDue true x ∧
      x.state ≠ .out ∧ x.context.condition ≠ .live ∧ x.context.condition ≠ .ending ∧ x.line.live.fed < 999 ∧
      x.line.inPath.length < x.copy.pathDepth) ∧
    Meets (world .running [] (sampled true (pathed [sheet .stray] (sess .jammed .empty)))) (fun s x => s.mode.run =
      .running ∧ FeedDue true x ∧ x.state ≠ .out ∧ x.context.condition ≠ .live ∧ x.context.condition ≠ .ending ∧
      x.line.live.fed < 999 ∧ x.copy.pathDepth ≤ x.line.inPath.length ∧ x.state = .jammed) ∧
    Meets (world .running [] (sampled true (strayed 999 up))) (fun s x => s.mode.run = .running ∧ FeedDue true x ∧
      x.state ≠ .out ∧ x.context.condition ≠ .live ∧ x.context.condition ≠ .ending ∧ x.line.inPath.length <
      x.copy.pathDepth ∧ x.line.live.fed = 999 ∧ x.line.closed.waiting = false ∧ x.copy.house < 1024 ∧
      s.floor.waitQueue = [] ∧ roomNeeded s.floor.rptWr 96 ≤ freeRoom s.floor.rptWr s.mode.rptRd) ∧
    Meets (queued (world .running [] (sampled true (strayed 999 up))) [.stray 3] 0 0) (fun s x => s.mode.run =
      .running ∧ FeedDue true x ∧ x.state ≠ .out ∧ x.context.condition ≠ .live ∧ x.context.condition ≠ .ending ∧
      x.line.inPath.length < x.copy.pathDepth ∧ x.line.live.fed = 999 ∧ x.line.closed.waiting = false ∧ x.copy.house <
      1024 ∧ s.floor.waitQueue ≠ []) ∧
    Meets (world .running [] (sampled true (strayed 999 (pathed [sheet .stray] (sess .jammed .empty))))) (fun s x =>
      inService s.mode x = true ∧ FeedDue true x ∧ x.context.condition ≠ .live ∧ x.context.condition ≠ .ending ∧
      x.line.live.fed = 999 ∧ x.copy.pathDepth ≤ x.line.inPath.length ∧ x.state = .jammed) ∧
    Meets (world .running [] (sampled true (waited (strayed 999 up)))) (fun s x => inService s.mode x = true ∧ FeedDue true
      x ∧ x.context.condition ≠ .live ∧ x.context.condition ≠ .ending ∧ x.line.live.fed = 999 ∧ x.line.closed.waiting =
      true ∧ x.line.inPath.length < x.copy.pathDepth) ∧
    Meets (world .running [] (sampled true (strayed 1000 up))) (fun s x => inService s.mode x = true ∧ FeedDue true x ∧
      x.context.condition ≠ .live ∧ x.context.condition ≠ .ending ∧ 1000 ≤ x.line.live.fed) ∧
    Meets (world .stopping [] (sampled true (strayed 3 up))) (fun s x => inService s.mode x = true ∧ FeedDue true x ∧
      x.context.condition ≠ .live ∧ x.context.condition ≠ .ending ∧ s.mode.run = .stopping ∧ x.state = .idle ∧
      x.line.inPath.length < x.copy.pathDepth) ∧
    Meets (world .running [] (sampled true (pathed [sheet .stray] (sess .funding .funding)))) (fun s x => inService s.mode
      x = true ∧ FeedDue true x ∧ x.context.condition ≠ .live ∧ x.context.condition ≠ .ending ∧ x.state ≠ .jammed ∧
      x.copy.pathDepth ≤ x.line.inPath.length) :=
  ⟨meets (by decide) (by unfold FeedDue; decide), meets (by decide) (by unfold FeedDue; decide), meets (by decide)
    (by unfold FeedDue; decide), meetsQueued (by decide) (by decide) (by unfold FeedDue; decide), meets (by decide)
    (by unfold FeedDue; decide), meets (by decide) (by unfold FeedDue; decide), meets (by decide) (by unfold FeedDue; decide),
    meets (by decide) (by unfold FeedDue; decide), meets (by decide) (by unfold FeedDue; decide)⟩

/-- OPEN with the guard met to the unit; DRAINING, where no check is made; LOW, where one is; a full path in JAMMED.
-/
theorem test_witness_FeedIsChargedToTheSession :
    Meets (world .running [] (sampled true (guarded 195000 (funded [paid 300 105000] (sess .opened .live))))) (fun s x
      => s.mode.run = .running ∧ FeedDue true x ∧ x.state ≠ .out ∧ x.state ≠ .low ∧ x.context.condition = .live ∧
      x.context.funding = [] ++ [paid 300 105000] ∧ x.line.inPath.length < x.copy.pathDepth ∧ (x.guardValue : Int) ≤
      ((300 : Nat) : Int) * 1000 - 105000) ∧
    Meets (world .stopping [] (sampled true (funded [paid 1 0, bank 300 0] (sess .draining .ending)))) (fun s x =>
      s.mode.run = .stopping ∧ FeedDue true x ∧ x.state ≠ .out ∧ x.state ≠ .low ∧ x.context.condition = .ending ∧
      x.context.funding = [paid 1 0] ++ [bank 300 0] ∧ x.line.inPath.length < x.copy.pathDepth ∧ x.state ≠ .opened ∧
      x.state ≠ .recovery) ∧
    Meets (world .running [] (sampled true (funded [paid 1 5000] (sess .low .live)))) (fun s x => s.mode.run =
      .running ∧ FeedDue true x ∧ x.state = .low ∧ x.context.condition = .live ∧ x.context.funding = [] ++ [paid 1
      5000] ∧ x.line.inPath.length < x.copy.pathDepth) ∧
    Meets (world .running [] (sampled true (pathed [sheet .stray] (funded [paid 300 0] (sess .jammed .live))))) (fun s
      x => s.mode.run = .running ∧ FeedDue true x ∧ x.state = .jammed ∧ x.context.condition = .live ∧
      x.context.funding = [] ++ [paid 300 0] ∧ ([] : List FundingEntry).length < 3 ∧ x.copy.pathDepth ≤
      x.line.inPath.length) :=
  ⟨meets (by decide) (by unfold FeedDue; decide), meets (by decide) (by unfold FeedDue; decide), meets (by decide)
    (by unfold FeedDue; decide), meets (by decide) (by unfold FeedDue; decide)⟩

/-- A stray and a sheet of the session at the front of the path. -/
theorem test_witness_ExitDeliversASheet :
    Meets (world .running [] (sampled true (pathed [sheet .stray] (sess .opened .live)))) (fun s x => inService s.mode
      x = true ∧ ExitDue true x ∧ x.line.inPath = sheet .stray :: [] ∧ (sheet .stray).target = .stray) ∧
    Meets (world .running [] (sampled true (pathed [sheet (.entry 0)] (funded [paid 300 35000] (sess .opened
      .live))))) (fun s x => inService s.mode x = true ∧ ExitDue true x ∧ x.line.inPath = sheet (.entry 0) :: [] ∧
      (sheet (.entry 0)).target = .entry 0 ∧ x.context.funding[(0 : Fin 3).val]? = some (paid 300 35000)) :=
  ⟨meets (by decide) (by unfold ExitDue; decide), meets (by decide) (by unfold ExitDue; decide)⟩

/-- A lost stray in JAMMED; a credited sheet in RECOVERY whose late delivery leaves the guard met, and one after which it is not met;
a charged one. -/
theorem test_witness_ExitDeliversALostSheet :
    Meets (world .running [] (sampled true (missed [⟨sheet .stray, .stray⟩] (sess .jammed .empty)))) (fun s x =>
      inService s.mode x = true ∧ ExitDue true x ∧ x.state = .jammed ∧ x.line.inPath = [] ∧ x.jam.lost = ⟨sheet
      .stray, .stray⟩ :: []) ∧
    Meets (world .running [] (sampled true (missed [⟨sheet (.entry 0), .credited⟩] (funded [paid 300 0] (sess
      .recovery .live))))) (fun s x => inService s.mode x = true ∧ ExitDue true x ∧ x.state = .recovery ∧
      x.line.inPath = [] ∧ x.jam.lost = ⟨sheet (.entry 0), .credited⟩ :: [] ∧ x.context.funding[(0 : Fin 3).val]? =
      some (paid 300 0) ∧ Station.fundsPass { x with context := { x.context with funding := [paid 300 35000] } } =
      true) ∧
    Meets (world .running [] (sampled true (missed [⟨sheet (.entry 0), .charged⟩] (funded [paid 300 35000] (sess
      .jammed .live))))) (fun s x => inService s.mode x = true ∧ ExitDue true x ∧ x.state = .jammed ∧ x.line.inPath =
      [] ∧ x.jam.lost = ⟨sheet (.entry 0), .charged⟩ :: [] ∧ x.context.funding[(0 : Fin 3).val]? = some (paid 300
      35000)) ∧
    Meets (world .running [] (sampled true (missed [⟨sheet (.entry 0), .credited⟩] (guarded 1 (funded [paid 35 0] (sess
      .recovery .live)))))) (fun s x => inService s.mode x = true ∧ ExitDue true x ∧ x.state = .recovery ∧ x.line.inPath =
      [] ∧ x.jam.lost = ⟨sheet (.entry 0), .credited⟩ :: [] ∧ x.context.funding[(0 : Fin 3).val]? = some (paid 35 0) ∧
      x.fundsPass = true ∧ Station.fundsPass { x with context := { x.context with funding := [paid 35 35000] } } = false) :=
  ⟨meets (by decide) (by unfold ExitDue; decide), meets (by decide) (by unfold ExitDue; decide), meets (by decide)
    (by unfold ExitDue; decide), meets (by decide) (by unfold ExitDue; decide)⟩

/-- FAULT with a sheet in the path; a sheet of 1,000 ms at a transit limit of 999 ms; a full path met by a stray, and
by a sheet of a session whose guard is met to the unit; a HELD record; a funding wait; a full path met by the 1,000th stray at an
IDLE station in STOPPING, by a sheet of an OPEN session whose guard is not met, of a LOW one, and of one that is ending. -/
theorem test_witness_JamIsDeclared :
    Meets (world .running [] (sampled true (pathed [sheet (.entry 0)] (funded [paid 300 35000] (sess .opened
      .live))))) (fun s x => inService s.mode x = true ∧ FaultDue true x ∧ x.state ≠ .jammed ∧ x.context.condition =
      .live ∧ x.jam.record = none ∧ s.floor.waitQueue = [] ∧ roomNeeded s.floor.rptWr 32 ≤ freeRoom s.floor.rptWr
      s.mode.rptRd) ∧
    Meets (world .running [] ({ (pathed [sheet .stray] up) with copy := { up.copy with transitLimit := 999 } } :
      Station)) (fun s x => inService s.mode x = true ∧ x.state ≠ .jammed ∧ x.line.inPath = sheet .stray :: [] ∧
      x.copy.transitLimit < elapsed s.mode.partTime (sheet .stray).feedTime) ∧
    Meets (queued (world .running [] (sampled true (pathed [sheet .stray] up))) [.stray 3] 0 0) (fun s x => inService
      s.mode x = true ∧ FeedDue true x ∧ x.state ≠ .jammed ∧ s.mode.run = .running ∧ x.copy.pathDepth ≤
      x.line.inPath.length ∧ x.line.live.fed < 999 ∧ x.context.condition ≠ .live ∧ x.context.condition ≠ .ending ∧
      s.floor.waitQueue ≠ []) ∧
    Meets (world .running [] (sampled true (pathed [sheet (.entry 0)] (guarded 265000 (funded [paid 300 35000] (sess
      .opened .live)))))) (fun s x => inService s.mode x = true ∧ FeedDue true x ∧ x.state ≠ .jammed ∧ x.state ≠ .low
      ∧ x.copy.pathDepth ≤ x.line.inPath.length ∧ x.context.condition = .live ∧ x.context.funding = [] ++ [paid 300
      35000] ∧ sheetPrice s.floor.store s.mode.page x.copy (readClass x.copy true true true) (chargeRate s.floor.store
      s.mode.page (paid 300 35000)) = 0 ∧ (x.guardValue : Int) ≤ ((300 : Nat) : Int) * 1000 - 35000) ∧
    Meets (world .running [] (sampled true
      ({ (sess .funding .funding) with jam := { JamUnit.powerOn with record := some ({ cause := .copier, declared := 5, stateAt := .opened, number := 9, jams := 1, sheets := [] }, 255) } }
      : Station))) (fun s x => inService s.mode x = true ∧ FaultDue true x ∧ x.state = .funding ∧ x.jam.record = some
      ({ cause := .copier, declared := 5, stateAt := .opened, number := 9, jams := 1, sheets := [] }, 255)) ∧
    Meets (world .stopping [] (sampled true (strayed 999 (pathed [sheet .stray] up)))) (fun s x => inService s.mode x = true
      ∧ FeedDue true x ∧ x.state ≠ .jammed ∧ x.copy.pathDepth ≤ x.line.inPath.length ∧ x.line.live.fed = 999 ∧
      x.context.condition ≠ .live ∧ x.context.condition ≠ .ending ∧ s.mode.run = .stopping ∧ x.state = .idle) ∧
    Meets (world .running [] (sampled true (pathed [sheet (.entry 0)] (guarded 265001 (funded [paid 300 35000] (sess
      .opened .live)))))) (fun s x => inService s.mode x = true ∧ FeedDue true x ∧ x.state = .opened ∧ x.copy.pathDepth ≤
      x.line.inPath.length ∧ x.context.condition = .live ∧ x.context.funding = [] ++ [paid 300 35000] ∧ x.fundsPass =
      false) ∧
    Meets (world .running [] (sampled true (pathed [sheet (.entry 0)] (guarded 1 (funded [bank 1 1000, paid 300 300000]
      (sess .low .live)))))) (fun s x => inService s.mode x = true ∧ FeedDue true x ∧ x.state = .low ∧ x.copy.pathDepth ≤
      x.line.inPath.length ∧ x.context.condition = .live ∧ x.context.funding = [bank 1 1000] ++ [paid 300 300000]) ∧
    Meets (world .stopping [] (sampled true (pathed [sheet (.entry 0)] (funded [paid 300 35000] (sess .draining .ending)))))
      (fun s x => inService s.mode x = true ∧ FeedDue true x ∧ x.state ≠ .jammed ∧ x.state ≠ .low ∧ x.state ≠ .opened ∧
      x.state ≠ .recovery ∧ x.copy.pathDepth ≤ x.line.inPath.length ∧ x.context.condition = .ending ∧ x.context.funding =
      [] ++ [paid 300 35000]) :=
  ⟨meets (by decide) (by unfold FaultDue; decide), meets (by decide) (by decide), meetsQueued (by decide) (by decide)
    (by unfold FeedDue; decide), meets (by decide) (by unfold FeedDue; decide), meets (by decide)
    (by unfold FaultDue; decide), meets (by decide) (by unfold FeedDue; decide), meets (by decide)
    (by unfold FeedDue; decide), meets (by decide) (by unfold FeedDue; decide), meets (by decide) (by unfold FeedDue; decide)⟩

/-- A JAMMED station whose jam is due to clear, 2,000 ms after its settle start. -/
def clearing (x : Station) : Station := { calm x with jam := { JamUnit.powerOn with settleStart := 98000 } }

/-- 2,000 ms after the settle start: below and at the jam limit, with the guard met and not; ENDING, SETTLING and EMPTY contexts;
an EMPTY context with a next card, one out pending, and one in STOPPING with a live tally that is not empty; an ABANDONED context; a
recovery of 60,000 and of 59,999 ms. -/
theorem test_witness_JamsClearAndRecoveriesEnd :
    Meets (world .running []
      (clearing (funded [paid 300 0] (sess .jammed .live)))) (fun s x => x.state = .jammed ∧ x.line.fault = false ∧ elapsed s.mode.partTime x.jam.settleStart =
      2000 ∧ x.jam.pendingReport = none ∧ x.context.condition = .live ∧ x.context.jams < x.copy.jamLimit ∧ x.fundsPass
      = true) ∧
    Meets (world .running []
      ({ (clearing (funded [paid 300 0] (sess .jammed .live))) with context := { ((clearing (funded [paid 300 0] (sess .jammed .live)))).context with jams := 1 } }
      : Station)) (fun s x => x.state = .jammed ∧ x.line.fault = false ∧ elapsed s.mode.partTime x.jam.settleStart =
      2000 ∧ x.jam.pendingReport = none ∧ x.context.condition = .live ∧ x.copy.jamLimit = x.context.jams) ∧
    Meets (world .running []
      (clearing (funded [paid 300 0] (sess .jammed .ending)))) (fun s x => x.state = .jammed ∧ x.line.fault = false ∧ elapsed s.mode.partTime x.jam.settleStart =
      2000 ∧ x.jam.pendingReport = none ∧ x.context.condition = .ending) ∧
    Meets (world .running []
      (clearing (funded [paid 300 0] (sess .jammed .settling)))) (fun s x => x.state = .jammed ∧ x.line.fault = false ∧ elapsed s.mode.partTime x.jam.settleStart =
      2000 ∧ x.jam.pendingReport = none ∧ x.context.condition = .settling) ∧
    Meets (world .running []
      (clearing (funded [paid 300 0] (sess .jammed .empty)))) (fun s x => x.state = .jammed ∧ x.line.fault = false ∧ elapsed s.mode.partTime x.jam.settleStart =
      2000 ∧ x.jam.pendingReport = none ∧ x.context.condition = .empty ∧ x.outPending = .none ∧ x.nextCard = none ∧
      s.mode.run = .running) ∧
    Meets (world .running [] (clearing (guarded 300001 (funded [paid 300 0] (sess .jammed .live))))) (fun s x => x.state = .jammed ∧ x.line.fault = false ∧
      elapsed s.mode.partTime x.jam.settleStart = 2000 ∧ x.jam.pendingReport = none ∧
      x.context.condition = .live ∧ x.context.jams < x.copy.jamLimit ∧ x.fundsPass = false) ∧
    Meets (world .running [] (clearing { (sess .jammed .empty) with nextCard := some { medium := .bank, bytes := 5 } })) (fun s x =>
      x.state = .jammed ∧ x.line.fault = false ∧
      elapsed s.mode.partTime x.jam.settleStart = 2000 ∧ x.jam.pendingReport = none ∧
      x.context.condition = .empty ∧ x.outPending = .none ∧ x.nextCard.isSome = true) ∧
    Meets (world .running [] (clearing { (sess .jammed .empty) with outPending := .staff })) (fun s x => x.state = .jammed ∧ x.line.fault = false ∧
      elapsed s.mode.partTime x.jam.settleStart = 2000 ∧ x.jam.pendingReport = none ∧
      x.context.condition = .empty ∧ x.outPending ≠ .none) ∧
    Meets (world .stopping [] (clearing (strayed 3 (sess .jammed .empty)))) (fun s x => s.mode.run = .stopping ∧ x.state = .jammed ∧ x.line.fault = false ∧
      elapsed s.mode.partTime x.jam.settleStart = 2000 ∧ x.jam.pendingReport = none ∧
      x.context.condition = .empty ∧ x.outPending = .none ∧ x.line.live.fed ≠ 0) ∧
    Meets (world .running [] (clearing (sess .jammed .abandoned))) (fun s x => x.state = .jammed ∧ x.line.fault = false ∧
      elapsed s.mode.partTime x.jam.settleStart = 2000 ∧ x.jam.pendingReport = none ∧
      x.context.condition = .abandoned ∧ x.outPending = .none) ∧
    Meets (world .running [] ({ (sess .recovery .live) with jam := { JamUnit.powerOn with recoveryStart := 40000 } } :
      Station)) (fun s x => x.state = .recovery ∧ elapsed s.mode.partTime x.jam.recoveryStart = 60000) ∧
    Meets (world .running [] ({ (sess .recovery .live) with jam := { JamUnit.powerOn with recoveryStart := 40001 } } :
      Station)) (fun s x => x.state = .recovery ∧ elapsed s.mode.partTime x.jam.recoveryStart < 60000 ∧ ¬ x.state =
      .jammed) :=
  ⟨meets (by decide) (by decide), meets (by decide) (by decide), meets (by decide) (by decide), meets (by decide) (by
    decide), meets (by decide) (by decide), meets (by decide) (by decide), meets (by decide) (by decide), meets (by
    decide) (by decide), meets (by decide) (by decide), meets (by decide) (by decide), meets (by decide) (by decide),
    meets (by decide) (by decide)⟩

/-- A LOW timer of exactly 10 s, a grace of exactly 10,000 ms, a card held in OPEN, and a grace in which another card
may come. -/
theorem test_witness_EventsEndALiveSession :
    Meets (world .running [] ({ (sess .low .live) with lowStart := some 90000 } : Station)) (fun s x => s.mode.run ≠
      .clearing ∧ x.context.condition = .live ∧ x.state = .low ∧ x.lowStart = some 90000 ∧ 1000 * x.copy.lowTime =
      elapsed s.mode.partTime 90000) ∧
    Meets (world .running [] ({ (sess .opened .live) with graceStart := some 90000 } : Station)) (fun s x =>
      x.context.condition = .live ∧ x.graceStart = some 90000 ∧ elapsed s.mode.partTime 90000 = 10000) ∧
    Meets (world .running [] (sess .opened .live)) (fun s x => x.context.condition = .live ∧ x.link.up = true ∧
      x.link.agreed.keypad = true ∧ inService s.mode x = true ∧ x.state = .opened ∧ x.link.held.isSome = true ∧ (0 :
      Byte).getLsbD 0 = false) ∧
    Meets (world .running [] ({ (sess .opened .live) with graceStart := some 95000 } : Station)) (fun s x =>
      x.context.condition = .live ∧ cardFieldsValid 1 778 = true ∧ x.link.up = true ∧ inService s.mode x = true ∧
      x.graceStart.isSome = true ∧ x.link.agreed.shop = true ∧ x.context.card ≠ some
      { medium := .shop, bytes := 778 }) :=
  ⟨meets (by decide) (by decide), meets (by decide) (by decide), meets (by decide) (by decide), meets (by decide)
    (by decide)⟩

/-- A funding wait with its card held, its grace at 10,000 and 9,999 ms, its request at exactly 5 s and 1 ms short; a
LOW timer 1 ms short; in its grace an unknown, a blocked and a BANK card. -/
theorem test_witness_EventsGiveUpAFundingWait :
    Meets (world .running [] (sess .funding .funding)) (fun s x => s.mode.run = .running ∧ x.state = .funding ∧
      x.link.up = true ∧ x.link.agreed.keypad = true ∧ x.nextCard = none ∧ x.link.held.isSome = true ∧ (2 :
      Byte).getLsbD 0 = false) ∧
    Meets (world .running [] ({ (sess .funding .funding) with graceStart := some 90000 } : Station)) (fun s x =>
      x.context.condition = .funding ∧ x.graceStart = some 90000 ∧ elapsed s.mode.partTime 90000 = 10000 ∧ x.nextCard
      = none) ∧
    Meets (world .running []
      ({ (sess .funding .funding) with auth := { Auth.powerOn with state := .asked, kind := .first, written := 95000 } }
      : Station)) (fun s x => x.auth.state = .asked ∧ 1000 * x.copy.authTime = elapsed s.mode.partTime x.auth.written
      ∧ x.auth.kind = .first ∧ x.nextCard = none) ∧
    Meets (world .running []
      ({ (sess .low .live) with auth := { Auth.powerOn with state := .asked, kind := .increment, written := 95000 } }
      : Station)) (fun s x => x.auth.state = .asked ∧ 1000 * x.copy.authTime = elapsed s.mode.partTime x.auth.written
      ∧ x.auth.kind ≠ .first) ∧
    Meets (world .running []
      ({ (sess .low .live) with lowStart := some 90001, graceStart := some 90001, auth := { Auth.powerOn with state := .asked, written := 95001 } }
      : Station)) (fun s x => elapsed s.mode.partTime x.auth.written < 1000 * x.copy.authTime ∧ x.graceStart = some
      90001 ∧ elapsed s.mode.partTime 90001 < 10000 ∧ x.lowStart = some 90001 ∧ elapsed s.mode.partTime 90001 < 1000 *
      x.copy.lowTime) ∧
    Meets (world .running (cells (ent 0 776 2 1 1)) ({ (sess .funding .funding) with graceStart := some 95000 } :
      Station)) (fun s x => cardFieldsValid 1 778 = true ∧ x.link.up = true ∧ x.state = .funding ∧ x.context.condition
      = .funding ∧ x.graceStart.isSome = true ∧ x.nextCard = none ∧ x.link.agreed.shop = true ∧ x.context.card ≠ some
      { medium := .shop, bytes := 778 } ∧ s.floor.store.lookup (778 : BitVec 64).toNat = none ∧ (s.floor.store.lookup
      (776 : BitVec 64).toNat).map (fun d => d.state) = some 2 ∧ x.context.card ≠ some
      { medium := .shop, bytes := 776 }) ∧
    Meets (world .running [] ({ (sess .funding .funding) with graceStart := some 95000, noService := true } :
      Station)) (fun _ x => cardFieldsValid 2 778 = true ∧ x.link.up = true ∧ x.state = .funding ∧ x.context.condition
      = .funding ∧ x.graceStart.isSome = true ∧ x.nextCard = none ∧ x.link.agreed.bank = true ∧ x.context.card ≠ some
      { medium := .bank, bytes := 778 } ∧ x.noService = true) ∧
    Meets (world .running []
      ({ (sess .funding .funding) with graceStart := some 95000, auth := { Auth.powerOn with slot := some { id := 5, kind := .increment, amount := 200, token := 6, number := 9 } } }
      : Station)) (fun _ x => cardFieldsValid 2 778 = true ∧ x.link.up = true ∧ x.state = .funding ∧
      x.context.condition = .funding ∧ x.graceStart.isSome = true ∧ x.nextCard = none ∧ x.link.agreed.bank = true ∧
      x.context.card ≠ some { medium := .bank, bytes := 778 } ∧ x.noService = false ∧ x.auth.slot.isSome = true) :=
  ⟨meets (by decide) (by decide), meets (by decide) (by decide), meets (by decide) (by decide), meets (by decide)
    (by decide), meets (by decide) (by decide), meets (by decide) (by decide), meets (by decide) (by decide), meets
    (by decide) (by decide)⟩

/-- A window of exactly 100 ms with and without room, and a path that is not quiet; in STOPPING a CLOSING account left
without holders and a next card; an out-pending station. -/
theorem test_witness_QuietPathSettlesTheSession :
    Meets (world .stopping (cells ((0xC443, 1, 1) :: acc 1 3 1 5))
      ({ strayed 1 (chained ({ (funded [paid 300 1500] (sess .draining .ending)) with line := { LineUnit.powerOn with drainStart := 99900 } } : Station)) with nextCard := some { medium := .shop, bytes := 778 }, line := { (strayed 1 ({ (funded [paid 300 1500] (sess .draining .ending)) with line := { LineUnit.powerOn with drainStart := 99900 } } : Station)).line with drainStart := 99900 } }
      : Station)) (fun s x => s.mode.run = .stopping ∧ x.nextCard.isSome = true ∧ x.line.live.fed ≠ 0 ∧
      (s.floor.store.account 1).isClosing = true ∧ (s.floor.store.account 1).holders = 1 ∧ x.state = .draining ∧
      x.line.inPath = [] ∧ x.copy.drainMin = elapsed s.mode.partTime x.line.drainStart ∧ roomNeeded s.floor.rptWr (8 +
      layoutSize (sessionBody x.context)) ≤ freeRoom s.floor.rptWr s.mode.rptRd ∧ FundsLaw x.context) ∧
    Meets (world .running (cells (acc 1 1 1 5))
      ({ chained ({ (funded [paid 300 1500] (sess .draining .ending)) with line := { LineUnit.powerOn with drainStart := 99900 } } : Station) with outPending := .staff }
      : Station)) (fun s x => s.mode.run = .running ∧ x.outPending ≠ .none ∧ x.state = .draining ∧ x.line.inPath = []
      ∧ x.copy.drainMin = elapsed s.mode.partTime x.line.drainStart ∧ roomNeeded s.floor.rptWr (8 + layoutSize
      (sessionBody x.context)) ≤ freeRoom s.floor.rptWr s.mode.rptRd ∧ FundsLaw x.context) ∧
    Meets (world .running (cells (acc 1 1 1 5))
      ({ (funded [paid 300 1500] (sess .draining .ending)) with line := { LineUnit.powerOn with drainStart := 99900 } }
      : Station)) (fun s x => s.mode.run = .running ∧ x.state = .draining ∧ x.line.inPath = [] ∧ x.line.pace = 0 ∧
      x.copy.drainMin = elapsed s.mode.partTime x.line.drainStart ∧ roomNeeded s.floor.rptWr (8 + layoutSize
      (sessionBody x.context)) ≤ freeRoom s.floor.rptWr s.mode.rptRd ∧ x.nextCard = none ∧ x.outPending = .none ∧ (∀
      j, (s.floor.station j).state ≠ .low) ∧ ∀ en ∈ x.context.funding, (s.floor.store.account en.account).isClosing =
      false) ∧
    Meets (queued (world .running []
      ({ (funded [paid 300 1500] (sess .draining .ending)) with line := { LineUnit.powerOn with drainStart := 99900 } }
      : Station)) [.stray 3] 0 0) (fun s x => x.state = .draining ∧ x.line.inPath = [] ∧ s.floor.waitQueue ≠ []) ∧
    Meets (world .running [] (pathed [sheet (.entry 0)] (sess .draining .ending))) (fun _ x => x.line.inPath ≠ []) :=
  ⟨meets (by decide) (by unfold FundsLaw; decide), meets (by decide) (by unfold FundsLaw; decide), meets (by decide)
    (by decide), meetsQueued (by decide) (by decide) (by decide), meets (by decide) (by decide)⟩

/-- Heads that fit to the byte, one that does not, and an empty queue; two reports of which both fit to the byte, and
of which the second does not; a DEFERRED request with and without room; a session settlement, and one at a JAMMED
station whose account is CLOSING. -/
theorem test_witness_WaitingReportsAreWritten :
    Meets (queued (world .running (cells ((0xC443, 1, 1) :: acc 1 3 1 5)) (chained (funded [paid 300 1500] (sess
      .jammed .settling)))) [.session 0] 0 0) (fun s x => s.floor.waitQueue = [.session 0] ∧ x.context.condition =
      .settling ∧ x.state = .jammed ∧ (s.floor.store.account 1).isClosing = true ∧ FundsLaw x.context ∧ roomNeeded
      s.floor.rptWr (8 + layoutSize (sessionBody x.context)) ≤ freeRoom s.floor.rptWr s.mode.rptRd) ∧
    Meets (world .running [] up) (fun s _ => s.mode.run = .running ∧ s.floor.waitQueue = []) ∧
    Meets (queued (world .running [] up) [.stray 0] 0 96) (fun s _ => s.floor.waitQueue = .stray 0 :: [] ∧ ¬
      roomNeeded s.floor.rptWr (waitingLength s.floor (.stray 0)) ≤ freeRoom s.floor.rptWr s.mode.rptRd) ∧
    Meets (queued (world .running []
      ({ (sess .low .live) with auth := { Auth.powerOn with state := .unsent, kind := .increment, id := 5, slot := some { id := 5, kind := .increment, amount := 200, token := 6, number := 9 } } }
      : Station)) [.auth 0] 0 36) (fun s x => s.floor.waitQueue = [.auth 0] ∧ x.auth.slot = some
      { id := 5, kind := .increment, amount := 200, token := 6, number := 9 } ∧ x.auth.state ≠ .deferred ∧ x.auth.id =
      5 ∧ roomNeeded s.floor.rptWr 32 = freeRoom s.floor.rptWr s.mode.rptRd) ∧
    Meets (queued (world .running []
      ({ (sess .jammed .live) with jam := { JamUnit.powerOn with pendingReport := some { cause := .copier, declared := 5, stateAt := .opened, number := 9, jams := 1, sheets := [] } } }
      : Station)) [.jam 0] 0 28) (fun s x => s.floor.waitQueue = [.jam 0] ∧ x.jam.pendingReport = some
      { cause := .copier, declared := 5, stateAt := .opened, number := 9, jams := 1, sheets := [] } ∧ roomNeeded
      s.floor.rptWr 24 = freeRoom s.floor.rptWr s.mode.rptRd) ∧
    Meets (queued (world .running (cells (acc 1023 3 1 5)) up) [.close 1023] 0 68) (fun s _ => s.floor.waitQueue =
      [.close 1023] ∧ (s.floor.store.account 1023).isFree = false ∧ roomNeeded s.floor.rptWr 64 = freeRoom
      s.floor.rptWr s.mode.rptRd) ∧
    Meets (queued (world .running []
      ({ up with line := { LineUnit.powerOn with closed := { ClosedTally.zero with waiting := true } } } : Station))
      [.stray 0] 0 100) (fun s x => s.floor.waitQueue = [.stray 0] ∧ x.line.closed.house < 1024 ∧ roomNeeded
      s.floor.rptWr 96 = freeRoom s.floor.rptWr s.mode.rptRd) ∧
    Meets (queued (world .running (cells (acc 1 3 1 5))
      ({ up with line := { LineUnit.powerOn with closed := { ClosedTally.zero with waiting := true } } } : Station))
      [.close 1, .stray 0] 0 164) (fun s _ => s.floor.waitQueue = [.close 1, .stray 0] ∧ s.floor.waitQueue.Nodup ∧ ∀ p
      ∈ s.floor.waitQueue, p.waitsAlone s.floor = true ∧ fitInTurn (freeRoom s.floor.rptWr s.mode.rptRd) s.floor.rptWr
      ([.close 1, .stray 0].map (waitingLength s.floor))) ∧
    Meets (queued (world .running (cells (acc 1 3 1 5))
      ({ up with line := { LineUnit.powerOn with closed := { ClosedTally.zero with waiting := true } } } : Station))
      [.close 1, .stray 0] 0 160) (fun s _ => s.floor.waitQueue = [.close 1, .stray 0] ∧ s.floor.waitQueue.Nodup ∧ ∀ p
      ∈ s.floor.waitQueue, p.waitsAlone s.floor = true ∧ fitInTurn (freeRoom s.floor.rptWr s.mode.rptRd) s.floor.rptWr
      ([.close 1].map (waitingLength s.floor)) ∧ ¬ fitInTurn (freeRoom s.floor.rptWr s.mode.rptRd) s.floor.rptWr
      ([.close 1].map (waitingLength s.floor) ++ [waitingLength s.floor (.stray 0)])) ∧
    Meets (queued (world .running []
      ({ (sess .funding .funding) with auth := { Auth.powerOn with state := .deferred, kind := .first, amount := 300, slot := some { id := 5, kind := .increment, amount := 200, token := 6, number := 9 } } }
      : Station)) [.auth 0] 0 68) (fun s x => s.floor.waitQueue = [.auth 0] ∧ x.auth.slot = some
      { id := 5, kind := .increment, amount := 200, token := 6, number := 9 } ∧ x.auth.state = .deferred ∧ roomNeeded
      s.floor.rptWr 32 ≤ freeRoom s.floor.rptWr s.mode.rptRd ∧ roomNeeded (offsetAfter s.floor.rptWr 32) 32 ≤ freeRoom
      (offsetAfter s.floor.rptWr 32) s.mode.rptRd) ∧
    Meets (queued (world .running []
      ({ (sess .funding .funding) with auth := { Auth.powerOn with state := .deferred, kind := .first, amount := 300, slot := some { id := 5, kind := .increment, amount := 200, token := 6, number := 9 } } }
      : Station)) [.auth 0] 0 36) (fun s x => s.floor.waitQueue = [.auth 0] ∧ x.auth.slot = some
      { id := 5, kind := .increment, amount := 200, token := 6, number := 9 } ∧ x.auth.state = .deferred ∧ roomNeeded
      s.floor.rptWr 32 ≤ freeRoom s.floor.rptWr s.mode.rptRd ∧ ¬ roomNeeded (offsetAfter s.floor.rptWr 32) 32 ≤
      freeRoom (offsetAfter s.floor.rptWr 32) s.mode.rptRd) ∧
    Meets (queued (world .running [] (funded [paid 300 1500] (sess .settling .settling))) [.session 0] 0 0) (fun s x
      => s.floor.waitQueue = [.session 0] ∧ s.mode.run = .running ∧ x.context.condition = .settling ∧ roomNeeded
      s.floor.rptWr (8 + layoutSize (sessionBody x.context)) ≤ freeRoom s.floor.rptWr s.mode.rptRd ∧ x.nextCard = none
      ∧ x.outPending = .none ∧ x.state = .settling ∧ (∀ j, (s.floor.station j).state ≠ .low) ∧ ∀ en ∈
      x.context.funding, (s.floor.store.account en.account).isClosing = false) :=
  ⟨meetsQueued (by decide) (by decide) (by unfold FundsLaw; decide), meets (by decide) (by decide), meetsQueued
    (by decide) (by decide) (by decide), meetsQueued (by decide) (by decide) (by decide), meetsQueued (by decide)
    (by decide) (by decide), meetsQueued (by decide) (by decide) (by decide), meetsQueued (by decide) (by decide)
    (by decide), meetsQueued (by decide) (by decide) (by simp only [fitInTurn, List.map]; decide), meetsQueued
    (by decide) (by decide) (by simp only [fitInTurn, List.map, List.cons_append, List.nil_append]; decide),
    meetsQueued (by decide) (by decide) (by decide), meetsQueued (by decide) (by decide) (by decide), meetsQueued
    (by decide) (by decide) (by decide)⟩

/-- Each refusal and each case in which the card is kept. -/
theorem test_witness_CardInIsRefusedOrHeld :
    Meets (world .running [] Station.powerOn) (fun s x => s.mode.run ≠ .clearing ∧ cardFieldsValid 1 777 = true ∧
      x.link.up = false) ∧
    Meets (world .running [] ({ up with link := { up.link with agreed := .none } } : Station)) (fun s x => x.link.up =
      true ∧ inService s.mode x = true ∧ x.link.agreed.shop = false ∧ x.link.agreed.bank = false) ∧
    Meets (world .stopped [] up) (fun s x => cardFieldsValid 2 0 = true ∧ x.link.up = true ∧ inService s.mode x =
      false) ∧
    Meets (world .stopping [] up) (fun s x => x.link.up = true ∧ inService s.mode x = true ∧ x.link.agreed.shop = true
      ∧ x.graceStart = none ∧ x.state = .idle ∧ s.mode.run = .stopping) ∧
    Meets (world .running (cells (ent 0 776 1 1 1)) up) (fun s x => x.link.up = true ∧ inService s.mode x = true ∧
      x.link.agreed.shop = true ∧ x.graceStart = none ∧ x.state = .idle ∧ s.mode.run = .running ∧ s.floor.store.lookup
      (777 : BitVec 64).toNat = none) ∧
    Meets (world .running (cells (ent 0 777 2 1 1)) up) (fun s x => x.link.up = true ∧ inService s.mode x = true ∧
      x.link.agreed.shop = true ∧ x.graceStart = none ∧ x.state = .idle ∧ s.mode.run = .running ∧
      (s.floor.store.lookup (777 : BitVec 64).toNat).map (fun d => (d.state, d.role)) = some (2, 1)) ∧
    Meets (world .running (cells (ent 0 777 1 1 1)) ({ up with noService := true } : Station)) (fun s x => x.link.up =
      true ∧ inService s.mode x = true ∧ x.link.agreed.shop = true ∧ x.graceStart = none ∧ x.state = .idle ∧
      s.mode.run = .running ∧ (s.floor.store.lookup (777 : BitVec 64).toNat).map (fun d => (d.state, d.role)) = some
      (1, 1) ∧ x.noService = true ∧ x.link.agreed.bank = true) ∧
    Meets (world .running (cells (ent 0 777 1 1 1 ++ acc 1 1 1 1)) ({ up with guardValue := 1001 } : Station)) (fun s
      x => x.link.up = true ∧ inService s.mode x = true ∧ x.link.agreed.shop = true ∧ x.graceStart = none ∧ x.state =
      .idle ∧ s.mode.run = .running ∧ (s.floor.store.lookup (777 : BitVec 64).toNat).map (fun d => (d.state, d.role))
      = some (1, 1) ∧ x.noService = false ∧ x.holdNeed = 2 ∧ usable s.floor.store x.holdNeed 1 = false ∧ usable
      s.floor.store x.holdNeed 65535 = false) ∧
    Meets (world .running [] (sess .draining .ending)) (fun s x => x.link.up = true ∧ inService s.mode x = true ∧
      x.link.agreed.shop = true ∧ x.graceStart = none ∧ x.state = .draining) ∧
    Meets (world .running [] (sess .jammed .settling)) (fun s x => x.link.up = true ∧ inService s.mode x = true ∧
      x.link.agreed.shop = true ∧ x.graceStart = none ∧ x.state = .jammed ∧ x.context.condition ≠ .live) ∧
    Meets (world .running [] (sess .opened .live)) (fun s x => x.link.up = true ∧ inService s.mode x = true ∧
      x.link.agreed.shop = true ∧ x.graceStart = none ∧ x.state = .opened) ∧
    Meets (world .running [] ({ (sess .low .live) with graceStart := some 95000 } : Station)) (fun s x => x.link.up =
      true ∧ inService s.mode x = true ∧ x.link.agreed.shop = true ∧ x.graceStart.isSome = true ∧ x.context.condition
      = .live ∧ x.context.card = some { medium := .shop, bytes := 777 }) :=
  ⟨meets (by decide) (by decide), meets (by decide) (by decide), meets (by decide) (by decide), meets (by decide)
    (by decide), meets (by decide) (by decide), meets (by decide) (by decide), meets (by decide) (by decide), meets
    (by decide) (by decide), meets (by decide) (by decide), meets (by decide) (by decide), meets (by decide)
    (by decide), meets (by decide) (by decide)⟩

/-- A hold need of 2 that account 1 just meets, without and with a stray in the live tally; a hold step of 100 below the hold need of
101, without a stray and with one to be charged to the account of the hold; a SERVICE card with the house account not OPEN. -/
theorem test_witness_ShopCardOpensASession :
    Meets (world .running (cells (ent 0 777 1 1 1 ++ acc 1 1 1 2)) ({ up with guardValue := 1001 } : Station)) (fun s
      x => x.link.up = true ∧ inService s.mode x = true ∧ x.link.agreed.shop = true ∧ x.graceStart = none ∧ x.state =
      .idle ∧ s.mode.run = .running ∧ x.line.live.fed = 0 ∧ (s.floor.store.lookup (777 : BitVec 64).toNat).map (fun d
      => (d.state, d.role)) = some (1, 1) ∧ x.noService = false ∧ x.holdNeed ≤ x.copy.holdStep ∧ Chain.slots ⟨1,
      65535, 65535⟩ = [(1, 1), (2, 65535), (3, 65535)] ∧ (Chain.slots ⟨1, 65535, 65535⟩).find? (fun c => usable
      s.floor.store x.holdNeed c.2) = some (1, 1)) ∧
    Meets (world .running (cells (ent 0 777 1 1 1 ++ acc 1 1 1 2)) (strayed 1 (guarded 1001 up))) (fun s x =>
      x.link.up = true ∧ inService s.mode x = true ∧ x.link.agreed.shop = true ∧ x.graceStart = none ∧ x.state = .idle
      ∧ s.mode.run = .running ∧ x.line.live.fed ≠ 0 ∧ (s.floor.store.lookup (777 : BitVec 64).toNat).map (fun d =>
      (d.state, d.role)) = some (1, 1) ∧ x.noService = false ∧ x.holdNeed ≤ x.copy.holdStep ∧ (Chain.slots ⟨1, 65535,
      65535⟩).find? (fun c => usable s.floor.store x.holdNeed c.2) = some (1, 1)) ∧
    Meets (world .running (cells (ent 0 777 1 1 1 ++ acc 1 1 1 150)) (guarded 100001 up)) (fun s x =>
      x.link.up = true ∧ x.link.agreed.shop = true ∧ x.graceStart = none ∧ x.state = .idle ∧ s.mode.run = .running ∧
      (s.floor.store.lookup (777 : BitVec 64).toNat).map (fun d => (d.state, d.role, d.chain)) = some (1, 1, ⟨1, 65535, 65535⟩) ∧
      x.noService = false ∧ x.holdNeed = 101 ∧ x.copy.holdStep = 100 ∧
      (Chain.slots ⟨1, 65535, 65535⟩).find? (fun c => usable s.floor.store x.holdNeed c.2) = some (1, 1) ∧ x.line.live.fed = 0) ∧
    Meets (world .running (cells (ent 0 777 1 1 1 ++ acc 1 1 1 150)) (strayed 1 (guarded 100001 { up with copy := { up.copy with house := 1 } }))) (fun s x =>
      x.link.up = true ∧ x.link.agreed.shop = true ∧ x.graceStart = none ∧ x.state = .idle ∧ s.mode.run = .running ∧
      (s.floor.store.lookup (777 : BitVec 64).toNat).map (fun d => (d.state, d.role, d.chain)) = some (1, 1, ⟨1, 65535, 65535⟩) ∧
      x.noService = false ∧ x.holdNeed = 101 ∧ x.copy.holdStep = 100 ∧
      (Chain.slots ⟨1, 65535, 65535⟩).find? (fun c => usable s.floor.store x.holdNeed c.2) = some (1, 1) ∧ 
      x.line.live.fed ≠ 0 ∧ x.copy.house = 1) ∧
    Meets (world .running (cells (ent 0 777 1 2 65535)) up) (fun s x => x.link.up = true ∧ inService s.mode x = true ∧
      x.link.agreed.shop = true ∧ x.graceStart = none ∧ x.state = .idle ∧ s.mode.run = .running ∧ x.line.live.fed = 0
      ∧ (s.floor.store.lookup (777 : BitVec 64).toNat).map (fun d => (d.state, d.role)) = some (1, 2) ∧ x.copy.house <
      1024 ∧ (s.floor.store.account x.copy.house).isOpen = false) :=
  ⟨meets (by decide) (by decide), meets (by decide) (by decide), meets (by decide) (by decide), meets (by decide) (by decide),
    meets (by decide) (by decide)⟩

/-- An older report in the slot; no room; room to the byte. -/
theorem test_witness_BankCardStartsAFundingWait :
    Meets (world .running []
      ({ up with auth := { Auth.powerOn with slot := some { id := 5, kind := .increment, amount := 200, token := 6, number := 9 } } }
      : Station)) (fun _ x => x.link.up = true ∧ x.link.agreed.bank = true ∧ x.state = .idle ∧ x.graceStart = none ∧
      x.noService = false ∧ x.auth.slot.isSome = true) ∧
    Meets (queued (world .running [] up) [] 0 32) (fun s x => x.link.up = true ∧ x.link.agreed.bank = true ∧ x.state =
      .idle ∧ x.graceStart = none ∧ x.noService = false ∧ x.auth.slot = none ∧ ¬ roomNeeded s.floor.rptWr 32 ≤
      freeRoom s.floor.rptWr s.mode.rptRd) ∧
    Meets (queued (world .running [] up) [] 0 36) (fun s x => x.link.up = true ∧ x.link.agreed.bank = true ∧ x.state =
      .idle ∧ x.graceStart = none ∧ x.noService = false ∧ x.auth.slot = none ∧ s.floor.waitQueue = [] ∧ roomNeeded
      s.floor.rptWr 32 = freeRoom s.floor.rptWr s.mode.rptRd) :=
  ⟨meets (by decide) (by decide), meetsQueued (by decide) (by decide) (by decide), meetsQueued (by decide) (by decide)
    (by decide)⟩

/-- DOWN; UP without a keypad; UP and IDLE with and without a held card; a session with a last entry; JAMMED with an ENDING and with
an ABANDONED context. -/
theorem test_witness_KeysTicksAndCardsWithoutASessionChange :
    Meets (world .running [] Station.powerOn) (fun s x => s.mode.run ≠ .clearing ∧ x.link.up = false) ∧
    Meets (world .running [] ({ up with link := { up.link with agreed := .none } } : Station)) (fun _ x => x.link.up =
      true ∧ x.link.agreed.keypad = false) ∧
    Meets (world .running [] up) (fun _ x => x.state = .idle ∧ x.context.condition ≠ .live ∧ x.context.condition ≠
      .ending ∧ x.link.up = true ∧ (1 : Byte).getLsbD 0 = true ∧ x.link.held.isSome = true) ∧
    Meets (world .running [] ({ up with link := { up.link with held := none } } : Station)) (fun _ x => x.link.up =
      true ∧ x.link.held = none) ∧
    Meets (world .running [] (funded [paid 300 0, bank 300 1] (sess .low .live))) (fun s x => x.link.up = true ∧
      x.link.agreed.keypad = true ∧ inService s.mode x = true ∧ x.context.condition = .live ∧ x.context.funding =
      [paid 300 0] ++ [bank 300 1]) ∧
    Meets (world .running [] (sess .jammed .ending)) (fun _ x => x.state = .jammed ∧ x.context.condition ≠ .live ∧ x.link.up =
      true ∧ x.link.held.isSome = true) ∧
    Meets (world .stopping [] (sess .jammed .abandoned)) (fun _ x => x.state = .jammed ∧ x.context.condition ≠ .live ∧
      x.link.up = true ∧ x.link.held.isSome = true) :=
  ⟨meets (by decide) (by decide), meets (by decide) (by decide), meets (by decide) (by decide), meets (by decide)
    (by decide), meets (by decide) (by decide), meets (by decide) (by decide), meets (by decide) (by decide)⟩

/-- Silence of exactly 1,500 and of 1,499 ms; BUSY for 2,001 and for 2,000 ms; a link that is DOWN. -/
theorem test_witness_LinkGoesDownAndUp :
    Meets (world .running [] ({ (sess .opened .live) with link := { up.link with silenceStart := 98500 } } : Station))
      (fun s x => s.mode.run ≠ .clearing ∧ x.link.up = true ∧ elapsed s.mode.partTime x.link.silenceStart = 1500) ∧
    Meets (world .running []
      ({ up with link := { up.link with silenceStart := 98501, busy := true, busyStart := some 97999 } } : Station))
      (fun s x => x.link.up = true ∧ elapsed s.mode.partTime x.link.silenceStart < 1500 ∧ x.link.busy = true ∧
      x.link.busyStart = some 97999 ∧ 2000 < elapsed s.mode.partTime 97999) ∧
    Meets (world .running [] ({ up with link := { up.link with busy := true, busyStart := some 98000 } } : Station))
      (fun s x => x.link.busyStart = some 98000 ∧ ¬ 2000 < elapsed s.mode.partTime 98000) ∧
    Meets (world .running [] Station.powerOn) (fun _ x => x.link.up = false ∧ 1 ≤ (1 : Byte).toNat ∧ (4 : Byte).toNat
      ≤ 4) :=
  ⟨meets (by decide) (by decide), meets (by decide) (by decide), meets (by decide) (by decide), meets (by decide)
    (by decide)⟩

/-- Each state of the assembler; lengths 1, 40, 0 and 41; a parity error under EVEN; a gap of 51 and of 50 ms; good
and wrong check bytes of each frame; good check bytes of the kinds 0, 6 and 129, of a HELLO, TICK, CARD IN, CARD OUT and KEY of
another length, and of KEY 0 and KEY 3; a receiver that waits for the line to rise. -/
theorem test_witness_ReceiverAssemblesFrames :
    Meets (world .running [] ({ up with link := { up.link with assembler := .hunt, lastByte := 98000 } } : Station))
      (fun s x => s.mode.run ≠ .clearing ∧ x.link.assembler = .hunt) ∧
    Meets (world .running [] ({ up with link := { up.link with assembler := .length, lastByte := 98000 } } : Station))
      (fun _ x => x.link.assembler = .length ∧ 1 ≤ (40 : Byte).toNat ∧ (40 : Byte).toNat ≤ 40 ∧ 40 < (41 :
      Byte).toNat) ∧
    Meets (world .running [] ({ up with link := { up.link with assembler := (.body 2 [2]), lastByte := 99949 } } :
      Station)) (fun s x => x.link.assembler = .body 2 [2] ∧ 50 < elapsed s.mode.partTime x.link.lastByte) ∧
    Meets (world .running [] ({ up with link := { up.link with assembler := (.body 2 []), lastByte := 99950 } } :
      Station)) (fun s x => x.link.assembler = .body 2 [] ∧ elapsed s.mode.partTime x.link.lastByte ≤ 50) ∧
    Meets (world .running [] up) (fun _ x => x.copy.parity = 0 ∧ true = decide ((List.range 8).countP (3 :
      Byte).getLsbD % 2 = 0) ∧ ¬ true = decide ((List.range 8).countP (1 : Byte).getLsbD % 2 = 0)) ∧
    Meets (world .running []
      ({ up with link := { up.link with assembler := (.check 4 [1, 1, 7, 2]), lastByte := 98000 } } : Station)) (fun _
      x => x.link.assembler = .check 4 [1, 1, 7, 2] ∧ (4 + ([1, 1, 7, 2].map (BitVec.toNat (w := 8))).sum + (241 :
      Byte).toNat) % 256 = 0) ∧
    Meets (world .running [] ({ up with link := { up.link with assembler := (.check 2 [2, 1]), lastByte := 98000 } } :
      Station)) (fun _ x => x.link.assembler = .check 2 [2, 1] ∧ (2 + ([2, 1].map (BitVec.toNat (w := 8))).sum + (251
      : Byte).toNat) % 256 = 0 ∧ ¬ (2 + ([2, 1].map (BitVec.toNat (w := 8))).sum + (250 : Byte).toNat) % 256 = 0) ∧
    Meets (world .running []
      ({ up with link := { up.link with assembler := (.check 10 [3, 2, 0, 0, 0, 0, 0, 0, 0, 0]), lastByte := 98000 } }
      : Station)) (fun _ x => x.link.assembler = .check 10 [3, 2, 0, 0, 0, 0, 0, 0, 0, 0] ∧ (10 + ([3, 2, 0, 0, 0, 0,
      0, 0, 0, 0].map (BitVec.toNat (w := 8))).sum + (241 : Byte).toNat) % 256 = 0) ∧
    Meets (world .running [] ({ up with link := { up.link with assembler := (.check 1 [4]), lastByte := 98000 } } :
      Station)) (fun _ x => x.link.assembler = .check 1 [4] ∧ (1 + ([4].map (BitVec.toNat (w := 8))).sum + (251 :
      Byte).toNat) % 256 = 0) ∧
    Meets (world .running [] ({ up with link := { up.link with assembler := (.check 2 [5, 1]), lastByte := 98000 } } :
      Station)) (fun _ x => x.link.assembler = .check 2 [5, 1] ∧ (2 + ([5, 1].map (BitVec.toNat (w := 8))).sum + (248
      : Byte).toNat) % 256 = 0) ∧
    Meets (world .running [] ({ up with link := { up.link with assembler := (.check 2 [5, 2]), lastByte := 98000 } } :
      Station)) (fun _ x => x.link.assembler = .check 2 [5, 2] ∧ (2 + ([5, 2].map (BitVec.toNat (w := 8))).sum + (247
      : Byte).toNat) % 256 = 0) ∧
    (∀ c ∈ ([(1, [0], 255), (1, [6], 249), (1, [129], 126), (3, [1, 1, 7], 244), (1, [2], 253), (2, [3, 2], 249), (2, [4, 0], 250),
        (1, [5], 250), (2, [5, 0], 249), (2, [5, 3], 246)] : List (Nat × List Byte × Byte)),
      Meets (world .running [] { up with link := { up.link with assembler := .check c.1 c.2.1 } }) (fun s x =>
        s.mode.run ≠ .clearing ∧ x.link.assembler = .check c.1 c.2.1 ∧ x.link.awaitsHigh = false ∧
          (c.1 + (c.2.1.map BitVec.toNat).sum + c.2.2.toNat) % 256 = 0)) ∧
    Meets (world .running [] ({ up with link := { up.link with awaitsHigh := true, rises := [false] } } : Station))
      (fun _ x => ¬ (x.link.awaitsHigh = false ∨ x.link.rises.head? ≠ some false)) ∧
    Meets (world .running [] ({ up with link := { up.link with awaitsHigh := true, rises := [true] } } : Station))
      (fun _ x => x.link.awaitsHigh = true ∧ x.link.rises.head? ≠ some false) :=
  ⟨meets (by decide) (by decide), meets (by decide) (by decide), meets (by decide) (by decide), meets (by decide)
    (by decide), meets (by decide) (by decide), meets (by decide) (by decide), meets (by decide) (by decide), meets
    (by decide) (by decide), meets (by decide) (by decide), meets (by decide) (by decide), meets (by decide)
    (by decide), fun c h => meets (by decide)
    ⟨show RunState.running ≠ .clearing by decide, rfl, rfl, by revert h; revert c; decide⟩, meets (by decide) (by decide), meets (by decide) (by decide)⟩

/-- A frame ready to start at the end of its gap of 5 ms, and 1 ms before; a gap in which the working copy's length
has changed; nothing to send; the character left of an abandoned frame; a character within a frame; its last
character; BUSY at its active and inactive level, in a pause and not. -/
theorem test_witness_TransmitterSendsTheQueue :
    Meets (world .running []
      ({ up with link := { up.link with queue := [.eject], gapStart := some 99995, gapLength := 5 } } : Station)) (fun
      s x => s.mode.run ≠ .clearing ∧ x.link.up = true ∧ x.link.sending = none ∧ x.link.character = none ∧ x.link.busy
      = false ∧ x.link.gapStart = some 99995 ∧ x.link.gapLength = elapsed s.mode.partTime 99995 ∧ x.copy.gap = 0 ∧
      x.link.queue = .eject :: []) ∧
    Meets (world .running []
      ({ up with link := { up.link with queue := [.eject], gapStart := some 99996, gapLength := 5 } } : Station)) (fun
      s x => x.link.gapStart = some 99996 ∧ elapsed s.mode.partTime 99996 < x.link.gapLength ∧ x.copy.gap = 0) ∧
    Meets (world .running [] ({ up with link := { up.link with character := some [true] } } : Station)) (fun _ x =>
      x.link.character.isSome = true ∧ x.link.sending = none) ∧
    Meets (world .running [] up) (fun _ x => x.link.queue = []) ∧
    Meets (world .running []
      ({ up with link := { up.link with queue := [.eject], sending := some ⟨[0xA5, 1, 0x83, 0x7C], 2⟩, character := some [true] } }
      : Station)) (fun _ x => x.link.character.isSome = true ∧ x.link.sending = some ⟨[0xA5, 1, 0x83, 0x7C], 2⟩ ∧
      ([0xA5, 1, 0x83, 0x7C] : List Byte)[2 + 1]? = some 0x7C) ∧
    Meets (world .running []
      ({ up with link := { up.link with queue := [.eject], sending := some ⟨[0xA5, 1, 0x83, 0x7C], 3⟩, character := some [true] } }
      : Station)) (fun _ x => x.link.character.isSome = true ∧ x.link.sending = some ⟨[0xA5, 1, 0x83, 0x7C], 3⟩ ∧
      ([0xA5, 1, 0x83, 0x7C] : List Byte).length ≤ 3 + 1) ∧
    Meets (world .running [] up) (fun _ x => false = x.copy.activeHigh 7 ∧ true ≠ x.copy.activeHigh 7 ∧ x.link.sending
      = none) ∧
    Meets (world .running []
      ({ up with link := { up.link with queue := [.eject], sending := some ⟨[0xA5, 1, 0x83, 0x7C], 3⟩, busy := true } }
      : Station)) (fun _ x => true ≠ x.copy.activeHigh 7 ∧ x.link.sending = some ⟨[0xA5, 1, 0x83, 0x7C], 3⟩ ∧
      x.link.character = none ∧ ([0xA5, 1, 0x83, 0x7C] : List Byte)[3]? = some 0x7C) :=
  ⟨meets (by decide) (by decide), meets (by decide) (by decide), meets (by decide) (by decide), meets (by decide)
    (by decide), meets (by decide) (by decide), meets (by decide) (by decide), meets (by decide) (by decide), meets
    (by decide) (by decide)⟩

/-- The page of the worked case of chapter 2: a sold class at an ACCOUNT entry whose account has its tier flag set and
stands at position 2,000, at one without, at a BANK entry, and a class that is not sold. -/
theorem test_witness_PricesStayInTheirBounds :
    Meets (world .running (pageA.writeLE 0xC442 1 1 |>.writeLE 0xC458 4 1999 |>.writeLE 0xC454 4 1) up) (fun s x =>
      s.floor.store.pageFailure .a = none ∧ s.floor.store.sold .a 2 = true ∧ (s.floor.store.account (paid 300
      0).account).tier = true ∧ (s.floor.store.account 1).delivered.toNat + (s.floor.store.account 1).inFlight.toNat =
      2000 ∧ tierAt s.floor.store .a 2000 = 2 ∧ sheetPrice s.floor.store .a x.copy 2 (chargeRate s.floor.store .a
      (paid 300 0)) = 28000) ∧
    Meets (world .running pageA up) (fun s x => s.floor.store.pageFailure .a = none ∧ s.floor.store.sold .a 2 = true ∧
      (s.floor.store.account 1).tier = false ∧ (bank 300 0).kind ≠ .account ∧ sheetPrice s.floor.store .a x.copy 2
      (chargeRate s.floor.store .a (bank 300 0)) = 35000) ∧
    Meets (world .running (cells [(0x2B08, 4, 0xFFFFFFFF)]) up) (fun s _ => s.floor.store.pageFailure .a = none ∧
      s.floor.store.sold .a 2 = false ∧ (2000000 : Nat) ≤ 2000000 ∧ (500 : Nat) ≤ 500 ∧ (s.floor.store.account 0).tier
      = false) :=
  ⟨meets (by decide) (by decide +kernel), meets (by decide) (by decide +kernel), meets (by decide)
    (by decide +kernel)⟩

/-- The three states of a funding check and one without; a LOW station whose guard is met to the unit; two hold steps
wanted and had; one had, and the rest spilled to account 2 of the second slot; a BANK entry that asks, with an empty
slot and behind a report, and one of 4 grants that does not; entry to LOW with an ACCOUNT entry last; in LOW a check
that fails at an ACCOUNT entry and at a BANK entry that asks and one that does not. -/
theorem test_witness_FundingCheckDecidesTheState :
    Meets (world .running (cells (acc 1 1 1 0)) (guarded 200000 (funded [paid 300 300000] (sess .opened .live)))) (fun
      s x => x.state = .opened ∧ x.context.lastIs .account = true ∧ ((fundingCheck s.mode 0 s.floor).station
      0).fundsPass = false) ∧
    Meets (world .running (cells (acc 1 1 1 0)) (guarded 200000 (funded [paid 300 300000] (sess .low .live)))) (fun s
      x => x.state = .low ∧ x.context.lastIs .account = true ∧ ((fundingCheck s.mode 0 s.floor).station 0).fundsPass =
      false) ∧
    Meets (world .running [] (guarded 1 (funded [bank 300 300000] (sess .low .live)))) (fun _ x => x.state = .low ∧
      x.fundsPass = false ∧ x.context.lastIs .account = false ∧ x.context.funding = [] ++ [bank 300 300000] ∧ (bank
      300 300000).grants.length < 4 ∧ x.auth.state = .none ∧ x.context.stopAsking = false) ∧
    Meets (world .running [] (guarded 1 (funded [bank 300 300000]
      ({ (sess .low .live) with auth := { Auth.powerOn with state := .asked, kind := .increment } } : Station)))) (fun
      _ x => x.state = .low ∧ x.fundsPass = false ∧ x.context.lastIs .account = false ∧ x.auth.state = .asked) ∧
    Meets (world .running [] (sess .opened .live)) (fun s x => s.floor.rptWr % 4 = 0 ∧ s.floor.rptWr ≤ 8184 ∧ x.state
      = .opened) ∧
    Meets (world .running [] (sess .recovery .live)) (fun _ x => x.state = .recovery) ∧
    Meets (world .running [] up) (fun _ x => x.state ≠ .opened ∧ x.state ≠ .low ∧ x.state ≠ .recovery) ∧
    Meets (world .running [] (guarded 200000 (funded [paid 300 100000] (sess .low .live)))) (fun _ x => x.state = .low
      ∧ x.fundsPass = true) ∧
    Meets (world .running (cells (acc 1 1 1 200)) (guarded 200000 (funded [paid 300 300000] (sess .opened .live))))
      (fun s x => s.floor.rptWr % 4 = 0 ∧ s.floor.rptWr ≤ 8184 ∧ x.state = .opened ∧ x.fundsPass = false ∧
      x.context.funding = [] ++ [paid 300 300000] ∧ (paid 300 300000).account < 1024 ∧ (s.floor.store.account
      1).isOpen = true ∧ (s.floor.store.account 1).available = 200 ∧ ((((x.guardValue : Int) - ((300 : Nat) : Int) *
      1000 + 300000).toNat + (1000 * x.copy.holdStep - 1)) / (1000 * x.copy.holdStep)) = 2 ∧ (x.guardValue : Int) ≤
      ((500 : Nat) : Int) * 1000 - 300000) ∧
    Meets (world .running (cells (acc 1 1 1 100 ++ acc 2 1 1 200)) (guarded 200000 (chained (funded [paid 300 300000]
      ({ (sess .opened .live) with copy := { up.copy with holdStep := 200 } } : Station))))) (fun s x => s.floor.rptWr
      % 4 = 0 ∧ s.floor.rptWr ≤ 8184 ∧ x.state = .opened ∧ x.fundsPass = false ∧ x.context.funding = [] ++ [paid 300
      300000] ∧ (s.floor.store.account 1).isOpen = true ∧ (s.floor.store.account 1).available = 100 ∧ ((400 : Nat) :
      Int) * 1000 - 300000 < (x.guardValue : Int) ∧ ([] : List FundingEntry).length < 2 ∧ x.context.chain.slots.find?
      (fun k => decide ((paid 300 300000).slot < k.1) && usable s.floor.store x.holdNeed k.2 && x.context.funding.all
      fun en => en.account != k.2) = some (2, 2) ∧ (x.guardValue : Int) ≤ ((200 : Nat) : Int) * 1000) ∧
    Meets (world .running [] (guarded 1 (funded [bank 300 300000] (sess .opened .live)))) (fun s x => s.floor.rptWr %
      4 = 0 ∧ s.floor.rptWr ≤ 8184 ∧ x.state = .opened ∧ x.fundsPass = false ∧ x.context.lastIs .account = false ∧
      x.context.funding = [] ++ [bank 300 300000] ∧ (bank 300 300000).grants.length < 4 ∧ x.auth.state = .none ∧
      x.context.stopAsking = false ∧ x.auth.slot = none ∧ s.floor.waitQueue = []) ∧
    Meets (world .running [] (guarded 1 (funded [bank 300 300000]
      ({ (sess .recovery .live) with auth := { Auth.powerOn with slot := some { id := 5, kind := .increment, amount := 200, token := 6, number := 9 } } }
      : Station)))) (fun _ x => x.state = .recovery ∧ x.fundsPass = false ∧ x.context.lastIs .account = false ∧
      x.auth.state = .none ∧ x.context.stopAsking = false ∧ x.auth.slot.isSome = true) ∧
    Meets (world .running [] (guarded 1 (funded [{ bank 300 300000 with grants := List.replicate 4 ⟨0, 75⟩ }] (sess
      .opened .live)))) (fun _ x => x.state = .opened ∧ x.fundsPass = false ∧ x.context.lastIs .account = false ∧
      x.context.lastEntry.map (fun en => (en.kind, en.grants.length)) = some (.bank, 4)) :=
  ⟨meets (by decide) (by decide +kernel), meets (by decide) (by decide +kernel), meets (by decide) (by decide), meets
    (by decide) (by decide), meets (by decide) (by decide), meets (by decide) (by decide), meets (by decide)
    (by decide), meets (by decide) (by decide), meets (by decide) (by decide), meets (by decide) (by decide), meets
    (by decide) (by decide), meets (by decide) (by decide), meets (by decide) (by decide)⟩

/-- A LOW station whose last entry names account 1, while the part runs; and one in STOPPED. -/
theorem test_witness_ReEvaluationServesTheWaitingStations :
    Meets (world .running (cells (acc 1 1 1 5)) (funded [paid 300 300000] (sess .low .live))) (fun s x =>
      s.floor.rptWr % 4 = 0 ∧ s.floor.rptWr ≤ 8184 ∧ s.mode.runs = true ∧ x.state = .low ∧ x.context.funding = [] ++
      [paid 300 300000] ∧ (paid 300 300000).account ∈ [1] ∧ ∀ i, i ∈ [(0 : StationId)] ↔ (s.floor.station i).state =
      .low) ∧
    Meets (world .stopped [] up) (fun s x => s.floor.rptWr % 4 = 0 ∧ s.floor.rptWr ≤ 8184 ∧ s.mode.runs = false ∧
      x.state ≠ .low) :=
  ⟨meets (by decide) (by decide), meets (by decide) (by decide)⟩

/-- A live session in RUNNING meets every law, commands answer a next state there, and power-on changes the run state. -/
theorem test_witness_EveryStepKeepsTheLaws :
    let s := world .running [] (pathed [sheet (.entry 0)] (funded [paid 300 35000] (sess .opened .live)))
    EnableLaw s ∧ OffsetLaw s ∧ EvenLaw s ∧ StoreLaw s ∧ OrdersLaw s ∧ PathLaw s ∧ FundingLaw s ∧ QueueLaw s ∧
      DirectoryLaw s ∧ (∃ t, exec (.exitEvent 0) s = .next t) ∧
      ∃ t, exec .powerOn s = .next t ∧ t.mode.run ≠ s.mode.run ∧ t.mode.run = .clearing :=
  ⟨world_enable _ _ _, ⟨rfl, Nat.zero_le _, rfl, Nat.zero_lt_succ _⟩, fun _ n _ => even_editCount (by decide) n, rfl, by unfold OrdersLaw; decide,
    fun i => by revert i; unfold PathBound; decide, fun i => by revert i; decide,
    fun i => by revert i; unfold QueueBound; decide,
    fun _ => ⟨by decide, fun k hk => absurd hk (by simp [world, Memory.directoryCount, Memory.header, Memory.readLE, Memory.read]),
      fun _ k _ hk => absurd hk (by simp [world, Memory.directoryCount, Memory.header, Memory.readLE, Memory.read])⟩,
    ⟨_, rfl⟩, ⟨_, rfl, by decide, rfl⟩⟩

/-! A state with its books in order: a session on account 1 with one sheet in the path. -/

/-- Account 0 OPEN; account 1 with a hold of 300, one holder and one face in flight. -/
def ledger : Memory :=
  cells (acc 0 1 3 0 ++ acc 1 1 1 500 ++ [(0xC443, 1, 1), (0xC450, 4, 300), (0xC454, 4, 1)])

/-- The session's station. -/
def printing : Station :=
  let x := pathed [sheet (.entry 0)] (chained (funded [paid 300 35000] (sess .opened .live)))
  { x with context := { x.context with fed := 1 } }

theorem readLE_unlisted {m : Memory} {a n : Nat} (h : ∀ c ∈ m, ¬ (a ≤ c.1 ∧ c.1 < a + n)) : m.readLE a n = 0 := by
  induction n generalizing a with
  | zero => rfl
  | succ n ih =>
    have low : m.read a = 0 := read_unlisted m fun c hc e => h c hc (by omega)
    have rest : m.readLE (a + 1) n = 0 := ih fun c hc e => h c hc (by omega)
    simp [Memory.readLE, low, rest]

/-- An account of which the ledger lists no byte reads as zeros in the fields that law L1, L2 and the wait queue look at. -/
theorem ledger_unlisted {n : Nat} (h : 2 ≤ n) :
    let a := ledger.account n
    a.state = 0 ∧ a.held = 0 ∧ a.holders = 0 ∧ a.inFlight = 0 := by
  have range : ∀ c ∈ ledger, c.1 < accountAddr 2 := by decide
  have zero : ∀ o k, ledger.readLE (accountAddr n + o) k = 0 := fun o k => readLE_unlisted fun c hc e => by
    have := range c hc
    simp only [accountAddr] at this e
    omega
  have byte : ∀ o, ledger.read (accountAddr n + o) = 0 := fun o => read_unlisted _ fun c hc e => by
    have := range c hc
    simp only [accountAddr] at this e
    omega
  have first := byte 0
  simp only [Nat.add_zero] at first
  simp [Memory.account, zero, byte, first]

/-- Laws L1 to L7, L11 and L12, the places of the stream and the directory all hold of it, and commands answer a next state
there that is not the same. -/
theorem test_witness_Books :
    let s := world .running ledger printing
    Books s ∧ EnableLaw s ∧ EvenLaw s ∧ writesRecord (.exitEvent 0) = false ∧ ¬ isRunctl true false (.exitEvent 0) ∧
      (∀ w v, Instr.exitEvent 0 ≠ .storeWrite w v) ∧ ∃ t, exec (.exitEvent 0) s = .next t ∧ t.mode.rptRd = s.mode.rptRd := by
  have entries : ∀ n, liveEntries (world .running ledger printing).floor n =
      [paid 300 35000].filter fun en => en.namesAccount && en.account == n := fun _ => List.append_nil (List.filter _ _)
  have faces : ∀ n, facesInPaths (world .running ledger printing).floor n =
      (([sheet (.entry 0)].filter fun p => printing.context.accountOf p == some n).map fun p => facesOf p.cls).sum :=
    fun _ => rfl
  have quiet : ∀ n, (ledger.account n).isClosing = false := fun n => by
    match n with
    | 0 => decide
    | 1 => decide
    | n + 2 => simp [Account.isClosing, ledger_unlisted (n := n + 2) (by omega)]
  have accounts : AccountLaw (world .running ledger printing) := fun _ => ⟨by decide, fun n _ => by
    simp only [entries, faces]
    match n with
    | 0 => decide
    | 1 => decide
    | n + 2 =>
      obtain ⟨state, held, holders, flight⟩ := ledger_unlisted (n := n + 2) (by omega)
      have none : ([paid 300 35000].filter fun en => en.namesAccount && en.account == n + 2) = [] := by simp [paid]
      have away : ([sheet (.entry 0)].filter fun p => printing.context.accountOf p == some (n + 2)) = [] := by
        have : printing.context.accountOf (sheet (.entry 0)) = some 1 := by decide
        simp [this]
      refine ⟨?_, ?_, ?_, fun _ => none, fun _ used => ?_⟩
      · rw [none]; exact congrArg BitVec.toNat held
      · rw [none]; exact congrArg BitVec.toNat holders
      · rw [away]; exact congrArg BitVec.toNat flight
      · exact absurd (used.symm.trans (show (ledger.account (n + 2)).isFree = true by simp [Account.isFree, state])) Bool.false_ne_true⟩
  have stations : StationLaw (world .running ledger printing) := fun i => by
    by_cases h : i = 0
    · subst h
      exact ⟨⟨by decide, rfl, by decide, by decide, by decide⟩, by unfold SheetLaw; decide, by unfold CountLaw; decide,
        by unfold FundsLaw; decide, by unfold RequestLaw; decide⟩
    · have other : ∀ i : StationId, i ≠ 0 → (world .running ledger printing).floor.station i = .powerOn := by decide
      simp only [other i h]
      exact ⟨⟨by decide, .inl rfl, by decide, by decide, by decide⟩, by unfold SheetLaw; decide, by unfold CountLaw; decide,
        by unfold FundsLaw; decide, by unfold RequestLaw; decide⟩
  have waits : WaitLaw (world .running ledger printing) :=
    ⟨List.nodup_nil, fun _ => rfl, by decide, fun n _ h => absurd h (List.not_mem_nil), fun _ n _ =>
      ⟨fun h => absurd h List.not_mem_nil, fun h => absurd h.1 (by rw [show (world .running ledger printing).floor.store.account n = ledger.account n from rfl, quiet n]; decide)⟩⟩
  have empty : ledger.directoryCount = 0 := by decide
  refine ⟨⟨stations, accounts, waits, ⟨rfl, Nat.zero_le _, rfl, Nat.zero_lt_succ _⟩, fun _ => ⟨?_, fun k hk => ?_, fun _ k _ hk => ?_⟩⟩,
    world_enable _ _ _, fun _ n _ => even_editCount (by decide) n, rfl, by simp [isRunctl], by simp, _, rfl, rfl⟩
  · exact empty.trans_le (Nat.zero_le _)
  · exact absurd (empty ▸ hk : k < 0) (Nat.not_lt_zero k)
  · exact absurd (empty ▸ hk : k < 0) (Nat.not_lt_zero k)

/-- A CLEARING part, whose stream is empty, at the end of CLEARING and at a tick. -/
theorem test_witness_ClearingLaw :
    let s := world .clearing [] Station.powerOn
    ClearingLaw s ∧ OffsetLaw s ∧ s.mode.run = .clearing ∧ Instr.clearingDone ≠ .powerOn ∧
      ¬ isRunctl true false .clearingDone ∧ (∀ w v, Instr.clearingDone ≠ .storeWrite w v) ∧
      (∃ t, exec .clearingDone s = .next t ∧ t.mode.rptRd = s.mode.rptRd ∧ t.mode.run = .stopped) ∧
      ∃ t, exec .partTimeTick s = .next t ∧ t.mode.run = .clearing :=
  ⟨fun _ => ⟨rfl, rfl⟩, ⟨rfl, Nat.zero_le _, rfl, Nat.zero_lt_succ _⟩, rfl, by simp, by simp [isRunctl], by simp,
    ⟨_, rfl, rfl, rfl⟩, _, rfl, rfl⟩

/-- The other changes of the run state: a stop request, a soft reset, and the end of CLEARING. -/
theorem test_witness_RunStateMovesOnlySo :
    (∃ t, exec .stopRequest (world .running [] up) = .next t ∧ t.mode.run = .stopping) ∧
      (∃ t, exec .softReset (world .running [] up) = .next t ∧ t.mode.run = .stopped) ∧
      (∃ t, exec .clearingDone (world .clearing [] up) = .next t ∧ t.mode.run = .stopped) ∧
      ∃ t, exec .stoppedEntry (world .stopping [] up) = .next t ∧ t.mode.run = .stopped :=
  ⟨⟨_, rfl, rfl⟩, ⟨_, rfl, rfl⟩, ⟨_, rfl, rfl⟩, ⟨_, rfl, rfl⟩⟩

/-- A full queue whose head is being sent, offered a SHOW and an EJECT that nothing waiting makes way for. -/
theorem test_witness_FullQueueGivesUpItsOldestShow :
    let l : LinkUnit := { up.link with
      sending := some ⟨[], 1⟩
      queue := [.eject, .showMsg 1 .remaining 2 0, .showMsg 2 .lowFunds 3 0, .welcome .none] }
    QueueBound l ∧ l.queue.length = 4 ∧ l.discards (.showMsg 3 .balance 0 0) = false ∧
      l.waiting.any (TxFrame.supersedes (.showMsg 3 .balance 0 0)) = false ∧ l.discards .eject = false ∧
      l.waiting.any (TxFrame.supersedes .eject) = false := by unfold QueueBound; decide

/-- A SHOW for a fifth row and an EJECT in DOWN; a WELCOME behind a waiting SHOW; a SHOW for a row of which none waits. -/
theorem test_witness_OfferedFramesAreAdmittedMergedOrDiscarded :
    let l : LinkUnit := { up.link with
      sending := some ⟨[], 1⟩
      queue := [.eject, .showMsg 1 .remaining 2 0, .welcome .none] }
    l.agreed.rows < 5 ∧ TxFrame.eject.isWelcome = false ∧ LinkUnit.powerOn.up = false ∧
      l.waiting = [.showMsg 1 .remaining 2 0] ++ TxFrame.welcome .none :: [] ∧ l.up = true ∧
      (∀ u ∈ l.waiting, u = .showMsg 1 .remaining 2 0 ∨ u = .welcome .none) ∧ 2 ≤ l.agreed.rows ∧ l.queue.length < 4 := by
  decide

/-! ### A full directory -/

/-- `n` directory entries from index `k`, with card numbers `k + 1`, `k + 2` and so on. -/
def dirCells : Nat → Nat → Memory
  | _, 0 => []
  | k, n + 1 =>
    (0x4400 + 16 * k, BitVec.ofNat 8 (k + 1)) :: (0x4401 + 16 * k, BitVec.ofNat 8 ((k + 1) / 256)) :: dirCells (k + 1) n

theorem dirCells_range (n k : Nat) : ∀ c ∈ dirCells k n, 0x4400 + 16 * k ≤ c.1 ∧ c.1 < 0x4400 + 16 * (k + n) := by
  induction n generalizing k with
  | zero => simp [dirCells]
  | succ n ih =>
    intro c hc
    simp only [dirCells, List.mem_cons] at hc
    obtain rfl | rfl | hc := hc
    · dsimp only
      omega
    · dsimp only
      omega
    · have := ih (k + 1) c hc
      omega

/-- What the cells of index `j` hold, at each of the 8 bytes of its card number. -/
theorem dirCells_read (n k j o : Nat) (hk : k ≤ j) (hj : j < k + n) (ho : o < 8) :
    (dirCells k n).read (0x4400 + 16 * j + o) =
      if o = 0 then BitVec.ofNat 8 (j + 1) else if o = 1 then BitVec.ofNat 8 ((j + 1) / 256) else 0 := by
  induction n generalizing k with
  | zero => omega
  | succ n ih =>
    by_cases e : j = k
    · subst e
      have rest : (dirCells (j + 1) n).read (0x4400 + 16 * j + o) = 0 :=
        read_unlisted _ fun c hc => by have := dirCells_range n (j + 1) c hc; omega
      simp only [dirCells, Memory.read, rest]
      split <;> split <;> (try split) <;> (try split) <;> first | rfl | omega
    · have := ih (k + 1) (by omega) (by omega)
      simp only [dirCells, Memory.read]
      rw [if_neg (by omega), if_neg (by omega), this]

theorem read_append {a : Nat} (m rest : Memory) (h : ∀ c ∈ m, c.1 ≠ a) : Memory.read (m ++ rest) a = rest.read a := by
  induction m with
  | nil => rfl
  | cons c m ih =>
    obtain ⟨k, b⟩ := c
    have hk : k ≠ a := h (k, b) (by simp)
    simpa [Memory.read, hk] using ih fun c hc => h c (by simp [hc])

/-- A CARD PUT of number 9,999 in slot 0, and 2,048 entries in use. -/
def fullStore : Memory :=
  order 9 [(0, 8, 9999), (8, 1, 1), (9, 1, 1), (10, 2, 1), (12, 4, 0xFFFFFFFF)] [(0x2B80, 2, 2048)] ++ dirCells 0 2048

theorem number_of_bytes (m : Memory) {j : Nat} (hj : j < 2048) (byte : ∀ o, o < 8 → m.read (0x4400 + 16 * j + o) =
      if o = 0 then BitVec.ofNat 8 (j + 1) else if o = 1 then BitVec.ofNat 8 ((j + 1) / 256) else 0) :
    (m.dirEntry j).number = j + 1 := by
  have b0 : m.read (0x4400 + 16 * j) = BitVec.ofNat 8 (j + 1) := byte 0 (by omega)
  have b1 : m.read (0x4400 + 16 * j + 1) = BitVec.ofNat 8 ((j + 1) / 256) := byte 1 (by omega)
  have high : ∀ o, 2 ≤ o → o < 8 → m.read (0x4400 + (16 * j + o)) = 0 := fun o h2 h8 => by
    rw [← Nat.add_assoc, byte o h8, if_neg (by omega), if_neg (by omega)]
  have top : m.readLE (0x4400 + 16 * j + 2) 6 = 0 := by
    simp only [Memory.readLE, Nat.add_assoc, Nat.reduceAdd, high 2 (by omega) (by omega), high 3 (by omega) (by omega),
      high 4 (by omega) (by omega), high 5 (by omega) (by omega), high 6 (by omega) (by omega), high 7 (by omega) (by omega)]
    rfl
  show m.readLE (0x4400 + 16 * j) 8 = j + 1
  simp only [Memory.readLE, Nat.add_assoc, Nat.reduceAdd] at top b1 ⊢
  simp only [top, b0, b1, BitVec.toNat_ofNat]
  omega

theorem fullStore_number {j : Nat} (hj : j < 2048) : (fullStore.dirEntry j).number = j + 1 := by
  refine number_of_bytes fullStore hj fun o ho => ?_
  rw [← dirCells_read 2048 0 j o (Nat.zero_le _) (by omega) ho]
  refine read_append _ _ fun c hc => ?_
  have low : (order 9 [(0, 8, 9999), (8, 1, 1), (9, 1, 1), (10, 2, 1), (12, 4, 0xFFFFFFFF)] [(0x2B80, 2, 2048)]).all
      (fun c => decide (c.1 < 0x4400)) = true := by decide
  have := of_decide_eq_true (List.all_eq_true.mp low c hc)
  omega

theorem ascending_sound (m : Memory) (n k previous : Nat) (hp : previous ≤ k)
    (h : ∀ j, k ≤ j → j < k + n → (m.dirEntry j).number = j + 1) :
    firstDisorder previous k ((List.range' k n).map m.dirEntry) = none := by
  induction n generalizing k previous with
  | zero => rfl
  | succ n ih =>
    have head := h k (Nat.le_refl _) (by omega)
    simp only [List.range'_succ, List.map_cons, firstDisorder, head]
    rw [if_neg (by omega)]
    exact ih (k + 1) (k + 1) (Nat.le_refl _) fun j hj hj' => h j (by omega) (by omega)

/-- R66: a sound directory of exactly 2,048 entries in which the number of a valid CARD PUT is not found. -/
theorem test_witness_FullDirectory :
    let s := world .running fullStore up
    Lawful s ∧ OrderAt s 9 ∧ cardTestFailed (s.floor.store.paramEntry s.slot) = 0 ∧ s.floor.store.directoryFault = none ∧
      s.floor.store.lookup (s.floor.store.paramEntry s.slot).number = none ∧ s.floor.store.directoryCount = 2048 := by
  have count : fullStore.directoryCount = 2048 := by decide +kernel
  have number : (fullStore.paramEntry (slotAddr 0)).number = 9999 := by decide +kernel
  have range : fullStore.directory = (List.range' 0 2048).map fullStore.dirEntry := by
    rw [Memory.directory, count, List.range_eq_range']
  refine ⟨⟨world_enable _ _ _, ⟨rfl, Nat.zero_le _, rfl, Nat.zero_lt_succ _⟩, fun _ n _ => even_editCount (m := fullStore) ?_ n⟩,
    ⟨by decide, by decide, ?_⟩, ?_, ?_, ?_, count⟩
  · have rest : even (dirCells 0 2048) = true := List.all_eq_true.mpr fun c hc => by
      have := dirCells_range 2048 0 c hc
      simp only [Bool.or_eq_true, decide_eq_true_eq]
      omega
    unfold even at rest ⊢
    rw [fullStore, List.all_append, rest, Bool.and_true]
    decide
  · show fullStore.slotKind (slotAddr 0) = 9
    decide +kernel
  · show cardTestFailed (fullStore.paramEntry (slotAddr 0)) = 0
    decide +kernel
  · show fullStore.directoryFault = none
    unfold Memory.directoryFault
    rw [count, range, ascending_sound fullStore 2048 0 0 (Nat.le_refl _) fun j _ hj => fullStore_number (by omega)]
    rfl
  · show fullStore.lookup (fullStore.paramEntry (slotAddr 0)).number = none
    rw [number, Memory.lookup, range, List.find?_eq_none]
    intro d hd
    obtain ⟨j, hj, rfl⟩ := List.mem_map.mp hd
    have hj' : j < 2048 := by simp [List.mem_range'] at hj; omega
    simp only [fullStore_number hj', beq_iff_eq]
    omega
/-! ### Single steps of the worked sequences -/

/-- The state a command answers. -/
def after (c : Instr) (s : State) : State :=
  match exec c s with
  | .next t => t
  | _ => s

/-- A station with a hold step of 300, a path depth of 4 and a guard of 195,000, whose class inputs are active at high. -/
def shop (x : Station) : Station :=
  { x with
    guardValue := 195000
    copy := { WorkingCopy.powerOn with levels := 0x38, pathDepth := 4, holdStep := 300, creditCap := 2, jamLimit := 2 } }

/-- Chapter 5, step 2: a FEED of SC2 takes the remaining amount to 170,000, and account 1 tops the hold up by 150. -/
theorem test_feed_topsUp :
    let m := cells ([(0x2B0C, 4, 65000), (0xC450, 4, 300), (0xC443, 1, 1)] ++ acc 1 1 1 450)
    let s := after (.feedEvent 0 false true true) (world .running m (sampled true (shop (funded [paid 300 65000] (sess .opened .live)))))
    (s.floor.station 0).context.funding = [paid 450 130000] ∧ (s.floor.station 0).state = .opened ∧
      (s.floor.station 0).line.enable = true ∧ (s.floor.store.account 1).held = 450 := by decide +kernel

/-- R1: at a debounce time of 3 ms the third active sample in a row makes the FEED due, and the second does not. -/
theorem test_tick_debounces :
    let x := fun count => { up with
      copy := { up.copy with debounce := 3 }, line := { up.line with
        feed := false, feedCount := count, samples := [{ feed := false, exit := true, fault := true }] } }
    let sampledAt := fun count => (after .partTimeTick (world .running [] (x count))).floor.station 0
    FeedDue true (sampledAt 2) ∧ ¬ FeedDue true (sampledAt 1) := by unfold FeedDue; decide +kernel

/-- R42: a framing error is counted once while the line stays at 0. -/
theorem test_byteError_once :
    let x := fun awaits rose => { up with link := { up.link with awaitsHigh := awaits, rises := [rose] } }
    let y := fun awaits rose => ((after (.byteError 0 0 true false) (world .running [] (x awaits rose))).floor.station 0).link
    (y false false).rxErrors = 1 ∧ (y false false).awaitsHigh = true ∧ (y true false).rxErrors = 0 ∧ (y true true).rxErrors = 1 := by
  decide +kernel

/-- R41: a gap of 20 ms in progress is not cut short by a profile that sets the gap to 0. -/
theorem test_gap_keepsItsLength :
    let l : LinkUnit := { up.link with queue := [.eject], gapStart := some 90000, gapLength := 20 }
    l.mayStart 90019 = false ∧ l.mayStart 90020 = true := by decide

/-- Chapter 7: a jam of four sheets under a credit cap of 2 credits the two oldest, and 102,000 becomes 59,000. -/
theorem test_jam_credits :
    let one := fun (k : SheetClass) p => Sheet.mk k p (.entry 0) 99000
    let x := shop (pathed [one 0 8000, one 2 35000, one 0 8000, one 2 35000] (funded [paid 300 102000] (sess .opened .live)))
    let y := (after (.faultChange 0 true) (world .running [] (sampled true x))).floor.station 0
    y.context.funding = [paid 300 59000] ∧ y.jam.lost.map LostSheet.fate = [.credited, .credited, .charged, .charged] ∧
      y.context.jams = 1 ∧ y.link.queue = [showOn 1 .jam 4 2] := by decide +kernel

/-- Chapter 6: a grant of 350 for a FIRST request of 300 opens session 518 with a hold of 300, answered CLAMPED. -/
theorem test_authAnswer_clamped :
    let x := { shop (sess .funding .funding) with
      auth := { Auth.powerOn with state := .asked, kind := .first, amount := 300, id := 8 } }
    let m := order 11 [(0, 1, 1), (2, 2, 8), (4, 4, 350)] [(0x2B88, 4, 518)]
    let s := after .authAnswer (world .running m x)
    s.floor.store.readLE 1 1 = 2 ∧ s.floor.store.readLE 24 4 = 300 ∧ s.floor.store.readLE 28 4 = 518 ∧
      (s.floor.station 0).state = .opened ∧ s.floor.store.header 8 4 = 519 := by decide +kernel

/-- Chapter 4: a new number between entries 0 and 1 takes index 1, the count becomes 3, and the edit count ends even. -/
theorem test_cardPut_inserts :
    let m := order 9 [(0, 8, 1000300), (8, 1, 1), (9, 1, 1), (10, 2, 40), (12, 2, 12), (14, 2, 65535)]
      ((0x2B82, 2, 40) :: ent 0 1000200 1 1 12 ++ ent 1 1000350 1 1 40)
    let t := (after .cardPut (world .running m up)).floor.store
    t.readLE 1 1 = 1 ∧ t.readLE 24 2 = 1 ∧ (t.read 26).toNat = 1 ∧ t.directory.map DirEntry.number = [1000200, 1000300, 1000350] ∧
      t.header 2 2 = 42 := by decide +kernel

/-- Chapter 1: at a pace of 340 ms the window is 1,020 ms, reached at 101,140 from a drain start of 100,120. -/
theorem test_drainWindow :
    let x := fun start : Time => { up with
      copy := { WorkingCopy.powerOn with drainMin := 400 }, line := { LineUnit.powerOn with pace := 340, drainStart := start } }
    (x 100120).quiet 101140 = true ∧ (x 100120).quiet 101139 = false := by decide

/-- R2: a station taken in takes the next sample of its lines as its filtered levels; the sample stays to come. -/
theorem test_seed_takesTheNextSample :
    let x := { sess .out .empty with line := { LineUnit.powerOn with samples := [{ feed := false, exit := true, fault := true }] } }
    let m := order 14 [(0, 1, 1)] [(0x2800, 1, 1)]
    let y := ((after .stationIn (world .running m x)).floor.station 0).line
    y.feed = true ∧ y.exit = false ∧ y.samples.length = 1 := by decide +kernel

/-- R51, R41: at an active level that is high, a pin that stands high is found BUSY by the next tick. -/
theorem test_tick_samplesBusy :
    let x := { up with copy := { up.copy with levels := 0x80 }, link := { up.link with busyHigh := true } }
    let y := ((after .partTimeTick (world .running [] x)).floor.station 0).link
    y.busy = true ∧ y.busyStart = some 100001 := by decide +kernel

/-- R16: an active ENABLE stands high at an active level of high, and low at one of low. -/
theorem test_enable_levels :
    let x := fun high : Byte =>
      funded [paid 300 0] { sess .opened .live with copy := { up.copy with levels := high, pathDepth := 4 } }
    let line := fun high => ((world .running [] (x high)).floor.station 0).line
    (line 0x40).enable = true ∧ (line 0x40).enableHigh = true ∧ (line 0).enable = true ∧ (line 0).enableHigh = false := by decide

/-- R41: accepted media that change are agreed anew and told by a WELCOME; media that do not change are not, whatever is agreed. -/
theorem test_stationIn_acceptedMedia :
    let all : Ability := { shop := true, bank := true, keypad := true, rows := 4 }
    let x := fun agreed : Ability => { sess .out .empty with link := { up.link with offered := all, agreed := agreed } }
    let link := fun accepted agreed =>
      ((after .stationIn (world .running (order 14 [(0, 1, 1)] [(0x2821, 1, accepted)]) (x agreed))).floor.station 0).link
    let none := { all with shop := false, bank := false }
    (link 1 none).agreed = { none with shop := true } ∧ (link 1 none).queue = [.welcome { none with shop := true }] ∧
      (link 0 none).queue = [] ∧ (link 0 all).agreed = all ∧ (link 0 all).queue = [] := by decide +kernel

/-- R172: while the part is CLEARING a station record reads 0; at its end the no-service mark is set (R35). -/
theorem test_clearing_records :
    (State.reset.floor.readByte 0x2C07).toNat = 0 ∧ (State.reset.floor.station 11).recordImage = 0 ∧
      ((after .clearingDone State.reset).floor.readByte 0x2C07).toNat = 0x20 := by decide +kernel

/-- The clauses of StationsLeaveAndReturn and PassedStartRuns on the link: the next sample finds FAULT inactive, and active. -/
theorem test_witness_TheLinkTakesUpItsCopy :
    let x := fun high : Bool => { sess .out .empty with line := { LineUnit.powerOn with faultHigh := high } }
    let m := order 14 [(0, 1, 1)] ((0x2800, 1, 1) :: acc 0 1 3 0)
    Meets (world .running m (x true)) (fun s x => x.state = .out ∧ ((after .stationIn s).floor.station 0).state = .idle) ∧
      Meets (world .running m (x false)) (fun s x => x.state = .out ∧ x.line.inPath = [] ∧
        ((after .stationIn s).floor.station 0).state = .jammed) ∧
      Meets (world .stopped m (x true)) (fun s _ => startRefusal s.floor.store s.mode.page = none ∧
        s.floor.store.profileEnabled 0 = true) ∧
      Meets (world .stopped m (x false)) (fun s y => startRefusal s.floor.store s.mode.page = none ∧
        s.floor.store.profileEnabled 0 = true ∧ y.line.inPath = [] ∧ y.line.comingSample.fault = y.copy.activeHigh 2) :=
  ⟨meets (by decide) (by decide +kernel), meets (by decide) (by decide +kernel), meets (by decide) (by decide +kernel),
    meets (by decide) (by decide +kernel)⟩

end Sys2Proof.Tests
end

section
/-! SUPPORT. What a command can do, said once: it is a step of the units, an order, a run request, one of the clock or of power-on,
or it leaves the run state and every station as they are. And law L4. -/

namespace Sys2Proof.Machine

open Sys2Proof

-- One proof after the other: proofs that wait for one another hold a thread each, and its memory.
set_option Elab.async false

/-! ### The kinds of command -/

/-- The work of a command that is an event of the station units (chapters 1 to 9). -/
def unitWork : Instr → Option (Mode → Floor → Floor)
  | .feedEvent i size colour sides => some (feedTaken i size colour sides)
  | .exitEvent i => some (exitTaken i)
  | .faultChange i active => some (faultTaken i active)
  | .takenChange i line => some (inactiveTaken i line)
  | .transitCheck i => some (transitDue i)
  | .quietNotice i => some (quietDue i)
  | .lowTimerExpiry i => some (lowDue i)
  | .linkLossGraceExpiry i => some (graceDue i)
  | .authorizationTimerExpiry i => some (authDue i)
  | .silenceTimerExpiry i => some (silenceDue i)
  | .busyTimerExpiry i => some (busyDue i)
  | .gapLimit i => some (gapDue i)
  | .jamClears i => some (jamDue i)
  | .recoveryTimeout i => some (recoveryDue i)
  | .waitingReportWritten => some fun e f => moveQueue e queueTurns f
  | .frameSent i => some fun e f => f.onStation i fun x => x.onLink (LinkUnit.endFrame x.copy e.partTime)
  | .nextFrameStart i => some fun e f => f.onStation i fun x => x.onLink (LinkUnit.startFrame x.copy e.partTime)
  | .byteError i data parityBit stopBit => some (characterFailed i data parityBit stopBit)
  | .invalidFrame i => some fun _ f => f.onStation i (Station.onLink LinkUnit.receiveError)
  | .hello i level abilities rows => some (receiveFrame i (.hello level abilities rows))
  | .tick i flags => some (receiveFrame i (.tick flags))
  | .cardIn i medium card => some (receiveFrame i (.cardIn medium card))
  | .cardOut i => some (receiveFrame i .cardOut)
  | .keyEnd i => some (receiveFrame i .keyEnd)
  | .keyBalance i => some (receiveFrame i .keyBalance)
  | .byteReceived i data => some (characterReceived i data)
  | .characterSent i => some fun _ f => f.onStation i fun x => x.onLink (LinkUnit.endCharacter x.copy)
  | .busyLevelChange i high => some fun e f => f.onStation i fun x => x.onLink (LinkUnit.sampleBusy x.copy e.partTime high)
  | _ => none

/-- The kinds an order command takes, and what it does (R174). -/
def orderWork : Instr → Option ((Nat → Bool) × (Mode → Nat → Floor → Executed))
  | .accountOpen => some ((· == 1), accountOpenOrder)
  | .accountCredit => some ((· == 2), accountCreditOrder)
  | .accountDebit => some ((· == 3), accountDebitOrder)
  | .accountLimit => some ((· == 4), accountLimitOrder)
  | .accountFreeze => some ((· == 5), accountFreezeOrder)
  | .accountThaw => some ((· == 6), accountThawOrder)
  | .accountClose => some ((· == 7), accountCloseOrder)
  | .periodClose => some ((· == 8), periodCloseOrder)
  | .cardPut => some ((· == 9), cardPutOrder)
  | .cardDrop => some ((· == 10), cardDropOrder)
  | .authAnswer => some ((· == 11), authAnswerOrder)
  | .priceSwitch => some ((· == 12), priceSwitchOrder)
  | .stationOut => some ((· == 13), stationOutOrder)
  | .stationIn => some ((· == 14), stationInOrder)
  | .jamAck => some ((· == 15), jamAckOrder)
  | .sessionEnd => some ((· == 16), sessionEndOrder)
  | .badKind => some (kindUnknown, badKindOrder)
  | _ => none

/-- What a command can make of a state. -/
inductive StepOf (s : State) : Instr → State → Prop where
  | unit {c : Instr} {work : Mode → Floor → Floor} : unitWork c = some work → StepOf s c (s.unitStep work)
  | order {c : Instr} {taken : Nat → Bool} {body : Mode → Nat → Floor → Executed} :
      orderWork c = some (taken, body) → StepOf s c (takeOrder taken body s)
  | kept {c : Instr} {t : State} : t.mode.run = s.mode.run → t.floor.stations = s.floor.stations → StepOf s c t
  | record {word : BitVec 16} {v : Half} {t : State} {i : StationId} {image : Nat} : writesRecord (.storeWrite word v) = true →
      s.mode.runs = false → t.mode = s.mode → t.floor = s.floor.onStation i (·.readBack image) →
      StepOf s (.storeWrite word v) t
  | powerOn {t : State} : execPowerOn s = .next t → StepOf s .powerOn t
  | clearingDone {t : State} : execClearingDone s = .next t → StepOf s .clearingDone t
  | softReset {c : Instr} : StepOf s c (requestSoftReset s)
  | run {c : Instr} : StepOf s c (requestRun s)
  | stop {c : Instr} : StepOf s c (requestStop s)
  | stoppedEntry {t : State} : execStoppedEntry s = .next t → StepOf s .stoppedEntry t
  | clock {t : State} : execPartTimeTick s = .next t → StepOf s .partTimeTick t

theorem exec_unitWork {c : Instr} {work : Mode → Floor → Floor} (h : unitWork c = some work) (s : State) :
    exec c s = .next (s.unitStep work) := by
  cases c <;> cases h <;> rfl

theorem exec_orderWork {c : Instr} {taken : Nat → Bool} {body : Mode → Nat → Floor → Executed}
    (h : orderWork c = some (taken, body)) (s : State) : exec c s = .next (takeOrder taken body s) := by
  cases c <;> cases h <;> rfl

theorem StepOf.self (s : State) (c : Instr) : StepOf s c s := .kept rfl rfl

/-- A port write in CLEARING is discarded (R163). -/
theorem StepOf.hostWrite {s : State} {c : Instr} {change : State → State} (h : s.mode.run ≠ .clearing → StepOf s c (change s)) :
    StepOf s c (s.hostWrite change) := by
  unfold State.hostWrite
  split
  · exact .self s c
  · exact h ‹_›

theorem writeOrdpost_step (s : State) (c : Instr) (v : Half) : StepOf s c (writeOrdpost v s) := by
  unfold writeOrdpost
  split <;> exact .kept rfl rfl

theorem writeRptrd_step (s : State) (c : Instr) (v : Half) : StepOf s c (writeRptrd v s) := by
  unfold writeRptrd
  split <;> exact .kept rfl rfl

theorem writeRunctl_step (s : State) (c : Instr) (v : Half) : StepOf s c (writeRunctl v s) := by
  unfold writeRunctl
  split
  · exact .softReset
  · split
    · exact .run
    · exact .stop

theorem writeRegister_step (s : State) (c : Instr) (reg : BitVec 3) (high : Bool) (v : Half) :
    StepOf s c (writeRegister reg high v s) := by
  unfold writeRegister
  split_ifs
  · exact .self s c
  · exact writeRunctl_step s c v
  · exact writeOrdpost_step s c v
  · exact writeRptrd_step s c v
  · exact .kept rfl rfl
  · exact .kept rfl rfl
  · exact .self s c

theorem hostStore_step (s : State) (word : BitVec 16) (v : Half) :
    StepOf s (.storeWrite word v) (hostStore (2 * word.toNat) v s) := by
  unfold hostStore
  split
  · exact .kept rfl rfl
  · rename_i free
    unfold Floor.writeWord
    cases place : stationPlace (2 * word.toNat) with
    | none => exact .kept rfl rfl
    | some io =>
      obtain ⟨i, o⟩ := io
      have inside : Config.stationBase ≤ 2 * word.toNat ∧ 2 * word.toNat < Config.stationEnd := by
        by_contra outside
        rw [stationPlace, dif_neg outside] at place
        cases place
      have region : regionOf (2 * word.toNat) = .stationRecords := by
        obtain ⟨low, high⟩ := inside
        simp only [Config.stationBase, Config.stationEnd] at low high
        unfold regionOf
        rw [if_neg, if_neg, if_neg, if_neg, if_neg, if_neg, if_pos] <;>
          simp only [Config.streamBase, Config.profileBase, Config.pageABase, Config.pageBBase, Config.headerBase,
            Config.stationBase, Config.directoryBase] <;> omega
      refine .record (by simp [writesRecord, inside]) ?_ rfl rfl
      simpa [partOwns, region] using free

/-- Every command makes of a state one of the things that `StepOf` lists. -/
theorem stepOf_exec {c : Instr} {s t : State} (h : exec c s = .next t) : StepOf s c t := by
  cases unit : unitWork c with
  | some work =>
    rw [exec_unitWork unit] at h
    cases h
    exact .unit unit
  | none =>
    cases order : orderWork c with
    | some work =>
      rw [exec_orderWork order] at h
      cases h
      exact .order order
    | none =>
      cases c with
      | powerOn => exact .powerOn h
      | clearingDone => exact .clearingDone h
      | softReset => cases h; exact .softReset
      | runRequest => cases h; exact .run
      | stopRequest => cases h; exact .stop
      | stoppedEntry => exact .stoppedEntry h
      | ordpostWrite v => cases h; exact .hostWrite fun _ => writeOrdpost_step ..
      | rptrdWrite v => cases h; exact .hostWrite fun _ => writeRptrd_step ..
      | irqflagWrite v => cases h; exact .hostWrite fun _ => .kept rfl rfl
      | registerWrite reg high v => cases h; exact .hostWrite fun _ => writeRegister_step ..
      | lowHalfRead reg => cases h; exact .kept rfl rfl
      | storeWrite word v => cases h; exact .hostWrite fun _ => hostStore_step s word v
      | partTimeTick => exact .clock h
      | _ => simp only [unitWork, orderWork, reduceCtorEq] at unit order

/-! ### Law L4 -/

/-- What law L4 looks at: the run state, and at a station its state, context, guard, working copy and ENABLE output. -/
theorem EnableStands.congr {e e' : Mode} {x y : Station} (h : EnableStands e x) (run : e'.run = e.run) (state : y.state = x.state)
    (context : y.context = x.context) (guardValue : y.guardValue = x.guardValue) (copy : y.copy = x.copy)
    (enable : y.line.enable = x.line.enable) (level : y.line.enableHigh = x.line.enableHigh) : EnableStands e' y := by
  unfold EnableStands Station.mayFeed Station.fundsPass Station.meetsGuard at *
  rw [run, state, context, guardValue, copy, enable, level]
  exact h

/-- Outside RUNNING an ENABLE stands when its output is inactive (R16). -/
theorem enableStands_of_inactive {e : Mode} {x : Station} (run : e.run ≠ .running) (enable : x.line.enable = false)
    (level : x.line.enableHigh = !x.copy.activeHigh 6) : EnableStands e x := by
  have may : x.mayFeed e = false := by simp [Station.mayFeed, run]
  rw [EnableStands, may, enable, level]
  exact ⟨rfl, rfl⟩

theorem become_enableLaw (s : State) (e : Mode) (f : Floor) : EnableLaw (s.become e f) := fun i => settle_enable e s.floor f i

theorem unitStep_enableLaw {s : State} (work : Mode → Floor → Floor) (h : EnableLaw s) : EnableLaw (s.unitStep work) := by
  unfold State.unitStep
  split
  · exact h
  · exact fun i => settle_enable s.mode s.floor _ i

theorem takeOrder_enableLaw {s : State} (taken : Nat → Bool) (body : Mode → Nat → Floor → Executed) (h : EnableLaw s) :
    EnableLaw (takeOrder taken body s) := by
  unfold takeOrder
  split
  · exact become_enableLaw _ _ _
  · exact h

theorem kept_enableLaw {s t : State} (run : t.mode.run = s.mode.run) (stations : t.floor.stations = s.floor.stations)
    (h : EnableLaw s) : EnableLaw t := by
  intro i
  have same : t.floor.station i = s.floor.station i := by unfold Floor.station; rw [stations]
  rw [same]
  exact (h i).congr run rfl rfl rfl rfl rfl rfl

/-- A host write into a station record leaves ENABLE and the working copy alone, and the part is not RUNNING (R164). -/
theorem record_enableLaw {s t : State} {i : StationId} {image : Nat} (idle : s.mode.runs = false) (mode : t.mode = s.mode)
    (floor : t.floor = s.floor.onStation i (·.readBack image)) (h : EnableLaw s) : EnableLaw t := by
  intro j
  have run : s.mode.run ≠ .running := fun running => by simp [Mode.runs, running] at idle
  rw [mode, floor]
  by_cases same : j = i
  · subst same
    have inactive : (s.floor.station j).line.enable = false := by rw [(h j).1]; simp [Station.mayFeed, run]
    have level := (h j).2
    rw [inactive] at level
    rw [station_onStation_self]
    exact enableStands_of_inactive run inactive level
  · rw [station_onStation_other _ i j _ same]
    exact h j

/-- A map over the stations is a change of each. -/
theorem station_map (f : Floor) (change : Station → Station) (i : StationId) :
    ({ f with stations := f.stations.map change } : Floor).station i = change (f.station i) := by
  simp [Floor.station]

/-- Settles O4, by the kinds of command: a step of the units, an order, a stop, a start and a reset end with ENABLE driven at every
station, and the others leave what law L4 looks at alone. -/
theorem everyStepKeepsTheEnableLaw : Obligations.EveryStepKeepsTheEnableLaw := by
  unfold Obligations.EveryStepKeepsTheEnableLaw
  intro c s t law h
  cases stepOf_exec h with
  | unit => exact unitStep_enableLaw _ law
  | order => exact takeOrder_enableLaw _ _ law
  | kept run stations => exact kept_enableLaw run stations law
  | record _ idle mode floor => exact record_enableLaw idle mode floor law
  | powerOn done =>
    cases done
    intro i
    rw [show ({ State.reset with
      floor := { State.reset.floor with stations := s.floor.stations.map Station.powerOnWithLines }
      pending := s.pending } : State).floor.station i = (s.floor.station i).powerOnWithLines from by simp [Floor.station]]
    exact enableStands_of_inactive (fun h => nomatch h) rfl (show true = !(0 : Byte).getLsbD 6 by decide)
  | clearingDone done =>
    unfold execClearingDone at done
    split at done <;> cases done
    · exact become_enableLaw _ _ _
    · exact law
  | softReset =>
    unfold requestSoftReset
    split
    · exact law
    · exact become_enableLaw s _ _
  | run =>
    unfold requestRun
    split
    · split
      · exact kept_enableLaw (s := s) rfl rfl law
      · exact become_enableLaw s _ _
    · exact law
  | stop =>
    unfold requestStop
    split
    · exact become_enableLaw _ _ _
    · exact law
  | stoppedEntry done =>
    unfold execStoppedEntry at done
    split at done <;> cases done
    · exact become_enableLaw _ _ _
    · exact law
  | clock done =>
    unfold execPartTimeTick at done
    dsimp only at done
    split at done <;> cases done
    · intro i
      rw [show ∀ e g, ({ s with mode := e, floor := g } : State).floor.station i = g.station i from fun _ _ => rfl, station_map]
      exact (law i).congr rfl rfl rfl rfl rfl rfl rfl
    · exact become_enableLaw _ _ _

end Sys2Proof.Machine
end

section
/-! SUPPORT. Which stations the work of the units touches, and the bounds of law L5's sheet lists and law L7's funding lists. -/

namespace Sys2Proof.Machine

open Sys2Proof

-- One proof after the other: proofs that wait for one another hold a thread each, and its memory.
set_option Elab.async false

/-! ### The relation -/

/-- The greatest lengths of a station's lists: its path, its path depth, its lost list (law L5) and its funding list (law L7). -/
def Bounded (x : Station) : Prop := PathBound x ∧ x.context.funding.length ≤ 3

/-- The station whose session settlement a waiting report is (R178). -/
def Producer.session? : Producer → Option StationId
  | .session i => some i
  | _ => none

/-- The stations whose session settlement waits, in the order of the wait queue (R178). -/
abbrev Floor.waitingSessions (f : Floor) : List StationId := f.waitQueue.filterMap Producer.session?

/-- What work at station `i` does to the stations: no other one is touched, and the list bounds of station `i` are kept. No session
settlement joins or leaves the wait queue. -/
structure StationStep (i : StationId) (f g : Floor) : Prop where
  others : KeepsOthers i f g
  bounds : Bounded (f.station i) → Bounded (g.station i)
  sessions : g.waitingSessions = f.waitingSessions

/-- What work of the units does to the stations: the list bounds of each are kept. -/
structure StationsStep (f g : Floor) : Prop where
  each : ∀ j, Bounded (f.station j) → Bounded (g.station j)

theorem StationStep.refl (i : StationId) (f : Floor) : StationStep i f f := ⟨fun _ _ => rfl, id, rfl⟩

theorem StationStep.trans {i : StationId} {f g h : Floor} (a : StationStep i f g) (b : StationStep i g h) : StationStep i f h :=
  ⟨fun j hj => (b.others j hj).trans (a.others j hj), fun w => b.bounds (a.bounds w), b.sessions.trans a.sessions⟩

/-- A change that leaves every station alone. -/
theorem StationStep.of_same {i : StationId} {f g : Floor} (h : g.stations = f.stations)
    (sessions : g.waitingSessions = f.waitingSessions := by rfl) : StationStep i f g := by
  have same : ∀ j, g.station j = f.station j := fun j => by unfold Floor.station; rw [h]
  exact ⟨fun j _ => same j, fun w => by rw [same]; exact w, sessions⟩

theorem StationStep.all {i : StationId} {f g : Floor} (h : StationStep i f g) : StationsStep f g := by
  refine ⟨fun j w => ?_⟩
  by_cases hj : j = i
  · subst hj
    exact h.bounds w
  · rw [h.others j hj]
    exact w

theorem StationsStep.refl (f : Floor) : StationsStep f f := ⟨fun _ w => w⟩

theorem StationsStep.trans {f g h : Floor} (a : StationsStep f g) (b : StationsStep g h) : StationsStep f h :=
  ⟨fun j w => b.each j (a.each j w)⟩

theorem StationsStep.of_same {f g : Floor} (h : g.stations = f.stations) : StationsStep f g :=
  ⟨fun j w => by
    have same : g.station j = f.station j := by unfold Floor.station; rw [h]
    rw [same]
    exact w⟩

theorem foldl_stationsStep {α : Type} (act : Floor → α → Floor) (h : ∀ f a, StationsStep f (act f a)) (l : List α) (f : Floor) :
    StationsStep f (l.foldl act f) := by
  induction l generalizing f with
  | nil => exact .refl f
  | cons a l ih => exact (h f a).trans (ih _)

theorem forStations_stationsStep (act : StationId → Floor → Floor) (h : ∀ i f, StationStep i f (act i f)) (f : Floor) :
    StationsStep f (forStations act f) := foldl_stationsStep _ (fun f i => (h i f).all) _ f

/-- A change of station `i` that keeps its list bounds. -/
theorem onStation_at (f : Floor) (i : StationId) {change : Station → Station} (h : ∀ x, Bounded x → Bounded (change x)) :
    StationStep i f (f.onStation i change) :=
  ⟨fun _ hj => station_onStation_other _ _ _ _ hj, fun w => by rw [station_onStation_self]; exact h _ w, rfl⟩

/-- A change of station `i` that touches none of its lists. -/
theorem onStation_lists {f : Floor} {i : StationId} {change : Station → Station}
    (path : ∀ x, (change x).line.inPath = x.line.inPath := by intro x; rfl)
    (copy : ∀ x, (change x).copy.pathDepth = x.copy.pathDepth := by intro x; rfl)
    (lost : ∀ x, (change x).jam.lost = x.jam.lost := by intro x; rfl)
    (funding : ∀ x, (change x).context.funding = x.context.funding := by intro x; rfl) :
    StationStep i f (f.onStation i change) :=
  onStation_at f i fun x h => by unfold Bounded PathBound at *; rw [path, copy, lost, funding]; exact h

theorem onStore_at (f : Floor) (i : StationId) (change : Memory → Memory) : StationStep i f (f.onStore change) := .of_same rfl

theorem enqueue_sessions (f : Floor) {p : Producer} (other : p.session? = none) :
    (f.enqueue p).waitingSessions = f.waitingSessions := by
  rw [Floor.waitingSessions, enqueue_waitQueue, List.filterMap_append]
  simp [other]

theorem enqueue_at (f : Floor) (i : StationId) (p : Producer) (other : p.session? = none := by rfl) :
    StationStep i f (f.enqueue p) := .of_same rfl (enqueue_sessions f other)

theorem writeReport_at (e : Mode) (kind : ReportKind) (station : Nat) (body : List (Nat × Nat)) (f : Floor) (i : StationId) :
    StationStep i f (writeReport e kind station body f) := .of_same rfl

theorem stationNotice_sessions (e : Mode) (i : StationId) (event : NoticeEvent) (cause : OutCause) (f : Floor) :
    (stationNotice e i event cause f).waitingSessions = f.waitingSessions := by
  unfold stationNotice
  split
  · split <;> rfl
  · rfl

theorem stationNotice_at (e : Mode) (i k : StationId) (event : NoticeEvent) (cause : OutCause) (f : Floor) :
    StationStep k f (stationNotice e i event cause f) :=
  ⟨fun _ _ => station_stationNotice .., fun w => by rw [station_stationNotice]; exact w, stationNotice_sessions ..⟩

/-! ### Lists -/

/-- A change of funding entries, one by one. -/
theorem Bounded.modify {x : Station} (h : Bounded x) (k : Nat) (change : FundingEntry → FundingEntry) :
    Bounded { x with context := { x.context with funding := x.context.funding.modify k change } } :=
  ⟨h.1, by rw [List.length_modify]; exact h.2⟩

theorem Bounded.finaliseLost {x : Station} (h : Bounded x) : Bounded x.finaliseLost :=
  ⟨⟨h.1.1, h.1.2.1, Nat.zero_le _⟩, h.2⟩

theorem Bounded.clearContext {x : Station} (h : Bounded x) : Bounded x.clearContext :=
  ⟨h.1, Nat.zero_le _⟩

theorem Bounded.dropPath {x : Station} (h : Bounded x) : Bounded { x with line := x.line.dropPath } :=
  ⟨⟨Nat.zero_le _, h.1.2⟩, h.2⟩

/-! ### Frames and authorization -/

theorem offer_at (i : StationId) (t : TxFrame) (f : Floor) : StationStep i f (offer i t f) := onStation_lists

theorem showAndEject_at (i : StationId) (msg : Message) (a b : Int) (f : Floor) : StationStep i f (showAndEject i msg a b f) :=
  (offer_at ..).trans (offer_at ..)

theorem linkDown_at (e : Mode) (i : StationId) (f : Floor) : StationStep i f (linkDown e i f) :=
  (onStation_lists).trans (stationNotice_at ..)

theorem applySerial_at (e : Mode) (i : StationId) (old : WorkingCopy) (f : Floor) : StationStep i f (applySerial e i old f) := by
  unfold applySerial
  dsimp only
  split
  · split
    · exact (onStation_lists).trans (linkDown_at ..)
    · exact onStation_lists
  · split
    · exact (onStation_lists).trans (offer_at ..)
    · exact .refl i f

theorem writeAuth_at (e : Mode) (i : StationId) (f : Floor) : StationStep i f (writeAuth e i f) := by
  unfold writeAuth
  split
  · exact .refl i f
  · exact (writeReport_at ..).trans onStation_lists

theorem produceAuth_at (e : Mode) (i : StationId) (kind : AuthKind) (amount : Nat) (f : Floor) :
    StationStep i f (produceAuth e i kind amount f) := by
  have next : ∀ g : Floor, StationStep i g (if mayWrite e g 32 then writeAuth e i g else g.enqueue (.auth i)) := by
    intro g
    split
    · exact writeAuth_at ..
    · exact enqueue_at ..
  exact (onStation_lists).trans (next _)

theorem wantAuth_at (e : Mode) (i : StationId) (kind : AuthKind) (amount : Nat) (f : Floor) :
    StationStep i f (wantAuth e i kind amount f) := by
  unfold wantAuth
  split
  · exact onStation_lists
  · exact produceAuth_at ..

theorem cancelAuth_at (i : StationId) (f : Floor) : StationStep i f (cancelAuth i f) := onStation_lists

/-! ### Funding -/

theorem topUp_at (i : StationId) (f : Floor) : StationStep i f (topUp i f) := by
  unfold topUp
  dsimp only
  split
  · exact (onStore_at ..).trans (onStation_at _ i fun _ h => h.modify _ _)
  · exact .refl i f

/-- A spill joins a list of fewer than 3 entries (R82 step 2). -/
theorem spillTo_at (i : StationId) (slot account : Nat) (f : Floor) (short : (f.station i).context.funding.length < 3) :
    StationStep i f (spillTo i slot account f) := by
  unfold spillTo
  refine ⟨fun j hj => by rw [station_onStation_other _ _ _ _ hj, station_onStore], fun h => ?_, rfl⟩
  rw [station_onStation_self, station_onStore]
  exact ⟨h.1, by simp only [List.length_append, List.length_singleton]; omega⟩

theorem spillTarget_short {m : Memory} {x : Station} {last : FundingEntry} {c : Nat × Nat} (h : spillTarget m x last = some c) :
    x.context.funding.length < 3 := by
  unfold spillTarget at h
  split at h
  · assumption
  · cases h

theorem fundingSteps_at (i : StationId) (spills : Nat) (f : Floor) : StationStep i f (fundingSteps i spills f) := by
  induction spills generalizing f with
  | zero => exact topUp_at i f
  | succ n ih =>
    simp only [fundingSteps]
    split
    · exact topUp_at i f
    · split
      · exact topUp_at i f
      · split
        · rename_i target
          exact (topUp_at i f).trans ((spillTo_at i _ _ _ (spillTarget_short target)).trans (ih _))
        · exact topUp_at i f

theorem askIncrement_at (e : Mode) (i : StationId) (f : Floor) : StationStep i f (askIncrement e i f) := by
  unfold askIncrement
  dsimp only
  split
  · split
    · exact wantAuth_at ..
    · exact .refl i f
  · exact .refl i f

theorem showRemaining_at (i : StationId) (f : Floor) : StationStep i f (showRemaining i f) := offer_at ..

theorem enterLow_at (e : Mode) (i : StationId) (f : Floor) : StationStep i f (enterLow e i f) := by
  have low : ∀ x : Station, Bounded x → Bounded { (if x.state = .recovery then x.finaliseLost else x) with state := .low } := by
    intro x h
    split
    · exact h.finaliseLost
    · exact h
  unfold enterLow
  exact (onStation_at f i low).trans ((offer_at ..).trans ((stationNotice_at ..).trans
    ((onStation_lists).trans (askIncrement_at ..))))

theorem checkPassed_at (i : StationId) (f : Floor) : StationStep i f (checkPassed i f) := by
  unfold checkPassed
  split
  · exact (onStation_lists).trans (showRemaining_at ..)
  · exact .refl i f

theorem checkFailed_at (e : Mode) (i : StationId) (f : Floor) : StationStep i f (checkFailed e i f) := by
  unfold checkFailed
  split
  · exact askIncrement_at ..
  · exact enterLow_at ..

theorem fundingCheckOpen_at (e : Mode) (i : StationId) (f : Floor) : StationStep i f (fundingCheckOpen e i f) := by
  have outcome : ∀ g, StationStep i g (if (g.station i).fundsPass then checkPassed i g else checkFailed e i g) := by
    intro g
    split
    · exact checkPassed_at ..
    · exact checkFailed_at ..
  unfold fundingCheckOpen
  dsimp only
  split
  · split
    · exact (fundingSteps_at ..).trans (outcome _)
    · exact outcome _
  · exact .refl i f

theorem closeAccounts_at (accounts : List Nat) (f : Floor) (i : StationId) : StationStep i f (closeAccounts accounts f) :=
  .of_same rfl

theorem fundingCheck_at (e : Mode) (i : StationId) (f : Floor) : StationStep i f (fundingCheck e i f) :=
  (fundingCheckOpen_at e i f).trans (closeAccounts_at ..)

/-- A fold of account closings changes no station. -/
theorem foldl_closeAccounts_stations (l : List StationId) (f : Floor) :
    (l.foldl (fun g i => closeAccounts (g.station i).requestAccounts g) f).stations = f.stations := by
  induction l generalizing f with
  | nil => rfl
  | cons i l ih => exact ih _

theorem reevaluate_all (e : Mode) (accounts : List Nat) (f : Floor) : StationsStep f (reevaluate e accounts f) := by
  unfold reevaluate
  dsimp only
  split
  · exact (foldl_stationsStep _ (fun g i => (fundingCheckOpen_at e i g).all) _ f).trans
      (.of_same (foldl_closeAccounts_stations ..))
  · exact .refl f

/-! ### Stray tallies and account closes -/

theorem writeStray_at (e : Mode) (i : StationId) (f : Floor) : StationStep i f (writeStray e i f) :=
  ⟨fun _ hj => writeStray_station_other _ _ _ hj, fun h => by rw [writeStray_station_self]; exact h,
    congrArg (List.filterMap Producer.session?) (writeStray_waitQueue e i f)⟩

theorem closeStray_at (e : Mode) (i : StationId) (cause : EndCause) (f : Floor) : StationStep i f (closeStray e i cause f) := by
  unfold closeStray
  dsimp only
  split
  · exact .refl i f
  · split
    · exact onStation_lists
    · split
      · exact (onStation_lists).trans (writeStray_at ..)
      · exact (onStation_lists).trans (enqueue_at ..)

theorem writeClose_stations (e : Mode) (n : Nat) (byRelease : Bool) (f : Floor) :
    (writeClose e n byRelease f).stations = f.stations := by
  simp only [writeClose, onStore_stations, writeReport_stations]

theorem produceClose_stations (e : Mode) (n : Nat) (f : Floor) : (produceClose e n f).stations = f.stations := by
  unfold produceClose
  split
  · exact writeClose_stations ..
  · rfl

/-! ### Sessions -/

theorem openSession_at (e : Mode) (i : StationId) (o : Opening) (f : Floor) : StationStep i f (openSession e i o f) := by
  unfold openSession
  refine (closeStray_at ..).trans ((onStore_at ..).trans ((onStation_at _ i ?_).trans ((offer_at ..).trans
    ((onStation_lists).trans (fundingCheck_at ..)))))
  exact fun _ h => ⟨h.1, by simp [Opening.context]⟩

theorem openService_at (e : Mode) (i : StationId) (card : Card) (d : DirEntry) (f : Floor) :
    StationStep i f (openService e i card d f) := (onStore_at ..).trans (openSession_at ..)

theorem acceptCustomer_at (e : Mode) (i : StationId) (card : Card) (d : DirEntry) (f : Floor) :
    StationStep i f (acceptCustomer e i card d f) := by
  unfold acceptCustomer
  dsimp only
  split
  · exact (onStore_at ..).trans (openSession_at ..)
  · exact showAndEject_at ..

theorem beginFunding_at (e : Mode) (i : StationId) (card : Card) (f : Floor) : StationStep i f (beginFunding e i card f) := by
  refine (onStation_at f i ?_).trans ((wantAuth_at ..).trans (offer_at ..))
  exact fun _ h => ⟨h.1, Nat.zero_le _⟩

theorem judgeCard_at (e : Mode) (i : StationId) (card : Card) (f : Floor) : StationStep i f (judgeCard e i card f) := by
  unfold judgeCard
  dsimp only
  split
  · exact showAndEject_at ..
  · split
    · split
      · exact showAndEject_at ..
      · exact beginFunding_at ..
    · split
      · exact showAndEject_at ..
      · split
        · exact showAndEject_at ..
        · split
          · exact openService_at ..
          · split
            · exact showAndEject_at ..
            · exact acceptCustomer_at ..

theorem reachIdle_at (e : Mode) (i : StationId) (f : Floor) : StationStep i f (reachIdle e i f) := by
  have next : ∀ g, StationStep i g (match (g.station i).nextCard with
      | some card => judgeCard e i card (g.onStation i fun x => { x with nextCard := none })
      | none => g) := by
    intro g
    split
    · exact (onStation_lists).trans (judgeCard_at ..)
    · exact .refl i g
  have stop : ∀ g, StationStep i g (if e.run = .stopping then closeStray e i .stop g else g) := by
    intro g
    split
    · exact closeStray_at ..
    · exact .refl i g
  exact (onStation_lists).trans ((stop _).trans (next _))

theorem answerNextCard_at (i : StationId) (f : Floor) : StationStep i f (answerNextCard i f) := by
  unfold answerNextCard
  split
  · exact (onStation_lists).trans (showAndEject_at ..)
  · exact .refl i f

theorem enterOut_at (e : Mode) (i : StationId) (cause : OutCause) (f : Floor) : StationStep i f (enterOut e i cause f) := by
  have out : ∀ x : Station, Bounded x →
      Bounded { x with state := .out, outCause := cause, outPending := .none, line := x.line.dropPath } := fun _ h => h.dropPath
  unfold enterOut
  dsimp only
  split
  · exact (onStation_at f i out).trans ((closeStray_at ..).trans ((answerNextCard_at ..).trans ((offer_at ..).trans
      (stationNotice_at ..))))
  · exact (onStation_at f i out).trans ((answerNextCard_at ..).trans ((offer_at ..).trans (stationNotice_at ..)))

theorem giveUpFunding_at (e : Mode) (i : StationId) (f : Floor) : StationStep i f (giveUpFunding e i f) :=
  (cancelAuth_at ..).trans ((onStation_at _ i fun _ h => h.clearContext).trans (reachIdle_at ..))

theorem Bounded.ended {x : Station} (h : Bounded x) (now : Time) (cause : EndCause) : Bounded (x.ended now cause) := by
  refine ⟨⟨h.1.1, h.1.2.1, ?_⟩, h.2⟩
  simp only [Station.ended]
  split
  · exact Nat.zero_le _
  · exact h.1.2.2

theorem endSession_at (e : Mode) (i : StationId) (cause : EndCause) (f : Floor) : StationStep i f (endSession e i cause f) := by
  rw [endSession_eq]
  exact onStation_at f i fun _ h => h.ended _ _

theorem endIfLive_at (e : Mode) (i : StationId) (cause : EndCause) (f : Floor) : StationStep i f (endIfLive e i cause f) := by
  unfold endIfLive
  split
  · exact endSession_at ..
  · exact .refl i f

theorem cardInGrace_at (e : Mode) (i : StationId) (card : Card) (f : Floor) : StationStep i f (cardInGrace e i card f) := by
  unfold cardInGrace
  dsimp only
  split
  · exact onStation_lists
  · split
    · exact (endSession_at ..).trans onStation_lists
    · exact (giveUpFunding_at ..).trans (judgeCard_at ..)

theorem sessionCardIn_at (e : Mode) (i : StationId) (card : Card) (f : Floor) : StationStep i f (sessionCardIn e i card f) := by
  unfold sessionCardIn
  dsimp only
  split
  · exact showAndEject_at ..
  · split
    · exact cardInGrace_at ..
    · split
      · exact judgeCard_at ..
      · exact onStation_lists
      · exact onStation_lists
      · split
        · exact .refl i f
        · exact onStation_lists
      all_goals exact .refl i f

theorem sessionCardOut_at (e : Mode) (i : StationId) (f : Floor) : StationStep i f (sessionCardOut e i f) := by
  unfold sessionCardOut
  dsimp only
  split
  · exact (onStation_lists).trans (giveUpFunding_at ..)
  · split
    · exact (onStation_lists).trans (endIfLive_at ..)
    · exact onStation_lists

theorem sessionKeyEnd_at (e : Mode) (i : StationId) (f : Floor) : StationStep i f (sessionKeyEnd e i f) := by
  unfold sessionKeyEnd
  dsimp only
  split
  · exact .refl i f
  · split
    · exact (offer_at ..).trans (giveUpFunding_at ..)
    · split
      · exact endIfLive_at ..
      · exact .refl i f

theorem sessionKeyBalance_at (e : Mode) (i : StationId) (f : Floor) : StationStep i f (sessionKeyBalance e i f) := by
  unfold sessionKeyBalance
  dsimp only
  split
  · exact .refl i f
  · split
    · exact .refl i f
    · exact offer_at ..

/-! ### Jams -/

theorem writeJam_at (e : Mode) (i : StationId) (f : Floor) : StationStep i f (writeJam e i f) := by
  unfold writeJam
  split
  · exact .refl i f
  · exact (writeReport_at ..).trans onStation_lists

theorem produceJam_at (e : Mode) (i : StationId) (r : JamReport) (f : Floor) : StationStep i f (produceJam e i r f) := by
  unfold produceJam
  dsimp only
  split
  · exact (onStation_lists).trans (writeJam_at ..)
  · exact (onStation_lists).trans (enqueue_at ..)

theorem onSheetAccount_at (i : StationId) (s : Sheet) (change : Account → Account) (f : Floor) :
    StationStep i f (onSheetAccount i s change f) := by
  unfold onSheetAccount
  split
  · exact onStore_at ..
  · exact .refl i f

/-- A lost sheet's credit changes no list's length (R117). -/
theorem lose_funding_length (c : Context) (s : Sheet) (fate : Fate) : (c.lose s fate).funding.length = c.funding.length := by
  unfold Context.lose
  cases fate <;> cases s.target <;> simp [Context.onEntry]

theorem loseSheet_at (i : StationId) (s : Sheet) (f : Floor) : StationStep i f (loseSheet i s f) := by
  unfold loseSheet
  refine (onSheetAccount_at ..).trans (onStation_at _ i fun x h => ⟨⟨?_, h.1.2.1, h.1.2.2⟩, ?_⟩)
  · dsimp only
    split <;> exact h.1.1
  · rw [lose_funding_length]
    exact h.2

/-- Steps 1 and 2 of a jam empty the path and the lost list. -/
theorem Bounded.jamming {x : Station} (h : Bounded x) : Bounded x.jamming := by
  by_cases funding : x.state = .funding
  · rw [jamming_funding funding]
    exact ⟨⟨Nat.zero_le _, h.1.2.1, Nat.zero_le _⟩, Nat.zero_le _⟩
  · rw [jamming_other funding]
    exact ⟨⟨Nat.zero_le _, h.1.2.1, Nat.zero_le _⟩, h.2⟩

theorem jamming_empty (x : Station) : x.jamming.line.inPath = [] ∧ x.jamming.jam.lost = [] := by
  by_cases funding : x.state = .funding
  · rw [jamming_funding funding]
    exact ⟨rfl, rfl⟩
  · rw [jamming_other funding]
    exact ⟨rfl, rfl⟩

/-- The sheets of a full path and the one that overfilled it fill the lost list at most (R114). -/
theorem loseToList_at (i : StationId) {sheets : List Sheet} (f : Floor) (few : sheets.length ≤ 9) :
    StationStep i f (loseToList i sheets (f.onStation i Station.jamming)) := by
  obtain ⟨lost, funding, floor, same, -, -, length, -⟩ := loseToList_leaves i sheets (f.onStation i Station.jamming)
  rw [station_onStation_self] at floor length
  obtain ⟨self, others, queue, -⟩ := stored_facts floor
  refine ⟨fun j hj => (others j hj).trans (station_onStation_other _ _ _ _ hj), fun h => ?_,
    congrArg (List.filterMap Producer.session?) queue⟩
  have bounds := h.jamming
  have empty := jamming_empty (f.station i)
  have count : lost.length = sheets.length := by rw [← same, List.length_map]
  rw [self]
  refine ⟨⟨bounds.1.1, bounds.1.2.1, ?_⟩, ?_⟩
  · simp only [empty.2, List.nil_append]
    omega
  · rw [length]
    exact bounds.2

theorem Bounded.jamMarked {x : Station} (h : Bounded x) (now : Time) (cause : JamCause) : Bounded (x.jamMarked now cause) := by
  refine ⟨h.1, ?_⟩
  dsimp only
  split <;> exact h.2

theorem declareJam_at (e : Mode) (i : StationId) (cause : JamCause) (extra : List Sheet) (f : Floor) (one : extra.length ≤ 1) :
    StationStep i f (declareJam e i cause extra f) := by
  have parts := declareJam_eq e i cause extra f
  dsimp only at parts
  rw [parts]
  by_cases h : Bounded (f.station i)
  · have few : ((f.station i).line.inPath ++ extra).length ≤ 9 := by
      rw [List.length_append]
      have := h.1.1
      omega
    have lost := loseToList_at i f few
    refine lost.trans (StationStep.trans ?_ ((produceJam_at ..).trans (onStation_at _ i fun x hx => ?_)))
    · exact ⟨fun j hj => station_onStation_other _ _ _ _ hj, fun w => by rw [station_onStation_self]; exact w.jamMarked _ _, rfl⟩
    · rw [recordJam_eq]
      exact hx
  · obtain ⟨lost, funding, floor, -⟩ :=
      loseToList_leaves i ((f.station i).line.inPath ++ extra) (f.onStation i Station.jamming)
    obtain ⟨-, others, queue, -⟩ := stored_facts floor
    refine ⟨fun j hj => ?_, fun w => absurd w h, ?_⟩
    · rw [station_onStation_other _ _ _ _ hj, (produceJam_at ..).others j hj, station_onStation_other _ _ _ _ hj, others j hj,
        station_onStation_other _ _ _ _ hj]
    · exact (produceJam_at e i _ _).sessions.trans (congrArg (List.filterMap Producer.session?) queue)

theorem jamCause_at (e : Mode) (i : StationId) (cause : JamCause) (extra : List Sheet) (f : Floor) (one : extra.length ≤ 1) :
    StationStep i f (jamCause e i cause extra f) := by
  unfold jamCause
  dsimp only
  split
  · exact declareJam_at e i cause extra f one
  · exact .refl i f

/-! ### Settlement and the wait queue -/

theorem applyBlock_stations (f : Floor) (en : FundingEntry) : (applyBlock f en).stations = f.stations := by
  unfold applyBlock
  split <;> rfl

theorem closeReleased_stations (e : Mode) (f : Floor) (en : FundingEntry) : (closeReleased e f en).stations = f.stations := by
  unfold closeReleased
  dsimp only
  split
  · exact produceClose_stations ..
  · rfl

theorem foldl_stations {α : Type} (act : Floor → α → Floor) (h : ∀ f a, (act f a).stations = f.stations) (l : List α) (f : Floor) :
    (l.foldl act f).stations = f.stations := by
  induction l generalizing f with
  | nil => rfl
  | cons a l ih => exact (ih _).trans (h f a)

theorem moveOn_at (e : Mode) (i : StationId) (f : Floor) : StationStep i f (moveOn e i f) := by
  unfold moveOn
  dsimp only
  split
  · exact .refl i f
  · split
    · exact enterOut_at ..
    · exact reachIdle_at ..

theorem writeSession_all (e : Mode) (i : StationId) (f : Floor) : StationsStep f (writeSession e i f) := by
  unfold writeSession
  exact (StationsStep.of_same (writeReport_stations ..)).trans ((StationsStep.of_same (foldl_stations _ applyBlock_stations _ _)).trans
    ((StationsStep.of_same (foldl_stations _ (closeReleased_stations e) _ _)).trans
      ((onStation_at _ i fun _ h => h.clearContext).all.trans ((reevaluate_all ..).trans (moveOn_at ..).all))))

theorem enterSettling_all (e : Mode) (i : StationId) (f : Floor) : StationsStep f (enterSettling e i f) := by
  unfold enterSettling
  dsimp only
  split
  · exact (onStation_lists).all.trans ((offer_at ..).all.trans (writeSession_all ..))
  · exact (onStation_lists).all.trans ((offer_at ..).all.trans (.of_same rfl))

theorem writeWaitingAuth_at (e : Mode) (i : StationId) (f : Floor) : StationStep i f (writeWaitingAuth e i f) := by
  unfold writeWaitingAuth
  dsimp only
  split
  · exact (writeAuth_at ..).trans (produceAuth_at ..)
  · exact writeAuth_at ..

theorem writeWaiting_all (e : Mode) (f : Floor) (p : Producer) : StationsStep f (writeWaiting e f p) := by
  cases p with
  | session i => exact writeSession_all e i f
  | stray i => exact (writeStray_at e i f).all
  | auth i => exact (writeWaitingAuth_at e i f).all
  | jam i => exact (writeJam_at e i f).all
  | close n => exact .of_same (writeClose_stations ..)

theorem moveQueue_all (e : Mode) (n : Nat) (f : Floor) : StationsStep f (moveQueue e n f) := by
  induction n generalizing f with
  | zero => exact .refl f
  | succ n ih =>
    simp only [moveQueue]
    split
    · exact .refl f
    · rename_i rest _
      split
      · exact (StationsStep.of_same (f := f) (g := { f with waitQueue := rest }) rfl).trans ((writeWaiting_all ..).trans (ih _))
      · exact .refl f

end Sys2Proof.Machine
end

section
/-! SUPPORT. The list bounds of laws L5 and L7 under every command. -/

namespace Sys2Proof.Machine

open Sys2Proof

-- One proof after the other: proofs that wait for one another hold a thread each, and its memory.
set_option Elab.async false

/-- A change of station `i` as it stands that keeps its list bounds. -/
theorem onStation_here (f : Floor) (i : StationId) {change : Station → Station}
    (h : Bounded (f.station i) → Bounded (change (f.station i))) : StationStep i f (f.onStation i change) :=
  ⟨fun _ hj => station_onStation_other _ _ _ _ hj, fun w => by rw [station_onStation_self]; exact h w, rfl⟩

/-! ### Line events -/

theorem Bounded.charge {x : Station} (h : Bounded x) (price : Nat) (lag : Bool) :
    Bounded (x.onContext (Context.charge price lag)) := by
  refine ⟨h.1, ?_⟩
  rw [onContext_context, Context.charge, Context.onLast, List.length_modify]
  exact h.2

theorem chargeSession_at (e : Mode) (i : StationId) (entry : FundingEntry) (s : Sheet) (f : Floor) :
    StationStep i f (chargeSession e i entry s f) := by
  have charge : ∀ (g : Floor) (lag : Bool), StationStep i g (fundingCheck e i (g.onStation i
      (Station.onContext (Context.charge s.price lag)))) := fun g lag =>
    (onStation_at g i fun _ h => h.charge _ lag).trans (fundingCheck_at ..)
  unfold chargeSession
  dsimp only
  split
  · exact (onStore_at ..).trans (charge _ _)
  · exact charge _ _

theorem chargeStray_at (e : Mode) (i : StationId) (s : Sheet) (f : Floor) : StationStep i f (chargeStray e i s f) := by
  unfold chargeStray
  dsimp only
  split
  · exact (onStation_lists).trans (closeStray_at ..)
  · exact onStation_lists

theorem chargeSheet_at (e : Mode) (i : StationId) (s : Sheet) (f : Floor) : StationStep i f (chargeSheet e i s f) := by
  unfold chargeSheet
  split
  · exact chargeSession_at ..
  · exact chargeStray_at ..

theorem placeSheet_at (e : Mode) (i : StationId) (s : Sheet) (f : Floor) : StationStep i f (placeSheet e i s f) := by
  unfold placeSheet
  dsimp only
  split
  · rename_i short
    refine onStation_here f i fun h => ⟨⟨?_, h.1.2⟩, h.2⟩
    have := h.1.2.1
    simp only [onLine_line, List.length_append, List.length_singleton]
    omega
  · split
    · exact loseSheet_at ..
    · exact jamCause_at _ _ _ _ _ (Nat.le_refl 1)

theorem noteFeed_at (e : Mode) (i : StationId) (cls : SheetClass) (f : Floor) : StationStep i f (noteFeed e i cls f) := by
  unfold noteFeed
  refine onStation_lists (lost := fun x => ?_)
  dsimp only
  split <;> rfl

theorem feedInService_at (e : Mode) (i : StationId) (cls : SheetClass) (f : Floor) :
    StationStep i f (feedInService e i cls f) := by
  have fed := (noteFeed_at e i cls f).trans ((chargeSheet_at e i (sheetOf e i cls f) _).trans (placeSheet_at e i (sheetOf e i cls f) _))
  unfold feedInService
  dsimp only
  split
  · exact fed.trans (closeStray_at ..)
  · exact fed

theorem feedTaken_at (i : StationId) (size colour sides : Bool) (e : Mode) (f : Floor) :
    StationStep i f (feedTaken i size colour sides e f) := by
  unfold feedTaken feedEvent
  dsimp only
  split
  · split
    · exact (onStation_lists).trans (feedInService_at ..)
    · exact onStation_lists
  · exact .refl i f

theorem showDelivery_at (i : StationId) (f : Floor) : StationStep i f (showDelivery i f) := by
  unfold showDelivery
  dsimp only
  split
  · exact offer_at ..
  · exact showRemaining_at ..

theorem deliverSheet_at (i : StationId) (s : Sheet) (f : Floor) : StationStep i f (deliverSheet i s f) := by
  unfold deliverSheet
  split
  · exact onStation_lists
  · exact (onSheetAccount_at ..).trans ((onStation_lists).trans (showDelivery_at ..))

theorem Bounded.countRecovery {x : Station} (h : Bounded x) : Bounded x.countRecovery := by
  unfold Station.countRecovery
  dsimp only
  split_ifs
  · exact h.finaliseLost
  · exact h
  · exact h

theorem exitInPath_at (e : Mode) (i : StationId) (s : Sheet) (rest : List Sheet) (f : Floor)
    (path : (f.station i).line.inPath = s :: rest) : StationStep i f (exitInPath e i s rest f) := by
  unfold exitInPath
  refine (onStation_here f i fun h => ⟨⟨?_, h.1.2⟩, h.2⟩).trans
    ((deliverSheet_at ..).trans (onStation_at _ i fun _ h => h.countRecovery))
  have := h.1.1
  rw [path, List.length_cons] at this
  exact Nat.le_of_succ_le this

theorem recover_funding_length (l : LostSheet) (c : Context) : (c.recover l).funding.length = c.funding.length := by
  unfold Context.recover
  split <;> simp [Context.onEntry]

theorem Bounded.recover {x : Station} (h : Bounded x) (l : LostSheet) :
    Bounded (x.onContext fun c => (c.recover l).deliver l.sheet.cls) := by
  refine ⟨h.1, ?_⟩
  rw [onContext_context, Context.deliver, recover_funding_length]
  exact h.2

theorem deliverLate_at (e : Mode) (i : StationId) (l : LostSheet) (f : Floor) : StationStep i f (deliverLate e i l f) := by
  have session : StationStep i f (showDelivery i ((onSheetAccount i l.sheet
      (·.addDelivered l.sheet.cls (facesOf l.sheet.cls)) f).onStation i
        (Station.onContext fun c => (c.recover l).deliver l.sheet.cls))) :=
    (onSheetAccount_at ..).trans ((onStation_at _ i fun _ h => h.recover l).trans (showDelivery_at ..))
  unfold deliverLate
  split
  · exact onStation_lists
  all_goals
    dsimp only
    split
    · exact session.trans (fundingCheck_at ..)
    · exact session

theorem matchExit_inPath (now : Time) (l : LineUnit) : (l.matchExit now).inPath = l.inPath := by
  unfold LineUnit.matchExit
  split <;> rfl

theorem exitLate_at (e : Mode) (i : StationId) (l : LostSheet) (rest : List LostSheet) (f : Floor)
    (lost : (f.station i).jam.lost = l :: rest) : StationStep i f (exitLate e i l rest f) := by
  unfold exitLate
  refine (onStation_here f i fun h => ⟨⟨?_, h.1.2.1, ?_⟩, h.2⟩).trans (deliverLate_at ..)
  · simp only [onJam_line, onLine_line, matchExit_inPath]
    exact h.1.1
  · have := h.1.2.2
    rw [lost, List.length_cons] at this
    exact Nat.le_of_succ_le this

theorem exitInService_at (e : Mode) (i : StationId) (f : Floor) : StationStep i f (exitInService e i f) := by
  unfold exitInService
  dsimp only
  split
  · rename_i path
    exact exitInPath_at _ _ _ _ _ path
  · rename_i lost
    split
    · exact exitLate_at _ _ _ _ _ lost
    · exact onStation_lists
  · exact onStation_lists

theorem exitTaken_at (i : StationId) (e : Mode) (f : Floor) : StationStep i f (exitTaken i e f) := by
  unfold exitTaken exitEvent
  dsimp only
  split
  · split
    · exact (onStation_lists).trans (exitInService_at ..)
    · exact onStation_lists
  · exact .refl i f

theorem faultTaken_at (i : StationId) (active : Bool) (e : Mode) (f : Floor) : StationStep i f (faultTaken i active e f) := by
  unfold faultTaken faultEvent
  dsimp only
  split
  · split_ifs
    · exact onStation_lists
    · exact (onStation_lists).trans (jamCause_at _ _ _ _ _ (Nat.zero_le 1))
    · exact (onStation_lists).trans onStation_lists
    · exact onStation_lists
  · exact .refl i f

theorem inactiveTaken_at (i : StationId) (line : PulseLine) (e : Mode) (f : Floor) : StationStep i f (inactiveTaken i line e f) := by
  unfold inactiveTaken
  cases line <;> dsimp only <;> split
  · exact onStation_lists
  · exact .refl i f
  · exact onStation_lists
  · exact .refl i f

/-! ### Timers and jams -/

theorem transitDue_at (i : StationId) (e : Mode) (f : Floor) : StationStep i f (transitDue i e f) := by
  unfold transitDue
  split
  · exact jamCause_at _ _ _ _ _ (Nat.zero_le 1)
  · exact .refl i f

theorem quietDue_all (i : StationId) (e : Mode) (f : Floor) : StationsStep f (quietDue i e f) := by
  unfold quietDue
  dsimp only
  split
  · exact enterSettling_all ..
  · exact .refl f

theorem lowDue_at (i : StationId) (e : Mode) (f : Floor) : StationStep i f (lowDue i e f) := by
  unfold lowDue
  dsimp only
  split
  · exact endIfLive_at ..
  · exact .refl i f

theorem graceDue_at (i : StationId) (e : Mode) (f : Floor) : StationStep i f (graceDue i e f) := by
  unfold graceDue
  dsimp only
  split_ifs
  · exact endSession_at ..
  · exact giveUpFunding_at ..
  · exact .refl i f
  · exact .refl i f

theorem authDue_at (i : StationId) (e : Mode) (f : Floor) : StationStep i f (authDue i e f) := by
  unfold authDue
  dsimp only
  split_ifs
  · exact (cancelAuth_at ..).trans ((showAndEject_at ..).trans (giveUpFunding_at ..))
  · exact (cancelAuth_at ..).trans ((onStation_lists).trans (offer_at ..))
  · exact .refl i f

theorem silenceDue_at (i : StationId) (e : Mode) (f : Floor) : StationStep i f (silenceDue i e f) := by
  unfold silenceDue
  dsimp only
  split
  · exact linkDown_at ..
  · exact .refl i f

theorem busyDue_at (i : StationId) (e : Mode) (f : Floor) : StationStep i f (busyDue i e f) := by
  unfold busyDue
  dsimp only
  split
  · exact linkDown_at ..
  · exact .refl i f

theorem gapDue_at (i : StationId) (e : Mode) (f : Floor) : StationStep i f (gapDue i e f) := by
  unfold gapDue
  dsimp only
  split
  · exact onStation_lists
  · exact .refl i f

theorem enterRecovery_at (e : Mode) (i : StationId) (f : Floor) : StationStep i f (enterRecovery e i f) := by
  unfold enterRecovery
  exact (onStation_lists).trans ((showRemaining_at ..).trans (fundingCheck_at ..))

theorem endAtJamLimit_at (e : Mode) (i : StationId) (f : Floor) : StationStep i f (endAtJamLimit e i f) := by
  have final : ∀ x : Station, Bounded x → Bounded (x.finaliseLost.setOutPending .jamLimit) := fun _ h => h.finaliseLost
  unfold endAtJamLimit
  exact (onStation_at f i final).trans ((endSession_at ..).trans onStation_lists)

theorem afterJam_at (e : Mode) (i : StationId) (f : Floor) : StationStep i f (afterJam e i f) := by
  unfold afterJam
  dsimp only
  split
  · split
    · exact endAtJamLimit_at ..
    · exact enterRecovery_at ..
  · exact onStation_at f i fun _ h => h.finaliseLost
  · exact onStation_at f i fun _ h => h.finaliseLost
  all_goals
    split
    · exact (onStation_at f i fun _ h => h.finaliseLost).trans (enterOut_at ..)
    · exact (onStation_at f i fun _ h => h.finaliseLost).trans (reachIdle_at ..)

theorem jamDue_at (i : StationId) (e : Mode) (f : Floor) : StationStep i f (jamDue i e f) := by
  unfold jamDue
  split
  · exact afterJam_at ..
  · exact .refl i f

theorem recoveryDue_at (i : StationId) (e : Mode) (f : Floor) : StationStep i f (recoveryDue i e f) := by
  unfold recoveryDue
  dsimp only
  split
  · exact onStation_at f i fun _ h => h.finaliseLost
  · exact .refl i f

/-! ### Frames from the terminal -/

/-- A change of the link unit alone. -/
theorem onLink_at (f : Floor) (i : StationId) (change : Station → LinkUnit → LinkUnit) :
    StationStep i f (f.onStation i fun x => x.onLink (change x)) := onStation_lists

/-- A relation of floors that the link unit's own work meets, and what the session controller does with cards and keys handed on:
what frames from the terminal do to their station. -/
structure Terminal (e : Mode) (i : StationId) (R : Floor → Floor → Prop) : Prop where
  refl : ∀ f, R f f
  trans : ∀ {f g k : Floor}, R f g → R g k → R f k
  link : ∀ (f : Floor) (change : Station → LinkUnit → LinkUnit), R f (f.onStation i fun x => x.onLink (change x))
  notice : ∀ (event : NoticeEvent) (cause : OutCause) (f : Floor), R f (stationNotice e i event cause f)
  refusal : ∀ (msg : Message) (a b : Int) (f : Floor), R f (showAndEject i msg a b f)
  cardIn : ∀ (card : Card) (f : Floor), R f (sessionCardIn e i card f)
  cardOut : ∀ f : Floor, R f (sessionCardOut e i f)
  keyEnd : ∀ f : Floor, R f (sessionKeyEnd e i f)
  keyBalance : ∀ f : Floor, R f (sessionKeyBalance e i f)

theorem stationStep_terminal (e : Mode) (i : StationId) : Terminal e i (StationStep i) where
  refl := .refl i
  trans := .trans
  link f := onLink_at f i
  notice := stationNotice_at e i i
  refusal := showAndEject_at i
  cardIn := sessionCardIn_at e i
  cardOut := sessionCardOut_at e i
  keyEnd := sessionKeyEnd_at e i
  keyBalance := sessionKeyBalance_at e i

section Frames

variable {e : Mode} {i : StationId} {R : Floor → Floor → Prop} {f : Floor}

theorem cardLeaves_rel (rel : Terminal e i R) : R f (cardLeaves e i f) := by
  unfold cardLeaves
  split
  · exact rel.trans (rel.link f fun _ _ => _) (rel.cardOut _)
  · exact rel.refl f

theorem takeHello_rel (rel : Terminal e i R) (abilities rows : Byte) : R f (takeHello e i abilities rows f) := by
  unfold takeHello
  dsimp only
  split
  · exact rel.link f fun _ => _
  · exact rel.trans (rel.link f fun _ => _) (rel.notice ..)

theorem takeTick_rel (rel : Terminal e i R) (flags : Byte) : R f (takeTick e i flags f) := by
  unfold takeTick
  dsimp only
  split
  · exact rel.link f fun _ => _
  · exact rel.trans (rel.link f fun _ => _) (cardLeaves_rel rel)

theorem takeCardIn_rel (rel : Terminal e i R) (card : Card) : R f (takeCardIn e i card f) := by
  unfold takeCardIn
  dsimp only
  split
  · exact rel.refusal ..
  · exact rel.trans (rel.link f fun _ => _) (rel.cardIn ..)

theorem takeKey_rel (rel : Terminal e i R) {key : Floor → Floor} (h : ∀ f, R f (key f)) : R f (takeKey i key f) := by
  unfold takeKey
  split
  · exact h f
  · exact rel.refl f

theorem actOnFrame_rel (rel : Terminal e i R) (t : RxFrame) : R f (actOnFrame e i t f) := by
  cases t with
  | hello level abilities rows => exact takeHello_rel rel ..
  | tick flags =>
    simp only [actOnFrame]
    split
    · exact takeTick_rel rel ..
    · exact rel.refl f
  | cardIn medium card =>
    simp only [actOnFrame]
    split
    · exact takeCardIn_rel rel ..
    · exact rel.refl f
  | cardOut =>
    simp only [actOnFrame]
    split
    · exact cardLeaves_rel rel
    · exact rel.refl f
  | keyEnd =>
    simp only [actOnFrame]
    split
    · exact takeKey_rel rel rel.keyEnd
    · exact rel.refl f
  | keyBalance =>
    simp only [actOnFrame]
    split
    · exact takeKey_rel rel rel.keyBalance
    · exact rel.refl f

theorem receiveFrame_rel (rel : Terminal e i R) (t : RxFrame) : R f (receiveFrame i t e f) := by
  unfold receiveFrame
  split
  · exact rel.trans (rel.link f fun _ => _) (actOnFrame_rel rel ..)
  · exact rel.link f fun _ => _

theorem judgeFrame_rel (rel : Terminal e i R) (len : Nat) (bytes : List Byte) (check : Byte) :
    R f (judgeFrame i len bytes check e f) := by
  unfold judgeFrame
  split
  · split
    · exact receiveFrame_rel rel ..
    · exact rel.link f fun _ => _
  · exact rel.link f fun _ => _

theorem byteDelivered_rel (rel : Terminal e i R) (b : Byte) : R f (byteDelivered i b e f) := by
  unfold byteDelivered
  dsimp only
  refine rel.trans (rel.link f fun _ l => { l with lastByte := e.partTime }) ?_
  split
  · split
    · exact rel.link _ fun _ => _
    · exact rel.refl _
  · split
    · exact rel.link _ fun _ => _
    · exact rel.link _ fun _ => _
  · exact rel.link _ fun _ => _
  · exact judgeFrame_rel rel ..

theorem characterReceived_rel (rel : Terminal e i R) (data : Byte) : R f (characterReceived i data e f) := by
  unfold characterReceived
  dsimp only
  split
  · exact rel.trans (rel.link f fun _ => _) (rel.trans (rel.link _ fun _ => _) (byteDelivered_rel rel ..))
  · exact rel.link f fun _ => _

theorem characterFailed_rel (rel : Terminal e i R) (data : Byte) (parityBit stopBit : Bool) :
    R f (characterFailed i data parityBit stopBit e f) := by
  unfold characterFailed
  dsimp only
  split
  · split
    · exact rel.trans (rel.link f fun _ => _) (rel.link _ fun _ => _)
    · exact rel.link f fun _ => _
  · exact rel.refl f

end Frames

/-- Every event of the station units keeps the list bounds. -/
theorem unitWork_all {c : Instr} {work : Mode → Floor → Floor} (h : unitWork c = some work) (e : Mode) (f : Floor) :
    StationsStep f (work e f) := by
  cases c <;> cases h
  case feedEvent => exact (feedTaken_at ..).all
  case exitEvent => exact (exitTaken_at ..).all
  case faultChange => exact (faultTaken_at ..).all
  case takenChange => exact (inactiveTaken_at ..).all
  case transitCheck => exact (transitDue_at ..).all
  case quietNotice => exact quietDue_all ..
  case lowTimerExpiry => exact (lowDue_at ..).all
  case linkLossGraceExpiry => exact (graceDue_at ..).all
  case authorizationTimerExpiry => exact (authDue_at ..).all
  case silenceTimerExpiry => exact (silenceDue_at ..).all
  case busyTimerExpiry => exact (busyDue_at ..).all
  case gapLimit => exact (gapDue_at ..).all
  case jamClears => exact (jamDue_at ..).all
  case recoveryTimeout => exact (recoveryDue_at ..).all
  case waitingReportWritten => exact moveQueue_all ..
  case frameSent => exact (onLink_at ..).all
  case nextFrameStart => exact (onLink_at ..).all
  case byteError => exact (characterFailed_rel (stationStep_terminal e _) _ _ _).all
  case invalidFrame => exact (onLink_at _ _ fun _ => _).all
  case hello => exact (receiveFrame_rel (stationStep_terminal e _) _).all
  case tick => exact (receiveFrame_rel (stationStep_terminal e _) _).all
  case cardIn => exact (receiveFrame_rel (stationStep_terminal e _) _).all
  case cardOut => exact (receiveFrame_rel (stationStep_terminal e _) _).all
  case keyEnd => exact (receiveFrame_rel (stationStep_terminal e _) _).all
  case keyBalance => exact (receiveFrame_rel (stationStep_terminal e _) _).all
  case byteReceived => exact (characterReceived_rel (stationStep_terminal e _) _).all
  case characterSent => exact (onLink_at ..).all
  case busyLevelChange => exact (onLink_at ..).all

end Sys2Proof.Machine
end

section
/-! SUPPORT. The list bounds under orders and the other commands, and laws L5 and L7 for the lengths. -/

namespace Sys2Proof.Machine

open Sys2Proof

-- One proof after the other: proofs that wait for one another hold a thread each, and its memory.
set_option Elab.async false

theorem onStore_all (f : Floor) (change : Memory → Memory) : StationsStep f (f.onStore change) := .of_same rfl

theorem raise_all (k : IrqFlag) (f : Floor) : StationsStep f (f.raise k) := .of_same rfl

theorem unchanged_all (e : Mode) (f : Floor) (r : Reply) : StationsStep f (Executed.unchanged e f r).floor := .refl f

/-! ### Account orders -/

/-- A relation of floors that work without a station meets, and a re-evaluation pass: what account orders do to the stations. -/
structure Passes (e : Mode) (R : Floor → Floor → Prop) : Prop where
  same : ∀ {f g : Floor}, g.stations = f.stations → R f g
  trans : ∀ {f g k : Floor}, R f g → R g k → R f k
  pass : ∀ (accounts : List Nat) (f : Floor), R f (reevaluate e accounts f)

theorem stationsStep_passes (e : Mode) : Passes e StationsStep := ⟨.of_same, .trans, reevaluate_all e⟩

section Orders

variable {e : Mode} {R : Floor → Floor → Prop} {f : Floor}

theorem Passes.refl (rel : Passes e R) (f : Floor) : R f f := rel.same rfl

theorem accountDone_rel (rel : Passes e R) {n : Nat} {w : AccountWork} (h : R f w.floor) : R f (accountDone e n w).floor := by
  unfold accountDone
  dsimp only
  split
  · exact rel.trans h (rel.pass ..)
  · exact h

theorem accountWork_stations (f : Floor) (n : Nat) (r : Result) (gains : Bool) (change : Account → Account) :
    (accountWork f n r gains change).floor.stations = f.stations := rfl

theorem accountWork_rel (rel : Passes e R) (n : Nat) (r : Result) (gains : Bool) (change : Account → Account) :
    R f (accountDone e n (accountWork f n r gains change)).floor :=
  accountDone_rel rel (rel.same (accountWork_stations ..))

theorem accountOrder_rel (rel : Passes e R) {valid sparesHouse : Bool} {body : Nat → Account → Executed} {slot : Nat}
    (h : ∀ n a, R f (body n a).floor) : R f (accountOrder valid sparesHouse body e slot f).floor := by
  unfold accountOrder
  dsimp only
  split_ifs
  · exact rel.refl f
  · exact rel.refl f
  · exact rel.refl f
  · exact rel.refl f
  · exact h _ _

theorem runningAccountOrder_rel (rel : Passes e R) {body : Nat → Account → Executed} {slot : Nat}
    (h : ∀ n a, R f (body n a).floor) : R f (runningAccountOrder body e slot f).floor := by
  unfold runningAccountOrder
  split
  · exact rel.refl f
  · exact accountOrder_rel rel h

theorem accountOpenOrder_rel (rel : Passes e R) (slot : Nat) : R f (accountOpenOrder e slot f).floor := by
  refine accountOrder_rel rel fun n a => ?_
  split
  · exact accountWork_rel rel ..
  · exact rel.refl f

theorem accountCreditOrder_rel (rel : Passes e R) (slot : Nat) : R f (accountCreditOrder e slot f).floor := by
  refine accountOrder_rel rel fun n a => ?_
  split
  · exact rel.refl f
  · exact accountWork_rel rel ..

theorem accountDebitOrder_rel (rel : Passes e R) (slot : Nat) : R f (accountDebitOrder e slot f).floor := by
  refine accountOrder_rel rel fun n a => ?_
  split
  · exact rel.refl f
  · exact accountWork_rel rel ..

theorem accountLimitOrder_rel (rel : Passes e R) (slot : Nat) : R f (accountLimitOrder e slot f).floor := by
  refine accountOrder_rel rel fun n a => ?_
  split_ifs
  · exact rel.refl f
  · exact rel.refl f
  · exact accountWork_rel rel ..

theorem accountFreezeOrder_rel (rel : Passes e R) (slot : Nat) : R f (accountFreezeOrder e slot f).floor := by
  refine runningAccountOrder_rel rel fun n a => ?_
  split_ifs
  · exact rel.refl f
  · exact accountWork_rel rel ..
  · exact rel.refl f

theorem accountThawOrder_rel (rel : Passes e R) (slot : Nat) : R f (accountThawOrder e slot f).floor := by
  refine runningAccountOrder_rel rel fun n a => ?_
  split_ifs
  · exact rel.refl f
  · exact accountWork_rel rel ..
  · exact rel.refl f

theorem closeAccountOrder_rel (rel : Passes e R) (n : Nat) (a : Account) : R f (closeAccountOrder e f n a).floor := by
  unfold closeAccountOrder
  split_ifs
  · exact rel.refl f
  · exact accountDone_rel rel (rel.same (writeClose_stations ..))
  · exact accountWork_rel rel ..

theorem accountCloseOrder_rel (rel : Passes e R) (slot : Nat) : R f (accountCloseOrder e slot f).floor := by
  refine runningAccountOrder_rel rel fun n a => ?_
  split_ifs
  · exact rel.refl f
  · exact rel.refl f
  · exact closeAccountOrder_rel rel ..

theorem closePeriods_stations (e : Mode) (size position : Nat) (accounts : List Nat) (f : Floor) :
    (closePeriods e size position accounts f).stations = f.stations := by
  induction accounts generalizing position f with
  | nil => rfl
  | cons n rest ih =>
    rw [closePeriods, ih, closeOnePeriod, onStore_stations, writeReport_stations]

theorem periodBatch_stations (e : Mode) (accounts : List Nat) (f : Floor) : (periodBatch e accounts f).floor.stations = f.stations := by
  unfold periodBatch
  split
  · exact closePeriods_stations ..
  · rfl

theorem periodCloseOrder_stations (e : Mode) (slot : Nat) (f : Floor) : (periodCloseOrder e slot f).floor.stations = f.stations := by
  unfold periodCloseOrder
  dsimp only
  split_ifs
  · rfl
  · exact periodBatch_stations ..
  · rfl
  · rfl
  · exact periodBatch_stations ..

end Orders

/-! ### Card orders touch no station -/

theorem putEntry_stations (e : Mode) (d : DirEntry) (f : Floor) : (putEntry e d f).floor.stations = f.stations := by
  unfold putEntry
  dsimp only
  split
  · rfl
  · split <;> rfl

theorem cardPutOrder_stations (e : Mode) (slot : Nat) (f : Floor) : (cardPutOrder e slot f).floor.stations = f.stations := by
  unfold cardPutOrder
  dsimp only
  split
  · rfl
  · split
    · rfl
    · exact putEntry_stations ..

theorem cardDropOrder_stations (e : Mode) (slot : Nat) (f : Floor) : (cardDropOrder e slot f).floor.stations = f.stations := by
  unfold cardDropOrder
  dsimp only
  split
  · rfl
  · split <;> rfl

/-! ### Station orders -/

theorem stationOrder_rel {e : Mode} {R : Floor → Floor → Prop} (rel : Passes e R)
    {body : Mode → StationId → Nat → Floor → Executed} {slot : Nat} {f : Floor}
    (h : ∀ i, R f (body e i slot f).floor) : R f (stationOrder body e slot f).floor := by
  unfold stationOrder
  split
  · exact rel.refl f
  · split
    · exact rel.refl f
    · exact h _

theorem firstGrant_at (e : Mode) (i : StationId) (ok : Result) (g : Grant) (f : Floor) :
    StationStep i f (firstGrant e i ok g f).floor := by
  unfold firstGrant
  dsimp only
  split_ifs
  · exact (showAndEject_at ..).trans (giveUpFunding_at ..)
  · exact (showAndEject_at ..).trans (giveUpFunding_at ..)
  · exact (showAndEject_at ..).trans (giveUpFunding_at ..)
  · exact openSession_at ..

theorem Bounded.addGrant {x : Station} (h : Bounded x) (g : Grant) : Bounded (x.addGrant g) := h.modify _ _

theorem incrementGrant_at (e : Mode) (i : StationId) (ok : Result) (g : Grant) (f : Floor) :
    StationStep i f (incrementGrant e i ok g f).floor := by
  unfold incrementGrant
  dsimp only
  split
  · exact (onStation_lists).trans (offer_at ..)
  · exact (onStation_at f i fun _ h => h.addGrant g).trans (fundingCheck_at ..)

theorem judgeAnswer_at (e : Mode) (i : StationId) (slot : Nat) (f : Floor) : StationStep i f (judgeAnswer e i slot f).floor := by
  unfold judgeAnswer
  dsimp only
  split_ifs
  · exact .refl i f
  · exact .refl i f
  · exact (cancelAuth_at ..).trans (firstGrant_at ..)
  · exact (cancelAuth_at ..).trans (firstGrant_at ..)
  · exact (cancelAuth_at ..).trans (incrementGrant_at ..)
  · exact (cancelAuth_at ..).trans (incrementGrant_at ..)

theorem switchGuard_at (e : Mode) (p : Page) (i : StationId) (f : Floor) : StationStep i f (switchGuard e p i f) := by
  unfold switchGuard
  dsimp only
  split
  · exact (onStation_lists).trans (fundingCheck_at ..)
  · exact onStation_lists

theorem priceSwitchOrder_all (e : Mode) (slot : Nat) (f : Floor) : StationsStep f (priceSwitchOrder e slot f).floor := by
  unfold priceSwitchOrder
  dsimp only
  split
  · exact unchanged_all ..
  · dsimp only
    exact forStations_stationsStep _ (switchGuard_at e _) f

theorem takeOut_at (e : Mode) (i : StationId) (f : Floor) : StationStep i f (takeOut e i f) := by
  unfold takeOut
  dsimp only
  split_ifs
  · exact enterOut_at ..
  · exact (showAndEject_at ..).trans ((cancelAuth_at ..).trans
      ((onStation_at _ i fun _ h => h.clearContext).trans (enterOut_at ..)))
  · exact (onStation_lists).trans (endIfLive_at ..)

theorem judgeOut_at (e : Mode) (i : StationId) (slot : Nat) (f : Floor) : StationStep i f (judgeOut e i slot f).floor := by
  unfold judgeOut
  split
  · exact .refl i f
  · exact takeOut_at ..

/-- A clamped path depth is 8 at most (11.6). -/
theorem clamped_pathDepth (w : WorkingCopy) : w.clamped.pathDepth ≤ 8 := by
  simp only [WorkingCopy.clamped, clampTo]
  omega

theorem takeProfile_at (e : Mode) (i : StationId) (f : Floor) : StationStep i f (takeProfile e i f) := by
  have taken : ∀ x : Station, Bounded x → Bounded
      (let y := ({ x with copy := (f.store.profile i).clamped }.recomputeGuard f.store e.page).seedFilters
       { y with line := { y.line.clearPace with drainStart := e.partTime } }) :=
    fun _ h => ⟨⟨h.1.1, clamped_pathDepth _, h.1.2.2⟩, h.2⟩
  unfold takeProfile
  exact (onStation_at f i taken).trans (applySerial_at ..)

theorem takeIn_at (e : Mode) (i : StationId) (f : Floor) : StationStep i f (takeIn e i f) := by
  have entered := (onStore_at f i fun m => m.countClamps (m.profile i).clampCount).trans
    ((takeProfile_at e i _).trans ((onStation_lists (change := Station.inServiceAgain)).trans
      (stationNotice_at e i i .entered .none _)))
  unfold takeIn
  dsimp only
  split
  · exact entered.trans (jamCause_at _ _ _ _ _ (Nat.zero_le 1))
  · exact entered

theorem judgeIn_at (e : Mode) (i : StationId) (slot : Nat) (f : Floor) : StationStep i f (judgeIn e i slot f).floor := by
  unfold judgeIn
  split
  · exact takeIn_at ..
  · exact .refl i f

theorem stationInOrder_all (e : Mode) (slot : Nat) (f : Floor) : StationsStep f (stationInOrder e slot f).floor := by
  unfold stationInOrder
  split
  · exact .refl f
  · exact stationOrder_rel (stationsStep_passes e) fun i => (judgeIn_at e i slot f).all

theorem judgeAck_at (e : Mode) (i : StationId) (slot : Nat) (f : Floor) : StationStep i f (judgeAck e i slot f).floor := by
  unfold judgeAck
  split
  · dsimp only
    exact onStation_lists
  · exact .refl i f

theorem judgeEnd_at (e : Mode) (i : StationId) (slot : Nat) (f : Floor) : StationStep i f (judgeEnd e i slot f).floor := by
  unfold judgeEnd
  dsimp only
  split
  · dsimp only
    exact endSession_at ..
  · exact (showAndEject_at ..).trans (giveUpFunding_at ..)
  all_goals exact .refl i f

/-- Every order keeps the list bounds. -/
theorem orderWork_all {c : Instr} {taken : Nat → Bool} {body : Mode → Nat → Floor → Executed}
    (h : orderWork c = some (taken, body)) (e : Mode) (slot : Nat) (f : Floor) : StationsStep f (body e slot f).floor := by
  cases c <;> cases h
  case accountOpen => exact accountOpenOrder_rel (stationsStep_passes e) slot
  case accountCredit => exact accountCreditOrder_rel (stationsStep_passes e) slot
  case accountDebit => exact accountDebitOrder_rel (stationsStep_passes e) slot
  case accountLimit => exact accountLimitOrder_rel (stationsStep_passes e) slot
  case accountFreeze => exact accountFreezeOrder_rel (stationsStep_passes e) slot
  case accountThaw => exact accountThawOrder_rel (stationsStep_passes e) slot
  case accountClose => exact accountCloseOrder_rel (stationsStep_passes e) slot
  case periodClose => exact .of_same (periodCloseOrder_stations ..)
  case cardPut => exact .of_same (cardPutOrder_stations ..)
  case cardDrop => exact .of_same (cardDropOrder_stations ..)
  case authAnswer => exact stationOrder_rel (stationsStep_passes e) fun i => (judgeAnswer_at e i slot f).all
  case priceSwitch => exact priceSwitchOrder_all ..
  case stationOut => exact stationOrder_rel (stationsStep_passes e) fun i => (judgeOut_at e i slot f).all
  case stationIn => exact stationInOrder_all ..
  case jamAck => exact stationOrder_rel (stationsStep_passes e) fun i => (judgeAck_at e i slot f).all
  case sessionEnd => exact stationOrder_rel (stationsStep_passes e) fun i => (judgeEnd_at e i slot f).all
  case badKind => exact .refl f

/-! ### Start, stop, reset and the clock -/

theorem atRunning_at (e : Mode) (i : StationId) (f : Floor) : StationStep i f (atRunning e i f) := by
  unfold atRunning
  dsimp only
  split_ifs
  · exact closeStray_at ..
  · exact jamCause_at _ _ _ _ _ (Nat.zero_le 1)
  · exact .refl i f

theorem stopStation_at (e : Mode) (i : StationId) (f : Floor) : StationStep i f (stopStation e i f) := by
  unfold stopStation
  dsimp only
  split_ifs
  · exact endSession_at ..
  · exact (showAndEject_at ..).trans (giveUpFunding_at ..)
  · exact closeStray_at ..
  · exact .refl i f

theorem stationStopped_at (i : StationId) (f : Floor) : StationStep i f (stationStopped i f) := by
  unfold stationStopped
  exact (answerNextCard_at ..).trans (onStation_at _ i fun _ h => h.dropPath)

theorem Bounded.softReset {x : Station} (h : Bounded x) (now : Time) : Bounded (x.softReset now) := by
  refine ⟨⟨Nat.zero_le _, h.1.2.1, Nat.zero_le _⟩, ?_⟩
  simp only [Station.softReset, Context.abandon]
  split <;> exact h.2

theorem Bounded.afterClearing {x : Station} (h : Bounded x) (m : Memory) (i : StationId) : Bounded (x.afterClearing m i) :=
  ⟨⟨h.1.1, clamped_pathDepth _, h.1.2.2⟩, h.2⟩

theorem bounded_powerOnWithLines (x : Station) : Bounded x.powerOnWithLines :=
  ⟨⟨Nat.zero_le _, show 1 ≤ 8 by omega, Nat.zero_le _⟩, Nat.zero_le _⟩

theorem entriesBack_length {α : Type} (read : Nat → α) (n size o : Nat) : (entriesBack read n size o).length = n := by
  rw [entriesBack, List.length_map, List.length_range]

/-- Lists loaded by the host are cut at their field's length (log 12). -/
theorem Bounded.readBack {x : Station} (h : Bounded x) (image : Nat) : Bounded (x.readBack image) := by
  refine ⟨⟨?_, h.1.2.1, ?_⟩, ?_⟩
  · simp only [Station.readBack, LineUnit.readBack, entriesBack_length]
    omega
  · simp only [Station.readBack, JamUnit.readBack, entriesBack_length]
    omega
  · simp only [Station.readBack, Context.readBack, entriesBack_length]
    omega

theorem Bounded.sampleInputs {x : Station} (h : Bounded x) (now : Time) : Bounded (x.sampleInputs now) := h

/-- The end of a step keeps the list bounds. -/
theorem settle_all (e : Mode) (f g : Floor) : StationsStep g (settle e f g) := by
  refine ⟨fun j h => ?_⟩
  rw [settle_station]
  unfold Bounded PathBound at *
  rw [settleRecord_line, settleRecord_copy, settleRecord_jam, settleRecord_context, driveEnable_inPath, driveEnable_copy,
    driveEnable_jam, driveEnable_context]
  exact h

/-- The work of a start check that passes keeps the list bounds. -/
theorem passStart_all (s : State) : StationsStep s.floor (passStart s).floor := by
  have profiles : ∀ f, StationsStep f (forStations
      (fun i f => if s.floor.store.profileEnabled i then takeProfile s.mode i f else f) f) := by
    refine forStations_stationsStep _ fun i f => ?_
    split
    · exact takeProfile_at ..
    · exact .refl i f
  have services : ∀ f, StationsStep f (forStations
      (fun i f => if s.floor.store.profileEnabled i then f.onStation i Station.inServiceAgain else enterOut s.mode i .staff f) f) := by
    refine forStations_stationsStep _ fun i f => ?_
    split
    · exact onStation_lists
    · exact enterOut_at ..
  unfold passStart
  dsimp only
  exact (onStore_all ..).trans ((onStore_all ..).trans ((profiles _).trans ((services _).trans
    ((raise_all ..).trans ((forStations_stationsStep _ (atRunning_at _) _).trans (settle_all ..))))))

theorem requestRun_all (s : State) : StationsStep s.floor (requestRun s).floor := by
  unfold requestRun
  split
  · split
    · exact .of_same rfl
    · exact passStart_all s
  · exact .refl s.floor

theorem requestStop_all (s : State) : StationsStep s.floor (requestStop s).floor := by
  unfold requestStop
  split
  · exact (raise_all ..).trans ((forStations_stationsStep _ (stopStation_at _) _).trans (settle_all ..))
  · exact .refl s.floor

theorem requestSoftReset_all (s : State) : StationsStep s.floor (requestSoftReset s).floor := by
  unfold requestSoftReset
  split
  · exact .refl s.floor
  · refine ⟨fun j h => (settle_all _ _ _).each j ?_⟩
    have reset : Bounded ({ s.floor with stations := s.floor.stations.map (Station.softReset s.mode.partTime) }.station j) := by
      rw [station_map]
      exact h.softReset _
    split <;> exact (StationsStep.of_same (by rfl)).each j reset

/-- Every command keeps the list bounds of every station. -/
theorem stepOf_bounded {c : Instr} {s t : State} (step : StepOf s c t) (h : ∀ i, Bounded (s.floor.station i)) (i : StationId) :
    Bounded (t.floor.station i) := by
  have done : ∀ {t : State}, StationsStep s.floor t.floor → Bounded (t.floor.station i) := fun keeps => keeps.each i (h i)
  cases step with
  | unit work =>
    unfold State.unitStep
    split
    · exact h i
    · exact done ((unitWork_all work _ _).trans (settle_all ..))
  | order work =>
    unfold takeOrder
    split
    · exact done ((orderWork_all work _ _ _).trans ((onStore_all ..).trans ((raise_all ..).trans (settle_all ..))))
    · exact h i
  | kept _ stations => exact done (.of_same stations)
  | record _ _ _ floor => exact done (floor ▸ (onStation_at _ _ fun _ h => h.readBack _).all)
  | powerOn power =>
    cases power
    rw [show ({ State.reset with
      floor := { State.reset.floor with stations := s.floor.stations.map Station.powerOnWithLines }
      pending := s.pending } : State).floor.station i = (s.floor.station i).powerOnWithLines from by simp [Floor.station]]
    exact bounded_powerOnWithLines _
  | clearingDone cleared =>
    unfold execClearingDone at cleared
    split at cleared <;> cases cleared
    · refine done ((StationsStep.of_same (by rfl)).trans ((forStations_stationsStep _ (fun i f => ?_) _).trans
        ((raise_all ..).trans (settle_all ..))))
      exact onStation_at f i fun _ h => h.afterClearing _ _
    · exact h i
  | softReset => exact done (requestSoftReset_all s)
  | run => exact done (requestRun_all s)
  | stop => exact done (requestStop_all s)
  | stoppedEntry stopped =>
    unfold execStoppedEntry at stopped
    split at stopped <;> cases stopped
    · exact done ((raise_all ..).trans ((forStations_stationsStep _ stationStopped_at _).trans (settle_all ..)))
    · exact h i
  | clock ticked =>
    unfold execPartTimeTick at ticked
    dsimp only at ticked
    split at ticked <;> cases ticked
    · rw [show ∀ e g, ({ s with mode := e, floor := g } : State).floor.station i = g.station i from fun _ _ => rfl, station_map]
      exact h i
    · refine (settle_all _ _ _).each i ?_
      rw [station_map]
      exact (h i).sampleInputs _

/-- Settles O7: each operation of the units keeps the greatest lengths of every station's lists. A path and the sheet that overfills it
fill the lost list at most, a spill joins a list of fewer than 3 entries, and what the host loads is cut. -/
theorem everyStepKeepsPathAndFundingBounds : Obligations.EveryStepKeepsPathAndFundingBounds := by
  unfold Obligations.EveryStepKeepsPathAndFundingBounds
  intro c s t path funds h
  have kept := stepOf_bounded (stepOf_exec h) fun i => ⟨path i, funds i⟩
  exact ⟨fun i => (kept i).1, fun i => (kept i).2⟩

end Sys2Proof.Machine
end

section
/-! PROOF. The line events as changes of one station: when a change is due, what is counted, and the events that make or move no
sheet (R1, R4, R5, R10). -/

namespace Sys2Proof.Machine

open Sys2Proof
-- One proof after the other: proofs that wait for one another hold a thread each, and its memory.
set_option Elab.async false

/-! ### When a change is due -/

theorem changeDue_iff (w : WorkingCopy) (k : Nat) (active filtered high : Bool) (count : Nat) :
    w.changeDue k active filtered high count = true ↔
      filtered = !active ∧ w.isActive k high = active ∧ w.debounce ≤ count := by
  simp only [WorkingCopy.changeDue, Bool.and_eq_true, bne_iff_ne, beq_iff_eq, decide_eq_true_eq, and_assoc]
  cases filtered <;> cases active <;> simp

theorem feedDue_iff (active : Bool) (x : Station) : x.feedDue active = true ↔ FeedDue active x := changeDue_iff ..

theorem exitDue_iff (active : Bool) (x : Station) : x.exitDue active = true ↔ ExitDue active x := changeDue_iff ..

theorem faultDue_iff (active : Bool) (x : Station) : x.faultDue active = true ↔ FaultDue active x := changeDue_iff ..

theorem feedTaken_due {i : StationId} {p q r : Bool} {e : Mode} {f : Floor} (due : FeedDue true (f.station i)) :
    feedTaken i p q r e f = feedEvent i p q r e f := if_pos ((feedDue_iff ..).mpr due)

theorem exitTaken_due {i : StationId} {e : Mode} {f : Floor} (due : ExitDue true (f.station i)) :
    exitTaken i e f = exitEvent i e f := if_pos ((exitDue_iff ..).mpr due)

theorem faultTaken_due {i : StationId} {active : Bool} {e : Mode} {f : Floor} (due : FaultDue active (f.station i)) :
    faultTaken i active e f = faultEvent i active e f := if_pos ((faultDue_iff ..).mpr due)

/-! ### What every event counts, and where it stops -/

/-- A station at which a FEED has been taken and counted (R1, R4). -/
abbrev Station.fed (x : Station) : Station := (x.takeFeedLevel true).onLine LineUnit.countFeed

theorem feedEvent_outside {i : StationId} {p q r : Bool} {e : Mode} {f : Floor} (h : inService e (f.station i) = false) :
    feedEvent i p q r e f = f.onStation i fun _ => (f.station i).fed := by
  have same : inService e (f.station i).fed = false := h
  unfold feedEvent
  simp only [station_onStation_self, same, Bool.false_eq_true, if_false]
  exact onStation_congr _ _ rfl

theorem feedEvent_inService {i : StationId} {p q r : Bool} {e : Mode} {f : Floor} (h : inService e (f.station i) = true) :
    feedEvent i p q r e f =
      feedInService e i (readClass (f.station i).copy p q r) (f.onStation i fun _ => (f.station i).fed) := by
  have same : inService e (f.station i).fed = true := h
  unfold feedEvent
  simp only [station_onStation_self, same, if_true]
  rw [onStation_congr f i (b := fun _ => (f.station i).fed) rfl]
  rfl

/-- An EXIT out of service is counted only; one in service goes on from the counted station (R4, R10, R20). -/
theorem exitEvent_eq (i : StationId) (e : Mode) (f : Floor) :
    exitEvent i e f =
      let g := f.onStation i fun _ => { f.station i with line := (f.station i).exited }
      if inService e (f.station i) then exitInService e i g else g := by
  have counted : (f.onStation i fun x => (x.takeExitLevel true).onLine LineUnit.countExit) =
      f.onStation i fun _ => { f.station i with line := (f.station i).exited } := onStation_congr _ _ rfl
  unfold exitEvent
  rw [counted]
  simp only [station_onStation_self]
  rfl

/-! ### The three cases of an EXIT in service (R10) -/

theorem exitInService_inPath {e : Mode} {i : StationId} {f : Floor} {s : Sheet} {rest : List Sheet}
    (path : (f.station i).line.inPath = s :: rest) : exitInService e i f = exitInPath e i s rest f := by
  unfold exitInService
  simp only [path]

theorem exitInService_late {e : Mode} {i : StationId} {f : Floor} {l : LostSheet} {rest : List LostSheet}
    (path : (f.station i).line.inPath = []) (lost : (f.station i).jam.lost = l :: rest)
    (state : (f.station i).state = .jammed ∨ (f.station i).state = .recovery) :
    exitInService e i f = exitLate e i l rest f := by
  have match_ : (f.station i).state.matchesLost = true := by
    unfold StationState.matchesLost
    rcases state with h | h <;> rw [h] <;> rfl
  unfold exitInService
  simp only [path, lost, match_, if_true]

theorem exitInService_orphan {e : Mode} {i : StationId} {f : Floor} (path : (f.station i).line.inPath = [])
    (none : (f.station i).jam.lost = [] ∨ ((f.station i).state ≠ .jammed ∧ (f.station i).state ≠ .recovery)) :
    exitInService e i f = f.onStation i (Station.onLine LineUnit.orphan) := by
  unfold exitInService
  dsimp only
  split
  · next filled => exact absurd (path.symm.trans filled) (by simp)
  · next lost =>
    obtain ⟨jammed, recovery⟩ := none.resolve_left (by simp [lost])
    exact if_neg (by simp [StationState.matchesLost, jammed, recovery])
  · rfl

/-! ### FAULT -/

theorem faultEvent_outside {i : StationId} {active : Bool} {e : Mode} {f : Floor}
    (h : inService e (f.station i) = false) :
    faultEvent i active e f = f.onStation i fun _ => (f.station i).takeFaultLevel active := by
  have same : inService e ((f.station i).takeFaultLevel active) = false := h
  unfold faultEvent
  simp only [station_onStation_self, same, Bool.not_false, if_true]
  exact onStation_congr _ _ rfl

/-- FAULT going active in service is a jam cause COPIER (R5, R115). -/
theorem faultEvent_active {i : StationId} {e : Mode} {f : Floor} (h : inService e (f.station i) = true) :
    faultEvent i true e f = jamCause e i .copier [] (f.onStation i fun _ => (f.station i).takeFaultLevel true) := by
  have same : inService e ((f.station i).takeFaultLevel true) = true := h
  unfold faultEvent
  simp only [station_onStation_self, same, Bool.not_true, Bool.false_eq_true, if_false, if_true]
  rw [onStation_congr f i (b := fun _ => (f.station i).takeFaultLevel true) rfl]

/-- FAULT going inactive in service sets the settle start in JAMMED (R121) and the level alone elsewhere (R5). -/
theorem faultEvent_inactive {i : StationId} {e : Mode} {f : Floor} (h : inService e (f.station i) = true) :
    faultEvent i false e f = f.onStation i fun _ =>
      let y := (f.station i).takeFaultLevel false
      if (f.station i).state = .jammed then { y with jam := { y.jam with settleStart := e.partTime } } else y := by
  have same : inService e ((f.station i).takeFaultLevel false) = true := h
  unfold faultEvent
  simp only [station_onStation_self, same, Bool.not_true, Bool.false_eq_true, if_false]
  by_cases jammed : (f.station i).state = .jammed
  · rw [if_pos (show ((f.station i).takeFaultLevel false).state = .jammed from jammed), onStation_onStation]
    exact onStation_congr _ _ (by simp only [jammed, if_true]; rfl)
  · rw [if_neg (show ¬ ((f.station i).takeFaultLevel false).state = .jammed from jammed)]
    exact onStation_congr _ _ (by simp only [jammed, if_false])

/-- A jam cause at a JAMMED station declares nothing (R115). -/
theorem jamCause_jammed {e : Mode} {i : StationId} {cause : JamCause} {extra : List Sheet} {f : Floor}
    (h : (f.station i).state = .jammed) : jamCause e i cause extra f = f := by
  unfold jamCause
  simp [h]

/-! ### The events without a sheet -/

/-- A change of FAULT that declares no jam sets the level; in JAMMED a change to inactive also sets the settle start (R5, R121). -/
theorem faultEvent_quiet {i : StationId} {active : Bool} {e : Mode} {f : Floor}
    (h : inService e (f.station i) = false ∨ (f.station i).state = .jammed) :
    faultEvent i active e f = f.onStation i fun _ =>
      { f.station i with
        line := { (f.station i).line with fault := active, faultCount := 0 }
        jam := { (f.station i).jam with
          settleStart := if inService e (f.station i) = true ∧ active = false then e.partTime
            else (f.station i).jam.settleStart } } := by
  by_cases service : inService e (f.station i) = true
  · have jammed := h.resolve_left (by simp [service])
    cases active with
    | true =>
      rw [faultEvent_active service, jamCause_jammed (by rw [station_onStation_self]; exact jammed)]
      exact onStation_congr _ _ (by simp [Station.takeFaultLevel, Station.onLine])
    | false =>
      rw [faultEvent_inactive service]
      exact onStation_congr _ _ (by simp [jammed, service, Station.takeFaultLevel, Station.onLine])
  · have outside : inService e (f.station i) = false := by simpa using service
    rw [faultEvent_outside outside]
    exact onStation_congr _ _ (by simp [outside, Station.takeFaultLevel, Station.onLine])

/-- Settles O37: each command's work is one change of its station, by the case of its event; where the change is not due the work
leaves the floor as it is. -/
theorem lineEventsWithoutASheet : Obligations.LineEventsWithoutASheet := by
  unfold Obligations.LineEventsWithoutASheet
  intro i s l4 run x
  refine ⟨fun p q r due => ?_, fun due => ?_, fun due => ?_, fun due => ?_, fun active due => ?_,
    fun p q r due outside => ?_, fun due outside => ?_, fun due service path none => ?_, fun due => ?_, fun due => ?_,
    fun active due quiet => ?_, fun due service free => ?_⟩
  · exact noEffect_of (change := feedTaken i p q r) rfl l4 (if_neg fun h => due ((feedDue_iff ..).mp h))
  · exact noEffect_of (change := exitTaken i) rfl l4 (if_neg fun h => due ((exitDue_iff ..).mp h))
  · exact noEffect_of (change := inactiveTaken i .feed) rfl l4 (if_neg fun h => due ((feedDue_iff ..).mp h))
  · exact noEffect_of (change := inactiveTaken i .exit) rfl l4 (if_neg fun h => due ((exitDue_iff ..).mp h))
  · exact noEffect_of (change := faultTaken i active) rfl l4 (if_neg fun h => due ((faultDue_iff ..).mp h))
  · exact changesTo_of (change := feedTaken i p q r) rfl run l4 ((feedTaken_due due).trans (feedEvent_outside outside))
  · refine changesTo_of (change := exitTaken i) rfl run l4 ?_
    rw [exitTaken_due due, exitEvent_eq]
    simp only [x] at outside
    simp only [outside, Bool.false_eq_true, if_false]
    rfl
  · refine changesTo_of (change := exitTaken i) rfl run l4 ?_
    simp only [x] at service
    rw [exitTaken_due due, exitEvent_eq]
    simp only [service, if_true]
    rw [exitInService_orphan (by rw [station_onStation_self]; exact path) (by rw [station_onStation_self]; exact none),
      onStation_onStation]
    rfl
  · exact changesTo_of (change := inactiveTaken i .feed) rfl run l4
      ((if_pos ((feedDue_iff ..).mpr due)).trans (onStation_congr _ _ rfl))
  · exact changesTo_of (change := inactiveTaken i .exit) rfl run l4
      ((if_pos ((exitDue_iff ..).mpr due)).trans (onStation_congr _ _ rfl))
  · exact changesTo_of (change := faultTaken i active) rfl run l4 ((faultTaken_due due).trans (faultEvent_quiet quiet))
  · refine changesTo_of (change := faultTaken i false) rfl run l4 ?_
    rw [faultTaken_due due, faultEvent_inactive service]
    exact onStation_congr _ _ (if_neg free)

end Sys2Proof.Machine
end

section
/-! PROOF. The account a funding entry names, and the deliveries of an EXIT matched to an in-path sheet (R11 to R13, R127, R136). -/

namespace Sys2Proof.Machine

open Sys2Proof
-- One proof after the other: proofs that wait for one another hold a thread each, and its memory.
set_option Elab.async false

/-! ### The account an entry names -/

/-- Whether an entry names an account of the table (R79). -/
abbrev FundingEntry.named (en : FundingEntry) : Prop := (en.kind = .account ∨ en.kind = .house) ∧ en.account < 1024

/-- The store after one whole request on the account that an entry names (R134). -/
def FundingEntry.edit (en : FundingEntry) (change : Account → Account) (m : Memory) : Memory :=
  if en.named then m.editAccount en.account change else m

theorem namesAccount_iff (en : FundingEntry) : en.namesAccount = true ↔ en.kind = .account ∨ en.kind = .house := by
  simp only [FundingEntry.namesAccount, Bool.or_eq_true, beq_iff_eq]

/-- A request on a number outside the account table writes nothing. -/
theorem editAccount_none (m : Memory) {n : Nat} (change : Account → Account) (hn : ¬ n < 1024) : m.editAccount n change = m := by
  unfold Memory.editAccount
  dsimp only
  split
  · rfl
  · exact if_neg hn

theorem edit_of_namesAccount (en : FundingEntry) (change : Account → Account) (m : Memory) :
    (if en.namesAccount then m.editAccount en.account change else m) = en.edit change m := by
  unfold FundingEntry.edit
  by_cases kind : en.kind = .account ∨ en.kind = .house
  · rw [if_pos ((namesAccount_iff en).mpr kind)]
    by_cases number : en.account < 1024
    · rw [if_pos ⟨kind, number⟩]
    · rw [if_neg (fun h => number h.2), editAccount_none m change number]
  · rw [if_neg (fun h => kind ((namesAccount_iff en).mp h)), if_neg (fun h => kind h.1)]

theorem account_edit {en : FundingEntry} (change : Account → Account) (m : Memory) (named : en.named) :
    (en.edit change m).account en.account = edited (m.account en.account) (change (m.account en.account)) := by
  unfold FundingEntry.edit
  rw [if_pos named]
  exact Memory.account_editAccount_self m change named.2

theorem read_edit_outside {en : FundingEntry} (change : Account → Account) (m : Memory) {a : Nat}
    (h : ¬ (en.named ∧ inAccount en.account a)) : (en.edit change m).read a = m.read a := by
  unfold FundingEntry.edit
  split
  · next named =>
    refine Memory.read_editAccount_outside m change ?_
    have out : ¬ inAccount en.account a := fun inside => h ⟨named, inside⟩
    simp only [inAccount, inBytes] at out
    omega
  · rfl

/-- A request made on the account of an entry that names one (R79). -/
theorem onStore_named (en : FundingEntry) (change : Account → Account) (f : Floor) :
    (if en.namesAccount then f.onStore fun m => m.editAccount en.account change else f) = f.onStore (en.edit change) := by
  have request : en.edit change = fun m => if en.namesAccount then m.editAccount en.account change else m :=
    funext fun m => (edit_of_namesAccount en change m).symm
  rw [request]
  cases en.namesAccount <;> rfl

/-- A sheet's account is the one its funding entry names (R136). -/
theorem onSheetAccount_entry {i : StationId} {s : Sheet} {k : Fin 3} {en : FundingEntry} (change : Account → Account)
    {f : Floor} (target : s.target = .entry k) (entry : (f.station i).context.funding[k.val]? = some en) :
    onSheetAccount i s change f = f.onStore (en.edit change) := by
  rw [← onStore_named]
  unfold onSheetAccount Context.accountOf
  simp only [target, entry]
  cases en.namesAccount <;> rfl

/-! ### Steps that change one station and one account -/

/-- Work at the store and work at a station do not meet. -/
theorem onStore_onStation (f : Floor) (i : StationId) (change : Memory → Memory) (a : Station → Station) :
    (f.onStore change).onStation i a = (f.onStation i a).onStore change := rfl

/-- A step of the units that makes station `i` `y` and the store `m` answers the state in which these alone have changed. -/
theorem changesToAnd_of {c : Instr} {i : StationId} {s : State} {y : Station} {m : Memory} {stored : Nat → Prop}
    {holds : Memory → Prop} {change : Mode → Floor → Floor} (hc : exec c s = .next (s.unitStep change))
    (run : s.mode.run ≠ .clearing) (l4 : EnableLaw s)
    (h : change s.mode s.floor = { s.floor with store := m, stations := s.floor.stations.set i y }) (store : holds m)
    (cells : ∀ a, ¬ stored a → m.read a = s.floor.store.read a) : ChangesToAnd stored holds c i s y := by
  have stations : ∀ j, (change s.mode s.floor).station j = (s.floor.setStation i y).station j := fun j => by rw [h]; rfl
  have others : KeepsOthers i s.floor (s.act change).floor := fun j hj =>
    settle_same ((stations j).trans (station_setStation_other s.floor i j y hj)) (l4 j)
  refine ⟨s.act change, by rw [hc, unitStep_act change run], ⟨⟨rfl, rfl, rfl⟩, ?_, ?_, ?_, ?_, others, ?_⟩, ?_, ?_⟩
  · rw [act_floor, settle_waitQueue, h]
  · rw [act_floor, settle_dropped, h]
  · rw [act_floor, settle_rptWr, h]
  · rw [act_floor, settle_irqFlag, h]
  · refine keepsBytes_of others (fun a ha _ => ?_) fun a ha => .inl ha
    rw [act_floor, settle_store, h]
    exact cells a fun hs => ha (.inr hs)
  · rw [act_floor, settle_store, h]
    exact store
  · rw [act_floor, settle_station, stations, station_setStation_self]
    rfl

/-- The account of an entry changed by one request, and station `i`. -/
theorem changesToAnd_edit {c : Instr} {i : StationId} {s : State} {y : Station} {en : FundingEntry}
    {request : Account → Account} {change : Mode → Floor → Floor} (hc : exec c s = .next (s.unitStep change))
    (run : s.mode.run ≠ .clearing) (l4 : EnableLaw s)
    (h : change s.mode s.floor =
      (s.floor.onStation i fun _ => y).onStore (en.edit request)) :
    ChangesToAnd (fun p => en.named ∧ inAccount en.account p)
      (fun after => en.named →
        after.account en.account = edited (s.floor.store.account en.account) (request (s.floor.store.account en.account)))
      c i s y :=
  changesToAnd_of hc run l4 h (account_edit request _) fun _ ha => read_edit_outside request _ ha

theorem run_ne_clearing {e : Mode} {x : Station} (service : inService e x = true) : e.run ≠ .clearing := by
  intro clearing
  simp [inService, Mode.runs, clearing] at service

/-! ### Deliveries -/

theorem matchExit_eq (now : Time) (l : LineUnit) : l.matchExit now = l.paced now := by
  unfold LineUnit.matchExit LineUnit.paced
  cases matched : l.matched <;> simp [Config.max16]

theorem countRecovery_eq (x : Station) : x.countRecovery = x.recoveryCounted := by
  unfold Station.countRecovery Station.recoveryCounted
  rfl

/-- The SHOW of a delivery, as it stands at the station (R11, R124). -/
def Station.deliveryShow (x : Station) : TxFrame :=
  if x.context.role = .service then showOn 1 .service 0 x.context.totalDelivered
  else showOn 1 .remaining x.lastUnits x.context.totalDelivered

theorem showDelivery_eq (i : StationId) (f : Floor) : showDelivery i f = offer i (f.station i).deliveryShow f := by
  unfold showDelivery showRemaining Station.deliveryShow
  dsimp only
  split <;> rfl

/-- One more delivered makes the total one more. -/
theorem totalDelivered_deliver (cls : SheetClass) (c : Context) :
    (c.deliver cls).totalDelivered = c.delivered.toList.sum + 1 := by
  have sum_set : ∀ (l : List Nat) (k : Nat) (hk : k < l.length), (l.set k (l[k] + 1)).sum = l.sum + 1 := by
    intro l
    induction l with
    | nil => intro k hk; simp at hk
    | cons x l ih =>
      intro k hk
      cases k with
      | zero => simp only [List.getElem_cons_zero, List.set_cons_zero, List.sum_cons]; omega
      | succ k => simp only [List.getElem_cons_succ, List.set_cons_succ, List.sum_cons, ih k (by simpa using hk)]; omega
  have := sum_set c.delivered.toList cls.val (by simp)
  rwa [Vector.getElem_toList, ← Vector.toList_set (h := cls.isLt)] at this

/-- An EXIT in service that finds the path filled (R10, case 1). -/
theorem exitTaken_inPath {e : Mode} {i : StationId} {f : Floor} {s : Sheet} {rest : List Sheet}
    (service : inService e (f.station i) = true) (due : ExitDue true (f.station i))
    (path : (f.station i).line.inPath = s :: rest) :
    exitTaken i e f =
      (deliverSheet i s (f.onStation i fun _ =>
        { f.station i with line := { (f.station i).exited.paced e.partTime with inPath := rest } })).onStation i
        Station.recoveryCounted := by
  rw [exitTaken_due due, exitEvent_eq]
  simp only [service, if_true]
  rw [exitInService_inPath (s := s) (rest := rest) (by rw [station_onStation_self]; exact path)]
  unfold exitInPath
  dsimp only
  rw [onStation_onStation, onStation_congr (a := Station.countRecovery) _ i (countRecovery_eq _)]
  congr 2
  exact onStation_congr _ _ (by simp only [Station.onLine, matchExit_eq])

/-- Settles O40: the stray's delivery is one change of the station, and the recovery's count another. -/
theorem exitDeliversAStray : Obligations.ExitDeliversAStray := by
  unfold Obligations.ExitDeliversAStray
  intro i sheet rest s l4 service x due path stray
  refine changesTo_of (change := exitTaken i) rfl (run_ne_clearing service) l4 ?_
  rw [exitTaken_inPath service due path]
  unfold deliverSheet
  simp only [stray, onStation_onStation]
  rfl

/-- The SHOW of a delivery of a sheet of class `cls` (R11). -/
theorem deliveryShow_deliver (cls : SheetClass) (x : Station) :
    (x.onContext (Context.deliver cls)).deliveryShow =
      if x.context.role = .service then showOn 1 .service 0 ((x.context.delivered.toList.sum + 1 : Nat) : Int)
      else showOn 1 .remaining x.lastUnits ((x.context.delivered.toList.sum + 1 : Nat) : Int) := by
  rw [← totalDelivered_deliver cls x.context]
  rfl

/-- The delivery of a session's sheet: the request on the account it was charged to, and one change of its station (R11). -/
theorem deliverSheet_entry {i : StationId} {s : Sheet} {k : Fin 3} {en : FundingEntry} {f : Floor}
    (target : s.target = .entry k) (entry : (f.station i).context.funding[k.val]? = some en) :
    deliverSheet i s f = (f.onStation i fun x =>
        let y := x.onContext (Context.deliver s.cls)
        { y with link := y.link.offer y.deliveryShow }).onStore
      (en.edit fun a => (a.dropInFlight (facesOf s.cls)).addDelivered s.cls (facesOf s.cls)) := by
  unfold deliverSheet
  simp only [target]
  rw [onSheetAccount_entry _ target entry, onStore_onStation, showDelivery_eq, offer_eq, onStore_onStation,
    onStation_onStation]
  simp only [station_onStore, station_onStation_self]
  exact congrArg (fun g : Floor => g.onStore _) (onStation_congr _ _ rfl)

/-- Settles O41: the account's request leaves the station alone, and the station's changes compose into one. -/
theorem exitDeliversASessionSheet : Obligations.ExitDeliversASessionSheet := by
  unfold Obligations.ExitDeliversASessionSheet
  intro i sheet rest k entry s l4 service x faces a total named display due path target funding
  refine changesToAnd_edit (change := exitTaken i) (en := entry)
    (request := fun a => (a.dropInFlight (facesOf sheet.cls)).addDelivered sheet.cls (facesOf sheet.cls))
    rfl (run_ne_clearing service) l4 ?_
  rw [exitTaken_inPath service due path,
    deliverSheet_entry target (by rw [station_onStation_self]; exact funding), onStore_onStation, onStation_onStation,
    onStation_onStation]
  dsimp only
  rw [deliveryShow_deliver]
  rfl

end Sys2Proof.Machine
end

section
/-! PROOF. A tick: the part header's field of part time under the header edit count (R165, R181), and the samples of every station
(R1, R51, R57). -/

namespace Sys2Proof.Machine

open Sys2Proof
-- One proof after the other: proofs that wait for one another hold a thread each, and its memory.
set_option Elab.async false

/-! ### The part header -/

/-- An edit count that has been odd is even again (R134, R165). -/
theorem bracket_even (c : Half) : (bracket c).toNat % 2 = 0 := by
  have odd : (c ||| 1#16).toNat % 2 = 1 := by simp [BitVec.toNat_or]
  have small := (c ||| 1#16).isLt
  have sum : (bracket c).toNat = ((c ||| 1#16).toNat + 1) % 65536 := BitVec.toNat_add ..
  rw [sum]
  omega

theorem header_setHeader_self (m : Memory) {o n : Nat} (x : Nat) (h : o + n ≤ 128) :
    (m.setHeader o n x).header o n = x % 256 ^ n := by
  refine Memory.readLE_writeLE_self m _ n x fun k hk => ?_
  apply isCell_of_ranges <;> simp only [Config.headerBase, Config.storeBytes, Config.stationBase, Config.stationEnd] <;> omega

theorem header_setHeader_other (m : Memory) {o n o' n' : Nat} (x : Nat) (h : o' + n' ≤ o ∨ o + n ≤ o') :
    (m.setHeader o n x).header o' n' = m.header o' n' :=
  Memory.readLE_writeLE_outside m x (by simp only [Config.headerBase]; omega)

/-- A rewrite of the header leaves 0 in the bytes of no field (R181). -/
theorem read_clearReserved_inside (m : Memory) {a : Nat} (h : inHeaderRest a) : m.clearReserved.read a = 0 := by
  refine Memory.read_filter_drops m _ fun b => ?_
  have inside : Config.headerBase + 28 ≤ a ∧ a < Config.stationBase := h
  simp [inside]

theorem read_clearReserved_outside (m : Memory) {a : Nat} (h : ¬ inHeaderRest a) : m.clearReserved.read a = m.read a := by
  refine Memory.read_filter_keeps m _ fun b => ?_
  have outside : a < Config.headerBase + 28 ∨ Config.stationBase ≤ a := by
    simp only [inHeaderRest, inBytes, Config.headerBase] at h
    simp only [Config.headerBase, Config.stationBase]
    omega
  simpa using outside

theorem header_clearReserved (m : Memory) {o n : Nat} (h : o + n ≤ 28) : m.clearReserved.header o n = m.header o n := by
  refine Memory.readLE_congr n _ fun k _ hk => read_clearReserved_outside m ?_
  simp only [inHeaderRest, inBytes, Config.headerBase] at *
  omega

/-- A header edit that writes one field leaves the field as written, an even edit count, and 0 in the bytes of no field, and
changes no other byte (R165, R181). -/
theorem editHeader_field (m : Memory) {o n : Nat} (x : Nat) (low : 6 ≤ o) (high : o + n ≤ 28) :
    let after := m.editHeader fun h => h.setHeader o n x
    after.header o n = x % 256 ^ n ∧ after.header 4 2 % 2 = 0 ∧ (∀ a, inHeaderRest a → after.read a = 0) ∧
      ∀ a, ¬ inHeaderField 4 2 a → ¬ inHeaderField o n a → ¬ inHeaderRest a → after.read a = m.read a := by
  intro after
  refine ⟨?_, ?_, fun a rest => ?_, fun a count field rest => ?_⟩
  · simp only [after, Memory.editHeader]
    rw [header_setHeader_other _ _ (by omega), header_clearReserved _ high,
      header_setHeader_self _ _ (by omega)]
  · simp only [after, Memory.editHeader]
    rw [header_setHeader_self _ _ (by omega)]
    have even := bracket_even (BitVec.ofNat 16 (m.header 4 2))
    omega
  · simp only [inHeaderRest, inBytes, Config.headerBase] at rest
    exact (Memory.read_writeLE_outside _ _ (by simp only [Config.headerBase]; omega)).trans
      (read_clearReserved_inside _ (by simp only [inHeaderRest, inBytes, Config.headerBase]; omega))
  · have apart := read_clearReserved_outside (m.setHeader o n x) rest
    simp only [inHeaderField, inBytes, Config.headerBase] at count field
    exact (Memory.read_writeLE_outside _ _ (by simp only [Config.headerBase]; omega)).trans
      (apart.trans (Memory.read_writeLE_outside _ _ (by simp only [Config.headerBase]; omega)))

/-! ### The samples -/

/-- Sampled levels show in no byte of a record (11.7). -/
theorem sampleLevels_shownImage (x : Station) : x.sampleLevels.shownImage = x.shownImage := rfl

/-- The levels a sample of the copier lines leaves (R1). -/
theorem sample_eq (l : LineUnit) : l.sample =
    { l with
      samples := l.samples.drop 1
      feedHigh := l.comingSample.feed, exitHigh := l.comingSample.exit, faultHigh := l.comingSample.fault } := by
  unfold LineUnit.sample
  rw [nextSample_eq, List.drop_one]

/-- A station whose inputs have been sampled (R1, R51, R57). -/
theorem sampleInputs_eq (now : Time) (x : Station) : x.sampleInputs now =
    { x.sampleLevels.countSamples with link := x.busySampled now x.link.busyHigh } := by
  rw [← sampleBusy_eq]
  rfl

/-- What only changes a step's stations in bytes that no host reads keeps every byte. -/
theorem keepsBytes_of_images {f g : Floor} (store : g.store = f.store)
    (images : ∀ i, (g.station i).shownImage = (f.station i).shownImage) : KeepsBytes (fun _ => False) f g := by
  intro a _
  by_cases record : inRecords a
  · obtain ⟨i, o, ho, rfl⟩ := record_of_inRecords record
    rw [readByte_record g i ho, readByte_record f i ho, images]
  · rw [readByte_cell g record, readByte_cell f record, store]

/-- The header lies outside the station records (R164). -/
theorem not_inRecords_of_header {a : Nat} (h : inHeader a) : ¬ inRecords a := by
  simp only [inHeader, inBytes, inRecords, Config.headerBase, Config.stationBase, Config.stationEnd] at *
  omega

/-- Settles O24: in CLEARING the samples alone move; afterwards the header field and the samples of every station do. -/
theorem tickAdvancesPartTime : Obligations.TickAdvancesPartTime := by
  unfold Obligations.TickAdvancesPartTime
  intro s
  by_cases clearing : s.mode.run = .clearing
  · refine ⟨_, if_pos clearing, rfl, rfl, rfl, rfl, fun i => ?_, fun _ => ⟨rfl, keepsBytes_of_images rfl fun i => ?_⟩,
      fun h => absurd clearing h⟩
    · refine (station_map s.floor Station.sampleLevels i).trans ?_
      simp only [clearing, if_true]
      rw [Station.sampleLevels, sample_eq]
    · exact (congrArg Station.shownImage (station_map s.floor Station.sampleLevels i)).trans (sampleLevels_shownImage _)
  · obtain ⟨time, even, zero, keeps⟩ := editHeader_field s.floor.store (o := 12) (n := 4) (s.mode.partTime + 1).toNat
      (by omega) (by omega)
    refine ⟨_, if_neg clearing, rfl, rfl, rfl, rfl, fun i => ?_, fun h => absurd h clearing, fun _ => ⟨?_, even, ?_, ?_⟩⟩
    · dsimp only
      rw [if_neg clearing, become_floor, settle_station, station_map, sampleInputs_eq, if_neg clearing, if_neg clearing,
        if_neg clearing, if_neg clearing]
      simp only [Station.countSamples, Station.sampleLevels, sample_eq]
      rfl
    · refine time.trans ?_
      have one : (1 : Time).toNat = 1 := rfl
      rw [BitVec.toNat_add, one]
      omega
    · intro a outside
      simp only [not_or] at outside
      obtain ⟨record, count, field, rest⟩ := outside
      rw [readByte_cell _ record, readByte_cell _ record]
      exact keeps a count field rest
    · intro a rest
      have header : inHeader a := by
        simp only [inHeader, inHeaderRest, inBytes] at rest ⊢
        omega
      rw [readByte_cell _ (not_inRecords_of_header header)]
      exact zero a rest

end Sys2Proof.Machine
end

section
/-! PROOF. A FEED in service, cut into its parts: the sheet, what is noted before the charge, the charge, and the placement
(R3, R7, R8, R18, R27, R80; log 19). -/

namespace Sys2Proof.Machine

open Sys2Proof
-- One proof after the other: proofs that wait for one another hold a thread each, and its memory.
set_option Elab.async false

/-! ### The sheet -/

/-- A station after a FEED taken in service, before the charge and without the sheet in its path (R1, R4, R14, R32, R127). -/
abbrev Station.fedNoted (e : Mode) (m : Memory) (s : Sheet) (x : Station) : Station :=
  { x.fedInto e m s with line := { (x.fedInto e m s).line with inPath := x.line.inPath } }

/-- A FEED in RECOVERY moves the recovery start, and in no other state (R127). -/
theorem recoveryStart_eq (j : JamUnit) (state : StationState) (now : Time) :
    (if state = .recovery then { j with recoveryStart := now } else j) =
      { j with recoveryStart := if state = .recovery then now else j.recoveryStart } := by
  split <;> rfl

/-- A class fault is a class not sold, or one the station does not allow (R32). -/
theorem isClassFault_iff (m : Memory) (p : Page) (w : WorkingCopy) (c : SheetClass) :
    isClassFault m p w c = true ↔ ¬ (m.sold p c = true ∧ w.allows c = true) := by
  unfold isClassFault
  cases m.sold p c <;> cases w.allows c <;> decide

theorem noteFeed_fed (e : Mode) (i : StationId) (s : Sheet) (f : Floor) :
    noteFeed e i s.cls (f.onStation i fun _ => (f.station i).fed) =
      f.onStation i fun _ => (f.station i).fedNoted e f.store s := by
  unfold noteFeed
  rw [onStation_onStation]
  refine onStation_congr _ _ ?_
  dsimp only
  rw [recoveryStart_eq, if_congr (isClassFault_iff ..) rfl rfl, ite_not]
  rfl

/-- A station without a live session charges its FEED to the live tally (R7). -/
theorem feedEntry_none {c : Context} (live : c.condition ≠ .live) (ending : c.condition ≠ .ending) : c.feedEntry = none := by
  simp [Context.feedEntry, Context.hasLiveSession, live, ending]

/-- A live session charges its FEED to its last entry (R7, R80). -/
theorem feedEntry_last {c : Context} {before : List FundingEntry} {last : FundingEntry}
    (live : c.condition = .live ∨ c.condition = .ending) (funding : c.funding = before ++ [last]) :
    c.feedEntry = some last := by
  have session : c.hasLiveSession = true := by simpa [Context.hasLiveSession] using live
  rw [Context.feedEntry, if_pos session, Context.lastEntry, funding, List.getLast?_concat]

theorem sheetPrice_zero (m : Memory) (p : Page) (w : WorkingCopy) (c : SheetClass) :
    sheetPrice m p w c 0 = if m.sold p c = true then m.basePrice p c else w.fallback := by
  simp [sheetPrice, soldPrice]

theorem sheetOf_stray {e : Mode} {i : StationId} {f : Floor} (p q r : Bool)
    (entry : (f.station i).context.feedEntry = none) :
    sheetOf e i (readClass (f.station i).copy p q r) f = straySheet e f.store (f.station i) p q r := by
  unfold sheetOf
  simp only [entry, sheetPrice_zero]
  rfl

theorem sheetOf_session {e : Mode} {i : StationId} {f : Floor} {before : List FundingEntry} {last : FundingEntry}
    (p q r : Bool) (entry : (f.station i).context.feedEntry = some last)
    (funding : (f.station i).context.funding = before ++ [last]) :
    let k := readClass (f.station i).copy p q r
    sheetOf e i k f = fedSheet e (f.station i) p q r
      (sheetPrice f.store e.page (f.station i).copy k (chargeRate f.store e.page last)) (.entry (Fin.ofNat 3 before.length)) := by
  intro k
  have target : (f.station i).context.lastTarget = .entry (Fin.ofNat 3 before.length) := by
    rw [Context.lastTarget, funding, List.length_append]
    rfl
  unfold sheetOf
  simp only [entry, target]
  rfl

/-! ### The parts of a FEED in service -/

/-- A stray's FEED: noted, charged to the live tally, placed, and in STOPPING at an IDLE station the tally is closed for the stop
(R7, R8, R18, R19; log 19). -/
theorem feedTaken_stray {e : Mode} {i : StationId} {f : Floor} {p q r : Bool}
    (due : FeedDue true (f.station i)) (service : inService e (f.station i) = true)
    (live : (f.station i).context.condition ≠ .live) (ending : (f.station i).context.condition ≠ .ending) :
    let s := straySheet e f.store (f.station i) p q r
    let d := chargeStray e i s (f.onStation i fun _ => (f.station i).fedNoted e f.store s)
    feedTaken i p q r e f =
      if e.run = .stopping ∧ (f.station i).state = .idle then closeStray e i .stop (placeSheet e i s d)
      else placeSheet e i s d := by
  intro s d
  have entry := feedEntry_none live ending
  have sheet : sheetOf e i (readClass (f.station i).copy p q r) (f.onStation i fun _ => (f.station i).fed) = s := by
    have := sheetOf_stray (e := e) (i := i) (f := f.onStation i fun _ => (f.station i).fed) p q r
      (by rw [station_onStation_self]; exact entry)
    rwa [station_onStation_self] at this
  have charge : chargeSheet e i s (f.onStation i fun _ => (f.station i).fedNoted e f.store s) = d := by
    have none : ((f.station i).fedNoted e f.store s).context.feedEntry = none := entry
    unfold chargeSheet
    simp only [station_onStation_self, none]
    rfl
  rw [feedTaken_due due, feedEvent_inService service]
  unfold feedInService
  dsimp only
  rw [sheet, show readClass (f.station i).copy p q r = s.cls from rfl, noteFeed_fed, charge, station_onStation_self]
  refine if_congr ?_ rfl rfl
  simp only [s, straySheet, fedSheet, Bool.and_eq_true, beq_iff_eq, and_true]
  exact And.comm

/-- The floor after a session's FEED has been charged, before its funding check (R7, R9, R28, R80). -/
abbrev sessionFed (e : Mode) (i : StationId) (s : Sheet) (before : List FundingEntry) (last : FundingEntry) (f : Floor) : Floor :=
  let x := f.station i
  (f.onStation i fun _ => { x.fedNoted e f.store s with
    context := { x.context with
      funding := before ++ [{ last with committed := min (last.committed + s.price) 281474976710655 }]
      fed := x.context.fed + 1, lagFeeds := x.context.lagFeeds + if x.line.enable then 0 else 1 } }).onStore
    (last.edit fun a => { a with inFlight := BitVec.ofNat 32 (min (a.inFlight.toNat + facesOf s.cls) 4294967295) })

/-- The charge of a sheet of price `price` to the last entry (R9, R33, R80). -/
theorem charge_eq {c : Context} {before : List FundingEntry} {last : FundingEntry} (price : Nat) (enabled : Bool)
    (funding : c.funding = before ++ [last]) :
    c.charge price (!enabled) = { c with
      funding := before ++ [{ last with committed := min (last.committed + price) 281474976710655 }]
      fed := c.fed + 1, lagFeeds := c.lagFeeds + if enabled then 0 else 1 } := by
  have last_only : c.funding.modify (c.funding.length - 1)
        (fun en => { en with committed := satAdd Config.max48 en.committed price }) =
      before ++ [{ last with committed := min (last.committed + price) 281474976710655 }] := by
    rw [funding, List.length_append, List.length_singleton, Nat.add_sub_cancel]
    simp [List.modify_eq_set_getElem?, satAdd, Config.max48]
  unfold Context.charge Context.onLast
  rw [last_only]
  cases enabled <;> rfl

/-- What the charge of a session's sheet has made of the floor when the funding check begins (R7, R28, R80). -/
theorem chargeSession_eq {e : Mode} {i : StationId} {f : Floor} {s : Sheet} {before : List FundingEntry} {last : FundingEntry}
    (funding : (f.station i).context.funding = before ++ [last]) :
    chargeSession e i last s (f.onStation i fun _ => (f.station i).fedNoted e f.store s) =
      fundingCheck e i (sessionFed e i s before last f) := by
  unfold chargeSession
  dsimp only
  rw [station_onStation_self, onStore_named, onStore_onStation, onStation_onStation]
  refine congrArg (fun g : Floor => fundingCheck e i (g.onStore _)) (onStation_congr _ _ ?_)
  dsimp only [Station.onContext]
  exact congrArg (fun c => { (f.station i).fedNoted e f.store s with context := c })
    (charge_eq s.price (f.station i).line.enable funding)

/-- A session's FEED: noted, charged to the last entry, checked and placed (R7, R8, R80, R81; log 19). -/
theorem feedTaken_session {e : Mode} {i : StationId} {f : Floor} {p q r : Bool} {before : List FundingEntry}
    {last : FundingEntry} (due : FeedDue true (f.station i)) (service : inService e (f.station i) = true)
    (live : (f.station i).context.condition = .live ∨ (f.station i).context.condition = .ending)
    (funding : (f.station i).context.funding = before ++ [last]) :
    let k := readClass (f.station i).copy p q r
    let s := fedSheet e (f.station i) p q r
      (sheetPrice f.store e.page (f.station i).copy k (chargeRate f.store e.page last)) (.entry (Fin.ofNat 3 before.length))
    feedTaken i p q r e f = placeSheet e i s (fundingCheck e i (sessionFed e i s before last f)) := by
  intro k s
  have entry := feedEntry_last live funding
  have sheet : sheetOf e i k (f.onStation i fun _ => (f.station i).fed) = s := by
    have := sheetOf_session (e := e) (i := i) (f := f.onStation i fun _ => (f.station i).fed) (before := before) (last := last)
      p q r (by rw [station_onStation_self]; exact entry) (by rw [station_onStation_self]; exact funding)
    rwa [station_onStation_self] at this
  have charge : chargeSheet e i s (f.onStation i fun _ => (f.station i).fedNoted e f.store s) =
      fundingCheck e i (sessionFed e i s before last f) := by
    have some : ((f.station i).fedNoted e f.store s).context.feedEntry = some last := entry
    unfold chargeSheet
    simp only [station_onStation_self, some]
    exact chargeSession_eq funding
  have session : (s.target == .stray) = false := rfl
  rw [feedTaken_due due, feedEvent_inService service]
  unfold feedInService
  dsimp only
  rw [sheet, show readClass (f.station i).copy p q r = s.cls from rfl, noteFeed_fed, charge, session, Bool.and_false,
    if_neg Bool.false_ne_true]

/-! ### The placement -/

theorem placeSheet_room {e : Mode} {i : StationId} {s : Sheet} {f : Floor}
    (room : (f.station i).line.inPath.length < (f.station i).copy.pathDepth) :
    placeSheet e i s f = f.onStation i fun z => { z with line := { z.line with inPath := z.line.inPath ++ [s] } } :=
  if_pos room

theorem placeSheet_jammed {e : Mode} {i : StationId} {s : Sheet} {f : Floor}
    (full : ¬ (f.station i).line.inPath.length < (f.station i).copy.pathDepth) (jammed : (f.station i).state = .jammed) :
    placeSheet e i s f = loseSheet i s f := (if_neg full).trans (if_pos jammed)

theorem placeSheet_overfull {e : Mode} {i : StationId} {s : Sheet} {f : Floor}
    (full : ¬ (f.station i).line.inPath.length < (f.station i).copy.pathDepth) (free : (f.station i).state ≠ .jammed) :
    placeSheet e i s f = jamCause e i .overfull [s] f := (if_neg full).trans (if_neg free)

/-- A stray lost counts in the live tally alone (R18, R117). -/
theorem loseSheet_stray {i : StationId} {s : Sheet} (f : Floor) (stray : s.target = .stray) :
    loseSheet i s f = f.onStation i fun z =>
      { z with line := { z.line with live := { z.line.live with lost := min (z.line.live.lost + 1) 65535 } } } := by
  have account : onSheetAccount i s (·.dropInFlight (facesOf s.cls)) f = f := by
    unfold onSheetAccount Context.accountOf
    simp only [stray]
  have fate : (f.station i).fateOf s = .stray := by
    unfold Station.fateOf
    rw [stray]
  unfold loseSheet
  dsimp only
  rw [account, fate]
  exact onStation_congr _ _ rfl

/-! ### The charge of a stray -/

/-- The tallies are all of a station that the closing of the live tally changes. -/
theorem ClosesTally.station {e : Mode} {i : StationId} {cause : EndCause} {f g : Floor} (h : ClosesTally e i cause f g) :
    g.station i = (f.station i).withTallies (g.station i).line.live (g.station i).line.closed := by
  obtain ⟨_, floor, _⟩ := h
  have at_i := congrArg (fun g : Floor => g.station i) floor
  exact at_i.trans (station_setStation_self ..)

/-- The live tally with a stray fed (R18). -/
abbrev Station.strayTally (sheet : Sheet) (x : Station) : Tally :=
  { x.line.live with
    fed := min (x.line.live.fed + 1) 65535, price := min (x.line.live.price + sheet.price) 281474976710655 }

/-- The floor on which a stray's FEED has been noted and counted (R7, R18). -/
abbrev strayCounted (e : Mode) (i : StationId) (sheet : Sheet) (f : Floor) : Floor :=
  f.onStation i fun _ =>
    { (f.station i).fedInto e f.store sheet with
      line := { ((f.station i).fedInto e f.store sheet).line with
        inPath := (f.station i).line.inPath, live := (f.station i).strayTally sheet } }

theorem chargeStray_eq (e : Mode) (i : StationId) (sheet : Sheet) (f : Floor) :
    chargeStray e i sheet (f.onStation i fun _ => (f.station i).fedNoted e f.store sheet) =
      if 1000 ≤ ((f.station i).strayTally sheet).fed then closeStray e i .count (strayCounted e i sheet f)
      else strayCounted e i sheet f := by
  have counted : ((f.onStation i fun _ => (f.station i).fedNoted e f.store sheet).onStation i
      (Station.onLine fun l => { l with live := l.live.addFed sheet.price })) = strayCounted e i sheet f :=
    onStation_onStation ..
  unfold chargeStray
  rw [counted]
  dsimp only
  rw [station_onStation_self]
  rfl

/-- A stray's charge, as StrayCharged says it (R7, R18, R19). -/
theorem chargeStray_charged {s : State} {i : StationId} {sheet : Sheet} (offset : OffsetLaw s) :
    StrayCharged i sheet s
      (chargeStray s.mode i sheet (s.floor.onStation i fun _ => (s.floor.station i).fedNoted s.mode s.floor.store sheet)) := by
  rw [chargeStray_eq]
  unfold StrayCharged
  dsimp only
  by_cases full : 1000 ≤ ((s.floor.station i).strayTally sheet).fed
  · rw [if_pos full, if_pos full]
    exact closeStray_closesTally _ _ _ (strayCounted s.mode i sheet s.floor) ⟨offset.1, offset.2.1⟩
  · rw [if_neg full, if_neg full]

/-- The tallies are all of the station that a stray's charge changes after the FEED has been noted. -/
theorem StrayCharged.station {i : StationId} {sheet : Sheet} {s : State} {d : Floor} (h : StrayCharged i sheet s d) :
    d.station i = ((s.floor.station i).fedNoted s.mode s.floor.store sheet).withTallies
      (d.station i).line.live (d.station i).line.closed := by
  unfold StrayCharged at h
  dsimp only at h
  split at h
  · have tallies := h.station
    rw [station_onStation_self] at tallies
    exact tallies
  · rw [h, station_onStation_self]

end Sys2Proof.Machine
end

section
/-! PROOF. A FEED without a live session is a stray (R7, R8, R18, R19, R118). -/

namespace Sys2Proof.Machine

open Sys2Proof
-- One proof after the other: proofs that wait for one another hold a thread each, and its memory.
set_option Elab.async false

theorem inService_of_running {e : Mode} {x : Station} (run : e.run = .running) (state : x.state ≠ .out) :
    inService e x = true := by
  simp [inService, Mode.runs, run, state]

/-! ### The placement of a charged stray -/

/-- What a FEED leaves of the station that its placement looks at (R8). -/
theorem StrayCharged.placing {i : StationId} {sheet : Sheet} {s : State} {d : Floor} (h : StrayCharged i sheet s d) :
    (d.station i).line.inPath = (s.floor.station i).line.inPath ∧ (d.station i).copy = (s.floor.station i).copy ∧
      (d.station i).state = (s.floor.station i).state := by
  have all := h.station
  exact ⟨by rw [all], by rw [all]; rfl, by rw [all]; rfl⟩

/-- The write offset of a charged stray's floor is a good one (R176). -/
theorem goodOffset_chargeStray {s : State} (offset : OffsetLaw s) (i : StationId) (sheet : Sheet) :
    goodOffset (chargeStray s.mode i sheet
      (s.floor.onStation i fun _ => (s.floor.station i).fedNoted s.mode s.floor.store sheet)).rptWr := by
  have good : goodOffset s.floor.rptWr := ⟨offset.1, offset.2.1⟩
  rw [chargeStray_eq]
  split
  · exact (closeStray_step s.mode i .count (strayCounted s.mode i sheet s.floor)).offset good
  · exact good

theorem placeSheet_step (e : Mode) (i : StationId) (sheet : Sheet) (f : Floor) : FloorStep f (placeSheet e i sheet f) := by
  unfold placeSheet
  dsimp only
  split
  · exact onStation_step ..
  · split
    · exact loseSheet_step ..
    · exact jamCause_step ..

/-- A stray's FEED in full: charged, placed, and in STOPPING at an IDLE station the tally closed (R7, R8, R19, R118; log 19). -/
theorem strayFed {i : StationId} {p q r : Bool} {s : State} (offset : OffsetLaw s)
    (service : inService s.mode (s.floor.station i) = true) (due : FeedDue true (s.floor.station i))
    (live : (s.floor.station i).context.condition ≠ .live) (ending : (s.floor.station i).context.condition ≠ .ending) :
    let x := s.floor.station i
    let sheet := straySheet s.mode s.floor.store x p q r
    ∃ d h : Floor, StrayCharged i sheet s d ∧ goodOffset d.rptWr ∧
      (if s.mode.run = .stopping ∧ x.state = .idle then ClosesTally s.mode i .stop (placeSheet s.mode i sheet d) h
        else h = placeSheet s.mode i sheet d) ∧
      EndsWith (.feedEvent i p q r) s h := by
  intro x sheet
  have fed := feedTaken_stray (p := p) (q := q) (r := r) due service live ending
  dsimp only at fed
  have good := goodOffset_chargeStray offset i sheet
  have ends : EndsWith (.feedEvent i p q r) s (feedTaken i p q r s.mode s.floor) :=
    endsWith_of (change := feedTaken i p q r) rfl (run_ne_clearing service)
  rw [fed] at ends
  refine ⟨_, _, chargeStray_charged offset, good, ?_, ends⟩
  by_cases stop : s.mode.run = .stopping ∧ x.state = .idle
  · rw [if_pos stop, if_pos stop]
    exact closeStray_closesTally _ _ _ _ ((placeSheet_step ..).offset good)
  · rw [if_neg stop, if_neg stop]

/-- Where the sheet of a charged stray goes (R8, R118). -/
theorem strayPlaced {i : StationId} {sheet : Sheet} {s : State} {d : Floor}
    (service : inService s.mode (s.floor.station i) = true) (stray : sheet.target = .stray)
    (charged : StrayCharged i sheet s d) (good : goodOffset d.rptWr) :
    let x := s.floor.station i
    let g := placeSheet s.mode i sheet d
    if x.line.inPath.length < x.copy.pathDepth then
      g = d.onStation i fun z => { z with line := { z.line with inPath := x.line.inPath ++ [sheet] } }
    else if x.state = .jammed then
      g = d.onStation i fun z =>
        { z with line := { z.line with live := { z.line.live with lost := min (z.line.live.lost + 1) 65535 } } }
    else JamDeclared s.mode i .overfull [sheet] d g := by
  obtain ⟨path, copy, state⟩ := charged.placing
  intro x g
  by_cases room : x.line.inPath.length < x.copy.pathDepth
  · rw [if_pos room]
    rw [← copy, ← path] at room
    exact (placeSheet_room room).trans (onStation_congr _ _ (by rw [path]))
  · rw [if_neg room]
    rw [← copy, ← path] at room
    by_cases jammed : x.state = .jammed
    · rw [if_pos jammed]
      exact (placeSheet_jammed room (state.trans jammed)).trans (loseSheet_stray d stray)
    · rw [if_neg jammed]
      have free : (d.station i).state ≠ .jammed := fun h => jammed (state.symm.trans h)
      have inside : inService s.mode (d.station i) = true := by
        unfold inService at service ⊢
        rw [state]
        exact service
      rw [show g = jamCause s.mode i .overfull [sheet] d from placeSheet_overfull room free]
      exact jamCause_declares _ _ _ _ _ good inside free

/-! ### A stray below the tally's limit -/

/-- In RUNNING a stray below the limit is counted, priced and placed (R8, R18). -/
theorem feedTaken_fewStrays {e : Mode} {i : StationId} {f : Floor} {p q r : Bool} (run : e.run = .running)
    (due : FeedDue true (f.station i)) (state : (f.station i).state ≠ .out)
    (live : (f.station i).context.condition ≠ .live) (ending : (f.station i).context.condition ≠ .ending)
    (few : (f.station i).line.live.fed < 999) :
    let sheet := straySheet e f.store (f.station i) p q r
    feedTaken i p q r e f = placeSheet e i sheet (strayCounted e i sheet f) := by
  intro sheet
  have under : ¬ 1000 ≤ min ((f.station i).line.live.fed + 1) 65535 := by omega
  rw [feedTaken_stray due (inService_of_running run state) live ending, chargeStray_eq, if_neg under,
    if_neg (by simp [run])]

/-! ### The stray that closes the tally -/

/-- A station whose live tally has moved to its closed tally (R19). -/
abbrev Station.tallyMoved (now : Time) (cause : EndCause) (x : Station) : Station :=
  x.withTallies .zero { tally := x.line.live, house := x.copy.house, waiting := true, time := now, cause := cause }

/-- A live tally that moves to the closed tally is written with room and waits without (R19, R178). -/
theorem closeStray_cases (e : Mode) (i : StationId) (cause : EndCause) (f : Floor)
    (fed : (f.station i).line.live.fed ≠ 0) (waiting : (f.station i).line.closed.waiting = false) :
    closeStray e i cause f =
      if f.waitQueue = [] ∧ roomNeeded f.rptWr 96 ≤ freeRoom f.rptWr e.rptRd then
        writeStray e i (f.onStation i (Station.tallyMoved e.partTime cause))
      else (f.onStation i (Station.tallyMoved e.partTime cause)).enqueue (.stray i) := by
  have same : (f.onStation i fun x => { x with line := x.line.closeTally x.copy.house e.partTime cause }) =
      f.onStation i (Station.tallyMoved e.partTime cause) :=
    onStation_congr _ _ (by rw [closeTally_new _ _ _ waiting])
  unfold closeStray
  dsimp only
  rw [if_neg fed, if_neg (by simp [waiting]), same]
  exact if_congr (mayWrite_iff e (f.onStation i (Station.tallyMoved e.partTime cause)) 96) rfl rfl

/-- A stray settlement changes the report's place and the account it names alone (R153, R158, R176). -/
theorem read_writeStray {e : Mode} {i : StationId} {f : Floor} {n : Nat}
    (named : houseOrZero f.store (f.station i).line.closed.house = n) {p : Nat} (report : ¬ inReport f.rptWr 96 p)
    (account : ¬ inAccount n p) : (writeStray e i f).store.read p = f.store.read p := by
  have size : 8 + layoutSize (strayBody f.store (f.station i).line.closed) = 96 := by rw [strayBody_size]
  have outside : p < accountAddr n ∨ accountAddr n + 64 ≤ p := by
    simp only [inAccount, inBytes] at account
    omega
  rw [writeStray_store, named, Memory.read_bracketAccount_outside _ _ outside]
  exact read_writeReport_outside (by rw [size]; exact report)

/-- The account a stray settlement is charged to is one of the table (R153). -/
theorem houseOrZero_lt (m : Memory) {house : Nat} (h : house < 1024) : houseOrZero m house < 1024 := by
  unfold houseOrZero
  split <;> omega

/-- What the closing of a tally that does not wait yet leaves without room (R19, R178). -/
theorem closeStray_waits {e : Mode} {i : StationId} {cause : EndCause} {f : Floor} (fed : (f.station i).line.live.fed ≠ 0)
    (waiting : (f.station i).line.closed.waiting = false)
    (full : ¬ (f.waitQueue = [] ∧ roomNeeded f.rptWr 96 ≤ freeRoom f.rptWr e.rptRd)) :
    let g := closeStray e i cause f
    g.store = f.store ∧ g.waitQueue = f.waitQueue ++ [.stray i] ∧
      g.station i = (f.station i).tallyMoved e.partTime cause := by
  intro g
  rw [show g = _ from closeStray_cases e i cause f fed waiting, if_neg full]
  exact ⟨rfl, rfl, by rw [station_enqueue, station_onStation_self]⟩

/-- What the closing of a tally leaves with room: the settlement written, the house account charged, and no tally (R19, R153, R158). -/
theorem closeStray_written {e : Mode} {i : StationId} {cause : EndCause} {f : Floor} (good : goodOffset f.rptWr)
    (fed : (f.station i).line.live.fed ≠ 0) (waiting : (f.station i).line.closed.waiting = false)
    (house : (f.station i).copy.house < 1024)
    (room : f.waitQueue = [] ∧ roomNeeded f.rptWr 96 ≤ freeRoom f.rptWr e.rptRd) :
    let g := closeStray e i cause f
    let n := houseOrZero f.store (f.station i).copy.house
    g.waitQueue = [] ∧ g.station i = (f.station i).withTallies .zero .zero ∧ g.rptWr = offsetAfter f.rptWr 96 ∧
      g.irqFlag = f.irqFlag ||| IrqFlag.report.mask ∧
      ReportHeaderAt g.store (reportPlace f.rptWr 96) 96 .settlement (i.val + 1) e.partTime ∧
      g.store.account n = (f.store.account n).charged (((f.station i).line.live.price + 500) / 1000) ∧
      ∀ p, ¬ inReport f.rptWr 96 p → ¬ inAccount n p → g.store.read p = f.store.read p := by
  intro g n
  rw [show g = _ from closeStray_cases e i cause f fed waiting, if_pos room]
  generalize moved : f.onStation i (Station.tallyMoved e.partTime cause) = w
  have self : w.station i = (f.station i).tallyMoved e.partTime cause := by rw [← moved, station_onStation_self]
  have named : houseOrZero w.store (w.station i).line.closed.house = n := by rw [self, ← moved]; rfl
  have offset : w.rptWr = f.rptWr := by rw [← moved]; rfl
  have store : w.store = f.store := by rw [← moved]; rfl
  obtain ⟨header, charged, -⟩ := writeStray_leaves (e := e) named (by rw [← moved]; exact decide_eq_true room.2)
    (by rw [offset]; exact good)
  refine ⟨?_, ?_, ?_, ?_, ?_, ?_, fun p report account => ?_⟩
  · rw [writeStray_waitQueue, ← moved]
    exact room.1
  · rw [writeStray_station_self, self]
  · rw [writeStray_rptWr, offset]
  · rw [writeStray_irqFlag, ← moved]
    rfl
  · rw [← offset]
    exact header
  · rw [charged (houseOrZero_lt _ house), store, self]
  · rw [read_writeStray named (by rw [offset]; exact report) account, store]

/-- In RUNNING the stray that makes the live tally 1,000 closes it, and is placed in a path with room (R8, R19). -/
theorem feedTaken_lastStray {e : Mode} {i : StationId} {f : Floor} {p q r : Bool} (good : goodOffset f.rptWr)
    (run : e.run = .running)
    (due : FeedDue true (f.station i)) (state : (f.station i).state ≠ .out)
    (live : (f.station i).context.condition ≠ .live) (ending : (f.station i).context.condition ≠ .ending)
    (place : (f.station i).line.inPath.length < (f.station i).copy.pathDepth) (full : (f.station i).line.live.fed = 999) :
    let sheet := straySheet e f.store (f.station i) p q r
    feedTaken i p q r e f = (closeStray e i .count (strayCounted e i sheet f)).onStation i fun z =>
      { z with line := { z.line with inPath := z.line.inPath ++ [sheet] } } := by
  intro sheet
  have reached : 1000 ≤ min ((f.station i).line.live.fed + 1) 65535 := by omega
  have kept := (closeStray_closesTally e i .count (strayCounted e i sheet f) good).station
  rw [station_onStation_self] at kept
  rw [feedTaken_stray due (inService_of_running run state) live ending, chargeStray_eq, if_pos reached,
    if_neg (by simp [run]), placeSheet_room (by rw [kept]; exact place)]

/-- The stray that makes the live tally 1,000, in RUNNING and with a path that takes it: the tally closed and the sheet placed
(R8, R19, R153, R158, R178). -/
theorem strayClosesTally {i : StationId} {p q r : Bool} {s : State} (l4 : EnableLaw s) (offset : OffsetLaw s)
    (run : s.mode.run = .running) :
    let x := s.floor.station i
    let y := fun t : State => t.floor.station i
    let wr := s.floor.rptWr
    let room := s.floor.waitQueue = [] ∧ roomNeeded wr 96 ≤ freeRoom wr s.mode.rptRd
    FeedDue true x → x.state ≠ .out → x.context.condition ≠ .live → x.context.condition ≠ .ending →
    x.line.inPath.length < x.copy.pathDepth → x.line.live.fed = 999 → x.line.closed.waiting = false → x.copy.house < 1024 →
    ∃ t price, exec (.feedEvent i p q r) s = .next t ∧
      (y t).line.inPath.map Sheet.price = x.line.inPath.map Sheet.price ++ [price] ∧ (y t).line.live = .zero ∧
      (∀ j, j ≠ i → t.floor.station j = s.floor.station j) ∧
      (¬ room → t.floor.store = s.floor.store ∧ t.floor.waitQueue = s.floor.waitQueue ++ [.stray i] ∧
        (y t).line.closed =
          { tally := { x.line.live with fed := 1000, price := min (x.line.live.price + price) 281474976710655 }
            house := x.copy.house, waiting := true, time := s.mode.partTime, cause := .count }) ∧
      (room → t.floor.waitQueue = [] ∧ (y t).line.closed = .zero ∧ t.floor.rptWr = offsetAfter wr 96 ∧
        t.floor.flag .report = true ∧
        ReportHeaderAt t.floor.store (reportPlace wr 96) 96 .settlement (i.val + 1) s.mode.partTime ∧
        let n := houseOrZero s.floor.store x.copy.house
        let units : Nat := (min (x.line.live.price + price) 281474976710655 + 500) / 1000
        t.floor.store.account n = (s.floor.store.account n).charged units ∧
        KeepsBytes (fun p => inRecord i p ∨ inAccount n p ∨ inReport wr 96 p) s.floor t.floor) := by
  intro x y wr room due state live ending place full waiting house
  let sheet := straySheet s.mode s.floor.store x p q r
  let f := strayCounted s.mode i sheet s.floor
  let d := closeStray s.mode i .count f
  have self : f.station i = { x.fedNoted s.mode s.floor.store sheet with
      line := { (x.fedNoted s.mode s.floor.store sheet).line with
        live := { x.line.live with fed := 1000, price := min (x.line.live.price + sheet.price) 281474976710655 } } } := by
    have tally : x.strayTally sheet =
        { x.line.live with fed := 1000, price := min (x.line.live.price + sheet.price) 281474976710655 } := by
      unfold Station.strayTally
      rw [full]
      rfl
    rw [← tally]
    exact station_onStation_self ..
  have good : goodOffset f.rptWr := ⟨offset.1, offset.2.1⟩
  have floor : feedTaken i p q r s.mode s.floor =
      d.onStation i fun z => { z with line := { z.line with inPath := z.line.inPath ++ [sheet] } } :=
    feedTaken_lastStray good run due state live ending place full
  have kept : d.station i = (f.station i).withTallies (d.station i).line.live (d.station i).line.closed :=
    (closeStray_closesTally s.mode i .count f good).station
  have others : KeepsOthers i s.floor (s.act (feedTaken i p q r)).floor := fun j hj => by
    refine settle_same ?_ (l4 j)
    rw [floor, station_onStation_other _ _ _ _ hj]
    exact (closeStray_others _ _ _ _ j hj).trans (station_onStation_other _ _ _ _ hj)
  have fed : (f.station i).line.live.fed ≠ 0 := by rw [self]; exact Nat.succ_ne_zero 999
  have fresh : (f.station i).line.closed.waiting = false := by rw [self]; exact waiting
  have line : ((s.act (feedTaken i p q r)).floor.station i).line.inPath = x.line.inPath ++ [sheet] ∧
      ((s.act (feedTaken i p q r)).floor.station i).line.live = (d.station i).line.live ∧
      ((s.act (feedTaken i p q r)).floor.station i).line.closed = (d.station i).line.closed := by
    rw [act_floor, settle_station, settleRecord_line, driveEnable_inPath, driveEnable_live, driveEnable_closed, floor,
      station_onStation_self]
    exact ⟨by rw [kept, self], rfl, rfl⟩
  obtain ⟨path, tally, closed⟩ := line
  refine ⟨s.act (feedTaken i p q r), sheet.price, ?_, ?_, ?_, others, fun noRoom => ?_, fun hasRoom => ?_⟩
  · exact congrArg Host.Outcome.next (unitStep_act (feedTaken i p q r) (by simp [run]))
  · rw [path, List.map_append]
    rfl
  · rw [tally]
    by_cases r : room
    · rw [(closeStray_written good fed fresh (by rw [self]; exact house) r).2.1]
    · rw [(closeStray_waits fed fresh r).2.2]
  · obtain ⟨store, queue, station⟩ := closeStray_waits fed fresh (cause := .count) (e := s.mode) noRoom
    refine ⟨?_, ?_, ?_⟩
    · rw [act_floor, settle_store, floor, onStation_store]
      exact store
    · rw [act_floor, settle_waitQueue, floor, onStation_waitQueue]
      exact queue
    · rw [closed, station, self]
      rfl
  · obtain ⟨queue, station, wr', flags, header, account, cells⟩ :=
      closeStray_written good fed fresh (cause := .count) (e := s.mode) (by rw [self]; exact house) hasRoom
    have copy : (f.station i).copy = x.copy := by rw [self]; rfl
    have store : (s.act (feedTaken i p q r)).floor.store = d.store := by
      rw [act_floor, settle_store, floor, onStation_store]
    rw [copy] at account cells
    refine ⟨?_, ?_, ?_, ?_, ?_, ?_, ?_⟩
    · rw [act_floor, settle_waitQueue, floor, onStation_waitQueue]
      exact queue
    · rw [closed, station]
    · rw [act_floor, settle_rptWr, floor, onStation_rptWr]
      exact wr'
    · rw [act_floor, Floor.flag, settle_irqFlag, floor, onStation_irqFlag, show d.irqFlag = _ from flags]
      simp [IrqFlag.mask, IrqFlag.place]
    · rw [store]
      exact header
    · rw [store]
      rw [self] at account
      exact account
    · refine keepsBytes_of others (fun a outside _ => ?_) fun a record => .inl record
      rw [store]
      exact cells a (fun h => outside (.inr (.inr h))) fun h => outside (.inr (.inl h))

/-- Settles O38: the parts of the FEED compose, and the tally's closing is the shared one. -/
theorem feedMakesAStray : Obligations.FeedMakesAStray := by
  unfold Obligations.FeedMakesAStray
  refine ⟨?_, ?_, ?_⟩
  · intro i p q r s l4 run x m k price sheet tally y due state live ending few
    have notClearing : s.mode.run ≠ .clearing := by simp [run]
    have counted : x.strayTally sheet = tally := by
      have small : min (x.line.live.fed + 1) 65535 = x.line.live.fed + 1 := by omega
      unfold Station.strayTally
      rw [small]
      rfl
    refine ⟨fun room => ?_, fun full jammed => ?_⟩
    · refine changesTo_of (change := feedTaken i p q r) rfl notClearing l4 ?_
      rw [feedTaken_fewStrays run due state live ending few,
        placeSheet_room (by rw [station_onStation_self]; exact room), onStation_onStation, ← counted]
      rfl
    · refine changesTo_of (change := feedTaken i p q r) rfl notClearing l4 ?_
      rw [feedTaken_fewStrays run due state live ending few,
        placeSheet_jammed (by rw [station_onStation_self]; exact Nat.not_lt.mpr full) (by rw [station_onStation_self]; exact jammed),
        loseSheet_stray _ rfl, onStation_onStation, ← counted]
      rfl
  · intro i p q r s l4 offset run x y wr room due state live ending place full waiting house
    exact strayClosesTally l4 offset run due state live ending place full waiting house
  · intro i p q r s l4 offset service x sheet due live ending
    obtain ⟨d, h, charged, good, stop, ends⟩ := strayFed (p := p) (q := q) (r := r) offset service due live ending
    exact ⟨d, _, h, charged, strayPlaced service rfl charged good, stop, ends⟩

end Sys2Proof.Machine
end

section
/-! PROOF. What a funding check leaves of its station (R81 to R85), and the checks that change nothing. -/

namespace Sys2Proof.Machine

open Sys2Proof
-- One proof after the other: proofs that wait for one another hold a thread each, and its memory.
set_option Elab.async false

/-! ### Requests that close nothing -/

/-- Every account record has an even edit count (R134). -/
def EvenCounts (m : Memory) : Prop := ∀ n, n < 1024 → isOdd (m.account n).editCount = false

theorem closeAccount_even {m : Memory} (n : Nat) (even : EvenCounts m) : m.closeAccount n = m := by
  unfold Memory.closeAccount
  dsimp only
  by_cases hn : n < 1024
  · rw [if_neg (by simp [even n hn])]
  · split
    · exact if_neg hn
    · rfl

theorem closeAccounts_even {f : Floor} (accounts : List Nat) (even : EvenCounts f.store) : closeAccounts accounts f = f := by
  have same : accounts.foldl Memory.closeAccount f.store = f.store := by
    induction accounts with
    | nil => rfl
    | cons n rest ih => rw [List.foldl_cons, closeAccount_even n even, ih]
  unfold closeAccounts Floor.onStore
  dsimp only
  rw [same]

/-- One whole request leaves every edit count even (R134). -/
theorem EvenCounts.edit {m : Memory} (even : EvenCounts m) (en : FundingEntry) (change : Account → Account) :
    EvenCounts (en.edit change m) := by
  intro n hn
  unfold FundingEntry.edit
  split
  · next named =>
    by_cases same : n = en.account
    · rw [same, Memory.account_editAccount_self m change named.2]
      split
      · exact even _ named.2
      · have bracketed := bracket_even (m.account en.account).editCount
        simpa [isOdd, BitVec.getLsbD, Nat.testBit_zero] using bracketed
    · rw [Memory.account_editAccount_other m change same]
      exact even n hn
  · exact even n hn

/-! ### The parts of a check -/

/-- A station with another funding list. -/
abbrev Station.withFunding (l : List FundingEntry) (x : Station) : Station := { x with context := { x.context with funding := l } }

/-- A station whose LOW session has funds again (R84). -/
abbrev Station.lowEnded (x : Station) : Station :=
  { x with
    state := .opened, lowStart := none
    link := x.link.offer (showOn 1 .remaining x.lastUnits x.context.totalDelivered) }

/-- A station that has entered LOW, but for the increment it asks for (R83, R126). -/
abbrev Station.lowEntered (now : Time) (x : Station) : Station :=
  { x with
    state := .low, lowStart := some now
    jam := { x.jam with lost := if x.state = .recovery then [] else x.jam.lost }
    link := x.link.offer (showOn 1 .lowFunds x.lastUnits x.holdNeed) }

theorem topUp_station (i : StationId) (f : Floor) : ∃ l, (topUp i f).station i = (f.station i).withFunding l := by
  unfold topUp
  dsimp only
  split
  · exact ⟨_, station_onStation_self ..⟩
  · exact ⟨_, rfl⟩

theorem spillTo_station (i : StationId) (slot account : Nat) (f : Floor) :
    ∃ l, (spillTo i slot account f).station i = (f.station i).withFunding l := ⟨_, station_onStation_self ..⟩

/-- A funding request changes the funding list of its station alone (R82). -/
theorem fundingSteps_station (i : StationId) (spills : Nat) (f : Floor) :
    ∃ l, (fundingSteps i spills f).station i = (f.station i).withFunding l := by
  induction spills generalizing f with
  | zero => exact topUp_station i f
  | succ n ih =>
    obtain ⟨l, top⟩ := topUp_station i f
    simp only [fundingSteps]
    split
    · exact ⟨l, top⟩
    · split
      · exact ⟨l, top⟩
      · split
        · next slot account _ =>
          obtain ⟨k, spill⟩ := spillTo_station i slot account (topUp i f)
          obtain ⟨r, rest⟩ := ih (spillTo i slot account (topUp i f))
          exact ⟨r, by rw [rest, spill, top]⟩
        · exact ⟨l, top⟩

theorem writeAuth_station (e : Mode) (i : StationId) (f : Floor) :
    ∃ a, (writeAuth e i f).station i = { f.station i with auth := a } := by
  unfold writeAuth
  split
  · exact ⟨_, rfl⟩
  · exact ⟨_, by rw [station_onStation_self, station_writeReport]⟩

theorem produceAuth_station (e : Mode) (i : StationId) (kind : AuthKind) (amount : Nat) (f : Floor) :
    ∃ a, (produceAuth e i kind amount f).station i = { f.station i with auth := a } := by
  have next : ∀ g : Floor, ∃ a,
      (if mayWrite e g 32 then writeAuth e i g else g.enqueue (.auth i)).station i = { g.station i with auth := a } := by
    intro g
    split
    · exact writeAuth_station e i g
    · exact ⟨_, station_enqueue ..⟩
  unfold produceAuth
  obtain ⟨a, asked⟩ := next (f.onStation i _)
  exact ⟨a, asked.trans (by rw [station_onStation_self])⟩

theorem wantAuth_station (e : Mode) (i : StationId) (kind : AuthKind) (amount : Nat) (f : Floor) :
    ∃ a, (wantAuth e i kind amount f).station i = { f.station i with auth := a } := by
  unfold wantAuth
  split
  · exact ⟨_, station_onStation_self ..⟩
  · exact produceAuth_station ..

/-- Asking for an increment changes the authorization unit of its station alone (R85). -/
theorem askIncrement_station (e : Mode) (i : StationId) (f : Floor) :
    ∃ a, (askIncrement e i f).station i = { f.station i with auth := a } := by
  unfold askIncrement
  dsimp only
  split
  · split
    · exact wantAuth_station ..
    · exact ⟨_, rfl⟩
  · exact ⟨_, rfl⟩

theorem enterLow_station (e : Mode) (i : StationId) (f : Floor) :
    ∃ a, (enterLow e i f).station i = { (f.station i).lowEntered e.partTime with auth := a } := by
  have lost : ∀ x : Station, { (if x.state = .recovery then x.finaliseLost else x) with state := .low } =
      { x with state := .low, jam := { x.jam with lost := if x.state = .recovery then [] else x.jam.lost } } := by
    intro x
    split <;> rfl
  unfold enterLow
  dsimp only
  obtain ⟨a, asked⟩ := askIncrement_station e i _
  refine ⟨a, asked.trans ?_⟩
  rw [station_onStation_self, station_stationNotice, offer_eq, station_onStation_self, station_onStation_self, lost]
  rfl

theorem checkPassed_station (i : StationId) (f : Floor) :
    (checkPassed i f).station i = if (f.station i).state = .low then (f.station i).lowEnded else f.station i := by
  unfold checkPassed showRemaining
  split
  · rw [offer_eq, station_onStation_self, station_onStation_self]
    rfl
  · rfl

theorem checkFailed_station (e : Mode) (i : StationId) (f : Floor) :
    ∃ a, (checkFailed e i f).station i =
      { (if (f.station i).state = .low then f.station i else (f.station i).lowEntered e.partTime) with auth := a } := by
  unfold checkFailed
  split
  · exact askIncrement_station ..
  · exact enterLow_station ..

/-! ### The check -/

/-- What a check leaves of a station whose request has left its funding list at `l` (R81, R83, R84). -/
def Station.judged (now : Time) (l : List FundingEntry) (a : Auth) (x : Station) : Station :=
  let z := x.withFunding l
  if z.fundsPass then if x.state = .low then z.lowEnded else z
  else { (if x.state = .low then z else z.lowEntered now) with auth := a }

/-- What a funding check leaves of its station (R81 to R85). -/
theorem fundingCheck_station (e : Mode) (i : StationId) (f : Floor) :
    let x := f.station i
    let y := (fundingCheck e i f).station i
    (x.state.checksFunds = false → y = x) ∧ (x.state.checksFunds = true → ∃ l a, y = x.judged e.partTime l a) := by
  intro x y
  have closed : y = (fundingCheckOpen e i f).station i := rfl
  rw [closed]
  unfold fundingCheckOpen
  dsimp only
  refine ⟨fun none => by rw [if_neg (by simp [x] at none; simp [none])], fun checks => ?_⟩
  rw [if_pos checks]
  obtain ⟨l, request⟩ : ∃ l, (if !x.fundsPass && x.context.lastIs .account then fundingSteps i 2 f else f).station i =
      x.withFunding l := by
    split
    · exact fundingSteps_station i 2 f
    · exact ⟨_, rfl⟩
  generalize (if !x.fundsPass && x.context.lastIs .account then fundingSteps i 2 f else f) = g at *
  by_cases pass : (g.station i).fundsPass = true
  · refine ⟨l, x.auth, ?_⟩
    rw [if_pos pass, checkPassed_station]
    rw [request] at pass ⊢
    unfold Station.judged
    rw [if_pos pass]
  · obtain ⟨a, failed⟩ := checkFailed_station e i g
    refine ⟨l, a, ?_⟩
    rw [if_neg pass, failed]
    rw [request] at pass ⊢
    unfold Station.judged
    rw [if_neg pass]

/-- A check that is not made, or that finds the guard met outside LOW, changes nothing (R81). -/
theorem fundingCheck_quiet {e : Mode} {i : StationId} {f : Floor} (even : EvenCounts f.store)
    (state : (f.station i).state ≠ .low)
    (quiet : ((f.station i).state ≠ .opened ∧ (f.station i).state ≠ .recovery) ∨ (f.station i).fundsPass = true) :
    fundingCheck e i f = f := by
  have same : fundingCheckOpen e i f = f := by
    unfold fundingCheckOpen
    dsimp only
    split
    · next checks =>
      have pass : (f.station i).fundsPass = true := by
        refine quiet.resolve_left fun out => ?_
        simp [StationState.checksFunds, state, out.1, out.2] at checks
      simp only [pass, Bool.not_true, Bool.false_and, Bool.false_eq_true, if_false, if_true, checkPassed, state]
    · rfl
  unfold fundingCheck
  rw [same]
  exact closeAccounts_even _ even

end Sys2Proof.Machine
end

section
/-! PROOF. A FEED at a station with a live session is charged to the last funding entry (R7, R9, R27, R28, R80, R81, R117, R118). -/

namespace Sys2Proof.Machine

open Sys2Proof
-- One proof after the other: proofs that wait for one another hold a thread each, and its memory.
set_option Elab.async false

/-! ### What the funding check keeps of a station -/

/-- A funding check leaves the line unit and the working copy of its station alone. -/
theorem fundingCheck_line (e : Mode) (i : StationId) (f : Floor) :
    ((fundingCheck e i f).station i).line = (f.station i).line ∧ ((fundingCheck e i f).station i).copy = (f.station i).copy := by
  obtain ⟨none, checked⟩ := fundingCheck_station e i f
  cases checks : (f.station i).state.checksFunds with
  | false => rw [none checks]; exact ⟨rfl, rfl⟩
  | true =>
    obtain ⟨l, a, judged⟩ := checked checks
    rw [judged, Station.judged]
    dsimp only
    split
    · split <;> exact ⟨rfl, rfl⟩
    · split <;> exact ⟨rfl, rfl⟩

/-- The edit counts are even while the part runs (R134). -/
theorem EvenLaw.evenCounts {s : State} (even : EvenLaw s) (run : s.mode.run = .running ∨ s.mode.run = .stopping) :
    EvenCounts s.floor.store := even (by rcases run with h | h <;> simp [Mode.runs, h])

theorem inService_of_runs {e : Mode} {x : Station} (run : e.run = .running ∨ e.run = .stopping) (state : x.state ≠ .out) :
    inService e x = true := by
  rcases run with h | h <;> simp [inService, Mode.runs, h, state]

/-! ### Lost at feed -/

/-- The effect of a lost sheet of a session's last entry on the session (R117). -/
theorem lose_last {c : Context} {before : List FundingEntry} {last : FundingEntry} {sheet : Sheet} (few : before.length < 3)
    (funding : c.funding = before ++ [last]) (target : sheet.target = .entry (Fin.ofNat 3 before.length)) (credit : Bool) :
    c.lose sheet (if credit then .credited else .charged) = { c with
      funding := before ++ [if credit then { last with committed := last.committed - sheet.price } else last]
      lostCredited := c.lostCredited + bit credit, lostCharged := c.lostCharged + bit !credit } := by
  have place : (Fin.ofNat 3 before.length).val = before.length := Nat.mod_eq_of_lt few
  cases credit with
  | false =>
    unfold Context.lose
    simp only [Bool.false_eq_true, if_false, ← funding]
    rfl
  | true =>
    have only : c.funding.modify before.length (fun en => { en with committed := en.committed - sheet.price }) =
        before ++ [{ last with committed := last.committed - sheet.price }] := by
      rw [funding]
      simp [List.modify_eq_set_getElem?]
    unfold Context.lose Context.onEntry
    simp only [if_true, target, place, only]
    rfl

/-- A session's sheet lost at feed: its faces leave the account of the last entry, and the session is credited as far as the credit
cap allows, and else stays charged (R117, R118). -/
theorem loseSheet_last {i : StationId} {sheet : Sheet} {f : Floor} {before : List FundingEntry} {last : FundingEntry}
    (few : before.length < 3) (funding : (f.station i).context.funding = before ++ [last])
    (target : sheet.target = .entry (Fin.ofNat 3 before.length)) :
    let x := f.station i
    let credit := decide (x.context.lostCredited < x.copy.creditCap)
    loseSheet i sheet f = (f.onStation i fun _ => { x with context := { x.context with
        funding := before ++ [if credit then { last with committed := last.committed - sheet.price } else last]
        lostCredited := x.context.lostCredited + bit credit, lostCharged := x.context.lostCharged + bit !credit } }).onStore
      (last.edit (·.dropInFlight (facesOf sheet.cls))) := by
  intro x credit
  have fate : x.fateOf sheet = if credit then .credited else .charged := by
    unfold Station.fateOf
    simp only [target, credit, decide_eq_true_eq]
  have notStray : (if credit then Fate.credited else .charged) ≠ .stray := by cases credit <;> decide
  have entry : x.context.funding[(Fin.ofNat 3 before.length).val]? = some last := by
    rw [show (Fin.ofNat 3 before.length).val = before.length from Nat.mod_eq_of_lt few, funding, List.getElem?_concat_length]
  unfold loseSheet
  dsimp only
  rw [onSheetAccount_entry _ target entry, onStore_onStation, fate]
  simp only [if_neg notStray]
  exact congrArg (fun g : Floor => g.onStore _) (onStation_congr _ _ (by rw [lose_last few funding target credit]))

/-- When the funds of a session's last entry meet the guard (R81). -/
theorem fundsPass_iff {x : Station} {before : List FundingEntry} {last : FundingEntry}
    (funding : x.context.funding = before ++ [last]) :
    x.fundsPass = true ↔ x.context.role = .service ∨ (x.guardValue : Int) ≤ (last.hold : Int) * 1000 - last.committed := by
  unfold Station.fundsPass Station.meetsGuard Context.lastEntry
  rw [funding, List.getLast?_concat, Bool.or_eq_true, beq_iff_eq]
  exact or_congr_right decide_eq_true_iff

/-- A request leaves its change in the record, under some edit count (R134). -/
theorem edited_eq (old new : Account) : ∃ c, edited old new = { new with editCount := c } := by
  unfold edited
  split
  · next same => exact ⟨new.editCount, same.symm⟩
  · exact ⟨_, rfl⟩

/-- Settles O39: the FEED's parts compose; the check is quiet where it is not made or finds the guard met, and a sheet lost at feed
is one more change of the station and of the account. -/
theorem feedIsChargedToTheSession : Obligations.FeedIsChargedToTheSession := by
  unfold Obligations.FeedIsChargedToTheSession
  intro i p q r before last s l4 even run x m k a rate base price charged sheet named flight y due state live funding
  have service : inService s.mode (s.floor.station i) = true := inService_of_runs run state
  have notClearing := run_ne_clearing service
  have fed : feedTaken i p q r s.mode s.floor =
      placeSheet s.mode i sheet (fundingCheck s.mode i (sessionFed s.mode i sheet before last s.floor)) :=
    feedTaken_session due service live funding
  have counts : EvenCounts (sessionFed s.mode i sheet before last s.floor).store := (even.evenCounts run).edit _ _
  have self : (sessionFed s.mode i sheet before last s.floor).station i =
      { y with line := { y.line with inPath := x.line.inPath } } := by
    rw [station_onStore, station_onStation_self]
    rfl
  refine ⟨fun low room quiet => ?_, fun checks room => ?_, fun jammed few full => ?_⟩
  · refine changesToAnd_edit (change := feedTaken i p q r) (en := last)
      (request := fun a => { a with inFlight := BitVec.ofNat 32 (min (a.inFlight.toNat + facesOf k) 4294967295) })
      rfl notClearing l4 ?_
    have none : fundingCheck s.mode i (sessionFed s.mode i sheet before last s.floor) =
        sessionFed s.mode i sheet before last s.floor := by
      refine fundingCheck_quiet counts (by rw [self]; exact low) (quiet.imp (by rw [self]; exact id) fun pass => ?_)
      exact (fundsPass_iff (last := charged) (before := before) (by rw [self])).mpr (by rw [self]; exact pass)
    rw [fed, none, placeSheet_room (by rw [self]; exact room), onStore_onStation, onStation_onStation]
    rfl
  · intro fedFloor checked
    have same : sessionFed s.mode i sheet before last s.floor = fedFloor := rfl
    obtain ⟨line, copy⟩ := fundingCheck_line s.mode i (sessionFed s.mode i sheet before last s.floor)
    rw [self] at line copy
    rw [same] at fed line copy
    have placed : feedTaken i p q r s.mode s.floor = checked.onStation i fun z =>
        { z with line := { z.line with inPath := z.line.inPath ++ [sheet] } } := by
      rw [fed, placeSheet_room (by rw [line, copy]; exact room)]
    refine ⟨s.act (feedTaken i p q r), congrArg Host.Outcome.next (unitStep_act _ notClearing), ⟨rfl, rfl, rfl⟩, ?_, ?_, ?_⟩
    · rw [act_floor, placed]
      rfl
    · intro j hj
      refine settle_same ?_ (l4 j)
      rw [placed, station_onStation_other _ _ _ _ hj]
      exact ((fundingCheck_at s.mode i fedFloor).others j hj).trans (station_setStation_other s.floor i j _ hj)
    · intro z
      rw [act_floor, settle_station, placed, station_onStation_self, show (checked.station i).line.inPath = _ from
        congrArg LineUnit.inPath line]
      rfl
  · intro credit
    have place : (Fin.ofNat 3 before.length).val = before.length := Nat.mod_eq_of_lt few
    have none : fundingCheck s.mode i (sessionFed s.mode i sheet before last s.floor) =
        sessionFed s.mode i sheet before last s.floor := by
      have stays : y.state = .jammed := jammed
      exact fundingCheck_quiet counts (by rw [self]; simp [stays]) (.inl (by rw [self]; simp [stays]))
    have lost := loseSheet_last (i := i) (sheet := sheet) (f := sessionFed s.mode i sheet before last s.floor) (last := charged)
      few (by rw [self]) rfl
    dsimp only at lost
    rw [self, onStore_onStation, onStation_onStation] at lost
    refine changesToAnd_of (change := feedTaken i p q r)
      (m := last.edit (·.dropInFlight (facesOf k)) (last.edit (fun a => { a with inFlight := BitVec.ofNat 32 flight }) m))
      rfl notClearing l4 ?_ (fun named => ?_) fun p outside => ?_
    · rw [fed, none, placeSheet_jammed (by rw [self]; exact Nat.not_lt.mpr full) (by rw [self]; exact jammed), lost]
      rfl
    · obtain ⟨c₁, first⟩ := edited_eq a { a with inFlight := BitVec.ofNat 32 flight }
      dsimp only
      rw [account_edit _ _ named, account_edit _ _ named, first]
      obtain ⟨c₂, second⟩ := edited_eq { a with inFlight := BitVec.ofNat 32 flight, editCount := c₁ }
        (({ a with inFlight := BitVec.ofNat 32 flight, editCount := c₁ } : Account).dropInFlight (facesOf k))
      have small : (BitVec.ofNat 32 flight).toNat = flight := Nat.mod_eq_of_lt (by omega)
      rw [second]
      simp only [Account.dropInFlight, small]
      rfl
    · rw [read_edit_outside _ _ outside, read_edit_outside _ _ outside]

end Sys2Proof.Machine
end

section
/-! PROOF. What declares a jam (R115), from the declaration itself. -/

namespace Sys2Proof.Machine

open Sys2Proof
-- One proof after the other: proofs that wait for one another hold a thread each, and its memory.
set_option Elab.async false

/-- A declared jam leaves its station JAMMED (R116). -/
theorem JamDeclared.jammed {e : Mode} {i : StationId} {cause : JamCause} {extra : List Sheet} {f g : Floor}
    (h : JamDeclared e i cause extra f g) : (g.station i).state = .jammed := by
  obtain ⟨_, station, _⟩ := h
  rw [station]

/-- A JAMMED station ends its step with ENABLE inactive (R16). -/
theorem EndsWith.disabled {c : Instr} {s t : State} {g : Floor} {i : StationId} (h : EndsWith c s g)
    (jammed : (g.station i).state = .jammed) (next : exec c s = .next t) : (t.floor.station i).line.enable = false := by
  obtain ⟨t', next', -, -, stations⟩ := h
  cases next.symm.trans next'
  rw [stations i, finished, settleRecord_line, driveEnable_enable, Station.mayFeed, jammed]
  simp

/-- A funding check leaves its station's state, or puts it in OPEN or LOW (R81). -/
theorem fundingCheck_state (e : Mode) (i : StationId) (f : Floor) :
    let y := (fundingCheck e i f).station i
    y.state = (f.station i).state ∨ y.state = .opened ∨ y.state = .low := by
  intro y
  obtain ⟨none, checked⟩ := fundingCheck_station e i f
  cases checks : (f.station i).state.checksFunds with
  | false => exact .inl (by rw [show y = _ from none checks])
  | true =>
    obtain ⟨l, a, judged⟩ := checked checks
    rw [show y = _ from judged, Station.judged]
    dsimp only
    split
    · split
      · exact .inr (.inl rfl)
      · exact .inl rfl
    · split
      · exact .inl rfl
      · exact .inr (.inr rfl)

theorem inService_congr {e : Mode} {x y : Station} (service : inService e x = true) (state : y.state ≠ .out) :
    inService e y = true := by
  unfold inService at service ⊢
  simp_all

/-- A path whose oldest sheet is older than the transit limit (R15). -/
theorem overdue_of {now : Time} {x : Station} {oldest : Sheet} {rest : List Sheet} (path : x.line.inPath = oldest :: rest)
    (late : x.copy.transitLimit < elapsed now oldest.feedTime) : x.overdue now = true := by
  unfold Station.overdue
  simp only [path, decide_eq_true_eq]
  exact late

/-- Settles O43: each cause reaches the jam unit on the floor stated, and the declaration is the shared one. -/
theorem jamIsDeclared : Obligations.JamIsDeclared := by
  unfold Obligations.JamIsDeclared
  intro i s l4 offset even service x m ends free
  have run := run_ne_clearing service
  have good : goodOffset s.floor.rptWr := ⟨offset.1, offset.2.1⟩
  have disabled : ∀ c g, EndsWith c s g → (g.station i).state = .jammed → ends c g :=
    fun c g h jammed => ⟨h, fun t next => h.disabled jammed next⟩
  refine ⟨fun due => ?_, fun oldest rest path late => ?_, fun due full p q r => ⟨fun live ending => ?_, ?_⟩⟩
  · have declares := jamCause_declares s.mode i .copier [] (s.floor.onStation i fun _ => x.takeFaultLevel true) good
      (by rw [station_onStation_self]; exact service) (by rw [station_onStation_self]; exact free)
    have finish := endsWith_of (c := .faultChange i true) (s := s) (change := faultTaken i true) rfl run
    rw [faultTaken_due due, faultEvent_active service] at finish
    exact ⟨_, disabled _ _ finish declares.jammed, declares⟩
  · have declares := jamCause_declares s.mode i .transit [] s.floor good service free
    have finish := endsWith_of (c := .transitCheck i) (s := s) (change := transitDue i) rfl run
    rw [transitDue, if_pos (overdue_of path late)] at finish
    exact ⟨_, disabled _ _ finish declares.jammed, declares⟩
  · intro sheet
    obtain ⟨d, h, charged, goodD, stop, finish⟩ := strayFed (p := p) (q := q) (r := r) offset service due live ending
    have placed := strayPlaced service rfl charged goodD
    rw [if_neg (Nat.not_lt.mpr full), if_neg free] at placed
    have jammed : (h.station i).state = .jammed := by
      split at stop
      · rw [stop.station]
        exact placed.jammed
      · rw [stop]
        exact placed.jammed
    exact ⟨d, _, h, charged, placed, stop, disabled _ _ finish jammed⟩
  · intro before last live funding few k price sheet named noted fed checked
    have fed_eq : sessionFed s.mode i sheet before last s.floor = fed := rfl
    have taken : feedTaken i p q r s.mode s.floor = placeSheet s.mode i sheet checked :=
      feedTaken_session due service live funding
    have self : fed.station i = { noted with
        line := { noted.line with inPath := x.line.inPath }
        context := { x.context with
          funding := before ++ [{ last with committed := min (last.committed + price) 281474976710655 }]
          fed := x.context.fed + 1, lagFeeds := x.context.lagFeeds + if x.line.enable then 0 else 1 } } :=
      station_setStation_self ..
    refine ⟨fun low quiet => ?_, ?_⟩
    · have running : s.mode.runs = true := by
        unfold inService at service
        exact (Bool.and_eq_true_iff.mp service).1
      have counts : EvenCounts fed.store := EvenCounts.edit (even running) last _
      exact fundingCheck_quiet counts (by rw [self]; exact low) (quiet.imp_left (by rw [self]; exact id))
    · obtain ⟨line, copy⟩ := fundingCheck_line s.mode i fed
      have state := fundingCheck_state s.mode i fed
      rw [self] at line copy state
      have notOut : x.state ≠ .out := by
        unfold inService at service
        simpa using (Bool.and_eq_true_iff.mp service).2
      have inside : (checked.station i).state ≠ .out ∧ (checked.station i).state ≠ .jammed := by
        rcases state with same | opened | low
        · rw [same]
          exact ⟨notOut, free⟩
        · rw [opened]
          exact ⟨by decide, by decide⟩
        · rw [low]
          exact ⟨by decide, by decide⟩
      have declares := jamCause_declares s.mode i .overfull [sheet] checked ((fundingCheck_step ..).offset good)
        (inService_congr service inside.1) inside.2
      have finish := endsWith_of (c := .feedEvent i p q r) (s := s) (change := feedTaken i p q r) rfl run
      rw [taken, placeSheet_overfull (by rw [line, copy]; exact Nat.not_lt.mpr full) inside.2] at finish
      exact ⟨_, disabled _ _ finish declares.jammed, declares⟩

end Sys2Proof.Machine
end

section
/-! PROOF. An EXIT with an empty path in JAMMED or RECOVERY delivers the oldest lost sheet late (R10, R124, R125), and a re-charge is
checked (R81, R83, R126). -/

namespace Sys2Proof.Machine

open Sys2Proof
-- One proof after the other: proofs that wait for one another hold a thread each, and its memory.
set_option Elab.async false

/-- A station whose oldest lost sheet an EXIT has matched (R10, R13). -/
abbrev Station.lateMatched (now : Time) (rest : List LostSheet) (x : Station) : Station :=
  { x with jam := { x.jam with lost := rest }, line := x.exited.paced now }

/-- An EXIT in service that finds an empty path and a lost sheet to match (R10, case 2). -/
theorem exitTaken_late {e : Mode} {i : StationId} {f : Floor} {l : LostSheet} {rest : List LostSheet}
    (service : inService e (f.station i) = true) (due : ExitDue true (f.station i))
    (state : (f.station i).state = .jammed ∨ (f.station i).state = .recovery) (path : (f.station i).line.inPath = [])
    (lost : (f.station i).jam.lost = l :: rest) :
    exitTaken i e f = deliverLate e i l (f.onStation i fun _ => (f.station i).lateMatched e.partTime rest) := by
  rw [exitTaken_due due, exitEvent_eq]
  simp only [service, if_true]
  rw [exitInService_late (l := l) (rest := rest) (by rw [station_onStation_self]; exact path)
    (by rw [station_onStation_self]; exact lost) (by rw [station_onStation_self]; exact state)]
  unfold exitLate
  dsimp only
  rw [onStation_onStation]
  exact congrArg (deliverLate e i l) (onStation_congr _ _ (by simp only [Station.onLine, Station.onJam, matchExit_eq]))

/-- A late delivery's effect on a session's context, with the sheet counted delivered (R124). -/
theorem recover_deliver {c : Context} {l : LostSheet} {k : Fin 3} {entry : FundingEntry} (session : l.fate ≠ .stray)
    (target : l.sheet.target = .entry k) (found : c.funding[k.val]? = some entry) :
    (c.recover l).deliver l.sheet.cls = { c with
      funding := if l.fate = Fate.credited then
          c.funding.set k.val { entry with committed := min (entry.committed + l.sheet.price) 281474976710655 }
        else c.funding
      delivered := c.delivered.set l.sheet.cls (c.delivered[l.sheet.cls] + 1)
      lostCredited := if l.fate = Fate.credited then c.lostCredited - 1 else c.lostCredited
      lostCharged := if l.fate = Fate.charged then c.lostCharged - 1 else c.lostCharged } := by
  have again : c.funding.modify k.val (fun en => { en with committed := satAdd Config.max48 en.committed l.sheet.price }) =
      c.funding.set k.val { entry with committed := min (entry.committed + l.sheet.price) 281474976710655 } := by
    rw [List.modify_eq_set_getElem?, found]
    rfl
  cases fate : l.fate with
  | stray => exact absurd fate session
  | credited =>
    unfold Context.recover Context.onEntry
    simp only [fate, target, again]
    rfl
  | charged =>
    unfold Context.recover
    simp only [fate, target]
    rfl

/-- The late delivery of a session's sheet: the request on its account, one change of its station, and after a credit in RECOVERY
the funding check (R81, R124). -/
theorem deliverLate_session {e : Mode} {i : StationId} {l : LostSheet} {k : Fin 3} {entry : FundingEntry} {f : Floor}
    (session : l.fate ≠ .stray) (target : l.sheet.target = .entry k)
    (found : (f.station i).context.funding[k.val]? = some entry) :
    let y := (f.station i).onContext fun c => (c.recover l).deliver l.sheet.cls
    let g := (f.onStation i fun _ => { y with link := y.link.offer y.deliveryShow }).onStore
      (entry.edit fun a => a.addDelivered l.sheet.cls (facesOf l.sheet.cls))
    deliverLate e i l f = if l.fate = .credited ∧ y.state = .recovery then fundingCheck e i g else g := by
  intro y g
  have shown : showDelivery i ((onSheetAccount i l.sheet (·.addDelivered l.sheet.cls (facesOf l.sheet.cls)) f).onStation i
      (Station.onContext fun c => (c.recover l).deliver l.sheet.cls)) = g := by
    rw [onSheetAccount_entry _ target found, onStore_onStation, showDelivery_eq, offer_eq, onStore_onStation,
      onStation_onStation]
    simp only [station_onStore, station_onStation_self]
    exact congrArg (fun g : Floor => g.onStore _) (onStation_congr _ _ rfl)
  have state : (g.station i).state = y.state := by rw [station_onStore, station_onStation_self]
  cases fate : l.fate with
  | stray => exact absurd fate session
  | credited =>
    unfold deliverLate
    simp only [fate, shown, state]
  | charged =>
    unfold deliverLate
    simp only [fate, shown, state]

/-- What a funding check in RECOVERY leaves (R81, R83, R126). -/
theorem fundingCheck_recovery {e : Mode} {i : StationId} {f : Floor} (state : (f.station i).state = .recovery) :
    let z := (fundingCheck e i f).station i
    (z.fundsPass = true → z.state = .recovery ∧ z.jam.lost = (f.station i).jam.lost) ∧
      (z.fundsPass = false → z.state = .low ∧ z.jam.lost = [] ∧ z.lowStart = some e.partTime) := by
  intro z
  obtain ⟨l, a, judged⟩ := (fundingCheck_station e i f).2 (by rw [state]; rfl)
  rw [show z = _ from judged, Station.judged]
  have notLow : (f.station i).state ≠ .low := by rw [state]; decide
  dsimp only
  rw [if_neg notLow, if_neg notLow]
  split
  · next pass => exact ⟨fun _ => ⟨state, rfl⟩, fun fail => by rw [pass] at fail; cases fail⟩
  · next fail =>
    refine ⟨fun pass => absurd pass fail, fun _ => ⟨rfl, ?_, rfl⟩⟩
    dsimp only
    rw [if_pos state]

/-- Settles O42: the late delivery is a request on the account and one change of the station, and its check the shared one. -/
theorem exitDeliversALostSheet : Obligations.ExitDeliversALostSheet := by
  unfold Obligations.ExitDeliversALostSheet
  intro i lost rest s l4 even service x sheet faces total jam line due state path list
  have run := run_ne_clearing service
  have taken := exitTaken_late service due state path list
  refine ⟨fun stray => ?_, ?_⟩
  · refine changesTo_of (change := exitTaken i) rfl run l4 ?_
    rw [taken]
    unfold deliverLate
    simp only [stray, onStation_onStation]
    rfl
  · intro k entry session target found a named again funding y display counted
    let g := (s.floor.onStation i fun _ => { y with link := x.link.offer display }).onStore (entry.edit counted)
    have recovered : (x.lateMatched s.mode.partTime rest).onContext (fun c => (c.recover lost).deliver sheet.cls) = y :=
      congrArg (fun c => { x.lateMatched s.mode.partTime rest with context := c }) (recover_deliver session target found)
    have shown : y.deliveryShow = display := by
      have sum : y.context.totalDelivered = total := totalDelivered_deliver sheet.cls x.context
      unfold Station.deliveryShow
      rw [sum]
    have work : exitTaken i s.mode s.floor =
        if lost.fate = .credited ∧ x.state = .recovery then fundingCheck s.mode i g else g := by
      have late := deliverLate_session (e := s.mode) (f := s.floor.onStation i fun _ => x.lateMatched s.mode.partTime rest)
        session target (by rw [station_onStation_self]; exact found)
      rw [taken]
      dsimp only at late
      rw [station_onStation_self, recovered, shown, onStation_onStation] at late
      exact late
    have self : g.station i = { y with link := x.link.offer display } := by rw [station_onStore, station_onStation_self]
    refine ⟨fun quiet => ?_, fun credited recovery => ?_⟩
    · refine changesToAnd_edit (change := exitTaken i) (en := entry) (request := counted) rfl run l4 ?_
      rw [work]
      split
      · next check =>
        have running : s.mode.runs = true := by
          unfold inService at service
          exact (Bool.and_eq_true_iff.mp service).1
        refine fundingCheck_quiet (EvenCounts.edit (even running) entry counted) ?_ (.inr ?_)
        · rw [self]
          exact fun low => by cases check.2.symm.trans low
        · rw [self]
          exact quiet check.1 check.2
      · rfl
    · intro late checked z
      have finish := endsWith_of (c := .exitEvent i) (s := s) (change := exitTaken i) rfl run
      rw [work, if_pos ⟨credited, recovery⟩] at finish
      have outcome := fundingCheck_recovery (e := s.mode) (i := i) (f := g) (by rw [self]; exact recovery)
      rw [self] at outcome
      exact ⟨finish, outcome⟩

end Sys2Proof.Machine
end

section
/-! PROOF. The report stream behind the write offset (R176), the application of a session settlement to the accounts (R155, R156),
and the closes of accounts left without holders (R144, R157; log 48). -/

namespace Sys2Proof.Machine

open Sys2Proof
-- One proof after the other: proofs that wait for one another hold a thread each, and its memory.
set_option Elab.async false

/-! ### The stream behind the write offset -/

/-- Whether an address holds a byte of the stream between the read offset and the write offset (R176). -/
def Behind (rd wr p : Nat) : Prop :=
  inStream p ∧ (p - Config.streamBase + 8192 - rd) % 8192 < usedBytes wr rd

/-- A report that fits takes its room behind the new write offset (R176). -/
theorem freeRoom_offsetAfter {rd wr len : Nat} (good : goodOffset wr) (read : rd < 8192)
    (fit : roomNeeded wr len ≤ freeRoom wr rd) :
    freeRoom (offsetAfter wr len) rd = freeRoom wr rd - roomNeeded wr len ∧
      usedBytes (offsetAfter wr len) rd = usedBytes wr rd + roomNeeded wr len := by
  have place := placement wr len
  simp only [goodOffset, freeRoom, roomNeeded, usedBytes, Config.streamBytes] at *
  omega

/-- A report that fits is written over nothing behind the write offset (R176). -/
theorem not_inReport_of_behind {rd wr len p : Nat} (good : goodOffset wr) (read : rd < 8192)
    (fit : roomNeeded wr len ≤ freeRoom wr rd) (behind : Behind rd wr p) : ¬ inReport wr len p := by
  have place := placement wr len
  simp only [Behind, inReport, inBytes, inStream, reportPlace, goodOffset, freeRoom, roomNeeded, usedBytes,
    Config.streamBytes, Config.streamBase] at *
  split <;> omega

/-- A report that fits comes to stand behind the write offset, with all that stood there (R176). -/
theorem behind_offsetAfter {rd wr len p : Nat} (good : goodOffset wr) (read : rd < 8192)
    (fit : roomNeeded wr len ≤ freeRoom wr rd) (stands : Behind rd wr p ∨ inBytes (reportPlace wr len) len p) :
    Behind rd (offsetAfter wr len) p := by
  have used := (freeRoom_offsetAfter good read fit).2
  have place := placement wr len
  unfold Behind
  rw [used]
  simp only [Behind, inBytes, inStream, reportPlace, goodOffset, freeRoom, roomNeeded, usedBytes, Config.streamBytes,
    Config.streamBase] at *
  split at stands <;> omega

/-! ### The application of the blocks -/

/-- The store after one block (R156). -/
def Memory.applyEntry (m : Memory) (en : FundingEntry) : Memory :=
  if en.namesAccount then m.bracketAccount en.account (·.settle (settledAmount en.committed) en.hold) else m

theorem applyBlock_eq (f : Floor) (en : FundingEntry) : applyBlock f en = f.onStore fun m => m.applyEntry en := by
  unfold applyBlock Memory.applyEntry
  split <;> rfl

theorem foldl_applyBlock (funding : List FundingEntry) (f : Floor) :
    funding.foldl applyBlock f = f.onStore fun m => funding.foldl Memory.applyEntry m := by
  induction funding generalizing f with
  | nil => rfl
  | cons en rest ih => rw [List.foldl_cons, applyBlock_eq, ih]; rfl

/-- An account after one block, in the fields a settlement may change (R156). -/
theorem settle_charged (a : Account) (units hold : Nat) :
    { a.settle units hold with editCount := bracket a.editCount } =
      { a.charged units with held := a.held - BitVec.ofNat 32 hold, holders := a.holders - 1 } := by
  rw [← spend_charged]
  rfl

theorem account_applyEntry (m : Memory) (en : FundingEntry) {n : Nat} (hn : n < 1024) :
    (m.applyEntry en).account n = settledBy [en] n (m.account n) := by
  unfold Memory.applyEntry settledBy
  simp only [List.foldl_cons, List.foldl_nil]
  by_cases names : en.namesAccount = true
  · have kind := (namesAccount_iff en).mp names
    rw [if_pos names]
    by_cases same : en.account = n
    · rw [if_pos ⟨kind, same⟩, same, Memory.account_bracketAccount_self _ _ hn]
      exact settle_charged _ _ _
    · rw [if_neg (fun h => same h.2), Memory.account_bracketAccount_other _ _ fun h => same h.symm]
  · rw [if_neg names, if_neg fun h => names ((namesAccount_iff en).mpr h.1)]

/-- Every account of the table after the blocks of a settlement (R156). -/
theorem account_applyEntries (funding : List FundingEntry) (m : Memory) {n : Nat} (hn : n < 1024) :
    (funding.foldl Memory.applyEntry m).account n = settledBy funding n (m.account n) := by
  induction funding generalizing m with
  | nil => rfl
  | cons en rest ih =>
    rw [List.foldl_cons, ih, account_applyEntry m en hn]
    rfl

/-- The blocks change the accounts they name alone (R156). -/
theorem read_applyEntries (funding : List FundingEntry) (m : Memory) {p : Nat}
    (outside : ∀ en ∈ funding, (en.kind = .account ∨ en.kind = .house) → en.account < 1024 → ¬ inAccount en.account p) :
    (funding.foldl Memory.applyEntry m).read p = m.read p := by
  induction funding generalizing m with
  | nil => rfl
  | cons en rest ih =>
    rw [List.foldl_cons, ih _ fun en' h => outside en' (List.mem_cons_of_mem _ h)]
    unfold Memory.applyEntry
    split
    · next names =>
      by_cases number : en.account < 1024
      · have apart := outside en List.mem_cons_self ((namesAccount_iff en).mp names) number
        refine Memory.read_bracketAccount_outside _ _ ?_
        simp only [inAccount, inBytes] at apart
        omega
      · rw [bracketAccount_none _ _ number]
    · rfl

/-- A settlement leaves an account's state code (R156). -/
theorem settledBy_state (funding : List FundingEntry) (n : Nat) (a : Account) : (settledBy funding n a).state = a.state := by
  unfold settledBy
  induction funding generalizing a with
  | nil => rfl
  | cons en rest ih =>
    rw [List.foldl_cons, ih]
    split <;> rfl

end Sys2Proof.Machine
end

section
/-! PROOF. The closes that a settlement's release leads to, in the order of its funding list (R144, R157, R178; log 48). -/

namespace Sys2Proof.Machine

open Sys2Proof
-- One proof after the other: proofs that wait for one another hold a thread each, and its memory.
set_option Elab.async false

/-! ### One close -/

/-- An account record zeroed in every field but the edit count (R144). -/
def Account.Zeroed (b : Account) : Prop :=
  b = { state := 0, kind := 0, tier := false, overdrawn := false, holders := 0, editCount := b.editCount, balance := 0
        limit := 0, held := 0, inFlight := 0, delivered := 0, money := 0, faces := .replicate 8 0 }

theorem zeroed_edited (a : Account) : (edited a a.freed).Zeroed := by
  obtain ⟨c, eq⟩ := edited_eq a a.freed
  rw [eq]
  rfl

theorem ClosedReportAt.congr {m m' : Memory} {p n : Nat} {a : Account} {now : Time} (h : ClosedReportAt m p n a now)
    (same : ∀ q, inBytes p 64 q → m'.read q = m.read q) : ClosedReportAt m' p n a now := by
  obtain ⟨header, number, balance⟩ := h
  have field : ∀ o k, o + k ≤ 64 → m'.readLE (p + o) k = m.readLE (p + o) k := fun o k ho =>
    Memory.readLE_congr k _ fun q _ _ => same q ⟨by omega, by omega⟩
  exact ⟨header.congr fun k hk => same _ ⟨by omega, by omega⟩, (field 8 2 (by omega)).trans number,
    (field 12 4 (by omega)).trans balance⟩

/-- What a close that fits leaves (R144, R176). -/
theorem writeClose_leaves {e : Mode} {n : Nat} {f : Floor} (read : e.rptRd < 8192) (good : goodOffset f.rptWr)
    (fit : roomNeeded f.rptWr 64 ≤ freeRoom f.rptWr e.rptRd) (hn : n < 1024) :
    let g := writeClose e n true f
    g = { f with store := g.store, rptWr := offsetAfter f.rptWr 64, irqFlag := f.irqFlag ||| 2 } ∧
      ClosedReportAt g.store (reportPlace f.rptWr 64) n (f.store.account n) e.partTime ∧
      (g.store.account n).Zeroed ∧ (∀ k, k < 1024 → k ≠ n → g.store.account k = f.store.account k) ∧
      (∀ p, ¬ inStream p → ¬ inAccount n p → g.store.read p = f.store.read p) ∧
      ∀ p, Behind e.rptRd f.rptWr p → g.store.read p = f.store.read p := by
  intro g
  have size : 8 + layoutSize (closedBody n true (f.store.account n)) = 64 := by rw [closedBody_size]
  have fitBody : fits e f (8 + layoutSize (closedBody n true (f.store.account n))) = true := by
    rw [size]
    exact decide_eq_true fit
  have floor : g = (writeReport e .accountClosed 0 (closedBody n true (f.store.account n)) f).onStore fun m =>
    m.editAccount n Account.freed := rfl
  have outside : ∀ p, ¬ inReport f.rptWr 64 p →
      (writeReport e .accountClosed 0 (closedBody n true (f.store.account n)) f).store.read p = f.store.read p := fun p hp =>
    read_writeReport_outside (by rw [size]; exact hp)
  have header := writeReport_header (kind := .accountClosed) (station := 0) fitBody good (by omega)
  have field := fun o k => readLE_writeReport (kind := .accountClosed) (station := 0) (o := o) (n := k) fitBody good
  have offset := writeReport_rptWr e .accountClosed 0 (closedBody n true (f.store.account n)) f
  have flag := writeReport_irqFlag e .accountClosed 0 (closedBody n true (f.store.account n)) f
  rw [size] at header field
  have fitStream : fits e f 64 = true := decide_eq_true fit
  have kept : ∀ k, (writeReport e .accountClosed 0 (closedBody n true (f.store.account n)) f).store.account k =
      f.store.account k := fun k => Memory.account_congr fun a h1 h2 => outside a fun h => by
    have := stream_account_apart (n := k) (inReport_inStream fitStream good h)
    omega
  have stations := writeReport_stations e .accountClosed 0 (closedBody n true (f.store.account n)) f
  have queue := writeReport_waitQueue e .accountClosed 0 (closedBody n true (f.store.account n)) f
  have dropped := writeReport_dropped e .accountClosed 0 (closedBody n true (f.store.account n)) f
  rw [size] at offset
  generalize writeReport e .accountClosed 0 (closedBody n true (f.store.account n)) f = w at *
  have edit : ∀ p, ¬ inAccount n p → g.store.read p = w.store.read p := fun p hp => by
    rw [floor, onStore_store]
    refine Memory.read_editAccount_outside _ _ ?_
    simp only [inAccount, inBytes] at hp
    omega
  have apart : ∀ p, inStream p → ¬ inAccount n p := fun p hp h => by
    have := stream_account_apart (n := n) hp
    simp only [inAccount, inBytes] at h
    omega
  refine ⟨?_, ?_, ?_, fun k hk other => ?_, fun p stream account => ?_, fun p behind => ?_⟩
  · rw [floor]
    exact floor_ext rfl (fun j => congrArg (fun v => v[j]) stations) queue dropped offset flag
  · refine ClosedReportAt.congr ⟨header, ?_, ?_⟩ fun q hq => edit q (apart q ?_)
    · rw [field 8 2 (by omega)]
      simp only [reportHeader, closedBody, List.cons_append, List.nil_append, imageField_layout_tail, imageField_layout_head,
        Nat.reduceLeDiff, Nat.reduceSub, Nat.le_refl]
      omega
    · rw [field 12 4 (by omega)]
      simp only [reportHeader, closedBody, List.cons_append, List.nil_append, imageField_layout_tail, imageField_layout_head,
        Nat.reduceLeDiff, Nat.reduceSub, Nat.le_refl]
      exact Nat.mod_eq_of_lt (f.store.account n).balance.isLt
    · have := reportPlace_inStream fitStream good (k := q - reportPlace f.rptWr 64) (by simp only [inBytes] at hq; omega)
      rwa [Nat.add_sub_cancel' hq.1] at this
  · rw [floor, onStore_store, Memory.account_editAccount_self _ _ hn]
    exact zeroed_edited _
  · rw [floor, onStore_store, Memory.account_editAccount_other _ _ other]
    exact kept k
  · rw [edit p account]
    exact outside p fun h => stream (inReport_inStream fitStream good h)
  · rw [edit p (apart p behind.1)]
    exact outside p (not_inReport_of_behind good read fit behind)

end Sys2Proof.Machine
end

section
/-! PROOF. The closes of a settlement in the order of its funding list: those that fit are written, the first that does not waits, and
all after it wait too (R144, R157, R178; log 48). -/

namespace Sys2Proof.Machine

open Sys2Proof
-- One proof after the other: proofs that wait for one another hold a thread each, and its memory.
set_option Elab.async false

/-- The write offset after a close for each account of a list (R176). -/
abbrev closePlaces (wr : Nat) (l : List Nat) : Nat := offsetAfterAll wr (l.map fun _ => 64)

/-- Whether the closes of a list of accounts fit in turn (R178). -/
abbrev closesFit (room wr : Nat) (l : List Nat) : Prop := fitInTurn room wr (l.map fun _ => 64)

/-- What writing the closes `freed` and queueing the closes `waiting` has made of the floor `f` (R144, R178). -/
structure ClosesMade (e : Mode) (freed waiting : List Nat) (f g : Floor) : Prop where
  written : freed ≠ [] → f.waitQueue = [] ∧ closesFit (freeRoom f.rptWr e.rptRd) f.rptWr freed
  full : ∀ n rest, waiting = n :: rest → f.waitQueue = [] → ¬ closesFit (freeRoom f.rptWr e.rptRd) f.rptWr (freed ++ [n])
  floor : g = { f with
    store := g.store, waitQueue := f.waitQueue ++ waiting.map Producer.close, rptWr := closePlaces f.rptWr freed
    irqFlag := if freed = [] then f.irqFlag else f.irqFlag ||| 2 }
  reports : ∀ before n rest, freed = before ++ n :: rest →
    ClosedReportAt g.store (reportPlace (closePlaces f.rptWr before) 64) n (f.store.account n) e.partTime ∧
      (g.store.account n).Zeroed
  kept : ∀ n, n < 1024 → n ∉ freed → g.store.account n = f.store.account n
  cells : ∀ p, ¬ inStream p → (∀ n ∈ freed, ¬ inAccount n p) → g.store.read p = f.store.read p
  behind : ∀ p, Behind e.rptRd f.rptWr p → g.store.read p = f.store.read p

theorem ClosesMade.none (e : Mode) (f : Floor) : ClosesMade e [] [] f f where
  written h := absurd rfl h
  full n rest h := by cases h
  floor := floor_ext rfl (fun _ => rfl) (by rw [List.map_nil, List.append_nil]) rfl rfl rfl
  reports before n rest h := by simp at h
  kept _ _ _ := rfl
  cells _ _ _ := rfl
  behind _ _ := rfl

/-- A close that has no room waits, and every close after it (R178). -/
theorem ClosesMade.wait {e : Mode} {freed waiting : List Nat} {f g : Floor} {n : Nat}
    (rest : ClosesMade e freed waiting (f.enqueue (.close n)) g) (full : mayWrite e f 64 = false) :
    freed = [] ∧ ClosesMade e [] (n :: waiting) f g := by
  have none : freed = [] := by
    by_contra some
    have empty := (rest.written some).1
    simp at empty
  subst none
  refine ⟨rfl, ⟨fun h => absurd rfl h, fun m tail h empty fit => ?_, ?_, fun before m tail h => by simp at h, rest.kept,
    rest.cells, rest.behind⟩⟩
  · obtain ⟨rfl, rfl⟩ := List.cons.inj h
    have may := (mayWrite_iff e f 64).mpr ⟨empty, fit.1⟩
    rw [full] at may
    cases may
  · exact rest.floor.trans (floor_ext rfl (fun _ => rfl) (by simp) rfl rfl rfl)

/-- A close that fits is written, and the others follow behind it (R176, R178). -/
theorem ClosesMade.write {e : Mode} {freed waiting : List Nat} {f g : Floor} {n : Nat} (read : e.rptRd < 8192)
    (good : goodOffset f.rptWr) (hn : n < 1024) (may : mayWrite e f 64 = true) (fresh : n ∉ freed)
    (small : ∀ k ∈ freed, k < 1024) (rest : ClosesMade e freed waiting (writeClose e n true f) g) :
    ClosesMade e (n :: freed) waiting f g := by
  obtain ⟨empty, fit⟩ := (mayWrite_iff e f 64).mp may
  obtain ⟨floor, report, zeroed, kept, cells, behind⟩ := writeClose_leaves read good fit hn
  have room := (freeRoom_offsetAfter good read fit).1
  generalize writeClose e n true f = w at *
  have offset : w.rptWr = offsetAfter f.rptWr 64 := by rw [floor]
  have queue : w.waitQueue = f.waitQueue := by rw [floor]
  obtain ⟨written, full, after, reports, others, outside, stands⟩ := rest
  rw [offset, room, queue] at full
  rw [offset, room] at written
  rw [offset] at reports stands
  refine ⟨fun _ => ⟨empty, fit, ?_⟩, fun m tail h queue fits => full m tail h queue fits.2, ?_, fun before m tail h => ?_,
    fun k hk other => ?_, fun p stream accounts => ?_, fun p hp => ?_⟩
  · cases freed with
    | nil => trivial
    | cons k l => exact (written (by simp)).2
  · refine after.trans ?_
    rw [floor]
    refine floor_ext rfl (fun _ => rfl) rfl rfl rfl ?_
    by_cases none : freed = []
    · simp [none]
    · simp [none, BitVec.or_assoc]
  · cases before with
    | nil =>
      obtain ⟨rfl, rfl⟩ := List.cons.inj h
      refine ⟨report.congr fun q hq => stands q (behind_offsetAfter good read fit (.inr hq)), ?_⟩
      rw [others _ hn fresh]
      exact zeroed
    | cons k before =>
      obtain ⟨rfl, rfl⟩ := List.cons.inj h
      have other : m ≠ n := fun same => fresh (by simp [same])
      rw [← kept m (small m (by simp)) other]
      exact reports before m tail rfl
  · obtain ⟨other, fresh⟩ := not_or.mp (List.mem_cons.not.mp other)
    rw [others k hk fresh, kept k hk other]
  · rw [outside p stream fun k hk => accounts k (List.mem_cons_of_mem _ hk), cells p stream (accounts n List.mem_cons_self)]
  · rw [stands p (behind_offsetAfter good read fit (.inl hp)), behind p hp]

/-! ### The closes of a funding list -/

/-- The accounts that the entries of a list name, in its order (R79). -/
abbrev namedAccounts (funding : List FundingEntry) : List Nat := (funding.filter FundingEntry.namesAccount).map FundingEntry.account

/-- Whether an account's record has reached its close (R144). -/
abbrev Account.closes (a : Account) : Bool := a.isClosing && a.holders == 0

theorem closeReleased_eq (e : Mode) (f : Floor) (en : FundingEntry) :
    closeReleased e f en =
      if en.namesAccount = true ∧ (f.store.account en.account).closes = true then produceClose e en.account f else f := by
  unfold closeReleased
  refine if_congr ?_ rfl rfl
  simp only [Bool.and_eq_true, Account.closes, and_assoc]

/-- The closes of a funding list that names no account twice (R144, R157, R178; log 48). -/
theorem foldl_closeReleased {e : Mode} (read : e.rptRd < 8192) (funding : List FundingEntry) (f : Floor)
    (good : goodOffset f.rptWr) (once : (namedAccounts funding).Nodup) (small : ∀ n ∈ namedAccounts funding, n < 1024) :
    ∃ freed waiting, (namedAccounts funding).filter (fun n => (f.store.account n).closes) = freed ++ waiting ∧
      ClosesMade e freed waiting f (funding.foldl (closeReleased e) f) := by
  induction funding generalizing f with
  | nil => exact ⟨[], [], rfl, .none e f⟩
  | cons en rest ih =>
    rw [List.foldl_cons, closeReleased_eq]
    by_cases names : en.namesAccount = true
    · rw [namedAccounts, List.filter_cons_of_pos names, List.map_cons] at once small ⊢
      obtain ⟨fresh, once⟩ := List.nodup_cons.mp once
      have hn := small _ List.mem_cons_self
      have small' := fun n h => small n (List.mem_cons_of_mem _ h)
      by_cases closes : (f.store.account en.account).closes = true
      · rw [if_pos ⟨names, closes⟩, List.filter_cons_of_pos (p := fun n => (f.store.account n).closes) closes]
        unfold produceClose
        cases may : mayWrite e f 64 with
        | true =>
          rw [if_pos rfl]
          obtain ⟨-, fit⟩ := (mayWrite_iff e f 64).mp may
          have keeps := (writeClose_leaves read good fit hn).2.2.2.1
          obtain ⟨freed, waiting, due, made⟩ := ih (writeClose e en.account true f)
            ((writeClose_step e en.account true f (decide_eq_true fit)).offset good) once small'
          have same : (namedAccounts rest).filter (fun n => ((writeClose e en.account true f).store.account n).closes) =
              (namedAccounts rest).filter fun n => (f.store.account n).closes :=
            List.filter_congr fun n h => by rw [keeps n (small' n h) fun same => fresh (same ▸ h)]
          have inside : ∀ k ∈ freed, k ∈ namedAccounts rest := fun k hk => by
            have : k ∈ freed ++ waiting := List.mem_append_left _ hk
            rw [← due] at this
            exact List.mem_of_mem_filter this
          refine ⟨en.account :: freed, waiting, by rw [← same, due]; rfl, ?_⟩
          exact made.write read good hn may (fun h => fresh (inside _ h)) fun k hk => small' k (inside k hk)
        | false =>
          rw [if_neg Bool.false_ne_true]
          obtain ⟨freed, waiting, due, made⟩ := ih (f.enqueue (.close en.account)) good once small'
          obtain ⟨rfl, waits⟩ := made.wait may
          refine ⟨[], en.account :: waiting, ?_, waits⟩
          rw [List.nil_append] at due ⊢
          exact congrArg _ due
      · rw [if_neg (fun h => closes h.2), List.filter_cons_of_neg (p := fun n => (f.store.account n).closes) closes]
        exact ih f good once small'
    · rw [namedAccounts, List.filter_cons_of_neg names] at once small ⊢
      rw [if_neg fun h => names h.1]
      exact ih f good once small

end Sys2Proof.Machine
end

section
/-! PROOF. A STATION notice (R180), and the entry to OUT (R98, R75, R19). -/

namespace Sys2Proof.Machine

open Sys2Proof
-- One proof after the other: proofs that wait for one another hold a thread each, and its memory.
set_option Elab.async false

/-! ### A STATION notice -/

/-- What handing on a STATION notice leaves while the part runs: the report in the stream, or the mark (R176, R180). -/
theorem stationNotice_leaves {e : Mode} (i : StationId) (event : NoticeEvent) (cause : OutCause) {f : Floor}
    (runs : e.runs = true) (read : e.rptRd < 8192) (good : goodOffset f.rptWr) :
    let g := stationNotice e i event cause f
    g.stations = f.stations ∧ g.waitQueue = f.waitQueue ∧ (f.flag .report = true → g.flag .report = true) ∧
      (g.dropped = true ∨ ReportHeaderAt g.store (reportPlace f.rptWr 16) 16 .station (i.val + 1) e.partTime) ∧
      (∀ p, ¬ inStream p → g.store.read p = f.store.read p) ∧
      ∀ p, Behind e.rptRd f.rptWr p → g.store.read p = f.store.read p := by
  unfold stationNotice
  rw [if_pos runs]
  split
  · next room =>
    have fit : roomNeeded f.rptWr 16 ≤ freeRoom f.rptWr e.rptRd := by
      have roomy := of_decide_eq_true (Bool.and_eq_true_iff.mp room).2
      simp only [Config.noticeRoom] at roomy
      omega
    have fits16 : fits e f 16 = true := decide_eq_true fit
    generalize body : [(1, event.code), (1, cause.code), (1, bit f.dropped), (1, 0),
      (4, (f.station i).reportedNumber.toNat)] = fields
    have size : 8 + layoutSize fields = 16 := by rw [← body]; rfl
    have outside : ∀ p, ¬ inReport f.rptWr 16 p → (writeReport e .station (stationNumber i) fields f).store.read p =
        f.store.read p := fun p hp => read_writeReport_outside (by rw [size]; exact hp)
    have header := writeReport_header (e := e) (f := f) (kind := .station) (station := stationNumber i) (body := fields)
      (by rw [size]; exact fits16) good (by have := i.isLt; simp only [stationNumber]; omega)
    rw [size] at header
    refine ⟨rfl, rfl, fun set => ?_, .inr header, fun p stream => outside p fun h => stream (inReport_inStream fits16 good h),
      fun p behind => outside p (not_inReport_of_behind good read fit behind)⟩
    rw [Floor.flag] at set ⊢
    rw [writeReport_irqFlag, BitVec.getLsbD_or, set, Bool.true_or]
  · exact ⟨rfl, rfl, id, .inl rfl, fun _ _ => rfl, fun _ _ => rfl⟩

/-! ### The closed tally, with other work around it -/

/-- What TallyClosed looks at. -/
theorem TallyClosed.congr {e : Mode} {i : StationId} {cause : EndCause} {live : Tally} {f f' g g' : Floor}
    (h : TallyClosed e i cause live f g) (closed : (f'.station i).line.closed = (f.station i).line.closed)
    (copy : (f'.station i).copy = (f.station i).copy) (store : f'.store = f.store) (queue : f'.waitQueue = f.waitQueue)
    (offset : f'.rptWr = f.rptWr) (live' : (g'.station i).line.live = (g.station i).line.live)
    (closed' : (g'.station i).line.closed = (g.station i).line.closed) (queue' : g'.waitQueue = g.waitQueue)
    (flag : g.flag .report = true → g'.flag .report = true)
    (cells : ∀ p, inAccounts p ∨ (f.waitQueue = [] ∧ roomNeeded f.rptWr 96 ≤ freeRoom f.rptWr e.rptRd ∧
      live.fed ≠ 0 ∧ (f.station i).line.closed.waiting = false ∧ inBytes (reportPlace f.rptWr 96) 96 p) →
      g'.store.read p = g.store.read p) :
    TallyClosed e i cause live f' g' := by
  have account : ∀ n, n < 1024 → g'.store.account n = g.store.account n := fun n hn =>
    Memory.account_congr fun a h1 h2 => cells a (.inl (accountBytes_inAccounts hn (by omega)))
  unfold TallyClosed at h ⊢
  dsimp only at h ⊢
  rw [closed, copy, store, queue, offset, live', closed', queue']
  by_cases fed : live.fed = 0
  · rw [if_pos fed] at h ⊢
    exact h
  · rw [if_neg fed] at h ⊢
    refine ⟨h.1, ?_⟩
    by_cases waiting : (f.station i).line.closed.waiting = true
    · have kept := h.2
      rw [if_pos waiting] at kept ⊢
      exact kept
    · have kept := h.2
      rw [if_neg waiting] at kept ⊢
      by_cases room : f.waitQueue = [] ∧ roomNeeded f.rptWr 96 ≤ freeRoom f.rptWr e.rptRd
      · rw [if_pos room] at kept ⊢
        obtain ⟨none, empty, set, header, charged⟩ := kept
        refine ⟨none, empty, flag set, header.congr fun k hk => cells _ (.inr ?_), fun hn => ?_⟩
        · exact ⟨room.1, room.2, fed, by simpa using waiting, by omega, by omega⟩
        · rw [account _ hn]
          exact charged hn
      · rw [if_neg room] at kept ⊢
        exact kept

/-! ### The entry to OUT -/

/-- A card in the next-card slot is answered, or there is none (R75). -/
theorem answerNextCard_eq (i : StationId) (f : Floor) :
    answerNextCard i f = f.onStation i fun x => { x with
      nextCard := none, link := if x.nextCard.isSome then (x.refusal .outOfService 0 0).link else x.link } := by
  unfold answerNextCard
  split
  · next some =>
    rw [showAndEject_eq, onStation_onStation]
    exact onStation_congr _ _ (by rw [if_pos some]; rfl)
  · next vacant =>
    refine (onStation_self f i ?_).symm
    have empty : (f.station i).nextCard = none := by simpa using vacant
    rw [if_neg vacant, ← empty]

/-- What the entry to OUT of a station without a session leaves while the part runs, as WentOut says it (R98, R75, R19, R180). -/
theorem enterOut_wentOut {e : Mode} (i : StationId) (cause : OutCause) {f : Floor} (runs : e.runs = true)
    (read : e.rptRd < 8192) (good : goodOffset f.rptWr) : WentOut e i cause f (enterOut e i cause f) := by
  let x := f.station i
  let live : Tally := { x.line.live with lost := min (x.line.live.lost + x.line.inPath.length) 65535 }
  let room := f.waitQueue = [] ∧ roomNeeded f.rptWr 96 ≤ freeRoom f.rptWr e.rptRd
  let f₁ := f.onStation i fun x => { x with state := .out, outCause := cause, outPending := .none, line := x.line.dropPath }
  let f₂ := closeStray e i .out f₁
  let f₃ := f₂.onStation i fun x => { x with
    nextCard := none
    link := (if x.nextCard.isSome then (x.refusal .outOfService 0 0).link else x.link).offer (showOn 1 .outOfService 0 0) }
  have floor : enterOut e i cause f = stationNotice e i .out cause f₃ := by
    unfold enterOut
    dsimp only
    rw [if_pos runs, answerNextCard_eq, offer_eq, onStation_onStation]
  have closes : ClosesTally e i .out f₁ f₂ := closeStray_closesTally e i .out f₁ good
  have good₂ : goodOffset f₂.rptWr := (closeStray_step e i .out f₁).offset good
  have self₁ : f₁.station i = { x with
      state := .out, outCause := cause, outPending := .none, line := { x.line with live := live, inPath := [] } } :=
    station_onStation_self ..
  have self₂ := closes.station
  rw [self₁] at self₂
  obtain ⟨tally, whole, cells⟩ := closes
  obtain ⟨stations, queue, flag, notice, kept, behind⟩ := stationNotice_leaves i .out cause (f := f₃) runs read good₂
  rw [floor]
  generalize stationNotice e i .out cause f₃ = g at *
  have same : ∀ j, g.station j = f₃.station j := fun j => congrArg (fun v => v[j]) stations
  have self : g.station i = { f₂.station i with
      nextCard := none
      link := (if (f₂.station i).nextCard.isSome then ((f₂.station i).refusal .outOfService 0 0).link
        else (f₂.station i).link).offer (showOn 1 .outOfService 0 0) } := by
    rw [same, station_onStation_self]
  have offset : f₂.rptWr = if live.fed ≠ 0 ∧ x.line.closed.waiting = false ∧ room then offsetAfter f.rptWr 96 else f.rptWr := by
    have at_wr := congrArg Floor.rptWr whole
    rw [self₁] at at_wr
    exact at_wr
  have apart : ∀ p, inAccounts p → ¬ inStream p := fun p account stream => by
    simp only [inAccounts, inStream, inBytes, Config.accountBase, Config.streamBase, Config.streamBytes] at *
    omega
  refine ⟨?_, fun j hj => ?_, ?_, fun p stream account => ?_, ?_⟩
  · rw [self₁] at tally
    refine tally.congr (by rw [self₁]) (by rw [self₁]) rfl rfl rfl (by rw [self]) (by rw [self]) queue flag fun p stands => ?_
    rcases stands with account | ⟨empty, fit, fed, fresh, place⟩
    · exact kept p (apart p account)
    · refine behind p ?_
      rw [self₁] at fresh
      rw [show f₃.rptWr = _ from offset, if_pos ⟨fed, fresh, empty, fit⟩]
      exact behind_offsetAfter good read fit (.inr place)
  · rw [same, station_onStation_other _ _ _ _ hj]
    exact (closeStray_others e i .out f₁ j hj).trans (station_onStation_other _ _ _ _ hj)
  · rw [show f₃.rptWr = _ from offset] at notice
    exact notice
  · refine (kept p stream).trans (cells p fun h => ?_)
    obtain ⟨⟨-, -, -, fit⟩, report | inside⟩ := h
    · exact stream (inReport_inStream (e := e) (f := f) (decide_eq_true fit) good report)
    · exact account inside
  · rw [self, self₂]
    rfl

end Sys2Proof.Machine
end

section
/-! PROOF. The writing of a session's settlement, its application, and what follows it (R155 to R157, R91). -/

namespace Sys2Proof.Machine

open Sys2Proof
-- One proof after the other: proofs that wait for one another hold a thread each, and its memory.
set_option Elab.async false

/-! ### The report and its blocks -/

/-- The floor on which a session's settlement is written and its blocks are applied (R155, R156). -/
abbrev sessionApplied (e : Mode) (i : StationId) (f : Floor) : Floor :=
  (writeReport e .settlement (stationNumber i) (sessionBody (f.station i).context) f).onStore fun m =>
    (f.station i).context.funding.foldl Memory.applyEntry m

/-- What a settlement of length `len` for the session context `c`, written with room and applied, has made of the floor
(R151, R155, R156, R176). -/
structure SettlementStands (e : Mode) (i : StationId) (c : Context) (len : Nat) (f g : Floor) : Prop where
  floor : g = { f with store := g.store, rptWr := offsetAfter f.rptWr len, irqFlag := f.irqFlag ||| 2 }
  header : ReportHeaderAt g.store (reportPlace f.rptWr len) len .settlement (i.val + 1) e.partTime
  number : g.store.readLE (reportPlace f.rptWr len + 8) 4 = c.number.toNat
  accounts : ∀ n, n < 1024 → g.store.account n = settledBy c.funding n (f.store.account n)
  beyond : ∀ n, ¬ n < 1024 → g.store.account n = f.store.account n
  cells : ∀ p, ¬ inReport f.rptWr len p →
    (∀ en ∈ c.funding, (en.kind = .account ∨ en.kind = .house) → en.account < 1024 → ¬ inAccount en.account p) →
    g.store.read p = f.store.read p

/-- The blocks of a settlement whose report stands in the stream leave the report as it is (R156, R164). -/
theorem SettlementStands.of_report {e : Mode} {i : StationId} {c : Context} {len : Nat} {f w : Floor}
    (good : goodOffset f.rptWr) (fitting : fits e f len = true) (long : 64 ≤ len)
    (floor : w = { f with store := w.store, rptWr := offsetAfter f.rptWr len, irqFlag := f.irqFlag ||| 2 })
    (header : ReportHeaderAt w.store (reportPlace f.rptWr len) len .settlement (i.val + 1) e.partTime)
    (number : w.store.readLE (reportPlace f.rptWr len + 8) 4 = c.number.toNat)
    (outside : ∀ p, ¬ inReport f.rptWr len p → w.store.read p = f.store.read p) :
    SettlementStands e i c len f (w.onStore fun m => c.funding.foldl Memory.applyEntry m) := by
  have account : ∀ n, w.store.account n = f.store.account n := fun n =>
    Memory.account_congr fun a h1 h2 => outside a fun h => by
      have := stream_account_apart (n := n) (inReport_inStream fitting good h)
      omega
  have blocks : ∀ k, k < len → (c.funding.foldl Memory.applyEntry w.store).read (reportPlace f.rptWr len + k) =
      w.store.read (reportPlace f.rptWr len + k) := fun k hk =>
    read_applyEntries c.funding w.store fun en _ _ _ inside => by
      have := stream_account_apart (n := en.account) (reportPlace_inStream fitting good hk)
      simp only [inAccount, inBytes] at inside
      omega
  refine ⟨?_, header.congr fun k hk => blocks k (by omega), ?_, fun n hn => ?_, fun n hn => ?_, fun p report accounts => ?_⟩
  · rw [floor]
    rfl
  · refine (Memory.readLE_congr 4 _ fun k h1 h2 => ?_).trans number
    have place := blocks (k - reportPlace f.rptWr len) (by omega)
    rwa [Nat.add_sub_cancel' (by omega)] at place
  · rw [onStore_store, account_applyEntries _ _ hn, account]
  · rw [onStore_store, ← account n]
    refine Memory.account_congr fun a h1 h2 => read_applyEntries _ _ fun en _ _ number inside => ?_
    simp only [inAccount, inBytes, accountAddr, Config.accountBase] at *
    omega
  · rw [onStore_store, read_applyEntries _ _ accounts]
    exact outside p report

/-- A settlement has at least its fixed fields (R151). -/
theorem sessionBody_long (c : Context) : 64 ≤ 8 + layoutSize (sessionBody c) := by
  have delivered : ∀ l : List Nat, layoutSize (l.map fun n => (2, min n Config.max16)) = 2 * l.length := by
    intro l
    induction l with
    | nil => rfl
    | cons a l ih => simp only [List.map_cons, layoutSize, ih, List.length_cons]; omega
  simp only [sessionBody, layoutSize_append, delivered, Vector.length_toList, layoutSize]
  omega

/-- A written report changes the store, the write offset and the REPORT flag alone (R176). -/
theorem writeReport_floor (e : Mode) (kind : ReportKind) (station : Nat) (body : List (Nat × Nat)) (f : Floor) :
    let w := writeReport e kind station body f
    w = { f with store := w.store, rptWr := offsetAfter f.rptWr (8 + layoutSize body), irqFlag := f.irqFlag ||| 2 } := by
  intro w
  have stations : w.stations = f.stations := writeReport_stations ..
  have queue : w.waitQueue = f.waitQueue := writeReport_waitQueue ..
  have dropped : w.dropped = f.dropped := writeReport_dropped ..
  have offset : w.rptWr = offsetAfter f.rptWr (8 + layoutSize body) := writeReport_rptWr ..
  have flag : w.irqFlag = f.irqFlag ||| 2 := writeReport_irqFlag ..
  clear_value w
  exact floor_ext rfl (fun j => congrArg (fun v => v[j]) stations) queue dropped offset flag

/-- The session number is the first field of a settlement (R151). -/
theorem sessionBody_number {e : Mode} {i : StationId} {f : Floor} {c : Context} (good : goodOffset f.rptWr)
    (fitting : fits e f (8 + layoutSize (sessionBody c)) = true) :
    (writeReport e .settlement (stationNumber i) (sessionBody c) f).store.readLE
      (reportPlace f.rptWr (8 + layoutSize (sessionBody c)) + 8) 4 = c.number.toNat := by
  have long := sessionBody_long c
  rw [readLE_writeReport fitting good (by omega)]
  simp only [reportHeader, sessionBody, List.cons_append, List.nil_append, imageField_layout_tail, imageField_layout_head,
    Nat.reduceLeDiff, Nat.reduceSub, Nat.le_refl]
  exact Nat.mod_eq_of_lt c.number.isLt

theorem sessionApplied_stands {e : Mode} {i : StationId} {f : Floor} (good : goodOffset f.rptWr)
    (fitting : fits e f (8 + layoutSize (sessionBody (f.station i).context)) = true) :
    SettlementStands e i (f.station i).context (8 + layoutSize (sessionBody (f.station i).context)) f (sessionApplied e i f) := by
  have header := writeReport_header (kind := .settlement) (station := stationNumber i) fitting good
    (by have := i.isLt; simp only [stationNumber]; omega)
  exact .of_report good fitting (sessionBody_long _) (writeReport_floor ..) header (sessionBody_number good fitting)
    fun p hp => read_writeReport_outside hp

end Sys2Proof.Machine
end

section
/-! PROOF. A session's settlement with the closes and the pass that follow it (R155 to R157, R146, R91), and the quiet notice that
leads to it (R14, R90). -/

namespace Sys2Proof.Machine

open Sys2Proof
-- One proof after the other: proofs that wait for one another hold a thread each, and its memory.
set_option Elab.async false

/-! ### The settlement and its closes -/

/-- The floor of a settlement with its closes made and its context cleared (R157). -/
abbrev sessionReleased (e : Mode) (i : StationId) (f : Floor) : Floor :=
  ((f.station i).context.funding.foldl (closeReleased e) (sessionApplied e i f)).onStation i Station.clearContext

/-- The parts of a settlement in their order (R155 to R157). -/
theorem writeSession_eq (e : Mode) (i : StationId) (f : Floor) :
    writeSession e i f = moveOn e i (reevaluate e
      ((gainedAccounts f.store (sessionApplied e i f).store (f.station i).context.funding).filter fun n =>
        !((sessionReleased e i f).store.account n).isFree) (sessionReleased e i f)) := by
  unfold writeSession
  dsimp only
  rw [foldl_applyBlock]

/-- A report whose length is a multiple of 4 leaves a good write offset (R176). -/
theorem goodOffset_offsetAfter {rd wr len : Nat} (good : goodOffset wr) (fours : len % 4 = 0)
    (fit : roomNeeded wr len ≤ freeRoom wr rd) : goodOffset (offsetAfter wr len) := by
  have place := placement wr len
  simp only [goodOffset, freeRoom, roomNeeded] at *
  omega

theorem settlementLength_fours (c : Context) : (8 + layoutSize (sessionBody c)) % 4 = 0 := by
  have := sessionBody_size c
  omega

/-- A funding list names no account twice, and only accounts of the table (R79). -/
def NamesOnce (funding : List FundingEntry) : Prop :=
  (namedAccounts funding).Nodup ∧ ∀ n ∈ namedAccounts funding, n < 1024

theorem FundsLaw.namesOnce {c : Context} (h : FundsLaw c) : NamesOnce c.funding := by
  obtain ⟨-, once, -, -, entries⟩ := h
  refine ⟨once, fun n named => ?_⟩
  obtain ⟨en, inside, rfl⟩ := List.mem_map.mp named
  obtain ⟨inside, names⟩ := List.mem_filter.mp inside
  exact (entries en inside).2 names

/-- What a settlement and its closes leave, as SettlementApplied says it (R155 to R157, R144; log 48). -/
theorem sessionReleased_applied {e : Mode} {i : StationId} {f : Floor} (read : e.rptRd < 8192) (good : goodOffset f.rptWr)
    (fitting : fits e f (8 + layoutSize (sessionBody (f.station i).context)) = true) (funds : NamesOnce (f.station i).context.funding) :
    ∃ freed waiting, SettlementApplied e i freed waiting f (sessionReleased e i f) := by
  generalize context : (f.station i).context = c at funds fitting
  obtain ⟨floor, header, number, accounts, -, cells⟩ := sessionApplied_stands good (by rw [context]; exact fitting)
  have long := sessionBody_long c
  have fours := settlementLength_fours c
  unfold SettlementApplied sessionReleased
  dsimp only
  simp only [context] at floor header number accounts cells ⊢
  generalize 8 + layoutSize (sessionBody c) = len at *
  generalize sessionApplied e i f = p at *
  have fit : roomNeeded f.rptWr len ≤ freeRoom f.rptWr e.rptRd := of_decide_eq_true fitting
  have offset : p.rptWr = offsetAfter f.rptWr len := by rw [floor]
  have queue : p.waitQueue = f.waitQueue := by rw [floor]
  obtain ⟨once, small⟩ := funds
  have good' : goodOffset p.rptWr := by
    rw [offset]
    exact goodOffset_offsetAfter good fours fit
  obtain ⟨freed, waiting, due, made⟩ := foldl_closeReleased read c.funding p good' once small
  generalize c.funding.foldl (closeReleased e) p = q at *
  have inside : ∀ n ∈ freed, n ∈ namedAccounts c.funding := fun n hn => by
    have : n ∈ freed ++ waiting := List.mem_append_left _ hn
    rw [← due] at this
    exact List.mem_of_mem_filter this
  have stands : ∀ k, k < len → q.store.read (reportPlace f.rptWr len + k) = p.store.read (reportPlace f.rptWr len + k) :=
    fun k hk => made.behind _ (by
      rw [offset]
      exact behind_offsetAfter good read fit (.inr ⟨by omega, by omega⟩))
  refine ⟨freed, waiting, ?_, ?_, ?_, ?_, ?_, ?_, ?_, ?_, ?_⟩
  · rw [← due]
    refine List.filter_congr fun n hn => ?_
    have after := accounts n (small n hn)
    have state := settledBy_state c.funding n (f.store.account n)
    simp only [Account.closes, Account.isClosing, after, state]
  · have written := made.written
    rw [offset, queue] at written
    exact written
  · have full := made.full
    rw [offset, queue] at full
    exact full
  · have stations : q.stations = f.stations := by rw [made.floor, floor]
    have self : q.station i = f.station i := congrArg (fun v => v[i]) stations
    refine floor_ext rfl (fun j => ?_) ?_ ?_ ?_ ?_
    · by_cases hj : j = i
      · subst hj
        rw [station_onStation_self, self]
        exact (station_setStation_self ..).symm
      · rw [station_onStation_other _ _ _ _ hj]
        exact (congrArg (fun v => v[j]) stations).trans (station_setStation_other f i j _ hj).symm
    · rw [onStation_waitQueue, made.floor]
      exact congrArg (· ++ _) queue
    · rw [onStation_dropped, made.floor, floor]
    · rw [onStation_rptWr, made.floor]
      exact congrArg (closePlaces · freed) offset
    · rw [onStation_irqFlag, made.floor, floor]
      dsimp only
      split
      · rfl
      · rw [BitVec.or_assoc, BitVec.or_self]
  · exact header.congr fun k hk => stands k (by omega)
  · refine (Memory.readLE_congr 4 _ fun k h1 h2 => ?_).trans number
    have place := stands (k - reportPlace f.rptWr len) (by omega)
    rwa [Nat.add_sub_cancel' (by omega)] at place
  · intro before n rest split
    have hn := small n (inside n (by simp [split]))
    have report := made.reports before n rest split
    rw [offset, accounts n hn] at report
    exact report
  · intro n hn other
    exact (made.kept n hn other).trans (accounts n hn)
  · intro a stream others
    refine (made.cells a stream fun n hn => others n (inside n hn)).trans (cells a (fun report => stream ?_) fun en hen kind _ => ?_)
    · exact inReport_inStream fitting good report
    · exact others _ (List.mem_map.mpr ⟨en, List.mem_filter.mpr ⟨hen, (namesAccount_iff en).mpr kind⟩, rfl⟩)

/-- The write offset after a settlement and its closes (R176). -/
theorem sessionReleased_good {e : Mode} {i : StationId} {f : Floor} (good : goodOffset f.rptWr)
    (fitting : fits e f (8 + layoutSize (sessionBody (f.station i).context)) = true) :
    goodOffset (sessionReleased e i f).rptWr := by
  have applied : goodOffset (sessionApplied e i f).rptWr := by
    rw [onStore_rptWr, writeReport_rptWr]
    exact goodOffset_offsetAfter good (settlementLength_fours _) (of_decide_eq_true fitting)
  exact (foldl_step _ (closeReleased_step e) _ (sessionApplied e i f)).offset applied

/-! ### The pass and the station -/

/-- The accounts that gained from a settlement are among those it names (R146). -/
theorem gainedAccounts_eq (before after : Memory) (funding : List FundingEntry) :
    gainedAccounts before after funding =
      (namedAccounts funding).filter fun n => decide ((before.account n).available < (after.account n).available) := by
  rw [namedAccounts, List.filter_map, List.filter_filter]
  unfold gainedAccounts
  congr 2
  funext en
  exact Bool.and_comm ..

/-- A station that is not LOW is no part of a re-evaluation pass (R146). -/
theorem reevaluate_station {e : Mode} {accounts : List Nat} {f : Floor} {j : StationId} (state : (f.station j).state ≠ .low) :
    (reevaluate e accounts f).station j = f.station j := by
  have served : ∀ (l : List StationId) (g : Floor), j ∉ l →
      (l.foldl (fun g i => fundingCheckOpen e i g) g).station j = g.station j := by
    intro l
    induction l with
    | nil => intro g _; rfl
    | cons i l ih =>
      intro g out
      obtain ⟨other, out⟩ := not_or.mp (List.mem_cons.not.mp out)
      rw [List.foldl_cons, ih _ out]
      exact (fundingCheckOpen_at e i g).others j other
  unfold reevaluate
  split
  · refine (congrArg (fun v => v[j]) (foldl_closeAccounts_stations ..)).trans (served _ f fun inside => ?_)
    have low := (List.mem_filter.mp inside).2
    simp [state] at low
  · rfl

/-- A settlement written with room leaves what SessionSettled says (R155 to R157, R146, R91). -/
theorem writeSession_settled {e : Mode} {i : StationId} {f : Floor} (runs : e.runs = true) (read : e.rptRd < 8192)
    (good : goodOffset f.rptWr) (fitting : fits e f (8 + layoutSize (sessionBody (f.station i).context)) = true)
    (funds : NamesOnce (f.station i).context.funding) (state : (f.station i).state ≠ .low) :
    SessionSettled e i f (writeSession e i f) := by
  obtain ⟨freed, waiting, applied⟩ := sessionReleased_applied read good fitting funds
  have stands := (sessionApplied_stands good fitting).accounts
  have floor := applied.2.2.2.1
  refine ⟨freed, waiting, sessionReleased e i f, applied, ?_⟩
  have gained : (gainedAccounts f.store (sessionApplied e i f).store (f.station i).context.funding).filter
        (fun n => !((sessionReleased e i f).store.account n).isFree) =
      (namedAccounts (f.station i).context.funding).filter fun n =>
        decide ((f.store.account n).available <
          (settledBy (f.station i).context.funding n (f.store.account n)).available) &&
          !((sessionReleased e i f).store.account n).isFree := by
    rw [gainedAccounts_eq, List.filter_filter]
    refine List.filter_congr fun n hn => ?_
    rw [stands n (funds.2 n hn), Bool.and_comm]
  rw [writeSession_eq, gained]
  have goodR := sessionReleased_good good fitting
  generalize sessionReleased e i f = a at *
  clear stands applied gained
  have self : a.station i = { f.station i with context := .empty, graceStart := none } :=
    (congrArg (fun g : Floor => g.station i) floor).trans (station_setStation_self ..)
  have kept : ∀ accounts, (reevaluate e accounts a).station i = a.station i := fun accounts =>
    reevaluate_station (by rw [self]; exact state)
  have goodB : ∀ accounts, goodOffset (reevaluate e accounts a).rptWr := fun accounts =>
    (reevaluate_step e accounts a).offset goodR
  dsimp only
  unfold moveOn
  dsimp only
  rw [kept, self]
  by_cases jammed : (f.station i).state = .jammed
  · rw [if_pos jammed, if_pos jammed]
    rfl
  · rw [if_neg jammed, if_neg jammed]
    by_cases pending : (f.station i).outPending ≠ .none
    · rw [if_pos pending, if_pos pending]
      exact enterOut_wentOut i _ runs read (goodB _)
    · rw [if_neg pending, if_neg pending]
      exact ⟨by rw [kept, self], by rw [kept, self], reachIdle_becameIdle e i _ (goodB _)⟩

end Sys2Proof.Machine
end

section
/-! PROOF. A quiet path takes a DRAINING station to SETTLING (R14, R90), and its settlement is written or waits (R154, R178). -/

namespace Sys2Proof.Machine

open Sys2Proof
-- One proof after the other: proofs that wait for one another hold a thread each, and its memory.
set_option Elab.async false

/-! ### The quiet notice -/

/-- When a quiet notice is due (R14). -/
theorem quiet_iff (now : Time) (x : Station) :
    x.quiet now = true ↔ x.line.inPath = [] ∧ (if x.line.pace = 0 ∨ x.line.pace = 65535 then x.copy.drainMin
      else min (max (3 * x.line.pace) x.copy.drainMin) 10000) ≤ elapsed now x.line.drainStart := by
  rw [Station.quiet, Bool.and_eq_true, List.isEmpty_iff]
  exact and_congr Iff.rfl decide_eq_true_iff

/-- A station that has entered SETTLING and shown its total (R90). -/
abbrev Station.settling (x : Station) : Station :=
  { x with
    state := .settling, context := { x.context with condition := .settling }
    link := x.link.offer (showOn 1 .sessionTotal (((x.context.funding.map fun en => (en.committed + 500) / 1000).sum : Nat) : Int)
      x.context.totalDelivered) }

/-- The condition shows in no field of a settlement (R151). -/
theorem sessionBody_settling (x : Station) : sessionBody x.settling.context = sessionBody x.context := rfl

/-- Entry to SETTLING: the total is shown, and the settlement is written with room or waits (R90, R154, R178). -/
theorem enterSettling_eq (e : Mode) (i : StationId) (f : Floor) :
    let len := 8 + layoutSize (sessionBody (f.station i).context)
    let g := f.onStation i fun _ => (f.station i).settling
    enterSettling e i f =
      if f.waitQueue = [] ∧ roomNeeded f.rptWr len ≤ freeRoom f.rptWr e.rptRd then writeSession e i g
      else g.enqueue (.session i) := by
  intro len g
  have shown : offer i (showOn 1 .sessionTotal (settledTotal (f.station i).context.funding)
      (f.station i).context.totalDelivered) (f.onStation i fun x =>
        { x with state := .settling, context := { x.context with condition := .settling } }) = g := by
    rw [offer_eq, onStation_onStation]
    exact onStation_congr _ _ rfl
  unfold enterSettling
  simp only [station_onStation_self]
  rw [← shown]
  exact if_congr (mayWrite_iff e _ _) rfl rfl

theorem quietDue_settles {e : Mode} {i : StationId} {f : Floor} (run : e.run = .running ∨ e.run = .stopping)
    (state : (f.station i).state = .draining) (quiet : (f.station i).quiet e.partTime = true) :
    quietDue i e f = enterSettling e i f := by
  have runs : e.runs = true := by rcases run with h | h <;> simp [Mode.runs, h]
  unfold quietDue
  simp only [runs, state, quiet, beq_self_eq_true, Bool.and_self, if_true]

/-! ### The settlement of a session that leaves nothing else to do -/

/-- Without a CLOSING account named nothing closes (R144). -/
theorem foldl_closeReleased_none {e : Mode} {f : Floor} (funding : List FundingEntry)
    (unclosed : ∀ en ∈ funding, (f.store.account en.account).isClosing = false) : funding.foldl (closeReleased e) f = f := by
  induction funding with
  | nil => rfl
  | cons en rest ih =>
    have none : closeReleased e f en = f := by
      rw [closeReleased_eq, if_neg]
      simp [Account.closes, unclosed en List.mem_cons_self]
    rw [List.foldl_cons, none]
    exact ih fun en' h => unclosed en' (List.mem_cons_of_mem _ h)

/-- Without a LOW station a pass serves nobody (R146). -/
theorem reevaluate_none {e : Mode} {accounts : List Nat} {f : Floor} (none : ∀ j, (f.station j).state ≠ .low) :
    reevaluate e accounts f = f := by
  have served : (stationIds.filter fun i => (f.station i).state == .low && (f.station i).waitsOn accounts) = [] :=
    List.filter_eq_nil_iff.mpr fun j _ => by simp [none j]
  unfold reevaluate
  split
  · rw [served]
    rfl
  · rfl

/-- A settlement in RUNNING that closes nothing, serves nobody and holds no card leaves its station IDLE (R157, R91). -/
theorem writeSession_plain {e : Mode} {i : StationId} {f : Floor} (good : goodOffset f.rptWr)
    (fitting : fits e f (8 + layoutSize (sessionBody (f.station i).context)) = true) (run : e.run = .running)
    (card : (f.station i).nextCard = none) (pending : (f.station i).outPending = .none)
    (state : (f.station i).state ≠ .jammed) (low : ∀ j, (f.station j).state ≠ .low)
    (unclosed : ∀ en ∈ (f.station i).context.funding, (f.store.account en.account).isClosing = false) :
    writeSession e i f = (sessionApplied e i f).onStation i fun x =>
      { x with state := .idle, context := .empty, graceStart := none } := by
  have stands := sessionApplied_stands good fitting
  have closes : (f.station i).context.funding.foldl (closeReleased e) (sessionApplied e i f) = sessionApplied e i f := by
    refine foldl_closeReleased_none _ fun en h => ?_
    by_cases hn : en.account < 1024
    · have kept := settledBy_state (f.station i).context.funding en.account (f.store.account en.account)
      have was := unclosed en h
      simp only [Account.isClosing] at was ⊢
      rw [stands.accounts _ hn, kept]
      exact was
    · rw [stands.beyond _ hn]
      exact unclosed en h
  have same : ∀ j, (sessionApplied e i f).station j = f.station j := fun j => by
    rw [station_onStore, station_writeReport]
  rw [writeSession_eq]
  unfold sessionReleased
  clear stands
  generalize sessionApplied e i f = p at *
  rw [closes, reevaluate_none]
  · unfold moveOn reachIdle
    simp only [station_onStation_self, Station.clearContext, same, state, pending, run, card, if_false, onStation_onStation,
      ne_eq, not_true_eq_false, reduceCtorEq]
  · intro j
    by_cases hj : j = i
    · subst hj
      rw [station_onStation_self, same]
      exact low j
    · rw [station_onStation_other _ _ _ _ hj, same]
      exact low j

/-- Settles O47: the quiet notice enters SETTLING, and the settlement's parts leave what SessionSettled says. -/
theorem quietPathSettlesTheSession : Obligations.QuietPathSettlesTheSession := by
  unfold Obligations.QuietPathSettlesTheSession
  intro i s l4 offset run x f window quiet len room total link
  have notClearing : s.mode.run ≠ .clearing := by rcases run with h | h <;> simp [h]
  have good : goodOffset s.floor.rptWr := ⟨offset.1, offset.2.1⟩
  have settles : quiet → quietDue i s.mode s.floor = enterSettling s.mode i s.floor := fun h =>
    quietDue_settles run h.1 ((quiet_iff ..).mpr h.2)
  have entered := enterSettling_eq s.mode i s.floor
  dsimp only at entered
  refine ⟨fun none => ?_, fun due full => ?_, fun due roomy funds => ?_, fun due roomy running card pending low unclosed => ?_⟩
  · refine noEffect_of (change := quietDue i) rfl l4 (if_neg fun h => none ?_)
    simp only [Bool.and_eq_true, beq_iff_eq] at h
    exact ⟨h.1.2, (quiet_iff ..).mp h.2⟩
  · refine ⟨s.act (quietDue i), congrArg Host.Outcome.next (unitStep_act _ notClearing), ⟨rfl, rfl, rfl⟩, ?_⟩
    have floor : quietDue i s.mode s.floor = (s.floor.onStation i fun _ => x.settling).enqueue (.session i) := by
      rw [settles due, entered, if_neg full]
    have others : KeepsOthers i s.floor (s.act (quietDue i)).floor := fun j hj => by
      refine settle_same ?_ (l4 j)
      rw [floor, station_enqueue, station_onStation_other _ _ _ _ hj]
    refine ⟨?_, others, keepsBytes_of others (fun a _ _ => ?_) fun _ h => h, ?_⟩
    · rw [act_floor, floor]
      rfl
    · rw [act_floor, settle_store, floor]
      rfl
    · rw [act_floor, settle_station, floor, station_enqueue, station_onStation_self]
      rfl
  · have finish := endsWith_of (c := .quietNotice i) (s := s) (change := quietDue i) rfl notClearing
    rw [settles due, entered, if_pos roomy] at finish
    refine ⟨_, finish, writeSession_settled (by rcases run with h | h <;> simp [Mode.runs, h]) offset.2.2.2 good ?_ ?_ ?_⟩
    · rw [station_onStation_self]
      exact decide_eq_true roomy.2
    · rw [station_onStation_self]
      exact funds.namesOnce
    · rw [station_onStation_self]
      exact fun h => by cases h
  · refine ⟨s.act (quietDue i), congrArg Host.Outcome.next (unitStep_act _ notClearing), ⟨rfl, rfl, rfl⟩, ?_⟩
    rw [if_pos roomy] at entered
    have self : (s.floor.onStation i fun _ => x.settling).station i = x.settling := station_onStation_self ..
    have other : ∀ j, j ≠ i → (s.floor.onStation i fun _ => x.settling).station j = s.floor.station j := fun j hj =>
      station_onStation_other _ _ _ _ hj
    have store : (s.floor.onStation i fun _ => x.settling).store = s.floor.store := rfl
    have wr : (s.floor.onStation i fun _ => x.settling).rptWr = s.floor.rptWr := rfl
    have queue : (s.floor.onStation i fun _ => x.settling).waitQueue = s.floor.waitQueue := rfl
    have flags : (s.floor.onStation i fun _ => x.settling).irqFlag = s.floor.irqFlag := rfl
    generalize (s.floor.onStation i fun _ => x.settling) = g at *
    have fitting : fits s.mode g (8 + layoutSize (sessionBody (g.station i).context)) = true := by
      unfold fits
      rw [self, wr]
      exact decide_eq_true roomy.2
    have stands := sessionApplied_stands (by rw [wr]; exact good) fitting
    have plain := writeSession_plain (by rw [wr]; exact good) fitting running (by rw [self]; exact card)
      (by rw [self]; exact pending) (by rw [self]; exact fun h => by cases h)
      (fun j => by
        by_cases hj : j = i
        · subst hj
          rw [self]
          exact fun h => by cases h
        · rw [other j hj]
          exact low j)
      (by rw [self, store]; exact unclosed)
    have floor := ((settles due).trans entered).trans plain
    have same : ∀ j, (sessionApplied s.mode i g).station j = g.station j := fun j => by
      rw [station_onStore, station_writeReport]
    rw [self, sessionBody_settling] at stands
    obtain ⟨whole, header, number, accounts, -, cells⟩ := stands
    rw [wr] at header number cells whole
    rw [store] at accounts cells
    generalize sessionApplied s.mode i g = p at *
    have others : KeepsOthers i s.floor (s.act (quietDue i)).floor := fun j hj => by
      refine settle_same ?_ (l4 j)
      rw [floor, station_onStation_other _ _ _ _ hj, same, other j hj]
    have after : (s.act (quietDue i)).floor.store = p.store := by
      rw [act_floor, settle_store, floor, onStation_store]
    refine ⟨?_, ?_, ?_, ?_, ?_, fun n hn => ?_, others, ?_, ?_⟩
    · rw [act_floor, settle_waitQueue, floor, onStation_waitQueue, whole]
      exact queue.trans roomy.1
    · rw [act_floor, settle_rptWr, floor, onStation_rptWr, whole]
    · rw [act_floor, settle_irqFlag, floor, onStation_irqFlag, whole]
      exact congrArg (· ||| 2) flags
    · rw [after]
      exact header
    · rw [after]
      exact number
    · rw [after]
      exact accounts n hn
    · refine keepsBytes_of others (fun a outside _ => ?_) fun a record => .inl record
      rw [after]
      refine cells a (fun report => outside (.inr (.inl report))) fun en inside kind _ account => ?_
      exact outside (.inr (.inr ⟨en, inside, kind, account⟩))
    · rw [act_floor, settle_station, floor, station_onStation_self, same, self]
      rfl

end Sys2Proof.Machine
end

section
/-! SUPPORT. Laws L3, L5, L7 and L12 of one station as one predicate with named parts, which also holds inside a step: `extra` are the
sheets that are charged and not yet placed. What the predicate looks at, and the pure changes of a station that keep it. -/

namespace Sys2Proof.Machine

open Sys2Proof

-- One proof after the other: proofs that wait for one another hold a thread each, and its memory.
set_option Elab.async false

/-! ### The predicate -/

/-- Whether a sheet is a stray or names a funding entry of the live session. -/
def Context.Names (c : Context) (p : Sheet) : Prop :=
  ∀ k : Fin 3, p.target = .entry k → c.hasLiveSession = true ∧ k.val < c.funding.length

/-- How a station's state and its context's condition stand together (R77, R78). -/
def Stands : StationState → Condition → Prop
  | .idle, c => c = .empty ∨ c = .abandoned
  | .out, c => c = .empty ∨ c = .abandoned
  | .funding, c => c = .funding
  | .opened, c => c = .live
  | .low, c => c = .live
  | .recovery, c => c = .live
  | .jammed, c => c ≠ .funding
  | .draining, c => c = .ending
  | .settling, c => c = .settling

/-- Whether the last entry is of kind BANK with fewer than 4 grants (R112). -/
def Context.mayAsk (c : Context) : Bool := c.lastEntry.any fun en => en.kind == .bank && decide (en.grants.length < 4)

/-- Whom a request belongs to (R103). -/
def Requests (a : Auth) (c : Context) : Prop :=
  a.state = .none ∨ (a.kind = .first ∧ c.condition = .funding) ∨ (a.kind = .increment ∧ c.condition = .live ∧ c.mayAsk = true)

/-- The session sheets among sheets. -/
abbrev sessionSheets (sheets : List Sheet) : Nat := sheets.countP fun p => p.target != .stray

/-- The station laws at one station while the sheets `extra` are charged and not yet placed. -/
structure Sound (e : Mode) (extra : List Sheet) (x : Station) : Prop where
  resting : e.runs = false → (x.state = .idle ∨ x.state = .out) ∧ x.line.inPath = []
  stands : Stands x.state x.context.condition
  outPath : x.state = .out → x.line.inPath = []
  nextCard : x.nextCard.isSome = true →
    x.state = .draining ∨ x.state = .settling ∨ (x.state = .jammed ∧ x.context.condition ≠ .live)
  noLost : x.state ≠ .jammed → x.state ≠ .recovery → x.jam.lost = []
  noReport : x.jam.pendingReport.isSome = true → x.state = .jammed
  room : x.line.inPath.length ≤ x.copy.pathDepth
  depth : x.copy.pathDepth ≤ 8
  house : x.copy.house < 1024
  lostRoom : x.jam.lost.length ≤ 9
  named : ∀ p ∈ x.line.inPath ++ extra, x.context.Names p
  lostNamed : ∀ l ∈ x.jam.lost, x.context.Names l.sheet ∧ (l.fate = .stray ↔ l.sheet.target = .stray)
  credited : (x.jam.lost.countP fun l => l.fate == .credited) ≤ x.context.lostCredited
  charged : (x.jam.lost.countP fun l => l.fate == .charged) ≤ x.context.lostCharged
  count : x.context.condition = .live ∨ x.context.condition = .ending →
    x.context.fed = x.context.delivered.toList.sum + sessionSheets (x.line.inPath ++ extra) + x.context.lostCredited +
      x.context.lostCharged
  funds : FundsLaw x.context
  grants : ∀ en ∈ x.context.funding, en.grants.length ≤ 4
  request : Requests x.auth x.context
  deferred : x.auth.state = .deferred → x.auth.slot.isSome = true

theorem stands_iff (t : StationState) (c : Condition) (path : List Sheet) :
    (match t with
      | .idle => c = .empty ∨ c = .abandoned
      | .out => (c = .empty ∨ c = .abandoned) ∧ path = []
      | .funding => c = .funding
      | .opened | .low | .recovery => c = .live
      | .jammed => c ≠ .funding
      | .draining => c = .ending
      | .settling => c = .settling) ↔ Stands t c ∧ (t = .out → path = []) := by
  cases t <;> simp [Stands]

/-- `Sound` says what the station laws say, when no sheet is on its way. -/
theorem sound_iff (e : Mode) (x : Station) :
    Sound e [] x ↔ StandingLaw e x ∧ SheetLaw x ∧ CountLaw x ∧ FundsLaw x.context ∧ RequestLaw x := by
  constructor
  · intro h
    refine ⟨⟨h.resting, (stands_iff _ _ _).mpr ⟨h.stands, h.outPath⟩, h.nextCard, h.noLost, h.noReport⟩, ?_, ?_, h.funds, ?_⟩
    · refine ⟨h.room, h.depth, h.house, h.lostRoom, ?_, h.lostNamed, h.credited, h.charged⟩
      exact fun p hp => h.named p (by rw [List.append_nil]; exact hp)
    · simpa [CountLaw] using h.count
    · exact ⟨h.grants, h.request, h.deferred⟩
  · rintro ⟨⟨resting, state, nextCard, noLost, noReport⟩, ⟨room, depth, house, lostRoom, named, lostNamed, credited, charged⟩,
      count, funds, grants, request, deferred⟩
    obtain ⟨stands, outPath⟩ := (stands_iff _ _ _).mp state
    exact {
      resting, stands, outPath, nextCard, noLost, noReport, room, depth, house, lostRoom, lostNamed, credited, charged, funds, grants
      request, deferred
      named := fun p hp => named p (by rwa [List.append_nil] at hp)
      count := by simpa [CountLaw] using count }

/-! ### Shapes: what the laws look at in a funding entry -/

/-- A funding entry without its amounts. -/
def FundingEntry.shape (en : FundingEntry) : FundingEntry := { en with hold := 0, committed := 0 }

/-- The shapes of a funding list. -/
abbrev Context.shapes (c : Context) : List FundingEntry := c.funding.map FundingEntry.shape

theorem shapes_length {c d : Context} (h : d.shapes = c.shapes) : d.funding.length = c.funding.length := by
  simpa using congrArg List.length h

/-- Every statement about the shapes of the entries of a list is one about its shapes. -/
theorem forall_mem_shapes (c : Context) (p : FundingEntry → Prop) : (∀ en ∈ c.shapes, p en) ↔ ∀ en ∈ c.funding, p en.shape := by
  simp [Context.shapes]

theorem lastEntry_of_shapes (c : Context) : c.shapes.getLast? = c.lastEntry.map FundingEntry.shape := by
  rw [Context.shapes, List.getLast?_map]
  rfl

theorem mayAsk_of_shapes {c d : Context} (h : d.shapes = c.shapes) : d.mayAsk = c.mayAsk := by
  have same : ∀ b : Context, b.mayAsk = b.shapes.getLast?.any fun en => en.kind == .bank && decide (en.grants.length < 4) :=
    fun b => by
      rw [lastEntry_of_shapes, Option.any_map]
      rfl
  rw [same, same, h]

/-- Law L7 looks at kinds, accounts and slots of the entries alone. -/
theorem FundsLaw.of_map {c d : Context} (law : FundsLaw c) (view : FundingEntry → FundingEntry)
    (kind : ∀ en, (view en).kind = en.kind) (account : ∀ en, (view en).account = en.account)
    (slot : ∀ en, (view en).slot = en.slot) (same : d.funding.map view = c.funding.map view) (chain : d.chain = c.chain)
    (holds : d.holdsFunds = true → c.holdsFunds = true) : FundsLaw d := by
  obtain ⟨length, distinct, some, order, each⟩ := law
  have count : d.funding.length = c.funding.length := by simpa using congrArg List.length same
  have names : FundingEntry.namesAccount ∘ view = FundingEntry.namesAccount := by
    funext en
    simp only [Function.comp, FundingEntry.namesAccount, kind]
  have accounts : ∀ l : List FundingEntry, (l.filter FundingEntry.namesAccount).map FundingEntry.account =
      ((l.map view).filter FundingEntry.namesAccount).map FundingEntry.account := fun l => by
    rw [List.filter_map, List.map_map, names, show FundingEntry.account ∘ view = FundingEntry.account from funext account]
  have slots : ∀ l : List FundingEntry, l.map FundingEntry.slot = (l.map view).map FundingEntry.slot := fun l => by
    rw [List.map_map, show FundingEntry.slot ∘ view = FundingEntry.slot from funext slot]
  refine ⟨count ▸ length, ?_, fun h => ?_, ?_, fun en inside => ?_⟩
  · rw [accounts, same, ← accounts]
    exact distinct
  · have := some (holds h)
    exact fun none => this (List.eq_nil_of_length_eq_zero (by rw [← count, none]; rfl))
  · rw [slots, same, ← slots]
    exact order
  · have seen := List.mem_map_of_mem (f := view) inside
    rw [same] at seen
    obtain ⟨en', inside', equal⟩ := List.mem_map.mp seen
    have law := each en' inside'
    have kinds : en'.kind = en.kind := by rw [← kind, equal, kind]
    have accounts : en'.account = en.account := by rw [← account, equal, account]
    have slots : en'.slot = en.slot := by rw [← slot, equal, slot]
    simpa only [FundingEntry.namesAccount, kinds, accounts, slots, ← chain] using law

theorem FundsLaw.congr {c d : Context} (law : FundsLaw c) (shapes : d.shapes = c.shapes) (chain : d.chain = c.chain)
    (holds : d.holdsFunds = true → c.holdsFunds = true) : FundsLaw d :=
  law.of_map FundingEntry.shape (fun _ => rfl) (fun _ => rfl) (fun _ => rfl) shapes chain holds

theorem grants_of_shapes {c d : Context} (h : ∀ en ∈ c.funding, en.grants.length ≤ 4) (shapes : d.shapes = c.shapes) :
    ∀ en ∈ d.funding, en.grants.length ≤ 4 := by
  have all := (forall_mem_shapes c fun en => en.grants.length ≤ 4).mpr h
  rw [← shapes] at all
  exact (forall_mem_shapes d _).mp all

/-- A change of amounts keeps the shapes. -/
theorem shapes_modify (l : List FundingEntry) (k : Nat) (change : FundingEntry → FundingEntry)
    (h : ∀ en, (change en).shape = en.shape) :
    (l.modify k change).map FundingEntry.shape = l.map FundingEntry.shape := by
  apply List.ext_getElem?
  intro j
  rw [List.getElem?_map, List.getElem?_map, List.getElem?_modify]
  cases l[j]? with
  | none => rfl
  | some en =>
    by_cases hj : k = j
    · simp [hj, h]
    · simp [hj]

/-! ### What the predicate looks at -/

/-- Two stations that agree in all that the station laws look at. -/
structure SameBooks (x y : Station) : Prop where
  state : y.state = x.state
  nextCard : y.nextCard = x.nextCard
  condition : y.context.condition = x.context.condition
  chain : y.context.chain = x.context.chain
  shapes : y.context.shapes = x.context.shapes
  fed : y.context.fed = x.context.fed
  delivered : y.context.delivered = x.context.delivered
  lostCredited : y.context.lostCredited = x.context.lostCredited
  lostCharged : y.context.lostCharged = x.context.lostCharged
  authState : y.auth.state = x.auth.state
  authKind : y.auth.kind = x.auth.kind
  authSlot : y.auth.slot = x.auth.slot
  lost : y.jam.lost = x.jam.lost
  pending : y.jam.pendingReport = x.jam.pendingReport
  path : y.line.inPath = x.line.inPath
  depth : y.copy.pathDepth = x.copy.pathDepth
  house : y.copy.house = x.copy.house

theorem SameBooks.refl (x : Station) : SameBooks x x := by constructor <;> rfl

theorem SameBooks.trans {x y z : Station} (a : SameBooks x y) (b : SameBooks y z) : SameBooks x z :=
  ⟨b.state.trans a.state, b.nextCard.trans a.nextCard, b.condition.trans a.condition, b.chain.trans a.chain,
    b.shapes.trans a.shapes, b.fed.trans a.fed, b.delivered.trans a.delivered, b.lostCredited.trans a.lostCredited,
    b.lostCharged.trans a.lostCharged, b.authState.trans a.authState, b.authKind.trans a.authKind, b.authSlot.trans a.authSlot,
    b.lost.trans a.lost, b.pending.trans a.pending, b.path.trans a.path, b.depth.trans a.depth, b.house.trans a.house⟩

theorem hasLive_iff (c : Context) : c.hasLiveSession = true ↔ c.condition = .live ∨ c.condition = .ending := by
  simp [Context.hasLiveSession]

theorem hasLive_congr {c d : Context} (h : d.condition = c.condition) : d.hasLiveSession = c.hasLiveSession := by
  unfold Context.hasLiveSession
  rw [h]

theorem Context.Names.congr {c d : Context} {p : Sheet} (h : c.Names p) (condition : d.condition = c.condition)
    (length : c.funding.length ≤ d.funding.length) : d.Names p := fun k hk => by
  obtain ⟨live, index⟩ := h k hk
  exact ⟨by rw [hasLive_congr condition]; exact live, by omega⟩

/-- A stray names nothing. -/
theorem Context.Names.of_stray {c : Context} {p : Sheet} (h : p.target = .stray) : c.Names p := fun k hk => by
  rw [h] at hk
  cases hk

theorem Requests.congr {a b : Auth} {c d : Context} (h : Requests a c) (state : b.state = a.state) (kind : b.kind = a.kind)
    (condition : d.condition = c.condition) (shapes : d.shapes = c.shapes) : Requests b d := by
  unfold Requests at *
  rw [state, kind, condition, mayAsk_of_shapes shapes]
  exact h

theorem Sound.congr {e e' : Mode} {extra : List Sheet} {x y : Station} (h : Sound e extra x) (same : SameBooks x y)
    (runs : e'.runs = e.runs) : Sound e' extra y := by
  have names : ∀ p, x.context.Names p → y.context.Names p := fun p hp =>
    hp.congr same.condition (by rw [shapes_length same.shapes])
  refine
    { resting := ?_, stands := ?_, outPath := ?_, nextCard := ?_, noLost := ?_, noReport := ?_, room := ?_, depth := ?_
      house := ?_, lostRoom := ?_, named := ?named, lostNamed := ?lostNamed, credited := ?_, charged := ?_, count := ?_
      funds := h.funds.congr same.shapes same.chain ?holds, grants := grants_of_shapes h.grants same.shapes
      request := h.request.congr same.authState same.authKind same.condition same.shapes, deferred := ?_ }
  case lostNamed => exact fun l hl => ⟨names _ (h.lostNamed l (same.lost ▸ hl)).1, (h.lostNamed l (same.lost ▸ hl)).2⟩
  case named => exact fun p hp => names p (h.named p (same.path ▸ hp))
  case holds =>
    unfold Context.holdsFunds
    rw [same.condition]
    exact id
  all_goals
    simp only [same.state, same.nextCard, same.condition, same.fed, same.delivered, same.lostCredited, same.lostCharged,
      same.authState, same.authSlot, same.lost, same.pending, same.path, same.depth, same.house, runs]
  exacts [h.resting, h.stands, h.outPath, h.nextCard, h.noLost, h.noReport, h.room, h.depth, h.house, h.lostRoom, h.credited,
    h.charged, h.count, h.deferred]

end Sys2Proof.Machine
end

section
/-! SUPPORT. The changes of one station that keep its laws: requests, openings and ends of sessions, the ways to IDLE and OUT, and
sheets that are fed, placed, delivered and lost. -/

namespace Sys2Proof.Machine

open Sys2Proof

-- One proof after the other: proofs that wait for one another hold a thread each, and its memory.
set_option Elab.async false

section Changes

variable {e : Mode} {extra : List Sheet} {x : Station}

/-! ### Consequences -/

/-- A station that is neither IDLE nor OUT is one of a part that runs (R77). -/
theorem Sound.runs (h : Sound e extra x) (idle : x.state ≠ .idle) (out : x.state ≠ .out) : e.runs = true := by
  by_contra stopped
  rcases (h.resting (by simpa using stopped)).1 with state | state
  · exact idle state
  · exact out state

theorem Sound.condition_of_checks (h : Sound e extra x) (checks : x.state.checksFunds = true) : x.context.condition = .live := by
  have stands := h.stands
  cases state : x.state <;> simp [state, StationState.checksFunds] at checks <;> simpa [state, Stands] using stands

/-- The states a station with a LIVE context can be in (R78). -/
theorem Sound.state_of_live (h : Sound e extra x) (live : x.context.condition = .live) :
    x.state = .opened ∨ x.state = .low ∨ x.state = .recovery ∨ x.state = .jammed := by
  have stands := h.stands
  cases state : x.state <;> simp [state, Stands, live] at stands ⊢

theorem Sound.state_of_ending (h : Sound e extra x) (ending : x.context.condition = .ending) :
    x.state = .draining ∨ x.state = .jammed := by
  have stands := h.stands
  cases state : x.state <;> simp [state, Stands, ending] at stands ⊢

theorem Sound.state_of_settling (h : Sound e extra x) (settling : x.context.condition = .settling) :
    x.state = .settling ∨ x.state = .jammed := by
  have stands := h.stands
  cases state : x.state <;> simp [state, Stands, settling] at stands ⊢

theorem Sound.state_of_funding (h : Sound e extra x) (funding : x.context.condition = .funding) : x.state = .funding := by
  have stands := h.stands
  cases state : x.state <;> simp [state, Stands, funding] at stands ⊢

theorem Sound.nextCard_none (h : Sound e extra x) (draining : x.state ≠ .draining) (settling : x.state ≠ .settling)
    (jammed : x.state = .jammed → x.context.condition = .live) : x.nextCard = none := by
  by_contra some
  rcases h.nextCard (Option.isSome_iff_ne_none.mpr some) with state | state | ⟨state, live⟩
  · exact draining state
  · exact settling state
  · exact live (jammed state)

theorem Sound.noReport_none (h : Sound e extra x) (jammed : x.state ≠ .jammed) : x.jam.pendingReport = none := by
  by_contra some
  exact jammed (h.noReport (Option.isSome_iff_ne_none.mpr some))

/-- A request is the FIRST of a funding wait or the INCREMENT of a LIVE session (R103). -/
theorem Sound.noRequest (h : Sound e extra x) (funding : x.context.condition ≠ .funding) (live : x.context.condition ≠ .live) :
    x.auth.state = .none := by
  rcases h.request with none | ⟨_, c⟩ | ⟨_, c, _⟩
  · exact none
  · exact absurd c funding
  · exact absurd c live

/-- Without a live session every sheet is a stray (R7). -/
theorem Context.Names.stray {c : Context} {p : Sheet} (h : c.Names p) (dead : c.hasLiveSession = false) : p.target = .stray := by
  cases target : p.target with
  | stray => rfl
  | entry k =>
    have := (h k target).1
    rw [dead] at this
    cases this

/-- Without a live session the lost list holds strays alone. -/
theorem Sound.lost_strays (h : Sound e extra x) (dead : x.context.hasLiveSession = false) :
    ∀ l ∈ x.jam.lost, l.fate = .stray ∧ l.sheet.target = .stray := fun l hl => by
  obtain ⟨names, fate⟩ := h.lostNamed l hl
  have target := names.stray dead
  exact ⟨fate.mpr target, target⟩

theorem countP_fate_of_strays {lost : List LostSheet} (h : ∀ l ∈ lost, l.fate = .stray ∧ l.sheet.target = .stray) {fate : Fate}
    (other : fate ≠ .stray) : (lost.countP fun l => l.fate == fate) = 0 := by
  refine List.countP_eq_zero.mpr fun l hl => ?_
  rw [(h l hl).1]
  simpa using other.symm

/-! ### Cards, lists and requests -/

theorem Sound.clearNext (h : Sound e extra x) : Sound e extra { x with nextCard := none } :=
  { h with nextCard := fun some => nomatch some }

theorem Sound.withAuth (h : Sound e extra x) {a : Auth} (request : Requests a x.context)
    (deferred : a.state = .deferred → a.slot.isSome = true) : Sound e extra { x with auth := a } :=
  { h with request := request, deferred := deferred }

theorem Sound.cancelled (h : Sound e extra x) : Sound e extra { x with auth := x.auth.closed } :=
  h.withAuth (.inl rfl) fun state => nomatch state

theorem Sound.finaliseLost (h : Sound e extra x) : Sound e extra x.finaliseLost :=
  { h with
    noLost := fun _ _ => rfl, lostRoom := Nat.zero_le _, lostNamed := fun _ l => (nomatch l), credited := Nat.zero_le _
    charged := Nat.zero_le _ }

/-- The strays of a path emptied (R20), while no session is live. -/
theorem Sound.dropPath (h : Sound e [] x) (dead : x.context.hasLiveSession = false) :
    Sound e [] { x with line := x.line.dropPath } :=
  { h with
    resting := fun stopped => ⟨(h.resting stopped).1, rfl⟩, outPath := fun _ => rfl, room := Nat.zero_le _
    named := fun _ p => nomatch p
    count := fun live => by rw [(hasLive_iff _).mpr live] at dead; cases dead }

/-! ### The end of a context -/

theorem fundsLaw_nil {c : Context} (funding : c.funding = []) (holds : c.holdsFunds = false) : FundsLaw c := by
  refine ⟨?_, ?_, fun h => ?_, ?_, ?_⟩
  · rw [funding]; exact Nat.zero_le _
  · rw [funding]; exact List.nodup_nil
  · rw [holds] at h; cases h
  · rw [funding]; exact List.Pairwise.nil
  · rw [funding]; exact fun _ m => nomatch m

/-- A context without a live session cleared (R91). -/
theorem Sound.cleared (h : Sound e [] x) (dead : x.context.hasLiveSession = false) (auth : x.auth.state = .none)
    (stands : Stands x.state .empty) : Sound e [] { x with context := .empty } :=
  have strays := h.lost_strays dead
  { h with
    stands := stands
    nextCard := fun some => (h.nextCard some).imp_right fun other => other.imp_right fun j => ⟨j.1, fun c => nomatch c⟩
    named := fun p hp => .of_stray ((h.named p hp).stray dead)
    lostNamed := fun l hl => ⟨.of_stray (strays l hl).2, (h.lostNamed l hl).2⟩
    credited := by rw [countP_fate_of_strays strays (by decide)]; exact Nat.zero_le _
    charged := by rw [countP_fate_of_strays strays (by decide)]; exact Nat.zero_le _
    count := fun live => by rcases live with live | live <;> cases live
    funds := fundsLaw_nil rfl rfl
    grants := fun _ m => nomatch m
    request := .inl auth }

/-- A station with nothing lost and no JAM report waiting, which leaves its state for IDLE with an empty context and without a next
card (R91). -/
theorem Sound.idled (h : Sound e [] x) (dead : x.context.hasLiveSession = false) (auth : x.auth.state = .none)
    (lost : x.jam.lost = []) (report : x.jam.pendingReport = none) :
    Sound e [] { x with state := .idle, context := .empty, nextCard := none } :=
  { h with
    resting := fun stopped => ⟨.inl rfl, (h.resting stopped).2⟩
    stands := .inl rfl
    outPath := fun state => nomatch state
    nextCard := fun some => nomatch some
    noLost := fun _ _ => lost
    noReport := fun some => by simp [report] at some
    named := fun p hp => .of_stray ((h.named p hp).stray dead)
    lostNamed := fun l hl => by simp [lost] at hl
    credited := by simp [lost]
    charged := by simp [lost]
    count := fun live => by rcases live with live | live <;> cases live
    funds := fundsLaw_nil rfl rfl
    grants := fun _ m => nomatch m
    request := .inl auth }

/-- An IDLE station goes OUT with an empty path (R20, R98). -/
theorem Sound.out (h : Sound e [] { x with state := .idle, nextCard := none }) :
    Sound e [] { x with state := .out, nextCard := none, line := x.line.dropPath } :=
  have stands : x.context.condition = .empty ∨ x.context.condition = .abandoned := h.stands
  { h with
    resting := fun _ => ⟨.inr rfl, rfl⟩
    stands := stands
    outPath := fun _ => rfl
    noLost := fun _ _ => h.noLost (fun c => nomatch c) (fun c => nomatch c)
    noReport := fun some => by cases h.noReport some
    nextCard := fun some => nomatch some
    room := Nat.zero_le _
    named := fun _ p => nomatch p
    count := fun live => by rcases stands with s | s <;> rcases live with l | l <;> rw [s] at l <;> cases l }

/-- A station that is IDLE or OUT comes into service (R77, R99). -/
theorem Sound.entered (h : Sound e [] x) (state : x.state = .idle ∨ x.state = .out) :
    Sound e [] { x with state := .idle, nextCard := none } :=
  have stands : x.context.condition = .empty ∨ x.context.condition = .abandoned := by
    have := h.stands
    rcases state with s | s <;> simpa [s, Stands] using this
  have free : x.state ≠ .jammed ∧ x.state ≠ .recovery := by rcases state with s | s <;> simp [s]
  { h with
    resting := fun stopped => ⟨.inl rfl, (h.resting stopped).2⟩
    stands := stands
    outPath := fun state => nomatch state
    nextCard := fun some => nomatch some
    noLost := fun _ _ => h.noLost free.1 free.2
    noReport := fun some => absurd (h.noReport some) free.1 }

/-- A LIVE session ended (R88). -/
theorem Sound.ended (h : Sound e extra x) (live : x.context.condition = .live) (now : Time) (cause : EndCause) :
    Sound e extra (x.ended now cause) := by
  have states := h.state_of_live live
  have jammed : (x.ended now cause).state = .jammed ↔ x.state = .jammed := by
    simp only [Station.ended]
    split <;> simp [*]
  have card : x.nextCard = none := by
    refine h.nextCard_none ?_ ?_ fun _ => live <;> rcases states with s | s | s | s <;> simp [s]
  have final : (x.ended now cause).jam.lost = if x.state = .recovery then [] else x.jam.lost := rfl
  have mem : ∀ l, l ∈ (x.ended now cause).jam.lost → l ∈ x.jam.lost := fun l hl => by
    rw [final] at hl
    split at hl
    · cases hl
    · exact hl
  have fewer : ∀ p, ((x.ended now cause).jam.lost.countP p) ≤ x.jam.lost.countP p := fun p => by
    rw [final]
    split
    · exact Nat.zero_le _
    · exact Nat.le_refl _
  have names : ∀ p, x.context.Names p → (x.ended now cause).context.Names p := fun p hp k hk => ⟨rfl, (hp k hk).2⟩
  have runs : e.runs = true := h.runs (by rcases states with s | s | s | s <;> simp [s]) (by rcases states with s | s | s | s <;> simp [s])
  exact { h with
    resting := fun stopped => by rw [runs] at stopped; cases stopped
    stands := by
      simp only [Station.ended]
      split
      · exact fun c => nomatch c
      · rfl
    outPath := fun state => by
      simp only [Station.ended] at state
      split at state <;> cases state
    nextCard := fun some => by simp [Station.ended, card] at some
    noLost := fun notJammed _ => by
      rw [final]
      split
      · rfl
      · exact h.noLost (fun c => notJammed (jammed.mpr c)) ‹_›
    noReport := fun some => jammed.mpr (h.noReport some)
    lostRoom := by
      rw [final]
      split
      · exact Nat.zero_le _
      · exact h.lostRoom
    named := fun p hp => names p (h.named p hp)
    lostNamed := fun l hl => ⟨names _ (h.lostNamed l (mem l hl)).1, (h.lostNamed l (mem l hl)).2⟩
    credited := (fewer _).trans h.credited
    charged := (fewer _).trans h.charged
    count := fun _ => h.count (.inl live)
    funds := h.funds.congr rfl rfl fun _ => by simp [Context.holdsFunds, live]
    request := .inl rfl
    deferred := fun state => nomatch state }

/-! ### The beginning of a context -/

/-- A context in which a session begins: one entry, and nothing fed, delivered or lost (R73 step 4). -/
structure Begins (c : Context) : Prop where
  condition : c.condition = .live
  fresh : c.fed = 0 ∧ c.delivered.toList.sum = 0 ∧ c.lostCredited = 0 ∧ c.lostCharged = 0
  funds : FundsLaw c
  grants : ∀ en ∈ c.funding, en.grants.length ≤ 4

/-- A session opens at a station that is IDLE or in a funding wait, without a request (R73). -/
theorem Sound.opened (h : Sound e [] x) (state : x.state = .idle ∨ x.state = .funding) (runs : e.runs = true)
    (auth : x.auth.state = .none) {c : Context} (begins : Begins c) :
    Sound e [] { x with state := .opened, context := c, line := x.line.clearPace } := by
  have dead : x.context.hasLiveSession = false := by
    have stands := h.stands
    rcases state with s | s <;> simp only [s, Stands] at stands
    · rcases stands with c | c <;> simp [Context.hasLiveSession, c]
    · simp [Context.hasLiveSession, stands]
  have lost : x.jam.lost = [] := by rcases state with s | s <;> exact h.noLost (by simp [s]) (by simp [s])
  have report : x.jam.pendingReport = none := h.noReport_none (by rcases state with s | s <;> simp [s])
  have card : x.nextCard = none := by rcases state with s | s <;> exact h.nextCard_none (by simp [s]) (by simp [s]) (by simp [s])
  have strays : ∀ p ∈ x.line.inPath ++ [], p.target = .stray := fun p hp => (h.named p hp).stray dead
  obtain ⟨fed, delivered, credited, charged⟩ := begins.fresh
  exact { h with
    resting := fun stopped => by rw [runs] at stopped; cases stopped
    stands := begins.condition
    outPath := fun state => nomatch state
    nextCard := fun some => by simp [card] at some
    noLost := fun _ _ => lost
    noReport := fun some => by simp [report] at some
    named := fun p hp => .of_stray (strays p hp)
    lostNamed := fun l hl => by simp [lost] at hl
    credited := by simp [lost]
    charged := by simp [lost]
    count := fun _ => by
      have none : sessionSheets (x.line.inPath ++ []) = 0 := List.countP_eq_zero.mpr fun p hp => by simp [strays p hp]
      change c.fed = c.delivered.toList.sum + sessionSheets (x.line.inPath ++ []) + c.lostCredited + c.lostCharged
      omega
    funds := begins.funds
    grants := begins.grants
    request := .inl auth }

/-- A bank card's funding wait begins at an IDLE station (R104). -/
theorem Sound.funding (h : Sound e [] x) (state : x.state = .idle) (runs : e.runs = true) {c : Context}
    (condition : c.condition = .funding) (none : c.funding = []) : Sound e [] { x with state := .funding, context := c } := by
  have dead : x.context.hasLiveSession = false := by
    have stands := h.stands
    simp only [state, Stands] at stands
    rcases stands with c | c <;> simp [Context.hasLiveSession, c]
  have lost : x.jam.lost = [] := h.noLost (by simp [state]) (by simp [state])
  have report : x.jam.pendingReport = .none := h.noReport_none (by simp [state])
  have card : x.nextCard = .none := h.nextCard_none (by simp [state]) (by simp [state]) (by simp [state])
  have live : x.context.condition ≠ .live := fun c => by simp [Context.hasLiveSession, c] at dead
  have auth : x.auth.state = .none := h.noRequest (fun c => by have := h.state_of_funding c; simp [state] at this) live
  exact { h with
    resting := fun stopped => by rw [runs] at stopped; cases stopped
    stands := condition
    outPath := fun state => nomatch state
    nextCard := fun some => by simp [card] at some
    noLost := fun _ _ => lost
    noReport := fun some => by simp [report] at some
    named := fun p hp => .of_stray ((h.named p hp).stray dead)
    lostNamed := fun l hl => by simp [lost] at hl
    credited := by simp [lost]
    charged := by simp [lost]
    count := fun live => by dsimp only at live; rw [condition] at live; rcases live with l | l <;> cases l
    funds := fundsLaw_nil none (by simp [Context.holdsFunds, condition])
    grants := by dsimp only; rw [none]; exact fun _ m => nomatch m
    request := .inl auth }

end Changes

end Sys2Proof.Machine
end

section
/-! SUPPORT. Sheets fed, placed, delivered, lost and recovered at one station whose laws hold, and the ways of a live session. -/

namespace Sys2Proof.Machine

open Sys2Proof

-- One proof after the other: proofs that wait for one another hold a thread each, and its memory.
set_option Elab.async false

section Sheets

variable {e : Mode} {extra : List Sheet} {x : Station} {s : Sheet}

/-! ### The path and the sheets on their way -/

theorem sessionSheets_append (a b : List Sheet) : sessionSheets (a ++ b) = sessionSheets a + sessionSheets b :=
  List.countP_append

theorem sessionSheets_stray {s : Sheet} (stray : s.target = .stray) : sessionSheets [s] = 0 := by simp [stray]

theorem sessionSheets_entry {s : Sheet} {k : Fin 3} (entry : s.target = .entry k) : sessionSheets [s] = 1 := by
  simp [entry]

/-- Sheets move between the path and those on their way, or strays come and go. -/
theorem Sound.rearranged (h : Sound e extra x) {l : LineUnit} {extra' : List Sheet}
    (room : l.inPath.length ≤ x.copy.pathDepth) (rest : e.runs = false ∨ x.state = .out → l.inPath = [])
    (named : ∀ p ∈ l.inPath ++ extra', x.context.Names p)
    (count : sessionSheets (l.inPath ++ extra') = sessionSheets (x.line.inPath ++ extra)) :
    Sound e extra' { x with line := l } :=
  { h with
    resting := fun stopped => ⟨(h.resting stopped).1, rest (.inl stopped)⟩
    outPath := fun out => rest (.inr out)
    room := room
    named := named
    count := fun live => by
      rw [count]
      exact h.count live }

/-- A sheet with no session to its name joins those on their way (R7, R18). -/
theorem Sound.strayFed (h : Sound e [] x) (stray : s.target = .stray) : Sound e [s] x := by
  refine h.rearranged (l := x.line) h.room (fun rest => ?_) (fun p hp => ?_) ?_
  · exact rest.elim (fun stopped => (h.resting stopped).2) h.outPath
  · rcases List.mem_append.mp hp with path | one
    · exact h.named p (List.mem_append_left _ path)
    · exact List.mem_singleton.mp one ▸ .of_stray stray
  · rw [sessionSheets_append, sessionSheets_append, sessionSheets_stray stray]
    rfl

/-- A stray on its way is delivered or lost without a list (R12, R118). -/
theorem Sound.strayGone (h : Sound e (s :: extra) x) (stray : s.target = .stray) : Sound e extra x := by
  refine h.rearranged (l := x.line) h.room (fun rest => ?_) (fun p hp => ?_) ?_
  · exact rest.elim (fun stopped => (h.resting stopped).2) h.outPath
  · exact h.named p (by simp only [List.mem_append, List.mem_cons] at hp ⊢; exact hp.imp_right .inr)
  · rw [sessionSheets_append, sessionSheets_append, ← List.singleton_append, sessionSheets_append, sessionSheets_stray stray,
      Nat.zero_add]

/-- A sheet is placed at the end of the path (R8). -/
theorem Sound.placed (h : Sound e [s] x) (service : inService e x = true) (room : x.line.inPath.length < x.copy.pathDepth) :
    Sound e [] (x.onLine fun l => { l with inPath := l.inPath ++ [s] }) := by
  obtain ⟨runs, state⟩ : e.runs = true ∧ x.state ≠ .out := by simpa [inService] using service
  refine h.rearranged (l := { x.line with inPath := x.line.inPath ++ [s] }) ?_ (fun rest => ?_) (fun p hp => ?_) ?_
  · simp only [List.length_append, List.length_singleton]
    omega
  · rcases rest with stopped | out
    · rw [runs] at stopped; cases stopped
    · exact absurd out state
  · exact h.named p (by simpa using hp)
  · rw [List.append_nil]

/-- The oldest sheet leaves the path (R10, R11). -/
theorem Sound.taken (h : Sound e [] x) {rest : List Sheet} (path : x.line.inPath = s :: rest) {l : LineUnit}
    (left : l.inPath = rest) : Sound e [s] { x with line := l } := by
  refine h.rearranged (l := l) ?_ (fun resting => ?_) (fun p hp => ?_) ?_
  · have := h.room
    rw [path, List.length_cons] at this
    rw [left]
    omega
  · have none : x.line.inPath = [] := resting.elim (fun stopped => (h.resting stopped).2) h.outPath
    rw [path] at none
    cases none
  · refine h.named p ?_
    rw [left] at hp
    rw [path]
    simpa [or_comm] using hp
  · rw [left, path, List.append_nil, sessionSheets_append, ← List.singleton_append (l := rest), sessionSheets_append, Nat.add_comm]

/-! ### Charges and deliveries -/

/-- A live session has a funding entry (R79). -/
theorem Sound.funding_pos (h : Sound e extra x) (live : x.context.hasLiveSession = true) : 0 < x.context.funding.length := by
  obtain ⟨-, -, some, -⟩ := h.funds
  refine List.length_pos_iff.mpr (some ?_)
  rcases (hasLive_iff _).mp live with c | c <;> simp [Context.holdsFunds, c]

/-- A session's sheet is charged to the last funding entry (R7, R80). -/
theorem Sound.sessionFed (h : Sound e [] x) (live : x.context.hasLiveSession = true) (target : s.target = x.context.lastTarget)
    (price : Nat) (lag : Bool) : Sound e [s] (x.onContext (Context.charge price lag)) := by
  have some := h.funding_pos live
  have few : x.context.funding.length ≤ 3 := h.funds.1
  have shapes : (x.context.charge price lag).shapes = x.context.shapes := shapes_modify _ _ _ fun _ => rfl
  have names : ∀ p, x.context.Names p → (x.context.charge price lag).Names p := fun p hp =>
    hp.congr rfl (by rw [shapes_length shapes])
  exact { h with
    named := fun p hp => by
      rcases List.mem_append.mp hp with path | one
      · exact names p (h.named p (List.mem_append_left _ path))
      · rw [List.mem_singleton.mp one]
        refine names s fun k hk => ⟨live, ?_⟩
        rw [target, Context.lastTarget] at hk
        cases hk
        change (x.context.funding.length - 1) % 3 < _
        omega
    lostNamed := fun l hl => ⟨names _ (h.lostNamed l hl).1, (h.lostNamed l hl).2⟩
    count := fun _ => by
      have count := h.count ((hasLive_iff _).mp live)
      have one := sessionSheets_entry (s := s) (target.trans rfl)
      rw [sessionSheets_append] at count ⊢
      rw [one]
      simp only [onContext_context, onContext_line, Context.charge, Context.onLast]
      simp only [sessionSheets, List.countP_nil] at count ⊢
      omega
    funds := h.funds.congr shapes rfl id
    grants := grants_of_shapes h.grants shapes
    request := h.request.congr rfl rfl rfl shapes }

/-- A session's sheet on its way is delivered (R11). -/
theorem Sound.delivered (h : Sound e (s :: extra) x) {k : Fin 3} (target : s.target = .entry k) (cls : SheetClass) :
    Sound e extra (x.onContext (Context.deliver cls)) := by
  have sheet := h.named s (List.mem_append_right _ List.mem_cons_self) k target
  exact { h with
    named := fun p hp => h.named p (by simp only [List.mem_append, List.mem_cons] at hp ⊢; exact hp.imp_right .inr)
    count := fun live => by
      have count := h.count live
      have total := totalDelivered_deliver cls x.context
      have one := sessionSheets_entry target
      rw [← List.singleton_append, sessionSheets_append, sessionSheets_append, one] at count
      rw [sessionSheets_append, onContext_line]
      change (x.context.deliver cls).delivered.toList.sum = _ at total
      change x.context.fed = (x.context.deliver cls).delivered.toList.sum + _ + x.context.lostCredited + x.context.lostCharged
      omega
    funds := h.funds.congr rfl rfl id
    request := h.request.congr rfl rfl rfl rfl }

/-! ### Lost sheets -/

/-- What a lost sheet leaves of its session's books (R117). -/
theorem lose_books (c : Context) (s : Sheet) (fate : Fate) :
    (c.lose s fate).shapes = c.shapes ∧ (c.lose s fate).condition = c.condition ∧ (c.lose s fate).chain = c.chain ∧
      (c.lose s fate).fed = c.fed ∧ (c.lose s fate).delivered = c.delivered := by
  unfold Context.lose
  cases fate with
  | credited =>
    cases s.target with
    | entry k => exact ⟨shapes_modify _ _ _ fun _ => rfl, rfl, rfl, rfl, rfl⟩
    | stray => exact ⟨rfl, rfl, rfl, rfl, rfl⟩
  | charged => exact ⟨rfl, rfl, rfl, rfl, rfl⟩
  | stray => exact ⟨rfl, rfl, rfl, rfl, rfl⟩

/-- A lost sheet is counted under its fate (R117). -/
theorem lose_counts (x : Station) (s : Sheet) :
    let c := x.context.lose s (x.fateOf s)
    c.lostCredited = x.context.lostCredited + (if x.fateOf s = .credited then 1 else 0) ∧
      c.lostCharged = x.context.lostCharged + (if x.fateOf s = .charged then 1 else 0) ∧
      (if x.fateOf s = .credited then 1 else 0) + (if x.fateOf s = .charged then 1 else 0) = sessionSheets [s] ∧
      (x.fateOf s = .stray ↔ s.target = .stray) := by
  unfold Station.fateOf
  cases target : s.target with
  | stray => simp [Context.lose, target]
  | entry k =>
    by_cases cap : x.context.lostCredited < x.copy.creditCap
    · simp [Context.lose, Context.onEntry, target, cap]
    · simp [Context.lose, target, cap]

/-- A sheet on its way is lost: credited or charged to its session, or counted in the live tally (R117, R118). -/
theorem Sound.lose (h : Sound e (s :: extra) x) {l : LineUnit} (path : l.inPath = x.line.inPath) :
    Sound e extra { x with context := x.context.lose s (x.fateOf s), line := l } := by
  obtain ⟨shapes, condition, chain, fed, delivered⟩ := lose_books x.context s (x.fateOf s)
  obtain ⟨credited, charged, one, -⟩ := lose_counts x s
  generalize x.context.lose s (x.fateOf s) = c at *
  have names : ∀ p, x.context.Names p → c.Names p := fun p hp => hp.congr condition (by rw [shapes_length shapes])
  exact { h with
    resting := fun stopped => ⟨(h.resting stopped).1, path.trans (h.resting stopped).2⟩
    stands := by dsimp only; rw [condition]; exact h.stands
    outPath := fun out => path.trans (h.outPath out)
    nextCard := fun some => by dsimp only; rw [condition]; exact h.nextCard some
    room := by dsimp only; rw [path]; exact h.room
    named := fun p hp => names p (h.named p (by
      rw [path] at hp
      simp only [List.mem_append, List.mem_cons] at hp ⊢
      exact hp.imp_right .inr))
    lostNamed := fun l hl => ⟨names _ (h.lostNamed l hl).1, (h.lostNamed l hl).2⟩
    credited := h.credited.trans (by dsimp only; omega)
    charged := h.charged.trans (by dsimp only; omega)
    count := fun live => by
      dsimp only at live ⊢
      rw [condition] at live
      have count := h.count live
      rw [← List.singleton_append, sessionSheets_append, sessionSheets_append] at count
      rw [fed, delivered, path, sessionSheets_append]
      omega
    funds := h.funds.congr shapes chain (by unfold Context.holdsFunds; rw [condition]; exact id)
    grants := grants_of_shapes h.grants shapes
    request := h.request.congr rfl rfl condition shapes }

/-- A JAMMED station places a lost sheet on its lost list with its fate (R116 steps 3 and 4). -/
theorem Sound.lost (h : Sound e (s :: extra) x) (jammed : x.state = .jammed) (room : x.jam.lost.length < 9) {l : LineUnit}
    (path : l.inPath = x.line.inPath) :
    Sound e extra { x with
      context := x.context.lose s (x.fateOf s), line := l, jam := { x.jam with lost := x.jam.lost ++ [⟨s, x.fateOf s⟩] } } := by
  have lose := h.lose path
  obtain ⟨shapes, condition, -⟩ := lose_books x.context s (x.fateOf s)
  obtain ⟨credited, charged, -, fate⟩ := lose_counts x s
  have sheet := h.named s (List.mem_append_right _ List.mem_cons_self)
  exact { lose with
    noLost := fun free _ => absurd jammed free
    lostRoom := by
      simp only [List.length_append, List.length_singleton]
      omega
    lostNamed := fun m hm => by
      rcases List.mem_append.mp hm with old | new
      · exact lose.lostNamed m old
      · rw [List.mem_singleton.mp new]
        exact ⟨sheet.congr condition (by rw [shapes_length shapes]), fate⟩
    credited := by
      have := h.credited
      simp only [List.countP_append, List.countP_singleton, beq_iff_eq]
      omega
    charged := by
      have := h.charged
      simp only [List.countP_append, List.countP_singleton, beq_iff_eq]
      omega }

/-- A jam declared at a station in service makes its path's sheets ones on their way (R116 steps 1 to 3). -/
theorem Sound.jamming (h : Sound e extra x) (runs : e.runs = true) (free : x.state ≠ .jammed) :
    Sound e (x.line.inPath ++ extra) x.jamming := by
  have report := h.noReport_none free
  have card : x.nextCard.isSome = true → x.context.condition ≠ .live := fun some live => by
    have states := h.state_of_live live
    have empty := h.nextCard_none (by rcases states with s | s | s | s <;> simp [s])
      (by rcases states with s | s | s | s <;> simp [s]) fun _ => live
    simp [empty] at some
  by_cases funding : x.state = .funding
  · have condition : x.context.condition = .funding := by simpa [funding, Stands] using h.stands
    have dead : x.context.hasLiveSession = false := by simp [Context.hasLiveSession, condition]
    rw [jamming_funding funding]
    exact { h with
      resting := fun stopped => by rw [runs] at stopped; cases stopped
      stands := fun c => nomatch c
      outPath := fun state => nomatch state
      nextCard := fun _ => .inr (.inr ⟨rfl, fun c => nomatch c⟩)
      noLost := fun jammed _ => absurd rfl jammed
      noReport := fun _ => rfl
      room := Nat.zero_le _
      lostRoom := Nat.zero_le _
      named := fun p hp => .of_stray ((h.named p (by simpa using hp)).stray dead)
      lostNamed := fun _ m => nomatch m
      credited := Nat.zero_le _
      charged := Nat.zero_le _
      count := fun live => by rcases live with live | live <;> cases live
      funds := fundsLaw_nil rfl rfl
      grants := fun _ m => nomatch m
      request := .inl rfl
      deferred := fun state => nomatch state }
  · have condition : x.context.condition ≠ .funding := fun c => funding (h.state_of_funding c)
    rw [jamming_other funding]
    exact { h with
      resting := fun stopped => by rw [runs] at stopped; cases stopped
      stands := condition
      outPath := fun state => nomatch state
      nextCard := fun some => .inr (.inr ⟨rfl, card some⟩)
      noLost := fun jammed _ => absurd rfl jammed
      noReport := fun _ => rfl
      room := Nat.zero_le _
      lostRoom := Nat.zero_le _
      named := fun p hp => h.named p (by simpa using hp)
      lostNamed := fun _ m => nomatch m
      credited := Nat.zero_le _
      charged := Nat.zero_le _
      count := fun live => by simpa using h.count live }

/-- What a late delivery leaves of its session's books, but for the sheet delivered (R124). -/
theorem recover_books (c : Context) {l : LostSheet} {k : Fin 3} (entry : l.sheet.target = .entry k) (session : l.fate ≠ .stray) :
    let d := c.recover l
    d.shapes = c.shapes ∧ d.condition = c.condition ∧ d.chain = c.chain ∧ d.fed = c.fed ∧ d.delivered = c.delivered ∧
      d.lostCredited = c.lostCredited - (if l.fate = .credited then 1 else 0) ∧
      d.lostCharged = c.lostCharged - (if l.fate = .charged then 1 else 0) ∧
      (if l.fate = .credited then 1 else 0) + (if l.fate = .charged then 1 else 0) = 1 := by
  unfold Context.recover
  cases fate : l.fate with
  | stray => exact absurd fate session
  | credited =>
    rw [entry]
    exact ⟨shapes_modify _ _ _ fun _ => rfl, rfl, rfl, rfl, rfl, rfl, rfl, rfl⟩
  | charged =>
    rw [entry]
    exact ⟨rfl, rfl, rfl, rfl, rfl, rfl, rfl, rfl⟩

/-- The oldest lost sheet is delivered late to its session (R124). -/
theorem Sound.recovered (h : Sound e [] x) {l : LostSheet} {rest : List LostSheet} (lost : x.jam.lost = l :: rest)
    (session : l.fate ≠ .stray) (cls : SheetClass) {j : JamUnit} (left : j.lost = rest)
    (report : j.pendingReport = x.jam.pendingReport) :
    Sound e [] { x with context := (x.context.recover l).deliver cls, jam := j } := by
  obtain ⟨names, fate⟩ := h.lostNamed l (by rw [lost]; exact List.mem_cons_self)
  have credited := h.credited
  have charged := h.charged
  simp only [lost, List.countP_cons, beq_iff_eq] at credited charged
  obtain ⟨k, entry⟩ : ∃ k, l.sheet.target = .entry k := by
    cases target : l.sheet.target with
    | stray => exact absurd (fate.mpr target) session
    | entry k => exact ⟨k, rfl⟩
  obtain ⟨shapes, condition, chain, fed, delivered, lessCredited, lessCharged, one⟩ := recover_books x.context entry session
  generalize x.context.recover l = c at *
  have keeps : ∀ p, x.context.Names p → (c.deliver cls).Names p := fun p hp =>
    hp.congr (d := c.deliver cls) condition (shapes_length shapes).ge
  exact { h with
    stands := by change Stands _ c.condition; rw [condition]; exact h.stands
    nextCard := fun some => by change _ ∨ _ ∨ (_ ∧ c.condition ≠ .live); rw [condition]; exact h.nextCard some
    noLost := fun jammed recovery => by
      have none := h.noLost jammed recovery
      rw [lost] at none
      cases none
    noReport := fun some => h.noReport (report ▸ some)
    lostRoom := by
      have := h.lostRoom
      rw [lost, List.length_cons] at this
      dsimp only
      rw [left]
      omega
    named := fun p hp => keeps p (h.named p hp)
    lostNamed := fun m hm => by
      have old := h.lostNamed m (by rw [lost]; exact List.mem_cons_of_mem _ (left ▸ hm))
      exact ⟨keeps _ old.1, old.2⟩
    credited := by
      change (j.lost.countP _) ≤ c.lostCredited
      rw [left]
      omega
    charged := by
      change (j.lost.countP _) ≤ c.lostCharged
      rw [left]
      omega
    count := fun live => by
      change c.condition = _ ∨ c.condition = _ at live
      rw [condition] at live
      have count := h.count live
      have sum : (c.deliver cls).delivered.toList.sum = c.delivered.toList.sum + 1 := totalDelivered_deliver cls c
      change c.fed = (c.deliver cls).delivered.toList.sum + _ + c.lostCredited + c.lostCharged
      rw [fed, sum, delivered]
      dsimp only at count ⊢
      omega
    funds := h.funds.congr shapes chain (by
      change (c.deliver cls).holdsFunds = true → _
      unfold Context.holdsFunds
      change (c.condition == .live || c.condition == .ending || c.condition == .settling) = true → _
      rw [condition]
      exact id)
    grants := grants_of_shapes (c := x.context) h.grants shapes
    request := h.request.congr rfl rfl condition shapes }

/-- The oldest lost sheet, a stray, is delivered late (R125). -/
theorem Sound.lostGone (h : Sound e extra x) {l : LostSheet} {rest : List LostSheet} (lost : x.jam.lost = l :: rest)
    {j : JamUnit} (left : j.lost = rest) (report : j.pendingReport = x.jam.pendingReport) : Sound e extra { x with jam := j } :=
  have fewer : ∀ p, rest.countP p ≤ x.jam.lost.countP p := fun p => by
    rw [lost, List.countP_cons]
    exact Nat.le_add_right _ _
  { h with
    noLost := fun jammed recovery => by
      have none := h.noLost jammed recovery
      rw [lost] at none
      cases none
    noReport := fun some => h.noReport (report ▸ some)
    lostRoom := by
      have := h.lostRoom
      rw [lost, List.length_cons] at this
      dsimp only
      rw [left]
      omega
    lostNamed := fun m hm => h.lostNamed m (by rw [lost]; exact List.mem_cons_of_mem _ (left ▸ hm))
    credited := (left ▸ fewer _).trans h.credited
    charged := (left ▸ fewer _).trans h.charged }

/-! ### The ways of a session -/

/-- A LIVE session goes on in OPEN, LOW or RECOVERY, its lost list final but in RECOVERY (R81, R83, R84, R123, R126, R127). -/
theorem Sound.goesOn (h : Sound e extra x) (live : x.context.condition = .live) {t : StationState} {j : JamUnit}
    (state : t = .opened ∨ t = .low ∨ t = .recovery) (lost : j.lost = [] ∨ j.lost = x.jam.lost ∧ t = .recovery)
    (report : j.pendingReport = none) : Sound e extra { x with state := t, jam := j } := by
  have states := h.state_of_live live
  have runs : e.runs = true := h.runs (by rcases states with s | s | s | s <;> simp [s]) (by rcases states with s | s | s | s <;> simp [s])
  have card : x.nextCard = none := by
    refine h.nextCard_none ?_ ?_ fun _ => live <;> rcases states with s | s | s | s <;> simp [s]
  have mem : ∀ l ∈ j.lost, l ∈ x.jam.lost := fun l hl => by
    rcases lost with none | ⟨same, -⟩
    · rw [none] at hl; cases hl
    · exact same ▸ hl
  have fewer : ∀ p, j.lost.countP p ≤ x.jam.lost.countP p := fun p => by
    rcases lost with none | ⟨same, -⟩
    · rw [none]; exact Nat.zero_le _
    · rw [same]
  exact { h with
    resting := fun stopped => by rw [runs] at stopped; cases stopped
    stands := by rcases state with s | s | s <;> rw [s] <;> exact live
    outPath := fun out => by dsimp only at out; rw [out] at state; simp at state
    nextCard := fun some => by simp [card] at some
    noLost := fun _ recovery => by
      rcases lost with none | ⟨-, s⟩
      · exact none
      · exact absurd s recovery
    noReport := fun some => by dsimp only at some; rw [report] at some; cases some
    lostRoom := by
      rcases lost with none | ⟨same, -⟩
      · dsimp only; rw [none]; exact Nat.zero_le _
      · dsimp only; rw [same]; exact h.lostRoom
    lostNamed := fun l hl => h.lostNamed l (mem l hl)
    credited := (fewer _).trans h.credited
    charged := (fewer _).trans h.charged }

/-- A session that has ended drains or waits for its settlement after a jam (R95). -/
theorem Sound.resumed (h : Sound e extra x) (runs : e.runs = true) {t : StationState}
    (state : t = .draining ∧ x.context.condition = .ending ∨ t = .settling ∧ x.context.condition = .settling)
    (lost : x.jam.lost = []) (report : x.jam.pendingReport = none) : Sound e extra { x with state := t } := by
  exact { h with
    resting := fun stopped => by rw [runs] at stopped; cases stopped
    stands := by rcases state with ⟨s, c⟩ | ⟨s, c⟩ <;> rw [s] <;> exact c
    outPath := fun out => by dsimp only at out; rw [out] at state; simp at state
    nextCard := fun _ => by rcases state with ⟨s, -⟩ | ⟨s, -⟩ <;> simp [s]
    noLost := fun _ _ => lost
    noReport := fun some => by simp [report] at some }

/-- A station whose jam has cleared, or whose wait has been given up, is free for IDLE or OUT (R91, R95). -/
theorem Sound.freed (h : Sound e [] x) (context : x.context.condition = .empty ∨ x.context.condition = .abandoned)
    (lost : x.jam.lost = []) (report : x.jam.pendingReport = none) : Sound e [] { x with state := .idle, nextCard := none } :=
  { h with
    resting := fun stopped => ⟨.inl rfl, (h.resting stopped).2⟩
    stands := context
    outPath := fun state => nomatch state
    nextCard := fun some => nomatch some
    noLost := fun _ _ => lost
    noReport := fun some => by simp [report] at some }

/-- A DRAINING station with an empty path enters SETTLING (R90). -/
theorem Sound.settling (h : Sound e [] x) (state : x.state = .draining) (path : x.line.inPath = []) :
    Sound e [] { x with state := .settling, context := { x.context with condition := .settling } } := by
  have condition : x.context.condition = .ending := by simpa [state, Stands] using h.stands
  have lost : x.jam.lost = [] := h.noLost (by simp [state]) (by simp [state])
  have report : x.jam.pendingReport = none := h.noReport_none (by simp [state])
  have auth := h.noRequest (by simp [condition]) (by simp [condition])
  exact { h with
    resting := fun stopped => by have := (h.resting stopped).1; simp [state] at this
    stands := rfl
    outPath := fun state => nomatch state
    nextCard := fun _ => .inr (.inl rfl)
    noLost := fun _ _ => lost
    noReport := fun some => by simp [report] at some
    named := fun p hp => by rw [path] at hp; cases hp
    lostNamed := fun l hl => by rw [lost] at hl; cases hl
    count := fun live => by rcases live with live | live <;> cases live
    funds := h.funds.congr rfl rfl fun _ => by simp [Context.holdsFunds, condition]
    request := .inl auth }

/-! ### Funding lists -/

theorem mayAsk_iff (c : Context) : c.mayAsk = true ↔
    ∃ before last, c.funding = before ++ [last] ∧ last.kind = .bank ∧ last.grants.length < 4 := by
  rw [Context.mayAsk, Context.lastEntry]
  rcases List.eq_nil_or_concat c.funding with none | ⟨before, last, list⟩
  · simp [none]
  · rw [List.concat_eq_append] at list
    simp [list]

/-- A bank grant joins the last entry of a session that may ask for one (R108, R112). -/
theorem Sound.granted (h : Sound e extra x) (ask : x.context.mayAsk = true) (auth : x.auth.state = .none) (g : Grant) :
    Sound e extra (x.addGrant g) := by
  obtain ⟨before, last, list, kind, few⟩ := (mayAsk_iff _).mp ask
  have funding : (x.addGrant g).context.funding =
      before ++ [{ last with hold := last.hold + g.amount, grants := last.grants ++ [g] }] := by
    rw [Station.addGrant, Context.onLast, list, List.length_append, List.length_singleton, Nat.add_sub_cancel]
    simp [List.modify_eq_set_getElem?]
  have names : ∀ p, x.context.Names p → (x.addGrant g).context.Names p := fun p hp =>
    hp.congr rfl (by rw [funding, list, List.length_append, List.length_append]; rfl)
  exact { h with
    named := fun p hp => names p (h.named p hp)
    lostNamed := fun l hl => ⟨names _ (h.lostNamed l hl).1, (h.lostNamed l hl).2⟩
    funds := h.funds.of_map (fun en => { en with hold := 0, grants := [] }) (fun _ => rfl) (fun _ => rfl) (fun _ => rfl)
      (by rw [funding, list, List.map_append, List.map_append]; rfl) rfl id
    grants := fun en inside => by
      rw [funding] at inside
      rcases List.mem_append.mp inside with old | new
      · exact h.grants en (by rw [list]; exact List.mem_append_left _ old)
      · rw [List.mem_singleton.mp new]
        simp only [List.length_append, List.length_singleton]
        omega
    request := .inl auth }

/-- A hold is taken on the next usable account of the chain (R82 step 2). -/
theorem Sound.spilled (h : Sound e extra x) (live : x.context.condition = .live) {last : FundingEntry}
    (entry : x.context.lastEntry = some last) (kind : last.kind = .account) {m : Memory} {slot account : Nat}
    (target : spillTarget m x last = some (slot, account)) (hold : Nat) :
    Sound e extra { x with context := { x.context with funding := x.context.funding ++
      [{ kind := .account, account := account, slot := slot, hold := hold, committed := 0, grants := [] }] } } := by
  have short := spillTarget_short target
  rw [spillTarget, if_pos short] at target
  have inside := List.mem_of_find?_eq_some target
  have found := List.find?_some target
  simp only [usable, Bool.and_eq_true, decide_eq_true_eq, List.all_eq_true, bne_iff_ne] at found
  obtain ⟨⟨later, ⟨number, -⟩, -⟩, fresh⟩ := found
  obtain ⟨-, distinct, -, order, each⟩ := h.funds
  obtain ⟨before, list⟩ := List.getLast?_eq_some_iff.mp entry
  have auth : x.auth.state = .none := by
    rcases h.request with none | ⟨-, c⟩ | ⟨-, -, ask⟩
    · exact none
    · rw [live] at c; cases c
    · rw [Context.mayAsk, entry] at ask
      simp [kind] at ask
  have names : ∀ (en : FundingEntry) (p : Sheet), x.context.Names p →
      ({ x.context with funding := x.context.funding ++ [en] } : Context).Names p := fun en p hp =>
    hp.congr rfl (by simp)
  exact { h with
    named := fun p hp => names _ p (h.named p hp)
    lostNamed := fun l hl => ⟨names _ _ (h.lostNamed l hl).1, (h.lostNamed l hl).2⟩
    funds := by
      refine ⟨?_, ?_, fun _ => by simp, ?_, fun en member => ?_⟩
      · simp only [List.length_append, List.length_singleton]
        omega
      · rw [List.filter_append, List.map_append]
        refine List.nodup_append.mpr ⟨distinct, by simp [FundingEntry.namesAccount], fun a old b new same => ?_⟩
        obtain ⟨en, member, rfl⟩ := List.mem_map.mp old
        obtain rfl : b = account := by simpa [FundingEntry.namesAccount] using new
        exact fresh en (List.mem_of_mem_filter member) same
      · rw [List.map_append]
        refine List.pairwise_append.mpr ⟨order, by simp, fun a old b new => ?_⟩
        obtain rfl : b = slot := by simpa using new
        rw [list, List.map_append, List.pairwise_append] at order
        rw [list, List.map_append, List.mem_append] at old
        rcases old with old | old
        · exact (order.2.2 a old last.slot (by simp)).trans later
        · obtain rfl : a = last.slot := by simpa using old
          exact later
      · rcases List.mem_append.mp member with old | new
        · exact each en old
        · rw [List.mem_singleton.mp new]
          exact ⟨fun _ => inside, fun _ => number⟩
    grants := fun en member => by
      rcases List.mem_append.mp member with old | new
      · exact h.grants en old
      · rw [List.mem_singleton.mp new]
        exact Nat.zero_le _
    request := .inl auth }

end Sheets

end Sys2Proof.Machine
end

section
/-! SUPPORT. The work of the units that keeps the laws of its station: requests, the funding check and the stray tallies. -/

namespace Sys2Proof.Machine

open Sys2Proof

-- One proof after the other: proofs that wait for one another hold a thread each, and its memory.
set_option Elab.async false

/-! ### The relation -/

/-- Work that keeps the laws of station `i` while the sheets `extra` are on their way. -/
structure Keeps (e : Mode) (i : StationId) (extra : List Sheet) (f g : Floor) : Prop where
  sound : Sound e extra (f.station i) → Sound e extra (g.station i)

section Work

variable {e : Mode} {i : StationId} {extra : List Sheet} {f g k : Floor}

theorem Keeps.refl (f : Floor) : Keeps e i extra f f := ⟨id⟩

theorem Keeps.trans (a : Keeps e i extra f g) (b : Keeps e i extra g k) : Keeps e i extra f k :=
  ⟨fun h => b.sound (a.sound h)⟩

/-- Work that leaves station `i` alone. -/
theorem Keeps.same (h : g.station i = f.station i) : Keeps e i extra f g := ⟨fun sound => by rwa [h]⟩

/-- Work that changes nothing that the laws of station `i` look at. -/
theorem Keeps.books (h : SameBooks (f.station i) (g.station i)) : Keeps e i extra f g := ⟨fun sound => sound.congr h rfl⟩

/-- A change of station `i` as it stands that keeps its laws. -/
theorem Keeps.change {change : Station → Station} (h : Sound e extra (f.station i) → Sound e extra (change (f.station i))) :
    Keeps e i extra f (f.onStation i change) := ⟨fun sound => by
  rw [station_onStation_self]
  exact h sound⟩

/-- A change of station `i` that touches nothing its laws look at. -/
theorem keeps_onStation {change : Station → Station}
    (h : ∀ x, SameBooks x (change x) := by intro x; constructor <;> rfl) : Keeps e i extra f (f.onStation i change) :=
  .change fun sound => sound.congr (h _) rfl

/-! ### Frames -/

theorem onStore_keeps (change : Memory → Memory) : Keeps e i extra f (f.onStore change) := .same (station_onStore ..)

theorem offer_keeps (t : TxFrame) : Keeps e i extra f (offer i t f) := keeps_onStation

theorem showAndEject_keeps (msg : Message) (a b : Int) : Keeps e i extra f (showAndEject i msg a b f) :=
  (offer_keeps _).trans (offer_keeps _)

theorem showRemaining_keeps : Keeps e i extra f (showRemaining i f) := offer_keeps _

theorem stationNotice_keeps (j : StationId) (event : NoticeEvent) (cause : OutCause) :
    Keeps e i extra f (stationNotice e j event cause f) := .same (station_stationNotice ..)

theorem linkDown_keeps : Keeps e i extra f (linkDown e i f) :=
  Keeps.trans (.change fun h => h.clearNext.congr (by constructor <;> rfl) rfl) (stationNotice_keeps ..)

theorem applySerial_keeps (old : WorkingCopy) : Keeps e i extra f (applySerial e i old f) := by
  unfold applySerial
  dsimp only
  split
  · split
    · exact (keeps_onStation).trans linkDown_keeps
    · exact keeps_onStation
  · split
    · exact (keeps_onStation).trans (offer_keeps _)
    · exact .refl f

/-! ### Authorization -/

/-- Whether a station's context may have a request of a kind (R103). -/
def Context.mayRequest (c : Context) (kind : AuthKind) : Prop :=
  (kind = .first ∧ c.condition = .funding) ∨ (kind = .increment ∧ c.condition = .live ∧ c.mayAsk = true)

/-- A report slot is written while its record is not DEFERRED (R105). -/
theorem writeAuth_keeps (ready : (f.station i).auth.state ≠ .deferred) : Keeps e i extra f (writeAuth e i f) := by
  unfold writeAuth
  split
  · exact .refl f
  · next w _ =>
    refine Keeps.trans (g := writeReport e .authWanted (stationNumber i) w.body f) (.same (station_writeReport ..)) (.change fun h => ?_)
    rw [station_writeReport] at h ⊢
    unfold Auth.reportWritten
    split
    · next unsent =>
      exact h.withAuth (h.request.imp_left fun none => by rw [none] at unsent; cases unsent.1) fun state => nomatch state
    · exact h.withAuth h.request fun state => absurd state ready

/-- A request produced from a station whose laws hold but for its request's record (R104). -/
theorem produceAuth_sound {a : Auth} (h : Sound e extra { f.station i with auth := a }) {kind : AuthKind}
    (may : (f.station i).context.mayRequest kind) (amount : Nat) : Sound e extra ((produceAuth e i kind amount f).station i) := by
  unfold produceAuth
  dsimp only
  generalize asked : f.onStation i _ = g
  have unsent : ∃ b : Auth, g.station i = { f.station i with auth := b } ∧ b.state = .unsent ∧ b.kind = kind := by
    rw [← asked, station_onStation_self]
    exact ⟨_, rfl, rfl, rfl⟩
  obtain ⟨b, station, state, kinds⟩ := unsent
  have sound : Sound e extra (g.station i) := by
    rw [station]
    exact h.withAuth (a := b) (.inr (by rw [kinds]; exact may)) fun deferred => by rw [state] at deferred; cases deferred
  split
  · exact (writeAuth_keeps (by rw [station]; dsimp only; rw [state]; exact fun d => nomatch d)).sound sound
  · exact sound

theorem wantAuth_keeps {kind : AuthKind} (may : (f.station i).context.mayRequest kind) (amount : Nat) :
    Keeps e i extra f (wantAuth e i kind amount f) := by
  unfold wantAuth
  split
  · next slot => exact .change fun h => h.withAuth (.inr may) fun _ => slot
  · exact ⟨fun h => produceAuth_sound h may amount⟩

theorem cancelAuth_keeps : Keeps e i extra f (cancelAuth i f) := .change fun h => h.cancelled

/-- The waiting report of a request is written, and a DEFERRED request produced (R105). -/
theorem writeWaitingAuth_keeps : Keeps e i extra f (writeWaitingAuth e i f) := by
  unfold writeWaitingAuth
  dsimp only
  by_cases deferred : (f.station i).auth.state = .deferred
  · refine ⟨fun h => ?_⟩
    obtain ⟨w, slot⟩ := Option.isSome_iff_exists.mp (h.deferred deferred)
    have written : (writeAuth e i f).station i = { f.station i with auth := { (f.station i).auth with slot := none } } := by
      unfold writeAuth
      rw [slot]
      dsimp only
      rw [station_onStation_self, station_writeReport, Auth.reportWritten, if_neg fun unsent => by
        rw [deferred] at unsent; cases unsent.1]
    rw [written, if_pos deferred]
    refine produceAuth_sound (a := (f.station i).auth) (by rw [written]; exact h) ?_ _
    rw [written]
    exact h.request.resolve_left fun none => by rw [deferred] at none; cases none
  · have next : (writeAuth e i f |>.station i).auth.state ≠ .deferred := by
      unfold writeAuth
      split
      · exact deferred
      · rw [station_onStation_self, station_writeReport, Auth.reportWritten]
        dsimp only
        split
        · exact fun d => nomatch d
        · exact deferred
    rw [if_neg next]
    exact writeAuth_keeps deferred

/-! ### The funding request -/

theorem topUp_books (i : StationId) (f : Floor) : SameBooks (f.station i) ((topUp i f).station i) := by
  unfold topUp
  dsimp only
  split
  · rw [station_onStation_self]
    exact { SameBooks.refl (f.station i) with shapes := shapes_modify _ _ _ fun _ => rfl }
  · exact .refl _

theorem lastIs_iff (c : Context) (kind : FundingKind) : c.lastIs kind = true ↔ ∃ en, c.lastEntry = some en ∧ en.kind = kind := by
  unfold Context.lastIs
  cases c.lastEntry <;> simp

theorem lastIs_of_shapes {c d : Context} (h : d.shapes = c.shapes) {kind : FundingKind} (last : c.lastIs kind = true) :
    d.lastIs kind = true := by
  obtain ⟨en, entry, same⟩ := (lastIs_iff _ _).mp last
  have shape := lastEntry_of_shapes c
  rw [← h, lastEntry_of_shapes d, entry] at shape
  obtain ⟨en', entry', equal⟩ := Option.map_eq_some_iff.mp shape
  exact (lastIs_iff _ _).mpr ⟨en', entry', (congrArg FundingEntry.kind equal).trans same⟩

/-- A spill leaves a last entry of kind ACCOUNT in a session that is as live as before (R82 step 2). -/
theorem spillTo_last (i : StationId) (slot account : Nat) (f : Floor) :
    ((spillTo i slot account f).station i).context.condition = (f.station i).context.condition ∧
      ((spillTo i slot account f).station i).context.lastIs .account = true := by
  unfold spillTo
  dsimp only
  rw [station_onStation_self, station_onStore]
  exact ⟨rfl, (lastIs_iff _ _).mpr ⟨_, List.getLast?_concat, rfl⟩⟩

/-- A funding request keeps the laws of a live session whose last entry is of kind ACCOUNT (R82). -/
theorem fundingSteps_keeps (spills : Nat) (live : (f.station i).context.condition = .live)
    (account : (f.station i).context.lastIs .account = true) : Keeps e i extra f (fundingSteps i spills f) := by
  induction spills generalizing f with
  | zero => exact .books (topUp_books i f)
  | succ n ih =>
    have books := topUp_books i f
    have top : Keeps e i extra f (topUp i f) := .books books
    simp only [fundingSteps]
    split
    · exact top
    · split
      · exact top
      · next last entry =>
        split
        · next slot number target =>
          have live' := books.condition.trans live
          obtain ⟨en, found, kind⟩ := (lastIs_iff _ _).mp (lastIs_of_shapes books.shapes account)
          obtain ⟨condition, lastIs⟩ := spillTo_last i slot number (topUp i f)
          obtain rfl : last = en := by rw [found] at entry; exact (Option.some.inj entry).symm
          refine top.trans (Keeps.trans ?_ (ih (condition.trans live') lastIs))
          unfold spillTo
          refine Keeps.trans (.same (station_onStore ..)) (.change fun h => ?_)
          rw [station_onStore] at h ⊢
          exact h.spilled live' entry kind target _
        · exact top

/-! ### The funding check -/

theorem askIncrement_keeps (live : (f.station i).context.condition = .live) : Keeps e i extra f (askIncrement e i f) := by
  unfold askIncrement
  dsimp only
  split
  · next entry last =>
    split
    · next may =>
      refine wantAuth_keeps (.inr ⟨rfl, live, ?_⟩) _
      rw [Context.mayAsk, last]
      simp [may.1, may.2.1]
    · exact .refl f
  · exact .refl f

theorem enterLow_keeps (live : (f.station i).context.condition = .live) (free : (f.station i).state ≠ .jammed) :
    Keeps e i extra f (enterLow e i f) := by
  unfold enterLow
  dsimp only
  refine (Keeps.change fun h => ?_).trans ((offer_keeps _).trans ((stationNotice_keeps ..).trans
    ((keeps_onStation).trans (askIncrement_keeps ?_))))
  · have report := h.noReport_none free
    split
    · exact h.goesOn live (t := .low) (j := { (f.station i).jam with lost := [] }) (.inr (.inl rfl)) (.inl rfl) report
    · next recovery => exact h.goesOn live (t := .low) (j := (f.station i).jam) (.inr (.inl rfl)) (.inl (h.noLost free recovery)) report
  · rw [station_onStation_self, station_stationNotice, offer_eq, station_onStation_self, station_onStation_self]
    dsimp only
    split <;> exact live

theorem checkPassed_keeps (live : (f.station i).context.condition = .live) : Keeps e i extra f (checkPassed i f) := by
  unfold checkPassed
  split
  · next low =>
    refine (Keeps.change fun h => ?_).trans showRemaining_keeps
    have lost := h.noLost (by simp [low]) (by simp [low])
    exact (h.goesOn live (t := .opened) (j := (f.station i).jam) (.inl rfl) (.inl lost) (h.noReport_none (by simp [low]))).congr
      (by constructor <;> rfl) rfl
  · exact .refl f

theorem checkFailed_keeps (live : (f.station i).context.condition = .live) (free : (f.station i).state ≠ .jammed) :
    Keeps e i extra f (checkFailed e i f) := by
  unfold checkFailed
  split
  · exact askIncrement_keeps live
  · exact enterLow_keeps live free

theorem fundingCheckOpen_keeps : Keeps e i extra f (fundingCheckOpen e i f) := by
  refine ⟨fun h => ?_⟩
  unfold fundingCheckOpen
  dsimp only
  split
  · next checks =>
    have live := h.condition_of_checks checks
    have free : (f.station i).state ≠ .jammed := fun jammed => by simp [StationState.checksFunds, jammed] at checks
    have request : ∀ g, g = (if !(f.station i).fundsPass && (f.station i).context.lastIs .account then
        fundingSteps i 2 f else f) → Sound e extra (g.station i) ∧ (g.station i).context.condition = .live ∧
        (g.station i).state ≠ .jammed := by
      rintro g rfl
      split
      · next request =>
        obtain ⟨l, station⟩ := fundingSteps_station i 2 f
        refine ⟨(fundingSteps_keeps 2 live (by simp at request; exact request.2)).sound h, ?_, ?_⟩ <;> rw [station] <;> assumption
      · exact ⟨h, live, free⟩
    generalize (if !(f.station i).fundsPass && (f.station i).context.lastIs .account then fundingSteps i 2 f else f) = g at *
    obtain ⟨sound, live', free'⟩ := request g rfl
    split
    · exact (checkPassed_keeps live').sound sound
    · exact (checkFailed_keeps live' free').sound sound
  · exact h

theorem fundingCheck_keeps : Keeps e i extra f (fundingCheck e i f) :=
  (fundingCheckOpen_keeps).trans (.same rfl)

/-! ### Stray tallies -/

theorem writeStray_books (e : Mode) (i : StationId) (f : Floor) : SameBooks (f.station i) ((writeStray e i f).station i) := by
  rw [writeStray_station_self]
  constructor <;> rfl

/-- The closing of a tally touches nothing that the station laws look at (R19). -/
theorem closeStray_books (e : Mode) (i : StationId) (cause : EndCause) (f : Floor) :
    SameBooks (f.station i) ((closeStray e i cause f).station i) := by
  have closed : SameBooks (f.station i) ((f.onStation i fun x =>
      { x with line := x.line.closeTally x.copy.house e.partTime cause }).station i) := by
    rw [station_onStation_self]
    constructor <;> rfl
  unfold closeStray
  dsimp only
  split
  · exact .refl _
  · split
    · exact closed
    · split
      · exact closed.trans (writeStray_books ..)
      · exact closed

theorem closeStray_keeps (cause : EndCause) : Keeps e i extra f (closeStray e i cause f) := .books (closeStray_books ..)

end Work

end Sys2Proof.Machine
end

section
/-! SUPPORT. The work of the session controller that keeps the laws of its station: cards judged, sessions opened and ended, IDLE and
OUT. -/

namespace Sys2Proof.Machine

open Sys2Proof

-- One proof after the other: proofs that wait for one another hold a thread each, and its memory.
set_option Elab.async false

section Work

variable {e : Mode} {i : StationId} {f : Floor}

/-! ### Openings -/

/-- What an opening must name for the laws of its station: an account of its chain or of the table, and 4 grants at most. -/
structure Opening.Fits (o : Opening) : Prop where
  chain : o.entry.kind = .account → (o.entry.slot, o.entry.account) ∈ o.chain.slots
  table : o.entry.namesAccount = true → o.entry.account < 1024
  grants : o.entry.grants.length ≤ 4

theorem Opening.Fits.begins {o : Opening} (h : o.Fits) (number : Nat) (now : Time) : Begins (o.context number now) where
  condition := rfl
  fresh := ⟨rfl, rfl, rfl, rfl⟩
  funds := by
    refine ⟨by simp [Opening.context], ?_, fun _ => by simp [Opening.context], by simp [Opening.context], fun en inside => ?_⟩
    · by_cases names : o.entry.namesAccount = true <;> simp [Opening.context, names]
    · obtain rfl : en = o.entry := by simpa [Opening.context] using inside
      exact ⟨h.chain, h.table⟩
  grants := fun en inside => by
    obtain rfl : en = o.entry := by simpa [Opening.context] using inside
    exact h.grants

theorem openSession_keeps {o : Opening} (good : o.Fits) (runs : e.runs = true)
    (state : (f.station i).state = .idle ∨ (f.station i).state = .funding) (auth : (f.station i).auth.state = .none) :
    Keeps e i [] f (openSession e i o f) := by
  unfold openSession
  dsimp only
  have books := closeStray_books e i .sessionOpened f
  refine (closeStray_keeps .sessionOpened).trans (Keeps.trans ?_ fundingCheck_keeps)
  generalize closeStray e i .sessionOpened f = g at *
  refine ⟨fun h => ?_⟩
  rw [station_onStation_self, offer_eq, station_onStation_self, station_onStation_self, station_onStore]
  have opened := h.opened (by rwa [books.state]) runs (books.authState.trans auth) (good.begins g.store.sessionNumber e.partTime)
  exact opened.congr (by constructor <;> rfl) rfl

/-- A house account is one of the table (R71). -/
theorem serviceAccount_small {m : Memory} {w : WorkingCopy} (house : w.house < 1024) : serviceAccount m w < 1024 := by
  unfold serviceAccount
  split
  · exact house
  · omega

theorem openService_keeps (card : Card) (d : DirEntry) (runs : e.runs = true) (state : (f.station i).state = .idle)
    (auth : (f.station i).auth.state = .none) : Keeps e i [] f (openService e i card d f) := by
  refine ⟨fun h => ?_⟩
  unfold openService
  refine (Keeps.trans (onStore_keeps _) (openSession_keeps ?_ runs (.inl state) auth)).sound h
  exact ⟨(nomatch ·), fun _ => serviceAccount_small h.house, Nat.zero_le _⟩

theorem acceptCustomer_keeps (card : Card) (d : DirEntry) (runs : e.runs = true) (state : (f.station i).state = .idle)
    (auth : (f.station i).auth.state = .none) : Keeps e i [] f (acceptCustomer e i card d f) := by
  unfold acceptCustomer
  dsimp only
  split
  · next slot account found =>
    refine (onStore_keeps _).trans (openSession_keeps ?_ runs (.inl state) auth)
    have funds := List.find?_some found
    simp only [usable, Bool.and_eq_true, decide_eq_true_eq] at funds
    exact ⟨fun _ => List.mem_of_find?_eq_some found, fun _ => funds.1.1, Nat.zero_le _⟩
  · exact showAndEject_keeps ..

theorem beginFunding_keeps (card : Card) (runs : e.runs = true) (state : (f.station i).state = .idle) :
    Keeps e i [] f (beginFunding e i card f) := by
  unfold beginFunding
  dsimp only
  refine Keeps.trans (.change fun h => h.funding state runs rfl rfl) ((wantAuth_keeps (.inl ⟨rfl, ?_⟩) _).trans (offer_keeps _))
  rw [station_onStation_self]

/-- An IDLE station has no request (R103). -/
theorem Sound.noRequest_of_idle {extra : List Sheet} {x : Station} (h : Sound e extra x) (state : x.state = .idle) :
    x.auth.state = .none := by
  have stands := h.stands
  rw [state] at stands
  rcases stands with c | c <;> exact h.noRequest (by simp [c]) (by simp [c])

theorem judgeCard_keeps (card : Card) (runs : e.runs = true) (state : (f.station i).state = .idle) :
    Keeps e i [] f (judgeCard e i card f) := by
  refine ⟨fun h => ?_⟩
  have auth := h.noRequest_of_idle state
  refine Keeps.sound ?_ h
  unfold judgeCard
  dsimp only
  split
  · exact showAndEject_keeps ..
  · split
    · split
      · exact showAndEject_keeps ..
      · exact beginFunding_keeps card runs state
    · split
      · exact showAndEject_keeps ..
      · split
        · exact showAndEject_keeps ..
        · split
          · exact openService_keeps card _ runs state auth
          · split
            · exact showAndEject_keeps ..
            · exact acceptCustomer_keeps card _ runs state auth

/-! ### IDLE and OUT -/

theorem SameBooks.clearNext {x y : Station} (h : SameBooks x y) : SameBooks { x with nextCard := none } { y with nextCard := none } :=
  { h with nextCard := rfl }

/-- The tally that STOPPING closes at IDLE leaves the books alone (R19). -/
theorem stopTally_books (e : Mode) (i : StationId) (f : Floor) :
    SameBooks (f.station i) ((if e.run = .stopping then closeStray e i .stop f else f).station i) := by
  split
  · exact closeStray_books ..
  · exact .refl _

/-- A station whose laws hold once it is IDLE without a next card reaches IDLE, where a next card is judged (R76, R91). -/
theorem reachIdle_sound (runs : e.runs = true) (h : Sound e [] { f.station i with state := .idle, nextCard := none }) :
    Sound e [] ((reachIdle e i f).station i) := by
  unfold reachIdle
  dsimp only
  have books := stopTally_books e i (f.onStation i fun x => { x with state := .idle })
  generalize (if e.run = .stopping then closeStray e i .stop (f.onStation i fun x => { x with state := .idle })
    else f.onStation i fun x => { x with state := .idle }) = g at *
  rw [station_onStation_self] at books
  have sound : Sound e [] { g.station i with nextCard := none } := h.congr books.clearNext rfl
  split
  · refine (judgeCard_keeps _ runs ?_).sound ?_ <;> rw [station_onStation_self]
    · exact books.state
    · exact sound
  · next empty => exact sound.congr { SameBooks.refl (g.station i) with nextCard := empty } rfl

theorem reachIdle_state (none : (f.station i).nextCard = none) : ((reachIdle e i f).station i).state = .idle := by
  unfold reachIdle
  dsimp only
  have books := stopTally_books e i (f.onStation i fun x => { x with state := .idle })
  generalize (if e.run = .stopping then closeStray e i .stop (f.onStation i fun x => { x with state := .idle })
    else f.onStation i fun x => { x with state := .idle }) = g at *
  rw [station_onStation_self] at books
  have card : (g.station i).nextCard = .none := books.nextCard.trans none
  rw [card]
  exact books.state

theorem answerNextCard_books (i : StationId) (f : Floor) :
    SameBooks { f.station i with nextCard := none } ((answerNextCard i f).station i) := by
  rw [answerNextCard_eq, station_onStation_self]
  constructor <;> rfl

/-- A station whose laws hold once it is IDLE without a next card enters OUT (R98). -/
theorem enterOut_sound (cause : OutCause) (h : Sound e [] { f.station i with state := .idle, nextCard := none }) :
    Sound e [] ((enterOut e i cause f).station i) := by
  unfold enterOut
  dsimp only
  refine ((offer_keeps _).trans (stationNotice_keeps ..)).sound (h.out.congr ?_ rfl)
  generalize out : f.onStation i _ = g
  have first : SameBooks { f.station i with state := .out, nextCard := none, line := (f.station i).line.dropPath }
      { g.station i with nextCard := none } := by
    rw [← out, station_onStation_self]
    constructor <;> rfl
  refine (first.trans (SameBooks.clearNext ?_)).trans (answerNextCard_books i _)
  split
  · exact closeStray_books ..
  · exact .refl _

/-- A funding wait with its request closed and its context cleared is free for IDLE or OUT (R107). -/
theorem Sound.wait_freed {x : Station} (h : Sound e [] x) (state : x.state = .funding) :
    Sound e [] { x with auth := x.auth.closed, context := .empty, graceStart := none, state := .idle, nextCard := none } := by
  have stands := h.stands
  rw [state] at stands
  have lost := h.noLost (by simp [state]) (by simp [state])
  exact (h.cancelled.idled (by simp [Context.hasLiveSession, show x.context.condition = .funding from stands]) rfl lost
    (h.noReport_none (by simp [state]))).congr (by constructor <;> rfl) rfl

theorem giveUpFunding_keeps (state : (f.station i).state = .funding) : Keeps e i [] f (giveUpFunding e i f) := by
  refine ⟨fun h => reachIdle_sound (h.runs (by simp [state]) (by simp [state])) ?_⟩
  rw [station_onStation_self, cancelAuth, station_onStation_self]
  exact h.wait_freed state

/-- A funding wait given up leaves its station IDLE (R107). -/
theorem giveUpFunding_state (none : (f.station i).nextCard = none) : ((giveUpFunding e i f).station i).state = .idle := by
  refine reachIdle_state ?_
  rw [station_onStation_self, cancelAuth, station_onStation_self]
  exact none

/-! ### Ends, cards and keys -/

theorem endSession_keeps {extra : List Sheet} (cause : EndCause) (live : (f.station i).context.condition = .live) :
    Keeps e i extra f (endSession e i cause f) := by
  rw [endSession_eq]
  exact .change fun h => (h.ended live e.partTime cause).congr (by constructor <;> rfl) rfl

theorem endIfLive_keeps {extra : List Sheet} (cause : EndCause) : Keeps e i extra f (endIfLive e i cause f) := by
  unfold endIfLive
  split
  · exact endSession_keeps cause ‹_›
  · exact .refl f

theorem Sound.holdCard {extra : List Sheet} {x : Station} (h : Sound e extra x) (card : Card)
    (state : x.state = .draining ∨ x.state = .settling ∨ (x.state = .jammed ∧ x.context.condition ≠ .live)) :
    Sound e extra { x with nextCard := some card } := { h with nextCard := fun _ => state }

theorem cardInGrace_keeps (card : Card)
    (waits : (f.station i).context.condition = .live ∨ (f.station i).context.condition = .funding) :
    Keeps e i [] f (cardInGrace e i card f) := by
  unfold cardInGrace
  dsimp only
  split
  · exact keeps_onStation
  · split
    · next live =>
      refine (endSession_keeps .cardOut live).trans (.change fun h => h.holdCard card ?_)
      rw [endSession_eq, station_onStation_self]
      by_cases jammed : (f.station i).state = .jammed
      · exact .inr (.inr ⟨if_pos jammed, fun ending => nomatch ending⟩)
      · exact .inl (if_neg jammed)
    · next dead =>
      refine ⟨fun h => ?_⟩
      have state := h.state_of_funding (waits.resolve_left dead)
      have runs := h.runs (by simp [state]) (by simp [state])
      have card := h.nextCard_none (by simp [state]) (by simp [state]) (by simp [state])
      exact ((giveUpFunding_keeps state).trans (judgeCard_keeps _ runs (giveUpFunding_state card))).sound h

theorem sessionCardIn_keeps (card : Card) : Keeps e i [] f (sessionCardIn e i card f) := by
  unfold sessionCardIn
  dsimp only
  split
  · exact showAndEject_keeps ..
  · next service =>
    have runs : e.runs = true := by
      simp [inService] at service
      exact service.1
    split
    · next grace =>
      refine cardInGrace_keeps card ?_
      simp at grace
      exact grace.2
    · split
      · exact judgeCard_keeps card runs ‹_›
      · next state => exact .change fun h => h.holdCard card (.inl state)
      · next state => exact .change fun h => h.holdCard card (.inr (.inl state))
      · next state =>
        split
        · exact .refl f
        · next dead => exact .change fun h => h.holdCard card (.inr (.inr ⟨state, dead⟩))
      all_goals exact .refl f

theorem sessionCardOut_keeps : Keeps e i [] f (sessionCardOut e i f) := by
  unfold sessionCardOut
  dsimp only
  refine Keeps.trans (g := f.onStation i fun x => { x with nextCard := none }) (.change fun h => h.clearNext) ?_
  split
  · exact giveUpFunding_keeps ‹_›
  · split
    · exact endIfLive_keeps .cardOut
    · exact .refl _

theorem sessionKeyEnd_keeps : Keeps e i [] f (sessionKeyEnd e i f) := by
  unfold sessionKeyEnd
  dsimp only
  split
  · exact .refl f
  · split
    · next state => exact (offer_keeps _).trans (giveUpFunding_keeps (by rw [offer_eq, station_onStation_self]; exact state))
    · split
      · exact endIfLive_keeps .userEnd
      · exact .refl f

theorem sessionKeyBalance_keeps : Keeps e i [] f (sessionKeyBalance e i f) := by
  unfold sessionKeyBalance
  dsimp only
  split
  · exact .refl f
  · split
    · exact .refl f
    · exact offer_keeps _

end Work

end Sys2Proof.Machine
end

section
/-! SUPPORT. Jams, settlements and the wait queue keep the laws of every station. -/

namespace Sys2Proof.Machine

open Sys2Proof

-- One proof after the other: proofs that wait for one another hold a thread each, and its memory.
set_option Elab.async false

section Work

variable {e : Mode} {i : StationId} {extra : List Sheet} {f g : Floor}

/-! ### Jams -/

theorem onSheetAccount_station (i : StationId) (s : Sheet) (change : Account → Account) (f : Floor) (j : StationId) :
    (onSheetAccount i s change f).station j = f.station j := by
  unfold onSheetAccount
  split <;> rfl

theorem writeJam_keeps : Keeps e i extra f (writeJam e i f) := by
  unfold writeJam
  split
  · exact .refl f
  · refine Keeps.trans (.same (station_writeReport ..)) (.change fun h => ?_)
    exact { h with noReport := fun some => nomatch some }

theorem produceJam_keeps (r : JamReport) (jammed : (f.station i).state = .jammed) : Keeps e i extra f (produceJam e i r f) := by
  have pending : Keeps e i extra f (f.onStation i fun x => { x with jam := { x.jam with pendingReport := some r } }) :=
    .change fun h => { h with noReport := fun _ => jammed }
  unfold produceJam
  dsimp only
  split
  · exact pending.trans writeJam_keeps
  · exact pending.trans (.same rfl)

/-- A sheet on its way is lost at its station (R117, R118). -/
theorem loseSheet_sound {s : Sheet} (h : Sound e (s :: extra) (f.station i)) : Sound e extra ((loseSheet i s f).station i) := by
  unfold loseSheet
  dsimp only
  rw [station_onStation_self, onSheetAccount_station]
  exact h.lose (by split <;> rfl)

/-- The sheets of a jam go on the lost list of their station (R116 steps 3 and 4). -/
theorem loseToList_sound (sheets : List Sheet) (h : Sound e sheets (f.station i)) (jammed : (f.station i).state = .jammed)
    (room : (f.station i).jam.lost.length + sheets.length ≤ 9) :
    Sound e [] ((loseToList i sheets f).station i) ∧ ((loseToList i sheets f).station i).state = .jammed := by
  induction sheets generalizing f with
  | nil => exact ⟨h, jammed⟩
  | cons s rest ih =>
    rw [List.length_cons] at room
    simp only [loseToList]
    have station : ((loseSheet i s f).onStation i fun x =>
        { x with jam := { x.jam with lost := x.jam.lost ++ [⟨s, (f.station i).fateOf s⟩] } }).station i = (f.station i).losing s := by
      unfold loseSheet
      dsimp only
      rw [station_onStation_self, station_onStation_self, onSheetAccount_station]
    refine ih ?_ ?_ ?_ <;> rw [station]
    · exact h.lost jammed (by omega) (by split <;> rfl)
    · exact jammed
    · simp only [List.length_append, List.length_singleton]
      omega

/-- A jam declared at a station that is not JAMMED (R116). -/
theorem declareJam_sound (cause : JamCause) (one : extra.length ≤ 1) (runs : e.runs = true)
    (free : (f.station i).state ≠ .jammed) (h : Sound e extra (f.station i)) :
    Sound e [] ((declareJam e i cause extra f).station i) := by
  have parts := declareJam_eq e i cause extra f
  dsimp only at parts
  rw [parts]
  have empty := jamming_empty (f.station i)
  obtain ⟨lost, jammed⟩ := loseToList_sound (f := f.onStation i Station.jamming) _
    (by rw [station_onStation_self]; exact h.jamming runs free)
    (by
      rw [station_onStation_self]
      unfold Station.jamming
      split <;> rfl)
    (by
      rw [station_onStation_self, empty.2, List.length_append, List.length_nil]
      have := h.room
      have := h.depth
      omega)
  generalize loseToList i _ (f.onStation i Station.jamming) = q at *
  have marked : Sound e [] ((q.station i).jamMarked e.partTime cause) := by
    refine lost.congr ?_ rfl
    by_cases live : (q.station i).context.hasLiveSession = true
    · unfold Station.jamMarked
      rw [if_pos live]
      constructor <;> rfl
    · unfold Station.jamMarked
      rw [if_neg live]
      constructor <;> rfl
  refine Keeps.sound ((produceJam_keeps _ ?_).trans (keeps_onStation fun x => ?_)) (by rw [station_onStation_self]; exact marked)
  · rw [station_onStation_self]
    exact jammed
  · rw [recordJam_eq]
    constructor <;> rfl

/-- A jam cause at a station in service that is not JAMMED (R115). -/
theorem jamCause_sound (cause : JamCause) (one : extra.length ≤ 1) (service : inService e (f.station i) = true)
    (free : (f.station i).state ≠ .jammed) (h : Sound e extra (f.station i)) :
    Sound e [] ((jamCause e i cause extra f).station i) := by
  unfold jamCause
  dsimp only
  rw [if_pos (by simp [service, free])]
  exact declareJam_sound cause one (by simp [inService] at service; exact service.1) free h

theorem jamCause_keeps (cause : JamCause) : Keeps e i [] f (jamCause e i cause [] f) := by
  refine ⟨fun h => ?_⟩
  by_cases cause' : inService e (f.station i) = true ∧ (f.station i).state ≠ .jammed
  · exact jamCause_sound cause (Nat.zero_le 1) cause'.1 cause'.2 h
  · unfold jamCause
    dsimp only
    rw [if_neg (by simpa using cause')]
    exact h

/-! ### All stations -/

/-- The station laws hold at every station. -/
def AllSound (e : Mode) (f : Floor) : Prop := ∀ j, Sound e [] (f.station j)

theorem AllSound.at (h : AllSound e f) (others : KeepsOthers i f g) (sound : Sound e [] (g.station i)) : AllSound e g := fun j => by
  by_cases hj : j = i
  · exact hj ▸ sound
  · rw [others j hj]
    exact h j

/-- Work at station `i` that keeps its laws. -/
theorem AllSound.step (h : AllSound e f) (work : StationStep i f g) (keeps : Keeps e i [] f g) : AllSound e g :=
  h.at work.others (keeps.sound (h i))

theorem AllSound.of_same (h : AllSound e f) (same : g.stations = f.stations) : AllSound e g := fun j => by
  have station : g.station j = f.station j := congrArg (fun v => v[j]) same
  rw [station]
  exact h j

/-- Work at every station in turn. -/
theorem AllSound.forStations (act : StationId → Floor → Floor) (keeps : ∀ i f, AllSound e f → AllSound e (act i f))
    (h : AllSound e f) : AllSound e (forStations act f) := by
  unfold Machine.forStations
  generalize stationIds = l
  induction l generalizing f with
  | nil => exact h
  | cons i l ih => exact ih (keeps i f h)

/-! ### Re-evaluation and settlement -/

/-- Funding checks in turn keep the laws of each station. -/
theorem foldl_fundingCheckOpen_keeps (l : List StationId) (f : Floor) (j : StationId) :
    Keeps e j [] f (l.foldl (fun g i => fundingCheckOpen e i g) f) := by
  induction l generalizing f with
  | nil => exact .refl f
  | cons i l ih =>
    refine Keeps.trans ?_ (ih _)
    by_cases hj : j = i
    · exact hj ▸ fundingCheckOpen_keeps
    · exact .same ((fundingCheckOpen_at e i f).others j hj)

theorem reevaluate_keeps (accounts : List Nat) (j : StationId) : Keeps e j [] f (reevaluate e accounts f) := by
  unfold reevaluate
  dsimp only
  split
  · exact (foldl_fundingCheckOpen_keeps _ f j).trans (.same (congrArg (fun v => v[j]) (foldl_closeAccounts_stations ..)))
  · exact .refl f

theorem AllSound.reevaluate (h : AllSound e f) (accounts : List Nat) : AllSound e (reevaluate e accounts f) := fun j =>
  (reevaluate_keeps accounts j).sound (h j)

/-- A settled station stays JAMMED, goes OUT or reaches IDLE (R157 step 4). -/
theorem moveOn_sound (runs : e.runs = true) (jammed : (f.station i).state = .jammed → Sound e [] (f.station i))
    (free : (f.station i).state ≠ .jammed → Sound e [] { f.station i with state := .idle, nextCard := none }) :
    Sound e [] ((moveOn e i f).station i) := by
  unfold moveOn
  dsimp only
  split
  · exact jammed ‹_›
  · split
    · exact enterOut_sound _ (free ‹_›)
    · exact reachIdle_sound runs (free ‹_›)

/-- The floor of a settlement with its closes made has the stations it had, but for the cleared context (R157). -/
theorem sessionReleased_stations (e : Mode) (i : StationId) (f : Floor) :
    (sessionReleased e i f).station i = (f.station i).clearContext ∧ KeepsOthers i f (sessionReleased e i f) := by
  have same : ((f.station i).context.funding.foldl (closeReleased e) (sessionApplied e i f)).stations = f.stations := by
    rw [foldl_stations _ (closeReleased_stations e), onStore_stations, writeReport_stations]
  have station : ∀ j, ((f.station i).context.funding.foldl (closeReleased e) (sessionApplied e i f)).station j = f.station j :=
    fun j => congrArg (fun v => v[j]) same
  exact ⟨by rw [station_onStation_self, station], fun j hj => by rw [station_onStation_other _ _ _ _ hj, station]⟩

/-- A settlement finished keeps the laws of every station (R155 to R157), and touches no station that waits for its own. -/
theorem writeSession_sound (h : AllSound e f) (settling : (f.station i).context.condition = .settling) :
    AllSound e (writeSession e i f) ∧ ∀ j, j ≠ i → (f.station j).state ≠ .low → (writeSession e i f).station j = f.station j := by
  rw [writeSession_eq]
  obtain ⟨self, others⟩ := sessionReleased_stations e i f
  have sound := h i
  have states := sound.state_of_settling settling
  have runs : e.runs = true := sound.runs (by rcases states with s | s <;> simp [s]) (by rcases states with s | s <;> simp [s])
  have dead : (f.station i).context.hasLiveSession = false := by simp [Context.hasLiveSession, settling]
  have auth := sound.noRequest (by simp [settling]) (by simp [settling])
  generalize (gainedAccounts f.store (sessionApplied e i f).store (f.station i).context.funding).filter _ = gained
  generalize sessionReleased e i f = a at *
  have kept : ∀ j, (a.station j).state ≠ .low → (reevaluate e gained a).station j = a.station j := fun j => reevaluate_station
  have own : (reevaluate e gained a).station i = (f.station i).clearContext := by
    rw [kept i (by rw [self]; rcases states with s | s <;> simp [Station.clearContext, s]), self]
  have each : ∀ j, j ≠ i → Sound e [] ((reevaluate e gained a).station j) := fun j hj =>
    (reevaluate_keeps gained j).sound (by rw [others j hj]; exact h j)
  have others' := (moveOn_at e i (reevaluate e gained a)).others
  refine ⟨fun j => ?_, fun j hj low => ?_⟩
  · by_cases hj : j = i
    · subst hj
      refine moveOn_sound runs (fun jammed => ?_) (fun free => ?_) <;> rw [own] at *
      · exact (sound.cleared dead auth (by
          rw [show (f.station j).state = .jammed from jammed]; exact fun c => nomatch c)).congr (by constructor <;> rfl) rfl
      · have state : (f.station j).state = .settling := states.resolve_right free
        have lost := sound.noLost free (by simp [state])
        exact (sound.idled dead auth lost (sound.noReport_none free)).congr (by constructor <;> rfl) rfl
    · rw [others' j hj]
      exact each j hj
  · rw [others' j hj, kept j (by rw [others j hj]; exact low), others j hj]

/-- A DRAINING station whose path is empty enters SETTLING, and its settlement is made or waits (R90). -/
theorem enterSettling_sound (h : AllSound e f) (state : (f.station i).state = .draining) (path : (f.station i).line.inPath = []) :
    AllSound e (enterSettling e i f) := by
  have shown : ∀ t, let g := offer i t (f.onStation i fun x =>
      { x with state := .settling, context := { x.context with condition := .settling } })
      AllSound e g ∧ (g.station i).context.condition = .settling := by
    intro t g
    have station : g.station i = { f.station i with
        state := .settling, context := { (f.station i).context with condition := .settling }
        link := (f.station i).link.offer t } := by
      simp only [g]
      rw [offer_eq, station_onStation_self, station_onStation_self]
    refine ⟨h.at (i := i) (fun j hj => ?_) ?_, by rw [station]⟩
    · simp only [g]
      rw [offer_eq, station_onStation_other _ _ _ _ hj, station_onStation_other _ _ _ _ hj]
    · rw [station]
      exact ((h i).settling state path).congr (by constructor <;> rfl) rfl
  unfold enterSettling
  dsimp only
  obtain ⟨sound, settling⟩ := shown (showOn 1 .sessionTotal _ _)
  split
  · exact (writeSession_sound sound settling).1
  · exact sound.of_same rfl

/-! ### The wait queue -/

theorem foldl_waitingSessions {α : Type} (act : Floor → α → Floor)
    (h : ∀ f a, (act f a).waitingSessions = f.waitingSessions) (l : List α) (f : Floor) :
    (l.foldl act f).waitingSessions = f.waitingSessions := by
  induction l generalizing f with
  | nil => rfl
  | cons a l ih => exact (ih _).trans (h f a)

theorem closeReleased_sessions (e : Mode) (f : Floor) (en : FundingEntry) :
    (closeReleased e f en).waitingSessions = f.waitingSessions := by
  unfold closeReleased produceClose
  dsimp only
  split
  · split
    · unfold writeClose
      rw [Floor.waitingSessions, onStore_waitQueue, writeReport_waitQueue]
    · exact enqueue_sessions f rfl
  · rfl

theorem reevaluate_sessions (e : Mode) (accounts : List Nat) (f : Floor) :
    (reevaluate e accounts f).waitingSessions = f.waitingSessions := by
  unfold reevaluate
  dsimp only
  split
  · exact (foldl_waitingSessions _ (fun g i => (closeAccounts_at (g.station i).requestAccounts g i).sessions) _ _).trans
      (foldl_waitingSessions _ (fun g i => (fundingCheckOpen_at e i g).sessions) _ _)
  · rfl

theorem writeSession_sessions (e : Mode) (i : StationId) (f : Floor) :
    (writeSession e i f).waitingSessions = f.waitingSessions := by
  rw [writeSession_eq, (moveOn_at ..).sessions, reevaluate_sessions]
  unfold sessionReleased
  rw [Floor.waitingSessions, onStation_waitQueue]
  refine (foldl_waitingSessions _ (closeReleased_sessions e) _ _).trans ?_
  rw [Floor.waitingSessions, onStore_waitQueue, writeReport_waitQueue]

/-- The laws of every station, and each session settlement that waits once at a station in SETTLING (R178). -/
structure QueueSound (e : Mode) (f : Floor) : Prop where
  stations : AllSound e f
  settling : ∀ i ∈ f.waitingSessions, (f.station i).context.condition = .settling
  once : f.waitingSessions.Nodup

/-- Work at a station whose context keeps its condition, and that touches no waiting settlement. -/
theorem QueueSound.step (h : QueueSound e f) (work : StationStep i f g) (keeps : Keeps e i [] f g)
    (condition : (g.station i).context.condition = (f.station i).context.condition) : QueueSound e g where
  stations := h.stations.step work keeps
  settling := fun j waits => by
    rw [work.sessions] at waits
    by_cases hj : j = i
    · rw [hj, condition]
      exact h.settling i (hj ▸ waits)
    · rw [work.others j hj]
      exact h.settling j waits
  once := work.sessions ▸ h.once

/-- A station in the condition SETTLING is not LOW (R78). -/
theorem Sound.not_low {x : Station} (h : Sound e extra x) (settling : x.context.condition = .settling) : x.state ≠ .low := by
  rcases h.state_of_settling settling with s | s <;> simp [s]

theorem writeWaitingAuth_condition (e : Mode) (i : StationId) (f : Floor) :
    ((writeWaitingAuth e i f).station i).context.condition = (f.station i).context.condition := by
  obtain ⟨a, written⟩ := writeAuth_station e i f
  unfold writeWaitingAuth
  dsimp only
  split
  · obtain ⟨b, produced⟩ := produceAuth_station e i ((writeAuth e i f).station i).auth.kind
      ((writeAuth e i f).station i).auth.amount (writeAuth e i f)
    rw [produced, written]
  · rw [written]

theorem writeJam_condition (e : Mode) (i : StationId) (f : Floor) :
    ((writeJam e i f).station i).context.condition = (f.station i).context.condition := by
  unfold writeJam
  split
  · rfl
  · rw [station_onStation_self, station_writeReport]

/-- A waiting report written keeps the laws of every station, and leaves the settlements that wait behind it (R178). -/
theorem writeWaiting_sound {p : Producer} {rest : List Producer} (queue : f.waitQueue = p :: rest) (h : QueueSound e f) :
    QueueSound e (writeWaiting e { f with waitQueue := rest } p) := by
  have waiting : f.waitingSessions = [p].filterMap Producer.session? ++ rest.filterMap Producer.session? := by
    rw [Floor.waitingSessions, queue, ← List.singleton_append, List.filterMap_append]
  have left : QueueSound e { f with waitQueue := rest } := {
    stations := h.stations
    settling := fun i waits => h.settling i (by rw [waiting]; exact List.mem_append_right _ waits)
    once := (List.nodup_append.mp (waiting ▸ h.once)).2.1 }
  cases p with
  | session i =>
    have fresh : i ∉ rest.filterMap Producer.session? := fun again => by
      have once := h.once
      rw [waiting] at once
      exact (List.nodup_append.mp once).2.2 i (by simp [Producer.session?]) i again rfl
    have settling := h.settling i (by rw [waiting]; simp [Producer.session?])
    have written := writeSession_sound (f := { f with waitQueue := rest }) h.stations settling
    have sessions := writeSession_sessions e i { f with waitQueue := rest }
    refine ⟨written.1, fun j waits => ?_, sessions ▸ left.once⟩
    rw [show writeWaiting e { f with waitQueue := rest } (.session i) = writeSession e i { f with waitQueue := rest } from rfl] at waits ⊢
    rw [sessions] at waits
    have condition := left.settling j waits
    rw [written.2 j (fun same => fresh (same ▸ waits)) ((h.stations j).not_low condition)]
    exact condition
  | stray i => exact left.step (writeStray_at ..) (.books (writeStray_books ..)) (writeStray_books ..).condition
  | auth i => exact left.step (writeWaitingAuth_at ..) writeWaitingAuth_keeps (writeWaitingAuth_condition ..)
  | jam i => exact left.step (writeJam_at ..) writeJam_keeps (writeJam_condition ..)
  | close n =>
    have step : StationStep 0 { f with waitQueue := rest } (writeClose e n true { f with waitQueue := rest }) :=
      .of_same (writeClose_stations ..) (by
        unfold writeClose
        rw [Floor.waitingSessions, onStore_waitQueue, writeReport_waitQueue])
    have same : (writeClose e n true { f with waitQueue := rest }).station 0 = f.station 0 :=
      congrArg (fun v => v[0]) (writeClose_stations ..)
    exact left.step step (.same same) (by rw [show writeWaiting e _ (.close n) = writeClose e n true _ from rfl, same]; rfl)

theorem moveQueue_sound (n : Nat) (h : QueueSound e f) : AllSound e (moveQueue e n f) := by
  induction n generalizing f with
  | zero => exact h.stations
  | succ n ih =>
    simp only [moveQueue]
    split
    · exact h.stations
    · split
      · exact ih (writeWaiting_sound ‹_› h)
      · exact h.stations

end Work

end Sys2Proof.Machine
end

section
/-! SUPPORT. The events of the copier lines, the timers and the terminal keep the laws of every station. -/

namespace Sys2Proof.Machine

open Sys2Proof

-- One proof after the other: proofs that wait for one another hold a thread each, and its memory.
set_option Elab.async false

section Work

variable {e : Mode} {i : StationId} {extra : List Sheet} {f : Floor}

/-! ### FEED -/

/-- A sheet's target is the last entry of a live session, or it is a stray (R7, R80). -/
theorem sheetOf_target (e : Mode) (i : StationId) (cls : SheetClass) (f : Floor) :
    (sheetOf e i cls f).target =
      if (f.station i).context.feedEntry.isSome then (f.station i).context.lastTarget else .stray := by
  unfold sheetOf
  dsimp only
  cases (f.station i).context.feedEntry <;> rfl

theorem hasLive_of_feedEntry {c : Context} {en : FundingEntry} (h : c.feedEntry = some en) : c.hasLiveSession = true := by
  unfold Context.feedEntry at h
  split at h
  · assumption
  · cases h

/-- A sheet of the session charged to it is on its way (R7). -/
theorem chargeSession_sound {s : Sheet} (entry : FundingEntry) (live : (f.station i).context.hasLiveSession = true)
    (target : s.target = (f.station i).context.lastTarget) (h : Sound e [] (f.station i)) :
    Sound e [s] ((chargeSession e i entry s f).station i) := by
  unfold chargeSession
  dsimp only
  refine fundingCheck_keeps.sound ?_
  rw [station_onStation_self]
  have charged := fun lag => h.sessionFed live target s.price lag
  split
  · rw [station_onStore]
    exact charged _
  · exact charged _

theorem chargeStray_books (e : Mode) (i : StationId) (s : Sheet) (f : Floor) :
    SameBooks (f.station i) ((chargeStray e i s f).station i) := by
  have counted : SameBooks (f.station i)
      ((f.onStation i (Station.onLine fun l => { l with live := l.live.addFed s.price })).station i) := by
    rw [station_onStation_self]
    constructor <;> rfl
  unfold chargeStray
  dsimp only
  split
  · exact counted.trans (closeStray_books ..)
  · exact counted

/-- A sheet charged as its target says is on its way, at a station that is not OUT (R7). -/
theorem chargeSheet_sound {s : Sheet} (h : Sound e [] (f.station i)) (service : (f.station i).state ≠ .out)
    (target : s.target = if (f.station i).context.feedEntry.isSome then (f.station i).context.lastTarget else .stray) :
    Sound e [s] ((chargeSheet e i s f).station i) ∧ ((chargeSheet e i s f).station i).state ≠ .out := by
  unfold chargeSheet
  cases entry : (f.station i).context.feedEntry with
  | none =>
    rw [entry] at target
    have books := chargeStray_books e i s f
    exact ⟨(h.congr books rfl).strayFed target, by dsimp only; rw [books.state]; exact service⟩
  | some en =>
    rw [entry] at target
    have charged := chargeSession_sound en (hasLive_of_feedEntry entry) target h
    refine ⟨charged, fun out => ?_⟩
    have named := charged.named s (List.mem_append_right _ (List.mem_singleton_self s)) _ target
    dsimp only at out
    rcases (hasLive_iff _).mp named.1 with c | c
    · rcases charged.state_of_live c with t | t | t | t <;> (rw [t] at out; cases out)
    · rcases charged.state_of_ending c with t | t <;> (rw [t] at out; cases out)

/-- A sheet on its way is placed, lost at feed, or declares a jam (R8, R118). -/
theorem placeSheet_sound {s : Sheet} (runs : e.runs = true) (service : (f.station i).state ≠ .out)
    (h : Sound e [s] (f.station i)) : Sound e [] ((placeSheet e i s f).station i) := by
  have inside : inService e (f.station i) = true := by simp [inService, runs, service]
  unfold placeSheet
  dsimp only
  split
  · next room =>
    rw [station_onStation_self]
    exact h.placed inside room
  · split
    · exact loseSheet_sound h
    · next free => exact jamCause_sound .overfull (Nat.le_refl 1) inside free h

theorem noteFeed_books (e : Mode) (i : StationId) (cls : SheetClass) (f : Floor) :
    SameBooks (f.station i) ((noteFeed e i cls f).station i) ∧
      ((noteFeed e i cls f).station i).context = (f.station i).context := by
  unfold noteFeed
  dsimp only
  rw [station_onStation_self]
  refine ⟨?_, rfl⟩
  by_cases recovery : (f.station i).state = .recovery
  · rw [if_pos recovery]
    constructor <;> rfl
  · rw [if_neg recovery]
    constructor <;> rfl

theorem feedInService_keeps (cls : SheetClass) (service : inService e (f.station i) = true) :
    Keeps e i [] f (feedInService e i cls f) := by
  refine ⟨fun h => ?_⟩
  obtain ⟨runs, state⟩ : e.runs = true ∧ (f.station i).state ≠ .out := by simpa [inService] using service
  obtain ⟨books, context⟩ := noteFeed_books e i cls f
  obtain ⟨charged, service'⟩ := chargeSheet_sound (f := noteFeed e i cls f) (s := sheetOf e i cls f) (h.congr books rfl)
    (by rw [books.state]; exact state) (by rw [context]; exact sheetOf_target ..)
  have placed := placeSheet_sound runs service' charged
  unfold feedInService
  dsimp only
  split
  · exact (closeStray_keeps .stop).sound placed
  · exact placed

theorem feedTaken_keeps (size colour sides : Bool) : Keeps e i [] f (feedTaken i size colour sides e f) := by
  unfold feedTaken feedEvent
  dsimp only
  split
  · split
    · next service => exact (keeps_onStation).trans (feedInService_keeps _ service)
    · exact keeps_onStation
  · exact .refl f

/-! ### EXIT -/

theorem showDelivery_keeps : Keeps e i extra f (showDelivery i f) := by
  unfold showDelivery
  dsimp only
  split
  · exact offer_keeps _
  · exact showRemaining_keeps

/-- A sheet on its way is delivered to its session, or counted in the live tally (R11, R12). -/
theorem deliverSheet_sound {s : Sheet} (h : Sound e [s] (f.station i)) : Sound e [] ((deliverSheet i s f).station i) := by
  unfold deliverSheet
  split
  · next stray =>
    rw [station_onStation_self]
    exact (h.strayGone stray).congr (by constructor <;> rfl) rfl
  · next entry =>
    refine showDelivery_keeps.sound ?_
    rw [station_onStation_self, onSheetAccount_station]
    exact h.delivered entry s.cls

/-- A delivery counted in RECOVERY, which the third ends (R127). -/
theorem Sound.countRecovery {x : Station} (h : Sound e [] x) : Sound e [] x.countRecovery := by
  unfold Station.countRecovery
  dsimp only
  split
  · next recovery =>
    have live : x.context.condition = .live := by simpa [recovery, Stands] using h.stands
    have report := h.noReport_none (by simp [recovery])
    split
    · exact (h.goesOn live (j := { x.jam with lost := [] }) (.inl rfl) (.inl rfl) report).congr (by constructor <;> rfl) rfl
    · exact h.congr (by constructor <;> rfl) rfl
  · exact h

theorem exitInPath_keeps {s : Sheet} {rest : List Sheet} (path : (f.station i).line.inPath = s :: rest) :
    Keeps e i [] f (exitInPath e i s rest f) := by
  refine ⟨fun h => ?_⟩
  unfold exitInPath
  dsimp only
  rw [station_onStation_self]
  refine (deliverSheet_sound ?_).countRecovery
  rw [station_onStation_self]
  exact h.taken path rfl

theorem exitLate_keeps {l : LostSheet} {rest : List LostSheet} (lost : (f.station i).jam.lost = l :: rest) :
    Keeps e i [] f (exitLate e i l rest f) := by
  refine ⟨fun h => ?_⟩
  unfold exitLate
  dsimp only
  have path := matchExit_inPath e.partTime (f.station i).line
  generalize late : f.onStation i (fun x => (x.onLine (LineUnit.matchExit e.partTime)).onJam fun j => { j with lost := rest }) = g
  have station : g.station i =
      ((f.station i).onLine (LineUnit.matchExit e.partTime)).onJam fun j => { j with lost := rest } := by
    rw [← late, station_onStation_self]
  have shown : l.fate ≠ .stray → ∀ change, Sound e [] ((showDelivery i ((onSheetAccount i l.sheet change g).onStation i
      (Station.onContext fun c => (c.recover l).deliver l.sheet.cls))).station i) := fun session change => by
    refine showDelivery_keeps.sound ?_
    rw [station_onStation_self, onSheetAccount_station, station]
    exact (h.recovered lost session l.sheet.cls (j := { (f.station i).jam with lost := rest }) rfl rfl).congr
      { SameBooks.refl _ with path := path } rfl
  unfold deliverLate
  split
  · rw [station_onStation_self, station]
    exact (h.lostGone lost (j := { (f.station i).jam with lost := rest }) rfl rfl).congr { SameBooks.refl _ with path := path } rfl
  all_goals
    next fate =>
    have sound := shown (by rw [fate]; exact fun c => nomatch c) (·.addDelivered l.sheet.cls (facesOf l.sheet.cls))
    dsimp only
    split
    · exact fundingCheck_keeps.sound sound
    · exact sound

theorem exitInService_keeps : Keeps e i [] f (exitInService e i f) := by
  unfold exitInService
  dsimp only
  split
  · exact exitInPath_keeps ‹_›
  · split
    · exact exitLate_keeps ‹_›
    · exact keeps_onStation
  · exact keeps_onStation

theorem exitTaken_keeps : Keeps e i [] f (exitTaken i e f) := by
  unfold exitTaken exitEvent
  dsimp only
  split
  · split
    · exact (keeps_onStation).trans exitInService_keeps
    · exact keeps_onStation
  · exact .refl f

/-! ### FAULT and inactive levels -/

theorem faultTaken_keeps (active : Bool) : Keeps e i [] f (faultTaken i active e f) := by
  unfold faultTaken faultEvent
  dsimp only
  split
  · split_ifs
    · exact keeps_onStation
    · exact (keeps_onStation).trans (jamCause_keeps .copier)
    · exact (keeps_onStation).trans keeps_onStation
    · exact keeps_onStation
  · exact .refl f

theorem inactiveTaken_keeps (line : PulseLine) : Keeps e i [] f (inactiveTaken i line e f) := by
  unfold inactiveTaken
  cases line <;> dsimp only <;> split
  · exact keeps_onStation
  · exact .refl f
  · exact keeps_onStation
  · exact .refl f

/-! ### Timers -/

theorem transitDue_keeps : Keeps e i [] f (transitDue i e f) := by
  unfold transitDue
  split
  · exact jamCause_keeps .transit
  · exact .refl f

theorem quietDue_sound (h : AllSound e f) : AllSound e (quietDue i e f) := by
  unfold quietDue
  dsimp only
  split
  · next due =>
    simp only [Station.quiet, Bool.and_eq_true, beq_iff_eq, List.isEmpty_iff] at due
    exact enterSettling_sound h due.1.2 due.2.1
  · exact h

theorem lowDue_keeps : Keeps e i [] f (lowDue i e f) := by
  unfold lowDue
  dsimp only
  split
  · exact endIfLive_keeps .lowTimeout
  · exact .refl f

/-- A funding wait given up at a station whose context waits for funds (R92). -/
theorem giveUpFunding_of_condition (condition : (f.station i).context.condition = .funding) :
    Keeps e i [] f (giveUpFunding e i f) :=
  ⟨fun h => (giveUpFunding_keeps (h.state_of_funding condition)).sound h⟩

theorem graceDue_keeps : Keeps e i [] f (graceDue i e f) := by
  unfold graceDue
  dsimp only
  split_ifs
  · exact endSession_keeps .linkLost ‹_›
  · exact giveUpFunding_of_condition ‹_›
  · exact .refl f
  · exact .refl f

theorem showDeclined_keeps : Keeps e i [] f (showDeclined i f) := offer_keeps _

theorem showAndEject_station (i : StationId) (msg : Message) (a b : Int) (f : Floor) :
    ∃ l, (showAndEject i msg a b f).station i = { f.station i with link := l } := by
  rw [showAndEject_eq, station_onStation_self]
  exact ⟨_, rfl⟩

/-- A refused card's wait is given up behind its SHOW and EJECT (R96, R107, R109). -/
theorem refusedWait_keeps (msg : Message) (a b : Int) (condition : (f.station i).context.condition = .funding) :
    Keeps e i [] f (giveUpFunding e i (showAndEject i msg a b f)) := by
  refine (showAndEject_keeps msg a b).trans (giveUpFunding_of_condition ?_)
  obtain ⟨l, station⟩ := showAndEject_station i msg a b f
  rw [station]
  exact condition

theorem authDue_keeps : Keeps e i [] f (authDue i e f) := by
  unfold authDue
  dsimp only
  split_ifs with asked first
  · refine ⟨fun h => ?_⟩
    simp only [Bool.and_eq_true, beq_iff_eq] at asked
    have condition : (f.station i).context.condition = .funding := by
      rcases h.request with none | ⟨-, c⟩ | ⟨kind, -⟩
      · rw [none] at asked; cases asked.1
      · exact c
      · rw [kind] at first; cases first
    refine (cancelAuth_keeps.trans (refusedWait_keeps .declined 0 0 ?_)).sound h
    rw [cancelAuth, station_onStation_self]
    exact condition
  · exact cancelAuth_keeps.trans ((keeps_onStation).trans showDeclined_keeps)
  · exact .refl f

theorem silenceDue_keeps : Keeps e i [] f (silenceDue i e f) := by
  unfold silenceDue
  dsimp only
  split
  · exact linkDown_keeps
  · exact .refl f

theorem busyDue_keeps : Keeps e i [] f (busyDue i e f) := by
  unfold busyDue
  dsimp only
  split
  · exact linkDown_keeps
  · exact .refl f

theorem gapDue_keeps : Keeps e i [] f (gapDue i e f) := by
  unfold gapDue
  dsimp only
  split
  · exact keeps_onStation
  · exact .refl f

theorem enterRecovery_keeps (live : (f.station i).context.condition = .live) (report : (f.station i).jam.pendingReport = none) :
    Keeps e i [] f (enterRecovery e i f) := by
  unfold enterRecovery
  dsimp only
  refine Keeps.trans (.change fun h => ?_) (showRemaining_keeps.trans fundingCheck_keeps)
  exact h.goesOn live (.inr (.inr rfl)) (.inr ⟨rfl, rfl⟩) report

theorem endAtJamLimit_keeps (runs : e.runs = true) (live : (f.station i).context.condition = .live)
    (report : (f.station i).jam.pendingReport = none) : Keeps e i [] f (endAtJamLimit e i f) := by
  unfold endAtJamLimit
  dsimp only
  refine ⟨fun h => ?_⟩
  rw [endSession_eq, station_onStation_self, station_onStation_self, station_onStation_self]
  have final : Sound e [] ((f.station i).finaliseLost.setOutPending .jamLimit) :=
    h.finaliseLost.congr (by constructor <;> rfl) rfl
  refine (final.ended live e.partTime .jamLimit).resumed runs (.inl ⟨rfl, rfl⟩) ?_ report
  exact ite_self _

theorem afterJam_keeps (runs : e.runs = true) (jammed : (f.station i).state = .jammed)
    (report : (f.station i).jam.pendingReport = none) : Keeps e i [] f (afterJam e i f) := by
  refine ⟨fun h => ?_⟩
  have final := h.finaliseLost
  have free : (f.station i).context.condition = .empty ∨ (f.station i).context.condition = .abandoned →
      Sound e [] { (f.onStation i Station.finaliseLost).station i with state := .idle, nextCard := none } := fun context => by
    rw [station_onStation_self]
    exact final.freed context rfl report
  have notFunding : (f.station i).context.condition ≠ .funding := by simpa [jammed, Stands] using h.stands
  have leave : (f.station i).context.condition = .empty ∨ (f.station i).context.condition = .abandoned →
      Sound e [] ((if (f.station i).outPending ≠ .none then enterOut e i (f.station i).outPending (f.onStation i Station.finaliseLost)
        else reachIdle e i (f.onStation i Station.finaliseLost)).station i) := fun context => by
    split
    · exact enterOut_sound _ (free context)
    · exact reachIdle_sound runs (free context)
  unfold afterJam
  dsimp only
  split
  · split
    · exact (endAtJamLimit_keeps runs ‹_› report).sound h
    · exact (enterRecovery_keeps ‹_› report).sound h
  · rw [station_onStation_self]
    exact final.resumed runs (.inl ⟨rfl, ‹_›⟩) rfl report
  · rw [station_onStation_self]
    exact final.resumed runs (.inr ⟨rfl, ‹_›⟩) rfl report
  · exact leave (.inl ‹_›)
  · exact absurd ‹_› notFunding
  · exact leave (.inr ‹_›)

theorem jamDue_keeps : Keeps e i [] f (jamDue i e f) := by
  unfold jamDue
  split
  · next due =>
    simp only [Station.jamOver, Bool.and_eq_true, beq_iff_eq, Option.isNone_iff_eq_none] at due
    exact afterJam_keeps due.1 due.2.1.1.1 due.2.2
  · exact .refl f

theorem recoveryDue_keeps : Keeps e i [] f (recoveryDue i e f) := by
  unfold recoveryDue
  dsimp only
  split
  · next due =>
    refine .change fun h => ?_
    simp only [Bool.and_eq_true, beq_iff_eq] at due
    have live : (f.station i).context.condition = .live := by simpa [due.1, Stands] using h.stands
    exact (h.goesOn live (j := { (f.station i).jam with lost := [] }) (.inl rfl) (.inl rfl)
      (h.noReport_none (by simp [due.1]))).congr (by constructor <;> rfl) rfl
  · exact .refl f

/-! ### Every event -/

/-- A change of the link unit alone. -/
theorem onLink_keeps (change : Station → LinkUnit → LinkUnit) :
    Keeps e i extra f (f.onStation i fun x => x.onLink (change x)) := keeps_onStation

theorem keeps_terminal (e : Mode) (i : StationId) : Terminal e i (Keeps e i []) where
  refl := .refl
  trans := .trans
  link _ := onLink_keeps
  notice event cause _ := stationNotice_keeps i event cause
  refusal msg a b _ := showAndEject_keeps msg a b
  cardIn card _ := sessionCardIn_keeps card
  cardOut _ := sessionCardOut_keeps
  keyEnd _ := sessionKeyEnd_keeps
  keyBalance _ := sessionKeyBalance_keeps

/-- Every event of the station units keeps the laws of every station. -/
theorem unitWork_sound {c : Instr} {work : Mode → Floor → Floor} (h : unitWork c = some work) (sound : QueueSound e f) :
    AllSound e (work e f) := by
  have all := sound.stations
  cases c <;> cases h
  case feedEvent => exact all.step (feedTaken_at ..) (feedTaken_keeps ..)
  case exitEvent => exact all.step (exitTaken_at ..) exitTaken_keeps
  case faultChange => exact all.step (faultTaken_at ..) (faultTaken_keeps _)
  case takenChange => exact all.step (inactiveTaken_at ..) (inactiveTaken_keeps _)
  case transitCheck => exact all.step (transitDue_at ..) transitDue_keeps
  case quietNotice => exact quietDue_sound all
  case lowTimerExpiry => exact all.step (lowDue_at ..) lowDue_keeps
  case linkLossGraceExpiry => exact all.step (graceDue_at ..) graceDue_keeps
  case authorizationTimerExpiry => exact all.step (authDue_at ..) authDue_keeps
  case silenceTimerExpiry => exact all.step (silenceDue_at ..) silenceDue_keeps
  case busyTimerExpiry => exact all.step (busyDue_at ..) busyDue_keeps
  case gapLimit => exact all.step (gapDue_at ..) gapDue_keeps
  case jamClears => exact all.step (jamDue_at ..) jamDue_keeps
  case recoveryTimeout => exact all.step (recoveryDue_at ..) recoveryDue_keeps
  case waitingReportWritten => exact moveQueue_sound _ sound
  case frameSent => exact all.step (onLink_at ..) (onLink_keeps _)
  case nextFrameStart => exact all.step (onLink_at ..) (onLink_keeps _)
  case byteError => exact all.step (characterFailed_rel (stationStep_terminal e _) ..) (characterFailed_rel (keeps_terminal e _) ..)
  case invalidFrame => exact all.step (onLink_at _ _ fun _ => _) (onLink_keeps fun _ => _)
  case hello => exact all.step (receiveFrame_rel (stationStep_terminal e _) _) (receiveFrame_rel (keeps_terminal e _) _)
  case tick => exact all.step (receiveFrame_rel (stationStep_terminal e _) _) (receiveFrame_rel (keeps_terminal e _) _)
  case cardIn => exact all.step (receiveFrame_rel (stationStep_terminal e _) _) (receiveFrame_rel (keeps_terminal e _) _)
  case cardOut => exact all.step (receiveFrame_rel (stationStep_terminal e _) _) (receiveFrame_rel (keeps_terminal e _) _)
  case keyEnd => exact all.step (receiveFrame_rel (stationStep_terminal e _) _) (receiveFrame_rel (keeps_terminal e _) _)
  case keyBalance => exact all.step (receiveFrame_rel (stationStep_terminal e _) _) (receiveFrame_rel (keeps_terminal e _) _)
  case byteReceived => exact all.step (characterReceived_rel (stationStep_terminal e _) _) (characterReceived_rel (keeps_terminal e _) _)
  case characterSent => exact all.step (onLink_at ..) (onLink_keeps _)
  case busyLevelChange => exact all.step (onLink_at ..) (onLink_keeps _)

end Work

end Sys2Proof.Machine
end

section
/-! SUPPORT. Orders keep the laws of every station. -/

namespace Sys2Proof.Machine

open Sys2Proof

-- One proof after the other: proofs that wait for one another hold a thread each, and its memory.
set_option Elab.async false

section Work

variable {e : Mode} {i : StationId} {extra : List Sheet} {f g : Floor}

/-- Account orders keep the laws: what they do to the stations is a re-evaluation pass. -/
theorem allSound_passes (e : Mode) : Passes e fun f g => AllSound e f → AllSound e g where
  same same h := h.of_same same
  trans a b h := b (a h)
  pass accounts _ h := h.reevaluate accounts

/-! ### AUTH ANSWER -/

/-- The opening that a first grant makes (R107). -/
theorem bankOpening_fits (card : Option Card) (g : Grant) : (bankOpening card g).Fits :=
  ⟨(nomatch ·), (nomatch ·), Nat.le_of_ble_eq_true rfl⟩

theorem firstGrant_keeps (ok : Result) (g : Grant) (condition : (f.station i).context.condition = .funding)
    (auth : (f.station i).auth.state = .none) : Keeps e i [] f (firstGrant e i ok g f).floor := by
  unfold firstGrant
  dsimp only
  split_ifs
  · exact refusedWait_keeps _ _ _ condition
  · exact refusedWait_keeps _ _ _ condition
  · exact refusedWait_keeps _ _ _ condition
  · refine ⟨fun h => ?_⟩
    have state := h.state_of_funding condition
    exact (openSession_keeps (bankOpening_fits ..) (h.runs (by simp [state]) (by simp [state])) (.inr state) auth).sound h

theorem incrementGrant_keeps (ok : Result) (g : Grant) (ask : (f.station i).context.mayAsk = true)
    (auth : (f.station i).auth.state = .none) : Keeps e i [] f (incrementGrant e i ok g f).floor := by
  unfold incrementGrant
  dsimp only
  split
  · exact (keeps_onStation).trans showDeclined_keeps
  · exact Keeps.trans (.change fun h => h.granted ask auth g) fundingCheck_keeps

/-- An answer taken belongs to the request of its kind (R103, R106). -/
theorem judgeAnswer_keeps (slot : Nat) : Keeps e i [] f (judgeAnswer e i slot f).floor := by
  refine ⟨fun h => ?_⟩
  have closed : (cancelAuth i f).station i = { f.station i with auth := (f.station i).auth.closed } := station_onStation_self ..
  have own : (f.station i).auth.outstanding = true →
      ((f.station i).auth.kind = .first ∧ (f.station i).context.condition = .funding) ∨
      ((f.station i).auth.kind = .increment ∧ (f.station i).context.condition = .live ∧ (f.station i).context.mayAsk = true) :=
    fun outstanding => h.request.resolve_left fun none => by simp [Auth.outstanding, none] at outstanding
  have first : ∀ ok g, (f.station i).auth.outstanding = true → (f.station i).auth.kind = .first →
      Sound e [] ((firstGrant e i ok g (cancelAuth i f)).floor.station i) := fun ok g outstanding kind => by
    have condition : (f.station i).context.condition = .funding := by
      rcases own outstanding with ⟨-, c⟩ | ⟨k, -⟩
      · exact c
      · rw [kind] at k; cases k
    exact (cancelAuth_keeps.trans (firstGrant_keeps ok g (by rw [closed]; exact condition) (by rw [closed]; rfl))).sound h
  have increment : ∀ ok g, (f.station i).auth.outstanding = true → (f.station i).auth.kind ≠ .first →
      Sound e [] ((incrementGrant e i ok g (cancelAuth i f)).floor.station i) := fun ok g outstanding kind => by
    have ask : (f.station i).context.mayAsk = true := by
      rcases own outstanding with ⟨k, -⟩ | ⟨-, -, ask⟩
      · exact absurd k kind
      · exact ask
    exact (cancelAuth_keeps.trans (incrementGrant_keeps ok g (by rw [closed]; exact ask) (by rw [closed]; rfl))).sound h
  unfold judgeAnswer
  dsimp only
  by_cases late : (!(f.station i).auth.outstanding || (f.station i).auth.id.toNat != f.store.param slot 2 2) = true
  · rw [if_pos late]
    exact h
  · rw [if_neg late]
    have outstanding : (f.station i).auth.outstanding = true := by
      simp only [Bool.or_eq_true, Bool.not_eq_true', not_or, Bool.not_eq_false] at late
      exact late.1
    by_cases unsent : (f.station i).auth.state = .unsent
    · rw [if_pos unsent]
      exact h
    · rw [if_neg unsent]
      by_cases kind : (f.station i).auth.kind = .first
      · rw [if_pos kind]
        exact first _ _ outstanding kind
      · rw [if_neg kind]
        exact increment _ _ outstanding kind

/-! ### PRICE SWITCH -/

/-- Work under another mode of the same run state. -/
theorem Keeps.mode {e' : Mode} (h : Keeps e' i extra f g) (runs : e'.runs = e.runs) : Keeps e i extra f g :=
  ⟨fun sound => (h.sound (sound.congr (.refl _) runs)).congr (.refl _) runs.symm⟩

theorem recomputeGuard_keeps (m : Memory) (p : Page) : Keeps e i extra f (f.onStation i (Station.recomputeGuard m p)) :=
  keeps_onStation

theorem switchGuard_keeps (p : Page) : Keeps e i [] f (switchGuard e p i f) := by
  unfold switchGuard
  dsimp only
  split
  · exact (recomputeGuard_keeps _ _).trans (Keeps.mode (e' := { e with page := p }) fundingCheck_keeps rfl)
  · exact recomputeGuard_keeps _ _

theorem priceSwitchOrder_sound (slot : Nat) (h : AllSound e f) : AllSound e (priceSwitchOrder e slot f).floor := by
  unfold priceSwitchOrder
  dsimp only
  split
  · exact h
  · dsimp only
    exact h.forStations (switchGuard e e.page.other) fun i g sound => sound.step (switchGuard_at e _ i g) (switchGuard_keeps _)

/-! ### STATION OUT and STATION IN -/

theorem takeOut_keeps : Keeps e i [] f (takeOut e i f) := by
  unfold takeOut
  dsimp only
  split_ifs with idle funding
  · exact ⟨fun h => enterOut_sound _ (h.entered (.inl idle))⟩
  · refine ⟨fun h => enterOut_sound _ ?_⟩
    obtain ⟨l, station⟩ := showAndEject_station i .outOfService 0 0 f
    rw [station_onStation_self, cancelAuth, station_onStation_self, station]
    exact (h.wait_freed funding).congr (by constructor <;> rfl) rfl
  · exact (keeps_onStation).trans (endIfLive_keeps .staff)

theorem judgeOut_keeps (slot : Nat) : Keeps e i [] f (judgeOut e i slot f).floor := by
  unfold judgeOut
  split
  · exact .refl f
  · exact takeOut_keeps

/-- A clamped house account is one of the table (11.6). -/
theorem clamped_house (w : WorkingCopy) : w.clamped.house < 1024 := by
  simp only [WorkingCopy.clamped]
  split <;> omega

/-- A station with an empty path takes a clamped working copy (R21, R169). -/
theorem Sound.withCopy {x : Station} (h : Sound e [] x) (path : x.line.inPath = []) (w : WorkingCopy) :
    Sound e [] { x with copy := w.clamped } :=
  { h with
    room := by dsimp only; rw [path]; exact Nat.zero_le _
    depth := clamped_pathDepth w
    house := clamped_house w }

theorem takeProfile_keeps (path : (f.station i).line.inPath = []) : Keeps e i [] f (takeProfile e i f) := by
  unfold takeProfile
  dsimp only
  exact Keeps.trans (.change fun h => (h.withCopy path (f.store.profile i)).congr (by constructor <;> rfl) rfl) (applySerial_keeps _)

/-- What taking up a profile leaves of its station's state (R169). -/
theorem takeProfile_state (e : Mode) (i : StationId) (f : Floor) :
    ((takeProfile e i f).station i).state = (f.station i).state := by
  have serial : ∀ (old : WorkingCopy) (g : Floor), ((applySerial e i old g).station i).state = (g.station i).state := by
    intro old g
    unfold applySerial
    dsimp only
    split
    · split
      · rw [linkDown, station_stationNotice, station_onStation_self, station_onStation_self]
        rfl
      · rw [station_onStation_self]
    · split
      · rw [offer_eq, station_onStation_self, station_onStation_self]
      · rfl
  unfold takeProfile
  dsimp only
  rw [serial, station_onStation_self]
  rfl

/-- A station that is IDLE or OUT enters service (R77, R99). -/
theorem inServiceAgain_keeps (state : (f.station i).state = .idle ∨ (f.station i).state = .out) :
    Keeps e i [] f (f.onStation i Station.inServiceAgain) := by
  refine .change fun h => (h.entered state).congr ?_ rfl
  have card := h.nextCard_none (by rcases state with s | s <;> simp [s]) (by rcases state with s | s <;> simp [s])
    (by rcases state with s | s <;> simp [s])
  exact { SameBooks.refl _ with state := rfl, nextCard := card }

theorem takeIn_keeps (out : (f.station i).state = .out) : Keeps e i [] f (takeIn e i f) := by
  refine ⟨fun h => ?_⟩
  unfold takeIn
  dsimp only
  generalize counted : f.onStore _ = g
  have same : g.station i = f.station i := by rw [← counted, station_onStore]
  have entered : Sound e [] ((stationNotice e i .entered .none ((takeProfile e i g).onStation i Station.inServiceAgain)).station i) := by
    refine ((takeProfile_keeps ?_).trans ((inServiceAgain_keeps (.inr ?_)).trans (stationNotice_keeps ..))).sound (same ▸ h)
    · rw [same]
      exact h.outPath out
    · rw [takeProfile_state, same]
      exact out
  split
  · exact (jamCause_keeps .copier).sound entered
  · exact entered

theorem judgeIn_keeps (slot : Nat) : Keeps e i [] f (judgeIn e i slot f).floor := by
  unfold judgeIn
  split
  · exact takeIn_keeps ‹_›
  · exact .refl f

/-! ### JAM ACK and SESSION END -/

theorem judgeAck_keeps (slot : Nat) : Keeps e i [] f (judgeAck e i slot f).floor := by
  unfold judgeAck
  split
  · dsimp only
    exact keeps_onStation
  · exact .refl f

theorem judgeEnd_keeps (slot : Nat) : Keeps e i [] f (judgeEnd e i slot f).floor := by
  unfold judgeEnd
  dsimp only
  split
  · exact endSession_keeps .staff ‹_›
  · exact refusedWait_keeps _ _ _ ‹_›
  all_goals exact .refl f

/-! ### Every order -/

/-- An order at one station that keeps its laws. -/
theorem stationOrder_sound {body : Mode → StationId → Nat → Floor → Executed} {slot : Nat} (h : AllSound e f)
    (work : ∀ i, StationStep i f (body e i slot f).floor) (keeps : ∀ i, Keeps e i [] f (body e i slot f).floor) :
    AllSound e (stationOrder body e slot f).floor :=
  stationOrder_rel (allSound_passes e) (fun i all => all.step (work i) (keeps i)) h

/-- Every order keeps the laws of every station. -/
theorem orderWork_sound {c : Instr} {taken : Nat → Bool} {body : Mode → Nat → Floor → Executed}
    (h : orderWork c = some (taken, body)) (slot : Nat) (sound : AllSound e f) : AllSound e (body e slot f).floor := by
  cases c <;> cases h
  case accountOpen => exact accountOpenOrder_rel (allSound_passes e) slot sound
  case accountCredit => exact accountCreditOrder_rel (allSound_passes e) slot sound
  case accountDebit => exact accountDebitOrder_rel (allSound_passes e) slot sound
  case accountLimit => exact accountLimitOrder_rel (allSound_passes e) slot sound
  case accountFreeze => exact accountFreezeOrder_rel (allSound_passes e) slot sound
  case accountThaw => exact accountThawOrder_rel (allSound_passes e) slot sound
  case accountClose => exact accountCloseOrder_rel (allSound_passes e) slot sound
  case periodClose => exact sound.of_same (periodCloseOrder_stations ..)
  case cardPut => exact sound.of_same (cardPutOrder_stations ..)
  case cardDrop => exact sound.of_same (cardDropOrder_stations ..)
  case authAnswer => exact stationOrder_sound sound (fun i => judgeAnswer_at e i slot f) fun i => judgeAnswer_keeps slot
  case priceSwitch => exact priceSwitchOrder_sound slot sound
  case stationOut => exact stationOrder_sound sound (fun i => judgeOut_at e i slot f) fun i => judgeOut_keeps slot
  case stationIn =>
    unfold stationInOrder
    split
    · exact sound
    · exact stationOrder_sound sound (fun i => judgeIn_at e i slot f) fun i => judgeIn_keeps slot
  case jamAck => exact stationOrder_sound sound (fun i => judgeAck_at e i slot f) fun i => judgeAck_keeps slot
  case sessionEnd => exact stationOrder_sound sound (fun i => judgeEnd_at e i slot f) fun i => judgeEnd_keeps slot
  case badKind => exact sound

end Work

end Sys2Proof.Machine
end

section
/-! PROOF. The station laws under the start check, the stop, the resets and the clock, and laws L3, L5, L7 and L12 of every command. -/

namespace Sys2Proof.Machine

open Sys2Proof

-- One proof after the other: proofs that wait for one another hold a thread each, and its memory.
set_option Elab.async false

section Work

variable {e e' : Mode} {i : StationId} {f g : Floor} {x : Station}

/-! ### Changes of the run state -/

theorem AllSound.mode (h : AllSound e f) (runs : e'.runs = e.runs) : AllSound e' f := fun j => (h j).congr (.refl _) runs

/-- The part begins to run (R169). -/
theorem AllSound.start (h : AllSound e f) (runs : e'.runs = true) : AllSound e' f := fun j =>
  { h j with resting := fun stopped => by rw [runs] at stopped; cases stopped }

/-- The end of a step keeps the laws of every station. -/
theorem settle_sound (h : AllSound e g) : AllSound e (settle e f g) := fun j => by
  rw [settle_station]
  exact (h j).congr (by constructor <;> rfl) rfl

/-- Work at each station once, which takes what holds there before to what holds there afterwards. -/
theorem forStations_each {act : StationId → Floor → Floor} {before after : Station → Prop}
    (others : ∀ i f, KeepsOthers i f (act i f)) (work : ∀ i f, before (f.station i) → after ((act i f).station i))
    (h : ∀ j, before (f.station j)) (j : StationId) : after ((forStations act f).station j) := by
  have turn : ∀ (l : List StationId) (f : Floor), l.Nodup → (∀ j ∈ l, before (f.station j)) → (∀ j, j ∉ l → after (f.station j)) →
      ∀ j, after ((l.foldl (fun g i => act i g) f).station j) := by
    intro l
    induction l with
    | nil => exact fun f _ _ done j => done j (List.not_mem_nil)
    | cons i l ih =>
      intro f once todo done
      obtain ⟨fresh, once⟩ := List.nodup_cons.mp once
      refine ih _ once (fun j inside => ?_) (fun j outside => ?_)
      · rw [others i f j (fun same => fresh (same ▸ inside))]
        exact todo j (List.mem_cons_of_mem _ inside)
      · by_cases hj : j = i
        · exact hj ▸ work i f (todo i List.mem_cons_self)
        · rw [others i f j hj]
          exact done j (by simp [hj, outside])
  have every : ∀ j : StationId, j ∈ stationIds := by decide
  exact turn stationIds f (by decide) (fun j _ => h j) (fun j out => absurd (every j) out) j

/-! ### The start -/

theorem atRunning_keeps : Keeps e i [] f (atRunning e i f) := by
  unfold atRunning
  dsimp only
  split_ifs
  · exact closeStray_keeps .out
  · exact jamCause_keeps .copier
  · exact .refl f

/-- The work of a start check that passes keeps the laws of every station (R169). -/
theorem passStart_sound {s : State} (h : AllSound s.mode s.floor) (stopped : s.mode.runs = false) :
    AllSound (passStart s).mode (passStart s).floor := by
  have profiles : ∀ f, AllSound s.mode f → AllSound s.mode (forStations
      (fun i f => if s.floor.store.profileEnabled i then takeProfile s.mode i f else f) f) := fun f all => by
    refine all.forStations _ fun i g sound => ?_
    split
    · exact sound.step (takeProfile_at s.mode i g) (takeProfile_keeps ((sound i).resting stopped).2)
    · exact sound
  have services : ∀ f, AllSound s.mode f → AllSound s.mode (forStations
      (fun i f => if s.floor.store.profileEnabled i then f.onStation i Station.inServiceAgain else enterOut s.mode i .staff f) f) :=
    fun f all => by
      refine all.forStations _ fun i g sound => ?_
      have state := ((sound i).resting stopped).1
      split
      · exact sound.step (onStation_lists (change := Station.inServiceAgain)) (inServiceAgain_keeps state)
      · exact sound.at (enterOut_at ..).others (enterOut_sound _ ((sound i).entered state))
  unfold passStart
  dsimp only
  refine settle_sound (AllSound.forStations _ (fun i g sound => sound.step (atRunning_at _ i g) atRunning_keeps) ?_)
  refine AllSound.of_same (f := forStations _ _) (AllSound.start (e := s.mode) ?_ rfl) (by rfl)
  refine services _ (profiles _ (h.of_same ?_))
  rw [onStore_stations, onStore_stations]

theorem requestRun_sound {s : State} (h : AllSound s.mode s.floor) : AllSound (requestRun s).mode (requestRun s).floor := by
  unfold requestRun
  split
  · next stopped =>
    split
    · exact h.of_same rfl
    · exact passStart_sound h (by simp [Mode.runs, stopped])
  · exact h

/-! ### The stop -/

theorem stopStation_keeps : Keeps e i [] f (stopStation e i f) := by
  unfold stopStation
  dsimp only
  split_ifs
  · exact endSession_keeps .stop ‹_›
  · exact refusedWait_keeps _ _ _ ‹_›
  · exact closeStray_keeps .stop
  · exact .refl f

theorem requestStop_sound {s : State} (h : AllSound s.mode s.floor) : AllSound (requestStop s).mode (requestStop s).floor := by
  unfold requestStop
  split
  · next running =>
    refine settle_sound ?_
    exact ((h.mode (e' := { s.mode with run := .stopping }) (by simp [Mode.runs, running])).of_same (g := s.floor.raise .run)
      rfl).forStations _ fun i g sound => sound.step (stopStation_at _ i g) stopStation_keeps
  · exact h

/-- A station at rest when the part stops (R170). -/
theorem Sound.stopped (h : Sound e [] x) (state : x.state = .idle ∨ x.state = .out) :
    Sound e' [] { x with nextCard := none, line := x.line.dropPath } := by
  have dead : x.context.hasLiveSession = false := by
    have stands := h.stands
    rcases state with s | s <;> rw [s] at stands <;> rcases stands with c | c <;> simp [Context.hasLiveSession, c]
  exact { h.clearNext.dropPath dead with resting := fun _ => ⟨state, rfl⟩ }

/-- A station at rest after the entry to STOPPED (R20, R75). -/
theorem stationStopped_sound (h : Sound e [] (f.station i)) (state : (f.station i).state = .idle ∨ (f.station i).state = .out) :
    Sound e' [] ((stationStopped i f).station i) := by
  unfold stationStopped
  rw [station_onStation_self]
  have books := answerNextCard_books i f
  refine (h.stopped (e' := e') state).congr ?_ rfl
  exact { books with path := rfl }

theorem stoppedEntry_sound {s t : State} (h : AllSound s.mode s.floor) (entry : execStoppedEntry s = .next t) :
    AllSound t.mode t.floor := by
  unfold execStoppedEntry at entry
  split at entry <;> cases entry
  · next complete =>
    have rest : ∀ j, (s.floor.station j).state = .idle ∨ (s.floor.station j).state = .out := fun j => by
      simp only [stopComplete, Bool.and_eq_true, List.all_eq_true, Bool.or_eq_true, beq_iff_eq] at complete
      exact complete.2 j ((by decide : ∀ j : StationId, j ∈ stationIds) j)
    refine settle_sound (forStations_each (before := fun x => Sound s.mode [] x ∧ (x.state = .idle ∨ x.state = .out))
      (fun i g => (stationStopped_at i g).others) (fun i g before => ?_) fun j => ?_)
    · exact stationStopped_sound before.1 before.2
    · exact ⟨h j, rest j⟩
  · exact h

/-! ### Resets and the clock -/

/-- A context abandoned keeps its entries, and none of them is live (R101). -/
theorem abandon_books (now : Time) (c : Context) :
    ((c.abandon now).condition = .empty ∨ (c.abandon now).condition = .abandoned) ∧ (c.abandon now).funding = c.funding ∧
      (c.abandon now).chain = c.chain := by
  unfold Context.abandon
  split
  · exact ⟨.inl ‹_›, rfl, rfl⟩
  · exact ⟨.inr rfl, rfl, rfl⟩

theorem Sound.softReset (h : Sound e [] x) (now : Time) : Sound e' [] (x.softReset now) := by
  obtain ⟨condition, funding, chain⟩ := abandon_books now x.context
  have state : (x.softReset now).state = .idle ∨ (x.softReset now).state = .out := by
    simp only [Station.softReset]
    split
    · exact .inr rfl
    · exact .inl rfl
  have dead : (x.context.abandon now).hasLiveSession = false ∧ (x.context.abandon now).holdsFunds = false := by
    rcases condition with c | c <;> simp [Context.hasLiveSession, Context.holdsFunds, c]
  exact {
    resting := fun _ => ⟨state, rfl⟩
    stands := by rcases state with s | s <;> rw [s] <;> exact condition
    outPath := fun _ => rfl
    nextCard := fun some => nomatch some
    noLost := fun _ _ => rfl
    noReport := fun some => nomatch some
    room := Nat.zero_le _
    depth := h.depth
    house := h.house
    lostRoom := Nat.zero_le _
    named := fun _ m => nomatch m
    lostNamed := fun _ m => nomatch m
    credited := Nat.zero_le _
    charged := Nat.zero_le _
    count := fun live => by
      have := (hasLive_iff (x.context.abandon now)).mpr live
      rw [dead.1] at this
      cases this
    funds := h.funds.congr (by rw [Context.shapes]; exact congrArg (List.map FundingEntry.shape) funding) chain
      fun holds => by rw [show (x.softReset now).context = x.context.abandon now from rfl, dead.2] at holds; cases holds
    grants := fun en inside => h.grants en (by
      rw [show (x.softReset now).context = x.context.abandon now from rfl, funding] at inside
      exact inside)
    request := .inl rfl
    deferred := fun state => nomatch state }

theorem requestSoftReset_sound {s : State} (h : AllSound s.mode s.floor) :
    AllSound (requestSoftReset s).mode (requestSoftReset s).floor := by
  unfold requestSoftReset
  split
  · exact h
  · have reset : AllSound { s.mode with run := .stopped, rptRd := 0 }
        { s.floor with stations := s.floor.stations.map (Station.softReset s.mode.partTime) } := fun j => by
      rw [station_map]
      exact (h j).softReset _
    refine settle_sound ?_
    split <;> exact reset.of_same (by rfl)

/-- A station after power-on holds nothing (R172). -/
theorem Sound.powerOn (x : Station) : Sound e [] x.powerOnWithLines where
  resting _ := ⟨.inl rfl, rfl⟩
  stands := .inl rfl
  outPath := fun state => nomatch state
  nextCard := fun some => nomatch some
  noLost _ _ := rfl
  noReport := fun some => nomatch some
  room := Nat.zero_le _
  depth := Nat.le_of_ble_eq_true rfl
  house := Nat.le_of_ble_eq_true rfl
  lostRoom := Nat.zero_le _
  named := fun _ m => nomatch m
  lostNamed := fun _ m => nomatch m
  credited := Nat.zero_le _
  charged := Nat.zero_le _
  count := fun live => by rcases live with live | live <;> cases live
  funds := fundsLaw_nil rfl rfl
  grants := fun _ m => nomatch m
  request := .inl rfl
  deferred := fun state => nomatch state

/-- A station at the end of CLEARING (R172). -/
theorem Sound.afterClearing (h : Sound e [] x) (clearing : e.runs = false) (m : Memory) (i : StationId) :
    Sound e [] (x.afterClearing m i) := by
  obtain ⟨state, path⟩ := h.resting clearing
  have card := h.nextCard_none (by rcases state with s | s <;> simp [s]) (by rcases state with s | s <;> simp [s])
    (by rcases state with s | s <;> simp [s])
  refine ((h.withCopy path (m.profile i)).entered state).congr ?_ rfl
  exact { SameBooks.refl _ with nextCard := card }

theorem clearingDone_sound {s t : State} (h : AllSound s.mode s.floor) (done : execClearingDone s = .next t) :
    AllSound t.mode t.floor := by
  unfold execClearingDone at done
  split at done <;> cases done
  · next clearing =>
    have rest : s.mode.runs = false := by simp [Mode.runs, clearing]
    refine settle_sound (AllSound.of_same (f := forStations _ _) (AllSound.mode (e := s.mode) ?_ (by rw [rest]; rfl)) rfl)
    refine AllSound.forStations _ (fun i g sound => ?_) (h.of_same rfl)
    exact sound.at (fun j hj => station_onStation_other _ _ _ _ hj) (by
      rw [station_onStation_self]
      exact (sound i).afterClearing rest _ i)
  · exact h

theorem clock_sound {s t : State} (h : AllSound s.mode s.floor) (ticked : execPartTimeTick s = .next t) :
    AllSound t.mode t.floor := by
  unfold execPartTimeTick at ticked
  dsimp only at ticked
  split at ticked <;> cases ticked
  · intro j
    dsimp only
    rw [station_map]
    exact (h j).congr (by constructor <;> rfl) rfl
  · refine settle_sound fun j => ?_
    rw [station_map]
    exact (h j).congr (by constructor <;> rfl) rfl

/-! ### Every command -/

/-- Between commands the settlements that wait stand at stations in SETTLING, each once (R178). -/
theorem WaitLaw.sessions {s : State} (h : WaitLaw s) :
    (∀ i ∈ s.floor.waitingSessions, (s.floor.station i).context.condition = .settling) ∧ s.floor.waitingSessions.Nodup := by
  obtain ⟨once, -, stations, -⟩ := h
  have own : ∀ (p : Producer) (i : StationId), p.session? = some i → p = .session i := fun p i same => by
    cases p <;> simp [Producer.session?] at same
    rw [same]
  refine ⟨fun i waits => ?_, ?_⟩
  · obtain ⟨p, inside, same⟩ := List.mem_filterMap.mp waits
    exact (stations i).1.mp (own p i same ▸ inside)
  · refine once.filterMap fun p q i hp hq => ?_
    rw [own p i hp, own q i hq]

/-- Every command but a host write into a station record keeps the laws of every station. -/
theorem stepOf_sound {c : Instr} {s t : State} (step : StepOf s c t) (h : QueueSound s.mode s.floor)
    (other : writesRecord c = false) : AllSound t.mode t.floor := by
  have all := h.stations
  cases step with
  | unit work =>
    unfold State.unitStep
    split
    · exact all
    · exact settle_sound (unitWork_sound work h)
  | order work =>
    unfold takeOrder
    split
    · refine settle_sound (AllSound.mode (e := s.mode) ?_ rfl)
      exact (orderWork_sound work (slotAddr s.port.ordDone) all).of_same rfl
    · exact all
  | kept run stations => exact (all.mode (by rw [Mode.runs, Mode.runs, run])).of_same stations
  | record record => rw [record] at other; cases other
  | powerOn power =>
    cases power
    intro j
    rw [show ({ State.reset with
      floor := { State.reset.floor with stations := s.floor.stations.map Station.powerOnWithLines }
      pending := s.pending } : State).floor.station j = (s.floor.station j).powerOnWithLines from by simp [Floor.station]]
    exact Sound.powerOn _
  | clearingDone done => exact clearingDone_sound all done
  | softReset => exact requestSoftReset_sound all
  | run => exact requestRun_sound all
  | stop => exact requestStop_sound all
  | stoppedEntry entry => exact stoppedEntry_sound all entry
  | clock ticked => exact clock_sound all ticked

end Work

/-- Settles O10: the laws of one station are kept by each operation of its units, also while a sheet is on its way, and a settlement
that waits stands at a station in SETTLING until it is written. -/
theorem everyStepKeepsTheStationLaws : Obligations.EveryStepKeepsTheStationLaws := by
  unfold Obligations.EveryStepKeepsTheStationLaws
  rintro c s t ⟨stations, -, wait, -, -⟩ other h
  obtain ⟨settling, once⟩ := wait.sessions
  have sound := stepOf_sound (stepOf_exec h) ⟨fun j => (sound_iff _ _).mpr (stations j), settling, once⟩ other
  exact fun j => (sound_iff _ _).mp (sound j)

end Sys2Proof.Machine
end

section
/-! PROOF. Law L8: the tier and the rate a sheet is charged at, and the bounds of its price (R26 to R31). -/

namespace Sys2Proof.Machine

open Sys2Proof
-- One proof after the other: proofs that wait for one another hold a thread each, and its memory.
set_option Elab.async false

/-! ### A page that passes the checks -/

/-- What pricing needs of a page: tier 0 starts at position 0, and rates and sold prices are within their ranges (R26). -/
structure PageInRange (m : Memory) (p : Page) : Prop where
  start : m.threshold p 0 = 0
  rates : ∀ t, m.rate p t ≤ 500
  prices : ∀ k, m.sold p k = true → m.basePrice p k ≤ 2000000

/-- The checks of R26 leave only pages whose values are in range. -/
theorem pageInRange_of_passes {m : Memory} {p : Page} (passes : m.pageFailure p = none) : PageInRange m p := by
  unfold Memory.pageFailure at passes
  split at passes
  · cases passes
  · next start =>
    split at passes
    · cases passes
    · split at passes
      · cases passes
      · next rates =>
        split at passes
        · cases passes
        · next prices =>
          rw [List.find?_eq_none] at rates prices
          have tier : ∀ t : Fin 4, t ∈ ([0, 1, 2, 3] : List (Fin 4)) := by decide
          have cls : ∀ k : SheetClass, k ∈ classIds := by decide
          exact
            { start := not_not.mp start
              rates := fun t => by simpa using rates t (tier t)
              prices := fun k sold => by simpa [sold] using prices k (cls k) }

/-! ### The tier -/

theorem tierAt_eq (m : Memory) (p : Page) (position : Nat) :
    tierAt m p position =
      if m.threshold p 3 ≤ position then 3 else if m.threshold p 2 ≤ position then 2
      else if m.threshold p 1 ≤ position then 1 else 0 := by
  unfold tierAt
  split_ifs <;> simp [*]

/-- The tier of a position has been reached: tier 0 starts at position 0 (R26, R30). -/
theorem threshold_tierAt_le {m : Memory} {p : Page} (start : m.threshold p 0 = 0) (position : Nat) :
    m.threshold p (tierAt m p position) ≤ position := by
  rw [tierAt_eq]
  split_ifs with three two one
  · exact three
  · exact two
  · exact one
  · omega

/-- No tier above that of a position has been reached (R30). -/
theorem lt_threshold_of_tierAt_lt {m : Memory} {p : Page} {position : Nat} {t : Fin 4} (above : tierAt m p position < t) :
    position < m.threshold p t := by
  rw [tierAt_eq] at above
  split_ifs at above with three two one
  · exact absurd above (by omega)
  · obtain rfl : t = 3 := by omega
    omega
  · obtain rfl | rfl : t = 2 ∨ t = 3 := by omega
    all_goals omega
  · obtain rfl | rfl | rfl : t = 1 ∨ t = 2 ∨ t = 3 := by omega
    all_goals omega

/-! ### The rate and the price -/

/-- A charge outside the tiers is at rate 0 (R27). -/
theorem chargeRate_flat {m : Memory} {p : Page} {entry : FundingEntry}
    (flat : entry.kind ≠ .account ∨ (m.account entry.account).tier = false) : chargeRate m p entry = 0 :=
  if_neg fun ⟨kind, tier⟩ => flat.elim (· kind) fun none => by rw [none] at tier; cases tier

/-- A charge to an account with its tier flag set is at the rate of the account's tier (R27, R28). -/
theorem chargeRate_tiered {m : Memory} {p : Page} {entry : FundingEntry} (kind : entry.kind = .account)
    (tier : (m.account entry.account).tier = true) :
    chargeRate m p entry = m.rate p (tierAt m p (m.account entry.account).position) :=
  if_pos ⟨kind, tier⟩

theorem PageInRange.chargeRate_le {m : Memory} {p : Page} (page : PageInRange m p) (entry : FundingEntry) :
    chargeRate m p entry ≤ 500 := by
  unfold chargeRate
  dsimp only
  split
  · exact page.rates _
  · exact Nat.zero_le _

theorem sheetPrice_sold {m : Memory} {p : Page} {k : SheetClass} (w : WorkingCopy) (rate : Nat) (sold : m.sold p k = true) :
    sheetPrice m p w k rate = soldPrice (m.basePrice p k) rate := if_pos sold

theorem sheetPrice_notSold {m : Memory} {p : Page} {k : SheetClass} (w : WorkingCopy) (rate : Nat)
    (notSold : m.sold p k = false) : sheetPrice m p w k rate = w.fallback := if_neg (by simp [notSold])

theorem soldPrice_zero_rate (b : Nat) : soldPrice b 0 = b := by simp [soldPrice]

/-- A rate of at most 500 per mille takes off at most half the base price (R31). -/
theorem discount_le {b r : Nat} (rate : r ≤ 500) : b * r / 1000 ≤ b / 2 := by
  have product : b * r ≤ b * 500 := Nat.mul_le_mul_left b rate
  omega

/-- The price lies between half the base price, rounded up, and the base price (R31). -/
theorem soldPrice_bounds {b r : Nat} (rate : r ≤ 500) : (b + 1) / 2 ≤ soldPrice b r ∧ soldPrice b r ≤ b := by
  have discount := discount_le (b := b) rate
  unfold soldPrice
  omega

/-- The price is the exact one, rounded up to a milli-unit (R31). -/
theorem soldPrice_rounding {b r : Nat} (rate : r ≤ 500) :
    1000 * soldPrice b r < 1000 * b - b * r + 1000 ∧ 1000 * b - b * r ≤ 1000 * soldPrice b r := by
  have product : b * r ≤ b * 500 := Nat.mul_le_mul_left b rate
  unfold soldPrice
  omega

/-- Settles O58: the arithmetic of one price, the tier found by the search from the highest, and the checks of the page. -/
theorem pricesStayInTheirBounds : Obligations.PricesStayInTheirBounds := by
  unfold Obligations.PricesStayInTheirBounds
  refine ⟨fun b r base rate => ?_, fun m p position passes => ?_, fun m p w k entry passes sold => ?_,
    fun m p w k entry => ⟨fun notSold => ?_, fun sold flat => ?_, fun sold kind tier => ?_⟩⟩
  · have product : b * r ≤ 1000000000 := Nat.mul_le_mul base rate
    obtain ⟨least, most⟩ := soldPrice_bounds (b := b) rate
    obtain ⟨above, below⟩ := soldPrice_rounding (b := b) rate
    refine ⟨rfl, product, discount_le rate, least, most, above, below, soldPrice_zero_rate b, ?_, ?_⟩
    · unfold soldPrice
      omega
    · simp [soldPrice]
  · have page := pageInRange_of_passes passes
    exact ⟨threshold_tierAt_le page.start position, page.rates _, fun t => lt_threshold_of_tierAt_lt⟩
  · have page := pageInRange_of_passes passes
    dsimp only
    rw [sheetPrice_sold w _ sold]
    exact ⟨page.prices k sold, soldPrice_bounds (page.chargeRate_le entry)⟩
  · exact sheetPrice_notSold w _ notSold
  · rw [chargeRate_flat flat, sheetPrice_sold w _ sold, soldPrice_zero_rate]
  · rw [chargeRate_tiered kind tier, sheetPrice_sold w _ sold]
    rfl

end Sys2Proof.Machine
end

section
/-! SUPPORT. The end of an order: result and answer stand in its slot, every station ends its step, and nothing else moves (R174,
R175, R181). -/

namespace Sys2Proof.Machine

open Sys2Proof
-- One proof after the other: proofs that wait for one another hold a thread each, and its memory.
set_option Elab.async false

/-! ### The slot -/

/-- Every byte of a slot has a cell (R164, R174). -/
theorem slot_isCell (done : Half) {k : Nat} (inside : k < 32) : isCell (slotAddr done + k) = true := by
  apply isCell_of_ranges <;> simp only [slotAddr, Config.storeBytes, Config.stationBase] <;> omega

theorem layoutNumber_lt (l : List (Nat × Nat)) : layoutNumber l < 256 ^ layoutSize l := by
  induction l with
  | nil => exact Nat.one_pos
  | cons field rest ih =>
    obtain ⟨n, v⟩ := field
    have low : v % 256 ^ n < 256 ^ n := Nat.mod_lt _ (by positivity)
    calc v % 256 ^ n + 256 ^ n * layoutNumber rest
        < 256 ^ n + 256 ^ n * layoutNumber rest := Nat.add_lt_add_right low _
      _ = 256 ^ n * (layoutNumber rest + 1) := by ring
      _ ≤ 256 ^ n * 256 ^ layoutSize rest := Nat.mul_le_mul_left _ ih
      _ = 256 ^ (n + layoutSize rest) := (Nat.pow_add ..).symm

theorem resultCode_lt (r : Result) : r.code < 256 := by cases r <;> decide

theorem read_writeReply_result (m : Memory) (done : Half) (r : Reply) :
    ((m.writeReply (slotAddr done) r).read (slotAddr done + 1)).toNat = r.result.code := by
  unfold Memory.writeReply
  rw [Memory.read_writeLE_outside _ _ (by omega), Memory.read_write_self _ _ _ (slot_isCell done (by omega)),
    BitVec.toNat_ofNat]
  exact Nat.mod_eq_of_lt (resultCode_lt _)

/-- An answer of at most 8 bytes stands in its slot whole (11.1). -/
theorem readLE_writeReply_answer (m : Memory) (done : Half) {r : Reply} (size : layoutSize r.answer ≤ 8) :
    (m.writeReply (slotAddr done) r).readLE (slotAddr done + 24) 8 = layoutNumber r.answer := by
  have small : layoutNumber r.answer < 256 ^ 8 :=
    Nat.lt_of_lt_of_le (layoutNumber_lt _) (Nat.pow_le_pow_right (by decide) size)
  unfold Memory.writeReply
  rw [Memory.readLE_writeLE_self _ _ _ _ fun k hk => by rw [Nat.add_assoc]; exact slot_isCell done (by omega)]
  exact Nat.mod_eq_of_lt small

theorem read_writeReply_outside (m : Memory) {done : Half} (r : Reply) {a : Nat} (outside : ¬ inAnswer done a) :
    (m.writeReply (slotAddr done) r).read a = m.read a := by
  simp only [inAnswer, inBytes] at outside
  unfold Memory.writeReply
  rw [Memory.read_writeLE_outside _ _ (by omega), Memory.read_write_other _ _ (by omega)]

/-! ### The end of an order -/

section Finish

variable (s : State) (x : Executed)

@[simp] theorem finishOrder_mode : (finishOrder s x).mode = { s.mode with page := x.page } := rfl
@[simp] theorem finishOrder_waitQueue : (finishOrder s x).floor.waitQueue = x.floor.waitQueue := rfl
@[simp] theorem finishOrder_dropped : (finishOrder s x).floor.dropped = x.floor.dropped := rfl
@[simp] theorem finishOrder_rptWr : (finishOrder s x).floor.rptWr = x.floor.rptWr := rfl
@[simp] theorem finishOrder_irqFlag : (finishOrder s x).floor.irqFlag = x.floor.irqFlag ||| IrqFlag.order.mask := rfl

theorem finishOrder_station (i : StationId) : (finishOrder s x).floor.station i =
    finished { s.mode with page := x.page } (s.floor.station i) (x.floor.station i) := settle_station ..

/-- An order writes no cell but those of its answer besides what its own work has written (R174). -/
theorem finishOrder_read {a : Nat} (answer : ¬ inAnswer s.port.ordDone a) (record : ¬ inRecords a) :
    (finishOrder s x).floor.readByte a = x.floor.readByte a := by
  rw [readByte_cell _ record, readByte_cell _ record]
  exact read_writeReply_outside _ _ answer

theorem finishOrder_answered (size : layoutSize x.reply.answer ≤ 8) :
    Answered s (finishOrder s x) x.reply.result x.reply.answer := by
  refine ⟨rfl, rfl, ?_, read_writeReply_result .., readLE_writeReply_answer _ _ size⟩
  simp [Floor.flag, IrqFlag.mask, IrqFlag.place]

end Finish

/-- An order that waits is taken by the command of its kind (R174). -/
theorem takeOrder_at {s : State} {kind : Nat} {taken : Nat → Bool} (body : Mode → Nat → Floor → Executed)
    (order : OrderAt s kind) (own : taken kind = true) :
    takeOrder taken body s = finishOrder s (body s.mode s.slot s.floor) := by
  obtain ⟨run, waits, same⟩ := order
  have ready : (orderWaits s && taken s.orderKind) = true := by simp [orderWaits, run, waits, same, own]
  exact if_pos ready

/-- A command whose order waits answers the state in which the order's work is finished (R174). -/
theorem exec_order {c : Instr} {s : State} {kind : Nat} {taken : Nat → Bool} {body : Mode → Nat → Floor → Executed}
    (work : orderWork c = some (taken, body)) (order : OrderAt s kind) (own : taken kind = true) :
    exec c s = .next (finishOrder s (body s.mode s.slot s.floor)) := by
  rw [exec_orderWork work, takeOrder_at body order own]

/-- An order that leaves the part as it stands changes its slot alone, under law L4 (R174). -/
theorem refusedWith_of_unchanged {c : Instr} {s : State} {kind : Nat} {taken : Nat → Bool}
    {body : Mode → Nat → Floor → Executed} {r : Reply} (work : orderWork c = some (taken, body)) (order : OrderAt s kind)
    (own : taken kind = true) (l4 : EnableLaw s) (size : layoutSize r.answer ≤ 8)
    (unchanged : body s.mode s.slot s.floor = .unchanged s.mode s.floor r) : RefusedWith c s r.result r.answer := by
  have kept : ∀ j, (finishOrder s (.unchanged s.mode s.floor r)).floor.station j = s.floor.station j :=
    fun j => settle_same rfl (l4 j)
  refine ⟨_, exec_order work order own, ?_⟩
  rw [unchanged]
  refine ⟨finishOrder_answered s (.unchanged s.mode s.floor r) size, finishOrder_mode .., finishOrder_irqFlag ..,
    finishOrder_waitQueue .., finishOrder_dropped .., finishOrder_rptWr .., fun j _ => kept j, fun a outside => ?_⟩
  by_cases record : inRecords a
  · obtain ⟨j, o, inside, rfl⟩ := record_of_inRecords record
    rw [readByte_record _ j inside, readByte_record _ j inside, kept]
  · exact finishOrder_read _ _ (fun answer => outside (.inl answer)) record

end Sys2Proof.Machine
end

section
/-! SUPPORT. What a funding check keeps of the funding entries of its station (R82), and the state it decides on (R81, R126). -/

namespace Sys2Proof.Machine

open Sys2Proof
-- One proof after the other: proofs that wait for one another hold a thread each, and its memory.
set_option Elab.async false

/-! ### The funding entries -/

/-- Every entry of a funding list stands in its place in another one, with its account and its committed amount, and holds no less. -/
def KeepsEntries (before after : List FundingEntry) : Prop :=
  ∀ (k : Nat) (en : FundingEntry), before[k]? = some en →
    ∃ en', after[k]? = some en' ∧ en'.committed = en.committed ∧ en'.account = en.account ∧ en.hold ≤ en'.hold

theorem KeepsEntries.refl (l : List FundingEntry) : KeepsEntries l l := fun _ en found => ⟨en, found, rfl, rfl, Nat.le_refl _⟩

theorem KeepsEntries.trans {l₁ l₂ l₃ : List FundingEntry} (first : KeepsEntries l₁ l₂) (second : KeepsEntries l₂ l₃) :
    KeepsEntries l₁ l₃ := by
  intro k en found
  obtain ⟨en₂, found₂, committed₂, account₂, hold₂⟩ := first k en found
  obtain ⟨en₃, found₃, committed₃, account₃, hold₃⟩ := second k en₂ found₂
  exact ⟨en₃, found₃, committed₃.trans committed₂, account₃.trans account₂, hold₂.trans hold₃⟩

/-- A top-up raises one hold (R82 step 1). -/
theorem keepsEntries_topUp (l : List FundingEntry) (n units : Nat) :
    KeepsEntries l (l.modify n fun en => { en with hold := en.hold + units }) := by
  intro k en found
  rw [List.getElem?_modify, found]
  by_cases same : n = k
  · exact ⟨{ en with hold := en.hold + units }, by simp [same], rfl, rfl, Nat.le_add_right _ _⟩
  · exact ⟨en, by simp [same], rfl, rfl, Nat.le_refl _⟩

/-- A spill adds an entry at the end (R82 step 2). -/
theorem keepsEntries_append (l more : List FundingEntry) : KeepsEntries l (l ++ more) := fun k en found =>
  ⟨en, by rw [List.getElem?_append_left (List.getElem?_eq_some_iff.mp found).1, found], rfl, rfl, Nat.le_refl _⟩

theorem topUp_entries (i : StationId) (f : Floor) :
    KeepsEntries (f.station i).context.funding ((topUp i f).station i).context.funding := by
  unfold topUp
  dsimp only
  split
  · rw [station_onStation_self, station_onStore]
    exact keepsEntries_topUp _ _ _
  · exact .refl _

theorem spillTo_entries (i : StationId) (slot account : Nat) (f : Floor) :
    KeepsEntries (f.station i).context.funding ((spillTo i slot account f).station i).context.funding := by
  unfold spillTo
  rw [station_onStation_self, station_onStore]
  exact keepsEntries_append _ _

theorem fundingSteps_entries (i : StationId) (spills : Nat) (f : Floor) :
    KeepsEntries (f.station i).context.funding ((fundingSteps i spills f).station i).context.funding := by
  induction spills generalizing f with
  | zero => exact topUp_entries i f
  | succ n ih =>
    simp only [fundingSteps]
    split
    · exact topUp_entries i f
    · split
      · exact topUp_entries i f
      · split
        · exact (topUp_entries i f).trans ((spillTo_entries i _ _ _).trans (ih _))
        · exact topUp_entries i f

/-- The outcome of a check leaves the session's context as the funding request has left it (R83 to R85). -/
theorem checkOutcome_context (e : Mode) (i : StationId) (f : Floor) :
    ((if (f.station i).fundsPass then checkPassed i f else checkFailed e i f).station i).context = (f.station i).context := by
  split
  · rw [checkPassed_station]
    split <;> rfl
  · obtain ⟨a, failed⟩ := checkFailed_station e i f
    rw [failed]
    split <;> rfl

/-- A funding check keeps every entry in its place, takes no hold back and changes no committed amount (R82). -/
theorem fundingCheck_entries (e : Mode) (i : StationId) (f : Floor) :
    KeepsEntries (f.station i).context.funding ((fundingCheck e i f).station i).context.funding := by
  show KeepsEntries _ ((fundingCheckOpen e i f).station i).context.funding
  unfold fundingCheckOpen
  dsimp only
  split
  · rw [checkOutcome_context]
    split
    · exact fundingSteps_entries i 2 f
    · exact .refl _
  · exact .refl _

/-! ### The station -/

/-- A check judges the guard and the role that its station keeps, on the funding list that its request has left (R81). -/
theorem judged_fundsPass (now : Time) (l : List FundingEntry) (a : Auth) (x : Station) :
    (x.judged now l a).fundsPass = (x.withFunding l).fundsPass := by
  unfold Station.judged
  dsimp only
  split
  · split <;> rfl
  · split <;> rfl

theorem judged_state (now : Time) (l : List FundingEntry) (a : Auth) (x : Station) :
    (x.judged now l a).state =
      if (x.withFunding l).fundsPass then (if x.state = .low then .opened else x.state) else .low := by
  unfold Station.judged
  dsimp only
  split
  · split <;> rfl
  · split
    · next low => exact low
    · rfl

/-- A check leaves its station LOW exactly where the guard is not met, and else OPEN or still in RECOVERY (R81). -/
theorem fundingCheck_decides {e : Mode} {i : StationId} {f : Floor} (checks : (f.station i).state.checksFunds = true) :
    let y := (fundingCheck e i f).station i
    y.state = if y.fundsPass then (if (f.station i).state = .recovery then .recovery else .opened) else .low := by
  intro y
  have states : (f.station i).state = .opened ∨ (f.station i).state = .low ∨ (f.station i).state = .recovery := by
    simpa [StationState.checksFunds, or_assoc] using checks
  obtain ⟨l, a, judged⟩ := (fundingCheck_station e i f).2 checks
  rw [show y = _ from judged, judged_fundsPass, judged_state]
  rcases states with state | state | state <;> simp [state]

/-- What a funding check never moves at its station; lost sheets are finalised on entry to LOW alone (R83, R126). -/
structure CheckKeeps (x y : Station) : Prop where
  copy : y.copy = x.copy
  guardValue : y.guardValue = x.guardValue
  noService : y.noService = x.noService
  inPath : y.line.inPath = x.line.inPath
  number : y.context.number = x.context.number
  lost : y.state ≠ .low → y.jam.lost = x.jam.lost

theorem judged_checkKeeps (now : Time) (l : List FundingEntry) (a : Auth) (x : Station) : CheckKeeps x (x.judged now l a) := by
  unfold Station.judged
  dsimp only
  split
  · split <;> exact ⟨rfl, rfl, rfl, rfl, rfl, fun _ => rfl⟩
  · split
    · exact ⟨rfl, rfl, rfl, rfl, rfl, fun _ => rfl⟩
    · exact ⟨rfl, rfl, rfl, rfl, rfl, fun up => absurd rfl up⟩

theorem fundingCheck_checkKeeps (e : Mode) (i : StationId) (f : Floor) :
    CheckKeeps (f.station i) ((fundingCheck e i f).station i) := by
  obtain ⟨none, checked⟩ := fundingCheck_station e i f
  cases checks : (f.station i).state.checksFunds with
  | false =>
    rw [none checks]
    exact ⟨rfl, rfl, rfl, rfl, rfl, fun _ => rfl⟩
  | true =>
    obtain ⟨l, a, judged⟩ := checked checks
    rw [judged]
    exact judged_checkKeeps ..

end Sys2Proof.Machine
end

section
/-! PROOF. PRICE SWITCH: the inactive page becomes active, and every station's guard record is computed from it in its turn, with a
funding check where the guard of a live session has changed (R35, R36, R38, R39, R81; log 17). -/

namespace Sys2Proof.Machine

open Sys2Proof
-- One proof after the other: proofs that wait for one another hold a thread each, and its memory.
set_option Elab.async false

/-! ### A station that has ended its step -/

section Finished

variable (e : Mode) (old x : Station)

@[simp] theorem finished_state : (finished e old x).state = x.state := settleRecord_state ..
@[simp] theorem finished_context : (finished e old x).context = x.context := settleRecord_context ..
@[simp] theorem finished_jam : (finished e old x).jam = x.jam := settleRecord_jam ..
@[simp] theorem finished_copy : (finished e old x).copy = x.copy := settleRecord_copy ..
@[simp] theorem finished_guardValue : (finished e old x).guardValue = x.guardValue := settleRecord_guardValue ..
@[simp] theorem finished_noService : (finished e old x).noService = x.noService := settleRecord_noService ..
@[simp] theorem finished_inPath : (finished e old x).line.inPath = x.line.inPath :=
  (congrArg LineUnit.inPath (settleRecord_line ..)).trans (driveEnable_inPath ..)
@[simp] theorem finished_fundsPass : (finished e old x).fundsPass = x.fundsPass := by
  simp only [Station.fundsPass, Station.meetsGuard, finished_context, finished_guardValue]

end Finished

/-! ### Work at each station once -/

section Turns

variable {act : StationId → Floor → Floor} (others : ∀ i f, KeepsOthers i f (act i f))
include others

theorem foldl_station_of_notMem {l : List StationId} {j : StationId} (out : j ∉ l) (f : Floor) :
    (l.foldl (fun g i => act i g) f).station j = f.station j := by
  induction l generalizing f with
  | nil => rfl
  | cons i l ih =>
    obtain ⟨other, out⟩ := List.ne_and_not_mem_of_not_mem_cons out
    exact (ih out _).trans (others i f j other)

/-- The work at each station once finds a station as it stood, and what its turn makes of it stays (log 17). -/
theorem station_forStations (f : Floor) (j : StationId) :
    ∃ g, g.station j = f.station j ∧ (forStations act f).station j = (act j g).station j := by
  have every : ∀ j : StationId, j ∈ stationIds := by decide
  obtain ⟨l₁, l₂, turns⟩ := List.append_of_mem (every j)
  have once : (l₁ ++ j :: l₂).Nodup := turns ▸ (by decide : stationIds.Nodup)
  have before : j ∉ l₁ := fun inside => (List.nodup_append.mp once).2.2 j inside j List.mem_cons_self rfl
  have after : j ∉ l₂ := (List.nodup_cons.mp (List.nodup_append.mp once).2.1).1
  refine ⟨l₁.foldl (fun g i => act i g) f, foldl_station_of_notMem others before f, ?_⟩
  unfold forStations
  rw [turns, List.foldl_append, List.foldl_cons, foldl_station_of_notMem others after]

end Turns

/-! ### The prices of a page under the units' work -/

/-- The units write no price page (R164). -/
theorem FloorStep.basePrice {f g : Floor} (step : FloorStep f g) (good : goodOffset f.rptWr) (p : Page) :
    g.store.basePrice p = f.store.basePrice p := by
  funext k
  refine Memory.readLE_congr _ _ fun a least most => step.keeps good a ?_
  have cls := k.isLt
  cases p <;>
    simp only [Page.base, inWork, inAccounts, inStream, inHeader, inBytes, Config.pageABase, Config.pageBBase,
      Config.accountBase, Config.scratchBase, Config.streamBase, Config.streamBytes, Config.headerBase] at * <;>
    omega

/-- A guard record depends on the base prices of its page alone (R35). -/
theorem recomputeGuard_congr {m m' : Memory} {p : Page} (prices : m.basePrice p = m'.basePrice p) (x : Station) :
    x.recomputeGuard m p = x.recomputeGuard m' p := by
  unfold Station.recomputeGuard guardValueOf noServiceOf servedClasses Memory.sold
  rw [prices]

/-! ### The turn of a station -/

/-- The turn of station `i` in a switch to the page of the mode, whose prices are those of the store `m` (R35, R36). -/
def switchTurn (e : Mode) (m : Memory) (i : StationId) (f : Floor) : Floor :=
  let x := f.station i
  let y := x.recomputeGuard m e.page
  let g := f.onStation i fun _ => y
  if y.guardValue ≠ x.guardValue ∧ (x.context.condition = .live ∨ x.context.condition = .ending) then fundingCheck e i g else g

theorem hasLiveSession_iff (c : Context) : c.hasLiveSession = true ↔ c.condition = .live ∨ c.condition = .ending := by
  simp [Context.hasLiveSession]

theorem switchGuard_eq (e : Mode) (p : Page) (i : StationId) (f : Floor) :
    switchGuard e p i f = switchTurn { e with page := p } f.store i f := by
  unfold switchGuard switchTurn
  simp only [station_onStation_self, hasLiveSession_iff]
  rfl

theorem switchTurn_congr {e : Mode} {m m' : Memory} (prices : m.basePrice e.page = m'.basePrice e.page) (i : StationId)
    (f : Floor) : switchTurn e m i f = switchTurn e m' i f := by
  unfold switchTurn
  simp only [recomputeGuard_congr prices]

theorem switchGuard_step (e : Mode) (p : Page) (i : StationId) (f : Floor) : FloorStep f (switchGuard e p i f) := by
  unfold switchGuard
  dsimp only
  split
  · exact (onStation_step ..).trans (fundingCheck_step ..)
  · exact onStation_step ..

/-- Every turn of a switch finds the prices that stood at its beginning: what the checks write lies outside the pages. -/
theorem forStations_switchGuard (e : Mode) (p : Page) {f : Floor} (good : goodOffset f.rptWr) :
    forStations (switchGuard e p) f = forStations (switchTurn { e with page := p } f.store) f := by
  have turns : ∀ (l : List StationId) (g : Floor), FloorStep f g →
      l.foldl (fun g i => switchGuard e p i g) g = l.foldl (fun g i => switchTurn { e with page := p } f.store i g) g := by
    intro l
    induction l with
    | nil => exact fun _ _ => rfl
    | cons i l ih =>
      intro g step
      have turn : switchGuard e p i g = switchTurn { e with page := p } f.store i g :=
        (switchGuard_eq e p i g).trans (switchTurn_congr (step.basePrice good p) i g)
      rw [List.foldl_cons, List.foldl_cons, ← turn]
      exact ih _ (step.trans (switchGuard_step e p i g))
  exact turns stationIds f (.refl f)

theorem switchTurn_others (e : Mode) (m : Memory) (i : StationId) (f : Floor) : KeepsOthers i f (switchTurn e m i f) := by
  intro j other
  unfold switchTurn
  dsimp only
  split
  · exact ((fundingCheck_at ..).others j other).trans (station_onStation_other _ _ _ _ other)
  · exact station_onStation_other _ _ _ _ other

/-- A station without a live session has its guard record computed in its turn, and nothing else happens (R35, R36). -/
theorem switchTurn_quiet {e : Mode} {m : Memory} {i : StationId} {f : Floor}
    (live : (f.station i).context.condition ≠ .live) (ending : (f.station i).context.condition ≠ .ending) :
    switchTurn e m i f = f.onStation i fun x => x.recomputeGuard m e.page :=
  if_neg fun ⟨_, session⟩ => session.elim live ending

/-- What a turn leaves of its station: the guard record of the page, and what a funding check keeps. -/
theorem switchTurn_checkKeeps (e : Mode) (m : Memory) (i : StationId) (f : Floor) :
    CheckKeeps ((f.station i).recomputeGuard m e.page) ((switchTurn e m i f).station i) ∧
      KeepsEntries (f.station i).context.funding ((switchTurn e m i f).station i).context.funding := by
  unfold switchTurn
  dsimp only
  split
  · have check := fundingCheck_checkKeeps e i (f.onStation i fun _ => (f.station i).recomputeGuard m e.page)
    have entries := fundingCheck_entries e i (f.onStation i fun _ => (f.station i).recomputeGuard m e.page)
    rw [station_onStation_self] at check entries
    exact ⟨check, entries⟩
  · rw [station_onStation_self]
    exact ⟨⟨rfl, rfl, rfl, rfl, rfl, fun _ => rfl⟩, .refl _⟩

/-- Where the guard of a live session changes, the check decides the state (R36, R81). -/
theorem switchTurn_decides {e : Mode} {m : Memory} {i : StationId} {f : Floor}
    (live : (f.station i).context.condition = .live) (checks : (f.station i).state.checksFunds = true) :
    let y := (switchTurn e m i f).station i
    y.guardValue ≠ (f.station i).guardValue →
      y.state = if y.fundsPass then (if (f.station i).state = .recovery then .recovery else .opened) else .low := by
  intro y changed
  have guard : y.guardValue = ((f.station i).recomputeGuard m e.page).guardValue := (switchTurn_checkKeeps e m i f).1.guardValue
  have turn : switchTurn e m i f = fundingCheck e i (f.onStation i fun _ => (f.station i).recomputeGuard m e.page) :=
    if_pos ⟨guard ▸ changed, .inl live⟩
  have decides := fundingCheck_decides (e := e) (i := i) (f := f.onStation i fun _ => (f.station i).recomputeGuard m e.page)
    (by rw [station_onStation_self]; exact checks)
  rw [← turn, station_onStation_self] at decides
  exact decides

/-! ### All turns -/

section AllTurns

variable (e : Mode) (m : Memory) (f : Floor) (i : StationId)

/-- What the switch leaves of a station: the guard record of the page, and what a funding check keeps. -/
theorem switched_checkKeeps :
    CheckKeeps ((f.station i).recomputeGuard m e.page) ((forStations (switchTurn e m) f).station i) ∧
      KeepsEntries (f.station i).context.funding ((forStations (switchTurn e m) f).station i).context.funding := by
  obtain ⟨g, before, turn⟩ := station_forStations (switchTurn_others e m) f i
  rw [turn, ← before]
  exact switchTurn_checkKeeps e m i g

/-- The state the switch leaves a live session in where its guard has changed (R36, R81). -/
theorem switched_decides (live : (f.station i).context.condition = .live) (checks : (f.station i).state.checksFunds = true) :
    let y := (forStations (switchTurn e m) f).station i
    y.guardValue ≠ (f.station i).guardValue →
      y.state = if y.fundsPass then (if (f.station i).state = .recovery then .recovery else .opened) else .low := by
  obtain ⟨g, before, turn⟩ := station_forStations (switchTurn_others e m) f i
  rw [turn]
  rw [← before] at live checks ⊢
  exact switchTurn_decides live checks

/-- Where no station has a live session, the switch moves guard records alone (R36, R39). -/
theorem switched_quiet
    (none : ∀ i, (f.station i).context.condition ≠ .live ∧ (f.station i).context.condition ≠ .ending) :
    KeepsShared f (forStations (switchTurn e m) f) ∧
      ∀ i, (forStations (switchTurn e m) f).station i = (f.station i).recomputeGuard m e.page := by
  constructor
  · refine (List.foldlRecOn (motive := fun g => KeepsShared f g ∧ ∀ j, (g.station j).context = (f.station j).context)
      stationIds _ ⟨⟨rfl, rfl, rfl, rfl, rfl⟩, fun _ => rfl⟩ ?_).1
    rintro g ⟨shared, contexts⟩ i -
    have quiet : switchTurn e m i g = g.onStation i fun x => x.recomputeGuard m e.page :=
      switchTurn_quiet (contexts i ▸ (none i).1) (contexts i ▸ (none i).2)
    rw [quiet]
    refine ⟨shared, fun j => ?_⟩
    by_cases same : j = i
    · rw [same, station_onStation_self]
      exact contexts i
    · rw [station_onStation_other _ _ _ _ same]
      exact contexts j
  · intro i
    obtain ⟨g, before, turn⟩ := station_forStations (switchTurn_others e m) f i
    rw [turn, switchTurn_quiet (before ▸ (none i).1) (before ▸ (none i).2), station_onStation_self, before]

end AllTurns

/-! ### The order -/

theorem pageOther_eq (p : Page) : p.other = if p = .a then .b else .a := by cases p <;> rfl

theorem priceSwitchOrder_refused {e : Mode} {slot kind number : Nat} {f : Floor}
    (failure : f.store.pageFailure e.page.other = some (kind, number)) :
    priceSwitchOrder e slot f = .unchanged e f (pageRefused kind number) := by
  unfold priceSwitchOrder
  simp only [failure]

/-- What a switch to page `p` leaves behind: the page active, its label in the answer, and the turn of every station made on the
prices that stood at its beginning (R38). -/
def priceSwitched (e : Mode) (p : Page) (f : Floor) : Executed :=
  { reply := pageReply .done p 0 0 (f.store.pageLabel p), page := p
    floor := forStations (switchTurn { e with page := p } f.store) f }

theorem priceSwitchOrder_done {e : Mode} {slot : Nat} {f : Floor} (passes : f.store.pageFailure e.page.other = none)
    (good : goodOffset f.rptWr) : priceSwitchOrder e slot f = priceSwitched e e.page.other f := by
  unfold priceSwitchOrder priceSwitched
  simp only [passes, forStations_switchGuard e e.page.other good]

/-- Settles O34: the order ends on the floor that the stations' turns leave; each station is as its own turn left it, and a turn
without a live session moves the guard record alone. -/
theorem priceSwitchChangesThePage : Obligations.PriceSwitchChangesThePage := by
  unfold Obligations.PriceSwitchChangesThePage
  intro s l4 offset order m other
  have next : s.mode.page.other = other := pageOther_eq s.mode.page
  have good : goodOffset s.floor.rptWr := ⟨offset.1, offset.2.1⟩
  refine ⟨fun kind number failure => ?_, fun passes => ?_⟩
  · exact refusedWith_of_unchanged (r := pageRefused kind number) rfl order rfl l4 (by simp [pageRefused, layoutSize])
      (priceSwitchOrder_refused (next ▸ failure))
  · have done : exec .priceSwitch s = .next (finishOrder s (priceSwitched s.mode other s.floor)) := by
      rw [exec_order rfl order rfl, priceSwitchOrder_done (next ▸ passes) good, next]
    have stations := finishOrder_station s (priceSwitched s.mode other s.floor)
    refine ⟨_, done, finishOrder_answered _ _ (by simp [priceSwitched, pageReply, layoutSize]), finishOrder_mode ..,
      fun i => ?_, ⟨finishOrder_waitQueue .., finishOrder_dropped .., finishOrder_rptWr .., finishOrder_irqFlag .., stations,
        fun a answer record => finishOrder_read _ _ answer record, fun i => ?_⟩, fun none => ?_⟩
    · obtain ⟨keeps, entries⟩ := switched_checkKeeps { s.mode with page := other } m s.floor i
      intro x y served
      simp only [y, stations i, finished_noService, finished_guardValue, finished_copy, finished_inPath, finished_state,
        finished_jam, finished_context]
      refine ⟨keeps.noService, keeps.guardValue, keeps.copy, keeps.inPath, keeps.lost, keeps.number, fun k en found => ?_⟩
      obtain ⟨en', found', committed, -⟩ := entries k en found
      exact ⟨en', found', committed⟩
    · intro x y live state changed
      simp only [y, stations i, finished_guardValue, finished_state, finished_fundsPass] at changed ⊢
      exact switched_decides { s.mode with page := other } m s.floor i live
        (by simpa [StationState.checksFunds, or_assoc] using state) changed
    · obtain ⟨⟨store, queue, -, offset, flags⟩, records⟩ := switched_quiet { s.mode with page := other } m s.floor none
      refine ⟨congrArg (· ||| 1) flags, queue, offset, fun a outside => ?_, fun i => ?_⟩
      · obtain ⟨answer, record⟩ := not_or.mp outside
        rw [finishOrder_read _ _ answer record, readByte_cell _ record, readByte_cell _ record]
        exact congrArg (Memory.read · a) store
      · intro x
        have record : (priceSwitched s.mode other s.floor).floor.station i = x.recomputeGuard m other := records i
        rw [stations i, finished_guardValue, finished_noService, record]
        rfl

end Sys2Proof.Machine
end

section
/-! PROOF. The transmit queue: what an offered frame makes of it (R54, R55), and the bounds it keeps. -/

namespace Sys2Proof.Machine

open Sys2Proof
-- One proof after the other: proofs that wait for one another hold a thread each, and its memory.
set_option Elab.async false

/-! ### A frame that takes another's place -/

theorem replaceFirst_append {test : TxFrame → Bool} {new old : TxFrame} {before after : List TxFrame}
    (skipped : ∀ u ∈ before, test u = false) (met : test old = true) :
    replaceFirst test new (before ++ old :: after) = before ++ new :: after := by
  induction before with
  | nil => simp [replaceFirst, met]
  | cons u before ih =>
    obtain ⟨skip, rest⟩ := List.forall_mem_cons.mp skipped
    simp [replaceFirst, skip, ih rest]

theorem length_replaceFirst (test : TxFrame → Bool) (new : TxFrame) (l : List TxFrame) :
    (replaceFirst test new l).length = l.length := by
  induction l with
  | nil => rfl
  | cons u l ih =>
    rw [replaceFirst]
    split <;> simp [ih]

/-- A frame that takes the place of one of its kind leaves the count of every kind. -/
theorem countP_replaceFirst {test kind : TxFrame → Bool} {new : TxFrame} (same : ∀ u, test u = true → kind u = kind new)
    (l : List TxFrame) : (replaceFirst test new l).countP kind = l.countP kind := by
  induction l with
  | nil => rfl
  | cons u l ih =>
    rw [replaceFirst]
    split
    · next met => rw [List.countP_cons, List.countP_cons, same u met]
    · rw [List.countP_cons, List.countP_cons, ih]

/-! ### The kinds of frame -/

/-- A WELCOME takes the place of a WELCOME (R54 case 4). -/
theorem supersedes_eq_isWelcome {t : TxFrame} (h : t.isWelcome = true) (u : TxFrame) : t.supersedes u = u.isWelcome := by
  cases t with
  | welcome => cases u <;> rfl
  | showMsg => cases h
  | eject => cases h

/-- An EJECT takes the place of an EJECT (R54 case 4). -/
theorem supersedes_eq_isEject {t : TxFrame} (h : t.isEject = true) (u : TxFrame) : t.supersedes u = u.isEject := by
  cases t with
  | welcome => cases h
  | showMsg => cases h
  | eject => cases u <;> rfl

/-- A frame is no WELCOME and no EJECT exactly when it is a SHOW. -/
theorem isShow_iff (t : TxFrame) : t.isShow = true ↔ t.isWelcome = false ∧ t.isEject = false := by
  cases t <;> simp [TxFrame.isShow, TxFrame.isWelcome, TxFrame.isEject]

/-- A frame takes the place of one of its own kind. -/
theorem kind_of_supersedes {t u : TxFrame} (h : t.supersedes u = true) :
    u.isWelcome = t.isWelcome ∧ u.isEject = t.isEject := by
  cases t <;> cases u <;> simp [TxFrame.supersedes, TxFrame.isWelcome, TxFrame.isEject] at h ⊢

/-- Every frame is a WELCOME, a SHOW or an EJECT. -/
theorem length_eq_kinds (l : List TxFrame) :
    l.length = l.countP TxFrame.isShow + l.countP TxFrame.isWelcome + l.countP TxFrame.isEject := by
  induction l with
  | nil => rfl
  | cons u l ih =>
    have one : 1 = (if u.isShow then 1 else 0) + (if u.isWelcome then 1 else 0) + (if u.isEject then 1 else 0) := by
      cases u <;> rfl
    simp only [List.countP_cons, List.length_cons]
    omega

/-! ### The frame being sent and the waiting frames -/

theorem headSent_append_waiting (l : LinkUnit) : l.headSent ++ l.waiting = l.queue := by
  unfold LinkUnit.headSent LinkUnit.waiting
  split
  · exact List.take_append_drop 1 l.queue
  · rfl

theorem length_headSent_waiting (l : LinkUnit) : l.headSent.length + l.waiting.length = l.queue.length := by
  rw [← List.length_append, headSent_append_waiting]

theorem length_headSent_le (l : LinkUnit) : l.headSent.length ≤ 1 := by
  unfold LinkUnit.headSent
  split
  · exact List.length_take_le 1 _
  · exact Nat.zero_le 1

/-- A queue whose waiting frames are rearranged keeps the frame being sent. -/
theorem rebuilt_queue {l : LinkUnit} {w : List TxFrame} (none : l.waiting = [] → w = []) :
    ({ l with queue := l.headSent ++ w } : LinkUnit).waiting = w ∧
      ({ l with queue := l.headSent ++ w } : LinkUnit).headSent = l.headSent := by
  unfold LinkUnit.waiting LinkUnit.headSent at *
  cases sending : l.sending with
  | none => simp
  | some t =>
    cases queue : l.queue with
    | nil => simp [none (by simp [sending, queue])]
    | cons u rest => simp

/-- A frame that joins the end of the queue joins the waiting frames, if it does not become the one being sent. -/
theorem waiting_append_sublist (l : LinkUnit) (t : TxFrame) :
    List.Sublist ({ l with queue := l.queue ++ [t] } : LinkUnit).waiting (l.waiting ++ [t]) := by
  unfold LinkUnit.waiting
  dsimp only
  split
  · cases l.queue <;> simp
  · exact List.Sublist.refl _

/-! ### The four cases of an offered frame (R54, R55) -/

section Offer

variable {l : LinkUnit} {t : TxFrame}

theorem offer_discarded (h : l.discards t = true) : l.offer t = l := if_pos h

theorem offer_merged (kept : l.discards t = false) (merged : l.waiting.any t.supersedes = true) :
    l.offer t = { l with queue := l.headSent ++ replaceFirst t.supersedes t l.waiting } := by
  simp only [LinkUnit.offer, kept, merged, Bool.false_eq_true, if_false, if_true]

theorem offer_joined (kept : l.discards t = false) (new : l.waiting.any t.supersedes = false) (room : l.queue.length < 4) :
    l.offer t = { l with queue := l.queue ++ [t] } := by
  simp only [LinkUnit.offer, kept, new, Bool.false_eq_true, if_false, room, if_true]

theorem offer_displacing (kept : l.discards t = false) (new : l.waiting.any t.supersedes = false) (full : ¬ l.queue.length < 4) :
    l.offer t = { l with queue := l.headSent ++ displace t l.waiting } := by
  simp only [LinkUnit.offer, kept, new, Bool.false_eq_true, if_false, full]

/-- The first waiting SHOW gives way to a SHOW in its place, and to another frame that joins the end. -/
theorem displace_eq {before after : List TxFrame} {gone : TxFrame} (show' : gone.isShow = true)
    (first : ∀ u ∈ before, u.isShow = false) :
    displace t (before ++ gone :: after) = if t.isShow then before ++ t :: after else before ++ after ++ [t] := by
  unfold displace
  split
  · exact replaceFirst_append first show'
  · rw [List.eraseP_append_right _ (fun u hu => by simp [first u hu]), List.eraseP_cons_of_pos show']

/-- Whatever place the new frame takes, the waiting frames are those that stay and the new one. -/
theorem displace_perm {before after : List TxFrame} {gone : TxFrame} (show' : gone.isShow = true)
    (first : ∀ u ∈ before, u.isShow = false) :
    (displace t (before ++ gone :: after)).Perm (before ++ after ++ [t]) := by
  rw [displace_eq show' first]
  split
  · exact List.perm_middle.trans (List.perm_append_singleton ..).symm
  · exact List.Perm.refl _

/-- A full queue within its bounds holds a waiting SHOW: at most one WELCOME and one EJECT wait, and at most one frame is sent. -/
theorem full_holds_show (bound : QueueBound l) (full : l.queue.length = 4) :
    ∃ before gone after, l.waiting = before ++ gone :: after ∧ gone.isShow = true ∧ ∀ u ∈ before, u.isShow = false := by
  obtain ⟨-, welcome, eject⟩ := bound
  have shows : 0 < l.waiting.countP TxFrame.isShow := by
    have kinds := length_eq_kinds l.waiting
    have parts := length_headSent_waiting l
    have head := length_headSent_le l
    omega
  obtain ⟨u, waits, isShow⟩ := List.countP_pos_iff.mp shows
  obtain ⟨gone, before, after, first, goneShow, split, -⟩ := List.exists_of_eraseP waits isShow
  exact ⟨before, gone, after, split, goneShow, fun v hv => by simpa using first v hv⟩

end Offer

/-- Settles O56: the waiting frames are split at their first SHOW, which `displace` finds. -/
theorem fullQueueGivesUpItsOldestShow : Obligations.FullQueueGivesUpItsOldestShow := by
  unfold Obligations.FullQueueGivesUpItsOldestShow
  intro l t bound full kept new
  obtain ⟨before, gone, after, split, goneShow, first⟩ := full_holds_show bound full
  have offered : l.offer t = { l with queue := l.headSent ++ displace t l.waiting } :=
    offer_displacing kept new (by omega)
  have displaced : displace t l.waiting = if t.isShow then before ++ t :: after else before ++ after ++ [t] := by
    rw [split, displace_eq goneShow first]
  obtain ⟨waiting, head⟩ := rebuilt_queue (l := l) (w := displace t l.waiting) (by simp [split])
  rw [← offered] at waiting head
  refine ⟨before, gone, after, split, goneShow, first, waiting.trans displaced, head, ?_, by rw [offered], fun u waits other => ?_⟩
  · have same : (displace t l.waiting).length = l.waiting.length := by
      rw [split, (displace_perm goneShow first).length_eq]
      simp +arith
    rw [offered, List.length_append, same, length_headSent_waiting, full]
  · have stays : u ∈ before ++ after := by
      rw [split, List.mem_append, List.mem_cons] at waits
      rcases waits with h | rfl | h
      · exact List.mem_append_left _ h
      · rw [goneShow] at other
        cases other
      · exact List.mem_append_right _ h
    rw [waiting, split, (displace_perm goneShow first).mem_iff]
    exact List.mem_append_left _ stays

/-- Settles O57: the four cases of an offered frame, the test for a frame of the same kind and row being `supersedes`. -/
theorem offeredFramesAreAdmittedMergedOrDiscarded : Obligations.OfferedFramesAreAdmittedMergedOrDiscarded := by
  unfold Obligations.OfferedFramesAreAdmittedMergedOrDiscarded
  intro l t same discarded
  have same_iff : ∀ u, same u ↔ t.supersedes u = true := by
    intro u
    cases t <;> cases u <;> simp [same, TxFrame.supersedes]
  have discards_iff : l.discards t = true ↔ discarded := by
    cases t <;> simp [discarded, LinkUnit.discards, TxFrame.isWelcome]
  simp only [same_iff, ← discards_iff, Bool.not_eq_true]
  refine ⟨offer_discarded, fun before old after kept split met skipped => ?_, fun kept none room => ?_⟩
  · rw [offer_merged kept (by simp [split, met]), split, replaceFirst_append skipped met]
  · exact offer_joined kept (by simpa using none) room

/-! ### The bounds of the queue -/

section Bounds

variable {l : LinkUnit} {t : TxFrame}

theorem QueueBound.emptied {l : LinkUnit} (empty : l.queue = []) : QueueBound l := by
  simp [QueueBound, LinkUnit.waiting, empty]

/-- The bounds look at the queue and at what of it waits. -/
theorem QueueBound.congr {k : LinkUnit} (h : QueueBound l) (queue : k.queue = l.queue)
    (sending : k.sending.isSome = l.sending.isSome) : QueueBound k := by
  unfold QueueBound LinkUnit.waiting at *
  rw [queue, sending]
  exact h

/-- Waiting frames rearranged, no more of them and no more than one WELCOME and one EJECT, keep the bounds. -/
theorem QueueBound.rebuilt (h : QueueBound l) {w : List TxFrame} (short : w.length ≤ l.waiting.length)
    (welcome : w.countP TxFrame.isWelcome ≤ 1) (eject : w.countP TxFrame.isEject ≤ 1) :
    QueueBound { l with queue := l.headSent ++ w } := by
  obtain ⟨waiting, -⟩ := rebuilt_queue (l := l) (w := w) fun empty => by simpa [empty] using short
  refine ⟨?_, by rwa [waiting], by rwa [waiting]⟩
  have parts := length_headSent_waiting l
  have length := h.1
  rw [List.length_append]
  omega

/-- A kind of which a new frame finds none waiting has at most one waiting with it. -/
theorem countP_joined {kind : TxFrame → Bool} {w : List TxFrame} (one : w.countP kind ≤ 1)
    (new : kind t = true → ∀ u ∈ w, kind u = false) : (w ++ [t]).countP kind ≤ 1 := by
  rw [List.countP_append, List.countP_singleton]
  by_cases isKind : kind t = true
  · have none : w.countP kind = 0 := List.countP_eq_zero.mpr fun u hu => by simp [new isKind u hu]
    simp [none, isKind]
  · simpa [isKind] using one

/-- An offered frame keeps the bounds of the queue (R54, R55). -/
theorem QueueBound.offer (h : QueueBound l) (t : TxFrame) : QueueBound (l.offer t) := by
  obtain ⟨length, welcome, eject⟩ := h
  by_cases kept : l.discards t = true
  · rw [offer_discarded kept]
    exact ⟨length, welcome, eject⟩
  rw [Bool.not_eq_true] at kept
  by_cases merged : l.waiting.any t.supersedes = true
  · rw [offer_merged kept merged]
    refine QueueBound.rebuilt ⟨length, welcome, eject⟩ (length_replaceFirst ..).le ?_ ?_
    · rwa [countP_replaceFirst (kind := TxFrame.isWelcome) fun _ met => (kind_of_supersedes met).1]
    · rwa [countP_replaceFirst (kind := TxFrame.isEject) fun _ met => (kind_of_supersedes met).2]
  rw [Bool.not_eq_true] at merged
  have new : ∀ u ∈ l.waiting, t.supersedes u = false := by simpa using merged
  have welcomes : (l.waiting ++ [t]).countP TxFrame.isWelcome ≤ 1 :=
    countP_joined welcome fun isKind u hu => supersedes_eq_isWelcome isKind u ▸ new u hu
  have ejects : (l.waiting ++ [t]).countP TxFrame.isEject ≤ 1 :=
    countP_joined eject fun isKind u hu => supersedes_eq_isEject isKind u ▸ new u hu
  by_cases room : l.queue.length < 4
  · rw [offer_joined kept merged room]
    have joined := waiting_append_sublist l t
    exact ⟨by simp only [List.length_append, List.length_singleton]; omega, (joined.countP_le).trans welcomes,
      (joined.countP_le).trans ejects⟩
  · obtain ⟨before, gone, after, split, goneShow, first⟩ := full_holds_show ⟨length, welcome, eject⟩ (by omega)
    rw [offer_displacing kept merged room]
    have frames : (displace t l.waiting).Perm (before ++ after ++ [t]) := split ▸ displace_perm goneShow first
    have few : List.Sublist (before ++ after ++ [t]) (l.waiting ++ [t]) :=
      split ▸ (((List.sublist_cons_self gone after).append_left before).append_right [t])
    refine QueueBound.rebuilt ⟨length, welcome, eject⟩ ?_ ?_ ?_
    · rw [frames.length_eq, split]
      simp +arith
    · exact (frames.countP_eq _).trans_le (few.countP_le.trans welcomes)
    · exact (frames.countP_eq _).trans_le (few.countP_le.trans ejects)

theorem QueueBound.trimRows (h : QueueBound l) (rows : Nat) : QueueBound (l.trimRows rows) := by
  have trimmed : List.Sublist (l.waiting.filter fun t => !t.aboveRows rows) l.waiting := List.filter_sublist
  exact h.rebuilt trimmed.length_le (trimmed.countP_le.trans h.2.1) (trimmed.countP_le.trans h.2.2)

theorem QueueBound.startFrame (h : QueueBound l) (w : WorkingCopy) (now : Time) : QueueBound (l.startFrame w now) := by
  unfold LinkUnit.startFrame
  split
  · split
    · next head =>
      obtain ⟨length, welcome, eject⟩ := h
      have waits : List.Sublist (l.queue.drop 1) l.waiting := by
        unfold LinkUnit.waiting
        split
        · exact List.Sublist.refl _
        · exact List.drop_sublist ..
      exact ⟨length, waits.countP_le.trans welcome, waits.countP_le.trans eject⟩
    · exact h
  · exact h

theorem QueueBound.endCharacter (h : QueueBound l) (w : WorkingCopy) : QueueBound (l.endCharacter w) := by
  unfold LinkUnit.endCharacter
  split
  · exact h
  · next sending => exact h.congr rfl (by simp [sending])
  · next sending =>
    split
    · dsimp only
      split
      · exact h.congr rfl (by simp [sending])
      · exact h.congr rfl (by simp [sending, LinkUnit.startCharacter])
    · exact h

theorem QueueBound.endFrame (h : QueueBound l) (w : WorkingCopy) (now : Time) : QueueBound (l.endFrame w now) := by
  unfold LinkUnit.endFrame
  split
  · exact h
  · next sending => exact h.congr rfl (by simp [sending, LinkUnit.startGap])
  · next sending =>
    split
    · exact h
    · obtain ⟨length, welcome, eject⟩ := h
      rw [LinkUnit.waiting, sending] at welcome eject
      exact ⟨(List.drop_sublist 1 l.queue).length_le.trans length, welcome, eject⟩

theorem QueueBound.startCharacter (h : QueueBound l) (w : WorkingCopy) : QueueBound (l.startCharacter w) := by
  unfold LinkUnit.startCharacter
  split
  · exact h.congr rfl rfl
  · exact h

theorem QueueBound.sampleBusy (h : QueueBound l) (w : WorkingCopy) (now : Time) (high : Bool) :
    QueueBound (l.sampleBusy w now high) := by
  have free : QueueBound { l with busyHigh := high, busy := false, busyStart := none } := h.congr rfl rfl
  unfold LinkUnit.sampleBusy
  split
  · exact h.congr rfl rfl
  · dsimp only
    split
    · exact free.startCharacter w
    · exact free

theorem QueueBound.heard (h : QueueBound l) (now : Time) : QueueBound (l.heard now) := by
  unfold LinkUnit.heard
  split
  · exact h.congr rfl rfl
  · exact h

theorem QueueBound.softReset (l : LinkUnit) : QueueBound l.softReset := .emptied rfl

end Bounds

end Sys2Proof.Machine
end

section
/-! SUPPORT. The bounds of the transmit queues under the work of the units: frames are offered, the link goes DOWN, and the rest of the
work leaves the link units alone. -/

namespace Sys2Proof.Machine

open Sys2Proof
-- One proof after the other: proofs that wait for one another hold a thread each, and its memory.
set_option Elab.async false

/-! ### The relation -/

/-- Work that keeps the bounds of every station's transmit queue. -/
structure Queued (f g : Floor) : Prop where
  each : ∀ j, QueueBound (f.station j).link → QueueBound (g.station j).link

section Work

variable {e : Mode} {i : StationId} {f g k : Floor}

theorem Queued.refl (f : Floor) : Queued f f := ⟨fun _ h => h⟩

theorem Queued.trans (a : Queued f g) (b : Queued g k) : Queued f k := ⟨fun j h => b.each j (a.each j h)⟩

/-- Work that leaves every station alone. -/
theorem Queued.of_same (h : g.stations = f.stations) : Queued f g := ⟨fun j bound => by
  have same : g.station j = f.station j := by unfold Floor.station; rw [h]
  rwa [same]⟩

/-- A change of a station that keeps the bounds of its queue. -/
theorem queued_change {change : Station → Station} (h : ∀ x, QueueBound x.link → QueueBound (change x).link) :
    Queued f (f.onStation i change) := ⟨fun j bound => by
  by_cases same : j = i
  · subst same
    rw [station_onStation_self]
    exact h _ bound
  · rwa [station_onStation_other _ _ _ _ same]⟩

/-- A change of a station that leaves its link unit alone. -/
theorem queued_onStation {change : Station → Station} (same : ∀ x, (change x).link = x.link := by intro x; rfl) :
    Queued f (f.onStation i change) := queued_change fun x h => by rwa [same]

theorem queued_onStore (change : Memory → Memory) : Queued f (f.onStore change) := .of_same rfl

theorem enqueue_queued (p : Producer) : Queued f (f.enqueue p) := .of_same rfl

theorem queued_foldl {α : Type} {act : Floor → α → Floor} (h : ∀ f a, Queued f (act f a)) (l : List α) (f : Floor) :
    Queued f (l.foldl act f) := by
  induction l generalizing f with
  | nil => exact .refl f
  | cons a l ih => exact (h f a).trans (ih _)

theorem queued_forStations {act : StationId → Floor → Floor} (h : ∀ i f, Queued f (act i f)) : Queued f (forStations act f) :=
  queued_foldl (fun f i => h i f) _ f

/-! ### Frames and the link -/

theorem offer_queued (t : TxFrame) : Queued f (offer i t f) := queued_change fun _ h => h.offer t

theorem refusal_queued (msg : Message) (a b : Int) : Queued f (showAndEject i msg a b f) :=
  (offer_queued _).trans (offer_queued _)

theorem stationNotice_queued (event : NoticeEvent) (cause : OutCause) : Queued f (stationNotice e i event cause f) :=
  ⟨fun j h => by rwa [station_stationNotice]⟩

theorem linkDown_queued : Queued f (linkDown e i f) :=
  (queued_change fun _ _ => .emptied rfl).trans (stationNotice_queued ..)

theorem applySerial_queued (old : WorkingCopy) : Queued f (applySerial e i old f) := by
  unfold applySerial
  dsimp only
  split
  · split
    · exact (queued_change fun _ _ => .emptied rfl).trans linkDown_queued
    · exact queued_change fun _ _ => .emptied rfl
  · split
    · refine (queued_change fun _ h => ?_).trans (offer_queued _)
      exact h.congr rfl rfl
    · exact .refl f

/-! ### Authorization -/

theorem writeAuth_queued : Queued f (writeAuth e i f) := by
  unfold writeAuth
  split
  · exact .refl f
  · exact (Queued.of_same (writeReport_stations ..)).trans queued_onStation

theorem produceAuth_queued (kind : AuthKind) (amount : Nat) : Queued f (produceAuth e i kind amount f) := by
  have next : ∀ g : Floor, Queued g (if mayWrite e g 32 then writeAuth e i g else g.enqueue (.auth i)) := by
    intro g
    split
    · exact writeAuth_queued
    · exact enqueue_queued _
  exact (queued_onStation).trans (next _)

theorem wantAuth_queued (kind : AuthKind) (amount : Nat) : Queued f (wantAuth e i kind amount f) := by
  unfold wantAuth
  split
  · exact queued_onStation
  · exact produceAuth_queued ..

theorem cancelAuth_queued : Queued f (cancelAuth i f) := queued_onStation

theorem writeWaitingAuth_queued : Queued f (writeWaitingAuth e i f) := by
  unfold writeWaitingAuth
  dsimp only
  split
  · exact writeAuth_queued.trans (produceAuth_queued ..)
  · exact writeAuth_queued

/-! ### Funding -/

/-- A funding request changes no link unit (R82). -/
theorem fundingSteps_queued (spills : Nat) : Queued f (fundingSteps i spills f) := by
  refine ⟨fun j h => ?_⟩
  by_cases same : j = i
  · subst same
    obtain ⟨l, station⟩ := fundingSteps_station j spills f
    rw [station]
    exact h
  · rwa [(fundingSteps_at i spills f).others j same]

theorem askIncrement_queued : Queued f (askIncrement e i f) := by
  unfold askIncrement
  dsimp only
  split
  · split
    · exact wantAuth_queued ..
    · exact .refl f
  · exact .refl f

theorem enterLow_queued : Queued f (enterLow e i f) := by
  have low : ∀ x : Station, ({ (if x.state = .recovery then x.finaliseLost else x) with state := .low } : Station).link = x.link := by
    intro x
    dsimp only
    split <;> rfl
  unfold enterLow
  exact (queued_onStation low).trans ((offer_queued _).trans ((stationNotice_queued ..).trans
    ((queued_onStation).trans askIncrement_queued)))

theorem checkPassed_queued : Queued f (checkPassed i f) := by
  unfold checkPassed
  split
  · exact (queued_onStation).trans (offer_queued _)
  · exact .refl f

theorem checkFailed_queued : Queued f (checkFailed e i f) := by
  unfold checkFailed
  split
  · exact askIncrement_queued
  · exact enterLow_queued

theorem fundingCheckOpen_queued : Queued f (fundingCheckOpen e i f) := by
  have outcome : ∀ g, Queued g (if (g.station i).fundsPass then checkPassed i g else checkFailed e i g) := by
    intro g
    split
    · exact checkPassed_queued
    · exact checkFailed_queued
  unfold fundingCheckOpen
  dsimp only
  split
  · split
    · exact (fundingSteps_queued 2).trans (outcome _)
    · exact outcome _
  · exact .refl f

theorem fundingCheck_queued : Queued f (fundingCheck e i f) := (fundingCheckOpen_queued).trans (.of_same rfl)

theorem reevaluate_queued (accounts : List Nat) : Queued f (reevaluate e accounts f) := by
  unfold reevaluate
  dsimp only
  split
  · exact (queued_foldl (fun _ _ => fundingCheckOpen_queued) _ f).trans (.of_same (foldl_closeAccounts_stations ..))
  · exact .refl f

/-! ### Stray tallies -/

theorem writeStray_queued : Queued f (writeStray e i f) := by
  unfold writeStray
  exact (Queued.of_same (writeReport_stations ..)).trans ((queued_onStore _).trans queued_onStation)

theorem closeStray_queued (cause : EndCause) : Queued f (closeStray e i cause f) := by
  unfold closeStray
  dsimp only
  split
  · exact .refl f
  · split
    · exact queued_onStation
    · split
      · exact (queued_onStation).trans writeStray_queued
      · exact (queued_onStation).trans (enqueue_queued _)

/-! ### Cards and sessions -/

theorem openSession_queued (o : Opening) : Queued f (openSession e i o f) := by
  unfold openSession
  exact (closeStray_queued _).trans ((queued_onStore _).trans ((queued_onStation).trans ((offer_queued _).trans
    ((queued_onStation).trans fundingCheck_queued))))

theorem acceptCustomer_queued (card : Card) (d : DirEntry) : Queued f (acceptCustomer e i card d f) := by
  unfold acceptCustomer
  dsimp only
  split
  · exact (queued_onStore _).trans (openSession_queued _)
  · exact refusal_queued ..

theorem beginFunding_queued (card : Card) : Queued f (beginFunding e i card f) :=
  (queued_onStation).trans ((wantAuth_queued ..).trans (offer_queued _))

theorem judgeCard_queued (card : Card) : Queued f (judgeCard e i card f) := by
  unfold judgeCard
  dsimp only
  split
  · exact refusal_queued ..
  · split
    · split
      · exact refusal_queued ..
      · exact beginFunding_queued _
    · split
      · exact refusal_queued ..
      · split_ifs
        · exact refusal_queued ..
        · exact (queued_onStore _).trans (openSession_queued _)
        · exact refusal_queued ..
        · exact acceptCustomer_queued ..

theorem reachIdle_queued : Queued f (reachIdle e i f) := by
  have next : ∀ g, Queued g (match (g.station i).nextCard with
      | some card => judgeCard e i card (g.onStation i fun x => { x with nextCard := none })
      | none => g) := by
    intro g
    split
    · exact (queued_onStation).trans (judgeCard_queued _)
    · exact .refl g
  have stop : ∀ g, Queued g (if e.run = .stopping then closeStray e i .stop g else g) := by
    intro g
    split
    · exact closeStray_queued _
    · exact .refl g
  exact (queued_onStation).trans ((stop _).trans (next _))

theorem answerNextCard_queued : Queued f (answerNextCard i f) := by
  unfold answerNextCard
  split
  · exact (queued_onStation).trans (refusal_queued ..)
  · exact .refl f

theorem enterOut_queued (cause : OutCause) : Queued f (enterOut e i cause f) := by
  have close : ∀ g, Queued g (if e.runs then closeStray e i .out g else g) := by
    intro g
    split
    · exact closeStray_queued _
    · exact .refl g
  unfold enterOut
  exact (queued_onStation).trans ((close _).trans (answerNextCard_queued.trans ((offer_queued _).trans
    (stationNotice_queued ..))))

theorem giveUpFunding_queued : Queued f (giveUpFunding e i f) :=
  cancelAuth_queued.trans ((queued_onStation).trans reachIdle_queued)

theorem QueueBound.ended {x : Station} (h : QueueBound x.link) (now : Time) (cause : EndCause) :
    QueueBound (x.ended now cause).link := by
  unfold Station.ended
  dsimp only
  split
  · exact h
  · exact h.offer _

theorem endSession_queued (cause : EndCause) : Queued f (endSession e i cause f) := by
  rw [endSession_eq]
  exact queued_change fun _ h => h.ended _ _

theorem endIfLive_queued (cause : EndCause) : Queued f (endIfLive e i cause f) := by
  unfold endIfLive
  split
  · exact endSession_queued _
  · exact .refl f

theorem cardInGrace_queued (card : Card) : Queued f (cardInGrace e i card f) := by
  unfold cardInGrace
  dsimp only
  split_ifs
  · exact queued_onStation
  · exact (endSession_queued _).trans queued_onStation
  · exact giveUpFunding_queued.trans (judgeCard_queued _)

theorem sessionCardIn_queued (card : Card) : Queued f (sessionCardIn e i card f) := by
  unfold sessionCardIn
  dsimp only
  split
  · exact refusal_queued ..
  · split
    · exact cardInGrace_queued _
    · cases (f.station i).state with
      | idle => exact judgeCard_queued _
      | draining | settling => exact queued_onStation
      | jammed =>
        dsimp only
        split
        · exact .refl f
        · exact queued_onStation
      | funding | opened | low | recovery | out => exact .refl f

theorem sessionCardOut_queued : Queued f (sessionCardOut e i f) := by
  unfold sessionCardOut
  dsimp only
  split_ifs
  · exact (queued_onStation).trans giveUpFunding_queued
  · exact (queued_onStation).trans (endIfLive_queued _)
  · exact queued_onStation

theorem sessionKeyEnd_queued : Queued f (sessionKeyEnd e i f) := by
  unfold sessionKeyEnd
  dsimp only
  split_ifs
  · exact .refl f
  · exact (offer_queued _).trans giveUpFunding_queued
  · exact endIfLive_queued _
  · exact .refl f

theorem sessionKeyBalance_queued : Queued f (sessionKeyBalance e i f) := by
  unfold sessionKeyBalance
  dsimp only
  split
  · exact .refl f
  · split
    · exact .refl f
    · exact offer_queued _

/-! ### Jams -/

theorem writeJam_queued : Queued f (writeJam e i f) := by
  unfold writeJam
  split
  · exact .refl f
  · exact (Queued.of_same (writeReport_stations ..)).trans queued_onStation

theorem produceJam_queued (r : JamReport) : Queued f (produceJam e i r f) := by
  unfold produceJam
  dsimp only
  split
  · exact (queued_onStation).trans writeJam_queued
  · exact (queued_onStation).trans (enqueue_queued _)

theorem onSheetAccount_queued (s : Sheet) (change : Account → Account) : Queued f (onSheetAccount i s change f) := by
  unfold onSheetAccount
  split
  · exact queued_onStore _
  · exact .refl f

theorem loseSheet_queued (s : Sheet) : Queued f (loseSheet i s f) := by
  unfold loseSheet
  exact (onSheetAccount_queued ..).trans queued_onStation

theorem loseToList_queued (sheets : List Sheet) : Queued f (loseToList i sheets f) := by
  induction sheets generalizing f with
  | nil => exact .refl f
  | cons s rest ih => exact (loseSheet_queued _).trans ((queued_onStation).trans ih)

theorem stopForJam_queued : Queued f (stopForJam i f) := by
  unfold stopForJam
  dsimp only
  split
  · exact cancelAuth_queued.trans ((offer_queued _).trans ((queued_onStation).trans queued_onStation))
  · exact queued_onStation

theorem declareJam_queued (cause : JamCause) (extra : List Sheet) : Queued f (declareJam e i cause extra f) := by
  unfold declareJam
  exact (queued_onStation).trans (stopForJam_queued.trans ((queued_onStation).trans ((loseToList_queued _).trans
    ((queued_onStation).trans ((produceJam_queued _).trans ((queued_onStation).trans (offer_queued _)))))))

theorem jamCause_queued (cause : JamCause) (extra : List Sheet) : Queued f (jamCause e i cause extra f) := by
  unfold jamCause
  dsimp only
  split
  · exact declareJam_queued ..
  · exact .refl f

/-! ### Settlement and the wait queue -/

theorem moveOn_queued : Queued f (moveOn e i f) := by
  unfold moveOn
  dsimp only
  split_ifs
  · exact .refl f
  · exact enterOut_queued _
  · exact reachIdle_queued

theorem writeSession_queued : Queued f (writeSession e i f) := by
  unfold writeSession
  exact (Queued.of_same (writeReport_stations ..)).trans ((Queued.of_same (foldl_stations _ applyBlock_stations _ _)).trans
    ((Queued.of_same (foldl_stations _ (closeReleased_stations e) _ _)).trans
      ((queued_onStation).trans ((reevaluate_queued _).trans moveOn_queued))))

theorem enterSettling_queued : Queued f (enterSettling e i f) := by
  unfold enterSettling
  dsimp only
  split
  · exact (queued_onStation).trans ((offer_queued _).trans writeSession_queued)
  · exact (queued_onStation).trans ((offer_queued _).trans (enqueue_queued _))

theorem writeWaiting_queued (p : Producer) : Queued f (writeWaiting e f p) := by
  cases p with
  | session => exact writeSession_queued
  | stray => exact writeStray_queued
  | auth => exact writeWaitingAuth_queued
  | jam => exact writeJam_queued
  | close => exact .of_same (writeClose_stations ..)

theorem moveQueue_queued (n : Nat) : Queued f (moveQueue e n f) := by
  induction n generalizing f with
  | zero => exact .refl f
  | succ n ih =>
    simp only [moveQueue]
    split
    · exact .refl f
    · next rest _ =>
      split
      · exact (Queued.of_same (f := f) (g := { f with waitQueue := rest }) rfl).trans ((writeWaiting_queued _).trans ih)
      · exact .refl f

end Work

end Sys2Proof.Machine
end

section
/-! SUPPORT. The bounds of the transmit queues under the events of the copier lines, the timers and the terminal. -/

namespace Sys2Proof.Machine

open Sys2Proof
-- One proof after the other: proofs that wait for one another hold a thread each, and its memory.
set_option Elab.async false

section Events

variable {e : Mode} {i : StationId} {f : Floor}

/-! ### Line events -/

theorem chargeSession_queued (entry : FundingEntry) (s : Sheet) : Queued f (chargeSession e i entry s f) := by
  unfold chargeSession
  dsimp only
  split
  · exact (queued_onStore _).trans ((queued_onStation).trans fundingCheck_queued)
  · exact (queued_onStation).trans fundingCheck_queued

theorem chargeStray_queued (s : Sheet) : Queued f (chargeStray e i s f) := by
  unfold chargeStray
  dsimp only
  split
  · exact (queued_onStation).trans (closeStray_queued _)
  · exact queued_onStation

theorem chargeSheet_queued (s : Sheet) : Queued f (chargeSheet e i s f) := by
  unfold chargeSheet
  split
  · exact chargeSession_queued ..
  · exact chargeStray_queued _

theorem placeSheet_queued (s : Sheet) : Queued f (placeSheet e i s f) := by
  unfold placeSheet
  dsimp only
  split_ifs
  · exact queued_onStation
  · exact loseSheet_queued _
  · exact jamCause_queued ..

theorem feedInService_queued (cls : SheetClass) : Queued f (feedInService e i cls f) := by
  have fed : Queued f (placeSheet e i (sheetOf e i cls f) (chargeSheet e i (sheetOf e i cls f) (noteFeed e i cls f))) :=
    (queued_onStation).trans ((chargeSheet_queued _).trans (placeSheet_queued _))
  unfold feedInService
  dsimp only
  split
  · exact fed.trans (closeStray_queued _)
  · exact fed

theorem feedTaken_queued (size colour sides : Bool) : Queued f (feedTaken i size colour sides e f) := by
  unfold feedTaken feedEvent
  dsimp only
  split_ifs
  · exact (queued_onStation).trans (feedInService_queued _)
  · exact queued_onStation
  · exact .refl f

theorem showDelivery_queued : Queued f (showDelivery i f) := by
  unfold showDelivery
  dsimp only
  split
  · exact offer_queued _
  · exact offer_queued _

theorem deliverSheet_queued (s : Sheet) : Queued f (deliverSheet i s f) := by
  unfold deliverSheet
  split
  · exact queued_onStation
  · exact (onSheetAccount_queued ..).trans ((queued_onStation).trans showDelivery_queued)

theorem countRecovery_link (x : Station) : x.countRecovery.link = x.link := by
  unfold Station.countRecovery
  dsimp only
  split_ifs <;> rfl

theorem exitInPath_queued (s : Sheet) (rest : List Sheet) : Queued f (exitInPath e i s rest f) := by
  unfold exitInPath
  exact (queued_onStation).trans ((deliverSheet_queued _).trans (queued_onStation countRecovery_link))

theorem deliverLate_queued (l : LostSheet) : Queued f (deliverLate e i l f) := by
  have session : Queued f (showDelivery i ((onSheetAccount i l.sheet
      (·.addDelivered l.sheet.cls (facesOf l.sheet.cls)) f).onStation i
        (Station.onContext fun c => (c.recover l).deliver l.sheet.cls))) :=
    (onSheetAccount_queued ..).trans ((queued_onStation).trans showDelivery_queued)
  unfold deliverLate
  split
  · exact queued_onStation
  all_goals
    dsimp only
    split
    · exact session.trans fundingCheck_queued
    · exact session

theorem exitInService_queued : Queued f (exitInService e i f) := by
  unfold exitInService
  dsimp only
  split
  · exact exitInPath_queued ..
  · split
    · exact (queued_onStation).trans (deliverLate_queued _)
    · exact queued_onStation
  · exact queued_onStation

theorem exitTaken_queued : Queued f (exitTaken i e f) := by
  unfold exitTaken exitEvent
  dsimp only
  split_ifs
  · exact (queued_onStation).trans exitInService_queued
  · exact queued_onStation
  · exact .refl f

theorem faultTaken_queued (active : Bool) : Queued f (faultTaken i active e f) := by
  unfold faultTaken faultEvent
  dsimp only
  split_ifs
  · exact queued_onStation
  · exact (queued_onStation).trans (jamCause_queued ..)
  · exact (queued_onStation).trans queued_onStation
  · exact queued_onStation
  · exact .refl f

theorem inactiveTaken_queued (line : PulseLine) : Queued f (inactiveTaken i line e f) := by
  cases line <;> unfold inactiveTaken <;> dsimp only <;> split
  · exact queued_onStation
  · exact .refl f
  · exact queued_onStation
  · exact .refl f

/-! ### Timers and jams -/

theorem transitDue_queued : Queued f (transitDue i e f) := by
  unfold transitDue
  split
  · exact jamCause_queued ..
  · exact .refl f

theorem quietDue_queued : Queued f (quietDue i e f) := by
  unfold quietDue
  dsimp only
  split
  · exact enterSettling_queued
  · exact .refl f

theorem lowDue_queued : Queued f (lowDue i e f) := by
  unfold lowDue
  dsimp only
  split
  · exact endIfLive_queued _
  · exact .refl f

theorem graceDue_queued : Queued f (graceDue i e f) := by
  unfold graceDue
  dsimp only
  split_ifs
  · exact endSession_queued _
  · exact giveUpFunding_queued
  · exact .refl f
  · exact .refl f

theorem authDue_queued : Queued f (authDue i e f) := by
  unfold authDue
  dsimp only
  split_ifs
  · exact cancelAuth_queued.trans ((refusal_queued ..).trans giveUpFunding_queued)
  · exact cancelAuth_queued.trans ((queued_onStation).trans (offer_queued _))
  · exact .refl f

theorem silenceDue_queued : Queued f (silenceDue i e f) := by
  unfold silenceDue
  dsimp only
  split
  · exact linkDown_queued
  · exact .refl f

theorem busyDue_queued : Queued f (busyDue i e f) := by
  unfold busyDue
  dsimp only
  split
  · exact linkDown_queued
  · exact .refl f

theorem enterRecovery_queued : Queued f (enterRecovery e i f) := by
  unfold enterRecovery
  exact (queued_onStation).trans ((offer_queued _).trans fundingCheck_queued)

theorem afterJam_queued : Queued f (afterJam e i f) := by
  unfold afterJam endAtJamLimit
  dsimp only
  split
  · split
    · exact (queued_onStation).trans ((endSession_queued _).trans queued_onStation)
    · exact enterRecovery_queued
  · exact queued_onStation
  · exact queued_onStation
  all_goals
    split
    · exact (queued_onStation).trans (enterOut_queued _)
    · exact (queued_onStation).trans reachIdle_queued

theorem jamDue_queued : Queued f (jamDue i e f) := by
  unfold jamDue
  split
  · exact afterJam_queued
  · exact .refl f

theorem recoveryDue_queued : Queued f (recoveryDue i e f) := by
  unfold recoveryDue
  dsimp only
  split
  · exact queued_onStation
  · exact .refl f

/-! ### Frames from the terminal -/

/-- A change of the link unit alone that keeps the bounds of its queue. -/
theorem onLink_queued {change : Station → LinkUnit → LinkUnit} (h : ∀ x l, QueueBound l → QueueBound (change x l)) :
    Queued f (f.onStation i fun x => x.onLink (change x)) := queued_change fun x => h x x.link

/-- A change of the link unit that leaves its queue and the frame being sent alone. -/
theorem linkFields_queued {change : LinkUnit → LinkUnit} (queue : ∀ l, (change l).queue = l.queue := by intro l; rfl)
    (sending : ∀ l, (change l).sending = l.sending := by intro l; rfl) : Queued f (f.onStation i (Station.onLink change)) :=
  queued_change fun x h => h.congr (queue x.link) (by rw [onLink_link, sending])

theorem takeHello_queued (abilities rows : Byte) : Queued f (takeHello e i abilities rows f) := by
  unfold takeHello
  dsimp only
  split
  · refine onLink_queued fun _ l h => ((QueueBound.trimRows ?_ _).offer _)
    exact h.congr rfl rfl
  · refine Queued.trans (onLink_queued fun _ l h => ?_) (stationNotice_queued ..)
    have told : QueueBound { l with
        offered := offeredAbility abilities rows, agreed := agreedWith (f.station i).copy (offeredAbility abilities rows) } :=
      h.congr rfl rfl
    exact (told.offer _).congr rfl rfl

theorem cardLeaves_queued : Queued f (cardLeaves e i f) := by
  unfold cardLeaves
  split
  · exact (linkFields_queued).trans sessionCardOut_queued
  · exact .refl f

theorem takeTick_queued (flags : Byte) : Queued f (takeTick e i flags f) := by
  unfold takeTick
  dsimp only
  split
  · exact linkFields_queued
  · exact (linkFields_queued).trans cardLeaves_queued

theorem takeCardIn_queued (card : Card) : Queued f (takeCardIn e i card f) := by
  unfold takeCardIn
  dsimp only
  split
  · exact refusal_queued ..
  · exact (linkFields_queued).trans (sessionCardIn_queued _)

theorem takeKey_queued {key : Floor → Floor} (h : Queued f (key f)) : Queued f (takeKey i key f) := by
  unfold takeKey
  split
  · exact h
  · exact .refl f

theorem actOnFrame_queued (t : RxFrame) : Queued f (actOnFrame e i t f) := by
  have whenUp : ∀ {g : Floor}, Queued f g → Queued f (if (f.station i).link.up then g else f) := by
    intro g h
    split
    · exact h
    · exact .refl f
  cases t with
  | hello => exact takeHello_queued ..
  | tick => exact whenUp (takeTick_queued _)
  | cardIn => exact whenUp (takeCardIn_queued _)
  | cardOut => exact whenUp cardLeaves_queued
  | keyEnd => exact whenUp (takeKey_queued sessionKeyEnd_queued)
  | keyBalance => exact whenUp (takeKey_queued sessionKeyBalance_queued)

theorem receiveError_queued : Queued f (f.onStation i (Station.onLink LinkUnit.receiveError)) := linkFields_queued

theorem receiveFrame_queued (t : RxFrame) : Queued f (receiveFrame i t e f) := by
  unfold receiveFrame
  split
  · refine Queued.trans (onLink_queued fun _ l h => ?_) (actOnFrame_queued _)
    exact (h.heard _).congr rfl rfl
  · exact receiveError_queued

theorem judgeFrame_queued (len : Nat) (bytes : List Byte) (check : Byte) : Queued f (judgeFrame i len bytes check e f) := by
  unfold judgeFrame
  split
  · split
    · exact receiveFrame_queued _
    · exact receiveError_queued
  · exact receiveError_queued

theorem byteDelivered_queued (b : Byte) : Queued f (byteDelivered i b e f) := by
  unfold byteDelivered
  dsimp only
  refine Queued.trans (linkFields_queued (i := i) (change := fun l => { l with lastByte := e.partTime })) ?_
  split
  · split
    · exact linkFields_queued
    · exact .refl _
  · split
    · exact linkFields_queued
    · exact receiveError_queued
  · exact linkFields_queued
  · exact judgeFrame_queued ..

theorem characterReceived_queued (data : Byte) : Queued f (characterReceived i data e f) := by
  unfold characterReceived
  dsimp only
  split
  · exact (linkFields_queued).trans ((linkFields_queued).trans (byteDelivered_queued _))
  · exact linkFields_queued

theorem characterFailed_queued (data : Byte) (parityBit stopBit : Bool) :
    Queued f (characterFailed i data parityBit stopBit e f) := by
  unfold characterFailed
  dsimp only
  split_ifs
  · exact (linkFields_queued).trans linkFields_queued
  · exact linkFields_queued
  · exact .refl f

theorem gapDue_queued : Queued f (gapDue i e f) := by
  unfold gapDue
  dsimp only
  split
  · exact receiveError_queued
  · exact .refl f

end Events

/-- Every event of the station units keeps the bounds of every queue. -/
theorem unitWork_queued {c : Instr} {work : Mode → Floor → Floor} (h : unitWork c = some work) (e : Mode) (f : Floor) :
    Queued f (work e f) := by
  cases c <;> cases h
  case feedEvent => exact feedTaken_queued ..
  case exitEvent => exact exitTaken_queued
  case faultChange => exact faultTaken_queued _
  case takenChange => exact inactiveTaken_queued _
  case transitCheck => exact transitDue_queued
  case quietNotice => exact quietDue_queued
  case lowTimerExpiry => exact lowDue_queued
  case linkLossGraceExpiry => exact graceDue_queued
  case authorizationTimerExpiry => exact authDue_queued
  case silenceTimerExpiry => exact silenceDue_queued
  case busyTimerExpiry => exact busyDue_queued
  case gapLimit => exact gapDue_queued
  case jamClears => exact jamDue_queued
  case recoveryTimeout => exact recoveryDue_queued
  case waitingReportWritten => exact moveQueue_queued _
  case frameSent => exact onLink_queued fun _ _ h => h.endFrame ..
  case nextFrameStart => exact onLink_queued fun _ _ h => h.startFrame ..
  case byteError => exact characterFailed_queued ..
  case invalidFrame => exact receiveError_queued
  case hello => exact receiveFrame_queued _
  case tick => exact receiveFrame_queued _
  case cardIn => exact receiveFrame_queued _
  case cardOut => exact receiveFrame_queued _
  case keyEnd => exact receiveFrame_queued _
  case keyBalance => exact receiveFrame_queued _
  case byteReceived => exact characterReceived_queued _
  case characterSent => exact onLink_queued fun _ _ h => h.endCharacter _
  case busyLevelChange => exact onLink_queued fun _ _ h => h.sampleBusy ..

end Sys2Proof.Machine
end

section
/-! PROOF. The bounds of the transmit queues under orders and the other commands: every command keeps them. -/

namespace Sys2Proof.Machine

open Sys2Proof
-- One proof after the other: proofs that wait for one another hold a thread each, and its memory.
set_option Elab.async false

section Orders

variable {e : Mode} {i : StationId} {slot : Nat} {f : Floor}

/-! ### Orders -/

theorem queued_passes (e : Mode) : Passes e Queued := ⟨.of_same, .trans, fun _ _ => reevaluate_queued _⟩

theorem firstGrant_queued (ok : Result) (g : Grant) : Queued f (firstGrant e i ok g f).floor := by
  unfold firstGrant
  dsimp only
  split_ifs
  · exact (refusal_queued ..).trans giveUpFunding_queued
  · exact (refusal_queued ..).trans giveUpFunding_queued
  · exact (refusal_queued ..).trans giveUpFunding_queued
  · exact openSession_queued _

theorem incrementGrant_queued (ok : Result) (g : Grant) : Queued f (incrementGrant e i ok g f).floor := by
  unfold incrementGrant
  dsimp only
  split
  · exact (queued_onStation).trans (offer_queued _)
  · exact (queued_onStation).trans fundingCheck_queued

theorem judgeAnswer_queued : Queued f (judgeAnswer e i slot f).floor := by
  unfold judgeAnswer
  dsimp only
  split
  · exact .refl f
  · split
    · exact .refl f
    · split
      · exact cancelAuth_queued.trans (firstGrant_queued ..)
      · exact cancelAuth_queued.trans (incrementGrant_queued ..)

theorem switchGuard_queued (p : Page) : Queued f (switchGuard e p i f) := by
  unfold switchGuard
  dsimp only
  split
  · exact (queued_onStation).trans fundingCheck_queued
  · exact queued_onStation

theorem priceSwitchOrder_queued : Queued f (priceSwitchOrder e slot f).floor := by
  unfold priceSwitchOrder
  dsimp only
  split
  · exact .refl f
  · dsimp only
    exact queued_forStations fun _ _ => switchGuard_queued _

theorem takeOut_queued : Queued f (takeOut e i f) := by
  unfold takeOut
  dsimp only
  split_ifs
  · exact enterOut_queued _
  · exact (refusal_queued ..).trans (cancelAuth_queued.trans ((queued_onStation).trans (enterOut_queued _)))
  · exact (queued_onStation).trans (endIfLive_queued _)

theorem judgeOut_queued : Queued f (judgeOut e i slot f).floor := by
  unfold judgeOut
  split
  · exact .refl f
  · exact takeOut_queued

theorem takeProfile_queued : Queued f (takeProfile e i f) := by
  unfold takeProfile
  exact (queued_onStation).trans (applySerial_queued _)

theorem takeIn_queued : Queued f (takeIn e i f) := by
  have entered := (queued_onStore (f := f) fun m => m.countClamps (m.profile i).clampCount).trans
    ((takeProfile_queued (e := e) (i := i)).trans ((queued_onStation (i := i) (change := Station.inServiceAgain)).trans
      (stationNotice_queued (e := e) (i := i) .entered .none)))
  unfold takeIn
  dsimp only
  split
  · exact entered.trans (jamCause_queued ..)
  · exact entered

theorem judgeIn_queued : Queued f (judgeIn e i slot f).floor := by
  unfold judgeIn
  split
  · exact takeIn_queued
  · exact .refl f

theorem stationInOrder_queued : Queued f (stationInOrder e slot f).floor := by
  unfold stationInOrder
  split
  · exact .refl f
  · exact stationOrder_rel (queued_passes e) fun _ => judgeIn_queued

theorem judgeAck_queued : Queued f (judgeAck e i slot f).floor := by
  unfold judgeAck
  split
  · dsimp only
    exact queued_onStation
  · exact .refl f

theorem judgeEnd_queued : Queued f (judgeEnd e i slot f).floor := by
  unfold judgeEnd
  dsimp only
  split
  · dsimp only
    exact endSession_queued _
  · exact (refusal_queued ..).trans giveUpFunding_queued
  all_goals exact .refl f

end Orders

/-- Every order keeps the bounds of every queue. -/
theorem orderWork_queued {c : Instr} {taken : Nat → Bool} {body : Mode → Nat → Floor → Executed}
    (h : orderWork c = some (taken, body)) (e : Mode) (slot : Nat) (f : Floor) : Queued f (body e slot f).floor := by
  cases c <;> cases h
  case accountOpen => exact accountOpenOrder_rel (queued_passes e) slot
  case accountCredit => exact accountCreditOrder_rel (queued_passes e) slot
  case accountDebit => exact accountDebitOrder_rel (queued_passes e) slot
  case accountLimit => exact accountLimitOrder_rel (queued_passes e) slot
  case accountFreeze => exact accountFreezeOrder_rel (queued_passes e) slot
  case accountThaw => exact accountThawOrder_rel (queued_passes e) slot
  case accountClose => exact accountCloseOrder_rel (queued_passes e) slot
  case periodClose => exact .of_same (periodCloseOrder_stations ..)
  case cardPut => exact .of_same (cardPutOrder_stations ..)
  case cardDrop => exact .of_same (cardDropOrder_stations ..)
  case authAnswer => exact stationOrder_rel (queued_passes e) fun _ => judgeAnswer_queued
  case priceSwitch => exact priceSwitchOrder_queued
  case stationOut => exact stationOrder_rel (queued_passes e) fun _ => judgeOut_queued
  case stationIn => exact stationInOrder_queued
  case jamAck => exact stationOrder_rel (queued_passes e) fun _ => judgeAck_queued
  case sessionEnd => exact stationOrder_rel (queued_passes e) fun _ => judgeEnd_queued
  case badKind => exact .refl f

/-! ### Start, stop, reset and the clock -/

section Commands

variable {e : Mode} {i : StationId} {f : Floor}

theorem raise_queued (k : IrqFlag) : Queued f (f.raise k) := .of_same rfl

/-- The end of a step leaves the link units alone. -/
theorem settle_queued (g : Floor) : Queued f (settle e g f) := ⟨fun j h => by
  rw [settle_station, settleRecord_link, driveEnable_link]
  exact h⟩

/-- A change of every station that keeps the bounds of its queue. -/
theorem map_queued {change : Station → Station} (h : ∀ x, QueueBound x.link → QueueBound (change x).link) :
    Queued f { f with stations := f.stations.map change } := ⟨fun j bound => by
  rw [station_map]
  exact h _ bound⟩

theorem atRunning_queued : Queued f (atRunning e i f) := by
  unfold atRunning
  dsimp only
  split_ifs
  · exact closeStray_queued _
  · exact jamCause_queued ..
  · exact .refl f

theorem stopStation_queued : Queued f (stopStation e i f) := by
  unfold stopStation
  dsimp only
  split_ifs
  · exact endSession_queued _
  · exact (refusal_queued ..).trans giveUpFunding_queued
  · exact closeStray_queued _
  · exact .refl f

theorem stationStopped_queued : Queued f (stationStopped i f) := answerNextCard_queued.trans queued_onStation

theorem passStart_queued (s : State) : Queued s.floor (passStart s).floor := by
  have profiles : ∀ f, Queued f (forStations
      (fun i f => if s.floor.store.profileEnabled i then takeProfile s.mode i f else f) f) := fun f => by
    refine queued_forStations fun i f => ?_
    split
    · exact takeProfile_queued
    · exact .refl f
  have services : ∀ f, Queued f (forStations
      (fun i f => if s.floor.store.profileEnabled i then f.onStation i Station.inServiceAgain else enterOut s.mode i .staff f) f) :=
    fun f => by
      refine queued_forStations fun i f => ?_
      split
      · exact queued_onStation
      · exact enterOut_queued _
  unfold passStart
  dsimp only
  exact (queued_onStore _).trans ((queued_onStore _).trans ((profiles _).trans ((services _).trans ((raise_queued _).trans
    ((queued_forStations fun _ _ => atRunning_queued).trans (settle_queued _))))))

theorem requestRun_queued (s : State) : Queued s.floor (requestRun s).floor := by
  unfold requestRun
  split
  · split
    · exact .of_same rfl
    · exact passStart_queued s
  · exact .refl _

theorem requestStop_queued (s : State) : Queued s.floor (requestStop s).floor := by
  unfold requestStop
  split
  · exact (raise_queued _).trans ((queued_forStations fun _ _ => stopStation_queued).trans (settle_queued _))
  · exact .refl _

theorem requestSoftReset_queued (s : State) : Queued s.floor (requestSoftReset s).floor := by
  have reset : Queued s.floor { s.floor with stations := s.floor.stations.map (Station.softReset s.mode.partTime) } :=
    map_queued fun x _ => .softReset x.link
  unfold requestSoftReset
  split
  · exact .refl _
  · refine reset.trans (Queued.trans ?_ (settle_queued _))
    split <;> exact .of_same rfl

/-- Every command keeps the bounds of every queue. -/
theorem stepOf_queued {c : Instr} {s t : State} (step : StepOf s c t) : Queued s.floor t.floor := by
  cases step with
  | unit work =>
    unfold State.unitStep
    split
    · exact .refl _
    · exact (unitWork_queued work _ _).trans (settle_queued _)
  | order work =>
    unfold takeOrder
    split
    · exact (orderWork_queued work _ _ _).trans ((queued_onStore _).trans ((raise_queued _).trans (settle_queued _)))
    · exact .refl _
  | kept _ stations => exact .of_same stations
  | record _ _ _ floor => exact floor ▸ queued_change fun x h => h.congr rfl rfl
  | powerOn power =>
    cases power
    exact (map_queued fun _ _ => .emptied rfl).trans (.of_same rfl)
  | clearingDone cleared =>
    unfold execClearingDone at cleared
    split at cleared <;> cases cleared
    · refine (Queued.of_same (by rfl)).trans ((queued_forStations fun i f => ?_).trans ((raise_queued _).trans (settle_queued _)))
      exact queued_change fun x h => h.congr rfl rfl
    · exact .refl _
  | softReset => exact requestSoftReset_queued s
  | run => exact requestRun_queued s
  | stop => exact requestStop_queued s
  | stoppedEntry stopped =>
    unfold execStoppedEntry at stopped
    split at stopped <;> cases stopped
    · exact (raise_queued _).trans ((queued_forStations fun _ _ => stationStopped_queued).trans (settle_queued _))
    · exact .refl _
  | clock ticked =>
    unfold execPartTimeTick at ticked
    dsimp only at ticked
    split at ticked <;> cases ticked
    · exact map_queued fun _ h => h
    · exact (queued_onStore _).trans ((map_queued fun x h => h.sampleBusy ..).trans (settle_queued _))

end Commands

/-- Settles O8: an offered frame keeps the bounds of its queue, a link that goes DOWN or is reset empties it, a frame that is sent
leaves it, and the rest of the work leaves the link units alone. -/
theorem everyStepKeepsTheQueueBounds : Obligations.EveryStepKeepsTheQueueBounds := by
  unfold Obligations.EveryStepKeepsTheQueueBounds
  intro c s t law h j
  exact (stepOf_queued (stepOf_exec h)).each j (law j)

end Sys2Proof.Machine
end

section
/-! PROOF. The transmitter as changes of one link unit (R41, R51, R52, R56, R57). -/

namespace Sys2Proof.Machine

open Sys2Proof
-- One proof after the other: proofs that wait for one another hold a thread each, and its memory.
set_option Elab.async false

/-! ### Events of the link unit alone -/

section LinkWork

variable {c : Instr} {i : StationId} {s : State} {change : Mode → Station → LinkUnit → LinkUnit}

/-- A step of the units whose work is one change of a link unit changes that station alone. -/
theorem changesTo_onLink (hc : exec c s = .next (s.unitStep fun e f => f.onStation i fun x => x.onLink (change e x)))
    (run : s.mode.run ≠ .clearing) (l4 : EnableLaw s) {l : LinkUnit}
    (h : change s.mode (s.floor.station i) (s.floor.station i).link = l) :
    ChangesTo c i s { s.floor.station i with link := l } := by
  refine changesTo_of hc run l4 (onStation_congr _ _ ?_)
  subst h
  rfl

/-- A step of the units whose work leaves its link unit as it is has no effect. -/
theorem noEffect_onLink (hc : exec c s = .next (s.unitStep fun e f => f.onStation i fun x => x.onLink (change e x)))
    (l4 : EnableLaw s) (h : change s.mode (s.floor.station i) (s.floor.station i).link = (s.floor.station i).link) :
    exec c s = .next s := by
  refine noEffect_of hc l4 (onStation_self _ _ ?_)
  rw [Station.onLink, h]

end LinkWork

theorem timerReached_iff (now : Time) (start : Option Time) (length : Nat) :
    timerReached now start length = true ↔ ∃ t, start = some t ∧ length ≤ elapsed now t := by
  cases start <;> simp [timerReached]

section Transmitter

variable {w : WorkingCopy} {now : Time} {l : LinkUnit} {t : Sending} {b : Byte}

/-! ### The start of a frame -/

theorem mayStart_iff (now : Time) (l : LinkUnit) :
    l.mayStart now = true ↔ l.queue ≠ [] ∧ l.up = true ∧ l.sending = none ∧ l.character = none ∧ l.busy = false ∧
      (l.gapStart = none ∨ ∃ start, l.gapStart = some start ∧ l.gapLength ≤ elapsed now start) := by
  simp only [LinkUnit.mayStart, Bool.and_eq_true, Bool.or_eq_true, Bool.not_eq_true', List.isEmpty_eq_false_iff,
    Option.isNone_iff_eq_none, timerReached_iff]
  tauto

/-- Every frame begins with the start byte (3.3). -/
theorem startFrame_starts {frame : TxFrame} {rest : List TxFrame} (may : l.mayStart now = true) (queue : l.queue = frame :: rest) :
    l.startFrame w now =
      { l with
        sending := some { bytes := frame.bytes, next := 0 }, gapStart := none, character := some (characterBits w 0xA5) } := by
  unfold LinkUnit.startFrame
  simp only [if_pos may, queue]
  rfl

/-! ### The end of a character and of a frame -/

theorem endCharacter_idle (character : l.character = none) : l.endCharacter w = l := by
  unfold LinkUnit.endCharacter
  simp only [character]

theorem endFrame_idle (character : l.character = none) : l.endFrame w now = l := by
  unfold LinkUnit.endFrame
  simp only [character]

/-- The character left of an abandoned frame ends without a gap (R52; log 42). -/
theorem endCharacter_abandoned (character : l.character.isSome = true) (sending : l.sending = none) :
    l.endCharacter w = { l with character := none } := by
  obtain ⟨bits, character⟩ := Option.isSome_iff_exists.mp character
  unfold LinkUnit.endCharacter
  simp only [character, sending]

/-- The character left of an abandoned frame that ends as a frame does begins a gap (log 42). -/
theorem endFrame_abandoned (character : l.character.isSome = true) (sending : l.sending = none) :
    l.endFrame w now = { l with character := none, gapStart := some now, gapLength := w.gap } := by
  obtain ⟨bits, character⟩ := Option.isSome_iff_exists.mp character
  unfold LinkUnit.endFrame
  simp only [character, sending]
  rfl

/-- Within a frame the next character follows, or the frame pauses for BUSY (R57). -/
theorem endCharacter_within (character : l.character.isSome = true) (sending : l.sending = some t)
    (next : t.bytes[t.next + 1]? = some b) :
    l.endCharacter w =
      { l with
        sending := some { t with next := t.next + 1 }, character := if l.busy then none else some (characterBits w b) } := by
  obtain ⟨bits, character⟩ := Option.isSome_iff_exists.mp character
  obtain ⟨within, -⟩ := List.getElem?_eq_some_iff.mp next
  unfold LinkUnit.endCharacter
  simp only [character, sending, if_pos within]
  cases busy : l.busy
  · simp [LinkUnit.startCharacter, next]
  · simp

theorem endFrame_within (character : l.character.isSome = true) (sending : l.sending = some t)
    (within : t.next + 1 < t.bytes.length) : l.endFrame w now = l := by
  obtain ⟨bits, character⟩ := Option.isSome_iff_exists.mp character
  unfold LinkUnit.endFrame
  simp only [character, sending, if_pos within]

/-- At the end of its check byte a frame leaves the queue, and the gap begins (R41, R56). -/
theorem endFrame_last (character : l.character.isSome = true) (sending : l.sending = some t)
    (last : t.bytes.length ≤ t.next + 1) :
    l.endFrame w now =
      { l with
        character := none, sending := none, queue := l.queue.drop 1, gapStart := some now, gapLength := w.gap } := by
  obtain ⟨bits, character⟩ := Option.isSome_iff_exists.mp character
  unfold LinkUnit.endFrame
  simp only [character, sending, if_neg last.not_gt]
  rfl

theorem endCharacter_last (character : l.character.isSome = true) (sending : l.sending = some t)
    (last : t.bytes.length ≤ t.next + 1) : l.endCharacter w = l := by
  obtain ⟨bits, character⟩ := Option.isSome_iff_exists.mp character
  unfold LinkUnit.endCharacter
  simp only [character, sending, if_neg last.not_gt]

/-! ### BUSY -/

theorem isActive_eq_true (w : WorkingCopy) (k : Nat) (high : Bool) : w.isActive k high = true ↔ high = w.activeHigh k :=
  beq_iff_eq

theorem sampleBusy_active {high : Bool} (active : high = w.activeHigh 7) :
    l.sampleBusy w now high =
      { l with
        busyHigh := high, busy := true
        busyStart := if l.up = true ∧ l.busyStart = none then some now else l.busyStart } := by
  unfold LinkUnit.sampleBusy
  rw [if_pos ((isActive_eq_true ..).mpr active)]
  simp only [Bool.and_eq_true, Option.isNone_iff_eq_none]

/-- BUSY found inactive while no frame is paused ends its timer alone (R51). -/
theorem sampleBusy_inactive {high : Bool} (inactive : high ≠ w.activeHigh 7)
    (running : l.sending = none ∨ l.character.isSome = true) :
    l.sampleBusy w now high = { l with busyHigh := high, busy := false, busyStart := none } := by
  unfold LinkUnit.sampleBusy
  rw [if_neg fun active => inactive ((isActive_eq_true ..).mp active)]
  refine if_neg fun paused => ?_
  rw [Bool.and_eq_true, Option.isNone_iff_eq_none] at paused
  rcases running with sending | character
  · simp [sending] at paused
  · simp [paused.2] at character

/-- BUSY found inactive resumes a paused frame with its next byte (R57). -/
theorem sampleBusy_resumes {high : Bool} (inactive : high ≠ w.activeHigh 7) (sending : l.sending = some t)
    (character : l.character = none) (next : t.bytes[t.next]? = some b) :
    l.sampleBusy w now high =
      { l with busyHigh := high, busy := false, busyStart := none, character := some (characterBits w b) } := by
  unfold LinkUnit.sampleBusy
  rw [if_neg fun active => inactive ((isActive_eq_true ..).mp active)]
  simp [sending, character, LinkUnit.startCharacter, next]

end Transmitter

/-- Settles O55: each event of the transmitter is one change of its link unit, by its case. -/
theorem transmitterSendsTheQueue : Obligations.TransmitterSendsTheQueue := by
  unfold Obligations.TransmitterSendsTheQueue
  intro i s l4 run x l now line ready
  refine ⟨fun t rest ready queue => ?_, fun idle => ?_, fun t b character sending next => ⟨?_, ?_⟩,
    fun t character sending last => ⟨?_, ?_⟩, fun character sending => ⟨?_, ?_⟩, fun character => ⟨?_, ?_⟩,
    fun high active => ?_, fun high inactive => ⟨fun running => ?_, fun t b sending character next => ?_⟩⟩
  · exact changesTo_onLink (change := fun e x => LinkUnit.startFrame x.copy e.partTime) rfl run l4
      (startFrame_starts ((mayStart_iff ..).mpr ⟨fun empty => List.cons_ne_nil _ _ (queue.symm.trans empty), ready⟩) queue)
  · refine noEffect_onLink (change := fun e x => LinkUnit.startFrame x.copy e.partTime) rfl l4 (if_neg fun may => ?_)
    obtain ⟨waits, isReady⟩ := (mayStart_iff ..).mp may
    exact idle.elim (· isReady) waits
  · exact changesTo_onLink (change := fun _ x => LinkUnit.endCharacter x.copy) rfl run l4
      (endCharacter_within character sending next)
  · obtain ⟨within, -⟩ := List.getElem?_eq_some_iff.mp next
    exact noEffect_onLink (change := fun e x => LinkUnit.endFrame x.copy e.partTime) rfl l4
      (endFrame_within character sending within)
  · exact changesTo_onLink (change := fun e x => LinkUnit.endFrame x.copy e.partTime) rfl run l4
      (endFrame_last character sending last)
  · exact noEffect_onLink (change := fun _ x => LinkUnit.endCharacter x.copy) rfl l4 (endCharacter_last character sending last)
  · exact changesTo_onLink (change := fun _ x => LinkUnit.endCharacter x.copy) rfl run l4
      (endCharacter_abandoned character sending)
  · exact changesTo_onLink (change := fun e x => LinkUnit.endFrame x.copy e.partTime) rfl run l4
      (endFrame_abandoned character sending)
  · exact noEffect_onLink (change := fun _ x => LinkUnit.endCharacter x.copy) rfl l4 (endCharacter_idle character)
  · exact noEffect_onLink (change := fun e x => LinkUnit.endFrame x.copy e.partTime) rfl l4 (endFrame_idle character)
  · exact changesTo_onLink (change := fun e x => LinkUnit.sampleBusy x.copy e.partTime high) rfl run l4
      (sampleBusy_active active)
  · exact changesTo_onLink (change := fun e x => LinkUnit.sampleBusy x.copy e.partTime high) rfl run l4
      (sampleBusy_inactive inactive running)
  · exact changesTo_onLink (change := fun e x => LinkUnit.sampleBusy x.copy e.partTime high) rfl run l4
      (sampleBusy_resumes inactive sending character next)

end Sys2Proof.Machine
end

section
/-! PROOF. The receiver (R42 to R44): the frame assembler as changes of one link unit, and the check byte of a frame, which acts as the
frame's own command does. -/

namespace Sys2Proof.Machine

open Sys2Proof
-- One proof after the other: proofs that wait for one another hold a thread each, and its memory.
set_option Elab.async false

/-! ### Byte errors -/

/-- The parity bit is the parity of the count of 1 bits (R40). -/
theorem foldl_xor_eq (p : Nat → Bool) (l : List Nat) (odd : Bool) :
    (l.map p).foldl xor odd = xor odd (decide (l.countP p % 2 = 1)) := by
  induction l generalizing odd with
  | nil => simp
  | cons k l ih =>
    rw [List.map_cons, List.foldl_cons, ih, List.countP_cons]
    cases p k
    · simp
    · rcases Nat.mod_two_eq_zero_or_one (l.countP p) with h | h <;> cases odd <;> simp [Nat.add_mod, h]

theorem oddOnes_eq (b : Byte) : oddOnes b = decide ((List.range 8).countP b.getLsbD % 2 = 1) := by
  rw [oddOnes, dataBits, foldl_xor_eq, Bool.false_xor]

/-- What a byte error is, in the count of 1 bits (R42). -/
theorem isByteError_iff (w : WorkingCopy) (b : Byte) (parityBit stopBit : Bool) :
    let ones := (List.range 8).countP b.getLsbD
    isByteError w b parityBit stopBit = true ↔
      ((w.parity = 0 ∧ parityBit = decide (ones % 2 = 0)) ∨ (w.parity = 1 ∧ parityBit = decide (ones % 2 = 1))) ∨
        stopBit = false := by
  intro ones
  have even : (decide (ones % 2 = 0)) = !oddOnes b := by
    rw [oddOnes_eq]
    rcases Nat.mod_two_eq_zero_or_one ones with h | h <;> simp [ones, h] at h ⊢
  rw [even, ← oddOnes_eq]
  simp only [isByteError, parityError, Bool.or_eq_true, Bool.and_eq_true, beq_iff_eq, bne_iff_ne, Bool.not_eq_true']
  cases parityBit <;> cases oddOnes b <;> simp

/-! ### A character that comes -/

theorem listens_iff (l : LinkUnit) : l.listens = true ↔ l.awaitsHigh = false ∨ l.rises.head? ≠ some false := by
  unfold LinkUnit.listens LinkUnit.rose
  cases l.rises with
  | nil => simp
  | cons rise rest => cases rise <;> simp

/-- A station past whose receiver a character has come and gone (log 31). -/
abbrev Station.past (x : Station) : Station := { x with link := { x.link with rises := x.link.rises.drop 1 } }

theorem onStation_pastCharacter (f : Floor) (i : StationId) :
    f.onStation i (Station.onLink LinkUnit.pastCharacter) = f.onStation i Station.past :=
  onStation_congr _ _ (by rw [Station.onLink, LinkUnit.pastCharacter, Station.past, List.drop_one])

/-- A station whose link unit has taken a character at a time (R42, R43). -/
abbrev Station.noted (now : Time) (x : Station) : Station :=
  { x with link := { x.link with lastByte := now, awaitsHigh := false, rises := x.link.rises.drop 1 } }

section Character

variable {e : Mode} {i : StationId} {b : Byte} {f : Floor}

theorem characterReceived_deaf (deaf : (f.station i).link.listens = false) :
    characterReceived i b e f = f.onStation i Station.past := by
  unfold characterReceived
  simp only [deaf, Bool.false_eq_true, if_false, onStation_pastCharacter]

theorem characterReceived_listening (listens : (f.station i).link.listens = true) :
    characterReceived i b e f = byteDelivered i b e (f.onStation i (Station.noted e.partTime)) := by
  unfold characterReceived byteDelivered
  simp only [listens, if_true, onStation_pastCharacter, onStation_onStation]
  rfl

/-- A character with a byte error is one receive error; after a framing error the receiver waits for the line (R42). -/
theorem characterFailed_listening {parityBit stopBit : Bool} (failed : isByteError (f.station i).copy b parityBit stopBit = true)
    (listens : (f.station i).link.listens = true) :
    characterFailed i b parityBit stopBit e f = f.onStation i fun x =>
      x.past.onLink fun l => { l.receiveError with awaitsHigh := !stopBit } := by
  unfold characterFailed
  simp only [failed, listens, if_true, onStation_pastCharacter, onStation_onStation]

theorem characterFailed_deaf {parityBit stopBit : Bool} (failed : isByteError (f.station i).copy b parityBit stopBit = true)
    (deaf : (f.station i).link.listens = false) :
    characterFailed i b parityBit stopBit e f = f.onStation i Station.past := by
  unfold characterFailed
  simp only [failed, deaf, if_true, Bool.false_eq_true, if_false, onStation_pastCharacter]

/-- A station whose link unit has taken a byte at a time and holds `a` in its assembler (R43). -/
abbrev Station.assembling (now : Time) (a : Assembler) (x : Station) : Station :=
  { x with link := { x.link with lastByte := now, assembler := a } }

theorem byteDelivered_hunt (state : (f.station i).link.assembler = .hunt) :
    byteDelivered i b e f = f.onStation i (Station.assembling e.partTime (if b = 0xA5 then .length else .hunt)) := by
  unfold byteDelivered
  simp only [station_onStation_self, onLink_link, state, onStation_onStation]
  split
  · rfl
  · exact onStation_congr _ _ (by simp only [Station.onLink, state])

theorem byteDelivered_length (state : (f.station i).link.assembler = .length) (possible : 1 ≤ b.toNat ∧ b.toNat ≤ 40) :
    byteDelivered i b e f = f.onStation i (Station.assembling e.partTime (.body b.toNat [])) := by
  unfold byteDelivered
  simp only [station_onStation_self, onLink_link, state, onStation_onStation, if_pos possible]
  rfl

theorem byteDelivered_badLength (state : (f.station i).link.assembler = .length) (impossible : ¬ (1 ≤ b.toNat ∧ b.toNat ≤ 40)) :
    byteDelivered i b e f = f.onStation i fun x => x.onLink fun l => { l with lastByte := e.partTime }.receiveError := by
  unfold byteDelivered
  simp only [station_onStation_self, onLink_link, state, onStation_onStation, if_neg impossible]
  rfl

theorem byteDelivered_body {len : Nat} {got : List Byte} (state : (f.station i).link.assembler = .body len got) :
    byteDelivered i b e f = f.onStation i (Station.assembling e.partTime
      (if got.length + 1 = len then .check len (got ++ [b]) else .body len (got ++ [b]))) := by
  unfold byteDelivered
  simp only [station_onStation_self, onLink_link, state, onStation_onStation, keepByte, List.length_append, List.length_singleton]
  rfl

theorem byteDelivered_check {len : Nat} {got : List Byte} (state : (f.station i).link.assembler = .check len got)
    (last : (f.station i).link.lastByte = e.partTime) : byteDelivered i b e f = judgeFrame i len got b e f := by
  have same : f.onStation i (Station.onLink fun l => { l with lastByte := e.partTime }) = f :=
    onStation_self _ _ (by simp only [Station.onLink, ← last])
  unfold byteDelivered
  simp only [same, state]

end Character

/-! ### Frames that fail their tests -/

theorem receiveFrame_invalid {i : StationId} {t : RxFrame} {e : Mode} {f : Floor} (invalid : t.fieldsValid = false) :
    receiveFrame i t e f = f.onStation i (Station.onLink LinkUnit.receiveError) := by
  unfold receiveFrame
  simp only [invalid, Bool.false_eq_true, if_false]

theorem helloFieldsValid_iff (level rows : Byte) :
    helloFieldsValid level rows = true ↔ level = 1 ∧ 1 ≤ rows.toNat ∧ rows.toNat ≤ 4 := by
  simp only [helloFieldsValid, Bool.and_eq_true, beq_iff_eq, decide_eq_true_eq, and_assoc]

theorem cardFieldsValid_iff (medium : Byte) (card : BitVec 64) :
    cardFieldsValid medium card = true ↔ (medium = 1 ∧ card ≠ 0) ∨ medium = 2 := by
  simp only [cardFieldsValid, Bool.or_eq_true, Bool.and_eq_true, beq_iff_eq, bne_iff_ne]

/-! ### The check byte -/

/-- What the end of a step makes of a station depends on the bytes of its record before the step. -/
theorem settle_congr {e : Mode} {f f' g : Floor} (h : ∀ j, (f'.station j).recordImage = (f.station j).recordImage) :
    settle e f' g = settle e f g := by
  refine floor_ext rfl (fun j => ?_) rfl rfl rfl rfl
  rw [settle_station, settle_station]
  unfold Station.settleRecord recordChanged
  rw [h j]

/-- A state whose station `i` has noted a character (R42, R43). -/
abbrev State.noted (i : StationId) (s : State) : State :=
  { s with floor := s.floor.onStation i (Station.noted s.mode.partTime) }

/-- The times and the waiting of the receiver are in no byte of the record (11.7). -/
theorem noted_recordImage (now : Time) (x : Station) : (x.noted now).recordImage = x.recordImage := rfl

/-- The check byte of a frame acts as the command whose work is to judge it. -/
theorem exec_checkByte {i : StationId} {s : State} {len : Nat} {got : List Byte} {b : Byte} {c : Instr}
    {work : Mode → Floor → Floor} (run : s.mode.run ≠ .clearing) (state : (s.floor.station i).link.assembler = .check len got)
    (listens : (s.floor.station i).link.listens = true) (hc : unitWork c = some work)
    (judged : ∀ f, judgeFrame i len got b s.mode f = work s.mode f) :
    exec (.byteReceived i b) s = exec c (s.noted i) := by
  have received : characterReceived i b s.mode s.floor = work s.mode (s.noted i).floor := by
    rw [characterReceived_listening listens, byteDelivered_check (len := len) (got := got), judged]
    · rw [station_onStation_self]
      exact state
    · rw [station_onStation_self]
  have before : settle s.mode (s.noted i).floor (work s.mode (s.noted i).floor) =
      settle s.mode s.floor (work s.mode (s.noted i).floor) := by
    refine settle_congr fun j => ?_
    by_cases same : j = i
    · subst same
      rw [station_onStation_self, noted_recordImage]
    · rw [station_onStation_other _ _ _ _ same]
  rw [exec_unitWork (c := .byteReceived i b) rfl, exec_unitWork hc, unitStep_act _ run, unitStep_act _ (s := s.noted i) run,
    State.act, State.act, received, before]

section Judge

variable {i : StationId} {len : Nat} {got : List Byte} {b : Byte} {e : Mode} {f : Floor}

theorem sumIsZero_iff (len : Nat) (got : List Byte) (b : Byte) :
    sumIsZero len got b = true ↔ (len + (got.map BitVec.toNat).sum + b.toNat) % 256 = 0 := beq_iff_eq

theorem judgeFrame_spelled {t : RxFrame} (good : sumIsZero len got b = true) (spells : RxFrame.ofBytes got = some t) :
    judgeFrame i len got b e f = receiveFrame i t e f := by
  unfold judgeFrame
  simp only [spells, good, if_true]

/-- A frame of a wrong sum, or that spells nothing, is one receive error (R44). -/
theorem judgeFrame_error (bad : sumIsZero len got b = false ∨ RxFrame.ofBytes got = none) :
    judgeFrame i len got b e f = f.onStation i (Station.onLink LinkUnit.receiveError) := by
  unfold judgeFrame
  cases spells : RxFrame.ofBytes got with
  | none => rfl
  | some t =>
    have wrong := bad.resolve_right (by simp [spells])
    simp only [wrong, Bool.false_eq_true, if_false]

end Judge

/-- A byte above `n` bits adds its multiple of 2 to the `n`. -/
theorem toNat_append_eq {m n : Nat} (high : BitVec m) (low : BitVec n) :
    (high ++ low).toNat = low.toNat + 2 ^ n * high.toNat := by
  rw [BitVec.toNat_append, ← Nat.shiftLeft_add_eq_or_of_lt low.isLt, Nat.shiftLeft_eq, Nat.mul_comm, Nat.add_comm]

/-- The 8 card bytes, least significant first, are the card's number (3.3). -/
theorem cardNumber_eq (b0 b1 b2 b3 b4 b5 b6 b7 : Byte) :
    BitVec.ofNat 64 (cardNumber [b0, b1, b2, b3, b4, b5, b6, b7]) = b7 ++ b6 ++ b5 ++ b4 ++ b3 ++ b2 ++ b1 ++ b0 := by
  have number : cardNumber [b0, b1, b2, b3, b4, b5, b6, b7] =
      (b7 ++ b6 ++ b5 ++ b4 ++ b3 ++ b2 ++ b1 ++ b0).toNat := by
    simp only [toNat_append_eq, cardNumber]
    omega
  rw [number]
  exact BitVec.ofNat_toNat _ _

/-- Settles O54: the received byte is a change of its link unit by the state of the assembler; the check byte's work is that of the
command that the bytes spell, or of an invalid frame. -/
theorem receiverAssemblesFrames : Obligations.ReceiverAssemblesFrames := by
  unfold Obligations.ReceiverAssemblesFrames
  constructor
  · intro i b s l4 run x now listens past received failed error byte
    have hears : listens → x.link.listens = true := (listens_iff x.link).mpr
    have deaf : ¬ listens → x.link.listens = false := fun h => by
      rw [← Bool.not_eq_true]
      exact fun hears => h ((listens_iff x.link).mp hears)
    have taken : ∀ {y}, listens →
        byteDelivered i b s.mode (s.floor.onStation i (Station.noted now)) = s.floor.onStation i (fun _ => y) → byte y := by
      intro y h delivered
      exact changesTo_of (change := characterReceived i b) rfl run l4 ((characterReceived_listening (hears h)).trans delivered)
    have notedState : ((s.floor.onStation i (Station.noted now)).station i).link.assembler = x.link.assembler := by
      rw [station_onStation_self]
    refine ⟨fun h => ?_, fun h state => ?_, fun h state least most => ?_, fun h state outside => ?_, fun len got h state => ?_,
      fun parityBit stopBit => ?_, fun state late => ?_,
      fun early => ?_, ?_, fun level abilities rows bad => ?_, fun medium card bad => ?_⟩
    · exact changesTo_of (change := characterReceived i b) rfl run l4
        ((characterReceived_deaf (deaf h)).trans (onStation_congr _ _ rfl))
    · exact taken h ((byteDelivered_hunt (notedState.trans state)).trans (onStation_onStation ..))
    · exact taken h ((byteDelivered_length (notedState.trans state) ⟨least, most⟩).trans (onStation_onStation ..))
    · exact taken h ((byteDelivered_badLength (notedState.trans state) (by omega)).trans (onStation_onStation ..))
    · exact taken h ((byteDelivered_body (notedState.trans state)).trans (onStation_onStation ..))
    · intro ones wrong
      refine ⟨fun isError => ⟨fun h => ?_, fun h => ?_⟩, fun right stop => ?_⟩
      · exact changesTo_of (change := characterFailed i b parityBit stopBit) rfl run l4
          ((characterFailed_listening ((isByteError_iff ..).mpr isError) (hears h)).trans (onStation_congr _ _ rfl))
      · exact changesTo_of (change := characterFailed i b parityBit stopBit) rfl run l4
          ((characterFailed_deaf ((isByteError_iff ..).mpr isError) (deaf h)).trans (onStation_congr _ _ rfl))
      · refine noEffect_of (change := characterFailed i b parityBit stopBit) rfl l4 (if_neg fun isError => ?_)
        exact ((isByteError_iff ..).mp isError).elim right fun low => by rw [stop] at low; cases low
    · exact changesTo_of (change := gapDue i) rfl run l4 ((if_pos ⟨state, late⟩).trans (onStation_congr _ _ rfl))
    · refine noEffect_of (change := gapDue i) rfl l4 (if_neg fun due => ?_)
      exact early.elim due.1 fun short => absurd due.2 (Nat.not_lt.mpr short)
    · exact changesTo_of (c := .invalidFrame i) rfl run l4 (onStation_congr _ _ rfl)
    · refine changesTo_of (change := receiveFrame i (.hello level abilities rows)) rfl run l4
        ((receiveFrame_invalid ?_).trans (onStation_congr _ _ rfl))
      rw [RxFrame.fieldsValid, ← Bool.not_eq_true, helloFieldsValid_iff]
      rintro ⟨one, least, most⟩
      rcases bad with h | h | h
      · exact h one
      · omega
      · omega
    · refine changesTo_of (change := receiveFrame i (.cardIn medium card)) rfl run l4
        ((receiveFrame_invalid ?_).trans (onStation_congr _ _ rfl))
      rw [RxFrame.fieldsValid, ← Bool.not_eq_true, cardFieldsValid_iff]
      rcases bad with ⟨shop, bank⟩ | ⟨rfl, rfl⟩
      · exact fun valid => valid.elim (fun h => shop h.1) bank
      · simp
  · intro i len got b s run l state listens noted good byte
    have hears : l.listens = true := (listens_iff l).mpr listens
    have spelled : ∀ {c : Instr} {t : RxFrame}, unitWork c = some (receiveFrame i t) → good → RxFrame.ofBytes got = some t →
        byte = exec c noted := fun work sum spells =>
      exec_checkByte run state hears work fun _ => judgeFrame_spelled ((sumIsZero_iff ..).mpr sum) spells
    have wrong : ¬ good ∨ RxFrame.ofBytes got = none → byte = exec (.invalidFrame i) noted := fun bad =>
      exec_checkByte run state hears rfl fun _ => judgeFrame_error
        (bad.imp_left fun sum => by rw [← Bool.not_eq_true, sumIsZero_iff]; exact sum)
    refine ⟨fun level abilities rows sum h => ?_, fun flags sum h => ?_, fun medium b0 b1 b2 b3 b4 b5 b6 b7 sum h => ?_,
      fun sum h => ?_, fun sum h => ?_, fun sum h => ?_, fun kind payload sum h unknown => ?_, fun key sum h notEnd notBalance => ?_,
      fun sum => ?_⟩
    · exact spelled rfl sum (by rw [h]; rfl)
    · exact spelled rfl sum (by rw [h]; rfl)
    · exact spelled rfl sum (by rw [h, ← cardNumber_eq]; rfl)
    · exact spelled rfl sum (by rw [h]; rfl)
    · exact spelled rfl sum (by rw [h]; rfl)
    · exact spelled rfl sum (by rw [h]; rfl)
    · exact wrong (.inr (h ▸ ofBytes_none unknown))
    · exact wrong (.inr (h ▸ ofBytes_key_none notEnd notBalance))
    · exact wrong (.inl sum)

end Sys2Proof.Machine
end

section
/-! PROOF. The link going DOWN and coming UP (R45, R49 to R52), with the STATION notice handed on (R180). -/

namespace Sys2Proof.Machine

open Sys2Proof
-- One proof after the other: proofs that wait for one another hold a thread each, and its memory.
set_option Elab.async false

/-! ### A STATION notice -/

/-- The code of an event and the code of an out cause are bytes (11.9). -/
theorem noticeEvent_code_lt (event : NoticeEvent) : event.code < 256 := by cases event <;> decide

theorem outCause_code_lt (cause : OutCause) : cause.code < 256 := by cases cause <;> decide

theorem bit_lt (b : Bool) : bit b < 256 := by cases b <;> decide

/-- The fields of a STATION notice in its report of 16 bytes (11.2). -/
theorem noticeFields (e : Mode) (station event cause dropped : Nat) (session : BitVec 32)
    (small : event < 256 ∧ cause < 256 ∧ dropped < 256) :
    let report := layoutNumber (reportHeader e 16 ReportKind.station.code station ++
      [(1, event), (1, cause), (1, dropped), (1, 0), (4, session.toNat)])
    imageField report 8 1 = event ∧ imageField report 9 1 = cause ∧ imageField report 10 1 = dropped ∧
      imageField report 12 4 = session.toNat := by
  obtain ⟨smallEvent, smallCause, smallDropped⟩ := small
  simp only [reportHeader, List.cons_append, List.nil_append, imageField_layout_tail, imageField_layout_head, Nat.reduceLeDiff,
    Nat.reduceSub, Nat.le_refl]
  exact ⟨Nat.mod_eq_of_lt smallEvent, Nat.mod_eq_of_lt smallCause, Nat.mod_eq_of_lt smallDropped,
    Nat.mod_eq_of_lt session.isLt⟩

/-- The notice of a station carries its fields, and else the store stays as it is (R176, R180). -/
theorem stationNotice_handled {e : Mode} (i : StationId) (event : NoticeEvent) (cause : OutCause) {f : Floor}
    (good : goodOffset f.rptWr) {session : BitVec 32} (number : (f.station i).reportedNumber = session) :
    NoticeHandled e (i.val + 1) event cause session f (stationNotice e i event cause f) := by
  have room_iff : noticeRoom e f ↔ e.runs = true ∧
      (f.waitQueue.isEmpty && decide (roomNeeded f.rptWr 16 + Config.noticeRoom ≤ freeRoom f.rptWr e.rptRd)) = true := by
    rw [Bool.and_eq_true, List.isEmpty_iff, decide_eq_true_iff]
    exact Iff.rfl
  by_cases room : noticeRoom e f
  · obtain ⟨runs, fits16⟩ := room_iff.mp room
    have noticed : stationNotice e i event cause f = { writeReport e .station (stationNumber i) [(1, event.code), (1, cause.code),
        (1, bit f.dropped), (1, 0), (4, session.toNat)] f with dropped := false } := by
      rw [← number]
      unfold stationNotice
      rw [if_pos runs, if_pos fits16]
    generalize body : [(1, event.code), (1, cause.code), (1, bit f.dropped), (1, 0), (4, session.toNat)] = fields at noticed
    have size : 8 + layoutSize fields = 16 := by rw [← body]; rfl
    have fit : fits e f (8 + layoutSize fields) = true := by
      rw [size]
      exact decide_eq_true (by have := room.2.2; omega)
    have header := writeReport_header (kind := .station) (station := stationNumber i) fit good
      (by have := i.isLt; simp only [stationNumber]; omega)
    have field := fun o n => readLE_writeReport (kind := .station) (station := stationNumber i) (o := o) (n := n) fit good
    have outside : ∀ a, ¬ inReport f.rptWr 16 a →
        (writeReport e .station (stationNumber i) fields f).store.read a = f.store.read a := fun a h =>
      read_writeReport_outside (by rw [size]; exact h)
    rw [size] at header field
    obtain ⟨eventByte, causeByte, droppedByte, sessionWord⟩ :=
      noticeFields e (stationNumber i) event.code cause.code (bit f.dropped) session ⟨noticeEvent_code_lt event, outCause_code_lt cause, bit_lt f.dropped⟩
    rw [body] at eventByte causeByte droppedByte sessionWord
    have byte : ∀ o v, o < 16 →
        imageField (layoutNumber (reportHeader e 16 ReportKind.station.code (stationNumber i) ++ fields)) o 1 = v →
        ((writeReport e .station (stationNumber i) fields f).store.read (reportPlace f.rptWr 16 + o)).toNat = v := fun o v ho h => by
      have small : v < 256 := h ▸ Nat.mod_lt _ (by decide)
      rw [Memory.read_eq_readLE, field o 1 (by omega), h]
      exact Nat.mod_eq_of_lt small
    rw [NoticeHandled, NoticeHandedOn, if_pos room, if_pos room, noticed]
    refine ⟨⟨rfl, header, byte 8 _ (by omega) eventByte, byte 9 _ (by omega) causeByte, byte 10 _ (by omega) droppedByte,
      (field 12 4 (by omega)).trans sessionWord, rfl, ?_, rfl⟩, outside⟩
    rw [writeReport_rptWr, size]
  · rw [NoticeHandled, NoticeHandedOn, if_neg room, if_neg room]
    unfold stationNotice
    by_cases runs : e.runs = true
    · rw [if_pos runs, if_neg fun fits16 => room (room_iff.mpr ⟨runs, fits16⟩)]
      exact ⟨⟨rfl, by simp [runs], rfl, rfl⟩, rfl⟩
    · rw [if_neg runs]
      exact ⟨⟨rfl, by simp [runs], rfl, rfl⟩, rfl⟩

/-! ### Steps that hand on a notice of the link -/

/-- What a step of the units leaves that makes station `i` `y` and hands on a notice of it (R180). -/
theorem noticed_of {c : Instr} {i : StationId} {s : State} {y : Station} {event : NoticeEvent} {change : Mode → Floor → Floor}
    (hc : exec c s = .next (s.unitStep change)) (run : s.mode.run ≠ .clearing) (l4 : EnableLaw s) (offset : OffsetLaw s)
    (h : change s.mode s.floor = stationNotice s.mode i event .none (s.floor.onStation i fun _ => y))
    {session : BitVec 32} (number : y.reportedNumber = session) :
    ∃ t, exec c s = .next t ∧ KeepsOutside s t ∧ KeepsOthers i s.floor t.floor ∧
      NoticeHandled s.mode (i.val + 1) event .none session s.floor t.floor ∧
      t.floor.station i = finished s.mode (s.floor.station i) y := by
  refine ⟨s.act change, by rw [hc, unitStep_act change run], ⟨rfl, rfl, rfl⟩, fun j other => ?_, ?_, ?_⟩
  · refine settle_same ?_ (l4 j)
    rw [h, station_stationNotice, station_onStation_other _ _ _ _ other]
  · have handled := stationNotice_handled (e := s.mode) i event .none (f := s.floor.onStation i fun _ => y)
      (session := session) ⟨offset.1, offset.2.1⟩ (by rw [station_onStation_self]; exact number)
    rw [← h] at handled
    exact handled
  · rw [act_floor, settle_station, h, station_stationNotice, station_onStation_self]
    rfl

theorem reportedNumber_eq (x : Station) :
    x.reportedNumber = if x.context.condition = .live ∨ x.context.condition = .ending then x.context.number else 0 :=
  if_congr (hasLive_iff x.context) rfl rfl

/-- The station whose link goes DOWN (R52, R75, R92). -/
theorem goDown_linkLost_eq (now : Time) (x : Station) :
    ({ x with link := x.link.goDown } : Station).linkLost now =
      { x with
        nextCard := none
        graceStart := if (x.context.condition = .live ∨ x.context.condition = .funding) ∧ x.graceStart = none then some now
          else x.graceStart
        link := { x.link with
          up := false, losses := min (x.link.losses + 1) 255, agreed := .none, queue := [], sending := none, busyStart := none } } := by
  unfold Station.linkLost
  simp only [Bool.and_eq_true, Bool.or_eq_true, beq_iff_eq, Option.isNone_iff_eq_none]
  rfl

theorem linkDown_eq (e : Mode) (i : StationId) (f : Floor) :
    linkDown e i f = stationNotice e i .linkDown .none
      (f.onStation i fun _ => ({ f.station i with link := (f.station i).link.goDown } : Station).linkLost e.partTime) :=
  congrArg (stationNotice e i .linkDown .none) (onStation_congr _ _ rfl)

/-! ### Frames heard -/

/-- A valid frame is acted on at a station that has heard it (R43, R50). -/
theorem receiveFrame_valid {i : StationId} {t : RxFrame} {e : Mode} {f : Floor} (valid : t.fieldsValid = true) :
    receiveFrame i t e f = actOnFrame e i t (f.onStation i (Station.heardFrame e.partTime)) := by
  have heard : ∀ x : Station, x.onLink (fun l => { l.heard e.partTime with assembler := .hunt }) = x.heardFrame e.partTime := by
    intro x
    cases up : x.link.up <;>
      simp only [Station.onLink, LinkUnit.heard, Station.heardFrame, up, if_true, Bool.false_eq_true, if_false]
  unfold receiveFrame
  rw [if_pos valid, onStation_congr f i (heard _)]

/-- An offered frame changes the queue alone (R54, R55). -/
theorem offer_fields (l : LinkUnit) (t : TxFrame) : l.offer t = { l with queue := (l.offer t).queue } := by
  unfold LinkUnit.offer
  split_ifs <;> rfl

theorem enterUp_offer (l : LinkUnit) (t : TxFrame) (now : Time) :
    (l.offer t).enterUp now = { l.offer t with up := true, silenceStart := now, busyStart := if l.busy then some now else none } := by
  have busy : (l.offer t).busy = l.busy := by rw [offer_fields]
  exact congrArg (fun b : Bool =>
    { l.offer t with up := true, silenceStart := now, busyStart := if b then some now else none }) busy

/-- A HELLO in DOWN brings the link UP (R45, R50, R51). -/
theorem hello_down {i : StationId} {abilities rows : Byte} {e : Mode} {f : Floor} (down : (f.station i).link.up = false)
    (valid : 1 ≤ rows.toNat ∧ rows.toNat ≤ 4) :
    let x := f.station i
    let offered := offeredAbility abilities rows
    let agreed := agreedWith x.copy offered
    receiveFrame i (.hello 1 abilities rows) e f = stationNotice e i .linkUp .none (f.onStation i fun _ =>
      { x with link := { ({ x.link with assembler := .hunt, offered := offered, agreed := agreed } : LinkUnit).offer (.welcome agreed) with
          up := true, silenceStart := e.partTime, busyStart := if x.link.busy then some e.partTime else none } }) := by
  intro x offered agreed
  have heard : x.heardFrame e.partTime = { x with link := { x.link with assembler := .hunt } } := by
    simp only [Station.heardFrame, x, down, Bool.false_eq_true, if_false]
  rw [receiveFrame_valid (t := .hello 1 abilities rows) ((helloFieldsValid_iff ..).mpr ⟨rfl, valid⟩), actOnFrame, takeHello]
  simp only [station_onStation_self, onStation_onStation]
  rw [if_neg (by simp [Station.heardFrame, down])]
  refine congrArg (stationNotice e i .linkUp .none) (onStation_congr _ _ ?_)
  rw [heard]
  exact congrArg (fun l => { x with link := l }) (enterUp_offer ..)

/-- A HELLO in UP renegotiates (R45). -/
theorem hello_up {i : StationId} {abilities rows : Byte} {e : Mode} {f : Floor} (up : (f.station i).link.up = true)
    (valid : 1 ≤ rows.toNat ∧ rows.toNat ≤ 4) :
    let x := f.station i
    let offered := offeredAbility abilities rows
    let agreed := agreedWith x.copy offered
    receiveFrame i (.hello 1 abilities rows) e f = f.onStation i fun _ =>
      { x with link := ({ x.link with
          assembler := .hunt, offered := offered, agreed := agreed, silenceStart := e.partTime
          queue := x.link.headSent ++ x.link.waiting.filter fun t => !t.aboveRows rows.toNat } : LinkUnit).offer (.welcome agreed) } := by
  intro x offered agreed
  have heard : x.heardFrame e.partTime = { x with link := { x.link with assembler := .hunt, silenceStart := e.partTime } } := by
    simp only [Station.heardFrame, x, up, if_true]
  rw [receiveFrame_valid (t := .hello 1 abilities rows) ((helloFieldsValid_iff ..).mpr ⟨rfl, valid⟩), actOnFrame, takeHello]
  simp only [station_onStation_self, onStation_onStation]
  rw [if_pos (by simp [Station.heardFrame, up])]
  refine onStation_congr _ _ ?_
  rw [heard]
  rfl

/-- Settles O53: a link that goes DOWN or comes UP is a change of its station with a notice handed on, a renegotiation a change alone,
and a timer that has not run out no change. -/
theorem linkGoesDownAndUp : Obligations.LinkGoesDownAndUp := by
  unfold Obligations.LinkGoesDownAndUp
  intro i s l4 offset run x now session noticed down silent stuck
  have silent_iff : (x.link.up && timerReached now (some x.link.silenceStart) Config.silenceLimit) = true ↔ silent := by
    rw [Bool.and_eq_true, timerReached_iff]
    exact and_congr_right fun _ => ⟨fun ⟨_, start, late⟩ => Option.some.inj start ▸ late, fun late => ⟨_, rfl, late⟩⟩
  have stuck_iff : (x.link.up && x.link.busy && timerReached now x.link.busyStart (Config.busyLimit + 1)) = true ↔ stuck := by
    simp only [stuck, Bool.and_eq_true, timerReached_iff, Config.busyLimit, and_assoc]
    rfl
  have goesDown : linkDown s.mode i s.floor = stationNotice s.mode i .linkDown .none (s.floor.onStation i fun _ => down) :=
    (linkDown_eq ..).trans (by rw [goDown_linkLost_eq])
  refine ⟨fun due => ?_, fun early => ?_, fun due => ?_, fun early => ?_, fun abilities rows least most => ?_⟩
  · exact noticed_of (change := silenceDue i) rfl run l4 offset ((if_pos (silent_iff.mpr due)).trans goesDown) (reportedNumber_eq _)
  · exact noEffect_of (change := silenceDue i) rfl l4 (if_neg fun due => early (silent_iff.mp due))
  · exact noticed_of (change := busyDue i) rfl run l4 offset ((if_pos (stuck_iff.mpr due)).trans goesDown) (reportedNumber_eq _)
  · exact noEffect_of (change := busyDue i) rfl l4 (if_neg fun due => early (stuck_iff.mp due))
  · intro offered agreed told
    refine ⟨fun isDown => ?_, ?_⟩
    · exact noticed_of (change := receiveFrame i (.hello 1 abilities rows)) rfl run l4 offset
        (hello_down isDown ⟨least, most⟩) (reportedNumber_eq _)
    · intro trimmed isUp
      exact changesTo_of (change := receiveFrame i (.hello 1 abilities rows)) rfl run l4 (hello_up isUp ⟨least, most⟩)

end Sys2Proof.Machine
end

section
/-! PROOF. Frames of the terminal handed to the session controller: what TICK, CARD OUT, CARD IN and the keys make of a station
(R46 to R49, R86, R87, R89, R93, R98), and the events that end a LIVE session (R88). -/

namespace Sys2Proof.Machine

open Sys2Proof
-- One proof after the other: proofs that wait for one another hold a thread each, and its memory.
set_option Elab.async false

section Frames

variable {e : Mode} {i : StationId} {f : Floor} {y : Station}

/-! ### Frames heard in UP and in DOWN -/

/-- A valid frame is acted on where its station has become the one that heard it (R43, R50). -/
theorem receiveFrame_heard {t : RxFrame} (valid : t.fieldsValid = true) :
    receiveFrame i t e f = actOnFrame e i t (f.onStation i fun _ => (f.station i).heardFrame e.partTime) :=
  (receiveFrame_valid valid).trans (congrArg (actOnFrame e i t) (onStation_congr _ _ rfl))

/-- A frame other than HELLO is discarded in DOWN (R49). -/
theorem actOnFrame_down {t : RxFrame} (down : y.link.up = false) (other : ∀ level abilities rows, t ≠ .hello level abilities rows) :
    actOnFrame e i t (f.onStation i fun _ => y) = f.onStation i fun _ => y := by
  cases t with
  | hello level abilities rows => exact absurd rfl (other level abilities rows)
  | _ => simp only [actOnFrame, station_onStation_self, down, Bool.false_eq_true, if_false]

/-- A frame other than HELLO leaves the station at having heard it in DOWN (R49). -/
theorem receiveFrame_down {t : RxFrame} (valid : t.fieldsValid = true)
    (other : ∀ level abilities rows, t ≠ .hello level abilities rows) (down : (f.station i).link.up = false) :
    receiveFrame i t e f = f.onStation i fun _ => (f.station i).heardFrame e.partTime :=
  (receiveFrame_heard valid).trans (actOnFrame_down down other)

/-! ### The end of a session, or no session to end -/

/-- The states in which CARD OUT and KEY END reach a session (R86, R89). -/
def StationState.Active (state : StationState) : Prop := state = .opened ∨ state = .low ∨ state = .recovery ∨ state = .jammed

/-- The stations at which CARD OUT and KEY END find no session to end and no funding wait. -/
def Station.Waiting (y : Station) : Prop :=
  y.state = .idle ∨ y.state = .draining ∨ y.state = .settling ∨ y.state = .out ∨
    (y.state = .jammed ∧ y.context.condition ≠ .live)

theorem active_iff (state : StationState) : (state.checksFunds || state == .jammed) = true ↔ state.Active := by
  simp only [StationState.checksFunds, StationState.Active, Bool.or_eq_true, beq_iff_eq, or_assoc]

theorem StationState.Active.ne_funding {state : StationState} (active : state.Active) : state ≠ .funding := by
  rcases active with h | h | h | h <;> rw [h] <;> decide

theorem Station.Waiting.ne_funding (waiting : y.Waiting) : y.state ≠ .funding := by
  rcases waiting with h | h | h | h | ⟨h, -⟩ <;> rw [h] <;> decide

/-- An active session ends where its context is LIVE (R88). -/
theorem endIfActive_live {cause : EndCause} (active : y.state.Active) (live : y.context.condition = .live) :
    (if (y.state.checksFunds || y.state == .jammed) = true then endIfLive e i cause (f.onStation i fun _ => y)
      else f.onStation i fun _ => y) = f.onStation i fun _ => y.ended e.partTime cause := by
  rw [if_pos ((active_iff _).mpr active), endIfLive_eq (by rw [station_onStation_self]; exact live), onStation_onStation]

theorem endIfActive_waiting {cause : EndCause} (waiting : y.Waiting) :
    (if (y.state.checksFunds || y.state == .jammed) = true then endIfLive e i cause (f.onStation i fun _ => y)
      else f.onStation i fun _ => y) = f.onStation i fun _ => y := by
  by_cases active : (y.state.checksFunds || y.state == .jammed) = true
  · have notLive : y.context.condition ≠ .live := by
      rcases waiting with h | h | h | h | ⟨-, h⟩
      · simp [h, StationState.checksFunds] at active
      · simp [h, StationState.checksFunds] at active
      · simp [h, StationState.checksFunds] at active
      · simp [h, StationState.checksFunds] at active
      · exact h
    rw [if_pos active, endIfLive, if_neg (by rw [station_onStation_self]; exact notLive)]
  · rw [if_neg active]

/-! ### CARD OUT and TICK -/

theorem sessionCardOut_live (active : y.state.Active) (live : y.context.condition = .live) :
    sessionCardOut e i (f.onStation i fun _ => y) =
      f.onStation i fun _ => Station.ended e.partTime .cardOut { y with nextCard := none } := by
  unfold sessionCardOut
  dsimp only
  rw [onStation_onStation, station_onStation_self, if_neg active.ne_funding]
  exact endIfActive_live (y := { y with nextCard := none }) active live

theorem sessionCardOut_funding (run : e.run ≠ .stopping) (funding : y.state = .funding) :
    sessionCardOut e i (f.onStation i fun _ => y) = f.onStation i fun _ => Station.givenUp { y with nextCard := none } := by
  unfold sessionCardOut
  dsimp only
  rw [onStation_onStation, station_onStation_self, if_pos funding, giveUpFunding_eq run (by rw [station_onStation_self]),
    onStation_onStation]

theorem sessionCardOut_waiting (waiting : y.Waiting) :
    sessionCardOut e i (f.onStation i fun _ => y) = f.onStation i fun _ => { y with nextCard := none } := by
  unfold sessionCardOut
  dsimp only
  rw [onStation_onStation, station_onStation_self, if_neg waiting.ne_funding]
  exact endIfActive_waiting (y := { y with nextCard := none }) waiting

/-- A station whose card has left, and one whose TICK has said whether a card is present (R46, R48). -/
def Station.letGo (y : Station) : Station := { y with link := { y.link with held := none } }

def Station.ticked (present : Bool) (y : Station) : Station := { y with link := { y.link with cardPresent := present } }

theorem cardLeaves_held (held : y.link.held.isSome = true) :
    cardLeaves e i (f.onStation i fun _ => y) =
      sessionCardOut e i (f.onStation i fun _ => y.letGo) := by
  unfold cardLeaves
  rw [station_onStation_self, if_pos held, onStation_onStation]
  rfl

theorem cardLeaves_none (held : y.link.held = none) :
    cardLeaves e i (f.onStation i fun _ => y) = f.onStation i fun _ => y := by
  unfold cardLeaves
  rw [station_onStation_self, if_neg (by simp [held])]

theorem takeTick_gone {flags : Byte} (gone : flags.getLsbD 0 = false) :
    takeTick e i flags (f.onStation i fun _ => y) =
      cardLeaves e i (f.onStation i fun _ => y.ticked false) := by
  unfold takeTick
  rw [gone, onStation_onStation]
  rfl

theorem takeTick_present {flags : Byte} (present : flags.getLsbD 0 = true) :
    takeTick e i flags (f.onStation i fun _ => y) = f.onStation i fun _ => y.ticked true := by
  unfold takeTick
  rw [present, onStation_onStation]
  rfl

/-- CARD OUT and TICK heard in UP (R46, R48). -/
theorem receive_cardOut (up : (f.station i).link.up = true) :
    receiveFrame i .cardOut e f = cardLeaves e i (f.onStation i fun _ => (f.station i).heardFrame e.partTime) := by
  rw [receiveFrame_heard rfl, actOnFrame]
  exact if_pos (by rw [station_onStation_self]; exact up)

theorem receive_tick {flags : Byte} (up : (f.station i).link.up = true) :
    receiveFrame i (.tick flags) e f = takeTick e i flags (f.onStation i fun _ => (f.station i).heardFrame e.partTime) := by
  rw [receiveFrame_heard rfl, actOnFrame]
  exact if_pos (by rw [station_onStation_self]; exact up)

/-! ### Keys -/

/-- A key heard in UP where the keypad is agreed (R48). -/
theorem receive_keyEnd (up : (f.station i).link.up = true) (keypad : (f.station i).link.agreed.keypad = true) :
    receiveFrame i .keyEnd e f = sessionKeyEnd e i (f.onStation i fun _ => (f.station i).heardFrame e.partTime) := by
  rw [receiveFrame_heard rfl, actOnFrame, if_pos (by rw [station_onStation_self]; exact up), takeKey,
    if_pos (by rw [station_onStation_self]; exact keypad)]

theorem receive_keyBalance (up : (f.station i).link.up = true) (keypad : (f.station i).link.agreed.keypad = true) :
    receiveFrame i .keyBalance e f = sessionKeyBalance e i (f.onStation i fun _ => (f.station i).heardFrame e.partTime) := by
  rw [receiveFrame_heard rfl, actOnFrame, if_pos (by rw [station_onStation_self]; exact up), takeKey,
    if_pos (by rw [station_onStation_self]; exact keypad)]

/-- A key is discarded in DOWN and without an agreed keypad (R48, R49). -/
theorem takeKey_discarded {key : Floor → Floor} (keypad : y.link.agreed.keypad = false) :
    takeKey i key (f.onStation i fun _ => y) = f.onStation i fun _ => y := by
  unfold takeKey
  rw [station_onStation_self]
  exact if_neg (by simp [keypad])

/-- A key changes the link unit alone when the session controller, where it gets the key at all, changes nothing. -/
theorem receive_keyEnd_same
    (same : (f.station i).link.up = true → (f.station i).link.agreed.keypad = true →
      sessionKeyEnd e i (f.onStation i fun _ => (f.station i).heardFrame e.partTime) =
        f.onStation i fun _ => (f.station i).heardFrame e.partTime) :
    receiveFrame i .keyEnd e f = f.onStation i fun _ => (f.station i).heardFrame e.partTime := by
  cases up : (f.station i).link.up with
  | false => exact receiveFrame_down rfl (by simp) up
  | true =>
    cases keypad : (f.station i).link.agreed.keypad with
    | true => exact (receive_keyEnd up keypad).trans (same up keypad)
    | false =>
      rw [receiveFrame_heard rfl, actOnFrame, if_pos (by rw [station_onStation_self]; exact up)]
      exact takeKey_discarded keypad

theorem receive_keyBalance_same
    (same : (f.station i).link.up = true → (f.station i).link.agreed.keypad = true →
      sessionKeyBalance e i (f.onStation i fun _ => (f.station i).heardFrame e.partTime) =
        f.onStation i fun _ => (f.station i).heardFrame e.partTime) :
    receiveFrame i .keyBalance e f = f.onStation i fun _ => (f.station i).heardFrame e.partTime := by
  cases up : (f.station i).link.up with
  | false => exact receiveFrame_down rfl (by simp) up
  | true =>
    cases keypad : (f.station i).link.agreed.keypad with
    | true => exact (receive_keyBalance up keypad).trans (same up keypad)
    | false =>
      rw [receiveFrame_heard rfl, actOnFrame, if_pos (by rw [station_onStation_self]; exact up)]
      exact takeKey_discarded keypad

theorem sessionKeyEnd_outOfService (out : inService e y = false) :
    sessionKeyEnd e i (f.onStation i fun _ => y) = f.onStation i fun _ => y := by
  unfold sessionKeyEnd
  rw [station_onStation_self]
  exact if_pos (by rw [out]; rfl)

theorem sessionKeyEnd_live (service : inService e y = true) (active : y.state.Active) (live : y.context.condition = .live) :
    sessionKeyEnd e i (f.onStation i fun _ => y) = f.onStation i fun _ => y.ended e.partTime .userEnd := by
  unfold sessionKeyEnd
  dsimp only
  rw [station_onStation_self, if_neg (by simp [service]), if_neg active.ne_funding]
  exact endIfActive_live active live

theorem sessionKeyEnd_funding (service : inService e y = true) (run : e.run ≠ .stopping) (funding : y.state = .funding)
    (card : y.nextCard = none) :
    sessionKeyEnd e i (f.onStation i fun _ => y) =
      f.onStation i fun _ => Station.givenUp { y with link := y.link.offer .eject } := by
  unfold sessionKeyEnd
  dsimp only
  rw [station_onStation_self, if_neg (by simp [service]), if_pos funding, offer_eq, onStation_onStation,
    giveUpFunding_eq run (by rw [station_onStation_self]; exact card), onStation_onStation]

theorem sessionKeyEnd_waiting (waiting : y.Waiting) :
    sessionKeyEnd e i (f.onStation i fun _ => y) = f.onStation i fun _ => y := by
  cases service : inService e y with
  | false => exact sessionKeyEnd_outOfService service
  | true =>
    unfold sessionKeyEnd
    dsimp only
    rw [station_onStation_self, if_neg (by simp [service]), if_neg waiting.ne_funding]
    exact endIfActive_waiting waiting

/-- KEY BALANCE finds nothing to show out of service or without a session (R87, R98). -/
theorem sessionKeyBalance_idle (idle : inService e y = false ∨ (y.context.condition ≠ .live ∧ y.context.condition ≠ .ending)) :
    sessionKeyBalance e i (f.onStation i fun _ => y) = f.onStation i fun _ => y := by
  have nothing : (!inService e y || !y.context.hasLiveSession) = true := by
    rw [Bool.or_eq_true, Bool.not_eq_true', Bool.not_eq_true']
    refine idle.imp_right fun ⟨notLive, notEnding⟩ => Bool.eq_false_iff.mpr fun live => ?_
    exact ((hasLive_iff _).mp live).elim notLive notEnding
  unfold sessionKeyBalance
  rw [station_onStation_self]
  exact if_pos nothing

/-- KEY BALANCE shows the values of the last funding entry (R87). -/
theorem sessionKeyBalance_entry {entry : FundingEntry} (service : inService e y = true)
    (session : y.context.condition = .live ∨ y.context.condition = .ending) (last : y.context.lastEntry = some entry) :
    sessionKeyBalance e i (f.onStation i fun _ => y) = f.onStation i fun _ => { y with
      link := y.link.offer (showOn y.secondRow .balance (balanceValues f.store entry).1 (balanceValues f.store entry).2) } := by
  unfold sessionKeyBalance
  dsimp only
  rw [station_onStation_self, if_neg (by simp [service, (hasLive_iff _).mpr session]), last]
  exact (offer_eq ..).trans (onStation_onStation ..)

/-- The SHOW of KEY BALANCE by the kind of the last entry (R87). -/
theorem showBalance_eq (row : Nat) (m : Memory) (entry : FundingEntry) :
    showOn row .balance (balanceValues m entry).1 (balanceValues m entry).2 =
      if entry.kind = .bank then showOn row .balance entry.remainingUnits entry.hold
      else showOn row .balance (m.account entry.account).available entry.remainingUnits := by
  unfold balanceValues
  split_ifs <;> rfl

/-! ### CARD IN -/

/-- The card a CARD IN names (11.9). -/
def cardOf (medium : Byte) (number : BitVec 64) : Card := { medium := mediumOf medium, bytes := number }

/-- A station that has heard a CARD IN of an agreed medium, or is out of service, marks the card held (R47). -/
def Station.holding (c : Card) (y : Station) : Station := { y with link := { y.link with held := some c } }

theorem reads_mediumOf (a : Ability) (medium : Byte) : a.reads (mediumOf medium) = if medium = 1 then a.shop else a.bank := by
  unfold mediumOf
  split_ifs <;> rfl

theorem receive_cardIn {medium : Byte} {number : BitVec 64} (valid : cardFieldsValid medium number = true)
    (up : (f.station i).link.up = true) :
    receiveFrame i (.cardIn medium number) e f =
      takeCardIn e i (cardOf medium number) (f.onStation i fun _ => (f.station i).heardFrame e.partTime) := by
  rw [receiveFrame_heard (t := .cardIn medium number) valid, actOnFrame]
  exact if_pos (by rw [station_onStation_self]; exact up)

theorem takeCardIn_unread {c : Card} (service : inService e y = true) (unread : y.link.agreed.reads c.medium = false) :
    takeCardIn e i c (f.onStation i fun _ => y) = f.onStation i fun _ => y.refusal .notAccepted 0 0 := by
  unfold takeCardIn
  dsimp only
  rw [station_onStation_self, if_pos (by simp [service, unread]), showAndEject_eq, onStation_onStation]

theorem takeCardIn_taken {c : Card} (taken : inService e y = false ∨ y.link.agreed.reads c.medium = true) :
    takeCardIn e i c (f.onStation i fun _ => y) = sessionCardIn e i c (f.onStation i fun _ => y.holding c) := by
  unfold takeCardIn
  dsimp only
  rw [station_onStation_self, if_neg (by rcases taken with h | h <;> simp [h]), onStation_onStation]
  rfl

theorem sessionCardIn_outOfService {c : Card} (out : inService e y = false) :
    sessionCardIn e i c (f.onStation i fun _ => y) = f.onStation i fun _ => y.refusal .outOfService 0 0 := by
  unfold sessionCardIn
  dsimp only
  rw [station_onStation_self, if_pos (by rw [out]; rfl), showAndEject_eq, onStation_onStation]

/-- During a link-loss grace a CARD IN is compared with the card of the context (R93). -/
theorem sessionCardIn_grace {c : Card} (service : inService e y = true) (grace : y.graceStart.isSome = true)
    (session : y.context.condition = .live ∨ y.context.condition = .funding) :
    sessionCardIn e i c (f.onStation i fun _ => y) = cardInGrace e i c (f.onStation i fun _ => y) := by
  unfold sessionCardIn
  dsimp only
  rw [station_onStation_self, if_neg (by simp [service]), if_pos (by rcases session with h | h <;> simp [grace, h])]

theorem cardInGrace_same {c : Card} (same : y.context.card = some c) :
    cardInGrace e i c (f.onStation i fun _ => y) = f.onStation i fun _ => { y with graceStart := none } := by
  unfold cardInGrace
  dsimp only
  rw [station_onStation_self, if_pos same, onStation_onStation]

theorem cardInGrace_live {c : Card} (other : y.context.card ≠ some c) (live : y.context.condition = .live) :
    cardInGrace e i c (f.onStation i fun _ => y) =
      f.onStation i fun _ => { y.ended e.partTime .cardOut with nextCard := some c } := by
  unfold cardInGrace
  dsimp only
  rw [station_onStation_self, if_neg other, if_pos live, endSession_eq, onStation_onStation, onStation_onStation]

theorem cardInGrace_funding {c : Card} (run : e.run ≠ .stopping) (other : y.context.card ≠ some c)
    (funding : y.context.condition = .funding) (card : y.nextCard = none) :
    cardInGrace e i c (f.onStation i fun _ => y) = judgeCard e i c (f.onStation i fun _ => y.givenUp) := by
  unfold cardInGrace
  dsimp only
  rw [station_onStation_self, if_neg other, if_neg (by simp [funding]),
    giveUpFunding_eq run (by rw [station_onStation_self]; exact card), onStation_onStation]

/-- Outside a grace the state of the station decides what becomes of a card (4.4, R75, R93). -/
theorem sessionCardIn_idle {c : Card} (service : inService e y = true) (grace : y.graceStart = none) (idle : y.state = .idle) :
    sessionCardIn e i c (f.onStation i fun _ => y) = judgeCard e i c (f.onStation i fun _ => y) := by
  unfold sessionCardIn
  dsimp only
  rw [station_onStation_self, if_neg (by simp [service]), if_neg (by simp [grace]), idle]

theorem sessionCardIn_later {c : Card} (service : inService e y = true) (grace : y.graceStart = none)
    (later : y.state = .draining ∨ y.state = .settling ∨ (y.state = .jammed ∧ y.context.condition ≠ .live)) :
    sessionCardIn e i c (f.onStation i fun _ => y) = f.onStation i fun _ => { y with nextCard := some c } := by
  unfold sessionCardIn
  dsimp only
  rw [station_onStation_self, if_neg (by simp [service]), if_neg (by simp [grace])]
  rcases later with state | state | ⟨state, notLive⟩
  · conv_lhs => rw [state]
    exact onStation_onStation ..
  · conv_lhs => rw [state]
    exact onStation_onStation ..
  · conv_lhs => rw [state]
    exact (if_neg notLive).trans (onStation_onStation ..)

theorem sessionCardIn_ignored {c : Card} (service : inService e y = true) (grace : y.graceStart = none)
    (busy : y.state = .funding ∨ y.state = .opened ∨ y.state = .low ∨ y.state = .recovery ∨
      (y.state = .jammed ∧ y.context.condition = .live)) :
    sessionCardIn e i c (f.onStation i fun _ => y) = f.onStation i fun _ => y := by
  unfold sessionCardIn
  dsimp only
  rw [station_onStation_self, if_neg (by simp [service]), if_neg (by simp [grace])]
  rcases busy with state | state | state | state | ⟨state, live⟩
  · rw [state]
  · rw [state]
  · rw [state]
  · rw [state]
  · rw [state]
    exact if_pos live

end Frames

/-- Settles O45: each event reaches `endSession` at the station it has made, which is the station R88 says. -/
theorem eventsEndALiveSession : Obligations.EventsEndALiveSession := by
  unfold Obligations.EventsEndALiveSession
  intro i s l4 run x now heard active live
  have endsHere : ∀ cause, endSession s.mode i cause s.floor = s.floor.onStation i fun _ => x.ended now cause :=
    fun cause => (endSession_eq ..).trans (onStation_congr _ _ rfl)
  refine ⟨fun start low started late => ?_, fun start started late => ?_, fun up keypad service isActive => ?_,
    fun up held isActive => ?_, fun flags up held isActive gone => ?_, ?_⟩
  · have due : (x.state == .low && timerReached now x.lowStart (1000 * x.copy.lowTime)) = true := by
      rw [Bool.and_eq_true, beq_iff_eq, timerReached_iff]
      exact ⟨low, start, started, late⟩
    exact changesTo_of (change := lowDue i) rfl run l4 ((if_pos due).trans ((if_pos live).trans (endsHere _)))
  · have due : timerReached now x.graceStart Config.graceTime = true := (timerReached_iff ..).mpr ⟨start, started, late⟩
    exact changesTo_of (change := graceDue i) rfl run l4 ((if_pos due).trans ((if_pos live).trans (endsHere _)))
  · exact changesTo_of (change := receiveFrame i .keyEnd) rfl run l4
      ((receive_keyEnd up keypad).trans (sessionKeyEnd_live (y := heard) service isActive live))
  · exact changesTo_of (change := receiveFrame i .cardOut) rfl run l4
      ((receive_cardOut up).trans ((cardLeaves_held (y := heard) held).trans (sessionCardOut_live (y := heard.letGo) isActive live)))
  · exact changesTo_of (change := receiveFrame i (.tick flags)) rfl run l4
      ((receive_tick up).trans ((takeTick_gone gone).trans ((cardLeaves_held (y := heard.ticked false) held).trans
        (sessionCardOut_live (y := (heard.ticked false).letGo) isActive live))))
  · intro medium number valid up service grace agreed card other
    have taken : x.link.agreed.reads (mediumOf medium) = true := (reads_mediumOf ..).trans agreed
    exact changesTo_of (change := receiveFrame i (.cardIn medium number)) rfl run l4
      ((receive_cardIn valid up).trans ((takeCardIn_taken (y := heard) (c := cardOf medium number) (.inr taken)).trans
        ((sessionCardIn_grace (y := heard.holding _) service grace (.inl live)).trans
          (cardInGrace_live (y := heard.holding _) other live))))

/-- Settles O52: what a key, a TICK and a CARD OUT make of a station that has no session for them, and the display of KEY BALANCE. -/
theorem keysTicksAndCardsWithoutASessionChange : Obligations.KeysTicksAndCardsWithoutASessionChange := by
  unfold Obligations.KeysTicksAndCardsWithoutASessionChange
  intro i flags s l4 run x heard ticked waiting
  have keyEnd : receiveFrame i .keyEnd s.mode s.floor = (s.floor.onStation i fun _ => heard) → ChangesTo (.keyEnd i) i s heard :=
    changesTo_of (change := receiveFrame i .keyEnd) rfl run l4
  have keyBalance : receiveFrame i .keyBalance s.mode s.floor = (s.floor.onStation i fun _ => heard) →
      ChangesTo (.keyBalance i) i s heard := changesTo_of (change := receiveFrame i .keyBalance) rfl run l4
  have tick : ∀ y, receiveFrame i (.tick flags) s.mode s.floor = (s.floor.onStation i fun _ => y) →
      ChangesTo (.tick i flags) i s y := fun _ => changesTo_of (change := receiveFrame i (.tick flags)) rfl run l4
  have cardOut : ∀ y, receiveFrame i .cardOut s.mode s.floor = (s.floor.onStation i fun _ => y) →
      ChangesTo (.cardOut i) i s y := fun _ => changesTo_of (change := receiveFrame i .cardOut) rfl run l4
  refine ⟨fun down => ?_, fun up silent => ?_, fun isWaiting => ?_, fun notLive notEnding => ?_, ?_, fun up nothing => ?_,
    fun up noCard => ?_, fun up held isWaiting => ?_⟩
  · exact ⟨keyBalance (receiveFrame_down rfl (by simp) down), keyEnd (receiveFrame_down rfl (by simp) down),
      tick _ (receiveFrame_down rfl (by simp) down), cardOut _ (receiveFrame_down rfl (by simp) down)⟩
  · refine ⟨keyBalance (receive_keyBalance_same fun _ keypad => ?_), keyEnd (receive_keyEnd_same fun _ keypad => ?_)⟩
    · exact sessionKeyBalance_idle (y := heard) (.inl (silent.resolve_left fun off => Bool.eq_false_iff.mp off keypad))
    · exact sessionKeyEnd_outOfService (y := heard) (silent.resolve_left fun off => Bool.eq_false_iff.mp off keypad)
  · exact keyEnd (receive_keyEnd_same fun _ _ => sessionKeyEnd_waiting (y := heard) isWaiting)
  · exact keyBalance (receive_keyBalance_same fun _ _ => sessionKeyBalance_idle (y := heard) (.inr ⟨notLive, notEnding⟩))
  · intro before entry up keypad service session funding remaining row display
    have last : x.context.lastEntry = some entry := by
      rw [Context.lastEntry, funding]
      exact List.getLast?_concat ..
    refine changesTo_of (change := receiveFrame i .keyBalance) rfl run l4 ((receive_keyBalance up keypad).trans
      ((sessionKeyBalance_entry (y := heard) service session last).trans ?_))
    rw [showBalance_eq]
    rfl
  · cases present : flags.getLsbD 0 with
    | true =>
      exact tick _ ((receive_tick up).trans ((takeTick_present present).trans
        (congrArg (fun level => s.floor.onStation i fun _ => heard.ticked level) present.symm)))
    | false =>
      have noCard : x.link.held = none := nothing.resolve_left fun up => Bool.eq_false_iff.mp present up
      exact tick _ ((receive_tick up).trans ((takeTick_gone present).trans
        ((cardLeaves_none (y := heard.ticked false) noCard).trans
          (congrArg (fun level => s.floor.onStation i fun _ => heard.ticked level) present.symm))))
  · exact cardOut _ ((receive_cardOut up).trans (cardLeaves_none (y := heard) noCard))
  · exact cardOut _ ((receive_cardOut up).trans ((cardLeaves_held (y := heard) held).trans
      (sessionCardOut_waiting (y := heard.letGo) isWaiting)))

end Sys2Proof.Machine
end

section
/-! PROOF. Cards judged and refused at an IDLE station, cards kept for later (R69, R70, R72, R75, R76), and the events that give up a
funding wait (R107, R109). -/

namespace Sys2Proof.Machine

open Sys2Proof
-- One proof after the other: proofs that wait for one another hold a thread each, and its memory.
set_option Elab.async false

section Cards

variable {e : Mode} {i : StationId} {f : Floor} {y : Station} {c : Card} {d : DirEntry}

/-! ### Refusals of judgeCard (R69, R70) -/

theorem judgeCard_stopping (run : e.run = .stopping) :
    judgeCard e i c (f.onStation i fun _ => y) = f.onStation i fun _ => y.refusal .outOfService 0 0 := by
  unfold judgeCard
  dsimp only
  rw [if_pos run, showAndEject_eq, onStation_onStation]

theorem judgeCard_unknown (run : e.run ≠ .stopping) (shop : c.medium = .shop) (unknown : f.store.lookup c.bytes.toNat = none) :
    judgeCard e i c (f.onStation i fun _ => y) = f.onStation i fun _ => y.refusal .unknownCard 0 0 := by
  unfold judgeCard
  dsimp only
  rw [if_neg run, shop, onStation_store, unknown]
  exact (showAndEject_eq ..).trans (onStation_onStation ..)

theorem judgeCard_blocked (run : e.run ≠ .stopping) (shop : c.medium = .shop) (known : f.store.lookup c.bytes.toNat = some d)
    (blocked : d.state ≠ 1) :
    judgeCard e i c (f.onStation i fun _ => y) = f.onStation i fun _ => y.refusal .cardBlocked 0 0 := by
  unfold judgeCard
  dsimp only
  rw [if_neg run, shop, onStation_store, known]
  exact (if_pos (by simpa [DirEntry.isActive] using blocked)).trans ((showAndEject_eq ..).trans (onStation_onStation ..))

/-- A card that is ACTIVE and not SERVICE asks for the station's service and for funds (R69, R70). -/
theorem judgeCard_customer (run : e.run ≠ .stopping) (shop : c.medium = .shop) (known : f.store.lookup c.bytes.toNat = some d)
    (active : d.state = 1) (customer : d.role ≠ 2) :
    judgeCard e i c (f.onStation i fun _ => y) = if y.noService then f.onStation i fun _ => y.refusal .noService 0 0
      else acceptCustomer e i c d (f.onStation i fun _ => y) := by
  unfold judgeCard
  dsimp only
  rw [if_neg run, shop, onStation_store, known, station_onStation_self]
  dsimp only
  rw [if_neg (by simp [DirEntry.isActive, active]), if_neg fun service : d.isService = true => customer (beq_iff_eq.mp service),
    showAndEject_eq, onStation_onStation]

/-- A BANK card asks for the station's service alone (R69 case 3). -/
theorem judgeCard_bank (run : e.run ≠ .stopping) (bank : c.medium = .bank) :
    judgeCard e i c (f.onStation i fun _ => y) = if y.noService then f.onStation i fun _ => y.refusal .noService 0 0
      else beginFunding e i c (f.onStation i fun _ => y) := by
  unfold judgeCard
  dsimp only
  rw [if_neg run, bank, station_onStation_self]
  dsimp only
  rw [showAndEject_eq, onStation_onStation]

/-- A chain without a usable account is refused (R70, R72). -/
theorem acceptCustomer_insufficient
    (unusable : ∀ n, n = d.chain.first ∨ n = d.chain.second ∨ n = d.chain.third → usable f.store y.holdNeed n = false) :
    acceptCustomer e i c d (f.onStation i fun _ => y) =
      f.onStation i fun _ => y.refusal .insufficient y.holdNeed (greatestAvailable f.store d.chain) := by
  have noSlot : (d.chain.slots.find? fun k => usable f.store y.holdNeed k.2) = none := by
    simp [Chain.slots, unusable]
  unfold acceptCustomer
  dsimp only
  rw [station_onStation_self, onStation_store, noSlot]
  exact (showAndEject_eq ..).trans (onStation_onStation ..)

/-- Behind a report in the slot the FIRST request of a funding wait is DEFERRED (R104, R106). -/
theorem beginFunding_deferred (slot : y.auth.slot.isSome = true) :
    beginFunding e i c (f.onStation i fun _ => y) = f.onStation i fun _ => { y with
      state := .funding
      auth := { y.auth with state := .deferred, kind := .first, amount := y.copy.bankHold, id := 0, written := 0 }
      context := { Context.empty with condition := .funding, card := some c, chain := .empty }
      link := y.link.offer (showOn 1 .authWait 0 0) } := by
  unfold beginFunding wantAuth
  dsimp only
  rw [onStation_onStation, station_onStation_self, if_pos slot, offer_eq, onStation_onStation, onStation_onStation]

/-! ### CARD IN heard in UP -/

theorem mediumOf_shop {medium : Byte} (h : medium = 1) : mediumOf medium = .shop := if_pos h

theorem mediumOf_bank {medium : Byte} (h : medium = 2) : mediumOf medium = .bank := if_neg (by rw [h]; decide)

/-- A CARD IN handed to the session controller by a station that holds the card (R47). -/
theorem receive_cardIn_held {medium : Byte} {number : BitVec 64} (valid : cardFieldsValid medium number = true)
    (up : (f.station i).link.up = true)
    (taken : inService e (f.station i) = false ∨
      (if medium = 1 then (f.station i).link.agreed.shop else (f.station i).link.agreed.bank) = true) :
    receiveFrame i (.cardIn medium number) e f = sessionCardIn e i (cardOf medium number)
      (f.onStation i fun _ => ((f.station i).heardFrame e.partTime).holding (cardOf medium number)) :=
  (receive_cardIn valid up).trans (takeCardIn_taken (y := (f.station i).heardFrame e.partTime)
    (taken.imp_right fun agreed => (reads_mediumOf ..).trans agreed))

end Cards

/-- Settles O49: where the session controller gets the card it hands it to `judgeCard`, whose refusals these are, keeps it or leaves
the station as it is. -/
theorem cardInIsRefusedOrHeld : Obligations.CardInIsRefusedOrHeld := by
  unfold Obligations.CardInIsRefusedOrHeld
  intro i medium number s l4 run valid x m c agreed heard held serves judged becomes
  have changes : ∀ y, receiveFrame i (.cardIn medium number) s.mode s.floor = (s.floor.onStation i fun _ => y) → becomes y :=
    fun _ => changesTo_of (change := receiveFrame i (.cardIn medium number)) rfl run l4
  have handed : inService s.mode x = false ∨ agreed = true → x.link.up = true →
      receiveFrame i (.cardIn medium number) s.mode s.floor = sessionCardIn s.mode i c (s.floor.onStation i fun _ => held) :=
    fun taken up => receive_cardIn_held valid up taken
  have toJudge : serves → x.state = .idle →
      receiveFrame i (.cardIn medium number) s.mode s.floor = judgeCard s.mode i c (s.floor.onStation i fun _ => held) :=
    fun ⟨up, service, reads, grace⟩ idle =>
      (handed (.inr reads) up).trans (sessionCardIn_idle (y := held) service grace idle)
  have refuses : judged → ∀ y, judgeCard s.mode i c (s.floor.onStation i fun _ => held) = (s.floor.onStation i fun _ => y) →
      becomes y := fun ⟨isServed, idle, _⟩ y h => changes y ((toJudge isServed idle).trans h)
  have notStopping : judged → s.mode.run ≠ .stopping := fun ⟨_, _, running⟩ stopping => by
    rw [running] at stopping
    cases stopping
  refine ⟨fun isServed idle => ?_, fun down => ?_, fun up service unread => ?_, fun up out => ?_, fun isServed idle stopping => ?_,
    fun isJudged shop unknown => ?_, fun d isJudged shop known blocked => ?_, fun d isJudged shop known active customer noService => ?_,
    fun isJudged bank noService => ?_, fun d isJudged shop known active customer service noFunds => ?_, ?_, ?_, ?_⟩
  · rw [← toJudge isServed idle]
    exact endsWith_of (change := receiveFrame i (.cardIn medium number)) rfl run
  · exact changes _ (receiveFrame_down (t := .cardIn medium number) valid (by simp) down)
  · exact changes _ ((receive_cardIn valid up).trans (takeCardIn_unread (y := heard) (c := c) service
      ((reads_mediumOf ..).trans unread)))
  · exact changes _ ((handed (.inl out) up).trans (sessionCardIn_outOfService (y := held) out))
  · exact changes _ ((toJudge isServed idle).trans (judgeCard_stopping stopping))
  · exact refuses isJudged _ (judgeCard_unknown (notStopping isJudged) (mediumOf_shop shop) unknown)
  · exact refuses isJudged _ (judgeCard_blocked (notStopping isJudged) (mediumOf_shop shop) known blocked)
  · exact refuses isJudged _ ((judgeCard_customer (notStopping isJudged) (mediumOf_shop shop) known active customer).trans
      (if_pos noService))
  · exact refuses isJudged _ ((judgeCard_bank (notStopping isJudged) (mediumOf_bank bank)).trans (if_pos noService))
  · exact refuses isJudged _ ((judgeCard_customer (notStopping isJudged) (mediumOf_shop shop) known active customer).trans
      ((if_neg (Bool.eq_false_iff.mp service)).trans (acceptCustomer_insufficient (y := held) noFunds)))
  · intro ⟨up, service, reads, grace⟩ later
    exact changes _ ((handed (.inr reads) up).trans (sessionCardIn_later (y := held) service grace later))
  · intro ⟨up, service, reads, grace⟩ busy
    exact changes _ ((handed (.inr reads) up).trans (sessionCardIn_ignored (y := held) service grace busy))
  · intro up service reads grace session same
    exact changes _ ((handed (.inr reads) up).trans ((sessionCardIn_grace (y := held) service grace session).trans
      (cardInGrace_same (y := held) same)))

section Waits

variable {e : Mode} {i : StationId} {f : Floor}

/-! ### The authorization timer (R109) -/

theorem authTimer_iff (now : Time) (x : Station) :
    (x.auth.state == .asked && timerReached now (some x.auth.written) (1000 * x.copy.authTime)) = true ↔
      x.auth.state = .asked ∧ 1000 * x.copy.authTime ≤ elapsed now x.auth.written := by
  rw [Bool.and_eq_true, beq_iff_eq, timerReached_iff]
  exact and_congr_right fun _ => ⟨fun ⟨_, start, late⟩ => Option.some.inj start ▸ late, fun late => ⟨_, rfl, late⟩⟩

theorem timerReached_early {now : Time} {start : Option Time} {length : Nat}
    (early : ∀ t, start = some t → elapsed now t < length) : ¬ timerReached now start length = true := fun due => by
  obtain ⟨t, started, late⟩ := (timerReached_iff ..).mp due
  exact absurd late (Nat.not_le.mpr (early t started))

/-- The timer of a FIRST request declines the card and gives the wait up (R109). -/
theorem authDue_first (run : e.run ≠ .stopping)
    (due : ((f.station i).auth.state == .asked &&
      timerReached e.partTime (some (f.station i).auth.written) (1000 * (f.station i).copy.authTime)) = true)
    (first : (f.station i).auth.kind = .first) (card : (f.station i).nextCard = none) :
    authDue i e f = f.onStation i fun _ => ((f.station i).refusal .declined 0 0).givenUp := by
  unfold authDue
  dsimp only
  rw [if_pos due, if_pos first, cancelAuth_eq, showAndEject_eq, onStation_onStation,
    giveUpFunding_eq run (by rw [station_onStation_self]; exact card), onStation_onStation]
  exact onStation_congr _ _ rfl

/-- The timer of an INCREMENT sets stop-asking and shows DECLINED (R109). -/
theorem authDue_increment
    (due : ((f.station i).auth.state == .asked &&
      timerReached e.partTime (some (f.station i).auth.written) (1000 * (f.station i).copy.authTime)) = true)
    (increment : (f.station i).auth.kind ≠ .first) :
    authDue i e f = f.onStation i fun _ => { f.station i with
      auth := (f.station i).auth.shut, context := { (f.station i).context with stopAsking := true }
      link := (f.station i).link.offer (showOn (f.station i).secondRow .declined 0 0) } := by
  unfold authDue
  dsimp only
  rw [if_pos due, if_neg increment, cancelAuth_eq, onStation_onStation, showDeclined, station_onStation_self, offer_eq,
    onStation_onStation]
  exact onStation_congr _ _ rfl

end Waits

/-- Settles O46: each event reaches `giveUpFunding` at the station it has made, and a different card is then judged there. -/
theorem eventsGiveUpAFundingWait : Obligations.EventsGiveUpAFundingWait := by
  unfold Obligations.EventsGiveUpAFundingWait
  intro i s l4 running x now heard due
  have run : s.mode.run ≠ .clearing := by rw [running]; decide
  have notStopping : s.mode.run ≠ .stopping := by rw [running]; decide
  have service : x.state = .funding → inService s.mode x = true :=
    fun funding => inService_of_runs (.inl running) (by rw [funding]; decide)
  refine ⟨fun funding up keypad card => ?_, fun funding up held => ⟨?_, fun flags gone => ?_⟩,
    fun start funding started late card => ?_, fun isDue first card => ?_, fun isDue increment => ?_, fun early => ?_, fun early => ?_,
    fun early => ?_, ?_⟩
  · exact changesTo_of (change := receiveFrame i .keyEnd) rfl run l4 ((receive_keyEnd up keypad).trans
      (sessionKeyEnd_funding (y := heard) (service funding) notStopping funding card))
  · exact changesTo_of (change := receiveFrame i .cardOut) rfl run l4 ((receive_cardOut up).trans
      ((cardLeaves_held (y := heard) held).trans (sessionCardOut_funding (y := heard.letGo) notStopping funding)))
  · exact changesTo_of (change := receiveFrame i (.tick flags)) rfl run l4 ((receive_tick up).trans ((takeTick_gone gone).trans
      ((cardLeaves_held (y := heard.ticked false) held).trans
        (sessionCardOut_funding (y := (heard.ticked false).letGo) notStopping funding))))
  · have reached : timerReached now x.graceStart Config.graceTime = true := (timerReached_iff ..).mpr ⟨start, started, late⟩
    have notLive : x.context.condition ≠ .live := by rw [funding]; decide
    exact changesTo_of (change := graceDue i) rfl run l4 ((if_pos reached).trans ((if_neg notLive).trans ((if_pos funding).trans
      ((giveUpFunding_eq notStopping card).trans (onStation_congr _ _ rfl)))))
  · exact changesTo_of (change := authDue i) rfl run l4 (authDue_first notStopping ((authTimer_iff ..).mpr isDue) first card)
  · exact changesTo_of (change := authDue i) rfl run l4 (authDue_increment ((authTimer_iff ..).mpr isDue) increment)
  · exact noEffect_of (change := authDue i) rfl l4 (if_neg fun reached => early ((authTimer_iff ..).mp reached))
  · exact noEffect_of (change := graceDue i) rfl l4 (if_neg (timerReached_early early))
  · exact noEffect_of (change := lowDue i) rfl l4
      (if_neg fun reached => timerReached_early early (Bool.and_eq_true _ _ ▸ reached).2)
  · intro medium number valid up funding condition grace card reads m c idle becomes other
    have judged : receiveFrame i (.cardIn medium number) s.mode s.floor =
        judgeCard s.mode i c (s.floor.onStation i fun _ => idle) :=
      (receive_cardIn_held valid up (.inr reads)).trans
        ((sessionCardIn_grace (y := heard.holding c) (service funding) grace (.inr condition)).trans
          (cardInGrace_funding (y := heard.holding c) notStopping other condition card))
    have judgedAs : ∀ y, judgeCard s.mode i c (s.floor.onStation i fun _ => idle) = (s.floor.onStation i fun _ => y) → becomes y :=
      fun y h => changesTo_of (change := receiveFrame i (.cardIn medium number)) rfl run l4 (judged.trans h)
    refine ⟨fun shop unknown => ?_, fun d shop known blocked => ?_, fun bank noService => ?_, fun bank serves slot => ?_⟩
    · exact judgedAs _ (judgeCard_unknown notStopping (mediumOf_shop shop) unknown)
    · exact judgedAs _ (judgeCard_blocked notStopping (mediumOf_shop shop) known blocked)
    · exact judgedAs _ ((judgeCard_bank notStopping (mediumOf_bank bank)).trans (if_pos noService))
    · exact judgedAs _ ((judgeCard_bank notStopping (mediumOf_bank bank)).trans
        ((if_neg (Bool.eq_false_iff.mp serves)).trans (beginFunding_deferred (y := idle) slot)))

end Sys2Proof.Machine
end

section
/-! SUPPORT. The card directory in the store (R62, 11.4): entries read back, the list of entries after entries have been written from
an index on, and the order of the entries that law L6 and the start check ask for (R64, R68, R168). -/

namespace Sys2Proof.Machine

open Sys2Proof
-- One proof after the other: proofs that wait for one another hold a thread each, and its memory.
set_option Elab.async false

/-! ### Entries -/

theorem Memory.readLE_lt (m : Memory) (a n : Nat) : m.readLE a n < 256 ^ n := by
  induction n generalizing a with
  | zero => exact Nat.one_pos
  | succ n ih =>
    have byte := (m.read a).isLt
    have rest := ih (a + 1)
    simp only [Memory.readLE, Nat.pow_succ]
    omega

/-- An entry whose numbers fit their fields (11.4). -/
structure DirEntry.Fits (d : DirEntry) : Prop where
  number : d.number < 256 ^ 8
  first : d.chain.first < 256 ^ 2
  second : d.chain.second < 256 ^ 2
  third : d.chain.third < 256 ^ 2

theorem dirEntry_fits (m : Memory) (k : Nat) : (m.dirEntry k).Fits :=
  ⟨m.readLE_lt .., m.readLE_lt .., m.readLE_lt .., m.readLE_lt ..⟩

theorem paramEntry_fits (m : Memory) (slot : Nat) : (m.paramEntry slot).Fits :=
  ⟨m.readLE_lt .., m.readLE_lt .., m.readLE_lt .., m.readLE_lt ..⟩

theorem zeroEntry_fits : DirEntry.zero.Fits := by constructor <;> decide

theorem entryLayout_size (d : DirEntry) : layoutSize d.layout = 16 := rfl

theorem entryAddr_isCell {k o : Nat} (index : k < 2048) (inside : o < 16) : isCell (entryAddr k + o) = true := by
  apply isCell_of_ranges <;>
    simp only [entryAddr, Config.directoryBase, Config.storeBytes, Config.stationBase, Config.stationEnd] <;> omega

/-- A directory entry depends on its 16 bytes only. -/
theorem dirEntry_congr {m m' : Memory} {k : Nat} (same : ∀ a, inBytes (entryAddr k) 16 a → m'.read a = m.read a) :
    m'.dirEntry k = m.dirEntry k := by
  have field : ∀ o n, o + n ≤ 16 → m'.readLE (entryAddr k + o) n = m.readLE (entryAddr k + o) n := fun o n within =>
    Memory.readLE_congr n _ fun a low high => same a ⟨by omega, by omega⟩
  have number := field 0 8 (by omega)
  rw [Nat.add_zero] at number
  simp only [Memory.dirEntry, number, field 10 2 (by omega), field 12 2 (by omega), field 14 2 (by omega),
    same (entryAddr k + 8) ⟨by omega, by omega⟩, same (entryAddr k + 9) ⟨by omega, by omega⟩]

/-- Reading back an entry that was written (11.4). -/
theorem dirEntry_writeEntry (m : Memory) {k : Nat} {d : DirEntry} (fits : d.Fits) (index : k < 2048) :
    (m.writeBytes (entryAddr k) (layoutBytes d.layout)).dirEntry k = d := by
  have field : ∀ o n, o + n ≤ 16 → (m.writeBytes (entryAddr k) (layoutBytes d.layout)).readLE (entryAddr k + o) n =
      imageField (layoutNumber d.layout) o n := fun o n within => by
    rw [layoutBytes, entryLayout_size]
    exact Memory.readLE_writeBytes m _ 16 _ n o within fun j inside => entryAddr_isCell index inside
  have number := field 0 8 (by omega)
  rw [Nat.add_zero] at number
  obtain ⟨number_lt, first_lt, second_lt, third_lt⟩ := fits
  obtain ⟨cardNumber, state, role, first, second, third⟩ := d
  simp only at number_lt first_lt second_lt third_lt
  simp only [Memory.dirEntry, Memory.read_eq_readLE, number, field, Nat.reduceAdd, Nat.reduceLeDiff]
  simp only [DirEntry.layout, imageField_layout_tail, imageField_layout_head, Nat.reduceLeDiff, Nat.reduceSub, Nat.le_refl,
    Nat.mod_eq_of_lt number_lt, Nat.mod_eq_of_lt first_lt, Nat.mod_eq_of_lt second_lt, Nat.mod_eq_of_lt third_lt]
  have byte : (256 : Nat) ^ 1 = 2 ^ 8 := by norm_num
  simp only [byte, Nat.mod_eq_of_lt (BitVec.isLt _), BitVec.ofNat_toNat, BitVec.setWidth_eq]

theorem read_writeEntries_outside (m : Memory) {k a : Nat} (ds : List DirEntry)
    (outside : a < entryAddr k ∨ entryAddr (k + ds.length) ≤ a) : (m.writeEntries k ds).read a = m.read a := by
  induction ds generalizing m k with
  | nil => rfl
  | cons d ds ih =>
    simp only [List.length_cons, entryAddr] at outside
    rw [Memory.writeEntries, ih _ (by simp only [entryAddr]; omega)]
    exact Memory.read_writeBytes_outside _ _ (by rw [layoutBytes_length, entryLayout_size]; simp only [entryAddr]; omega)

/-- The entries after entries have been written from index `k` on. -/
theorem dirEntry_writeEntries (m : Memory) {k : Nat} {ds : List DirEntry} (fits : ∀ d ∈ ds, d.Fits) (room : k + ds.length ≤ 2048)
    (j : Nat) :
    (m.writeEntries k ds).dirEntry j = if h : k ≤ j ∧ j < k + ds.length then ds[j - k] else m.dirEntry j := by
  induction ds generalizing m k with
  | nil =>
    rw [dif_neg (by simp)]
    rfl
  | cons d ds ih =>
    simp only [List.length_cons] at room ⊢
    rw [Memory.writeEntries, ih _ (fun x mem => fits x (List.mem_cons_of_mem _ mem)) (by omega)]
    by_cases later : k + 1 ≤ j ∧ j < k + 1 + ds.length
    · rw [dif_pos later, dif_pos (by omega)]
      simp only [show j - k = j - (k + 1) + 1 by omega, List.getElem_cons_succ]
    · rw [dif_neg later]
      by_cases here : j = k
      · subst here
        rw [dif_pos (by omega), dirEntry_writeEntry m (fits d List.mem_cons_self) (by omega)]
        simp
      · rw [dif_neg (by omega)]
        refine dirEntry_congr fun a inside => Memory.read_writeBytes_outside _ _ ?_
        simp only [inBytes, entryAddr] at inside
        rw [layoutBytes_length, entryLayout_size]
        simp only [entryAddr]
        omega

/-! ### The list of entries -/

theorem directory_length (m : Memory) : m.directory.length = m.directoryCount := by
  simp [Memory.directory]

theorem directory_getElem (m : Memory) {k : Nat} (index : k < m.directory.length) : m.directory[k] = m.dirEntry k := by
  simp [Memory.directory]

theorem directory_fits {m : Memory} {d : DirEntry} (entry : d ∈ m.directory) : d.Fits := by
  obtain ⟨k, _, rfl⟩ := List.mem_map.mp entry
  exact dirEntry_fits m k

/-- The directory depends on the count and the directory's bytes only. -/
theorem directory_congr {m m' : Memory} (small : m.directoryCount ≤ 2048)
    (same : ∀ a, inHeaderField 0 2 a ∨ inDirectory a → m'.read a = m.read a) :
    m'.directoryCount = m.directoryCount ∧ m'.directory = m.directory := by
  have count : m'.directoryCount = m.directoryCount := Memory.readLE_congr 2 _ fun a low high => same a (.inl ⟨low, high⟩)
  refine ⟨count, ?_⟩
  unfold Memory.directory
  rw [count]
  refine List.map_congr_left fun k index => dirEntry_congr fun a inside => same a (.inr ?_)
  simp only [List.mem_range] at index
  simp only [inDirectory, inBytes, entryAddr] at *
  omega

/-- What an edit of the directory leaves: its entries, and every byte outside the directory, the first two header fields and the
bytes of no field (R63, R66, R181). -/
theorem editDirectory_leaves (m : Memory) (change : Memory → Memory) :
    let after := m.editDirectory change
    after.directoryCount = (change m).directoryCount ∧ (∀ k, after.dirEntry k = (change m).dirEntry k) ∧
      ∀ a, ¬ inHeaderField 0 4 a → ¬ inHeaderRest a → after.read a = (change m).read a := by
  have outside : ∀ a, ¬ inHeaderField 2 2 a → ¬ inHeaderRest a → (m.editDirectory change).read a = (change m).read a := by
    intro a field rest
    refine (Memory.read_writeLE_outside _ _ ?_).trans (read_clearReserved_outside _ rest)
    simp only [inHeaderField, inBytes] at field
    omega
  refine ⟨?_, fun k => dirEntry_congr fun a inside => outside a ?_ ?_, fun a field rest => outside a ?_ rest⟩
  · exact (header_setHeader_other _ _ (by omega)).trans (header_clearReserved _ (by omega))
  all_goals simp only [inHeaderField, inHeaderRest, inBytes, entryAddr, Config.headerBase, Config.directoryBase] at *; omega

/-- A store whose directory has been written anew from index `k` on and holds `count` entries (R66, R67). -/
structure Rewritten (m m' : Memory) (k : Nat) (ds : List DirEntry) (count : Nat) : Prop where
  count : m'.directoryCount = count
  entries : ∀ j, m'.dirEntry j = (m.writeEntries k ds).dirEntry j
  apart : ∀ a, ¬ inHeaderField 0 4 a → ¬ inHeaderRest a → ¬ inDirectory a → m'.read a = m.read a

/-- The edit that writes entries and the count (R66, R67). -/
theorem rewritten_of_edit (m : Memory) {k : Nat} {ds : List DirEntry} (room : k + ds.length ≤ 2048) {count : Nat}
    (small : count ≤ 2048) :
    Rewritten m (m.editDirectory fun m => (m.writeEntries k ds).setHeader 0 2 count) k ds count := by
  obtain ⟨counted, entries, apart⟩ := editDirectory_leaves m fun m => (m.writeEntries k ds).setHeader 0 2 count
  refine ⟨?_, fun j => ?_, fun a field rest directory => ?_⟩
  · rw [counted]
    exact (header_setHeader_self _ _ (by omega)).trans (Nat.mod_eq_of_lt (by omega))
  · rw [entries]
    refine dirEntry_congr fun a inside => Memory.read_writeLE_outside _ _ ?_
    simp only [inBytes, entryAddr, Config.headerBase, Config.directoryBase] at *
    omega
  · rw [apart a field rest]
    refine (Memory.read_writeLE_outside _ _ ?_).trans (read_writeEntries_outside _ _ ?_)
    · simp only [inHeaderField, inBytes] at field
      omega
    · simp only [inDirectory, inBytes, entryAddr] at *
      omega

theorem replaceEntry_rewritten (m : Memory) {k : Nat} (d : DirEntry) (index : k < 2048) :
    Rewritten m (m.replaceEntry k d) k [d] m.directoryCount := by
  obtain ⟨counted, entries, apart⟩ := editDirectory_leaves m fun m => m.writeEntries k [d]
  have written : ∀ a, ¬ inDirectory a → (m.writeEntries k [d]).read a = m.read a := fun a outside =>
    read_writeEntries_outside _ _ (by
      simp only [inDirectory, inBytes, entryAddr, List.length_singleton] at *
      omega)
  refine ⟨counted.trans (Memory.readLE_congr 2 _ fun a _ high => written a ?_), entries, fun a field rest outside =>
    (apart a field rest).trans (written a outside)⟩
  simp only [inDirectory, inBytes, Config.headerBase, Config.directoryBase] at *
  omega

theorem insertEntry_rewritten (m : Memory) {k : Nat} (d : DirEntry) (index : k ≤ m.directoryCount)
    (room : m.directoryCount < 2048) :
    Rewritten m (m.insertEntry k d) k (d :: m.directory.drop k) (m.directoryCount + 1) :=
  rewritten_of_edit m (by rw [List.length_cons, List.length_drop, directory_length]; omega) room

theorem removeEntry_rewritten (m : Memory) {k : Nat} (index : k < m.directoryCount) (small : m.directoryCount ≤ 2048) :
    Rewritten m (m.removeEntry k) k (m.directory.drop (k + 1) ++ [DirEntry.zero]) (m.directoryCount - 1) :=
  rewritten_of_edit m (by rw [List.length_append, List.length_drop, directory_length, List.length_singleton]; omega) (by omega)

/-- The entries of a directory that has been written anew. -/
theorem Rewritten.directory {m m' : Memory} {k : Nat} {ds : List DirEntry} {count : Nat} (h : Rewritten m m' k ds count)
    (fits : ∀ d ∈ ds, d.Fits) (index : k ≤ m.directoryCount) (room : k + ds.length ≤ 2048)
    (reach : count ≤ max m.directoryCount (k + ds.length)) :
    m'.directory = (m.directory.take k ++ (ds ++ m.directory.drop (k + ds.length))).take count := by
  have before : (m.directory.take k).length = k := by rw [List.length_take, directory_length]; omega
  refine List.ext_getElem ?_ fun j left right => ?_
  · simp only [directory_length, h.count, List.length_take, List.length_append, List.length_drop]
    omega
  · rw [directory_getElem, h.entries, dirEntry_writeEntries m fits room, List.getElem_take]
    simp only [directory_length, h.count] at left
    by_cases early : j < k
    · rw [dif_neg (by omega), List.getElem_append_left (by omega), List.getElem_take, directory_getElem]
    · by_cases new : j < k + ds.length
      · rw [dif_pos (by omega), List.getElem_append_right (by omega), List.getElem_append_left (by omega)]
        simp only [before]
      · rw [dif_neg (by omega), List.getElem_append_right (by omega), List.getElem_append_right (by omega), List.getElem_drop,
          directory_getElem, before, show k + ds.length + (j - k - ds.length) = j by omega]

theorem directory_replaceEntry (m : Memory) {k : Nat} {d : DirEntry} (fits : d.Fits) (index : k < m.directoryCount)
    (small : m.directoryCount ≤ 2048) :
    (m.replaceEntry k d).directory = m.directory.take k ++ d :: m.directory.drop (k + 1) := by
  rw [(replaceEntry_rewritten m d (by omega)).directory (by simpa using fits) (by omega)
    (by rw [List.length_singleton]; omega) (by omega), List.take_of_length_le]
  · simp
  · simp only [List.length_append, List.length_take, List.length_drop, directory_length, List.length_singleton]
    omega

theorem directory_insertEntry (m : Memory) {k : Nat} {d : DirEntry} (fits : d.Fits) (index : k ≤ m.directoryCount)
    (room : m.directoryCount < 2048) :
    (m.insertEntry k d).directory = m.directory.take k ++ d :: m.directory.drop k := by
  have long : (m.directory.drop k).length = m.directoryCount - k := by rw [List.length_drop, directory_length]
  have rest : m.directory.drop (k + (d :: m.directory.drop k).length) = [] :=
    List.drop_of_length_le (by rw [directory_length, List.length_cons]; omega)
  rw [(insertEntry_rewritten m d index room).directory ?_ index (by rw [List.length_cons]; omega)
    (by rw [List.length_cons]; omega), rest, List.append_nil, List.take_of_length_le]
  · simp only [List.length_append, List.length_take, List.length_cons, directory_length, long]
    omega
  · intro x entry
    rcases List.mem_cons.mp entry with rfl | entry
    · exact fits
    · exact directory_fits (List.mem_of_mem_drop entry)

theorem directory_removeEntry (m : Memory) {k : Nat} (index : k < m.directoryCount) (small : m.directoryCount ≤ 2048) :
    (m.removeEntry k).directory = m.directory.take k ++ m.directory.drop (k + 1) := by
  have long : (m.directory.drop (k + 1) ++ [DirEntry.zero]).length = m.directoryCount - k := by
    rw [List.length_append, List.length_drop, directory_length, List.length_singleton]
    omega
  have rest : m.directory.drop (k + (m.directory.drop (k + 1) ++ [DirEntry.zero]).length) = [] :=
    List.drop_of_length_le (by rw [directory_length]; omega)
  rw [(removeEntry_rewritten m index small).directory ?_ (by omega) (by omega) (by omega),
    rest, List.append_nil, ← List.append_assoc, List.take_left']
  · simp only [List.length_append, List.length_take, List.length_drop, directory_length]
    omega
  · intro x entry
    rcases List.mem_append.mp entry with entry | entry
    · exact directory_fits (List.mem_of_mem_drop entry)
    · rw [List.mem_singleton.mp entry]
      exact zeroEntry_fits

/-! ### The order of the entries -/

/-- Entries in strictly ascending order of card number, none with card number 0 (law L6). -/
structure Ascending (l : List DirEntry) : Prop where
  ordered : l.Pairwise fun a b => a.number < b.number
  named : ∀ d ∈ l, 0 < d.number

/-- The start check's walk through the entries (R168). -/
theorem firstDisorder_none_iff (previous k : Nat) (l : List DirEntry) :
    firstDisorder previous k l = none ↔ (l.Pairwise fun a b => a.number < b.number) ∧ ∀ d ∈ l, previous < d.number := by
  induction l generalizing previous k with
  | nil => simp [firstDisorder]
  | cons d l ih =>
    rw [firstDisorder, List.pairwise_cons, List.forall_mem_cons]
    split
    · next low => simp [Nat.not_lt.mpr low]
    · next high =>
      rw [ih]
      refine ⟨fun ⟨ordered, above⟩ => ⟨⟨above, ordered⟩, by omega, fun x entry => ?_⟩, fun ⟨⟨above, ordered⟩, _⟩ => ⟨ordered, above⟩⟩
      have := above x entry
      omega

theorem directoryFault_none_iff (m : Memory) :
    m.directoryFault = none ↔ m.directoryCount ≤ 2048 ∧ Ascending m.directory := by
  unfold Memory.directoryFault
  by_cases small : m.directoryCount ≤ 2048
  · rw [if_neg (by simp only [Config.directoryRoom]; omega), Option.map_eq_none_iff, firstDisorder_none_iff]
    exact ⟨fun ⟨ordered, named⟩ => ⟨small, ordered, named⟩, fun ⟨_, ordered, named⟩ => ⟨ordered, named⟩⟩
  · rw [if_pos (by simp only [Config.directoryRoom]; omega)]
    simp [small]

/-- Law L6 asks of the directory what the start check asks (R168). -/
theorem directoryLaw_iff (s : State) : DirectoryLaw s ↔ (s.mode.runs = true → s.floor.store.directoryFault = none) := by
  unfold DirectoryLaw
  refine forall_congr' fun _ => ?_
  rw [directoryFault_none_iff]
  refine and_congr_right fun _ => ⟨fun ⟨named, ordered⟩ => ⟨?_, fun d entry => ?_⟩, fun ⟨ordered, named⟩ => ⟨fun k index => ?_, fun j k less index => ?_⟩⟩
  · refine List.pairwise_iff_getElem.mpr fun j k left right less => ?_
    rw [directory_getElem, directory_getElem]
    exact ordered j k less (by rwa [directory_length] at right)
  · obtain ⟨k, index, rfl⟩ := List.mem_map.mp entry
    exact Nat.pos_of_ne_zero (named k (List.mem_range.mp index))
  · exact Nat.ne_of_gt (named _ (List.mem_map.mpr ⟨k, List.mem_range.mpr index, rfl⟩))
  · have entries := List.pairwise_iff_getElem.mp ordered j k (by rw [directory_length]; omega) (by rwa [directory_length]) less
    rwa [directory_getElem, directory_getElem] at entries

/-- A sound directory stays sound while its count and its bytes stay. -/
theorem directoryFault_congr {m m' : Memory} (sound : m.directoryFault = none)
    (same : ∀ a, inHeaderField 0 2 a ∨ inDirectory a → m'.read a = m.read a) : m'.directoryFault = none := by
  rw [directoryFault_none_iff] at sound ⊢
  obtain ⟨count, entries⟩ := directory_congr sound.1 same
  rwa [count, entries]

/-! ### Ascending lists in two parts -/

section Parts

variable {before after : List DirEntry} {d : DirEntry} {k : Nat}

/-- Around an entry of an ascending list stand the lower numbers and the higher ones. -/
theorem ascending_around_iff : Ascending (before ++ d :: after) ↔
    Ascending (before ++ after) ∧ 0 < d.number ∧ (∀ x ∈ before, x.number < d.number) ∧ ∀ x ∈ after, d.number < x.number := by
  constructor
  · intro ⟨ordered, named⟩
    obtain ⟨low, tail, across⟩ := List.pairwise_append.mp ordered
    obtain ⟨above, high⟩ := List.pairwise_cons.mp tail
    refine ⟨⟨List.pairwise_append.mpr ⟨low, high, fun x left y right => across x left y (List.mem_cons_of_mem _ right)⟩,
      fun x entry => named x ?_⟩, named d (by simp), fun x left => across x left d List.mem_cons_self, above⟩
    simp only [List.mem_append, List.mem_cons] at entry ⊢
    tauto
  · intro ⟨⟨ordered, named⟩, own, below, above⟩
    obtain ⟨low, high, across⟩ := List.pairwise_append.mp ordered
    refine ⟨List.pairwise_append.mpr ⟨low, List.pairwise_cons.mpr ⟨above, high⟩, fun x left y right => ?_⟩, fun x entry => ?_⟩
    · rcases List.mem_cons.mp right with rfl | right
      · exact below x left
      · exact across x left y right
    · simp only [List.mem_append, List.mem_cons] at entry
      rcases entry with left | rfl | right
      · exact named x (List.mem_append_left _ left)
      · exact own
      · exact named x (List.mem_append_right _ right)

/-- A lookup in a list around an entry that has its number alone (R64). -/
theorem find_around (below : ∀ x ∈ before, x.number < d.number) (number : Nat) :
    (before ++ d :: after).find? (fun x => x.number == number) =
      if number = d.number then some d else (before ++ after).find? fun x => x.number == number := by
  rw [List.find?_append, List.find?_append, List.find?_cons]
  by_cases own : number = d.number
  · subst own
    have none : before.find? (fun x => x.number == d.number) = none := List.find?_eq_none.mpr fun x left => by
      have := below x left
      simp only [beq_iff_eq]
      omega
    simp [none]
  · simp [own, beq_eq_false_iff_ne.mpr (Ne.symm own)]

theorem find_around_none (below : ∀ x ∈ before, x.number < d.number) (above : ∀ x ∈ after, d.number < x.number) :
    (before ++ after).find? (fun x => x.number == d.number) = none := by
  refine List.find?_eq_none.mpr fun x entry => ?_
  simp only [beq_iff_eq]
  rcases List.mem_append.mp entry with left | right
  · exact Nat.ne_of_lt (below x left)
  · exact Nat.ne_of_gt (above x right)

end Parts

end Sys2Proof.Machine
end

section
/-! SUPPORT. The card edits of a sound directory: an entry replaced, inserted or removed leaves the directory sound and every lookup of
another number as it was (R64, R66, R67). -/

namespace Sys2Proof.Machine

open Sys2Proof
-- One proof after the other: proofs that wait for one another hold a thread each, and its memory.
set_option Elab.async false

section Edits

variable {m m' : Memory} {k : Nat} {d : DirEntry}

/-- An entry stands between the entries before it and the entries after it. -/
theorem directory_split (index : k < m.directoryCount) :
    m.directory = m.directory.take k ++ m.dirEntry k :: m.directory.drop (k + 1) := by
  have place : k < m.directory.length := by rwa [directory_length]
  conv_lhs => rw [← List.take_append_drop k m.directory, List.drop_eq_getElem_cons place, directory_getElem]

/-- A search by number finds the index of the number's entry (R64). -/
theorem findIdx_number {number : Nat} (found : m.directory.findIdx? (fun x => x.number == number) = some k) :
    k < m.directoryCount ∧ (m.dirEntry k).number = number := by
  obtain ⟨index, holds, _⟩ := List.findIdx?_eq_some_iff_getElem.mp found
  rw [directory_length] at index
  exact ⟨index, by simpa [directory_getElem] using holds⟩

/-- A search by number and a lookup find no entry together (R64). -/
theorem findIdx_number_none {number : Nat} :
    m.directory.findIdx? (fun x => x.number == number) = none ↔ m.lookup number = none := by
  rw [Memory.lookup, List.findIdx?_eq_none_iff, List.find?_eq_none]
  simp

/-- A lookup of another number passes over an entry that follows lower numbers (R64). -/
theorem lookup_around (index : k < m.directoryCount) (below : ∀ x ∈ m.directory.take k, x.number < (m.dirEntry k).number)
    {other : Nat} (different : other ≠ (m.dirEntry k).number) :
    (m.directory.take k ++ m.directory.drop (k + 1)).find? (fun x => x.number == other) = m.lookup other := by
  have found : m.lookup other = _ := (congrArg (List.find? _) (directory_split index)).trans (find_around below other)
  rw [found, if_neg different]

/-- A directory that holds the entry `d` at index `k`, is sound, and has every other number as another store has it. -/
structure Placed (m m' : Memory) (k : Nat) (d : DirEntry) : Prop where
  entry : m'.dirEntry k = d
  sound : m'.directoryFault = none
  lookup : ∀ number, m'.lookup number = if number = d.number then some d else m.lookup number

/-- An entry between lower and higher numbers. -/
theorem Placed.of_around {before after : List DirEntry} (directory : m'.directory = before ++ d :: after) (index : before.length = k)
    (small : m'.directoryCount ≤ 2048) (ascends : Ascending (before ++ d :: after))
    (lookup : ∀ number, number ≠ d.number → (before ++ after).find? (fun x => x.number == number) = m.lookup number) :
    Placed m m' k d where
  entry := by
    have place : k < m'.directory.length := by simp [directory, ← index]
    rw [← directory_getElem m' place]
    simp [directory, ← index]
  sound := (directoryFault_none_iff m').mpr ⟨small, directory ▸ ascends⟩
  lookup number := by
    obtain ⟨_, _, below, _⟩ := ascending_around_iff.mp ascends
    rw [Memory.lookup, directory, find_around below]
    split
    · rfl
    · next other => exact lookup number other

theorem take_length (index : k ≤ m.directoryCount) : (m.directory.take k).length = k := by
  rw [List.length_take, directory_length]
  omega

/-- Replace (R66). -/
theorem replaceEntry_placed (sound : m.directoryFault = none) (fits : d.Fits)
    (found : m.directory.findIdx? (fun x => x.number == d.number) = some k) : Placed m (m.replaceEntry k d) k d := by
  obtain ⟨small, ascends⟩ := (directoryFault_none_iff m).mp sound
  obtain ⟨index, number⟩ := findIdx_number found
  rw [directory_split index] at ascends
  obtain ⟨rest, named, below, above⟩ := ascending_around_iff.mp ascends
  refine .of_around (directory_replaceEntry m fits index small) (take_length (by omega)) ?_ ?_ fun other different => ?_
  · rw [(replaceEntry_rewritten m d (by omega)).count]
    exact small
  · rw [number] at named below above
    exact ascending_around_iff.mpr ⟨rest, named, below, above⟩
  · exact lookup_around index below (number ▸ different)

/-- The index where a new number is inserted, between the lower numbers and the higher ones (R66). -/
def Memory.insertIndex (m : Memory) (number : Nat) : Nat :=
  (m.directory.findIdx? fun x => number < x.number).getD m.directoryCount

theorem insertIndex_splits {number : Nat} (ascends : Ascending m.directory) (absent : m.lookup number = none) :
    m.insertIndex number ≤ m.directoryCount ∧ (∀ x ∈ m.directory.take (m.insertIndex number), x.number < number) ∧
      ∀ x ∈ m.directory.drop (m.insertIndex number), number < x.number := by
  have different : ∀ x ∈ m.directory, x.number ≠ number := by
    simpa [Memory.lookup, List.find?_eq_none] using absent
  unfold Memory.insertIndex
  cases found : m.directory.findIdx? fun x => decide (number < x.number) with
  | none =>
    rw [List.findIdx?_eq_none_iff] at found
    refine ⟨Nat.le_refl _, fun x entry => ?_, fun x entry => ?_⟩
    · have inside := List.mem_of_mem_take entry
      have low := found x inside
      have other := different x inside
      simp only [decide_eq_false_iff_not] at low
      omega
    · rw [Option.getD_none, List.drop_of_length_le (by rw [directory_length])] at entry
      cases entry
  | some k =>
    obtain ⟨index, higher, first⟩ := List.findIdx?_eq_some_iff_getElem.mp found
    rw [decide_eq_true_eq] at higher
    rw [directory_length] at index
    simp only [Option.getD_some]
    refine ⟨Nat.le_of_lt index, fun x entry => ?_, fun x entry => ?_⟩
    · obtain ⟨j, place, rfl⟩ := List.mem_take_iff_getElem.mp entry
      have low := first j (by omega)
      have other := different _ (List.getElem_mem (by omega : j < m.directory.length))
      simp only [decide_eq_true_eq] at low
      omega
    · obtain ⟨j, place, rfl⟩ := List.mem_iff_getElem.mp entry
      rw [List.length_drop] at place
      rw [List.getElem_drop]
      rcases Nat.eq_zero_or_pos j with rfl | later
      · simpa using higher
      · have order := List.pairwise_iff_getElem.mp ascends.ordered k (k + j) (by rw [directory_length]; exact index) (by omega)
          (by omega)
        omega

/-- Insert (R66). -/
theorem insertEntry_placed (sound : m.directoryFault = none) (fits : d.Fits) (named : 0 < d.number)
    (absent : m.lookup d.number = none) (room : m.directoryCount < 2048) :
    Placed m (m.insertEntry (m.insertIndex d.number) d) (m.insertIndex d.number) d := by
  obtain ⟨_, ascends⟩ := (directoryFault_none_iff m).mp sound
  obtain ⟨index, below, above⟩ := insertIndex_splits ascends absent
  generalize m.insertIndex d.number = k at *
  refine .of_around (directory_insertEntry m fits index room) (take_length index) ?_ ?_ fun other _ => ?_
  · rw [(insertEntry_rewritten m d index room).count]
    omega
  · exact ascending_around_iff.mpr ⟨by rwa [List.take_append_drop], named, below, above⟩
  · rw [List.take_append_drop, Memory.lookup]

/-- CARD DROP's removal (R67). -/
theorem removeEntry_dropped {number : Nat} (sound : m.directoryFault = none)
    (found : m.directory.findIdx? (fun x => x.number == number) = some k) :
    (m.removeEntry k).directoryFault = none ∧
      ∀ other, (m.removeEntry k).lookup other = if other = number then none else m.lookup other := by
  obtain ⟨small, ascends⟩ := (directoryFault_none_iff m).mp sound
  obtain ⟨index, rfl⟩ := findIdx_number found
  rw [directory_split index] at ascends
  obtain ⟨rest, _, below, above⟩ := ascending_around_iff.mp ascends
  refine ⟨(directoryFault_none_iff _).mpr ⟨?_, directory_removeEntry m index small ▸ rest⟩, fun other => ?_⟩
  · rw [(removeEntry_rewritten m index small).count]
    omega
  · rw [Memory.lookup, directory_removeEntry m index small]
    split
    · next same => rw [same, find_around_none below above]
    · next different => exact lookup_around index below different

end Edits

end Sys2Proof.Machine
end

section
/-! SUPPORT. What work does to the directory and to edit counts: a relation of stores, a relation of floors, and what the shared
operations on accounts, header, reports and requests do by them (R62, R134, R165, R176). -/

namespace Sys2Proof.Machine

open Sys2Proof
-- One proof after the other: proofs that wait for one another hold a thread each, and its memory.
set_option Elab.async false

/-! ### Stores -/

/-- A change of the store that leaves the directory with its count and its edit count alone, and makes no account's edit count
odd. -/
structure TidyStore (m m' : Memory) : Prop where
  directory : ∀ a, inHeaderField 0 4 a ∨ inDirectory a → m'.read a = m.read a
  odd : ∀ n, n < 1024 → isOdd (m'.account n).editCount = true → isOdd (m.account n).editCount = true

section Stores

variable {m m' m'' : Memory}

theorem TidyStore.refl (m : Memory) : TidyStore m m := ⟨fun _ _ => rfl, fun _ _ h => h⟩

theorem TidyStore.trans (a : TidyStore m m') (b : TidyStore m' m'') : TidyStore m m'' :=
  ⟨fun p place => (b.directory p place).trans (a.directory p place), fun n hn h => a.odd n hn (b.odd n hn h)⟩

theorem inAccount_inAccounts {n a : Nat} (hn : n < 1024) (h : inAccount n a) : inAccounts a := by
  simp only [inAccount, inAccounts, inBytes, accountAddr, Config.accountBase, Config.scratchBase] at *
  omega

/-- A change outside the directory, its header fields and the accounts. -/
theorem TidyStore.of_read (same : ∀ a, inHeaderField 0 4 a ∨ inDirectory a ∨ inAccounts a → m'.read a = m.read a) :
    TidyStore m m' where
  directory a place := same a (place.imp_right .inl)
  odd n hn h := by
    rwa [Memory.account_congr fun a low high => same a (.inr (.inr (inAccount_inAccounts hn ⟨low, high⟩)))] at h

/-- The directory and its header fields stand outside the account table. -/
theorem not_inAccounts_of_directory {a : Nat} (h : inHeaderField 0 4 a ∨ inDirectory a) : ¬ inAccounts a := by
  simp only [inHeaderField, inDirectory, inAccounts, inBytes, Config.headerBase, Config.directoryBase, Config.accountBase] at *
  omega

/-- A rewrite of one account that makes its edit count odd only where it was. -/
theorem TidyStore.account {n : Nat} (reads : ∀ a, ¬ inAccounts a → m'.read a = m.read a)
    (others : ∀ k, k ≠ n → m'.account k = m.account k)
    (self : n < 1024 → isOdd (m'.account n).editCount = true → isOdd (m.account n).editCount = true) : TidyStore m m' where
  directory a place := reads a (not_inAccounts_of_directory place)
  odd k hk h := by
    by_cases same : k = n
    · subst same
      exact self hk h
    · rwa [others k same] at h

theorem isOdd_eq (c : Half) : isOdd c = decide (c.toNat % 2 = 1) := by
  rw [isOdd, BitVec.getLsbD, Nat.testBit_zero]

theorem isOdd_bracket (c : Half) : isOdd (bracket c) = false := by
  rw [isOdd_eq, bracket_even]
  rfl

/-- One whole request makes no edit count odd (R134). -/
theorem editAccount_tidy (n : Nat) (change : Account → Account) : TidyStore m (m.editAccount n change) := by
  refine .account (n := n) (fun a outside => ?_) (fun k => Memory.account_editAccount_other m change) fun hn => ?_
  · unfold Memory.editAccount
    dsimp only
    split
    · rfl
    · exact putAccount_keeps _ _ _ outside
  · rw [Memory.account_editAccount_self m change hn]
    split
    · exact id
    · simp [isOdd_bracket]

theorem bracketAccount_tidy (n : Nat) (change : Account → Account) : TidyStore m (m.bracketAccount n change) := by
  refine .account (n := n) (fun a outside => putAccount_keeps _ _ _ outside)
    (fun k => Memory.account_bracketAccount_other m change) fun hn => ?_
  rw [Memory.account_bracketAccount_self m change hn]
  simp [isOdd_bracket]

/-- A request's end makes its account's edit count even (R134). -/
theorem isOdd_closeAccount {n : Nat} (hn : n < 1024) : isOdd ((m.closeAccount n).account n).editCount = false := by
  unfold Memory.closeAccount
  dsimp only
  split
  · next odd =>
    rw [Memory.account_putAccount_self m _ hn]
    rw [isOdd_eq, decide_eq_true_eq] at odd
    have sum := BitVec.toNat_add (m.account n).editCount 1#16
    have one : (1#16).toNat = 1 := rfl
    refine (isOdd_eq ((m.account n).editCount + 1#16)).trans ?_
    rw [sum, one]
    simp only [decide_eq_false_iff_not]
    omega
  · next even => simpa using even

theorem closeAccount_tidy (n : Nat) : TidyStore m (m.closeAccount n) := by
  refine .account (n := n) (fun a outside => ?_) (fun k => Memory.account_closeAccount_other m) fun hn => ?_
  · unfold Memory.closeAccount
    dsimp only
    split
    · exact putAccount_keeps _ _ _ outside
    · rfl
  · simp [isOdd_closeAccount hn]

/-- A change of header fields after the directory's. -/
theorem editHeader_tidy {change : Memory → Memory} (h : TidyStore m (change m)) : TidyStore m (m.editHeader change) := by
  refine h.trans (.of_read fun a place => ?_)
  refine (Memory.read_writeLE_outside _ _ ?_).trans (read_clearReserved_outside _ ?_)
  all_goals
    simp only [inHeaderField, inHeaderRest, inDirectory, inAccounts, inBytes, Config.headerBase, Config.directoryBase,
      Config.accountBase] at *
    omega

theorem setHeader_tidy {o n : Nat} (x : Nat) (low : 4 ≤ o) (high : o + n ≤ 128) : TidyStore m (m.setHeader o n x) :=
  .of_read fun a place => Memory.read_writeLE_outside _ _ (by
    simp only [inHeaderField, inDirectory, inAccounts, inBytes, Config.headerBase, Config.directoryBase, Config.accountBase] at *
    omega)

theorem advanceNumber_tidy : TidyStore m m.advanceNumber := editHeader_tidy (setHeader_tidy _ (by omega) (by omega))

theorem countClamps_tidy (n : Nat) : TidyStore m (m.countClamps n) := by
  unfold Memory.countClamps
  split
  · exact .refl m
  · exact editHeader_tidy (setHeader_tidy _ (by omega) (by omega))

/-- An answered slot is no part of directory, header and accounts (11.1). -/
theorem writeReply_tidy (done : Half) (r : Reply) : TidyStore m (m.writeReply (slotAddr done) r) :=
  .of_read fun a place => by
    have low : slotAddr done + 32 ≤ 2048 := by unfold slotAddr; omega
    have high : 2048 ≤ a := by
      simp only [inHeaderField, inDirectory, inAccounts, inBytes, Config.headerBase, Config.directoryBase,
        Config.accountBase] at place
      omega
    exact (Memory.read_writeLE_outside _ _ (by omega)).trans (Memory.read_write_other _ _ (by omega))

end Stores

/-! ### Floors -/

/-- Work that changes the store so, under a write offset that stands where it may (R176). -/
structure TidyStep (f g : Floor) : Prop where
  offset : goodOffset f.rptWr → goodOffset g.rptWr
  store : goodOffset f.rptWr → TidyStore f.store g.store

section Floors

variable {e : Mode} {i : StationId} {f g k : Floor}

theorem TidyStep.refl (f : Floor) : TidyStep f f := ⟨id, fun _ => .refl _⟩

theorem TidyStep.trans (a : TidyStep f g) (b : TidyStep g k) : TidyStep f k :=
  ⟨fun good => b.offset (a.offset good), fun good => (a.store good).trans (b.store (a.offset good))⟩

theorem TidyStep.of_same (store : g.store = f.store) (offset : g.rptWr = f.rptWr) : TidyStep f g :=
  ⟨fun good => offset ▸ good, fun _ => store ▸ .refl _⟩

theorem onStation_tidy {change : Station → Station} : TidyStep f (f.onStation i change) := .of_same rfl rfl

theorem enqueue_tidy (p : Producer) : TidyStep f (f.enqueue p) := .of_same rfl rfl

theorem raise_tidy (flag : IrqFlag) : TidyStep f (f.raise flag) := .of_same rfl rfl

theorem settle_tidy (g : Floor) : TidyStep f (settle e g f) := .of_same rfl rfl

theorem onStore_tidy {change : Memory → Memory} (h : TidyStore f.store (change f.store)) : TidyStep f (f.onStore change) :=
  ⟨id, fun _ => h⟩

theorem foldl_tidy {α : Type} {act : Floor → α → Floor} (h : ∀ f a, TidyStep f (act f a)) (l : List α) (f : Floor) :
    TidyStep f (l.foldl act f) := by
  induction l generalizing f with
  | nil => exact .refl f
  | cons a l ih => exact (h f a).trans (ih _)

theorem forStations_tidy {act : StationId → Floor → Floor} (h : ∀ i f, TidyStep f (act i f)) : TidyStep f (forStations act f) :=
  foldl_tidy (fun f i => h i f) _ f

/-- A report that fits is written into the stream (R176). -/
theorem writeReport_tidy (kind : ReportKind) (station : Nat) {body : List (Nat × Nat)} (whole : layoutSize body % 4 = 0)
    (fit : fits e f (8 + layoutSize body) = true) : TidyStep f (writeReport e kind station body f) := by
  refine ⟨(writeReport_step e f kind station body whole fit).offset, fun good => .of_read fun a place => ?_⟩
  refine read_writeReport_outside fun inside => ?_
  have stream := inReport_inStream fit good inside
  simp only [inHeaderField, inDirectory, inAccounts, inStream, inBytes, Config.headerBase, Config.directoryBase,
    Config.accountBase, Config.streamBase, Config.streamBytes] at *
  omega

theorem stationNotice_tidy (event : NoticeEvent) (cause : OutCause) : TidyStep f (stationNotice e i event cause f) := by
  unfold stationNotice
  split
  · split
    · next room =>
      refine (writeReport_tidy .station _ (by simp [layoutSize]) ?_).trans (.of_same rfl rfl)
      simp only [Bool.and_eq_true, decide_eq_true_eq] at room
      exact decide_eq_true (Nat.le_trans (Nat.le_add_right _ Config.noticeRoom) room.2)
    · exact .of_same rfl rfl
  · exact .refl f

/-! ### Requests to a bank, and the link -/

theorem offer_tidy (t : TxFrame) : TidyStep f (offer i t f) := onStation_tidy

theorem refusal_tidy (msg : Message) (a b : Int) : TidyStep f (showAndEject i msg a b f) := (offer_tidy _).trans (offer_tidy _)

theorem linkDown_tidy : TidyStep f (linkDown e i f) := onStation_tidy.trans (stationNotice_tidy ..)

theorem applySerial_tidy (old : WorkingCopy) : TidyStep f (applySerial e i old f) := by
  unfold applySerial
  dsimp only
  split
  · split
    · exact onStation_tidy.trans linkDown_tidy
    · exact onStation_tidy
  · split
    · exact onStation_tidy.trans (offer_tidy _)
    · exact .refl f

theorem writeAuth_tidy (fit : fits e f 32 = true) : TidyStep f (writeAuth e i f) := by
  unfold writeAuth
  split
  · exact .refl f
  · exact (writeReport_tidy _ _ (by simp [authBody_size]) (by simpa [authBody_size] using fit)).trans onStation_tidy

theorem produceAuth_tidy (kind : AuthKind) (amount : Nat) : TidyStep f (produceAuth e i kind amount f) := by
  have next : ∀ g : Floor, TidyStep g (if mayWrite e g 32 then writeAuth e i g else g.enqueue (.auth i)) := by
    intro g
    split
    · next may => exact writeAuth_tidy (fits_of_mayWrite may)
    · exact enqueue_tidy _
  exact onStation_tidy.trans (next _)

theorem wantAuth_tidy (kind : AuthKind) (amount : Nat) : TidyStep f (wantAuth e i kind amount f) := by
  unfold wantAuth
  split
  · exact onStation_tidy
  · exact produceAuth_tidy ..

theorem cancelAuth_tidy : TidyStep f (cancelAuth i f) := onStation_tidy

theorem writeWaitingAuth_tidy (fit : fits e f 32 = true) : TidyStep f (writeWaitingAuth e i f) := by
  unfold writeWaitingAuth
  dsimp only
  split
  · exact (writeAuth_tidy fit).trans (produceAuth_tidy ..)
  · exact writeAuth_tidy fit

/-! ### The outcome of a funding check -/

theorem askIncrement_tidy : TidyStep f (askIncrement e i f) := by
  unfold askIncrement
  dsimp only
  split
  · split
    · exact wantAuth_tidy ..
    · exact .refl f
  · exact .refl f

theorem enterLow_tidy : TidyStep f (enterLow e i f) := by
  unfold enterLow
  exact onStation_tidy.trans ((offer_tidy _).trans ((stationNotice_tidy ..).trans (onStation_tidy.trans askIncrement_tidy)))

theorem checkPassed_tidy : TidyStep f (checkPassed i f) := by
  unfold checkPassed
  split
  · exact onStation_tidy.trans (offer_tidy _)
  · exact .refl f

theorem checkFailed_tidy : TidyStep f (checkFailed e i f) := by
  unfold checkFailed
  split
  · exact askIncrement_tidy
  · exact enterLow_tidy

end Floors

end Sys2Proof.Machine
end

section
/-! SUPPORT. A funding check makes edit counts odd only at accounts of its station, and ends with every one of them even again; a
re-evaluation pass does so for the stations it serves (R81, R82, R134, R146). -/

namespace Sys2Proof.Machine

open Sys2Proof
-- One proof after the other: proofs that wait for one another hold a thread each, and its memory.
set_option Elab.async false

section Requests

variable {e : Mode} {i : StationId} {f g k : Floor}

/-- A part of a longer request of station `i`: what it makes odd is an account that the station's requests name, and it forgets no
account. -/
structure OpenStep (i : StationId) (f g : Floor) : Prop where
  offset : goodOffset f.rptWr → goodOffset g.rptWr
  directory : goodOffset f.rptWr → ∀ a, inHeaderField 0 4 a ∨ inDirectory a → g.store.read a = f.store.read a
  odd : goodOffset f.rptWr → ∀ n, n < 1024 → isOdd (g.store.account n).editCount = true →
    isOdd (f.store.account n).editCount = true ∨ n ∈ (g.station i).requestAccounts
  accounts : (f.station i).requestAccounts ⊆ (g.station i).requestAccounts

theorem OpenStep.trans (a : OpenStep i f g) (b : OpenStep i g k) : OpenStep i f k where
  offset good := b.offset (a.offset good)
  directory good p place := (b.directory (a.offset good) p place).trans (a.directory good p place)
  odd good n hn h := (b.odd (a.offset good) n hn h).elim
    (fun before => (a.odd good n hn before).imp_right fun named => b.accounts named) .inr
  accounts := List.Subset.trans a.accounts b.accounts

/-- Tidy work that keeps the context of the station. -/
theorem TidyStep.opens (h : TidyStep f g) (context : (g.station i).context = (f.station i).context) : OpenStep i f g where
  offset := h.offset
  directory good := (h.store good).directory
  odd good n hn odd := .inl ((h.store good).odd n hn odd)
  accounts := by rw [Station.requestAccounts, Station.requestAccounts, context]; exact fun _ => id

theorem OpenStep.refl (f : Floor) : OpenStep i f f := (TidyStep.refl f).opens rfl

/-- The accounts of kept entries are still named. -/
theorem requestAccounts_subset {x : Station} {l : List FundingEntry} (kept : KeepsEntries x.context.funding l) :
    x.requestAccounts ⊆ (x.withFunding l).requestAccounts := by
  intro n named
  simp only [Station.requestAccounts, List.mem_append] at named ⊢
  refine named.imp_right fun entry => ?_
  obtain ⟨en, place, rfl⟩ := List.mem_map.mp entry
  obtain ⟨j, found⟩ := List.getElem?_of_mem place
  obtain ⟨en', found', _, account, _⟩ := kept j en found
  exact List.mem_map.mpr ⟨en', List.mem_of_getElem? found', account⟩

/-- A request on an account that the station names afterwards. -/
theorem openAccount_open {n : Nat} {change : Account → Account} {alter : Station → Station}
    (named : n ∈ (alter (f.station i)).requestAccounts)
    (kept : (f.station i).requestAccounts ⊆ (alter (f.station i)).requestAccounts) :
    OpenStep i f ((f.onStore fun m => m.openAccount n change).onStation i alter) := by
  have station : (((f.onStore fun m => m.openAccount n change).onStation i alter).station i) = alter (f.station i) :=
    station_onStation_self ..
  refine ⟨id, fun _ a place => ?_, fun _ k hk odd => ?_, by rwa [station]⟩
  · show (f.store.openAccount n change).read a = _
    unfold Memory.openAccount
    dsimp only
    split
    · rfl
    · exact putAccount_keeps _ _ _ (not_inAccounts_of_directory place)
  · rw [station]
    by_cases same : k = n
    · exact .inr (same ▸ named)
    · have other := Memory.account_openAccount_other f.store change same
      exact .inl (by rwa [onStation_store, onStore_store, other] at odd)

theorem lastEntry_mem {c : Context} {en : FundingEntry} (last : c.lastEntry = some en) : en ∈ c.funding :=
  List.mem_of_getLast? last

theorem topUp_open : OpenStep i f (topUp i f) := by
  unfold topUp
  dsimp only
  split
  · next entry last =>
    have kept := keepsEntries_topUp (f.station i).context.funding ((f.station i).context.funding.length - 1)
      (topUpUnits f.store (f.station i).copy.holdStep (f.station i).guardValue entry)
    have named : entry.account ∈ (f.station i).requestAccounts :=
      List.mem_append_right _ (List.mem_map.mpr ⟨entry, lastEntry_mem last, rfl⟩)
    exact openAccount_open (requestAccounts_subset kept named) (requestAccounts_subset kept)
  · exact .refl f

theorem spillTo_open (slot account : Nat) : OpenStep i f (spillTo i slot account f) := by
  refine openAccount_open (List.mem_append_right _ ?_) (requestAccounts_subset (keepsEntries_append _ _))
  simp

theorem fundingSteps_open (spills : Nat) : OpenStep i f (fundingSteps i spills f) := by
  induction spills generalizing f with
  | zero => exact topUp_open
  | succ n ih =>
    simp only [fundingSteps]
    split
    · exact topUp_open
    · split
      · exact topUp_open
      · split
        · exact topUp_open.trans ((spillTo_open ..).trans ih)
        · exact topUp_open

theorem fundingCheckOpen_open : OpenStep i f (fundingCheckOpen e i f) := by
  have outcome : ∀ g, OpenStep i g (if (g.station i).fundsPass then checkPassed i g else checkFailed e i g) := by
    intro g
    refine TidyStep.opens ?_ (checkOutcome_context e i g)
    split
    · exact checkPassed_tidy
    · exact checkFailed_tidy
  unfold fundingCheckOpen
  dsimp only
  split
  · split
    · exact (fundingSteps_open 2).trans (outcome _)
    · exact outcome _
  · exact .refl f

/-! ### The end of the request -/

/-- Work after which an edit count is odd only where it was or where requests of the stations `l` have made it so. -/
structure Pending (l : List StationId) (f g : Floor) : Prop where
  offset : goodOffset f.rptWr → goodOffset g.rptWr
  directory : goodOffset f.rptWr → ∀ a, inHeaderField 0 4 a ∨ inDirectory a → g.store.read a = f.store.read a
  odd : goodOffset f.rptWr → ∀ n, n < 1024 → isOdd (g.store.account n).editCount = true →
    isOdd (f.store.account n).editCount = true ∨ ∃ j ∈ l, n ∈ (g.station j).requestAccounts

theorem Pending.check {l : List StationId} (h : Pending l f g) : Pending (i :: l) f (fundingCheckOpen e i g) := by
  have work := fundingCheckOpen_open (e := e) (i := i) (f := g)
  refine ⟨fun good => work.offset (h.offset good), fun good a place => ?_, fun good n hn odd => ?_⟩
  · exact (work.directory (h.offset good) a place).trans (h.directory good a place)
  · rcases work.odd (h.offset good) n hn odd with before | named
    · refine (h.odd good n hn before).imp_right fun ⟨j, served, named⟩ => ⟨j, List.mem_cons_of_mem _ served, ?_⟩
      by_cases same : j = i
      · subst same
        exact work.accounts named
      · rwa [(fundingCheckOpen_at e i g).others j same]
    · exact .inr ⟨i, List.mem_cons_self, named⟩

theorem Pending.checks {l served : List StationId} (h : Pending l f g) :
    Pending (served.reverse ++ l) f (served.foldl (fun g i => fundingCheckOpen e i g) g) := by
  induction served generalizing l g with
  | nil => exact h
  | cons i served ih =>
    rw [List.reverse_cons, List.append_assoc]
    exact ih h.check

theorem closeAccounts_store (accounts : List Nat) (f : Floor) :
    (closeAccounts accounts f).store = accounts.foldl Memory.closeAccount f.store := rfl

/-- The end of a request makes the edit counts of its accounts even (R134). -/
theorem foldl_closeAccount_odd {accounts : List Nat} {m : Memory} {n : Nat} (hn : n < 1024)
    (h : isOdd ((accounts.foldl Memory.closeAccount m).account n).editCount = true) :
    isOdd (m.account n).editCount = true ∧ n ∉ accounts := by
  induction accounts generalizing m with
  | nil => exact ⟨h, List.not_mem_nil⟩
  | cons k rest ih =>
    obtain ⟨odd, apart⟩ := ih h
    refine ⟨(closeAccount_tidy k).odd n hn odd, fun named => ?_⟩
    rcases List.mem_cons.mp named with rfl | later
    · rw [isOdd_closeAccount hn] at odd
      cases odd
    · exact apart later

theorem closeAccounts_tidy (accounts : List Nat) : TidyStep f (closeAccounts accounts f) :=
  onStore_tidy (by
    generalize f.store = m
    induction accounts generalizing m with
    | nil => exact .refl m
    | cons n rest ih => exact (closeAccount_tidy n).trans (ih _))

theorem Pending.close {l : List StationId} (h : Pending (i :: l) f g) :
    Pending l f (closeAccounts (g.station i).requestAccounts g) := by
  have tidy := closeAccounts_tidy (f := g) (g.station i).requestAccounts
  refine ⟨h.offset, fun good a place => ?_, fun good n hn odd => ?_⟩
  · exact ((tidy.store (h.offset good)).directory a place).trans (h.directory good a place)
  · obtain ⟨before, apart⟩ := foldl_closeAccount_odd hn odd
    refine (h.odd good n hn before).imp_right fun ⟨j, served, named⟩ => ⟨j, ?_, named⟩
    exact (List.mem_cons.mp served).resolve_left fun same => apart (same ▸ named)

theorem Pending.closes {l : List StationId} (h : Pending l f g) :
    Pending [] f (l.foldl (fun g i => closeAccounts (g.station i).requestAccounts g) g) := by
  induction l generalizing g with
  | nil => exact h
  | cons i l ih => exact ih h.close

theorem Pending.tidy (h : Pending [] f g) : TidyStep f g :=
  ⟨h.offset, fun good => ⟨h.directory good, fun n hn odd => (h.odd good n hn odd).resolve_right (by simp)⟩⟩

theorem Pending.refl (f : Floor) : Pending [] f f := ⟨id, fun _ _ _ => rfl, fun _ _ _ h => .inl h⟩

theorem Pending.congr {l l' : List StationId} (h : Pending l f g) (same : l ⊆ l') : Pending l' f g :=
  ⟨h.offset, h.directory, fun good n hn odd =>
    (h.odd good n hn odd).imp_right fun ⟨j, served, named⟩ => ⟨j, same served, named⟩⟩

theorem fundingCheck_tidy : TidyStep f (fundingCheck e i f) := ((Pending.refl f).check).close.tidy

theorem reevaluate_tidy (accounts : List Nat) : TidyStep f (reevaluate e accounts f) := by
  unfold reevaluate
  dsimp only
  split
  · exact (((Pending.refl f).checks).congr (by simp)).closes.tidy
  · exact .refl f

end Requests

end Sys2Proof.Machine
end

section
/-! SUPPORT. The work of the units leaves the directory alone and every edit count even: tallies, sessions, jams, settlements and the
wait queue. -/

namespace Sys2Proof.Machine

open Sys2Proof
-- One proof after the other: proofs that wait for one another hold a thread each, and its memory.
set_option Elab.async false

section Units

variable {e : Mode} {i : StationId} {f g k : Floor}

/-! ### Stray tallies and account closes -/

theorem writeStray_tidy (fit : fits e f 96 = true) : TidyStep f (writeStray e i f) := by
  unfold writeStray
  exact (writeReport_tidy _ _ (by simp [strayBody_size]) (by simpa [strayBody_size] using fit)).trans
    ((onStore_tidy (bracketAccount_tidy ..)).trans onStation_tidy)

theorem closeStray_tidy (cause : EndCause) : TidyStep f (closeStray e i cause f) := by
  unfold closeStray
  dsimp only
  split
  · exact .refl f
  · split
    · exact onStation_tidy
    · split
      · next may => exact onStation_tidy.trans (writeStray_tidy (fits_of_mayWrite may))
      · exact onStation_tidy.trans (enqueue_tidy _)

theorem writeClose_tidy (n : Nat) (byRelease : Bool) (fit : fits e f 64 = true) : TidyStep f (writeClose e n byRelease f) := by
  unfold writeClose
  exact (writeReport_tidy _ _ (by simp [closedBody_size]) (by simpa [closedBody_size] using fit)).trans
    (onStore_tidy (editAccount_tidy ..))

theorem produceClose_tidy (n : Nat) : TidyStep f (produceClose e n f) := by
  unfold produceClose
  split
  · next may => exact writeClose_tidy _ _ (fits_of_mayWrite may)
  · exact enqueue_tidy _

/-! ### Cards and sessions -/

theorem openSession_tidy (o : Opening) : TidyStep f (openSession e i o f) := by
  unfold openSession
  exact (closeStray_tidy _).trans ((onStore_tidy advanceNumber_tidy).trans (onStation_tidy.trans ((offer_tidy _).trans
    (onStation_tidy.trans fundingCheck_tidy))))

theorem acceptCustomer_tidy (card : Card) (d : DirEntry) : TidyStep f (acceptCustomer e i card d f) := by
  unfold acceptCustomer
  dsimp only
  split
  · exact (onStore_tidy (editAccount_tidy ..)).trans (openSession_tidy _)
  · exact refusal_tidy ..

theorem beginFunding_tidy (card : Card) : TidyStep f (beginFunding e i card f) :=
  onStation_tidy.trans ((wantAuth_tidy ..).trans (offer_tidy _))

theorem judgeCard_tidy (card : Card) : TidyStep f (judgeCard e i card f) := by
  unfold judgeCard
  dsimp only
  split
  · exact refusal_tidy ..
  · split
    · split
      · exact refusal_tidy ..
      · exact beginFunding_tidy _
    · split
      · exact refusal_tidy ..
      · split_ifs
        · exact refusal_tidy ..
        · exact (onStore_tidy (editAccount_tidy ..)).trans (openSession_tidy _)
        · exact refusal_tidy ..
        · exact acceptCustomer_tidy ..

theorem reachIdle_tidy : TidyStep f (reachIdle e i f) := by
  have next : ∀ g, TidyStep g (match (g.station i).nextCard with
      | some card => judgeCard e i card (g.onStation i fun x => { x with nextCard := none })
      | none => g) := by
    intro g
    split
    · exact onStation_tidy.trans (judgeCard_tidy _)
    · exact .refl g
  have stop : ∀ g, TidyStep g (if e.run = .stopping then closeStray e i .stop g else g) := by
    intro g
    split
    · exact closeStray_tidy _
    · exact .refl g
  exact onStation_tidy.trans ((stop _).trans (next _))

theorem answerNextCard_tidy : TidyStep f (answerNextCard i f) := by
  unfold answerNextCard
  split
  · exact onStation_tidy.trans (refusal_tidy ..)
  · exact .refl f

theorem enterOut_tidy (cause : OutCause) : TidyStep f (enterOut e i cause f) := by
  have close : ∀ g, TidyStep g (if e.runs then closeStray e i .out g else g) := by
    intro g
    split
    · exact closeStray_tidy _
    · exact .refl g
  unfold enterOut
  exact onStation_tidy.trans ((close _).trans (answerNextCard_tidy.trans ((offer_tidy _).trans
    (stationNotice_tidy ..))))

theorem giveUpFunding_tidy : TidyStep f (giveUpFunding e i f) :=
  cancelAuth_tidy.trans (onStation_tidy.trans reachIdle_tidy)

theorem endSession_tidy (cause : EndCause) : TidyStep f (endSession e i cause f) := by
  rw [endSession_eq]
  exact onStation_tidy

theorem endIfLive_tidy (cause : EndCause) : TidyStep f (endIfLive e i cause f) := by
  unfold endIfLive
  split
  · exact endSession_tidy _
  · exact .refl f

theorem cardInGrace_tidy (card : Card) : TidyStep f (cardInGrace e i card f) := by
  unfold cardInGrace
  dsimp only
  split_ifs
  · exact onStation_tidy
  · exact (endSession_tidy _).trans onStation_tidy
  · exact giveUpFunding_tidy.trans (judgeCard_tidy _)

theorem sessionCardIn_tidy (card : Card) : TidyStep f (sessionCardIn e i card f) := by
  unfold sessionCardIn
  dsimp only
  split
  · exact refusal_tidy ..
  · split
    · exact cardInGrace_tidy _
    · cases (f.station i).state with
      | idle => exact judgeCard_tidy _
      | draining | settling => exact onStation_tidy
      | jammed =>
        dsimp only
        split
        · exact .refl f
        · exact onStation_tidy
      | funding | opened | low | recovery | out => exact .refl f

theorem sessionCardOut_tidy : TidyStep f (sessionCardOut e i f) := by
  unfold sessionCardOut
  dsimp only
  split_ifs
  · exact onStation_tidy.trans giveUpFunding_tidy
  · exact onStation_tidy.trans (endIfLive_tidy _)
  · exact onStation_tidy

theorem sessionKeyEnd_tidy : TidyStep f (sessionKeyEnd e i f) := by
  unfold sessionKeyEnd
  dsimp only
  split_ifs
  · exact .refl f
  · exact (offer_tidy _).trans giveUpFunding_tidy
  · exact endIfLive_tidy _
  · exact .refl f

theorem sessionKeyBalance_tidy : TidyStep f (sessionKeyBalance e i f) := by
  unfold sessionKeyBalance
  dsimp only
  split
  · exact .refl f
  · split
    · exact .refl f
    · exact offer_tidy _

/-! ### Jams -/

theorem writeJam_tidy (fit : ∀ r, (f.station i).jam.pendingReport = some r → fits e f (8 + layoutSize r.body) = true) :
    TidyStep f (writeJam e i f) := by
  unfold writeJam
  split
  · exact .refl f
  · next r pending => exact (writeReport_tidy _ _ (by rw [jamBody_size]; omega) (fit r pending)).trans onStation_tidy

theorem produceJam_tidy (r : JamReport) : TidyStep f (produceJam e i r f) := by
  unfold produceJam
  dsimp only
  split
  · next may =>
    refine onStation_tidy.trans (writeJam_tidy fun r' pending => ?_)
    rw [station_onStation_self] at pending
    cases pending
    exact fits_of_mayWrite may
  · exact onStation_tidy.trans (enqueue_tidy _)

theorem onSheetAccount_tidy (s : Sheet) (change : Account → Account) : TidyStep f (onSheetAccount i s change f) := by
  unfold onSheetAccount
  split
  · exact onStore_tidy (editAccount_tidy ..)
  · exact .refl f

theorem loseSheet_tidy (s : Sheet) : TidyStep f (loseSheet i s f) := by
  unfold loseSheet
  exact (onSheetAccount_tidy ..).trans onStation_tidy

theorem loseToList_tidy (sheets : List Sheet) : TidyStep f (loseToList i sheets f) := by
  induction sheets generalizing f with
  | nil => exact .refl f
  | cons s rest ih => exact (loseSheet_tidy _).trans (onStation_tidy.trans ih)

theorem stopForJam_tidy : TidyStep f (stopForJam i f) := by
  unfold stopForJam
  dsimp only
  split
  · exact cancelAuth_tidy.trans ((offer_tidy _).trans (onStation_tidy.trans onStation_tidy))
  · exact onStation_tidy

theorem declareJam_tidy (cause : JamCause) (extra : List Sheet) : TidyStep f (declareJam e i cause extra f) := by
  unfold declareJam
  exact onStation_tidy.trans (stopForJam_tidy.trans (onStation_tidy.trans ((loseToList_tidy _).trans
    (onStation_tidy.trans ((produceJam_tidy _).trans (onStation_tidy.trans (offer_tidy _)))))))

theorem jamCause_tidy (cause : JamCause) (extra : List Sheet) : TidyStep f (jamCause e i cause extra f) := by
  unfold jamCause
  dsimp only
  split
  · exact declareJam_tidy ..
  · exact .refl f

/-! ### Settlement and the wait queue -/

theorem moveOn_tidy : TidyStep f (moveOn e i f) := by
  unfold moveOn
  dsimp only
  split_ifs
  · exact .refl f
  · exact enterOut_tidy _
  · exact reachIdle_tidy

theorem applyBlock_tidy (en : FundingEntry) : TidyStep f (applyBlock f en) := by
  unfold applyBlock
  split
  · exact onStore_tidy (bracketAccount_tidy ..)
  · exact .refl f

theorem closeReleased_tidy (en : FundingEntry) : TidyStep f (closeReleased e f en) := by
  unfold closeReleased
  dsimp only
  split
  · exact produceClose_tidy _
  · exact .refl f

theorem writeSession_tidy (fit : fits e f (8 + layoutSize (sessionBody (f.station i).context)) = true) :
    TidyStep f (writeSession e i f) := by
  unfold writeSession
  exact (writeReport_tidy _ _ (sessionBody_size _) fit).trans ((foldl_tidy (fun _ _ => applyBlock_tidy _) _ _).trans
    ((foldl_tidy (fun _ _ => closeReleased_tidy _) _ _).trans
      (onStation_tidy.trans ((reevaluate_tidy _).trans moveOn_tidy))))

theorem enterSettling_tidy : TidyStep f (enterSettling e i f) := by
  unfold enterSettling
  dsimp only
  split
  · next may =>
    have context : ∀ (g : Floor) (t : TxFrame), ((offer i t g).station i).context = (g.station i).context := fun g t => by
      rw [offer_eq, station_onStation_self]
    refine onStation_tidy.trans ((offer_tidy _).trans (writeSession_tidy ?_))
    rw [context]
    exact fits_of_mayWrite may
  · exact onStation_tidy.trans ((offer_tidy _).trans (enqueue_tidy _))

theorem writeWaiting_tidy {p : Producer} (fit : fits e f (waitingLength f p) = true) : TidyStep f (writeWaiting e f p) := by
  cases p with
  | session => exact writeSession_tidy fit
  | stray => exact writeStray_tidy fit
  | auth => exact writeWaitingAuth_tidy fit
  | jam => exact writeJam_tidy fun r pending => by simpa [waitingLength, pending] using fit
  | close => exact writeClose_tidy _ _ fit

theorem moveQueue_tidy (n : Nat) : TidyStep f (moveQueue e n f) := by
  induction n generalizing f with
  | zero => exact .refl f
  | succ n ih =>
    simp only [moveQueue]
    split
    · exact .refl f
    · next p rest _ =>
      split
      · next fit =>
        have same : waitingLength { f with waitQueue := rest } p = waitingLength f p := by cases p <;> rfl
        exact (TidyStep.of_same (f := f) (g := { f with waitQueue := rest }) rfl rfl).trans
          ((writeWaiting_tidy (by rw [same]; exact fit)).trans ih)
      · exact .refl f

end Units

end Sys2Proof.Machine
end

section
/-! SUPPORT. The events of the copier lines, the timers and the terminal leave the directory alone and every edit count even. -/

namespace Sys2Proof.Machine

open Sys2Proof
-- One proof after the other: proofs that wait for one another hold a thread each, and its memory.
set_option Elab.async false

section Events

variable {e : Mode} {i : StationId} {f : Floor}

/-! ### Line events -/

theorem chargeSession_tidy (entry : FundingEntry) (s : Sheet) : TidyStep f (chargeSession e i entry s f) := by
  unfold chargeSession
  dsimp only
  split
  · exact (onStore_tidy (editAccount_tidy ..)).trans (onStation_tidy.trans fundingCheck_tidy)
  · exact onStation_tidy.trans fundingCheck_tidy

theorem chargeStray_tidy (s : Sheet) : TidyStep f (chargeStray e i s f) := by
  unfold chargeStray
  dsimp only
  split
  · exact onStation_tidy.trans (closeStray_tidy _)
  · exact onStation_tidy

theorem chargeSheet_tidy (s : Sheet) : TidyStep f (chargeSheet e i s f) := by
  unfold chargeSheet
  split
  · exact chargeSession_tidy ..
  · exact chargeStray_tidy _

theorem placeSheet_tidy (s : Sheet) : TidyStep f (placeSheet e i s f) := by
  unfold placeSheet
  dsimp only
  split_ifs
  · exact onStation_tidy
  · exact loseSheet_tidy _
  · exact jamCause_tidy ..

theorem feedInService_tidy (cls : SheetClass) : TidyStep f (feedInService e i cls f) := by
  have fed : TidyStep f (placeSheet e i (sheetOf e i cls f) (chargeSheet e i (sheetOf e i cls f) (noteFeed e i cls f))) :=
    onStation_tidy.trans ((chargeSheet_tidy _).trans (placeSheet_tidy _))
  unfold feedInService
  dsimp only
  split
  · exact fed.trans (closeStray_tidy _)
  · exact fed

theorem feedTaken_tidy (size colour sides : Bool) : TidyStep f (feedTaken i size colour sides e f) := by
  unfold feedTaken feedEvent
  dsimp only
  split_ifs
  · exact onStation_tidy.trans (feedInService_tidy _)
  · exact onStation_tidy
  · exact .refl f

theorem showDelivery_tidy : TidyStep f (showDelivery i f) := by
  unfold showDelivery
  dsimp only
  split
  · exact offer_tidy _
  · exact offer_tidy _

theorem deliverSheet_tidy (s : Sheet) : TidyStep f (deliverSheet i s f) := by
  unfold deliverSheet
  split
  · exact onStation_tidy
  · exact (onSheetAccount_tidy ..).trans (onStation_tidy.trans showDelivery_tidy)

theorem exitInPath_tidy (s : Sheet) (rest : List Sheet) : TidyStep f (exitInPath e i s rest f) := by
  unfold exitInPath
  exact onStation_tidy.trans ((deliverSheet_tidy _).trans onStation_tidy)

theorem deliverLate_tidy (l : LostSheet) : TidyStep f (deliverLate e i l f) := by
  have session : TidyStep f (showDelivery i ((onSheetAccount i l.sheet
      (·.addDelivered l.sheet.cls (facesOf l.sheet.cls)) f).onStation i
        (Station.onContext fun c => (c.recover l).deliver l.sheet.cls))) :=
    (onSheetAccount_tidy ..).trans (onStation_tidy.trans showDelivery_tidy)
  unfold deliverLate
  split
  · exact onStation_tidy
  all_goals
    dsimp only
    split
    · exact session.trans fundingCheck_tidy
    · exact session

theorem exitInService_tidy : TidyStep f (exitInService e i f) := by
  unfold exitInService
  dsimp only
  split
  · exact exitInPath_tidy ..
  · split
    · exact onStation_tidy.trans (deliverLate_tidy _)
    · exact onStation_tidy
  · exact onStation_tidy

theorem exitTaken_tidy : TidyStep f (exitTaken i e f) := by
  unfold exitTaken exitEvent
  dsimp only
  split_ifs
  · exact onStation_tidy.trans exitInService_tidy
  · exact onStation_tidy
  · exact .refl f

theorem faultTaken_tidy (active : Bool) : TidyStep f (faultTaken i active e f) := by
  unfold faultTaken faultEvent
  dsimp only
  split_ifs
  · exact onStation_tidy
  · exact onStation_tidy.trans (jamCause_tidy ..)
  · exact onStation_tidy.trans onStation_tidy
  · exact onStation_tidy
  · exact .refl f

theorem inactiveTaken_tidy (line : PulseLine) : TidyStep f (inactiveTaken i line e f) := by
  cases line <;> unfold inactiveTaken <;> dsimp only <;> split
  · exact onStation_tidy
  · exact .refl f
  · exact onStation_tidy
  · exact .refl f

/-! ### Timers and jams -/

theorem transitDue_tidy : TidyStep f (transitDue i e f) := by
  unfold transitDue
  split
  · exact jamCause_tidy ..
  · exact .refl f

theorem quietDue_tidy : TidyStep f (quietDue i e f) := by
  unfold quietDue
  dsimp only
  split
  · exact enterSettling_tidy
  · exact .refl f

theorem lowDue_tidy : TidyStep f (lowDue i e f) := by
  unfold lowDue
  dsimp only
  split
  · exact endIfLive_tidy _
  · exact .refl f

theorem graceDue_tidy : TidyStep f (graceDue i e f) := by
  unfold graceDue
  dsimp only
  split_ifs
  · exact endSession_tidy _
  · exact giveUpFunding_tidy
  · exact .refl f
  · exact .refl f

theorem authDue_tidy : TidyStep f (authDue i e f) := by
  unfold authDue
  dsimp only
  split_ifs
  · exact cancelAuth_tidy.trans ((refusal_tidy ..).trans giveUpFunding_tidy)
  · exact cancelAuth_tidy.trans (onStation_tidy.trans (offer_tidy _))
  · exact .refl f

theorem silenceDue_tidy : TidyStep f (silenceDue i e f) := by
  unfold silenceDue
  dsimp only
  split
  · exact linkDown_tidy
  · exact .refl f

theorem busyDue_tidy : TidyStep f (busyDue i e f) := by
  unfold busyDue
  dsimp only
  split
  · exact linkDown_tidy
  · exact .refl f

theorem enterRecovery_tidy : TidyStep f (enterRecovery e i f) := by
  unfold enterRecovery
  exact onStation_tidy.trans ((offer_tidy _).trans fundingCheck_tidy)

theorem afterJam_tidy : TidyStep f (afterJam e i f) := by
  unfold afterJam endAtJamLimit
  dsimp only
  split
  · split
    · exact onStation_tidy.trans ((endSession_tidy _).trans onStation_tidy)
    · exact enterRecovery_tidy
  · exact onStation_tidy
  · exact onStation_tidy
  all_goals
    split
    · exact onStation_tidy.trans (enterOut_tidy _)
    · exact onStation_tidy.trans reachIdle_tidy

theorem jamDue_tidy : TidyStep f (jamDue i e f) := by
  unfold jamDue
  split
  · exact afterJam_tidy
  · exact .refl f

theorem recoveryDue_tidy : TidyStep f (recoveryDue i e f) := by
  unfold recoveryDue
  dsimp only
  split
  · exact onStation_tidy
  · exact .refl f
theorem gapDue_tidy : TidyStep f (gapDue i e f) := by
  unfold gapDue
  dsimp only
  split
  · exact onStation_tidy
  · exact .refl f

theorem tidy_terminal (e : Mode) (i : StationId) : Terminal e i TidyStep where
  refl := .refl
  trans := .trans
  link _ _ := onStation_tidy
  notice _ _ _ := stationNotice_tidy ..
  refusal _ _ _ _ := refusal_tidy ..
  cardIn _ _ := sessionCardIn_tidy _
  cardOut _ := sessionCardOut_tidy
  keyEnd _ := sessionKeyEnd_tidy
  keyBalance _ := sessionKeyBalance_tidy

end Events

/-- Every event of the station units leaves the directory alone and every edit count even. -/
theorem unitWork_tidy {c : Instr} {work : Mode → Floor → Floor} (h : unitWork c = some work) (e : Mode) (f : Floor) :
    TidyStep f (work e f) := by
  cases c <;> cases h
  case feedEvent => exact feedTaken_tidy ..
  case exitEvent => exact exitTaken_tidy
  case faultChange => exact faultTaken_tidy _
  case takenChange => exact inactiveTaken_tidy _
  case transitCheck => exact transitDue_tidy
  case quietNotice => exact quietDue_tidy
  case lowTimerExpiry => exact lowDue_tidy
  case linkLossGraceExpiry => exact graceDue_tidy
  case authorizationTimerExpiry => exact authDue_tidy
  case silenceTimerExpiry => exact silenceDue_tidy
  case busyTimerExpiry => exact busyDue_tidy
  case gapLimit => exact gapDue_tidy
  case jamClears => exact jamDue_tidy
  case recoveryTimeout => exact recoveryDue_tidy
  case waitingReportWritten => exact moveQueue_tidy _
  case frameSent => exact onStation_tidy
  case nextFrameStart => exact onStation_tidy
  case byteError => exact characterFailed_rel (tidy_terminal e _) ..
  case invalidFrame => exact onStation_tidy
  case hello => exact receiveFrame_rel (tidy_terminal e _) _
  case tick => exact receiveFrame_rel (tidy_terminal e _) _
  case cardIn => exact receiveFrame_rel (tidy_terminal e _) _
  case cardOut => exact receiveFrame_rel (tidy_terminal e _) _
  case keyEnd => exact receiveFrame_rel (tidy_terminal e _) _
  case keyBalance => exact receiveFrame_rel (tidy_terminal e _) _
  case byteReceived => exact characterReceived_rel (tidy_terminal e _) _
  case characterSent => exact onStation_tidy
  case busyLevelChange => exact onStation_tidy

end Sys2Proof.Machine
end

section
/-! SUPPORT. Every order but the card orders leaves the directory alone and every edit count even. -/

namespace Sys2Proof.Machine

open Sys2Proof
-- One proof after the other: proofs that wait for one another hold a thread each, and its memory.
set_option Elab.async false

section Orders

variable {e : Mode} {i : StationId} {slot : Nat} {f : Floor}

/-! ### Account orders -/

theorem accountDone_tidy {n : Nat} {w : AccountWork} (h : TidyStep f w.floor) : TidyStep f (accountDone e n w).floor := by
  unfold accountDone
  dsimp only
  split
  · exact h.trans (reevaluate_tidy _)
  · exact h

theorem accountWork_tidy (n : Nat) (r : Result) (gains : Bool) (change : Account → Account) :
    TidyStep f (accountDone e n (accountWork f n r gains change)).floor := by
  have work : TidyStep f (f.onStore fun m => m.editAccount n change) := onStore_tidy (editAccount_tidy ..)
  exact accountDone_tidy (w := accountWork f n r gains change) work

theorem accountOrder_tidy {valid sparesHouse : Bool} {body : Nat → Account → Executed} (h : ∀ n a, TidyStep f (body n a).floor) :
    TidyStep f (accountOrder valid sparesHouse body e slot f).floor := by
  unfold accountOrder
  dsimp only
  split_ifs
  · exact .refl f
  · exact .refl f
  · exact .refl f
  · exact .refl f
  · exact h _ _

theorem runningAccountOrder_tidy {body : Nat → Account → Executed} (h : ∀ n a, TidyStep f (body n a).floor) :
    TidyStep f (runningAccountOrder body e slot f).floor := by
  unfold runningAccountOrder
  split
  · exact .refl f
  · exact accountOrder_tidy h

theorem accountOpenOrder_tidy : TidyStep f (accountOpenOrder e slot f).floor := by
  refine accountOrder_tidy fun n a => ?_
  split
  · exact accountWork_tidy ..
  · exact .refl f

theorem accountCreditOrder_tidy : TidyStep f (accountCreditOrder e slot f).floor := by
  refine accountOrder_tidy fun n a => ?_
  split
  · exact .refl f
  · exact accountWork_tidy ..

theorem accountDebitOrder_tidy : TidyStep f (accountDebitOrder e slot f).floor := by
  refine accountOrder_tidy fun n a => ?_
  split
  · exact .refl f
  · exact accountWork_tidy ..

theorem accountLimitOrder_tidy : TidyStep f (accountLimitOrder e slot f).floor := by
  refine accountOrder_tidy fun n a => ?_
  split_ifs
  · exact .refl f
  · exact .refl f
  · exact accountWork_tidy ..

theorem accountFreezeOrder_tidy : TidyStep f (accountFreezeOrder e slot f).floor := by
  refine runningAccountOrder_tidy fun n a => ?_
  split_ifs
  · exact .refl f
  · exact accountWork_tidy ..
  · exact .refl f

theorem accountThawOrder_tidy : TidyStep f (accountThawOrder e slot f).floor := by
  refine runningAccountOrder_tidy fun n a => ?_
  split_ifs
  · exact .refl f
  · exact accountWork_tidy ..
  · exact .refl f

theorem accountCloseOrder_tidy : TidyStep f (accountCloseOrder e slot f).floor := by
  refine runningAccountOrder_tidy fun n a => ?_
  unfold closeAccountOrder
  split_ifs with _ _ full
  · exact .refl f
  · exact .refl f
  · exact .refl f
  · exact accountDone_tidy (writeClose_tidy _ _ (fits_of_mayWrite (by simpa using full)))
  · exact accountWork_tidy ..

/-! ### PERIOD CLOSE -/

theorem periodBody_size (n position size : Nat) (a : Account) : layoutSize (periodBody n position size a) = 56 := by
  simp [periodBody, faces_toList, layoutSize]

/-- A batch whose reports all fit is written in the stream (R161, R176, R179). -/
theorem closePeriods_tidy {accounts : List Nat} (size position : Nat) (good : goodOffset f.rptWr) (read : e.rptRd < 8192)
    (fit : fitsAll (freeRoom f.rptWr e.rptRd) f.rptWr 64 accounts.length = true) :
    TidyStep f (closePeriods e size position accounts f) := by
  induction accounts generalizing f position with
  | nil => exact .refl f
  | cons n rest ih =>
    simp only [List.length_cons, fitsAll, Bool.and_eq_true, decide_eq_true_eq] at fit
    obtain ⟨first, later⟩ := fit
    have one : TidyStep f (closeOnePeriod e n position size f) := by
      unfold closeOnePeriod
      refine (writeReport_tidy _ _ (by rw [periodBody_size]) ?_).trans (onStore_tidy (editAccount_tidy ..))
      rw [periodBody_size]
      exact decide_eq_true first
    have after : (closeOnePeriod e n position size f).rptWr = offsetAfter f.rptWr 64 := by
      rw [closeOnePeriod, onStore_rptWr, writeReport_rptWr, periodBody_size]
    rw [← (freeRoom_offsetAfter good read first).1, ← after] at later
    exact one.trans (ih _ (one.offset good) later)

theorem periodBatch_tidy (accounts : List Nat) (good : goodOffset f.rptWr) (read : e.rptRd < 8192) :
    TidyStep f (periodBatch e accounts f).floor := by
  unfold periodBatch
  split
  · next fit =>
    simp only [Bool.and_eq_true] at fit
    exact closePeriods_tidy _ _ good read fit.2
  · exact .refl f

theorem periodCloseOrder_tidy (good : goodOffset f.rptWr) (read : e.rptRd < 8192) :
    TidyStep f (periodCloseOrder e slot f).floor := by
  unfold periodCloseOrder
  dsimp only
  split_ifs
  · exact .refl f
  · exact periodBatch_tidy _ good read
  · exact .refl f
  · exact .refl f
  · exact periodBatch_tidy _ good read

/-! ### Station orders and PRICE SWITCH -/

theorem stationOrder_tidy {body : Mode → StationId → Nat → Floor → Executed} (h : ∀ i, TidyStep f (body e i slot f).floor) :
    TidyStep f (stationOrder body e slot f).floor := by
  unfold stationOrder
  split
  · exact .refl f
  · split
    · exact .refl f
    · exact h _

theorem firstGrant_tidy (ok : Result) (g : Grant) : TidyStep f (firstGrant e i ok g f).floor := by
  unfold firstGrant
  dsimp only
  split_ifs
  · exact (refusal_tidy ..).trans giveUpFunding_tidy
  · exact (refusal_tidy ..).trans giveUpFunding_tidy
  · exact (refusal_tidy ..).trans giveUpFunding_tidy
  · exact openSession_tidy _

theorem incrementGrant_tidy (ok : Result) (g : Grant) : TidyStep f (incrementGrant e i ok g f).floor := by
  unfold incrementGrant
  dsimp only
  split
  · exact onStation_tidy.trans (offer_tidy _)
  · exact onStation_tidy.trans fundingCheck_tidy

theorem judgeAnswer_tidy : TidyStep f (judgeAnswer e i slot f).floor := by
  unfold judgeAnswer
  dsimp only
  split
  · exact .refl f
  · split
    · exact .refl f
    · split
      · exact cancelAuth_tidy.trans (firstGrant_tidy ..)
      · exact cancelAuth_tidy.trans (incrementGrant_tidy ..)

theorem switchGuard_tidy (p : Page) : TidyStep f (switchGuard e p i f) := by
  unfold switchGuard
  dsimp only
  split
  · exact onStation_tidy.trans fundingCheck_tidy
  · exact onStation_tidy

theorem priceSwitchOrder_tidy : TidyStep f (priceSwitchOrder e slot f).floor := by
  unfold priceSwitchOrder
  dsimp only
  split
  · exact .refl f
  · dsimp only
    exact forStations_tidy fun _ _ => switchGuard_tidy _

theorem takeOut_tidy : TidyStep f (takeOut e i f) := by
  unfold takeOut
  dsimp only
  split_ifs
  · exact enterOut_tidy _
  · exact (refusal_tidy ..).trans (cancelAuth_tidy.trans (onStation_tidy.trans (enterOut_tidy _)))
  · exact onStation_tidy.trans (endIfLive_tidy _)

theorem judgeOut_tidy : TidyStep f (judgeOut e i slot f).floor := by
  unfold judgeOut
  split
  · exact .refl f
  · exact takeOut_tidy

theorem takeProfile_tidy : TidyStep f (takeProfile e i f) := by
  unfold takeProfile
  exact onStation_tidy.trans (applySerial_tidy _)

theorem takeIn_tidy : TidyStep f (takeIn e i f) := by
  have entered : TidyStep f (stationNotice e i .entered .none ((takeProfile e i
      (f.onStore fun m => m.countClamps (m.profile i).clampCount)).onStation i Station.inServiceAgain)) :=
    (onStore_tidy (countClamps_tidy _)).trans (takeProfile_tidy.trans (onStation_tidy.trans (stationNotice_tidy ..)))
  unfold takeIn
  dsimp only
  split
  · exact entered.trans (jamCause_tidy ..)
  · exact entered

theorem judgeIn_tidy : TidyStep f (judgeIn e i slot f).floor := by
  unfold judgeIn
  split
  · exact takeIn_tidy
  · exact .refl f

theorem stationInOrder_tidy : TidyStep f (stationInOrder e slot f).floor := by
  unfold stationInOrder
  split
  · exact .refl f
  · exact stationOrder_tidy fun _ => judgeIn_tidy

theorem judgeAck_tidy : TidyStep f (judgeAck e i slot f).floor := by
  unfold judgeAck
  split
  · dsimp only
    exact onStation_tidy
  · exact .refl f

theorem judgeEnd_tidy : TidyStep f (judgeEnd e i slot f).floor := by
  unfold judgeEnd
  dsimp only
  split
  · dsimp only
    exact endSession_tidy _
  · exact (refusal_tidy ..).trans giveUpFunding_tidy
  all_goals exact .refl f

end Orders

/-- Every order but the card orders leaves the directory alone and every edit count even. -/
theorem orderWork_tidy {c : Instr} {taken : Nat → Bool} {body : Mode → Nat → Floor → Executed}
    (h : orderWork c = some (taken, body)) (put : c ≠ .cardPut) (drop : c ≠ .cardDrop) {e : Mode} {f : Floor}
    (good : goodOffset f.rptWr) (read : e.rptRd < 8192) (slot : Nat) : TidyStep f (body e slot f).floor := by
  cases c <;> cases h
  case accountOpen => exact accountOpenOrder_tidy
  case accountCredit => exact accountCreditOrder_tidy
  case accountDebit => exact accountDebitOrder_tidy
  case accountLimit => exact accountLimitOrder_tidy
  case accountFreeze => exact accountFreezeOrder_tidy
  case accountThaw => exact accountThawOrder_tidy
  case accountClose => exact accountCloseOrder_tidy
  case periodClose => exact periodCloseOrder_tidy good read
  case cardPut => exact absurd rfl put
  case cardDrop => exact absurd rfl drop
  case authAnswer => exact stationOrder_tidy fun _ => judgeAnswer_tidy
  case priceSwitch => exact priceSwitchOrder_tidy
  case stationOut => exact stationOrder_tidy fun _ => judgeOut_tidy
  case stationIn => exact stationInOrder_tidy
  case jamAck => exact stationOrder_tidy fun _ => judgeAck_tidy
  case sessionEnd => exact stationOrder_tidy fun _ => judgeEnd_tidy
  case badKind => exact .refl f

end Sys2Proof.Machine
end

section
/-! PROOF. Law L6 and the even edit counts are kept by every command: the work of the units and of most orders leaves both alone, the
card orders keep a sound directory sound, and a passed start check finds the one and makes the other. -/

namespace Sys2Proof.Machine

open Sys2Proof
-- One proof after the other: proofs that wait for one another hold a thread each, and its memory.
set_option Elab.async false

/-! ### The laws of one step -/

/-- What a step keeps of law L6 and of the even edit counts. -/
structure KeepsTidy (s t : State) : Prop where
  directory : DirectoryLaw s → DirectoryLaw t
  even : DirectoryLaw s → EvenLaw s → EvenLaw t

section Steps

variable {s t : State}

theorem TidyStore.sound {m m' : Memory} (h : TidyStore m m') (sound : m.directoryFault = none) : m'.directoryFault = none :=
  directoryFault_congr sound fun a place => h.directory a (place.imp_left fun count => by
    simp only [inHeaderField, inBytes] at *
    omega)

theorem TidyStore.even_at {m m' : Memory} (h : TidyStore m m') {n : Nat} (hn : n < 1024)
    (even : isOdd (m.account n).editCount = false) : isOdd (m'.account n).editCount = false := by
  have odd := h.odd n hn
  rw [even] at odd
  simpa using odd

theorem TidyStore.even {m m' : Memory} (h : TidyStore m m') (even : EvenCounts m) : EvenCounts m' := fun n hn =>
  h.even_at hn (even n hn)

/-- The laws hold nothing of a part that is not RUNNING or STOPPING. -/
theorem keepsTidy_of_idle (idle : t.mode.runs = false) : KeepsTidy s t where
  directory _ runs := by rw [idle] at runs; cases runs
  even _ _ runs := by rw [idle] at runs; cases runs

/-- A step between states that run keeps the laws when its change of the store does. -/
theorem keepsTidy_of_store (run : t.mode.runs = true → s.mode.runs = true)
    (sound : s.mode.runs = true → s.floor.store.directoryFault = none → t.floor.store.directoryFault = none)
    (even : s.mode.runs = true → s.floor.store.directoryFault = none → EvenCounts s.floor.store → EvenCounts t.floor.store) :
    KeepsTidy s t where
  directory law := by
    rw [directoryLaw_iff] at law ⊢
    exact fun runs => sound (run runs) (law (run runs))
  even law counts runs := even (run runs) ((directoryLaw_iff s).mp law (run runs)) (counts (run runs))

theorem keepsTidy_of_tidy (offset : OffsetLaw s) (run : t.mode.runs = true → s.mode.runs = true)
    (h : TidyStep s.floor t.floor) : KeepsTidy s t :=
  have store := h.store ⟨offset.1, offset.2.1⟩
  keepsTidy_of_store run (fun _ => store.sound) fun _ _ => store.even

theorem KeepsTidy.refl (s : State) : KeepsTidy s s := ⟨id, fun _ => id⟩

/-! ### Card orders -/

/-- A card edit changes no account. -/
theorem Rewritten.account {m m' : Memory} {k count : Nat} {ds : List DirEntry} (h : Rewritten m m' k ds count) {n : Nat}
    (hn : n < 1024) : m'.account n = m.account n :=
  Memory.account_congr fun a low high => by
    have place := inAccount_inAccounts hn ⟨low, high⟩
    refine h.apart a ?_ ?_ ?_ <;>
      simp only [inHeaderField, inHeaderRest, inDirectory, inAccounts, inBytes, Config.headerBase, Config.directoryBase,
        Config.accountBase] at * <;> omega

theorem Rewritten.even {m m' : Memory} {k count : Nat} {ds : List DirEntry} (h : Rewritten m m' k ds count)
    (even : EvenCounts m) : EvenCounts m' := fun n hn => by rw [h.account hn]; exact even n hn

/-- An entry that passes the tests of R65 has a card number. -/
theorem named_of_passes {d : DirEntry} (passes : d.failingTest = none) : 0 < d.number := by
  by_contra zero
  simp [DirEntry.failingTest, show d.number = 0 by omega] at passes

/-- A carried out CARD PUT keeps a sound directory sound, and every account (R66). -/
theorem putEntry_keeps {e : Mode} {d : DirEntry} {f : Floor} (fits : d.Fits) (named : 0 < d.number)
    (sound : f.store.directoryFault = none) :
    (putEntry e d f).floor.store.directoryFault = none ∧
      (EvenCounts f.store → EvenCounts (putEntry e d f).floor.store) := by
  have small := ((directoryFault_none_iff _).mp sound).1
  unfold putEntry
  dsimp only
  split
  · next k found =>
    exact ⟨(replaceEntry_placed sound fits found).sound,
      (replaceEntry_rewritten f.store d (Nat.lt_of_lt_of_le (findIdx_number found).1 small)).even⟩
  · next absent =>
    rw [findIdx_number_none] at absent
    split
    · next room =>
      have ascends := ((directoryFault_none_iff _).mp sound).2
      exact ⟨(insertEntry_placed sound fits named absent room).sound,
        (insertEntry_rewritten f.store d (insertIndex_splits ascends absent).1 room).even⟩
    · exact ⟨sound, id⟩

theorem cardPutOrder_keeps {e : Mode} {f : Floor} (slot : Nat) (sound : f.store.directoryFault = none) :
    (cardPutOrder e slot f).floor.store.directoryFault = none ∧
      (EvenCounts f.store → EvenCounts (cardPutOrder e slot f).floor.store) := by
  unfold cardPutOrder
  dsimp only
  split
  · exact ⟨sound, id⟩
  · next passes =>
    split
    · exact ⟨sound, id⟩
    · exact putEntry_keeps (paramEntry_fits ..) (named_of_passes passes) sound

theorem cardDropOrder_keeps {e : Mode} {f : Floor} (slot : Nat) (sound : f.store.directoryFault = none) :
    (cardDropOrder e slot f).floor.store.directoryFault = none ∧
      (EvenCounts f.store → EvenCounts (cardDropOrder e slot f).floor.store) := by
  have small := ((directoryFault_none_iff _).mp sound).1
  unfold cardDropOrder
  dsimp only
  split
  · exact ⟨sound, id⟩
  · split
    · next k found =>
      exact ⟨(removeEntry_dropped sound found).1, (removeEntry_rewritten f.store (findIdx_number found).1 small).even⟩
    · exact ⟨sound, id⟩

/-! ### Every order -/

/-- The end of an order changes its slot alone (R174). -/
theorem finishOrder_tidy (s : State) (x : Executed) : TidyStep x.floor (finishOrder s x).floor :=
  (onStore_tidy (writeReply_tidy ..)).trans ((raise_tidy _).trans (settle_tidy _))

theorem takeOrder_keepsTidy {c : Instr} {taken : Nat → Bool} {body : Mode → Nat → Floor → Executed}
    (work : orderWork c = some (taken, body)) (offset : OffsetLaw s) : KeepsTidy s (takeOrder taken body s) := by
  unfold takeOrder
  split
  · have good : goodOffset s.floor.rptWr := ⟨offset.1, offset.2.1⟩
    -- A card order keeps the laws by its own work, and the answer keeps them by `finishOrder_tidy`.
    have card : ∀ x : Executed, x.floor.rptWr = s.floor.rptWr → (s.floor.store.directoryFault = none →
        x.floor.store.directoryFault = none ∧ (EvenCounts s.floor.store → EvenCounts x.floor.store)) →
        KeepsTidy s (finishOrder s x) := fun x same keeps => by
      have finish := (finishOrder_tidy s x).store (same ▸ good)
      exact keepsTidy_of_store id (fun _ sound => finish.sound (keeps sound).1)
        fun _ sound even => finish.even ((keeps sound).2 even)
    by_cases put : c = .cardPut
    · subst put
      cases work
      refine card _ ?_ (cardPutOrder_keeps _)
      unfold cardPutOrder putEntry
      dsimp only
      split
      · rfl
      · split
        · rfl
        · split
          · rfl
          · split <;> rfl
    · by_cases drop : c = .cardDrop
      · subst drop
        cases work
        refine card _ ?_ (cardDropOrder_keeps _)
        unfold cardDropOrder
        dsimp only
        split
        · rfl
        · split <;> rfl
      · exact keepsTidy_of_tidy offset id ((orderWork_tidy work put drop good offset.2.2.2 _).trans (finishOrder_tidy ..))
  · exact .refl s

/-! ### Start, stop and the clock -/

section Runs

variable {e : Mode} {i : StationId} {f : Floor}

theorem atRunning_tidy : TidyStep f (atRunning e i f) := by
  unfold atRunning
  dsimp only
  split_ifs
  · exact closeStray_tidy _
  · exact jamCause_tidy ..
  · exact .refl f

theorem stopStation_tidy : TidyStep f (stopStation e i f) := by
  unfold stopStation
  dsimp only
  split_ifs
  · exact endSession_tidy _
  · exact (refusal_tidy ..).trans giveUpFunding_tidy
  · exact closeStray_tidy _
  · exact .refl f

theorem stationStopped_tidy : TidyStep f (stationStopped i f) := answerNextCard_tidy.trans onStation_tidy

end Runs

theorem startAccount_tidy {m : Memory} (n : Nat) : TidyStore m (m.startAccount n) :=
  (editAccount_tidy ..).trans (closeAccount_tidy n)

theorem startAccounts_tidy (l : List Nat) (m : Memory) : TidyStore m (l.foldl Memory.startAccount m) := by
  induction l generalizing m with
  | nil => exact .refl m
  | cons n l ih => exact (startAccount_tidy n).trans (ih _)

/-- The start work leaves an even edit count in the record of every account it goes through (R148). -/
theorem startAccounts_even {l : List Nat} {m : Memory} {n : Nat} (hn : n < 1024) (mem : n ∈ l) :
    isOdd ((l.foldl Memory.startAccount m).account n).editCount = false := by
  induction l generalizing m with
  | nil => cases mem
  | cons k l ih =>
    rcases List.mem_cons.mp mem with rfl | later
    · exact (startAccounts_tidy l (m.startAccount n)).even_at hn (isOdd_closeAccount hn)
    · exact ih later

/-- The floor after the header fields and the accounts of a passed start (R148, R169). -/
def State.startFloor (s : State) : Floor :=
  let enabled := fun i => s.floor.store.profileEnabled i
  let clamps := accountClamps s.floor.store + ((stationIds.filter enabled).map fun i => (s.floor.store.profile i).clampCount).sum
  let f := s.floor.onStore fun m => m.editHeader fun h =>
    (((h.setHeader 24 1 0).setHeader 25 1 0).setHeader 26 2 0).setHeader 6 2 (min clamps Config.max16)
  f.onStore fun m => accountNumbers.foldl Memory.startAccount m

theorem startFloor_tidy (s : State) : TidyStep s.floor s.startFloor := by
  unfold State.startFloor
  dsimp only
  refine (onStore_tidy (editHeader_tidy ?_)).trans (onStore_tidy (startAccounts_tidy ..))
  exact (setHeader_tidy _ (by omega) (by omega)).trans ((setHeader_tidy _ (by omega) (by omega)).trans
    ((setHeader_tidy _ (by omega) (by omega)).trans (setHeader_tidy _ (by omega) (by omega))))

theorem startFloor_even (s : State) : EvenCounts s.startFloor.store := fun n hn => by
  have listed : n ∈ accountNumbers := by
    rw [accountNumbers, List.mem_range]
    exact hn
  rw [State.startFloor, onStore_store]
  exact startAccounts_even hn listed

/-- What a passed start does after the accounts (R169). -/
theorem passStart_tidy (s : State) : TidyStep s.startFloor (passStart s).floor := by
  have profiles : ∀ f, TidyStep f (forStations
      (fun i f => if s.floor.store.profileEnabled i then takeProfile s.mode i f else f) f) := fun f => by
    refine forStations_tidy fun i f => ?_
    split
    · exact takeProfile_tidy
    · exact .refl f
  have services : ∀ f, TidyStep f (forStations
      (fun i f => if s.floor.store.profileEnabled i then f.onStation i Station.inServiceAgain else enterOut s.mode i .staff f) f) :=
    fun f => by
      refine forStations_tidy fun i f => ?_
      split
      · exact onStation_tidy
      · exact enterOut_tidy _
  have runs : ∀ f, TidyStep f (settle { s.mode with run := .running } s.floor
      (forStations (atRunning { s.mode with run := .running }) (f.raise .run))) := fun f =>
    (raise_tidy _).trans ((forStations_tidy fun _ _ => atRunning_tidy).trans (settle_tidy _))
  exact ((profiles s.startFloor).trans (services _)).trans (runs _)

/-- A start check that passes has found the directory sound (R168). -/
theorem directoryFault_of_startRefusal {m : Memory} {p : Page} (passes : startRefusal m p = none) : m.directoryFault = none := by
  unfold startRefusal at passes
  split at passes
  · cases passes
  · split at passes
    · cases passes
    · cases passes
    · next sound => exact sound

theorem requestRun_keepsTidy (offset : OffsetLaw s) : KeepsTidy s (requestRun s) := by
  unfold requestRun
  split
  · next stopped =>
    split
    · exact keepsTidy_of_idle (by simp [refuseStart, Mode.runs, stopped])
    · next passes =>
      have good : goodOffset s.floor.rptWr := ⟨offset.1, offset.2.1⟩
      have rest := (passStart_tidy s).store ((startFloor_tidy s).offset good)
      have sound := ((startFloor_tidy s).store good).sound (directoryFault_of_startRefusal passes)
      exact ⟨fun _ => (directoryLaw_iff _).mpr fun _ => rest.sound sound, fun _ _ _ => rest.even (startFloor_even s)⟩
  · exact .refl s

theorem requestStop_keepsTidy (offset : OffsetLaw s) : KeepsTidy s (requestStop s) := by
  unfold requestStop
  split
  · next running =>
    refine keepsTidy_of_tidy offset (fun _ => by simp [Mode.runs, running]) ?_
    exact (raise_tidy _).trans ((forStations_tidy fun _ _ => stopStation_tidy).trans (settle_tidy _))
  · exact .refl s

theorem requestSoftReset_keepsTidy : KeepsTidy s (requestSoftReset s) := by
  unfold requestSoftReset
  split
  · exact .refl s
  · exact keepsTidy_of_idle rfl

theorem clock_keepsTidy (offset : OffsetLaw s) (ticked : execPartTimeTick s = .next t) : KeepsTidy s t := by
  unfold execPartTimeTick at ticked
  dsimp only at ticked
  split at ticked <;> cases ticked
  · next clearing => exact keepsTidy_of_idle (by simp [Mode.runs, clearing])
  · have header : TidyStep s.floor (s.floor.onStore fun m => m.editHeader fun h =>
        h.setHeader 12 4 (s.mode.partTime + 1).toNat) := onStore_tidy (editHeader_tidy (setHeader_tidy _ (by omega) (by omega)))
    exact keepsTidy_of_tidy offset id (header.trans (.of_same rfl rfl))

/-! ### The host port -/

theorem hostWrite_keepsTidy {change : State → State} (h : KeepsTidy s (change s)) : KeepsTidy s (s.hostWrite change) := by
  unfold State.hostWrite
  split
  · exact .refl s
  · exact h

theorem writeOrdpost_keepsTidy (offset : OffsetLaw s) (v : Half) : KeepsTidy s (writeOrdpost v s) := by
  unfold writeOrdpost
  split
  · exact keepsTidy_of_tidy offset id (.refl _)
  · exact keepsTidy_of_tidy offset id (raise_tidy _)

theorem writeRptrd_keepsTidy (offset : OffsetLaw s) (v : Half) : KeepsTidy s (writeRptrd v s) := by
  unfold writeRptrd
  split
  · exact keepsTidy_of_tidy offset id (.refl _)
  · refine keepsTidy_of_tidy offset id ?_
    exact (onStore_tidy (editHeader_tidy (setHeader_tidy _ (by omega) (by omega)))).trans (raise_tidy _)

theorem writeRunctl_keepsTidy (offset : OffsetLaw s) (v : Half) : KeepsTidy s (writeRunctl v s) := by
  unfold writeRunctl
  split_ifs
  · exact requestSoftReset_keepsTidy
  · exact requestRun_keepsTidy offset
  · exact requestStop_keepsTidy offset

theorem writeIrqflag_keepsTidy (offset : OffsetLaw s) (v : Half) : KeepsTidy s (writeIrqflag v s) :=
  keepsTidy_of_tidy offset id (.of_same rfl rfl)

theorem writeRegister_keepsTidy (offset : OffsetLaw s) (reg : BitVec 3) (high : Bool) (v : Half) :
    KeepsTidy s (writeRegister reg high v s) := by
  unfold writeRegister
  split_ifs
  · exact .refl s
  · exact writeRunctl_keepsTidy offset v
  · exact writeOrdpost_keepsTidy offset v
  · exact writeRptrd_keepsTidy offset v
  · exact writeIrqflag_keepsTidy offset v
  · exact keepsTidy_of_tidy offset id (.refl _)
  · exact .refl s

/-- Directory, header and accounts belong to the part while it runs (R164). -/
theorem partOwns_directory {e : Mode} {a : Nat} (runs : e.runs = true) (place : Config.headerBase ≤ a)
    (below : a < Config.scratchBase) : partOwns e (regionOf a) = true := by
  have region : regionOf a = .header ∨ regionOf a = .stationRecords ∨ regionOf a = .directory ∨ regionOf a = .accounts := by
    unfold regionOf
    rw [if_neg, if_neg, if_neg, if_neg, if_neg]
    · split_ifs <;> simp
    all_goals
      simp only [Config.headerBase, Config.streamBase, Config.profileBase, Config.pageABase, Config.pageBBase] at *
      omega
  rcases region with region | region | region | region <;> simp only [region, partOwns, runs]

theorem hostStore_keepsTidy (offset : OffsetLaw s) (word : BitVec 16) (v : Half) :
    KeepsTidy s (hostStore (2 * word.toNat) v s) := by
  unfold hostStore
  split
  · refine keepsTidy_of_tidy offset id ?_
    exact (onStore_tidy (editHeader_tidy ((setHeader_tidy _ (by omega) (by omega)).trans
      (setHeader_tidy _ (by omega) (by omega))))).trans (raise_tidy _)
  · next free =>
    by_cases runs : s.mode.runs = true
    · have apart : 2 * word.toNat < Config.headerBase ∨ Config.scratchBase ≤ 2 * word.toNat := by
        by_contra inside
        rw [not_or, Nat.not_lt, Nat.not_le] at inside
        exact free (partOwns_directory runs inside.1 inside.2)
      refine keepsTidy_of_tidy offset id ?_
      show TidyStep s.floor (s.floor.writeWord _ v)
      unfold Floor.writeWord
      split
      · exact onStation_tidy
      · refine onStore_tidy (.of_read fun a place => Memory.read_writeLE_outside _ _ ?_)
        simp only [inHeaderField, inDirectory, inAccounts, inBytes, Config.headerBase, Config.directoryBase, Config.accountBase,
          Config.scratchBase] at place apart
        omega
    · exact keepsTidy_of_idle (by simpa using runs)

end Steps

/-! ### Every command -/

/-- Every command keeps law L6 and the even edit counts. -/
theorem exec_keepsTidy {c : Instr} {s t : State} (offset : OffsetLaw s) (h : exec c s = .next t) : KeepsTidy s t := by
  cases unit : unitWork c with
  | some work =>
    rw [exec_unitWork unit] at h
    cases h
    unfold State.unitStep
    split
    · exact .refl s
    · exact keepsTidy_of_tidy offset id ((unitWork_tidy unit _ _).trans (settle_tidy _))
  | none =>
    cases order : orderWork c with
    | some work =>
      rw [exec_orderWork order] at h
      cases h
      exact takeOrder_keepsTidy order offset
    | none =>
      cases c with
      | powerOn => cases h; exact keepsTidy_of_idle rfl
      | clearingDone =>
        change execClearingDone s = .next t at h
        unfold execClearingDone at h
        split at h <;> cases h
        · exact keepsTidy_of_idle rfl
        · exact .refl s
      | softReset => cases h; exact requestSoftReset_keepsTidy
      | runRequest => cases h; exact requestRun_keepsTidy offset
      | stopRequest => cases h; exact requestStop_keepsTidy offset
      | stoppedEntry =>
        change execStoppedEntry s = .next t at h
        unfold execStoppedEntry at h
        split at h <;> cases h
        · exact keepsTidy_of_idle rfl
        · exact .refl s
      | ordpostWrite v => cases h; exact hostWrite_keepsTidy (writeOrdpost_keepsTidy offset v)
      | rptrdWrite v => cases h; exact hostWrite_keepsTidy (writeRptrd_keepsTidy offset v)
      | irqflagWrite v => cases h; exact hostWrite_keepsTidy (writeIrqflag_keepsTidy offset v)
      | registerWrite reg high v => cases h; exact hostWrite_keepsTidy (writeRegister_keepsTidy offset reg high v)
      | lowHalfRead reg => cases h; exact keepsTidy_of_tidy offset id (.refl _)
      | storeWrite word v => cases h; exact hostWrite_keepsTidy (hostStore_keepsTidy offset word v)
      | partTimeTick => exact clock_keepsTidy offset h
      | _ => simp only [unitWork, orderWork, reduceCtorEq] at unit order

/-- Settles O9: the work of the units, of a start and of most orders leaves the directory alone and ends every request it begins, the
card orders keep a sound directory sound, and the host cannot write there while the part runs. -/
theorem everyStepKeepsDirectoryAndEditCounts : Obligations.EveryStepKeepsDirectoryAndEditCounts := by
  unfold Obligations.EveryStepKeepsDirectoryAndEditCounts
  exact ⟨fun _ _ _ law offset h => (exec_keepsTidy offset h).directory law,
    fun _ _ _ even law offset h => (exec_keepsTidy offset h).even law even⟩

end Sys2Proof.Machine
end

section
/-! PROOF. CARD PUT and CARD DROP: their refusals, and the directory and its lookups after a card edit (R64 to R68). -/

namespace Sys2Proof.Machine

open Sys2Proof
-- One proof after the other: proofs that wait for one another hold a thread each, and its memory.
set_option Elab.async false

/-! ### The tests of CARD PUT -/

/-- The model's tests of an entry are those of R65. -/
theorem failingTest_eq (d : DirEntry) : d.failingTest = if cardTestFailed d = 0 then none else some (cardTestFailed d) := by
  have slot : ∀ n, chainSlotValid n = decide (n < 1024 ∨ n = 65535) := fun n => by
    simp only [chainSlotValid, Config.accountCount, Config.noAccount, Bool.decide_or, beq_eq_decide]
    rfl
  have same : ∀ a b, sameAccount a b = decide (a = b ∧ a ≠ 65535) := fun a b => by
    simp only [sameAccount, Config.noAccount, Bool.decide_and, bne, beq_eq_decide, decide_not, ne_eq]
  unfold DirEntry.failingTest cardTestFailed
  simp only [slot, same, Config.maxCard, ← Bool.decide_and, ← Bool.decide_or, ← decide_not, decide_eq_true_eq, and_assoc, or_assoc]
  split_ifs <;> simp_all

/-! ### Orders that change the store alone -/

section Finish

variable {s : State} {x : Executed}

/-- An order that changes the store alone leaves the rest of the part as it stands, under law L4 (R174). -/
theorem orderKeeps_of_store {stored : Nat → Prop} {change : Memory → Memory} (l4 : EnableLaw s) (page : x.page = s.mode.page)
    (floor : x.floor = s.floor.onStore change)
    (apart : ∀ a, ¬ stored a → (change s.floor.store).read a = s.floor.store.read a) :
    OrderKeeps (fun _ => False) stored s (finishOrder s x) := by
  obtain ⟨reply, _, _⟩ := x
  dsimp only at page floor
  subst page floor
  have kept : ∀ j, (finishOrder s ⟨reply, s.mode.page, s.floor.onStore change⟩).floor.station j = s.floor.station j :=
    fun j => settle_same rfl (l4 j)
  refine ⟨rfl, finishOrder_irqFlag .., rfl, rfl, rfl, fun j _ => kept j, fun a outside => ?_⟩
  by_cases record : inRecords a
  · obtain ⟨j, o, inside, rfl⟩ := record_of_inRecords record
    rw [readByte_record _ j inside, readByte_record _ j inside, kept]
  · rw [finishOrder_read _ _ (fun answer => outside (.inl answer)) record, readByte_cell _ record, readByte_cell _ record]
    exact apart a fun place => outside (.inr (.inr place))

theorem finishOrder_store : (finishOrder s x).floor.store = x.floor.store.writeReply (slotAddr s.port.ordDone) x.reply := rfl

/-- An order's answer leaves the directory as the order's work has left it (R174). -/
theorem finishOrder_directory (small : x.floor.store.directoryCount ≤ 2048) :
    (finishOrder s x).floor.store.directoryCount = x.floor.store.directoryCount ∧
      (finishOrder s x).floor.store.directory = x.floor.store.directory := by
  rw [finishOrder_store]
  refine directory_congr small fun a place => (writeReply_tidy _ _).directory a (place.imp_left fun count => ?_)
  simp only [inHeaderField, inBytes] at *
  omega

theorem lookup_congr {m m' : Memory} (same : m'.directory = m.directory) (number : Nat) : m'.lookup number = m.lookup number := by
  rw [Memory.lookup, Memory.lookup, same]

theorem directoryFault_of_same {m m' : Memory} (count : m'.directoryCount = m.directoryCount) (same : m'.directory = m.directory) :
    m'.directoryFault = m.directoryFault := by
  rw [Memory.directoryFault, Memory.directoryFault, count, same]

end Finish

/-- A card edit writes the directory and its header fields alone (R66, R67, R181). -/
theorem Rewritten.outside {m m' : Memory} {k count : Nat} {ds : List DirEntry} (h : Rewritten m m' k ds count) (a : Nat)
    (outside : ¬ (inHeaderField 0 4 a ∨ inHeaderRest a ∨ inDirectory a)) : m'.read a = m.read a := by
  rw [not_or, not_or] at outside
  obtain ⟨field, rest, directory⟩ := outside
  exact h.apart a field rest directory

/-! ### CARD PUT -/

section Put

variable {s : State} {x : Executed} {d : DirEntry} {k : Nat}

/-- A lookup that finds an entry finds the index of its number. -/
theorem findIdx_of_lookup {m : Memory} {number : Nat} (present : m.lookup number ≠ none) :
    ∃ k, m.directory.findIdx? (fun x => x.number == number) = some k :=
  Option.ne_none_iff_exists'.mp fun none => present (findIdx_number_none.mp none)

/-- What a card order leaves behind when it has changed a sound directory into a sound one (R66, R67). -/
theorem finishOrder_edit {change : Memory → Memory} {index count : Nat} {mark : CardMark} {ds : List DirEntry} (l4 : EnableLaw s)
    (page : x.page = s.mode.page) (floor : x.floor = s.floor.onStore change) (reply : x.reply = cardReply .done index mark 0 count)
    (sound : (change s.floor.store).directoryFault = none) (edit : Rewritten s.floor.store (change s.floor.store) k ds count) :
    Answered s (finishOrder s x) .done [(2, index), (1, mark.code), (1, 0), (2, count)] ∧
      (finishOrder s x).floor.store.directoryCount = count ∧ (finishOrder s x).floor.store.directoryFault = none ∧
      (finishOrder s x).floor.store.directory = (change s.floor.store).directory ∧
      OrderKeeps (fun _ => False) (fun a => inHeaderField 0 4 a ∨ inHeaderRest a ∨ inDirectory a) s (finishOrder s x) := by
  have store : x.floor.store = change s.floor.store := by rw [floor]; rfl
  have small := ((directoryFault_none_iff _).mp sound).1
  obtain ⟨counted, same⟩ := finishOrder_directory (s := s) (x := x) (by rw [store]; exact small)
  rw [store] at counted same
  have answered := finishOrder_answered s x (by rw [reply]; exact Nat.le_of_ble_eq_true rfl)
  rw [reply] at answered
  exact ⟨answered, counted.trans edit.count, (directoryFault_of_same counted same).trans sound, same,
    orderKeeps_of_store l4 page floor edit.outside⟩

/-- CARD PUT has placed an entry at an index and answers with a mark and the count (R66). -/
def CardPlaced (s t : State) (d : DirEntry) (index : Nat) (mark : CardMark) (count : Nat) : Prop :=
  Answered s t .done [(2, index), (1, mark.code), (1, 0), (2, count)] ∧
    t.floor.store.dirEntry index = d ∧ t.floor.store.directoryCount = count ∧ t.floor.store.directoryFault = none ∧
    (∀ number, t.floor.store.lookup number = if number = d.number then some d else s.floor.store.lookup number) ∧
    OrderKeeps (fun _ => False) (fun a => inHeaderField 0 4 a ∨ inHeaderRest a ∨ inDirectory a) s t

theorem finishOrder_placed (change : Memory → Memory) {count : Nat} {mark : CardMark} {ds : List DirEntry} (l4 : EnableLaw s)
    (page : x.page = s.mode.page) (floor : x.floor = s.floor.onStore change) (reply : x.reply = cardReply .done k mark 0 count)
    (placed : Placed s.floor.store (change s.floor.store) k d) (edit : Rewritten s.floor.store (change s.floor.store) k ds count)
    (index : k < count) : CardPlaced s (finishOrder s x) d k mark count := by
  obtain ⟨answered, counted, sound, same, keeps⟩ := finishOrder_edit l4 page floor reply placed.sound edit
  refine ⟨answered, ?_, counted, sound, fun number => (lookup_congr same number).trans (placed.lookup number), keeps⟩
  have place : k < (change s.floor.store).directory.length := by rwa [directory_length, edit.count]
  rw [← directory_getElem _ (by rwa [same]), ← placed.entry, ← directory_getElem _ place]
  simp only [same]

/-- A card order's work on a directory that is not known to be unsound (R68). -/
theorem standingFault_none {e : Mode} {m : Memory} (sound : m.directoryFault = none) : standingFault e m = none := by
  unfold standingFault
  split
  · exact sound
  · rfl

theorem cardPutOrder_sound {e : Mode} {slot : Nat} {f : Floor} (passes : cardTestFailed (f.store.paramEntry slot) = 0)
    (sound : f.store.directoryFault = none) : cardPutOrder e slot f = putEntry e (f.store.paramEntry slot) f := by
  have none : (f.store.paramEntry slot).failingTest = none := by rw [failingTest_eq, if_pos passes]
  simp only [cardPutOrder, none, standingFault_none sound]

theorem putEntry_replaces {e : Mode} {f : Floor} (found : f.store.directory.findIdx? (fun x => x.number == d.number) = some k) :
    putEntry e d f = { reply := cardReply .done k .replaced 0 f.store.directoryCount, page := e.page
                       floor := f.onStore fun m => m.replaceEntry k d } := by
  simp only [putEntry, found]

theorem putEntry_inserts {e : Mode} {f : Floor} (absent : f.store.lookup d.number = none) (room : f.store.directoryCount < 2048) :
    putEntry e d f =
      { reply := cardReply .done (f.store.insertIndex d.number) .inserted 0 (f.store.directoryCount + 1), page := e.page
        floor := f.onStore fun m => m.insertEntry (f.store.insertIndex d.number) d } := by
  simp only [putEntry, findIdx_number_none.mpr absent]
  exact if_pos room

theorem putEntry_full {e : Mode} {f : Floor} (absent : f.store.lookup d.number = none) (full : f.store.directoryCount = 2048) :
    putEntry e d f = .unchanged e f (cardReply .full 0 .none 0 f.store.directoryCount) := by
  simp only [putEntry, findIdx_number_none.mpr absent]
  exact if_neg (by simp [full, Config.directoryRoom])

/-- CARD PUT inserts a new number while there is room (R66, Insert). -/
theorem cardPut_inserts (l4 : EnableLaw s) (order : OrderAt s 9) (put : cardPutOrder s.mode s.slot s.floor = putEntry s.mode d s.floor)
    (fits : d.Fits) (named : 0 < d.number) (sound : s.floor.store.directoryFault = none)
    (absent : s.floor.store.lookup d.number = none) (room : s.floor.store.directoryCount < 2048) :
    ∃ t index, exec .cardPut s = .next t ∧ CardPlaced s t d index .inserted (s.floor.store.directoryCount + 1) := by
  have index := (insertIndex_splits ((directoryFault_none_iff _).mp sound).2 absent).1
  refine ⟨_, s.floor.store.insertIndex d.number, exec_order rfl order rfl, ?_⟩
  rw [put, putEntry_inserts absent room]
  exact finishOrder_placed (fun m => m.insertEntry (s.floor.store.insertIndex d.number) d) l4 rfl rfl rfl
    (insertEntry_placed sound fits named absent room) (insertEntry_rewritten _ d index room) (Nat.lt_succ_of_le index)

/-- CARD PUT replaces the entry of a known number (R66, Replace). -/
theorem cardPut_replaces (l4 : EnableLaw s) (order : OrderAt s 9) (put : cardPutOrder s.mode s.slot s.floor = putEntry s.mode d s.floor)
    (fits : d.Fits) (sound : s.floor.store.directoryFault = none) (present : s.floor.store.lookup d.number ≠ none) :
    ∃ t index, exec .cardPut s = .next t ∧ CardPlaced s t d index .replaced s.floor.store.directoryCount := by
  obtain ⟨k, found⟩ := findIdx_of_lookup present
  have index := (findIdx_number found).1
  have small := ((directoryFault_none_iff _).mp sound).1
  refine ⟨_, k, exec_order rfl order rfl, ?_⟩
  rw [put, putEntry_replaces found]
  exact finishOrder_placed (fun m => m.replaceEntry k d) l4 rfl rfl rfl (replaceEntry_placed sound fits found)
    (replaceEntry_rewritten _ d (Nat.lt_of_lt_of_le index small)) index

end Put

/-! ### CARD DROP -/

section Drop

variable {s : State} {number : Nat}

theorem cardDropOrder_found {e : Mode} {slot k : Nat} {f : Floor} (sound : f.store.directoryFault = none)
    (found : f.store.directory.findIdx? (fun x => x.number == f.store.param slot 0 8) = some k) :
    cardDropOrder e slot f = { reply := cardReply .done k .none 0 (f.store.directoryCount - 1), page := e.page
                               floor := f.onStore fun m => m.removeEntry k } := by
  simp only [cardDropOrder, standingFault_none sound, found]

theorem cardDropOrder_missing {e : Mode} {slot : Nat} {f : Floor} (sound : f.store.directoryFault = none)
    (absent : f.store.lookup (f.store.param slot 0 8) = none) :
    cardDropOrder e slot f = .unchanged e f (.bare .notFound) := by
  simp only [cardDropOrder, standingFault_none sound, findIdx_number_none.mpr absent]

/-- CARD DROP removes the entry of a known number (R67). -/
theorem cardDrop_removes (l4 : EnableLaw s) (order : OrderAt s 10) (named : number = s.floor.store.param s.slot 0 8)
    (sound : s.floor.store.directoryFault = none) (present : s.floor.store.lookup number ≠ none) :
    ∃ t index, exec .cardDrop s = .next t ∧
      Answered s t .done [(2, index), (1, 0), (1, 0), (2, s.floor.store.directoryCount - 1)] ∧
      (s.floor.store.dirEntry index).number = number ∧
      t.floor.store.directoryCount = s.floor.store.directoryCount - 1 ∧ t.floor.store.directoryFault = none ∧
      (∀ k, t.floor.store.lookup k = if k = number then none else s.floor.store.lookup k) ∧
      OrderKeeps (fun _ => False) (fun a => inHeaderField 0 4 a ∨ inHeaderRest a ∨ inDirectory a) s t := by
  obtain ⟨k, found⟩ := findIdx_of_lookup present
  obtain ⟨index, held⟩ := findIdx_number found
  have small := ((directoryFault_none_iff _).mp sound).1
  have edit := removeEntry_rewritten s.floor.store index small
  obtain ⟨after, lookups⟩ := removeEntry_dropped sound found
  have work := cardDropOrder_found (e := s.mode) sound (named ▸ found)
  obtain ⟨answered, counted, fault, same, keeps⟩ := finishOrder_edit (x := cardDropOrder s.mode s.slot s.floor) (mark := .none)
    (change := fun m => m.removeEntry k) l4 (by rw [work]) (by rw [work]) (by rw [work]) after edit
  exact ⟨_, k, exec_order rfl order rfl, answered, held, counted, fault, fun other => (lookup_congr same other).trans (lookups other), keeps⟩

end Drop

/-! ### Both orders -/

/-- Settles O31: the refusals leave the part as it stands, a placed entry stands between the lower numbers and the higher ones, and the
answer leaves the directory as the edit has left it. -/
theorem cardOrdersKeepTheDirectory : Obligations.CardOrdersKeepTheDirectory := by
  unfold Obligations.CardOrdersKeepTheDirectory
  refine ⟨fun s l4 order => ?_, fun s l4 order => ?_⟩
  · intro m d count
    have refused : ∀ r : Reply, layoutSize r.answer ≤ 8 →
        cardPutOrder s.mode s.slot s.floor = .unchanged s.mode s.floor r → RefusedWith .cardPut s r.result r.answer :=
      fun r size unchanged => refusedWith_of_unchanged rfl order rfl l4 size unchanged
    refine ⟨fun fails => ?_, fun fault passes stopped faulty => ?_, fun passes sound => ?_⟩
    · have test : (s.floor.store.paramEntry s.slot).failingTest = some (cardTestFailed d) := by
        rw [failingTest_eq, if_neg fails]
      exact refused (cardReply .badValue 0 .none (cardTestFailed d) 0) (Nat.le_of_ble_eq_true rfl)
        (by simp only [cardPutOrder, test])
    · have test : (s.floor.store.paramEntry s.slot).failingTest = none := by rw [failingTest_eq, if_pos passes]
      have standing : standingFault s.mode s.floor.store = some fault := (if_pos stopped).trans faulty
      exact refused (cardReply .badValue fault.number .invalid 0 0) (Nat.le_of_ble_eq_true rfl)
        (by simp only [cardPutOrder, test, standing])
    · have put := cardPutOrder_sound (e := s.mode) (slot := s.slot) passes sound
      have fits : d.Fits := paramEntry_fits ..
      have named : 0 < d.number := named_of_passes (by rw [failingTest_eq, if_pos passes])
      refine ⟨fun absent full => ?_, fun room => ?_⟩
      · exact refused (cardReply .full 0 .none 0 count) (Nat.le_of_ble_eq_true rfl) (put.trans (putEntry_full absent full))
      · by_cases absent : m.lookup d.number = none
        · simp only [if_pos absent]
          exact cardPut_inserts l4 order put fits named sound absent (room.resolve_left fun present => present absent)
        · simp only [if_neg absent]
          exact cardPut_replaces l4 order put fits sound absent
  · intro m number count
    have refused : ∀ r : Reply, layoutSize r.answer ≤ 8 →
        cardDropOrder s.mode s.slot s.floor = .unchanged s.mode s.floor r → RefusedWith .cardDrop s r.result r.answer :=
      fun r size unchanged => refusedWith_of_unchanged rfl order rfl l4 size unchanged
    refine ⟨fun sound absent => ?_, fun fault stopped faulty => ?_, fun sound present => ?_⟩
    · exact refused (.bare .notFound) (Nat.zero_le _) (cardDropOrder_missing sound absent)
    · have standing : standingFault s.mode s.floor.store = some fault := (if_pos stopped).trans faulty
      exact refused (cardReply .badValue fault.number .invalid 0 0) (Nat.le_of_ble_eq_true rfl)
        (by simp only [cardDropOrder, standing])
    · exact cardDrop_removes l4 order rfl sound present

end Sys2Proof.Machine
end

section
/-! PROOF. A BANK card at an IDLE station starts a funding wait: its FIRST request is DEFERRED, UNSENT or ASKED (R69, R104, R105). -/

namespace Sys2Proof.Machine

open Sys2Proof
-- One proof after the other: proofs that wait for one another hold a thread each, and its memory.
set_option Elab.async false

section Requests

variable {e : Mode} {i : StationId} {f : Floor} {y : Station} {c : Card} {kind : AuthKind} {amount : Nat}

/-! ### The production of a request (R104) -/

/-- The AUTH WANTED report of a station's next request (R104). -/
def Station.nextWanted (kind : AuthKind) (amount : Nat) (x : Station) : AuthWanted :=
  { id := x.auth.lastId + 1, kind := kind, amount := amount, token := BitVec.ofNat 64 (cardBytes x.context.card)
    number := if kind = .first then 0 else x.context.number }

/-- A station whose next request is UNSENT, its report in the slot (R104; log 47). -/
def Station.requested (kind : AuthKind) (amount : Nat) (x : Station) : Station :=
  { x with auth := {
      state := .unsent, kind := kind, amount := amount, id := x.auth.lastId + 1, written := 0, lastId := x.auth.lastId + 1
      slot := some (x.nextWanted kind amount) } }

/-- A station whose next request is ASKED, its timer started (R105). -/
def Station.requestAsked (now : Time) (kind : AuthKind) (amount : Nat) (x : Station) : Station :=
  { x with auth := {
      state := .asked, kind := kind, amount := amount, id := x.auth.lastId + 1, written := now, lastId := x.auth.lastId + 1
      slot := none } }

/-- A request is written when the report writer has room, and waits without (R104, R178). -/
theorem produceAuth_eq : produceAuth e i kind amount (f.onStation i fun _ => y) =
    if f.waitQueue = [] ∧ roomNeeded f.rptWr 32 ≤ freeRoom f.rptWr e.rptRd
      then writeAuth e i (f.onStation i fun _ => y.requested kind amount)
      else (f.onStation i fun _ => y.requested kind amount).enqueue (.auth i) := by
  unfold produceAuth
  dsimp only
  rw [onStation_onStation]
  exact if_congr (mayWrite_iff e (f.onStation i fun _ => y.requested kind amount) 32) rfl rfl

/-- Without room, or behind a waiting report, the AUTH WANTED report waits (R104, R178). -/
theorem produceAuth_waits (full : ¬ (f.waitQueue = [] ∧ roomNeeded f.rptWr 32 ≤ freeRoom f.rptWr e.rptRd)) :
    produceAuth e i kind amount (f.onStation i fun _ => y) =
      (f.onStation i fun _ => y.requested kind amount).enqueue (.auth i) := by
  rw [produceAuth_eq, if_neg full]

/-- With room the AUTH WANTED report is written at once (R104, R105). -/
theorem produceAuth_written (room : f.waitQueue = [] ∧ roomNeeded f.rptWr 32 ≤ freeRoom f.rptWr e.rptRd) :
    produceAuth e i kind amount (f.onStation i fun _ => y) =
      (writeReport e .authWanted (stationNumber i) (y.nextWanted kind amount).body f).onStation i
        fun _ => y.requestAsked e.partTime kind amount := by
  have slot : ((f.onStation i fun _ => y.requested kind amount).station i).auth.slot = some (y.nextWanted kind amount) := by
    rw [station_onStation_self]
    rfl
  rw [produceAuth_eq, if_pos room]
  unfold writeAuth
  rw [slot]
  dsimp only
  have commute : writeReport e .authWanted (stationNumber i) (y.nextWanted kind amount).body
      (f.onStation i fun _ => y.requested kind amount) =
      (writeReport e .authWanted (stationNumber i) (y.nextWanted kind amount).body f).onStation i
        fun _ => y.requested kind amount := rfl
  rw [commute, onStation_onStation]
  refine onStation_congr _ _ ?_
  simp [Station.requested, Station.requestAsked, Auth.reportWritten, Station.nextWanted]

/-! ### The funding wait (R69) -/

/-- A station that has taken a bank card into a funding wait, but for its request (R69 case 3; log 23, log 33). -/
def Station.fundingBegun (c : Card) (y : Station) : Station :=
  { y with state := .funding, context := { Context.empty with condition := .funding, card := some c, chain := .empty } }

/-- A station that shows AUTH WAIT (R104). -/
def Station.authWaitShown (y : Station) : Station := { y with link := y.link.offer (showOn 1 .authWait 0 0) }

/-- With an empty slot the FIRST request of a funding wait is produced at once (R69, R104). -/
theorem beginFunding_produced (slot : y.auth.slot = none) :
    beginFunding e i c (f.onStation i fun _ => y) =
      (produceAuth e i .first y.copy.bankHold (f.onStation i fun _ => y.fundingBegun c)).onStation i Station.authWaitShown := by
  unfold beginFunding wantAuth
  dsimp only
  rw [onStation_onStation, station_onStation_self, if_neg (by simp [slot]), offer_eq]
  rfl

end Requests

/-! ### The card at the station (R46, R47) -/

/-- A card of an agreed medium that an IDLE station hears in UP goes to the session controller and is judged there. -/
theorem cardIn_judged {s : State} {i : StationId} {medium : Byte} {number : BitVec 64} (run : s.mode.run = .running)
    (valid : cardFieldsValid medium number = true) (up : (s.floor.station i).link.up = true)
    (reads : (if medium = 1 then (s.floor.station i).link.agreed.shop else (s.floor.station i).link.agreed.bank) = true)
    (idle : (s.floor.station i).state = .idle) (grace : (s.floor.station i).graceStart = none) :
    receiveFrame i (.cardIn medium number) s.mode s.floor = judgeCard s.mode i (cardOf medium number)
      (s.floor.onStation i fun _ => ((s.floor.station i).heardFrame s.mode.partTime).holding (cardOf medium number)) :=
  (receive_cardIn_held valid up (.inr reads)).trans
    (sessionCardIn_idle (y := ((s.floor.station i).heardFrame s.mode.partTime).holding (cardOf medium number))
      (inService_of_running run (fun out => by cases idle.symm.trans out)) grace idle)

/-- A step of the units that touches station `i` alone of the stations ends as its work has made the floor. -/
theorem exec_at {c : Instr} {i : StationId} {s : State} {g : Floor} {change : Mode → Floor → Floor}
    (hc : exec c s = .next (s.unitStep change)) (run : s.mode.run ≠ .clearing) (l4 : EnableLaw s)
    (h : change s.mode s.floor = g) (others : KeepsOthers i s.floor g) :
    ∃ t, exec c s = .next t ∧ KeepsOutside s t ∧ t.floor = { g with stations := t.floor.stations } ∧
      KeepsOthers i s.floor t.floor ∧ t.floor.station i = finished s.mode (s.floor.station i) (g.station i) := by
  subst h
  exact ⟨s.act change, by rw [hc, unitStep_act change run], ⟨rfl, rfl, rfl⟩, rfl, fun j hj => settle_same (others j hj) (l4 j),
    settle_station ..⟩

/-- The fields of an AUTH WANTED report at its place (11.2). -/
theorem authWanted_fields {e : Mode} {i : StationId} {f : Floor} {w : AuthWanted} (good : goodOffset f.rptWr)
    (fit : fits e f 32 = true) :
    let m := (writeReport e .authWanted (stationNumber i) w.body f).store
    ReportHeaderAt m (reportPlace f.rptWr 32) 32 .authWanted (i.val + 1) e.partTime ∧
      m.readLE (reportPlace f.rptWr 32 + 8) 2 = w.id.toNat ∧ m.readLE (reportPlace f.rptWr 32 + 16) 8 = w.token.toNat ∧
      ∀ p, ¬ inReport f.rptWr 32 p → m.read p = f.store.read p := by
  have size : 8 + layoutSize w.body = 32 := by rw [authBody_size]
  have fitBody : fits e f (8 + layoutSize w.body) = true := by rw [size]; exact fit
  have header := writeReport_header (kind := .authWanted) (station := stationNumber i) fitBody good
    (by have := i.isLt; simp only [stationNumber]; omega)
  have field := fun o n => readLE_writeReport (kind := .authWanted) (station := stationNumber i) (o := o) (n := n) fitBody good
  rw [size] at header field
  have id := field 8 2 (by omega)
  have token := field 16 8 (by omega)
  simp only [reportHeader, AuthWanted.body, List.cons_append, List.nil_append, imageField_layout_tail, imageField_layout_head,
    Nat.reduceLeDiff, Nat.reduceSub, Nat.le_refl] at id token
  refine ⟨header, id.trans (Nat.mod_eq_of_lt w.id.isLt), token.trans (Nat.mod_eq_of_lt w.token.isLt), fun p outside => ?_⟩
  exact read_writeReport_outside (by rw [size]; exact outside)

/-- Settles O51: the card reaches `beginFunding`, whose FIRST request waits behind a report in the slot, waits for room, or is
written at once. -/
theorem bankCardStartsAFundingWait : Obligations.BankCardStartsAFundingWait := by
  unfold Obligations.BankCardStartsAFundingWait
  intro i card s l4 offset running x f heard c id room y wanted asked up reads idle grace serves
  have run : s.mode.run ≠ .clearing := by rw [running]; decide
  have notStopping : s.mode.run ≠ .stopping := by rw [running]; decide
  have bank : mediumOf 2 = .bank := mediumOf_bank rfl
  have begun : receiveFrame i (.cardIn 2 card) s.mode s.floor =
      beginFunding s.mode i (cardOf 2 card) (f.onStation i fun _ => heard.holding (cardOf 2 card)) :=
    (cardIn_judged (medium := 2) running rfl up reads idle grace).trans ((judgeCard_bank notStopping bank).trans
      (if_neg (Bool.eq_false_iff.mp serves)))
  have report : ((heard.holding (cardOf 2 card)).fundingBegun (cardOf 2 card)).nextWanted .first
      (heard.holding (cardOf 2 card)).copy.bankHold = wanted := by
    have token : BitVec.ofNat 64 (cardBytes (some (cardOf 2 card))) = card := by
      simp [cardBytes, cardOf]
    unfold Station.nextWanted Station.fundingBegun
    rw [token]
    rfl
  refine ⟨fun slot => ?_, fun slot full => ?_, fun slot writes => ?_⟩
  · exact changesTo_of (change := receiveFrame i (.cardIn 2 card)) rfl run l4
      (begun.trans (beginFunding_deferred (y := heard.holding (cardOf 2 card)) slot))
  · have work := begun.trans (beginFunding_produced (y := heard.holding (cardOf 2 card)) slot)
    rw [produceAuth_waits full] at work
    obtain ⟨t, step, outside, floor, others, station⟩ := exec_at (c := .cardIn i 2 card) (i := i)
      (change := receiveFrame i (.cardIn 2 card)) rfl run l4 work fun j hj => by
        rw [station_onStation_other _ _ _ _ hj, station_enqueue, station_onStation_other _ _ _ _ hj]
    refine ⟨t, step, outside, floor, others, station.trans (congrArg (finished s.mode x) ?_)⟩
    rw [station_onStation_self, station_enqueue, station_onStation_self]
    unfold Station.requested
    rw [report]
    rfl
  · have work := begun.trans (beginFunding_produced (y := heard.holding (cardOf 2 card)) slot)
    rw [produceAuth_written writes, report] at work
    obtain ⟨t, step, outside, floor, others, station⟩ := exec_at (c := .cardIn i 2 card) (i := i)
      (change := receiveFrame i (.cardIn 2 card)) rfl run l4 work fun j hj => by
        rw [station_onStation_other _ _ _ _ hj, station_onStation_other _ _ _ _ hj, station_writeReport]
    obtain ⟨header, idField, token, cells⟩ := authWanted_fields (i := i) (w := wanted) ⟨offset.1, offset.2.1⟩
      (decide_eq_true writes.2 : fits s.mode f 32 = true)
    have store : t.floor.store = (writeReport s.mode .authWanted (stationNumber i) wanted.body f).store := by rw [floor]; rfl
    refine ⟨t, step, outside, ?_, ?_, ?_, ?_, ?_, ?_, others, ?_, ?_⟩
    · rw [floor]
      exact writes.1
    · rw [floor]
      rfl
    · rw [floor]
      rfl
    · rw [store]
      exact header
    · rw [store]
      exact idField
    · rw [store]
      exact token
    · exact keepsBytes_of others (fun a ha _ => by rw [store]; exact cells a fun inside => ha (.inr inside)) fun a ha => .inl ha
    · rw [station, station_onStation_self, station_onStation_self]
      rfl

end Sys2Proof.Machine
end

section
/-! SUPPORT. The opening of a session on the floor of a station that has taken a card and on whose account a hold stands: the floor
on which the funding check of the opening is made (R19, R73, R74). -/

namespace Sys2Proof.Machine

open Sys2Proof
-- One proof after the other: proofs that wait for one another hold a thread each, and its memory.
set_option Elab.async false

section Opening

variable {e : Mode} {i : StationId} {f g : Floor} {y : Station} {o : Opening}

/-! ### The closing of the tally -/

/-- An empty live tally is not closed (R19). -/
theorem closeStray_empty {cause : EndCause} (fed : (f.station i).line.live.fed = 0) : closeStray e i cause f = f := if_pos fed

/-- The closing of a live tally, empty or with the write offset where it may stand. -/
theorem closeStray_closes (cause : EndCause) (good : (f.station i).line.live.fed ≠ 0 → goodOffset f.rptWr) :
    ClosesTally e i cause f (closeStray e i cause f) := by
  by_cases fed : (f.station i).line.live.fed = 0
  · rw [closeStray_empty fed]
    refine ⟨by simp only [TallyClosed, fed, if_true, and_self], ?_, fun _ _ => rfl⟩
    rw [if_neg fun h => h.1 fed, if_neg fun h => h.1 fed]
    exact floor_with_tallies (fun _ _ => rfl) rfl rfl rfl rfl
  · exact closeStray_closesTally e i cause f (good fed)

/-- A field of an account that a charge does not write stays at the closing of a tally, empty or not (R155, R158). -/
theorem closeStray_field {α : Type} (cause : EndCause) {n : Nat} (field : Account → α) (hn : n < 1024)
    (good : (f.station i).line.live.fed ≠ 0 → goodOffset f.rptWr)
    (spends : ∀ (a : Account) (units : Nat) (c : Half), field { a.spend units with editCount := c } = field a) :
    field ((closeStray e i cause f).store.account n) = field (f.store.account n) := by
  by_cases fed : (f.station i).line.live.fed = 0
  · rw [closeStray_empty fed]
  · exact field_closeStray e i cause f field hn (good fed) spends

theorem closeStray_even (cause : EndCause) (good : (f.station i).line.live.fed ≠ 0 → goodOffset f.rptWr)
    (even : EvenCounts f.store) : EvenCounts (closeStray e i cause f).store := by
  by_cases fed : (f.station i).line.live.fed = 0
  · rwa [closeStray_empty fed]
  · exact ((closeStray_tidy cause).store (good fed)).even even

/-- Outside the stream and the accounts the closing of a tally writes nothing (R153, R158, R176). -/
theorem ClosesTally.cells {cause : EndCause} (h : ClosesTally e i cause f g)
    (good : (f.station i).line.live.fed ≠ 0 → goodOffset f.rptWr) {p : Nat} (stream : ¬ inStream p) (accounts : ¬ inAccounts p) :
    g.store.read p = f.store.read p := by
  obtain ⟨_, _, cells⟩ := h
  refine cells p fun ⟨⟨fed, _, _, room⟩, place⟩ => place.elim (fun inside => stream ?_) accounts
  exact inReport_inStream (e := e) (decide_eq_true room) (good fed) inside

theorem header_apart {p : Nat} (h : inHeader p) : ¬ inStream p ∧ ¬ inAccounts p := by
  simp only [inHeader, inStream, inAccounts, inBytes, Config.headerBase, Config.streamBase, Config.streamBytes,
    Config.accountBase] at *
  omega

/-- A header field depends on the bytes of the header alone. -/
theorem header_congr {m m' : Memory} {k n : Nat} (within : k + n ≤ 128) (same : ∀ p, inHeader p → m'.read p = m.read p) :
    m'.header k n = m.header k n :=
  Memory.readLE_congr n _ fun p low high => same p (by
    simp only [inHeader, inBytes] at *
    omega)

/-- The tally closed on a floor whose accounts differ in what holds and requests change alone (R153, R158). -/
theorem TallyClosed.of_facts {cause : EndCause} {live : Tally} {f' : Floor} (h : TallyClosed e i cause live f g)
    (closed : (f'.station i).line.closed = (f.station i).line.closed) (copy : (f'.station i).copy = (f.station i).copy)
    (queue : f'.waitQueue = f.waitQueue) (offset : f'.rptWr = f.rptWr)
    (facts : ∀ n, (f'.store.account n).facts = (f.store.account n).facts) : TallyClosed e i cause live f' g := by
  have fact : ∀ {α : Type} (field : Account → α) (n : Nat), (∀ a, field a.facts = field a) →
      field (f'.store.account n) = field (f.store.account n) := fun field n same => by rw [← same, facts, same]
  have house : ∀ n, houseOrZero f'.store n = houseOrZero f.store n := fun n => by
    rw [houseOrZero, houseOrZero, fact Account.isFree n fun _ => rfl]
  have balance := fun n units => fact (fun a => (a.charged units).balance) n fun _ => rfl
  have money := fun n units => fact (fun a => (a.charged units).money) n fun _ => rfl
  have overdrawn := fun n units => fact (fun a => (a.charged units).overdrawn) n fun _ => rfl
  unfold TallyClosed at h ⊢
  dsimp only at h ⊢
  rw [closed, copy, house, queue, offset, balance, money, overdrawn]
  exact h

/-! ### The floor of the opening's check -/

/-- The station of a session that has opened, before its funding check (R73). -/
def Station.sessionOpened (o : Opening) (number : Nat) (now : Time) (x : Station) : Station :=
  { x with
    state := .opened, line := x.line.clearPace, context := o.context number now, link := x.link.offer o.announce }

/-- The floor on which the funding check of an opening is made (R73, steps 1 to 5). -/
def openedFloor (e : Mode) (i : StationId) (o : Opening) (f : Floor) : Floor :=
  let g := closeStray e i .sessionOpened f
  (g.onStore Memory.advanceNumber).onStation i (Station.sessionOpened o g.store.sessionNumber e.partTime)

theorem openedFloor_empty (fed : (f.station i).line.live.fed = 0) : openedFloor e i o f =
    (f.onStore Memory.advanceNumber).onStation i (Station.sessionOpened o f.store.sessionNumber e.partTime) := by
  unfold openedFloor
  rw [closeStray_empty fed]

theorem openSession_eq : openSession e i o f = fundingCheck e i (openedFloor e i o f) := by
  unfold openSession
  dsimp only
  rw [offer_eq, onStation_onStation, onStation_onStation]
  rfl

/-- The next session number after `number` (R74). -/
def nextNumber (number : Nat) : Nat := if number = 4294967295 then 1 else number + 1

/-- A session's number is taken and the next one stands in the header (R74, R165, R181). -/
theorem advanceNumber_leaves (m : Memory) :
    m.advanceNumber.header 8 4 = nextNumber m.sessionNumber ∧
      ∀ p, ¬ inHeaderField 4 2 p → ¬ inHeaderField 8 4 p → ¬ inHeaderRest p → m.advanceNumber.read p = m.read p := by
  have small : m.sessionNumber ≤ 4294967295 := by
    have := Memory.readLE_lt m (Config.headerBase + 8) 4
    unfold Memory.sessionNumber Memory.header
    split <;> omega
  obtain ⟨field, _, _, cells⟩ := editHeader_field m (o := 8) (n := 4) (nextNumber m.sessionNumber) (by omega) (by omega)
  refine ⟨field.trans (Nat.mod_eq_of_lt ?_), cells⟩
  unfold nextNumber
  split <;> omega

theorem inHeader_of_field {k n p : Nat} (h : inHeaderField k n p) (within : k + n ≤ 128) : inHeader p := by
  simp only [inHeaderField, inHeader, inBytes] at *
  omega

theorem inHeader_of_rest {p : Nat} (h : inHeaderRest p) : inHeader p := by
  simp only [inHeaderRest, inHeader, inBytes] at *
  omega

/-- Outside the header the taking of a number writes nothing (R74). -/
theorem read_advanceNumber_outside (m : Memory) {p : Nat} (outside : ¬ inHeader p) : m.advanceNumber.read p = m.read p :=
  (advanceNumber_leaves m).2 p (fun field => outside (inHeader_of_field field (by omega)))
    (fun field => outside (inHeader_of_field field (by omega))) fun rest => outside (inHeader_of_rest rest)

theorem account_advanceNumber (m : Memory) {n : Nat} (hn : n < 1024) : m.advanceNumber.account n = m.account n :=
  Memory.account_congr fun _ low high => read_advanceNumber_outside m fun header =>
    (header_apart header).2 (inAccount_inAccounts hn ⟨low, high⟩)

end Opening

/-! ### The opening from an account -/

section Holds

variable {e : Mode} {i : StationId} {f : Floor} {y : Station} {o : Opening} {n units : Nat}

/-- The floor of an opening, reached from the floor `f` of the card by a hold of `units` on account `n` (R72, R73). -/
structure OpenedOn (e : Mode) (i : StationId) (o : Opening) (y : Station) (n units : Nat) (f h : Floor) : Prop where
  tally : TallyClosed e i .sessionOpened y.line.live f h
  others : KeepsOthers i f h
  dropped : h.dropped = f.dropped
  station : h.station i =
    (y.sessionOpened o f.store.sessionNumber e.partTime).withTallies (h.station i).line.live (h.station i).line.closed
  number : h.store.header 8 4 = nextNumber f.store.sessionNumber
  held : (h.store.account n).held = ((f.store.account n).addHolder units).held
  holders : (h.store.account n).holders = ((f.store.account n).addHolder units).holders
  cells : ∀ p, ¬ inStream p → ¬ inHeader p → ¬ inAccounts p → h.store.read p = f.store.read p
  even : EvenCounts f.store → EvenCounts h.store

/-- A hold changes nothing of an account but what holds change (R135). -/
theorem facts_editAccount_addHolder (m : Memory) (k : Nat) (hn : n < 1024) :
    ((m.editAccount n (·.addHolder units)).account k).facts = (m.account k).facts := by
  by_cases same : k = n
  · subst same
    exact Memory.field_editAccount_self m (·.addHolder units) Account.facts hn fun _ _ => rfl
  · rw [Memory.account_editAccount_other m _ same]

theorem openedFloor_openedOn (line : y.line = (f.station i).line) (copy : y.copy = (f.station i).copy) (hn : n < 1024)
    (good : y.line.live.fed ≠ 0 → goodOffset f.rptWr) :
    OpenedOn e i o y n units f
      (openedFloor e i o ((f.onStation i fun _ => y).onStore fun m => m.editAccount n (·.addHolder units))) := by
  generalize start : ((f.onStation i fun _ => y).onStore fun m => m.editAccount n (·.addHolder units)) = F
  have at_i : F.station i = y := by rw [← start, station_onStore, station_onStation_self]
  have store : F.store = f.store.editAccount n (·.addHolder units) := by rw [← start]; rfl
  have queue : F.waitQueue = f.waitQueue := by rw [← start]; rfl
  have offset : F.rptWr = f.rptWr := by rw [← start]; rfl
  have good' : (F.station i).line.live.fed ≠ 0 → goodOffset F.rptWr := by rw [at_i, offset]; exact good
  have closes := closeStray_closes (e := e) .sessionOpened good'
  have apart := fun p => closes.cells (p := p) good'
  have fields : ∀ {α : Type} (field : Account → α),
      (∀ (a : Account) (u : Nat) (c : Half), field { a.spend u with editCount := c } = field a) →
      (∀ (a : Account) (c : Half), field { a with editCount := c } = field a) →
      field ((closeStray e i .sessionOpened F).store.account n) = field ((f.store.account n).addHolder units) :=
    fun field spends counts => by
      rw [closeStray_field .sessionOpened field hn good' spends, store]
      exact Memory.field_editAccount_self f.store (·.addHolder units) field hn counts
  have evenly : EvenCounts f.store → EvenCounts (closeStray e i .sessionOpened F).store := fun even =>
    closeStray_even .sessionOpened good' (store ▸ (editAccount_tidy ..).even even)
  have others := closeStray_others e i .sessionOpened F
  unfold openedFloor
  dsimp only
  generalize closeStray e i .sessionOpened F = G at *
  have number : G.store.sessionNumber = f.store.sessionNumber := by
    have header : ∀ p, inHeader p → G.store.read p = f.store.read p := fun p inside => by
      obtain ⟨stream, accounts⟩ := header_apart inside
      rw [apart p stream accounts, store, Memory.read_editAccount_outside]
      by_contra inside'
      exact accounts (accountBytes_inAccounts hn inside')
    rw [Memory.sessionNumber, Memory.sessionNumber, header_congr (by omega) header]
  have station : ∀ j, ((G.onStore Memory.advanceNumber).onStation i
      (Station.sessionOpened o G.store.sessionNumber e.partTime)).station j =
      if j = i then (G.station i).sessionOpened o G.store.sessionNumber e.partTime else G.station j := fun j => by
    split
    · next same => rw [same, station_onStation_self, station_onStore]
    · next other => rw [station_onStation_other _ _ _ _ other, station_onStore]
  have tallies := closes.station
  rw [at_i] at tallies
  obtain ⟨closed, floor, _⟩ := closes
  refine ⟨?_, fun j hj => ?_, ?_, ?_, ?_, ?_, ?_, fun p stream header accounts => ?_, fun even => ?_⟩
  · rw [at_i] at closed
    refine (closed.of_facts (f' := f) ?_ ?_ queue.symm offset.symm fun k => ?_).congr rfl rfl rfl rfl rfl ?_ ?_ rfl id ?_
    · rw [at_i, line]
    · rw [at_i, copy]
    · rw [store, facts_editAccount_addHolder _ _ hn]
    · rw [station, if_pos rfl]
      rfl
    · rw [station, if_pos rfl]
      rfl
    · intro p place
      refine read_advanceNumber_outside _ fun header => ?_
      obtain ⟨stream, accounts⟩ := header_apart header
      refine place.elim accounts fun ⟨_, room, fed, _, low, high⟩ => stream ?_
      have inside := reportPlace_inStream (e := e) (f := f) (k := p - reportPlace f.rptWr 96) (decide_eq_true room) (good fed)
        (by omega)
      rwa [show reportPlace f.rptWr 96 + (p - reportPlace f.rptWr 96) = p by omega] at inside
  · rw [station, if_neg hj, others j hj, ← start, station_onStore, station_onStation_other _ _ _ _ hj]
  · show G.dropped = _
    rw [floor, ← start]
    rfl
  · rw [station, if_pos rfl, number, tallies]
    rfl
  · show G.store.advanceNumber.header 8 4 = _
    rw [(advanceNumber_leaves _).1, number]
  · show (G.store.advanceNumber.account n).held = _
    rw [account_advanceNumber _ hn]
    exact fields Account.held (fun _ _ _ => rfl) fun _ _ => rfl
  · show (G.store.advanceNumber.account n).holders = _
    rw [account_advanceNumber _ hn]
    exact fields Account.holders (fun _ _ _ => rfl) fun _ _ => rfl
  · show G.store.advanceNumber.read p = _
    rw [read_advanceNumber_outside _ header, apart p stream accounts, store, Memory.read_editAccount_outside]
    by_contra inside
    exact accounts (accountBytes_inAccounts hn inside)
  · show EvenCounts G.store.advanceNumber
    exact advanceNumber_tidy.even (evenly even)

/-- With an empty tally an opening changes its station, its account and the header's next number alone (R73, R74). -/
theorem openedFloor_quiet {h : Floor} (hn : n < 1024) (fed : y.line.live.fed = 0)
    (opened : openedFloor e i o ((f.onStation i fun _ => y).onStore fun m => m.editAccount n (·.addHolder units)) = h) :
    h = { f with store := h.store, stations := f.stations.set i (y.sessionOpened o f.store.sessionNumber e.partTime) } ∧
      h.store.account n = edited (f.store.account n) ((f.store.account n).addHolder units) ∧
      ∀ p, ¬ inAccount n p → ¬ inHeaderField 4 2 p → ¬ inHeaderField 8 4 p → ¬ inHeaderRest p →
        h.store.read p = f.store.read p := by
  generalize start : ((f.onStation i fun _ => y).onStore fun m => m.editAccount n (·.addHolder units)) = F at opened
  have at_i : F.station i = y := by rw [← start, station_onStore, station_onStation_self]
  have store : F.store = f.store.editAccount n (·.addHolder units) := by rw [← start]; rfl
  have outside : ∀ p, ¬ inAccount n p → F.store.read p = f.store.read p := fun p account => by
    rw [store]
    refine Memory.read_editAccount_outside f.store _ ?_
    simp only [inAccount, inBytes] at account
    omega
  have number : F.store.sessionNumber = f.store.sessionNumber := by
    rw [Memory.sessionNumber, Memory.sessionNumber, header_congr (by omega) fun p header => outside p fun account =>
      (header_apart header).2 (inAccount_inAccounts hn account)]
  rw [openedFloor_empty (by rw [at_i]; exact fed), number] at opened
  subst opened
  refine ⟨floor_ext rfl (fun j => ?_) ?_ ?_ ?_ ?_, ?_, fun p account count next rest => ?_⟩
  · show _ = (f.setStation i _).station j
    by_cases same : j = i
    · rw [same, station_onStation_self, station_onStore, at_i, station_setStation_self]
    · rw [station_onStation_other _ _ _ _ same, station_onStore, ← start, station_onStore, station_onStation_other _ _ _ _ same,
        station_setStation_other _ _ _ _ same]
  · show F.waitQueue = f.waitQueue
    rw [← start]
    rfl
  · show F.dropped = f.dropped
    rw [← start]
    rfl
  · show F.rptWr = f.rptWr
    rw [← start]
    rfl
  · show F.irqFlag = f.irqFlag
    rw [← start]
    rfl
  · show F.store.advanceNumber.account n = _
    rw [account_advanceNumber _ hn, store]
    exact Memory.account_editAccount_self f.store _ hn
  · exact ((advanceNumber_leaves F.store).2 p count next rest).trans (outside p account)

end Holds

end Sys2Proof.Machine
end

section
/-! PROOF. A SHOP card accepted at an IDLE station opens a session: the hold of a CUSTOMER card, the SERVICE card on the house
account, and the funding check of the opening (R71 to R74, R81, R82). -/

namespace Sys2Proof.Machine

open Sys2Proof
-- One proof after the other: proofs that wait for one another hold a thread each, and its memory.
set_option Elab.async false

section Cards

variable {e : Mode} {i : StationId} {f : Floor} {y : Station} {c : Card} {d : DirEntry}

/-! ### The openings of the session controller (R71, R72) -/

/-- A SERVICE card that is ACTIVE opens a session on the house account (R69, R71). -/
theorem judgeCard_service (run : e.run ≠ .stopping) (shop : c.medium = .shop) (known : f.store.lookup c.bytes.toNat = some d)
    (active : d.state = 1) (service : d.role = 2) :
    judgeCard e i c (f.onStation i fun _ => y) = openService e i c d (f.onStation i fun _ => y) := by
  unfold judgeCard
  dsimp only
  rw [if_neg run, shop, onStation_store, known]
  dsimp only
  rw [if_neg (by simp [DirEntry.isActive, active]), if_pos (show d.isService = true from beq_iff_eq.mpr service)]

/-- The opening of a SERVICE session on account `n` (R71). -/
def serviceOpening (c : Card) (d : DirEntry) (n : Nat) : Opening :=
  { role := .service, card := some c, chain := d.chain, foundAt := 0
    entry := { kind := .house, account := n, slot := 0, hold := 0, committed := 0, grants := [] }
    announce := showOn 1 .service 0 0 }

/-- The opening of a CUSTOMER session with a hold on account `n`, found in a slot of the chain (R72). -/
def customerOpening (c : Card) (d : DirEntry) (slot n hold : Nat) (a : Account) : Opening :=
  { role := .customer, card := some c, chain := d.chain, foundAt := slot
    entry := { kind := .account, account := n, slot := slot, hold := hold, committed := 0, grants := [] }
    announce := showOn 1 .balance hold (a.addHolder hold).available }

theorem openService_eq : openService e i c d (f.onStation i fun _ => y) =
    openSession e i (serviceOpening c d (serviceAccount f.store y.copy))
      ((f.onStation i fun _ => y).onStore fun m => m.editAccount (serviceAccount f.store y.copy) (·.addHolder 0)) := by
  unfold openService
  rw [station_onStation_self]
  rfl

theorem acceptCustomer_opens {slot n hold : Nat} (hn : n < 1024) (held : hold = firstHold f.store y.copy.holdStep n)
    (found : (d.chain.slots.find? fun k => usable f.store y.holdNeed k.2) = some (slot, n)) :
    acceptCustomer e i c d (f.onStation i fun _ => y) =
      openSession e i (customerOpening c d slot n hold (f.store.account n))
        ((f.onStation i fun _ => y).onStore fun m => m.editAccount n (·.addHolder hold)) := by
  have available : ((f.store.editAccount n (·.addHolder hold)).account n).available =
      ((f.store.account n).addHolder hold).available :=
    Memory.field_editAccount_self f.store (·.addHolder hold) Account.available hn fun _ _ => rfl
  unfold acceptCustomer
  dsimp only
  rw [station_onStation_self, onStation_store, found]
  dsimp only
  rw [← held]
  simp only [onStore_store, onStation_store, available]
  rfl

/-! ### The funds at the opening -/

/-- A hold of at least the hold need meets the guard (R35, R81). -/
theorem customer_fundsPass {slot n hold number : Nat} {a : Account} {now : Time} (enough : y.holdNeed ≤ hold) :
    (y.sessionOpened (customerOpening c d slot n hold a) number now).fundsPass = true := by
  have guardMet : y.guardValue ≤ hold * 1000 := by
    unfold Station.holdNeed ceilDiv at enough
    omega
  have met : (y.sessionOpened (customerOpening c d slot n hold a) number now).meetsGuard = true := by
    show decide ((y.guardValue : Int) ≤ (hold : Int) * 1000 - 0) = true
    rw [decide_eq_true_eq]
    omega
  rw [Station.fundsPass, met, Bool.or_true]

/-- The account that a chain's search finds stands in the table and has the hold need available (R70, R72). -/
theorem found_usable {m : Memory} {chain : Chain} {need slot n : Nat}
    (found : chain.slots.find? (fun k => usable m need k.2) = some (slot, n)) :
    n < 1024 ∧ need ≤ (m.account n).available.toNat := by
  have isUsable : usable m need n = true := List.find?_some (p := fun k : Nat × Nat => usable m need k.2) found
  simp only [usable, Bool.and_eq_true, decide_eq_true_eq] at isUsable
  obtain ⟨⟨table, _⟩, available⟩ := isUsable
  exact ⟨table, by omega⟩

end Cards

/-! ### What a funding check keeps of the first entry -/

section Entries

variable {e : Mode} {i : StationId} {f : Floor}

theorem fundingSteps_shapes (spills : Nat) :
    (f.station i).context.shapes <+: ((fundingSteps i spills f).station i).context.shapes := by
  have top : ∀ g, (g.station i).context.shapes <+: ((topUp i g).station i).context.shapes := fun g =>
    (topUp_books i g).shapes ▸ List.prefix_refl _
  induction spills generalizing f with
  | zero => exact top f
  | succ n ih =>
    simp only [fundingSteps]
    split
    · exact top f
    · split
      · exact top f
      · split
        · next slot account _ =>
          refine (top f).trans (List.IsPrefix.trans ?_ ih)
          unfold spillTo
          rw [station_onStation_self, station_onStore, Context.shapes, Context.shapes, List.map_append]
          exact List.prefix_append ..
        · exact top f

theorem fundingCheck_shapes : (f.station i).context.shapes <+: ((fundingCheck e i f).station i).context.shapes := by
  show _ <+: ((fundingCheckOpen e i f).station i).context.shapes
  unfold fundingCheckOpen
  dsimp only
  split
  · rw [checkOutcome_context]
    split
    · exact fundingSteps_shapes 2
    · exact List.prefix_refl _
  · exact List.prefix_refl _

/-- A check changes nothing of a session's context but its funding list (R81, R82). -/
theorem fundingCheck_context :
    ((fundingCheck e i f).station i).context =
      { (f.station i).context with funding := ((fundingCheck e i f).station i).context.funding } := by
  obtain ⟨none, checked⟩ := fundingCheck_station e i f
  cases checks : (f.station i).state.checksFunds with
  | false => rw [none checks]
  | true =>
    obtain ⟨l, a, judged⟩ := checked checks
    rw [judged, Station.judged]
    dsimp only
    split
    · split <;> rfl
    · split <;> rfl

/-- After a check the first entry still names its account and its slot, and holds no less (R82). -/
theorem fundingCheck_first {en : FundingEntry} (funding : (f.station i).context.funding = [en]) :
    ∃ first rest, ((fundingCheck e i f).station i).context.funding = first :: rest ∧ first.account = en.account ∧
      first.slot = en.slot ∧ first.committed = en.committed ∧ en.hold ≤ first.hold := by
  have shapes := fundingCheck_shapes (e := e) (i := i) (f := f)
  obtain ⟨first, found, committed, account, hold⟩ := fundingCheck_entries e i f 0 en (by rw [funding]; rfl)
  cases list : ((fundingCheck e i f).station i).context.funding with
  | nil =>
    rw [list] at found
    cases found
  | cons head rest =>
    rw [list] at found
    cases found
    rw [Context.shapes, Context.shapes, funding, list] at shapes
    have slot := congrArg FundingEntry.slot (List.cons_prefix_cons.mp shapes).1.symm
    exact ⟨first, rest, rfl, account, slot, committed, hold⟩

end Entries

/-! ### The opening as a step -/

section Steps

variable {i : StationId} {card : BitVec 64} {s : State} {o : Opening} {y : Station} {n units : Nat}

/-- The card's work is the opening of a session `o` with a hold of `units` on account `n` (R71, R72). -/
structure OpensWith (i : StationId) (card : BitVec 64) (s : State) (o : Opening) (y : Station) (n units : Nat) : Prop where
  work : receiveFrame i (.cardIn 1 card) s.mode s.floor = openSession s.mode i o
    ((s.floor.onStation i fun _ => y).onStore fun m => m.editAccount n (·.addHolder units))
  table : n < 1024
  line : y.line = (s.floor.station i).line
  copy : y.copy = (s.floor.station i).copy

/-- The station as the opening leaves it, before its funding check. -/
abbrev State.openedStation (s : State) (o : Opening) (y : Station) : Station :=
  y.sessionOpened o s.floor.store.sessionNumber s.mode.partTime

/-- The floor of the opening's check is reached, and the step ends as the check leaves it (R73 step 6). -/
theorem OpensWith.reaches (h : OpensWith i card s o y n units) (run : s.mode.run ≠ .clearing)
    (good : y.line.live.fed ≠ 0 → goodOffset s.floor.rptWr) :
    ∃ g, receiveFrame i (.cardIn 1 card) s.mode s.floor = fundingCheck s.mode i g ∧
      EndsWith (.cardIn i 1 card) s (fundingCheck s.mode i g) ∧ OpenedOn s.mode i o y n units s.floor g ∧
      (y.line.live.fed = 0 → g = { s.floor with store := g.store, stations := s.floor.stations.set i (s.openedStation o y) } ∧
        g.store.account n = edited (s.floor.store.account n) ((s.floor.store.account n).addHolder units) ∧
        ∀ p, ¬ inAccount n p → ¬ inHeaderField 4 2 p → ¬ inHeaderField 8 4 p → ¬ inHeaderRest p →
          g.store.read p = s.floor.store.read p) := by
  have work := h.work.trans openSession_eq
  have ends := endsWith_of (c := .cardIn i 1 card) (change := receiveFrame i (.cardIn 1 card)) rfl run
  rw [work] at ends
  exact ⟨_, work, ends, openedFloor_openedOn h.line h.copy h.table good, fun fed => openedFloor_quiet h.table fed rfl⟩

/-- Where the guard is met the check of the opening changes nothing (R81). -/
theorem OpenedOn.quiet {e : Mode} {f g : Floor} (h : OpenedOn e i o y n units f g) (even : EvenCounts f.store)
    (pass : (y.sessionOpened o f.store.sessionNumber e.partTime).fundsPass = true) : fundingCheck e i g = g := by
  have opened : (g.station i).state = .opened := congrArg Station.state h.station
  have passes : (g.station i).fundsPass = true := (congrArg Station.fundsPass h.station).trans pass
  exact fundingCheck_quiet (h.even even) (by rw [opened]; decide) (.inr passes)

/-- With an empty tally an opening whose guard is met changes its station, its account and the next session number (R73, R74). -/
theorem OpensWith.changes (h : OpensWith i card s o y n units) (l4 : EnableLaw s) (run : s.mode.run = .running)
    (even : EvenLaw s) (pass : (s.openedStation o y).fundsPass = true) (fed : y.line.live.fed = 0) :
    ChangesToAnd (fun a => inAccount n a ∨ inHeaderField 4 2 a ∨ inHeaderField 8 4 a ∨ inHeaderRest a)
      (fun after => after.account n = edited (s.floor.store.account n) ((s.floor.store.account n).addHolder units) ∧
        after.header 8 4 = nextNumber s.floor.store.sessionNumber)
      (.cardIn i 1 card) i s (s.openedStation o y) := by
  have notClearing : s.mode.run ≠ .clearing := by rw [run]; decide
  obtain ⟨g, work, _, opened, quiet⟩ := h.reaches notClearing fun some => absurd fed some
  obtain ⟨floor, account, cells⟩ := quiet fed
  rw [opened.quiet (even.evenCounts (.inl run)) pass] at work
  refine changesToAnd_of (change := receiveFrame i (.cardIn 1 card)) rfl notClearing l4 (work.trans floor)
    ⟨account, opened.number⟩ fun p outside => ?_
  simp only [not_or] at outside
  exact cells p outside.1 outside.2.1 outside.2.2.1 outside.2.2.2

/-- An opening that closes a tally, its guard met (R19, R73, R74). -/
theorem OpensWith.closes (h : OpensWith i card s o y n units) (l4 : EnableLaw s) (run : s.mode.run = .running)
    (even : EvenLaw s) (pass : (s.openedStation o y).fundsPass = true) (offset : OffsetLaw s) :
    ∃ t, exec (.cardIn i 1 card) s = .next t ∧ KeepsOutside s t ∧
      KeepsOthers i s.floor t.floor ∧ TallyClosed s.mode i .sessionOpened y.line.live s.floor t.floor ∧
      t.floor.store.header 8 4 = nextNumber s.floor.store.sessionNumber ∧
      (t.floor.store.account n).held = ((s.floor.store.account n).addHolder units).held ∧
      (t.floor.store.account n).holders = ((s.floor.store.account n).addHolder units).holders ∧
      KeepsBytes (fun a => inRecord i a ∨ inHeader a ∨ inStream a ∨ inAccounts a) s.floor t.floor ∧
      let z := t.floor.station i
      z.state = (s.openedStation o y).state ∧ z.context = (s.openedStation o y).context ∧ z.link = (s.openedStation o y).link ∧
      z.auth = (s.openedStation o y).auth ∧ z.line.pace = 0 ∧ z.line.inPath = y.line.inPath := by
  have notClearing : s.mode.run ≠ .clearing := by rw [run]; decide
  obtain ⟨g, work, _, opened, _⟩ := h.reaches notClearing fun _ => ⟨offset.1, offset.2.1⟩
  rw [opened.quiet (even.evenCounts (.inl run)) pass] at work
  obtain ⟨t, step, outside, floor, others, station⟩ := exec_at (c := .cardIn i 1 card) (i := i)
    (change := receiveFrame i (.cardIn 1 card)) rfl notClearing l4 work opened.others
  have store : t.floor.store = g.store := by rw [floor]
  have lineOf : (t.floor.station i).line = ((g.station i).driveEnable s.mode).line := by
    rw [station]
    exact settleRecord_line ..
  rw [opened.station] at station
  refine ⟨t, step, outside, others, ?_, ?_, ?_, ?_, ?_, ?_⟩
  · refine opened.tally.congr rfl rfl rfl rfl rfl ((congrArg LineUnit.live lineOf).trans rfl)
      ((congrArg LineUnit.closed lineOf).trans rfl) ?_ ?_ ?_
    · rw [floor]
    · rw [floor]
      exact id
    · intro p _
      rw [store]
  · rw [store, opened.number]
  · rw [store, opened.held]
  · rw [store, opened.holders]
  · refine keepsBytes_of others (fun a out _ => ?_) fun a inside => .inl inside
    simp only [not_or] at out
    rw [store]
    exact opened.cells a out.2.2.1 out.2.1 out.2.2.2
  · rw [station]
    exact ⟨settleRecord_state .., settleRecord_context .., settleRecord_link .., settleRecord_auth ..,
      (congrArg LineUnit.pace (settleRecord_line ..)).trans rfl, (congrArg LineUnit.inPath (settleRecord_line ..)).trans rfl⟩

/-! ### The check of the opening (R73 step 6) -/

/-- After its check the session is OPEN or LOW, and its first entry is still the one it opened with (R73, R81, R82). -/
theorem OpenedOn.checked {e : Mode} {f g : Floor} (h : OpenedOn e i o y n units f g) :
    let z := (fundingCheck e i g).station i
    z.state = (if z.fundsPass then .opened else .low) ∧
      ∃ first rest, z.context = { o.context f.store.sessionNumber e.partTime with funding := first :: rest } ∧
        first.account = o.entry.account ∧ first.slot = o.entry.slot ∧ first.committed = o.entry.committed ∧
        o.entry.hold ≤ first.hold := by
  have opened : (g.station i).state = .opened := congrArg Station.state h.station
  have context : (g.station i).context = o.context f.store.sessionNumber e.partTime := congrArg Station.context h.station
  have decides := fundingCheck_decides (e := e) (i := i) (f := g) (by rw [opened]; rfl)
  rw [opened] at decides
  obtain ⟨first, rest, list, entry⟩ := fundingCheck_first (e := e) (i := i) (f := g) (en := o.entry) (by rw [context]; rfl)
  refine ⟨decides, first, rest, ?_, entry⟩
  rw [← list, ← context]
  exact fundingCheck_context

/-! ### The card at the IDLE station -/

section Accepted

variable {d : DirEntry}

/-- The card is with the session controller, the station holding it (R47, R69). -/
def HandedOver (i : StationId) (card : BitVec 64) (s : State) (y : Station) : Prop :=
  receiveFrame i (.cardIn 1 card) s.mode s.floor = judgeCard s.mode i (cardOf 1 card) (s.floor.onStation i fun _ => y)

/-- A CUSTOMER card takes the first hold on the first usable account of its chain (R70, R72). -/
theorem HandedOver.customer (h : HandedOver i card s y) (run : s.mode.run = .running)
    (known : s.floor.store.lookup card.toNat = some d) (active : d.state = 1) (customer : d.role ≠ 2)
    (service : y.noService = false) (line : y.line = (s.floor.station i).line) (copy : y.copy = (s.floor.station i).copy) {slot : Nat}
    (found : d.chain.slots.find? (fun k => usable s.floor.store y.holdNeed k.2) = some (slot, n)) :
    OpensWith i card s
      (customerOpening (cardOf 1 card) d slot n (firstHold s.floor.store y.copy.holdStep n) (s.floor.store.account n)) y n
      (firstHold s.floor.store y.copy.holdStep n) := by
  have notStopping : s.mode.run ≠ .stopping := by rw [run]; decide
  have table : n < 1024 := (found_usable found).1
  have judged := judgeCard_customer (i := i) (y := y) (c := cardOf 1 card) notStopping
    (mediumOf_shop (medium := 1) rfl) known active customer
  rw [if_neg (Bool.eq_false_iff.mp service)] at judged
  exact ⟨(Eq.trans h judged).trans (acceptCustomer_opens table rfl found), table, line, copy⟩

/-- A SERVICE card opens on the house account without a hold (R71). -/
theorem HandedOver.service (h : HandedOver i card s y) (run : s.mode.run = .running)
    (known : s.floor.store.lookup card.toNat = some d) (active : d.state = 1) (service : d.role = 2) (house : y.copy.house < 1024)
    (line : y.line = (s.floor.station i).line) (copy : y.copy = (s.floor.station i).copy) :
    OpensWith i card s (serviceOpening (cardOf 1 card) d (serviceAccount s.floor.store y.copy)) y
      (serviceAccount s.floor.store y.copy) 0 := by
  have notStopping : s.mode.run ≠ .stopping := by rw [run]; decide
  have judged := judgeCard_service (i := i) (y := y) (c := cardOf 1 card) notStopping
    (mediumOf_shop (medium := 1) rfl) known active service
  exact ⟨(Eq.trans h judged).trans openService_eq, serviceAccount_small house, line, copy⟩

end Accepted

end Steps

/-- A hold of nothing counts a holder alone (R135). -/
theorem Account.addHolder_zero (a : Account) : a.addHolder 0 = { a with holders := a.holders + 1 } := by
  simp [Account.addHolder, Account.addHeld]

/-- Settles O50: the card opens its session with a hold; a guard that is met leaves the opening as the whole step, and a guard
that is not met is the funding check's. -/
theorem shopCardOpensASession : Obligations.ShopCardOpensASession := by
  unfold Obligations.ShopCardOpensASession
  intro i card d s l4 even run nonzero x m next number heard link opened becomes up agreed idle grace known active
  have valid : cardFieldsValid 1 card = true := (cardFieldsValid_iff 1 card).mpr (.inl ⟨rfl, nonzero⟩)
  have handed : HandedOver i card s (heard.holding (cardOf 1 card)) :=
    cardIn_judged (medium := 1) run valid up agreed idle grace
  refine ⟨fun slot n customer service step found => ?_, fun slot n customer service offset found => ?_, fun service house => ?_⟩
  · have opens := handed.customer run known active customer service rfl rfl found
    have enough : x.holdNeed ≤ firstHold m x.copy.holdStep n := le_min step (found_usable found).2
    have pass : (s.openedStation (customerOpening (cardOf 1 card) d slot n (firstHold m x.copy.holdStep n) (m.account n))
        (heard.holding (cardOf 1 card))).fundsPass = true := customer_fundsPass enough
    exact ⟨opens.changes l4 run even pass, fun _ => opens.closes l4 run even pass⟩
  · have opens := handed.customer run known active customer service rfl rfl found
    obtain ⟨g, _, ends, on, quiet⟩ := opens.reaches (by rw [run]; decide) fun _ => ⟨offset.1, offset.2.1⟩
    refine ⟨g, ends, on.tally, on.others, on.dropped, on.station, on.number, on.held, on.holders, fun fed => ?_, on.cells,
      on.checked⟩
    obtain ⟨floor, account, cells⟩ := quiet fed
    have stations : g.stations = s.floor.stations.set i _ := congrArg Floor.stations floor
    refine ⟨?_, account, fun p outside header => cells p outside (fun field => header (inHeader_of_field field (by omega)))
      (fun field => header (inHeader_of_field field (by omega))) fun rest => header (inHeader_of_rest rest)⟩
    rw [stations]
    exact floor
  · have opens := handed.service run known active service house rfl rfl
    have pass : (s.openedStation (serviceOpening (cardOf 1 card) d (serviceAccount m x.copy))
        (heard.holding (cardOf 1 card))).fundsPass = true := rfl
    have changes := opens.changes l4 run even pass
    have closes := opens.closes l4 run even pass
    rw [Account.addHolder_zero] at changes closes
    exact ⟨changes, fun _ => closes⟩

end Sys2Proof.Machine
end

section
/-! PROOF. When a jam clears, where its station moves then (R95, R122, R123, R126), and when a recovery ends (R127). -/

namespace Sys2Proof.Machine

open Sys2Proof
-- One proof after the other: proofs that wait for one another hold a thread each, and its memory.
set_option Elab.async false

/-- The station of a recovery at its beginning, before the funding check (R123, R127). -/
abbrev Station.recovering (now : Time) (x : Station) : Station :=
  { x with
    state := .recovery, jam := { x.jam with deliveries := 0, recoveryStart := now }
    link := x.link.offer (showOn 1 .remaining x.lastUnits x.context.totalDelivered) }

/-! ### The conditions -/

/-- The three conditions at which a jam clears at a JAMMED station (R122). -/
theorem jamOver_iff (now : Time) (x : Station) :
    x.jamOver now = true ↔ x.state = .jammed ∧ x.line.fault = false ∧ 2000 ≤ elapsed now x.jam.settleStart ∧
      x.jam.pendingReport = none := by
  simp only [Station.jamOver, Bool.and_eq_true, beq_iff_eq, Bool.not_eq_true', decide_eq_true_eq, Option.isNone_iff_eq_none,
    and_assoc]
  exact Iff.rfl

/-- The end of a recovery is due 60,000 ms after its start (R127). -/
theorem recoveryOver_iff (now : Time) (x : Station) :
    (x.state == .recovery && timerReached now (some x.jam.recoveryStart) Config.recoveryTime) = true ↔
      x.state = .recovery ∧ 60000 ≤ elapsed now x.jam.recoveryStart := by
  simp only [Bool.and_eq_true, beq_iff_eq, timerReached, decide_eq_true_eq]
  exact Iff.rfl

/-! ### Where the station moves (R95, R123) -/

section Moves

variable {e : Mode} {i : StationId} {f : Floor}

/-- A LIVE session below the jam limit enters RECOVERY, and the funding check follows (R81, R123). -/
theorem afterJam_recovers (live : (f.station i).context.condition = .live)
    (below : (f.station i).context.jams < (f.station i).copy.jamLimit) :
    afterJam e i f = fundingCheck e i (f.onStation i (Station.recovering e.partTime)) := by
  unfold afterJam enterRecovery showRemaining
  simp only [live]
  rw [if_neg (Nat.not_le.mpr below), offer_eq, onStation_onStation, station_onStation_self]
  exact congrArg (fundingCheck e i) (onStation_congr _ _ rfl)

/-- A LIVE session at the jam limit ends, its station out pending and DRAINING (R88, R95, R123). -/
theorem afterJam_ends (live : (f.station i).context.condition = .live)
    (limit : (f.station i).copy.jamLimit ≤ (f.station i).context.jams) :
    afterJam e i f = f.onStation i fun x =>
      { (x.finaliseLost.setOutPending .jamLimit).ended e.partTime .jamLimit with state := .draining } := by
  unfold afterJam endAtJamLimit
  simp only [live]
  rw [if_pos limit, endSession_eq, onStation_onStation, onStation_onStation]

/-- An ENDING session drains on (R95). -/
theorem afterJam_drains (ending : (f.station i).context.condition = .ending) :
    afterJam e i f = f.onStation i fun x => { x.finaliseLost with state := .draining } := by
  unfold afterJam
  simp only [ending]

/-- A SETTLING session settles on (R95). -/
theorem afterJam_settles (settling : (f.station i).context.condition = .settling) :
    afterJam e i f = f.onStation i fun x => { x.finaliseLost with state := .settling } := by
  unfold afterJam
  simp only [settling]

/-- Without a session the station goes OUT where it is out pending, and is else IDLE (R95, R98). -/
theorem afterJam_frees (freed : (f.station i).context.condition = .empty ∨ (f.station i).context.condition = .abandoned) :
    afterJam e i f =
      if (f.station i).outPending = .none then reachIdle e i (f.onStation i Station.finaliseLost)
      else enterOut e i (f.station i).outPending (f.onStation i Station.finaliseLost) := by
  unfold afterJam
  rcases freed with h | h <;> simp only [h, ite_not]

/-- A station that reaches IDLE in RUNNING with an empty next-card slot changes its state alone (R91). -/
theorem reachIdle_vacant (running : e.run = .running) (card : (f.station i).nextCard = none) :
    reachIdle e i f = f.onStation i fun x => { x with state := .idle } := by
  unfold reachIdle
  simp only [running, reduceCtorEq, if_false, station_onStation_self, card]

end Moves

/-- Settles O44: `afterJam` by the condition of the context, with the funding check, the entry to OUT and the arrival at IDLE as
they are stated once. -/
theorem jamsClearAndRecoveriesEnd : Obligations.JamsClearAndRecoveriesEnd := by
  unfold Obligations.JamsClearAndRecoveriesEnd
  intro i s l4 even runs x now final clears
  have run : s.mode.run ≠ .clearing := by rcases runs with h | h <;> rw [h] <;> decide
  have running : s.mode.runs = true := by rcases runs with h | h <;> simp [Mode.runs, h]
  have due : clears → jamDue i s.mode s.floor = afterJam s.mode i s.floor := fun clear =>
    if_pos (Bool.and_eq_true_iff.mpr ⟨running, (jamOver_iff now x).mpr clear⟩)
  have becomes : ∀ {y : Station}, clears → (afterJam s.mode i s.floor = s.floor.onStation i fun _ => y) →
      ChangesTo (.jamClears i) i s y := fun clear work =>
    changesTo_of (change := jamDue i) rfl run l4 ((due clear).trans work)
  have recovers : x.context.condition = .live → x.context.jams < x.copy.jamLimit →
      afterJam s.mode i s.floor = fundingCheck s.mode i (s.floor.onStation i fun _ => x.recovering now) :=
    afterJam_recovers
  have self : (s.floor.onStation i fun _ => x.recovering now).station i = x.recovering now := station_onStation_self ..
  refine ⟨fun stuck => ?_, fun clear live below pass => ?_, fun clear live below => ?_, fun clear live limit => ?_,
    fun clear ending => ?_, fun clear settling => ?_, fun clear empty pending card running => ?_,
    fun clear freed offset => ?_, fun recovery late => ?_, fun early => ?_⟩
  · exact noEffect_of (change := jamDue i) rfl l4 (if_neg fun clear =>
      stuck ((jamOver_iff now x).mp (Bool.and_eq_true_iff.mp clear).2))
  · refine becomes clear ((recovers live below).trans ?_)
    exact fundingCheck_quiet (even.evenCounts runs) (by rw [self]; exact StationState.noConfusion) (.inr (by rw [self]; exact pass))
  · have ends := endsWith_of (c := .jamClears i) (s := s) (change := jamDue i) rfl run
    rw [due clear, recovers live below] at ends
    have outcome := fundingCheck_recovery (e := s.mode) (i := i) (f := s.floor.onStation i fun _ => x.recovering now)
      (by rw [self])
    rw [self] at outcome
    exact ⟨ends, outcome⟩
  · exact becomes clear (afterJam_ends live limit)
  · exact becomes clear (afterJam_drains ending)
  · exact becomes clear (afterJam_settles settling)
  · refine becomes clear ((afterJam_frees (.inl empty)).trans ?_)
    rw [if_pos pending, reachIdle_vacant running (by rw [station_onStation_self]; exact card), onStation_onStation]
    rfl
  · intro f
    have ends := endsWith_of (c := .jamClears i) (s := s) (change := jamDue i) rfl run
    rw [due clear, afterJam_frees freed] at ends
    refine ⟨_, ends, ?_⟩
    by_cases pending : x.outPending = .none
    · rw [if_pos pending, if_pos pending]
      exact reachIdle_becameIdle s.mode i f ⟨offset.1, offset.2.1⟩
    · rw [if_neg pending, if_neg pending]
      exact enterOut_wentOut i x.outPending (f := f) running offset.2.2.2 ⟨offset.1, offset.2.1⟩
  · exact changesTo_of (change := recoveryDue i) rfl run l4 (if_pos ((recoveryOver_iff now x).mpr ⟨recovery, late⟩))
  · refine noEffect_of (change := recoveryDue i) rfl l4 (if_neg fun ending => ?_)
    obtain ⟨recovery, late⟩ := (recoveryOver_iff now x).mp ending
    exact early.elim (fun other => other recovery) fun soon => absurd late (Nat.not_le.mpr soon)

end Sys2Proof.Machine
end

section
/-! SUPPORT. The end of an order whose work touches one station (R174, R175). -/

namespace Sys2Proof.Machine

open Sys2Proof
-- One proof after the other: proofs that wait for one another hold a thread each, and its memory.
set_option Elab.async false

/-- An order that names station `i` is taken at that station, but in STOPPED (R175). -/
theorem stationOrder_named {body : Mode → StationId → Nat → Floor → Executed} {e : Mode} {i : StationId} {slot : Nat} {f : Floor}
    (run : e.run ≠ .stopped) (named : f.store.param slot 0 1 = i.val + 1) : stationOrder body e slot f = body e i slot f := by
  have station : f.store.paramStation slot = some i := by
    have hi := i.isLt
    simp only [Memory.paramStation, named]
    exact dif_pos (by omega)
  unfold stationOrder
  rw [if_neg run, station]

/-- The answer of an order stands below the report stream (R164, 11.1). -/
theorem inAnswer_low {done : Half} {a : Nat} (h : inAnswer done a) : a < Config.streamBase := by
  simp only [inAnswer, inBytes, slotAddr, Config.streamBase] at *
  omega

theorem reportPlace_high (wr len : Nat) : Config.streamBase ≤ reportPlace wr len := Nat.le_add_right _ _

section Finish

variable {s : State} {x : Executed} {i : StationId}

/-- An order's answer changes no cell from the report stream on (R164, R174). -/
theorem finishOrder_high {a : Nat} (high : Config.streamBase ≤ a) :
    (finishOrder s x).floor.store.read a = x.floor.store.read a :=
  read_writeReply_outside _ _ fun answer => Nat.not_lt.mpr high (inAnswer_low answer)

/-- The station an order's work has touched ends the step, and every other station is as it was, under law L4. -/
theorem finishOrder_at (l4 : EnableLaw s) (page : x.page = s.mode.page) (others : KeepsOthers i s.floor x.floor) :
    (finishOrder s x).mode = s.mode ∧ KeepsOthers i s.floor (finishOrder s x).floor ∧
      (finishOrder s x).floor.station i = finished s.mode (s.floor.station i) (x.floor.station i) := by
  obtain ⟨reply, _, floor⟩ := x
  dsimp only at page
  subst page
  exact ⟨finishOrder_mode .., fun j other => settle_same (others j other) (l4 j), finishOrder_station ..⟩

/-- An order whose work touches one station and the cells `stored` keeps every other byte a host reads (R174). -/
theorem finishOrder_keepsBytes {stored : Nat → Prop} (others : KeepsOthers i s.floor (finishOrder s x).floor)
    (cells : ∀ a, ¬ stored a → x.floor.store.read a = s.floor.store.read a) :
    KeepsBytes (fun a => inAnswer s.port.ordDone a ∨ inRecord i a ∨ stored a) s.floor (finishOrder s x).floor :=
  keepsBytes_of others
    (fun a outside _ => (read_writeReply_outside _ _ fun answer => outside (.inl answer)).trans
      (cells a fun place => outside (.inr (.inr place))))
    fun _ record => .inr (.inl record)

/-- A command whose order makes station `i` `y` and is answered with `r` changes that station and its slot alone (R174). -/
theorem orderChangesTo_of {c : Instr} {kind : Nat} {taken : Nat → Bool} {body : Mode → Nat → Floor → Executed} {r : Reply}
    {y : Station} (work : orderWork c = some (taken, body)) (order : OrderAt s kind) (own : taken kind = true) (l4 : EnableLaw s)
    (size : layoutSize r.answer ≤ 8)
    (changes : body s.mode s.slot s.floor = ⟨r, s.mode.page, s.floor.onStation i fun _ => y⟩) :
    OrderChangesTo c i s r.result r.answer y := by
  obtain ⟨mode, others, station⟩ := finishOrder_at (x := ⟨r, s.mode.page, s.floor.onStation i fun _ => y⟩) l4 rfl
    fun j other => station_onStation_other _ _ _ _ other
  refine ⟨_, exec_order work order own, ?_⟩
  rw [changes]
  refine ⟨finishOrder_answered _ _ size, ⟨mode, finishOrder_irqFlag .., rfl, rfl, rfl, others, ?_⟩, ?_⟩
  · intro a outside
    refine finishOrder_keepsBytes (stored := fun _ => False) others (fun _ _ => rfl) a fun place => outside ?_
    exact place.imp_right fun record => .inl ⟨i, rfl, record.resolve_right id⟩
  · rw [station, station_onStation_self]

end Finish

end Sys2Proof.Machine
end

section
/-! PROOF. STATION OUT: the entry to OUT of a station without a session, and the out-pending mark of any other (R75, R97, R98). -/

namespace Sys2Proof.Machine

open Sys2Proof
-- One proof after the other: proofs that wait for one another hold a thread each, and its memory.
set_option Elab.async false

section Out

variable {e : Mode} {i : StationId} {f : Floor}

/-- A station without a session that is to enter OUT: a funding wait has been given up, its request closed (R75, R97, R107). -/
def Station.leaving (x : Station) : Station :=
  if x.state = .funding then { (x.refusal .outOfService 0 0).givenUp with state := .funding } else x

/-- A station with an empty live tally and no next card that has entered OUT (R20, R98). -/
def Station.outEntered (cause : OutCause) (x : Station) : Station :=
  { x with
    state := .out, outCause := cause, outPending := .none
    line := { x.line with
      inPath := [], live := { x.line.live with lost := min (x.line.live.lost + x.line.inPath.length) 65535 } }
    link := x.link.offer (showOn 1 .outOfService 0 0) }

/-- The entry to OUT with an empty live tally and no next card is a change of the station with a notice handed on (R98, R180). -/
theorem enterOut_quiet (cause : OutCause) (fed : (f.station i).line.live.fed = 0) (card : (f.station i).nextCard = none) :
    enterOut e i cause f = stationNotice e i .out cause (f.onStation i (Station.outEntered cause)) := by
  unfold enterOut
  dsimp only
  rw [closeStray_empty (by rw [station_onStation_self]; exact fed), ite_self]
  unfold answerNextCard
  rw [if_neg (by rw [station_onStation_self]; simp [card]), offer_eq, onStation_onStation]
  rfl

/-- STATION OUT takes a station without a session OUT (R97). -/
theorem takeOut_leaves (state : (f.station i).state = .idle ∨ (f.station i).state = .funding) :
    takeOut e i f = enterOut e i .staff (f.onStation i Station.leaving) := by
  unfold takeOut
  dsimp only
  rcases state with idle | funding
  · rw [if_pos idle, onStation_self]
    simp [Station.leaving, idle]
  · rw [if_neg (by simp [funding]), if_pos funding, showAndEject_eq, cancelAuth_eq, onStation_onStation, onStation_onStation]
    refine congrArg (enterOut e i .staff) (onStation_congr _ _ ?_)
    rw [Station.leaving, if_pos funding, ← funding]
    rfl

/-- STATION OUT at a station with a live session ends it, the station out pending (R88, R97). -/
theorem takeOut_ends (idle : (f.station i).state ≠ .idle) (funding : (f.station i).state ≠ .funding)
    (live : (f.station i).context.condition = .live) :
    takeOut e i f = f.onStation i fun x => (x.setOutPending .staff).ended e.partTime .staff := by
  unfold takeOut
  dsimp only
  rw [if_neg idle, if_neg funding, endIfLive_eq (by rw [station_onStation_self]; exact live), onStation_onStation]

/-- STATION OUT at any other station sets the out-pending mark alone (R97). -/
theorem takeOut_marks (idle : (f.station i).state ≠ .idle) (funding : (f.station i).state ≠ .funding)
    (live : (f.station i).context.condition ≠ .live) : takeOut e i f = f.onStation i (Station.setOutPending .staff) := by
  unfold takeOut endIfLive
  dsimp only
  rw [if_neg idle, if_neg funding, if_neg (by rw [station_onStation_self]; exact live)]

theorem judgeOut_taken {slot : Nat} (state : (f.station i).state ≠ .out) :
    judgeOut e i slot f = ⟨.bare .accepted, e.page, takeOut e i f⟩ := if_neg state

theorem leaving_line (x : Station) : x.leaving.line = x.line ∧ x.leaving.nextCard = x.nextCard := by
  unfold Station.leaving
  split <;> exact ⟨rfl, rfl⟩

end Out

/-- What STATION OUT leaves at a station of RUNNING or STOPPING that its order names (R97). -/
theorem stationOut_taken {i : StationId} {s : State} (run : s.mode.run ≠ .stopped) (order : OrderAt s 13)
    (named : s.floor.store.param s.slot 0 1 = i.val + 1) (state : (s.floor.station i).state ≠ .out) :
    exec .stationOut s = .next (finishOrder s ⟨.bare .accepted, s.mode.page, takeOut s.mode i s.floor⟩) := by
  rw [exec_order (body := stationOutOrder) rfl order rfl, stationOutOrder, stationOrder_named run named, judgeOut_taken state]

end Sys2Proof.Machine
end

section
/-! PROOF. O35, its first half: STATION OUT (R75, R97, R98). -/

namespace Sys2Proof.Machine

open Sys2Proof
-- One proof after the other: proofs that wait for one another hold a thread each, and its memory.
set_option Elab.async false

section OutOrder

variable {s : State} {i : StationId}

/-- An account's cells stand above the answers (R164, 11.1). -/
theorem inAccounts_high {a : Nat} (h : inAccounts a) : Config.streamBase ≤ a := by
  simp only [inAccounts, Config.accountBase, Config.streamBase] at *
  omega

theorem OffsetLaw.good (offset : OffsetLaw s) : goodOffset s.floor.rptWr := ⟨offset.1, offset.2.1⟩

theorem OffsetLaw.readLimit (offset : OffsetLaw s) : s.mode.rptRd < 8192 := offset.2.2.2

theorem runs_of_run (run : s.mode.run = .running ∨ s.mode.run = .stopping) : s.mode.runs = true := by
  rcases run with run | run <;> simp [Mode.runs, run]

theorem notStopped_of_run (run : s.mode.run = .running ∨ s.mode.run = .stopping) : s.mode.run ≠ .stopped := by
  rcases run with run | run <;> simp [run]

/-- What STATION OUT leaves at a station without a session: the entry to OUT, answered ACCEPTED (R97, R98). -/
theorem stationOut_leaves (l4 : EnableLaw s) (run : s.mode.run = .running ∨ s.mode.run = .stopping) (order : OrderAt s 13)
    (named : s.floor.store.param s.slot 0 1 = i.val + 1)
    (state : (s.floor.station i).state = .idle ∨ (s.floor.station i).state = .funding) :
    let d := enterOut s.mode i .staff (s.floor.onStation i Station.leaving)
    let t := finishOrder s ⟨.bare .accepted, s.mode.page, d⟩
    exec .stationOut s = .next t ∧ Answered s t .accepted [] ∧ t.mode = s.mode ∧ KeepsOthers i s.floor t.floor ∧
      t.floor.station i = finished s.mode (s.floor.station i) (d.station i) := by
  have taken := stationOut_taken (notStopped_of_run run) order named (by rcases state with h | h <;> simp [h])
  rw [takeOut_leaves state] at taken
  have others : KeepsOthers i s.floor (enterOut s.mode i .staff (s.floor.onStation i Station.leaving)) := fun j other =>
    ((enterOut_at s.mode i .staff _).others j other).trans (station_onStation_other _ _ _ _ other)
  exact ⟨taken, finishOrder_answered _ _ (show layoutSize [] ≤ 8 by decide), finishOrder_at l4 rfl others⟩

/-- A STATION notice leaves every cell outside its report as it was (R180). -/
theorem read_stationNotice {e : Mode} {event : NoticeEvent} {cause : OutCause} {f : Floor} (good : goodOffset f.rptWr) {a : Nat}
    (outside : ¬ inReport f.rptWr 16 a) : (stationNotice e i event cause f).store.read a = f.store.read a := by
  have cells := (stationNotice_handled (e := e) i event cause good rfl).2
  split at cells
  · exact cells a outside
  · rw [cells]

/-- A station without a session that is not in FUNDING leaves for OUT as it stands (R97). -/
theorem leaving_idle {x : Station} (idle : x.state = .idle) : x.leaving = x := by simp [Station.leaving, idle]

theorem leaving_funding {x : Station} (funding : x.state = .funding) :
    x.leaving = { (x.refusal .outOfService 0 0).givenUp with state := .funding } := if_pos funding

/-- The entry to OUT by STATION OUT with an empty live tally and no next card (R20, R97, R98). -/
theorem enterOut_leaving {e : Mode} {f : Floor} (fed : (f.station i).line.live.fed = 0) (card : (f.station i).nextCard = none) :
    enterOut e i .staff (f.onStation i Station.leaving) =
      stationNotice e i .out .staff (f.onStation i fun x => x.leaving.outEntered .staff) := by
  obtain ⟨line, next⟩ := leaving_line (f.station i)
  rw [enterOut_quiet .staff (by rw [station_onStation_self, line]; exact fed) (by rw [station_onStation_self, next]; exact card),
    onStation_onStation]

/-- STATION OUT at an IDLE station whose live tally is empty and whose next-card slot is empty (R20, R97, R98, R180). -/
theorem stationOut_idle (l4 : EnableLaw s) (run : s.mode.run = .running ∨ s.mode.run = .stopping) (order : OrderAt s 13)
    (named : s.floor.store.param s.slot 0 1 = i.val + 1) (idle : (s.floor.station i).state = .idle)
    (fed : (s.floor.station i).line.live.fed = 0) (card : (s.floor.station i).nextCard = none) (offset : OffsetLaw s) :
    ∃ t, exec .stationOut s = .next t ∧ Answered s t .accepted [] ∧ t.mode = s.mode ∧
      t.floor.station i = finished s.mode (s.floor.station i) ((s.floor.station i).outEntered .staff) ∧
      KeepsOthers i s.floor t.floor ∧ t.floor.waitQueue = s.floor.waitQueue ∧
      (t.floor.dropped = true ∨ ReportHeaderAt t.floor.store (reportPlace s.floor.rptWr 16) 16 .station (i.val + 1)
        s.mode.partTime) ∧
      KeepsBytes (fun a => inAnswer s.port.ordDone a ∨ inRecord i a ∨ inReport s.floor.rptWr 16 a) s.floor t.floor := by
  obtain ⟨next, answered, mode, others, station⟩ := stationOut_leaves l4 run order named (.inl idle)
  rw [enterOut_leaving fed card] at next answered mode others station
  obtain ⟨-, queue, -, told, -⟩ := stationNotice_leaves (e := s.mode) i .out .staff
    (f := s.floor.onStation i fun x => x.leaving.outEntered .staff) (runs_of_run run) offset.readLimit offset.good
  have cells : ∀ a, ¬ inReport s.floor.rptWr 16 a → (stationNotice s.mode i .out .staff
      (s.floor.onStation i fun x => x.leaving.outEntered .staff)).store.read a = s.floor.store.read a :=
    fun a => read_stationNotice (f := s.floor.onStation i fun x => x.leaving.outEntered .staff) offset.good
  refine ⟨_, next, answered, mode, ?_, others, queue, told.imp_right fun header => ?_, ?_⟩
  · rw [station, station_stationNotice, station_onStation_self, leaving_idle idle]
  · have high := reportPlace_high s.floor.rptWr 16
    exact header.congr fun k _ => finishOrder_high (a := reportPlace s.floor.rptWr 16 + k) (Nat.le_add_right_of_le high)
  · exact finishOrder_keepsBytes others cells

/-- STATION OUT at a FUNDING station whose live tally and next-card slot are empty (R20, R75, R97, R98). -/
theorem stationOut_funding (l4 : EnableLaw s) (run : s.mode.run = .running ∨ s.mode.run = .stopping) (order : OrderAt s 13)
    (named : s.floor.store.param s.slot 0 1 = i.val + 1) (funding : (s.floor.station i).state = .funding)
    (fed : (s.floor.station i).line.live.fed = 0) (card : (s.floor.station i).nextCard = none) :
    ∃ t, exec .stationOut s = .next t ∧ Answered s t .accepted [] ∧ t.mode = s.mode ∧ KeepsOthers i s.floor t.floor ∧
      t.floor.station i = finished s.mode (s.floor.station i) ((s.floor.station i).leaving.outEntered .staff) := by
  obtain ⟨next, answered, mode, others, station⟩ := stationOut_leaves l4 run order named (.inr funding)
  rw [enterOut_leaving fed card] at next answered mode others station
  rw [station_stationNotice, station_onStation_self] at station
  exact ⟨_, next, answered, mode, others, station⟩

/-- STATION OUT at a station without a session leaves what the entry to OUT leaves (R97, R98). -/
theorem stationOut_wentOut (l4 : EnableLaw s) (run : s.mode.run = .running ∨ s.mode.run = .stopping) (order : OrderAt s 13)
    (named : s.floor.store.param s.slot 0 1 = i.val + 1)
    (state : (s.floor.station i).state = .idle ∨ (s.floor.station i).state = .funding) (offset : OffsetLaw s) :
    ∃ (d : Floor) (t : State), WentOut s.mode i .staff (s.floor.onStation i Station.leaving) d ∧ exec .stationOut s = .next t ∧
      Answered s t .accepted [] ∧ t.mode = s.mode ∧ t.floor.waitQueue = d.waitQueue ∧ t.floor.dropped = d.dropped ∧
      t.floor.rptWr = d.rptWr ∧ (∀ j, t.floor.station j = finished s.mode (s.floor.station j) (d.station j)) ∧
      ∀ a, ¬ inAnswer s.port.ordDone a → ¬ inRecords a → t.floor.readByte a = d.readByte a := by
  obtain ⟨next, answered, mode, others, station⟩ := stationOut_leaves l4 run order named state
  exact ⟨_, _, enterOut_wentOut i .staff (runs_of_run run) offset.readLimit offset.good, next, answered, mode, rfl, rfl, rfl,
    fun j => finishOrder_station _ _ j, fun _ => finishOrder_read _ _⟩

/-- STATION OUT at an IDLE station whose live tally is not empty closes the tally with cause OUT (R19, R97, R98). -/
theorem stationOut_closes (l4 : EnableLaw s) (run : s.mode.run = .running ∨ s.mode.run = .stopping) (order : OrderAt s 13)
    (named : s.floor.store.param s.slot 0 1 = i.val + 1) (idle : (s.floor.station i).state = .idle)
    (card : (s.floor.station i).nextCard = none) (offset : OffsetLaw s) :
    let x := s.floor.station i
    ∃ t, exec .stationOut s = .next t ∧ Answered s t .accepted [] ∧ t.mode = s.mode ∧
      TallyClosed s.mode i .out { x.line.live with lost := min (x.line.live.lost + x.line.inPath.length) 65535 } s.floor t.floor ∧
      KeepsOthers i s.floor t.floor ∧
      KeepsBytes (fun a => inAnswer s.port.ordDone a ∨ inRecord i a ∨ inStream a ∨ inAccounts a) s.floor t.floor ∧
      let y := t.floor.station i
      y.state = .out ∧ y.outCause = .staff ∧ y.outPending = .none ∧ y.line.inPath = [] ∧ y.line.enable = false ∧
      y.context = x.context ∧ y.link = x.link.offer (showOn 1 .outOfService 0 0) := by
  intro x
  obtain ⟨next, answered, mode, others, station⟩ := stationOut_leaves l4 run order named (.inl idle)
  have same : s.floor.onStation i Station.leaving = s.floor := onStation_self _ _ (leaving_idle idle)
  rw [same] at next answered mode others station
  obtain ⟨tally, -, -, cells, entered⟩ := enterOut_wentOut i .staff (f := s.floor) (runs_of_run run) offset.readLimit offset.good
  rw [card] at entered
  generalize enterOut s.mode i .staff s.floor = d at *
  refine ⟨_, next, answered, mode, ?_, others, ?_, ?_⟩
  · refine tally.congr rfl rfl rfl rfl rfl ?_ ?_ (finishOrder_waitQueue ..) ?_ fun p place => finishOrder_high ?_
    · rw [station]; rfl
    · rw [station]; rfl
    · intro set
      rw [Floor.flag] at set ⊢
      rw [finishOrder_irqFlag, BitVec.getLsbD_or, set, Bool.true_or]
    · rcases place with account | ⟨-, -, -, -, low, -⟩
      · exact inAccounts_high account
      · exact Nat.le_trans (reportPlace_high ..) low
  · exact finishOrder_keepsBytes others fun a outside => cells a (fun h => outside (.inl h)) fun h => outside (.inr h)
  · have state : (d.station i).state = .out := congrArg Station.state entered
    rw [station]
    refine ⟨state, (congrArg Station.outCause entered :), (congrArg Station.outPending entered :),
      (congrArg (·.line.inPath) entered :), ?_, (congrArg Station.context entered :), (congrArg Station.link entered :)⟩
    change Station.mayFeed .. = false
    simp [Station.mayFeed, state]

end OutOrder

end Sys2Proof.Machine
end

section
/-! SUPPORT. What the header's clamp count leaves alone, and what the link unit makes of a station's new working copy (R41, R165). -/

namespace Sys2Proof.Machine

open Sys2Proof
-- One proof after the other: proofs that wait for one another hold a thread each, and its memory.
set_option Elab.async false

/-! ### The count of clamped fields -/

section Clamps

variable (m : Memory)

theorem countClamps_field (n : Nat) : (m.countClamps n).header 6 2 = min (m.header 6 2 + n) 65535 := by
  have small : m.header 6 2 < 65536 := Memory.readLE_lt ..
  unfold Memory.countClamps
  split
  · omega
  · rw [(editHeader_field m (o := 6) (n := 2) _ (by omega) (by omega)).1]
    simp only [satAdd, Config.max16]
    omega

/-- The count writes in the header alone (R165). -/
theorem countClamps_outside (n : Nat) {a : Nat} (outside : ¬ inHeader a) : (m.countClamps n).read a = m.read a := by
  unfold Memory.countClamps
  split
  · rfl
  · exact (editHeader_field m _ (by omega) (by omega)).2.2.2 a (fun h => outside (inHeader_of_field h (by omega)))
      (fun h => outside (inHeader_of_field h (by omega))) fun h => outside (inHeader_of_rest h)

end Clamps

section HeaderOnly

variable {m m' : Memory} (same : ∀ a, ¬ inHeader a → m'.read a = m.read a)

include same

/-- A profile does not stand in the header (11.6). -/
theorem profile_outsideHeader (i : StationId) : m'.profile i = m.profile i := by
  have byte : ∀ o, o < 64 → m'.read (profileAddr i + o) = m.read (profileAddr i + o) := fun o ho => same _ (by
    have hi := i.isLt
    simp only [inHeader, inBytes, profileAddr, Config.profileBase, Config.headerBase]
    omega)
  have field : ∀ o n, o + n ≤ 64 → m'.readLE (profileAddr i + o) n = m.readLE (profileAddr i + o) n := fun o n within =>
    Memory.readLE_congr _ _ fun a low high => by
      have cell := byte (a - profileAddr i) (by omega)
      rwa [Nat.add_sub_cancel' (by omega)] at cell
  simp (disch := omega) only [Memory.profile, byte, field]

/-- Nor do the price pages, on which a guard record depends (R35). -/
theorem basePrice_outsideHeader (p : Page) : m'.basePrice p = m.basePrice p := by
  funext k
  refine Memory.readLE_congr _ _ fun a least most => same a ?_
  have cls := k.isLt
  cases p <;> simp only [Page.base, inHeader, inBytes, Config.pageABase, Config.pageBBase, Config.headerBase] at * <;> omega

end HeaderOnly

/-! ### The serial fields of a new working copy -/

/-- What a station's link unit and its controller make of the working copy the station has taken in place of `old`: a change of
line format takes a link that is UP down (R41, R52). -/
def Station.serialTook (now : Time) (old : WorkingCopy) (x : Station) : Station :=
  { (if x.link.up = true ∧ formatChanged old x.copy = true then x.linkLost now else x) with
    link := x.link.serialTaken old x.copy }

/-- Taking up the serial fields is a change of the station, and a link so taken down hands on its notice (R41, R52). -/
theorem applySerial_eq (e : Mode) (i : StationId) (old : WorkingCopy) (f : Floor) :
    applySerial e i old f =
      if (f.station i).link.up = true ∧ formatChanged old (f.station i).copy = true then
        stationNotice e i .linkDown .none (f.onStation i (Station.serialTook e.partTime old))
      else f.onStation i (Station.serialTook e.partTime old) := by
  have link := applySerial_link e i old f
  have took : ∀ y : Station, y.link = (f.station i).link.serialTaken old (f.station i).copy →
      y = { (if (f.station i).link.up = true ∧ formatChanged old (f.station i).copy = true then (f.station i).linkLost e.partTime
        else f.station i) with link := y.link } → (f.station i).serialTook e.partTime old = y := fun y same rest => by
    rw [rest, same]
    rfl
  unfold applySerial at link ⊢
  dsimp only at link ⊢
  by_cases format : formatChanged old (f.station i).copy = true
  · by_cases up : (f.station i).link.up = true
    · rw [if_pos format, if_pos up, linkDown, onStation_onStation] at link ⊢
      rw [if_pos ⟨up, format⟩] at took ⊢
      rw [station_stationNotice, station_onStation_self] at link
      refine congrArg (stationNotice e i .linkDown .none) (onStation_congr _ _ ?_)
      exact (took _ link rfl).symm
    · rw [if_pos format, if_neg up] at link ⊢
      rw [if_neg fun h => up (And.left h)] at took ⊢
      rw [station_onStation_self] at link
      refine onStation_congr _ _ ?_
      exact (took _ link rfl).symm
  · have stays : ¬ ((f.station i).link.up = true ∧ formatChanged old (f.station i).copy = true) := fun h => format h.2
    rw [if_neg format] at link ⊢
    rw [if_neg stays] at took ⊢
    split at link
    · next media =>
      rw [if_pos media, offer_eq, onStation_onStation]
      rw [offer_eq, onStation_onStation, station_onStation_self] at link
      refine onStation_congr _ _ ?_
      exact (took _ link rfl).symm
    · next media =>
      rw [if_neg media]
      exact (onStation_self _ _ (took _ link rfl)).symm

end Sys2Proof.Machine
end

section
/-! PROOF. The entry of a station to service by STATION IN: its working copy, its notices, and the jam of an active FAULT (R99). -/

namespace Sys2Proof.Machine

open Sys2Proof
-- One proof after the other: proofs that wait for one another hold a thread each, and its memory.
set_option Elab.async false

section In

variable {e : Mode} {i : StationId}

/-- Station `x` with its profile of the store `m` taken up, before its link unit sees the serial fields (R2, R13, R14, R21, R35). -/
def Station.profileTaken (e : Mode) (m : Memory) (i : StationId) (x : Station) : Station :=
  let y := ({ x with copy := (m.profile i).clamped }.recomputeGuard m e.page).seedFilters
  { y with line := { y.line.clearPace with drainStart := e.partTime } }

/-- A station that has taken up its profile and entered service (R99). -/
def Station.returned (e : Mode) (m : Memory) (i : StationId) (x : Station) : Station :=
  ((x.profileTaken e m i).serialTook e.partTime x.copy).inServiceAgain

section Returned

variable (e : Mode) (m : Memory) (i : StationId) (x : Station)

theorem returned_state : (x.returned e m i).state = .idle := rfl

theorem returned_link : (x.returned e m i).link = x.link.serialTaken x.copy (m.profile i).clamped := rfl

/-- A link taken down changes the next-card slot and the grace of its station alone (R52, R75, R92). -/
theorem serialTook_eq (now : Time) (old : WorkingCopy) : x.serialTook now old =
    { x with nextCard := (x.serialTook now old).nextCard, graceStart := (x.serialTook now old).graceStart
             link := x.link.serialTaken old x.copy } := by
  unfold Station.serialTook
  split <;> rfl

/-- What a station that has entered service keeps of its profile's taking up. -/
theorem returned_eq : x.returned e m i =
    { x.profileTaken e m i with
      state := .idle, outCause := .none, nextCard := (x.returned e m i).nextCard
      graceStart := (x.returned e m i).graceStart, link := (x.returned e m i).link } :=
  congrArg Station.inServiceAgain (serialTook_eq (x.profileTaken e m i) e.partTime x.copy)

theorem returned_line : (x.returned e m i).line = (x.profileTaken e m i).line := by rw [returned_eq]

theorem returned_context : (x.returned e m i).context = x.context := by
  rw [returned_eq]
  rfl

theorem returned_jam : (x.returned e m i).jam = x.jam := by
  rw [returned_eq]
  rfl

theorem returned_copy : (x.returned e m i).copy = (m.profile i).clamped := by
  rw [returned_eq]
  rfl

theorem returned_fault :
    (x.returned e m i).line.fault = (m.profile i).clamped.isActive 2 x.line.comingSample.fault := by
  rw [← nextSample_eq, returned_line]
  rfl

end Returned

variable {f : Floor}

/-- The floor on which station `i` has taken up its profile and entered service, its own notice still to be handed on (R99). -/
def entering (e : Mode) (i : StationId) (f : Floor) : Floor := (takeProfile e i f).onStation i Station.inServiceAgain

/-- What a station's taking up of its profile leaves: the station changed, and the notice of a link taken down (R52, R169). -/
theorem entering_leaves (good : goodOffset f.rptWr) :
    let x := f.station i
    let copy := (f.store.profile i).clamped
    let h := entering e i f
    h.station i = x.returned e f.store i ∧ KeepsOthers i f h ∧
      if x.link.up = true ∧ ¬ (x.copy.rate = copy.rate ∧ x.copy.parity = copy.parity ∧ x.copy.stopBits = copy.stopBits) then
        NoticeHandled e (i.val + 1) .linkDown .none x.reportedNumber f h
      else h = { f with stations := h.stations } := by
  intro x copy h
  have format : formatChanged x.copy copy = true ↔
      ¬ (x.copy.rate = copy.rate ∧ x.copy.parity = copy.parity ∧ x.copy.stopBits = copy.stopBits) := by
    simp only [formatChanged, Bool.or_eq_true, bne_iff_ne]
    tauto
  let took := f.onStation i fun x => (x.profileTaken e f.store i).serialTook e.partTime (f.station i).copy
  have floor : h = (if x.link.up = true ∧ formatChanged x.copy copy = true then stationNotice e i .linkDown .none took
      else took).onStation i Station.inServiceAgain := by
    have serial := applySerial_eq e i (f.station i).copy (f.onStation i (Station.profileTaken e f.store i))
    rw [onStation_onStation, station_onStation_self] at serial
    exact congrArg (·.onStation i Station.inServiceAgain) serial
  rw [if_congr (and_congr Iff.rfl format.symm) rfl rfl]
  have others : KeepsOthers i f took := fun j other => station_onStation_other _ _ _ _ other
  by_cases down : x.link.up = true ∧ formatChanged x.copy copy = true
  · rw [if_pos down] at floor ⊢
    rw [floor]
    refine ⟨?_, fun j other => ?_, stationNotice_handled i .linkDown .none (f := took) good ?_⟩
    · rw [station_onStation_self, station_stationNotice, station_onStation_self]
      rfl
    · rw [station_onStation_other _ _ _ _ other, station_stationNotice]
      exact others j other
    · rw [station_onStation_self, serialTook_eq]
      rfl
  · rw [if_neg down] at floor ⊢
    rw [floor]
    refine ⟨?_, fun j other => ?_, rfl⟩
    · rw [station_onStation_self, station_onStation_self]
      rfl
    · rw [station_onStation_other _ _ _ _ other]
      exact others j other

/-- The floor on which station `i` has entered service and its notice is handed on (R99, R180). -/
def entered (e : Mode) (i : StationId) (f : Floor) : Floor := stationNotice e i .entered .none (entering e i f)

/-- The floor on which a FAULT found active at the entry has been declared a jam (R2, R99; log 39). -/
def jammedIfFault (e : Mode) (i : StationId) (f : Floor) : Floor :=
  if (f.station i).line.fault then jamCause e i .copier [] f else f

theorem takeIn_eq (f : Floor) : takeIn e i f =
    jammedIfFault e i (entered e i (f.onStore fun m => m.countClamps (m.profile i).clampCount)) := rfl

theorem entering_step (f : Floor) : FloorStep f (entering e i f) :=
  (onStation_step ..).trans ((applySerial_step ..).trans (onStation_step ..))

theorem entered_step (f : Floor) : FloorStep f (entered e i f) := (entering_step f).trans (stationNotice_step ..)

theorem jammedIfFault_step (f : Floor) : FloorStep f (jammedIfFault e i f) := by
  unfold jammedIfFault
  split
  · exact jamCause_step ..
  · exact .refl f

/-- The link of a station in service and without sheets at which a jam is declared shows the jam (R116). -/
theorem JamDeclared.link_noSheets {cause : JamCause} {g : Floor} (h : JamDeclared e i cause [] f g)
    (funding : (f.station i).state ≠ .funding) (path : (f.station i).line.inPath = []) :
    (g.station i).link = (f.station i).link.offer (showOn 1 .jam 0 0) := by
  obtain ⟨-, station, -⟩ := h
  have link := congrArg Station.link station
  rw [path] at link
  simpa [funding] using link

/-- A station in the state of another but for what the declaration of a jam touches (R113). -/
def Station.likeButJam (z y : Station) : Prop :=
  y = { z with
    state := y.state, lowStart := y.lowStart, graceStart := y.graceStart, context := y.context, auth := y.auth
    line := { z.line with inPath := y.line.inPath, live := y.line.live }, link := y.link, jam := y.jam }

theorem JamDeclared.likeButJam {cause : JamCause} {extra : List Sheet} {g : Floor} (h : JamDeclared e i cause extra f g) :
    (f.station i).likeButJam (g.station i) := by
  obtain ⟨-, station, -⟩ := h
  unfold Station.likeButJam
  generalize g.station i = y at *
  rw [station]

/-- Of the header a report of the stream touches nothing (R173, R176). -/
theorem inReport_notHeader {len a : Nat} (good : goodOffset f.rptWr) (fit : roomNeeded f.rptWr len ≤ freeRoom f.rptWr e.rptRd)
    (report : inReport f.rptWr len a) : ¬ inHeader a := fun header =>
  (header_apart header).1 (inReport_inStream (e := e) (decide_eq_true fit) good report)

theorem NoticeHandled.header {number : Nat} {event : NoticeEvent} {cause : OutCause} {session : BitVec 32} {g : Floor}
    (h : NoticeHandled e number event cause session f g) (good : goodOffset f.rptWr) {a : Nat} (header : inHeader a) :
    g.store.read a = f.store.read a := by
  obtain ⟨-, cells⟩ := h
  split at cells
  · next room => exact cells a fun report => inReport_notHeader good (Nat.le_of_add_right_le room.2.2) report header
  · rw [cells]

theorem JamDeclared.header {cause : JamCause} {extra : List Sheet} {g : Floor} (h : JamDeclared e i cause extra f g)
    (good : goodOffset f.rptWr) {a : Nat} (header : inHeader a) : g.store.read a = f.store.read a := by
  obtain ⟨-, -, -, -, -, -, -, cells⟩ := h
  exact cells a (header_apart header).2 fun ⟨room, report⟩ => inReport_notHeader good room.2 report header

/-- What the entry to service leaves, its notice handed on (R99, R180). -/
theorem entered_leaves (good : goodOffset f.rptWr) :
    let n := entered e i f
    n.station i = (f.station i).returned e f.store i ∧ KeepsOthers i f n ∧
      NoticeHandled e (i.val + 1) .entered .none (f.station i).reportedNumber (entering e i f) n ∧
      ∀ a, inHeader a → n.store.read a = f.store.read a := by
  intro n
  obtain ⟨station, others, down⟩ := entering_leaves (e := e) (i := i) good
  have good' : goodOffset (entering e i f).rptWr := (entering_step f).offset good
  have number : ((entering e i f).station i).reportedNumber = (f.station i).reportedNumber := by
    rw [station, returned_eq]
    rfl
  have handled := stationNotice_handled (e := e) i .entered .none good' number
  refine ⟨(station_stationNotice ..).trans station, fun j other => (station_stationNotice ..).trans (others j other), handled,
    fun a header => (handled.header good' header).trans ?_⟩
  split at down
  · exact down.header good header
  · have store : (entering e i f).store = f.store := (congrArg Floor.store down :)
    rw [store]

/-- What an active FAULT at the entry to service leaves: a jam where it is active, and else nothing (R2, R119; log 39). -/
theorem jammedIfFault_leaves (runs : e.runs = true) (good : goodOffset f.rptWr) (idle : (f.station i).state = .idle) :
    let g := jammedIfFault e i f
    (if (f.station i).line.fault then JamDeclared e i .copier [] f g else g = f) ∧ KeepsOthers i f g ∧
      (f.station i).likeButJam (g.station i) ∧
      (g.station i).state = (if (f.station i).line.fault then .jammed else .idle) ∧
      ∀ a, inHeader a → g.store.read a = f.store.read a := by
  intro g
  by_cases fault : (f.station i).line.fault = true
  · have jam : JamDeclared e i .copier [] f g := by
      simp only [g, jammedIfFault, if_pos fault]
      exact jamCause_declares e i .copier [] f good (by simp [inService, runs, idle]) (by simp [idle])
    have others : KeepsOthers i f g := by
      simp only [g, jammedIfFault, if_pos fault]
      exact (jamCause_at e i .copier [] f (Nat.zero_le 1)).others
    rw [if_pos fault, if_pos fault]
    exact ⟨jam, others, jam.likeButJam, congrArg Station.state jam.2.1, fun a => jam.header good⟩
  · have same : g = f := if_neg fault
    rw [if_neg fault, if_neg fault, same]
    exact ⟨rfl, fun _ _ => rfl, rfl, idle, fun _ _ => rfl⟩

end In

end Sys2Proof.Machine
end

section
/-! PROOF. O35: STATION OUT and STATION IN (R97, R98, R99). -/

namespace Sys2Proof.Machine

open Sys2Proof
-- One proof after the other: proofs that wait for one another hold a thread each, and its memory.
set_option Elab.async false

section InOrder

variable {s : State} {i : StationId}

/-- The floor on which the clamped fields of station `i`'s profile are counted (R165). -/
def clampsCounted (i : StationId) (f : Floor) : Floor := f.onStore fun m => m.countClamps (m.profile i).clampCount

theorem clampsCounted_store (f : Floor) :
    (clampsCounted i f).store = f.store.countClamps (f.store.profile i).clampCount := by
  rw [clampsCounted, onStore_store]

theorem clampsCounted_outside (f : Floor) {a : Nat} (outside : ¬ inHeader a) :
    (clampsCounted i f).store.read a = f.store.read a := by
  rw [clampsCounted_store]
  exact countClamps_outside _ _ outside

theorem clampsCounted_profile (f : Floor) : (clampsCounted i f).store.profile i = f.store.profile i :=
  profile_outsideHeader (fun _ => clampsCounted_outside f) i

theorem clampsCounted_offset (f : Floor) : (clampsCounted i f).rptWr = f.rptWr := by rw [clampsCounted, onStore_rptWr]

theorem clampsCounted_station (f : Floor) (j : StationId) : (clampsCounted i f).station j = f.station j := by
  rw [clampsCounted, station_onStore]

/-- The clamp count of the header stands in no guard record's way (R35, R165). -/
theorem profileTaken_counted (e : Mode) (f : Floor) (x : Station) :
    x.profileTaken e (clampsCounted i f).store i = x.profileTaken e f.store i := by
  unfold Station.profileTaken
  rw [clampsCounted_profile,
    recomputeGuard_congr (basePrice_outsideHeader (fun _ => clampsCounted_outside f) e.page)]

theorem inHeader_high {a : Nat} (h : inHeader a) : Config.streamBase ≤ a := by
  simp only [inHeader, inBytes, Config.headerBase, Config.streamBase] at *
  omega

theorem inReply_size (x : Station) : layoutSize (inReply x).answer ≤ 8 := by simp [inReply, layoutSize]

/-- STATION IN at a station that is not OUT (R99). -/
theorem stationIn_refused (l4 : EnableLaw s) (run : s.mode.run = .running) (order : OrderAt s 14)
    (named : s.floor.store.param s.slot 0 1 = i.val + 1) (state : (s.floor.station i).state ≠ .out) :
    RefusedWith .stationIn s .wrongState [] := by
  refine refusedWith_of_unchanged (body := stationInOrder) (r := .bare .wrongState) rfl order rfl l4 (by decide) ?_
  rw [stationInOrder, if_neg (by simp [run]), stationOrder_named (by simp [run]) named]
  exact if_neg state

/-- STATION IN at an OUT station (R99). -/
theorem stationIn_taken (run : s.mode.run = .running) (order : OrderAt s 14)
    (named : s.floor.store.param s.slot 0 1 = i.val + 1) (state : (s.floor.station i).state = .out) :
    let g := takeIn s.mode i s.floor
    exec .stationIn s = .next (finishOrder s ⟨inReply (g.station i), s.mode.page, g⟩) := by
  intro g
  rw [exec_order (body := stationInOrder) rfl order rfl, stationInOrder, if_neg (by simp [run]),
    stationOrder_named (by simp [run]) named]
  exact congrArg (fun x => Host.Outcome.next (finishOrder s x)) (if_pos state)

/-- The header's clamp count after all the work of STATION IN (R165). -/
theorem header_clampsCounted (f : Floor) {g : Floor}
    (header : ∀ a, inHeader a → g.store.read a = (clampsCounted i f).store.read a) :
    g.store.header 6 2 = min (f.store.header 6 2 + (f.store.profile i).clampCount) 65535 := by
  rw [header_congr (by decide) header, clampsCounted_store]
  exact countClamps_field ..

/-- The work of STATION IN writes in the accounts, the report stream and the header alone (R164, R176). -/
theorem takeIn_cells {e : Mode} (f : Floor) (good : goodOffset f.rptWr) {a : Nat} (outside : ¬ inWork a) :
    (takeIn e i f).store.read a = f.store.read a := by
  have step : FloorStep (clampsCounted i f) (takeIn e i f) := (entered_step _).trans (jammedIfFault_step _)
  have good' : goodOffset (clampsCounted i f).rptWr := by rwa [clampsCounted_offset]
  exact (step.keeps good' a outside).trans (clampsCounted_outside f fun header => outside (.inr (.inr header)))

/-- STATION IN at an OUT station: what the entry to service leaves at the station's end of the step (R2, R13, R14, R99). -/
theorem returned_finished {e : Mode} {m : Memory} {x y : Station} (like : (x.returned e m i).likeButJam y)
    (state : y.state = .jammed ∨ y.state = .idle) :
    let w := (m.profile i).clamped
    let t := finished e x y
    t.copy = w ∧ t.guardValue = guardValueOf m e.page w ∧ t.noService = noServiceOf m e.page w ∧ t.outCause = .none ∧
      t.line.feed = w.isActive 0 x.line.comingSample.feed ∧ t.line.exit = w.isActive 1 x.line.comingSample.exit ∧
      t.line.fault = w.isActive 2 x.line.comingSample.fault ∧ t.line.feedCount = 0 ∧ t.line.exitCount = 0 ∧
      t.line.faultCount = 0 ∧ t.line.drainStart = e.partTime ∧ t.line.pace = 0 ∧ t.line.enable = false ∧
      t.line.lifetimeFeed = x.line.lifetimeFeed ∧ t.line.lifetimeExit = x.line.lifetimeExit := by
  intro w t
  have closed : y.mayFeed e = false := by rcases state with h | h <;> simp [Station.mayFeed, h]
  have eq := like
  rw [Station.likeButJam, returned_eq] at eq
  have line : ∀ {α : Type} (part : LineUnit → α), part y.line = part
      { ((x.profileTaken e m i).line) with inPath := y.line.inPath, live := y.line.live } := fun part =>
    (congrArg (fun y : Station => part y.line) eq :)
  have drain : y.line.drainStart = e.partTime := line LineUnit.drainStart
  refine ⟨(congrArg Station.copy eq :), (congrArg Station.guardValue eq :), (congrArg Station.noService eq :),
    (congrArg Station.outCause eq :), ?_, ?_, ?_, line LineUnit.feedCount, line LineUnit.exitCount, line LineUnit.faultCount,
    ?_, line LineUnit.pace, closed, line LineUnit.lifetimeFeed, line LineUnit.lifetimeExit⟩
  · rw [← nextSample_eq]
    exact line LineUnit.feed
  · rw [← nextSample_eq]
    exact line LineUnit.exit
  · rw [← nextSample_eq]
    exact line LineUnit.fault
  · change (if y.line.enable && !y.mayFeed e then e.partTime else y.line.drainStart) = e.partTime
    rw [drain, ite_self]

theorem onStore_eq (f : Floor) (change : Memory → Memory) :
    f.onStore change = { f with store := (f.onStore change).store } := rfl

theorem clampsCounted_eq (f : Floor) : clampsCounted i f = { f with store := (clampsCounted i f).store } := by
  rw [clampsCounted]
  exact onStore_eq f _

/-- A station that has entered service after the clamp count is as if the count had not been there (R99, R165). -/
theorem returned_counted (e : Mode) (f : Floor) (x : Station) :
    x.returned e (clampsCounted i f).store i = x.returned e f.store i := by
  unfold Station.returned
  rw [profileTaken_counted]

end InOrder

/-- Settles O35: the entry to OUT and the entry to service, each the work of one station and answered in its slot. -/
theorem stationsLeaveAndReturn : Obligations.StationsLeaveAndReturn := by
  unfold Obligations.StationsLeaveAndReturn
  refine ⟨fun i s l4 run order named => ?_, fun i s l4 offset run order named => ?_⟩
  · intro x pending
    have notStopped := notStopped_of_run run
    refine ⟨fun out => ?_, stationOut_idle l4 run order named, fun idle fed card offset => ?_,
      fun funding fed card => ?_, fun state offset => ?_, fun out idle funding live => ?_, fun out idle funding live => ?_⟩
    · refine refusedWith_of_unchanged (body := stationOutOrder) (r := .bare .wrongState) rfl order rfl l4 (by decide) ?_
      rw [stationOutOrder, stationOrder_named notStopped named]
      exact if_pos out
    · exact stationOut_closes l4 run order named idle card offset
    · have leaves := stationOut_funding l4 run order named funding fed card
      rwa [leaving_funding funding] at leaves
    · exact stationOut_wentOut l4 run order named state offset
    · refine orderChangesTo_of (body := stationOutOrder) (r := .bare .accepted) rfl order rfl l4 (by decide) ?_
      rw [stationOutOrder, stationOrder_named notStopped named, judgeOut_taken out, takeOut_ends idle funding live]
      rfl
    · refine orderChangesTo_of (body := stationOutOrder) (r := .bare .accepted) rfl order rfl l4 (by decide) ?_
      rw [stationOutOrder, stationOrder_named notStopped named, judgeOut_taken out, takeOut_marks idle funding live]
      rfl
  · intro m x copy
    refine ⟨stationIn_refused l4 run order named, fun out => ?_⟩
    have taken := stationIn_taken run order named out
    have good := offset.good
    have cells := fun a => takeIn_cells (i := i) (e := s.mode) s.floor good (a := a)
    have stages : takeIn s.mode i s.floor = jammedIfFault s.mode i (entered s.mode i (clampsCounted i s.floor)) := takeIn_eq _
    have good' : goodOffset (clampsCounted i s.floor).rptWr := by rwa [clampsCounted_offset]
    obtain ⟨-, -, down⟩ := entering_leaves (e := s.mode) (i := i) good'
    obtain ⟨station, others, handled, header⟩ := entered_leaves (e := s.mode) (i := i) good'
    obtain ⟨jam, others', like, state, header'⟩ := jammedIfFault_leaves (e := s.mode) (i := i) (runs_of_run (.inl run))
      ((entered_step _).offset good') (congrArg Station.state station)
    rw [returned_counted, clampsCounted_station] at station
    rw [clampsCounted_profile, clampsCounted_station] at down
    rw [clampsCounted_station] at handled
    have counted := header_clampsCounted (i := i) s.floor fun a inside => (header' a inside).trans (header a inside)
    rw [← stages] at jam others' like state counted
    have one : KeepsOthers i s.floor (takeIn s.mode i s.floor) := (takeIn_at ..).others
    rw [station] at like state
    rw [station, returned_fault] at jam
    rw [returned_fault] at state
    have funding : ((entered s.mode i (clampsCounted i s.floor)).station i).state ≠ .funding := by
      rw [station, returned_state]
      decide
    have kept := returned_finished like ((ite_eq_or_eq ..).imp state.trans state.trans)
    obtain ⟨copied, guard, noService, cause, feed, exit, faultLevel, feeds, exits, faults, drain, pace, closed, lifeFeed,
      lifeExit⟩ := kept
    generalize takeIn s.mode i s.floor = g at *
    obtain ⟨mode, rest, ended⟩ := finishOrder_at (x := ⟨inReply (g.station i), s.mode.page, g⟩) l4 rfl one
    refine ⟨_, taken, ?_⟩
    rw [ended]
    refine ⟨finishOrder_answered _ _ (inReply_size _), mode, copied, guard, noService, cause, feed, exit,
      faultLevel, feeds, exits, faults, state, drain, pace, closed, ?_, lifeFeed, lifeExit, ?_, ?_, rest, ?_⟩
    · refine ⟨fun idle => ?_, fun jammed path => ?_⟩
      · have quiet : ¬ copy.isActive 2 x.line.comingSample.fault = true := fun fault => by
          rw [if_pos fault] at state
          exact absurd (idle.symm.trans state) (by decide)
        rw [if_neg quiet] at jam
        exact (congrArg (fun f : Floor => (f.station i).link) jam).trans ((congrArg Station.link station).trans (returned_link ..))
      · have fault : copy.isActive 2 x.line.comingSample.fault = true := by
          by_contra quiet
          rw [if_neg quiet] at state
          exact absurd (jammed.symm.trans state) (by decide)
        rw [if_pos fault] at jam
        refine (jam.link_noSheets funding ?_).trans ?_
        · rw [station, returned_line]
          exact path
        · rw [station, returned_link]
    · exact (header_congr (by decide) fun p inside => finishOrder_high (inHeader_high inside)).trans counted
    · refine ⟨clampsCounted i s.floor, entering s.mode i (clampsCounted i s.floor), entered s.mode i (clampsCounted i s.floor), g,
        clampsCounted_eq _, fun p => clampsCounted_outside _, down, handled, fun j other => ?_, ?_, jam, rfl, rfl, rfl, rfl, rfl,
        fun a => finishOrder_read _ _⟩
      · exact (others j other).trans (clampsCounted_station ..)
      · rw [station]
        exact ⟨returned_state .., returned_copy .., returned_context .., returned_jam ..,
          (congrArg LineUnit.inPath (returned_line ..) :), (congrArg LineUnit.live (returned_line ..) :), returned_link ..⟩
    · exact finishOrder_keepsBytes rest fun a outside => cells a fun work =>
        outside (work.elim (fun h => .inr (.inr h)) (Or.imp_right .inl))

end Sys2Proof.Machine
end

section
/-! SUPPORT. The accounts after a longer request on some of them: the parts that open it and the end that closes it (R134). -/

namespace Sys2Proof.Machine

open Sys2Proof
-- One proof after the other: proofs that wait for one another hold a thread each, and its memory.
set_option Elab.async false

section Requests

variable {m : Memory} {n : Nat}

/-! ### The end of a request -/

/-- An account at the end of a longer request: an odd edit count becomes even (R134). -/
def Account.requestEnded (a : Account) : Account := if isOdd a.editCount then { a with editCount := a.editCount + 1 } else a

theorem account_closeAccount_self (hn : n < 1024) : (m.closeAccount n).account n = (m.account n).requestEnded := by
  unfold Memory.closeAccount Account.requestEnded
  dsimp only
  split
  · exact Memory.account_putAccount_self m _ hn
  · rfl

theorem closeAccount_outside {p : Nat} (outside : ¬ inAccounts p) : (m.closeAccount n).read p = m.read p := by
  unfold Memory.closeAccount
  dsimp only
  split
  · exact putAccount_keeps _ _ _ outside
  · rfl

theorem openAccount_outside {change : Account → Account} {p : Nat} (outside : ¬ inAccounts p) :
    (m.openAccount n change).read p = m.read p := by
  unfold Memory.openAccount
  dsimp only
  split
  · rfl
  · exact putAccount_keeps _ _ _ outside

/-- An account with an even edit count has no request to end (R134). -/
theorem closeAccount_ofEven (even : n < 1024 → isOdd (m.account n).editCount = false) : m.closeAccount n = m := by
  unfold Memory.closeAccount
  dsimp only
  by_cases hn : n < 1024
  · rw [if_neg (by simp [even hn])]
  · split
    · exact if_neg hn
    · rfl

theorem facts_closeAccount (k : Nat) (hn : n < 1024) : ((m.closeAccount k).account n).facts = (m.account n).facts := by
  by_cases same : n = k
  · subst same
    exact Memory.field_closeAccount_self m Account.facts hn fun _ _ => rfl
  · rw [Memory.account_closeAccount_other m same]

theorem foldl_closeAccount_outside (accounts : List Nat) {p : Nat} (outside : ¬ inAccounts p) :
    (accounts.foldl Memory.closeAccount m).read p = m.read p := by
  induction accounts generalizing m with
  | nil => rfl
  | cons k rest ih => exact ih.trans (closeAccount_outside outside)

theorem facts_foldl_closeAccount (accounts : List Nat) (hn : n < 1024) :
    ((accounts.foldl Memory.closeAccount m).account n).facts = (m.account n).facts := by
  induction accounts generalizing m with
  | nil => rfl
  | cons k rest ih => exact ih.trans (facts_closeAccount k hn)

theorem isOdd_succ {c : Half} (odd : isOdd c = true) : isOdd (c + 1) = false := by
  rw [isOdd_eq, decide_eq_true_eq] at odd
  have sum := BitVec.toNat_add c 1#16
  have one : (1#16).toNat = 1 := rfl
  refine (isOdd_eq (c + 1#16)).trans ?_
  rw [sum, one, decide_eq_false_iff_not]
  omega

theorem requestEnded_twice (a : Account) : a.requestEnded.requestEnded = a.requestEnded := by
  unfold Account.requestEnded
  by_cases odd : isOdd a.editCount = true
  · rw [if_pos odd, if_neg (by rw [isOdd_succ odd]; decide)]
  · rw [if_neg odd, if_neg odd]

/-- The end of a request on accounts of which this is one (R134). -/
theorem account_foldl_closeAccount {accounts : List Nat} (named : n ∈ accounts) (hn : n < 1024) :
    (accounts.foldl Memory.closeAccount m).account n = (m.account n).requestEnded := by
  have ended : ∀ (rest : List Nat) (m : Memory), (rest.foldl Memory.closeAccount m).account n = m.account n ∨
      (rest.foldl Memory.closeAccount m).account n = (m.account n).requestEnded := by
    intro rest
    induction rest with
    | nil => exact fun _ => .inl rfl
    | cons k rest ih =>
      intro m
      rw [List.foldl_cons]
      by_cases same : n = k
      · subst same
        refine .inr ((ih (m.closeAccount n)).elim (fun h => ?_) fun h => ?_)
        · rw [h, account_closeAccount_self hn]
        · rw [h, account_closeAccount_self hn, requestEnded_twice]
      · rw [← Memory.account_closeAccount_other m same]
        exact ih _
  induction accounts generalizing m with
  | nil => cases named
  | cons k rest ih =>
    rw [List.foldl_cons]
    by_cases same : n = k
    · subst same
      rcases ended rest (m.closeAccount n) with h | h
      · rw [h, account_closeAccount_self hn]
      · rw [h, account_closeAccount_self hn, requestEnded_twice]
    · rw [ih ((List.mem_cons.mp named).resolve_left same), Memory.account_closeAccount_other m same]

/-- The end of a request on accounts that are even but for one of them is the end of the request on that one (R134). -/
theorem foldl_closeAccount_one {accounts : List Nat} (named : n ∈ accounts) (hn : n < 1024)
    (even : ∀ k, k < 1024 → k ≠ n → isOdd (m.account k).editCount = false) :
    accounts.foldl Memory.closeAccount m = m.closeAccount n := by
  have settled : ∀ rest : List Nat, rest.foldl Memory.closeAccount (m.closeAccount n) = m.closeAccount n := by
    intro rest
    have all : EvenCounts (m.closeAccount n) := fun k hk => by
      by_cases same : k = n
      · subst same
        exact isOdd_closeAccount hk
      · rw [Memory.account_closeAccount_other m same]
        exact even k hk same
    induction rest with
    | nil => rfl
    | cons k rest ih => rw [List.foldl_cons, closeAccount_even k all, ih]
  induction accounts with
  | nil => cases named
  | cons k rest ih =>
    rw [List.foldl_cons]
    by_cases same : n = k
    · subst same
      exact settled rest
    · rw [closeAccount_ofEven fun hk => even k hk fun h => same h.symm]
      exact ih ((List.mem_cons.mp named).resolve_left same)

/-! ### The parts that open a request -/

/-- A request that opens on an account with an even edit count and ends there is one whole request (R134). -/
theorem requestEnded_opened (change : Account → Account) (hn : n < 1024) (even : isOdd (m.account n).editCount = false) :
    ((m.openAccount n change).account n).requestEnded = edited (m.account n) (change (m.account n)) := by
  rw [Memory.account_openAccount_self m change hn, edited]
  split
  · simp [Account.requestEnded, even]
  · exact if_pos (isOdd_opened _)

/-- A change that leaves the record as it is writes nothing (R134). -/
theorem openAccount_same {change : Account → Account} (same : change (m.account n) = m.account n) :
    m.openAccount n change = m := if_pos same

theorem facts_openAccount {change : Account → Account} (keeps : ∀ a, (change a).facts = a.facts) (k : Nat) (hn : n < 1024) :
    ((m.openAccount k change).account n).facts = (m.account n).facts := by
  by_cases same : n = k
  · subst same
    rw [Memory.account_openAccount_self m change hn]
    split
    · rfl
    · exact keeps _
  · rw [Memory.account_openAccount_other m change same]

theorem facts_addHeld (units : Nat) (a : Account) : (a.addHeld units).facts = a.facts := rfl

theorem facts_addHolder (units : Nat) (a : Account) : (a.addHolder units).facts = a.facts := rfl

end Requests

end Sys2Proof.Machine
end

section
/-! SUPPORT. The outcome of a funding check apart from the accounts: the notice of LOW and the increment asked for (R83 to R85). -/

namespace Sys2Proof.Machine

open Sys2Proof
-- One proof after the other: proofs that wait for one another hold a thread each, and its memory.
set_option Elab.async false

section Outcome

variable {e : Mode} {i : StationId} {f g k : Floor}

/-! ### Work that writes in the report stream alone -/

/-- Work of the units that writes no cell outside the report stream (R173, R176). -/
structure ReportStep (f g : Floor) : Prop where
  offset : goodOffset f.rptWr → goodOffset g.rptWr
  cells : goodOffset f.rptWr → ∀ p, ¬ inStream p → g.store.read p = f.store.read p

theorem ReportStep.of_same (store : g.store = f.store) (offset : g.rptWr = f.rptWr) : ReportStep f g :=
  ⟨fun good => offset ▸ good, fun _ _ _ => by rw [store]⟩

theorem ReportStep.trans (a : ReportStep f g) (b : ReportStep g k) : ReportStep f k :=
  ⟨fun good => b.offset (a.offset good), fun good p h => (b.cells (a.offset good) p h).trans (a.cells good p h)⟩

theorem onStation_reports {change : Station → Station} : ReportStep f (f.onStation i change) := .of_same rfl rfl

theorem inAccount_notStream {p : Nat} (account : inAccounts p) : ¬ inStream p := by
  simp only [inAccounts, inStream, inBytes, Config.accountBase, Config.streamBase, Config.streamBytes] at *
  omega

theorem ReportStep.account (h : ReportStep f g) (good : goodOffset f.rptWr) {n : Nat} (hn : n < 1024) :
    g.store.account n = f.store.account n :=
  Memory.account_congr fun _ low high =>
    h.cells good _ (inAccount_notStream (accountBytes_inAccounts hn (by omega)))

theorem ReportStep.even (h : ReportStep f g) (good : goodOffset f.rptWr) (even : EvenCounts f.store) : EvenCounts g.store :=
  fun n hn => by
    rw [h.account good hn]
    exact even n hn

theorem stationNotice_reports (event : NoticeEvent) (cause : OutCause) : ReportStep f (stationNotice e i event cause f) := by
  refine ⟨(stationNotice_step ..).offset, fun good p outside => ?_⟩
  obtain ⟨-, cells⟩ := stationNotice_handled (e := e) i event cause good rfl
  split at cells
  · next room =>
    have fit : fits e f 16 = true := decide_eq_true (Nat.le_of_add_right_le room.2.2)
    exact cells p fun report => outside (inReport_inStream fit good report)
  · rw [cells]

/-- A request is produced of the station as it stands. -/
theorem produceAuth_here (kind : AuthKind) (amount : Nat) :
    produceAuth e i kind amount f = produceAuth e i kind amount (f.onStation i fun _ => f.station i) := by
  rw [onStation_self (a := fun _ => f.station i) f i rfl]

theorem wantAuth_reports (kind : AuthKind) (amount : Nat) : ReportStep f (wantAuth e i kind amount f) := by
  refine ⟨(wantAuth_step ..).offset, fun good p outside => ?_⟩
  unfold wantAuth
  split
  · rfl
  · rw [produceAuth_here]
    by_cases room : f.waitQueue = [] ∧ roomNeeded f.rptWr 32 ≤ freeRoom f.rptWr e.rptRd
    · have fit : fits e f 32 = true := decide_eq_true room.2
      rw [produceAuth_written room, onStation_store]
      exact (authWanted_fields good fit).2.2.2 p fun report => outside (inReport_inStream fit good report)
    · rw [produceAuth_waits room]
      rfl

/-! ### The increment (R85) -/

/-- An increment is asked for: the last entry is a BANK entry with fewer than 4 grants, no request is outstanding, and stop-asking is
not set (R85). -/
def Station.AsksIncrement (x : Station) : Prop :=
  ∃ before last, x.context.funding = before ++ [last] ∧ last.kind = .bank ∧ last.grants.length < 4 ∧
    x.auth.state ≠ .unsent ∧ x.auth.state ≠ .asked ∧ x.context.stopAsking = false

theorem asksIncrement_iff (x : Station) : x.AsksIncrement ↔ ∃ last, x.context.lastEntry = some last ∧ last.kind = .bank ∧
    last.grants.length < 4 ∧ x.auth.outstanding = false ∧ x.context.stopAsking = false := by
  constructor
  · rintro ⟨before, last, funding, kind, few, unsent, asked, stop⟩
    refine ⟨last, ?_, kind, few, by simp [Auth.outstanding, unsent, asked], stop⟩
    rw [Context.lastEntry, funding, List.getLast?_concat]
  · rintro ⟨last, entry, kind, few, outstanding, stop⟩
    obtain ⟨before, funding⟩ := List.getLast?_eq_some_iff.mp entry
    simp only [Auth.outstanding, Bool.or_eq_false_iff, beq_eq_false_iff_ne] at outstanding
    exact ⟨before, last, funding, kind, few, outstanding.1, outstanding.2, stop⟩

theorem askIncrement_asks (asks : (f.station i).AsksIncrement) :
    askIncrement e i f = wantAuth e i .increment (f.station i).copy.holdStep f := by
  obtain ⟨last, entry, kind, few, outstanding, stop⟩ := (asksIncrement_iff _).mp asks
  unfold askIncrement
  simp only [entry]
  rw [if_pos ⟨kind, few, by simp [outstanding], by simp [stop]⟩]

theorem askIncrement_silent (silent : ¬ (f.station i).AsksIncrement) : askIncrement e i f = f := by
  unfold askIncrement
  dsimp only
  split
  · next last entry =>
    refine if_neg fun ⟨kind, few, outstanding, stop⟩ => silent ((asksIncrement_iff _).mpr ⟨last, entry, kind, few, ?_, ?_⟩)
    · simpa using outstanding
    · simpa using stop
  · rfl

theorem askIncrement_reports : ReportStep f (askIncrement e i f) := by
  by_cases asks : (f.station i).AsksIncrement
  · rw [askIncrement_asks asks]
    exact wantAuth_reports ..
  · rw [askIncrement_silent asks]
    exact .of_same rfl rfl

/-- The increment that station `x` asks for on the floor `h`, which has become `g`: DEFERRED behind a waiting report, and else
written at once or waiting (R85, R104, R105, R178). -/
def IncrementAsked (e : Mode) (i : StationId) (x : Station) (h g : Floor) : Prop :=
  let y := g.station i
  y.auth.kind = .increment ∧ y.auth.amount = x.copy.holdStep ∧
    (x.auth.slot.isSome = true → y.auth.state = .deferred ∧ y.auth.slot = x.auth.slot ∧ g.waitQueue = h.waitQueue) ∧
    (x.auth.slot = none → y.auth.id = x.auth.lastId + 1 ∧
      if h.waitQueue = [] ∧ roomNeeded h.rptWr 32 ≤ freeRoom h.rptWr e.rptRd then
        y.auth.state = .asked ∧ y.auth.slot = none ∧ y.auth.written = e.partTime ∧
          ReportHeaderAt g.store (reportPlace h.rptWr 32) 32 .authWanted (i.val + 1) e.partTime
      else y.auth.state = .unsent ∧ y.auth.slot.isSome = true ∧ g.waitQueue = h.waitQueue ++ [.auth i])

theorem wantAuth_asked (good : goodOffset f.rptWr) :
    IncrementAsked e i (f.station i) f (wantAuth e i .increment (f.station i).copy.holdStep f) := by
  unfold wantAuth
  by_cases slot : (f.station i).auth.slot.isSome = true
  · rw [if_pos slot]
    unfold IncrementAsked
    rw [station_onStation_self]
    exact ⟨rfl, rfl, fun _ => ⟨rfl, rfl, rfl⟩, fun none => absurd slot (by simp [none])⟩
  · rw [if_neg slot, produceAuth_here]
    by_cases room : f.waitQueue = [] ∧ roomNeeded f.rptWr 32 ≤ freeRoom f.rptWr e.rptRd
    · rw [produceAuth_written room]
      unfold IncrementAsked
      simp only [station_onStation_self, if_pos room, onStation_store]
      exact ⟨rfl, rfl, fun some => absurd some slot, fun _ => ⟨rfl, rfl, rfl, rfl,
        (authWanted_fields good (decide_eq_true room.2)).1⟩⟩
    · rw [produceAuth_waits room]
      unfold IncrementAsked
      simp only [station_enqueue, station_onStation_self, if_neg room]
      exact ⟨rfl, rfl, fun some => absurd some slot, fun _ => ⟨rfl, rfl, rfl, rfl⟩⟩

/-! ### Entry to LOW, and the return from it (R83, R84) -/

/-- A notice names its station by its number and its session alone (R180). -/
theorem stationNotice_onStation {event : NoticeEvent} {cause : OutCause} {change : Station → Station}
    (number : (change (f.station i)).reportedNumber = (f.station i).reportedNumber) :
    stationNotice e i event cause (f.onStation i change) = (stationNotice e i event cause f).onStation i change := by
  unfold stationNotice
  rw [station_onStation_self, number, onStation_waitQueue, onStation_rptWr, onStation_dropped]
  split
  · split <;> rfl
  · rfl

theorem enterLow_eq :
    enterLow e i f = askIncrement e i ((stationNotice e i .low .none f).onStation i (Station.lowEntered e.partTime)) := by
  unfold enterLow
  dsimp only
  rw [offer_eq, onStation_onStation, station_onStation_self, stationNotice_onStation (by split <;> rfl), onStation_onStation]
  refine congrArg (askIncrement e i) (onStation_congr _ _ ?_)
  rw [station_stationNotice]
  by_cases recovery : (f.station i).state = .recovery
  · simp only [if_pos recovery, Station.lowEntered]
    rfl
  · simp only [if_neg recovery, Station.lowEntered]
    rfl

theorem enterLow_reports : ReportStep f (enterLow e i f) := by
  rw [enterLow_eq]
  exact (stationNotice_reports ..).trans (onStation_reports.trans askIncrement_reports)

theorem checkFailed_reports : ReportStep f (checkFailed e i f) := by
  unfold checkFailed
  split
  · exact askIncrement_reports
  · exact enterLow_reports

theorem checkPassed_eq :
    checkPassed i f = if (f.station i).state = .low then f.onStation i Station.lowEnded else f := by
  unfold checkPassed showRemaining
  split
  · rw [offer_eq, station_onStation_self, onStation_onStation]
    rfl
  · rfl

theorem checkPassed_reports : ReportStep f (checkPassed i f) := by
  rw [checkPassed_eq]
  split <;> exact .of_same rfl rfl

end Outcome

end Sys2Proof.Machine
end

section
/-! SUPPORT. The funding request of a check: top-ups and spills, and what they leave of floor and accounts (R82, R134). -/

namespace Sys2Proof.Machine

open Sys2Proof
-- One proof after the other: proofs that wait for one another hold a thread each, and its memory.
set_option Elab.async false

section Request

variable {i : StationId} {f g k : Floor}

/-! ### What every part of a request leaves -/

/-- A part of station `i`'s funding request: the store's accounts and the stations change alone, no account's facts change, and a
last entry of kind ACCOUNT stays of that kind (R82, R135). -/
structure FundsStep (i : StationId) (f g : Floor) : Prop where
  rest : g = { f with store := g.store, stations := g.stations }
  cells : ∀ p, ¬ inAccounts p → g.store.read p = f.store.read p
  facts : ∀ n, n < 1024 → (g.store.account n).facts = (f.store.account n).facts
  last : (f.station i).context.lastIs .account = true → (g.station i).context.lastIs .account = true

theorem FundsStep.refl (i : StationId) (f : Floor) : FundsStep i f f := ⟨rfl, fun _ _ => rfl, fun _ _ => rfl, id⟩

theorem FundsStep.trans (a : FundsStep i f g) (b : FundsStep i g k) : FundsStep i f k where
  rest := b.rest.trans (by rw [a.rest])
  cells p outside := (b.cells p outside).trans (a.cells p outside)
  facts n hn := (b.facts n hn).trans (a.facts n hn)
  last account := b.last (a.last account)

/-- One account's part of a request (R134, R135). -/
theorem openAccount_funds {n : Nat} {change : Account → Account} {alter : Station → Station}
    (keeps : ∀ a, (change a).facts = a.facts)
    (last : (f.station i).context.lastIs .account = true → (alter (f.station i)).context.lastIs .account = true) :
    FundsStep i f ((f.onStore fun m => m.openAccount n change).onStation i alter) where
  rest := rfl
  cells p outside := by
    rw [onStation_store, onStore_store]
    exact openAccount_outside outside
  facts k hk := by
    rw [onStation_store, onStore_store]
    exact facts_openAccount keeps n hk
  last account := by
    rw [station_onStation_self, station_onStore]
    exact last account

theorem topUp_funds : FundsStep i f (topUp i f) := by
  unfold topUp
  dsimp only
  split
  · refine openAccount_funds (facts_addHeld _) (lastIs_of_shapes ?_)
    exact shapes_modify _ _ _ fun _ => rfl
  · exact .refl i f

theorem spillTo_funds (slot account : Nat) : FundsStep i f (spillTo i slot account f) := by
  unfold spillTo
  refine openAccount_funds (facts_addHolder _) fun _ => ?_
  exact (lastIs_iff _ _).mpr ⟨_, List.getLast?_concat, rfl⟩

theorem fundingSteps_funds (spills : Nat) : FundsStep i f (fundingSteps i spills f) := by
  induction spills generalizing f with
  | zero => exact topUp_funds
  | succ n ih =>
    simp only [fundingSteps]
    split
    · exact topUp_funds
    · split
      · exact topUp_funds
      · split
        · exact topUp_funds.trans ((spillTo_funds ..).trans ih)
        · exact topUp_funds

/-! ### A top-up (R82 step 1) -/

variable {before : List FundingEntry} {last : FundingEntry}

/-- The last entry after its top-up on the floor `f` (R82 step 1; log 32). -/
def FundingEntry.toppedUp (f : Floor) (x : Station) (en : FundingEntry) : FundingEntry :=
  { en with hold := en.hold + topUpUnits f.store x.copy.holdStep x.guardValue en }

theorem lastEntry_concat {c : Context} (funding : c.funding = before ++ [last]) : c.lastEntry = some last := by
  rw [Context.lastEntry, funding, List.getLast?_concat]

theorem topUp_eq (funding : (f.station i).context.funding = before ++ [last]) :
    topUp i f = (f.onStore fun m => m.openAccount last.account
      (·.addHeld (topUpUnits f.store (f.station i).copy.holdStep (f.station i).guardValue last))).onStation i
        (Station.withFunding (before ++ [last.toppedUp f (f.station i)])) := by
  unfold topUp
  simp only [lastEntry_concat funding]
  refine onStation_congr _ _ ?_
  have entries : ∀ change, (before ++ [last]).modify ((before ++ [last]).length - 1) change = before ++ [change last] := by
    intro change
    simp [List.modify_eq_set_getElem?]
  rw [station_onStore]
  simp only [Context.onLast, funding, entries]
  rfl

/-- A guard that is met needs no top-up (R82 step 1). -/
theorem topUpUnits_met {m : Memory} {step guard : Nat} {en : FundingEntry} (met : (guard : Int) ≤ en.remaining) :
    topUpUnits m step guard en = 0 := by
  have none : ((guard : Int) - en.remaining).toNat = 0 := by omega
  have steps : ceilDiv 0 (1000 * step) = 0 := by
    unfold ceilDiv
    rcases Nat.eq_zero_or_pos (1000 * step) with zero | pos
    · rw [zero]
    · exact Nat.div_eq_of_lt (by omega)
  unfold topUpUnits
  dsimp only
  rw [none, steps, Nat.mul_zero, Nat.zero_min, ite_self]

theorem meetsGuard_iff {x : Station} (funding : x.context.funding = before ++ [last]) :
    x.meetsGuard = true ↔ (x.guardValue : Int) ≤ last.remaining := by
  unfold Station.meetsGuard
  rw [lastEntry_concat funding]
  exact decide_eq_true_iff

theorem topUp_met (funding : (f.station i).context.funding = before ++ [last])
    (met : ((f.station i).guardValue : Int) ≤ last.remaining) : topUp i f = f := by
  have units := topUpUnits_met (m := f.store) (step := (f.station i).copy.holdStep) met
  have same : ∀ a : Account, a.addHeld 0 = a := fun a => by simp [Account.addHeld]
  rw [topUp_eq funding, FundingEntry.toppedUp, units]
  have store : (f.onStore fun m => m.openAccount last.account (·.addHeld 0)) = f := by
    unfold Floor.onStore
    dsimp only
    rw [show f.store.openAccount last.account (·.addHeld 0) = f.store from openAccount_same (same _)]
  rw [store]
  refine onStation_self _ _ ?_
  simp only [Station.withFunding, Nat.add_zero, ← funding]

theorem fundingSteps_met (spills : Nat) (met : ((topUp i f).station i).meetsGuard = true) :
    fundingSteps i (spills + 1) f = topUp i f := by
  simp only [fundingSteps]
  exact if_pos met

end Request

end Sys2Proof.Machine
end

section
/-! PROOF. The spill of a funding request to a later slot of the chain (R82 step 2). -/

namespace Sys2Proof.Machine

open Sys2Proof
-- One proof after the other: proofs that wait for one another hold a thread each, and its memory.
set_option Elab.async false

section Spill

variable {i : StationId} {f : Floor} {before : List FundingEntry} {last : FundingEntry} {slot n : Nat}

/-- The entry that a spill to account `n` in chain slot `slot` appends (R82 step 2). -/
def Station.spillEntry (m : Memory) (slot n : Nat) (x : Station) : FundingEntry :=
  { kind := .account, account := n, slot := slot, hold := firstHold m x.copy.holdStep n, committed := 0, grants := [] }

/-- The units by which station `x` tops up its last entry (R82 step 1). -/
abbrev topUpOf (f : Floor) (x : Station) (last : FundingEntry) : Nat :=
  topUpUnits f.store x.copy.holdStep x.guardValue last

theorem firstHold_congr {m m' : Memory} {step : Nat} (same : m'.account n = m.account n) :
    firstHold m' step n = firstHold m step n := by
  unfold firstHold
  rw [same]

theorem usable_congr {m m' : Memory} {need : Nat} (same : m'.account n = m.account n) : usable m' need n = usable m need n := by
  unfold usable
  rw [same]

/-- The account topped up is named by an entry, and so is no target of a spill (R82 step 2). -/
theorem spillTarget_toppedUp (funding : (f.station i).context.funding = before ++ [last]) (short : before.length < 2) :
    let x := f.station i
    spillTarget (topUp i f).store ((topUp i f).station i) (last.toppedUp f x) =
      x.context.chain.slots.find? fun k => decide (last.slot < k.1) && usable f.store x.holdNeed k.2 &&
        x.context.funding.all fun en => en.account != k.2 := by
  intro x
  rw [topUp_eq funding, onStation_store, onStore_store, station_onStation_self, station_onStore]
  unfold spillTarget
  rw [if_pos (by simp; omega)]
  refine congrArg (fun accepts => x.context.chain.slots.find? accepts) (funext fun k => ?_)
  have entries : (before ++ [last.toppedUp f x]).all (fun en => en.account != k.2) =
      x.context.funding.all fun en => en.account != k.2 := by
    rw [funding, List.all_append, List.all_append]
    rfl
  change (decide (last.slot < k.1) && usable _ x.holdNeed k.2 && (before ++ [last.toppedUp f x]).all _) = _
  rw [entries]
  by_cases named : k.2 = last.account
  · have excluded : (x.context.funding.all fun en => en.account != k.2) = false := by
      rw [funding, List.all_append]
      simp [named]
    rw [excluded, Bool.and_false, Bool.and_false]
  · rw [usable_congr (Memory.account_openAccount_other _ _ named)]

/-- The account that a spill goes to stands in the table (R82 step 2). -/
theorem spillTarget_inTable {x : Station} {m : Memory}
    (target : x.context.chain.slots.find? (fun k => decide (last.slot < k.1) && usable m x.holdNeed k.2 &&
      x.context.funding.all fun en => en.account != k.2) = some (slot, n)) : n < 1024 := by
  have accepted := List.find?_some target
  simp only [Bool.and_eq_true, usable, decide_eq_true_eq] at accepted
  exact accepted.1.2.1.1

theorem fundingSteps_next (spills : Nat) (unmet : ¬ ((topUp i f).station i).meetsGuard = true)
    (entry : ((topUp i f).station i).context.lastEntry = some last)
    (target : spillTarget (topUp i f).store ((topUp i f).station i) last = some (slot, n)) :
    fundingSteps i (spills + 1) f = fundingSteps i spills (spillTo i slot n (topUp i f)) := by
  simp only [fundingSteps]
  rw [if_neg unmet]
  simp only [entry, target]

/-- A request whose top-up falls short and whose spill meets the guard (R82). -/
theorem fundingSteps_spill (funding : (f.station i).context.funding = before ++ [last]) (short : before.length < 2)
    (unmet : (last.toppedUp f (f.station i)).remaining < (f.station i).guardValue) (other : n ≠ last.account)
    (target : (f.station i).context.chain.slots.find? (fun k => decide (last.slot < k.1) &&
      usable f.store (f.station i).holdNeed k.2 && (f.station i).context.funding.all fun en => en.account != k.2) = some (slot, n))
    (met : ((f.station i).guardValue : Int) ≤ ((f.station i).spillEntry f.store slot n).remaining) :
    fundingSteps i 2 f = (f.onStore fun m => (m.openAccount last.account (·.addHeld (topUpOf f (f.station i) last))).openAccount n
        (·.addHolder (firstHold f.store (f.station i).copy.holdStep n))).onStation i
      (Station.withFunding (before ++ [last.toppedUp f (f.station i), (f.station i).spillEntry f.store slot n])) := by
  have search := (spillTarget_toppedUp funding short).trans target
  let x := f.station i
  let hold := firstHold f.store x.copy.holdStep n
  have station : (topUp i f).station i = x.withFunding (before ++ [last.toppedUp f x]) := by
    rw [topUp_eq funding, station_onStation_self, station_onStore]
  have account : (topUp i f).store.account n = f.store.account n := by
    rw [topUp_eq funding, onStation_store, onStore_store]
    exact Memory.account_openAccount_other _ _ other
  have spilled : spillTo i slot n (topUp i f) =
      (f.onStore fun m => (m.openAccount last.account (·.addHeld (topUpOf f x last))).openAccount n (·.addHolder hold)).onStation i
        (Station.withFunding (before ++ [last.toppedUp f x, x.spillEntry f.store slot n])) := by
    unfold spillTo
    rw [firstHold_congr account, station, topUp_eq funding]
    rw [onStore_onStation, onStation_onStation]
    refine congrArg (fun g : Floor => g.onStore fun m => m.openAccount n (·.addHolder hold)) (onStation_congr _ _
      (b := Station.withFunding (before ++ [last.toppedUp f x, x.spillEntry f.store slot n])) ?_)
    simp only [Station.withFunding, List.append_assoc, List.cons_append, List.nil_append]
    rfl
  have funding' : ((spillTo i slot n (topUp i f)).station i).context.funding =
      (before ++ [last.toppedUp f x]) ++ [x.spillEntry f.store slot n] := by
    rw [spilled, station_onStation_self, List.append_assoc]
    rfl
  have met' : (((spillTo i slot n (topUp i f)).station i).guardValue : Int) ≤ (x.spillEntry f.store slot n).remaining := by
    rw [spilled, station_onStation_self]
    exact met
  have guard : ¬ ((topUp i f).station i).meetsGuard = true := by
    rw [station, meetsGuard_iff (last := last.toppedUp f x) rfl]
    exact Int.not_le.mpr unmet
  have enough := topUp_met funding' met'
  rw [fundingSteps_next 1 guard (by rw [station]; exact lastEntry_concat rfl) search,
    fundingSteps_met 0 (by rw [enough]; exact (meetsGuard_iff funding').mpr met'), enough, spilled]

end Spill

end Sys2Proof.Machine
end

section
/-! PROOF. O59: the funding check, by the outcome of its funding request (R81 to R85, R126, R134). -/

namespace Sys2Proof.Machine

open Sys2Proof
-- One proof after the other: proofs that wait for one another hold a thread each, and its memory.
set_option Elab.async false

section Check

variable {e : Mode} {i : StationId} {f : Floor} {before : List FundingEntry} {last : FundingEntry}

/-! ### A check as its request and its outcome -/

/-- The floor after the funding request of a check, if one is made (R81, R82). -/
def fundsRequested (i : StationId) (f : Floor) : Floor :=
  if !(f.station i).fundsPass && (f.station i).context.lastIs .account then fundingSteps i 2 f else f

/-- The floor after the outcome of a check (R83 to R85). -/
def checkOutcome (e : Mode) (i : StationId) (f : Floor) : Floor :=
  if (f.station i).fundsPass then checkPassed i f else checkFailed e i f

theorem fundingCheck_made (checks : (f.station i).state.checksFunds = true) :
    let o := checkOutcome e i (fundsRequested i f)
    fundingCheck e i f = closeAccounts (o.station i).requestAccounts o := by
  intro o
  have work : fundingCheckOpen e i f = o := if_pos checks
  unfold fundingCheck
  rw [work]

theorem fundingCheck_notMade (checks : ¬ (f.station i).state.checksFunds = true) (even : EvenCounts f.store) :
    fundingCheck e i f = f := by
  have work : fundingCheckOpen e i f = f := if_neg checks
  unfold fundingCheck
  rw [work]
  exact closeAccounts_even _ even

theorem fundsRequested_funds : FundsStep i f (fundsRequested i f) := by
  unfold fundsRequested
  split
  · exact fundingSteps_funds 2
  · exact .refl i f

theorem checkOutcome_reports : ReportStep f (checkOutcome e i f) := by
  unfold checkOutcome
  split
  · exact checkPassed_reports
  · exact checkFailed_reports

theorem FundsStep.offset {g : Floor} (h : FundsStep i f g) : g.rptWr = f.rptWr := (congrArg Floor.rptWr h.rest :)

/-- A check changes no account but in what holds change (R135). -/
theorem fundingCheck_facts (good : goodOffset f.rptWr) {n : Nat} (hn : n < 1024) :
    ((fundingCheck e i f).store.account n).facts = (f.store.account n).facts := by
  by_cases checks : (f.station i).state.checksFunds = true
  · have request := fundsRequested_funds (i := i) (f := f)
    rw [fundingCheck_made checks, closeAccounts_store, facts_foldl_closeAccount _ hn,
      checkOutcome_reports.account (by rw [request.offset]; exact good) hn]
    exact request.facts n hn
  · have work : fundingCheckOpen e i f = f := if_neg checks
    unfold fundingCheck
    rw [work, closeAccounts_store]
    exact facts_foldl_closeAccount _ hn

/-- A check that makes no request (R81). -/
theorem fundingCheck_noRequest (checks : (f.station i).state.checksFunds = true) (good : goodOffset f.rptWr)
    (even : EvenCounts f.store) (quiet : (f.station i).fundsPass = true ∨ (f.station i).context.lastIs .account = false) :
    fundingCheck e i f = checkOutcome e i f := by
  have request : fundsRequested i f = f := if_neg (by rcases quiet with h | h <;> simp [h])
  rw [fundingCheck_made checks, request]
  exact closeAccounts_even _ (checkOutcome_reports.even good even)

/-! ### A check that passes (R84) -/

/-- A station whose check has passed with its session's context at `c` (R81, R84). -/
def Station.checkedWith (c : Context) (x : Station) : Station :=
  if x.state = .low then
    { x with
      state := .opened, lowStart := none, context := c
      link := x.link.offer (showOn 1 .remaining { x with context := c }.lastUnits c.totalDelivered) }
  else { x with context := c }

theorem checkPassed_withFunding (l : List FundingEntry) :
    checkPassed i (f.onStation i (Station.withFunding l)) =
      f.onStation i fun x => x.checkedWith { x.context with funding := l } := by
  rw [checkPassed_eq, station_onStation_self]
  unfold Station.checkedWith
  split
  · next low =>
    rw [onStation_onStation]
    refine onStation_congr _ _ ?_
    rw [if_pos low]
  · next low =>
    refine onStation_congr _ _ ?_
    rw [if_neg low]

theorem fundingCheck_passes (checks : (f.station i).state.checksFunds = true) (good : goodOffset f.rptWr)
    (even : EvenCounts f.store) (pass : (f.station i).fundsPass = true) :
    fundingCheck e i f = f.onStation i fun x => x.checkedWith x.context := by
  rw [fundingCheck_noRequest checks good even (.inl pass), checkOutcome, if_pos pass]
  have same : f.onStation i (Station.withFunding (f.station i).context.funding) = f := onStation_self _ _ rfl
  have passed := checkPassed_withFunding (i := i) (f := f) (f.station i).context.funding
  rw [same] at passed
  rw [passed]
  exact onStation_congr _ _ rfl

/-! ### A check that fails (R83, R85) -/

/-- The floor on which a station has entered LOW, but for the increment it asks for (R83, R126). -/
def lowFloor (e : Mode) (i : StationId) (f : Floor) : Floor :=
  (stationNotice e i .low .none f).onStation i (Station.lowEntered e.partTime)

theorem lowFloor_station : (lowFloor e i f).station i = (f.station i).lowEntered e.partTime := by
  rw [lowFloor, station_onStation_self, station_stationNotice]

theorem checkOutcome_fails (fails : (f.station i).fundsPass = false) :
    checkOutcome e i f = askIncrement e i (if (f.station i).state = .low then f else lowFloor e i f) := by
  rw [checkOutcome, if_neg (by simp [fails]), checkFailed, enterLow_eq]
  split <;> rfl

theorem checkOutcome_fundsPass : ((checkOutcome e i f).station i).fundsPass = (f.station i).fundsPass := by
  unfold checkOutcome
  split
  · rw [checkPassed_station]
    split <;> rfl
  · obtain ⟨a, failed⟩ := checkFailed_station e i f
    rw [failed]
    split <;> rfl

/-- A session whose last entry is of kind ACCOUNT asks for no increment (R85). -/
theorem silent_of_account {x : Station} (account : x.context.lastIs .account = true) : ¬ x.AsksIncrement := by
  intro asks
  obtain ⟨last, entry, kind, -⟩ := (asksIncrement_iff x).mp asks
  obtain ⟨last', entry', kind'⟩ := (lastIs_iff _ _).mp account
  cases entry.symm.trans entry'
  cases kind.symm.trans kind'

theorem askIncrement_asked (good : goodOffset f.rptWr) (asks : (f.station i).AsksIncrement) :
    IncrementAsked e i (f.station i) f (askIncrement e i f) := by
  rw [askIncrement_asks asks]
  exact wantAuth_asked good

/-- The notice of LOW on the floor on which LOW is entered (R83, R180). -/
theorem lowFloor_handled (good : goodOffset f.rptWr) :
    NoticeHandled e (i.val + 1) .low .none (f.station i).reportedNumber f (lowFloor e i f) :=
  stationNotice_handled (e := e) i .low .none good rfl

/-! ### A check with a request -/

theorem fundsRequested_station : ∃ l, (fundsRequested i f).station i = (f.station i).withFunding l := by
  unfold fundsRequested
  split
  · exact fundingSteps_station i 2 f
  · exact ⟨_, rfl⟩

theorem fundingCheck_fundsPass (checks : (f.station i).state.checksFunds = true) :
    ((fundingCheck e i f).station i).fundsPass = ((fundsRequested i f).station i).fundsPass := by
  rw [fundingCheck_made checks, closeAccounts, station_onStore]
  exact checkOutcome_fundsPass

/-- A check whose request has not met the guard of a session with a last ACCOUNT entry asks for nothing: LOW is entered, or stays
(R83, R85). -/
theorem fundingCheck_unmet (checks : (f.station i).state.checksFunds = true)
    (account : (f.station i).context.lastIs .account = true) (fails : ((fundingCheck e i f).station i).fundsPass = false) :
    let g := fundsRequested i f
    let o := if (f.station i).state = .low then g else lowFloor e i g
    fundingCheck e i f = closeAccounts (o.station i).requestAccounts o := by
  intro g o
  have stays := (fundsRequested_funds (i := i) (f := f)).last account
  obtain ⟨l, station⟩ := fundsRequested_station (i := i) (f := f)
  rw [fundingCheck_fundsPass checks] at fails
  have outcome : checkOutcome e i g = o := by
    have state : (g.station i).state = (f.station i).state := (congrArg Station.state station :)
    rw [checkOutcome_fails fails, state]
    refine askIncrement_silent ?_
    split
    · exact silent_of_account stays
    · rw [lowFloor_station]
      exact silent_of_account stays
  rw [fundingCheck_made checks]
  exact congrArg (fun o : Floor => closeAccounts (o.station i).requestAccounts o) outcome

/-- A floor on which the accounts and the stations alone have changed handed on the notice that its last change handed on (R180). -/
theorem NoticeHandedOn.of_funds {number : Nat} {event : NoticeEvent} {cause : OutCause} {session : BitVec 32} {g k : Floor}
    (h : NoticeHandedOn e number event cause session g k) (request : FundsStep i f g) :
    NoticeHandedOn e number event cause session f k := by
  obtain ⟨rest, -⟩ := request
  rw [rest] at h
  exact h

/-- The end of a request stands in no notice's way (R134, R180). -/
theorem NoticeHandedOn.closed {number : Nat} {event : NoticeEvent} {cause : OutCause} {session : BitVec 32} {g : Floor}
    (h : NoticeHandedOn e number event cause session f g) (good : goodOffset f.rptWr) (accounts : List Nat) :
    NoticeHandedOn e number event cause session f (closeAccounts accounts g) := by
  obtain ⟨queue, told⟩ := h
  refine ⟨queue, ?_⟩
  by_cases room : noticeRoom e f
  · rw [if_pos room] at told ⊢
    have fit : fits e f 16 = true := decide_eq_true (Nat.le_of_add_right_le room.2.2)
    have same : ∀ k, k < 16 → (closeAccounts accounts g).store.read (reportPlace f.rptWr 16 + k) =
        g.store.read (reportPlace f.rptWr 16 + k) := fun k hk =>
      foldl_closeAccount_outside accounts fun account =>
        inAccount_notStream account (inReport_inStream fit good (.inl ⟨by omega, by omega⟩))
    obtain ⟨header, code, cause, mark, session, rest⟩ := told
    have word : (closeAccounts accounts g).store.readLE (reportPlace f.rptWr 16 + 12) 4 =
        g.store.readLE (reportPlace f.rptWr 16 + 12) 4 := Memory.readLE_congr 4 _ fun a low high => by
      have cell := same (a - reportPlace f.rptWr 16) (by omega)
      rwa [Nat.add_sub_cancel' (by omega)] at cell
    dsimp only
    rw [same 8 (by omega), same 9 (by omega), same 10 (by omega), word]
    exact ⟨header.congr fun k hk => same k (by omega), code, cause, mark, session, rest⟩
  · rw [if_neg room] at told ⊢
    exact told

end Check

end Sys2Proof.Machine
end

section
/-! PROOF. O59, continued: the requests that meet the guard, and the check as a whole (R81 to R85, R134). -/

namespace Sys2Proof.Machine

open Sys2Proof
-- One proof after the other: proofs that wait for one another hold a thread each, and its memory.
set_option Elab.async false

section Meets

variable {e : Mode} {i : StationId} {f : Floor} {before : List FundingEntry} {last : FundingEntry}

theorem checksFunds_iff (t : StationState) : t.checksFunds = true ↔ t = .opened ∨ t = .low ∨ t = .recovery := by
  simp [StationState.checksFunds, or_assoc]

/-- A check makes its request where the guard of a last ACCOUNT entry is not met (R82). -/
theorem fundsRequested_unmet (fails : (f.station i).fundsPass = false)
    (account : (f.station i).context.lastIs .account = true) : fundsRequested i f = fundingSteps i 2 f :=
  if_pos (by simp [fails, account])

theorem lastIs_concat {c : Context} (funding : c.funding = before ++ [last]) (kind : FundingKind) :
    c.lastIs kind = (last.kind == kind) := by
  rw [Context.lastIs, lastEntry_concat funding]

/-- A check whose request has met the guard by changes of accounts and of the funding list (R81, R82, R84). -/
theorem fundingCheck_met {change : Memory → Memory} {l : List FundingEntry}
    (checks : (f.station i).state.checksFunds = true)
    (request : fundsRequested i f = (f.onStore change).onStation i (Station.withFunding l))
    (pass : ((f.station i).withFunding l).fundsPass = true) :
    fundingCheck e i f = closeAccounts ((f.station i).withFunding l).requestAccounts
      ((f.onStore change).onStation i fun x => x.checkedWith { x.context with funding := l }) := by
  have passed := checkPassed_withFunding (i := i) (f := f.onStore change) l
  have accounts : (((f.onStore change).onStation i fun x => x.checkedWith { x.context with funding := l }).station i).requestAccounts =
      ((f.station i).withFunding l).requestAccounts := by
    rw [station_onStation_self, station_onStore, Station.checkedWith]
    split <;> rfl
  rw [fundingCheck_made checks, request, checkOutcome, if_pos (by rw [station_onStation_self, station_onStore]; exact pass),
    passed, accounts]

theorem entry_requested {x : Station} {l : List FundingEntry} {en : FundingEntry} (listed : en ∈ l) :
    en.account ∈ (x.withFunding l).requestAccounts :=
  List.mem_append_right _ (List.mem_map.mpr ⟨en, listed, rfl⟩)

theorem fundsPass_concat {x : Station} {l : List FundingEntry} {en : FundingEntry}
    (met : (x.guardValue : Int) ≤ en.remaining) : (x.withFunding (l ++ [en])).fundsPass = true := by
  unfold Station.fundsPass
  rw [(meetsGuard_iff (x := x.withFunding (l ++ [en])) rfl).mpr met, Bool.or_true]

/-- The check whose top-up meets the guard: the account holds the units more, as one whole request on it (R82 step 1, R134). -/
theorem fundingCheck_toppedUp (checks : (f.station i).state.checksFunds = true) (even : EvenCounts f.store)
    (fails : (f.station i).fundsPass = false) (funding : (f.station i).context.funding = before ++ [last])
    (kind : last.kind = .account) (table : last.account < 1024)
    (met : ((f.station i).guardValue : Int) ≤ (last.toppedUp f (f.station i)).remaining) :
    let x := f.station i
    let c := { x.context with funding := before ++ [last.toppedUp f x] }
    let held := fun a : Account => a.addHeld (topUpOf f x last)
    let g := fundingCheck e i f
    g = { f with store := g.store, stations := f.stations.set i (x.checkedWith c) } ∧
      g.store.account last.account = edited (f.store.account last.account) (held (f.store.account last.account)) ∧
      ∀ p, g.store.read p = (f.store.editAccount last.account held).read p := by
  intro x c held g
  have account : x.context.lastIs .account = true := by rw [lastIs_concat funding, kind]; rfl
  have topped := topUp_eq funding
  have request : fundsRequested i f = _ := (fundsRequested_unmet fails account).trans ((fundingSteps_met 1 (by
    rw [topped, station_onStation_self, station_onStore]
    exact (meetsGuard_iff (last := last.toppedUp f x) rfl).mpr met)).trans topped)
  have work : g = _ := fundingCheck_met checks request (fundsPass_concat met)
  have named : last.account ∈ (x.withFunding (before ++ [last.toppedUp f x])).requestAccounts :=
    entry_requested (en := last.toppedUp f x) (by simp)
  have store : g.store = (f.store.openAccount last.account held).closeAccount last.account := by
    rw [work, closeAccounts_store]
    refine foldl_closeAccount_one named table fun k hk other => ?_
    rw [onStation_store, onStore_store, Memory.account_openAccount_other _ _ other]
    exact even k hk
  refine ⟨by rw [work]; rfl, ?_, fun p => ?_⟩
  · rw [store, account_closeAccount_self table, requestEnded_opened held table (even _ table)]
  · rw [store, Memory.read_closeAccount_openAccount _ held table (even _ table)]

/-- The check whose spill meets the guard: both accounts hold the units more (R82 step 2, R134). -/
theorem fundingCheck_spilled {slot n : Nat} (checks : (f.station i).state.checksFunds = true) (even : EvenCounts f.store)
    (fails : (f.station i).fundsPass = false) (funding : (f.station i).context.funding = before ++ [last])
    (kind : last.kind = .account) (table : last.account < 1024) (short : before.length < 2)
    (unmet : (last.toppedUp f (f.station i)).remaining < (f.station i).guardValue) (other : n ≠ last.account)
    (target : (f.station i).context.chain.slots.find? (fun k => decide (last.slot < k.1) &&
      usable f.store (f.station i).holdNeed k.2 && (f.station i).context.funding.all fun en => en.account != k.2) = some (slot, n))
    (met : ((f.station i).guardValue : Int) ≤ ((f.station i).spillEntry f.store slot n).remaining) :
    let x := f.station i
    let a := f.store.account last.account
    let b := f.store.account n
    let g := fundingCheck e i f
    g.station i = x.checkedWith { x.context with funding := before ++ [last.toppedUp f x, x.spillEntry f.store slot n] } ∧
      g.store.account last.account = edited a (a.addHeld (topUpOf f x last)) ∧
      g.store.account n = edited b (b.addHolder (firstHold f.store x.copy.holdStep n)) := by
  intro x a b g
  have account : x.context.lastIs .account = true := by rw [lastIs_concat funding, kind]; rfl
  have split : before ++ [last.toppedUp f x, x.spillEntry f.store slot n] =
      (before ++ [last.toppedUp f x]) ++ [x.spillEntry f.store slot n] := by simp
  have request := (fundsRequested_unmet fails account).trans (fundingSteps_spill funding short unmet other target met)
  have work : g = _ := fundingCheck_met checks request (by rw [split]; exact fundsPass_concat met)
  have listed : n < 1024 := spillTarget_inTable target
  have named : last.account ∈ (x.withFunding (before ++ [last.toppedUp f x, x.spillEntry f.store slot n])).requestAccounts :=
    entry_requested (en := last.toppedUp f x) (by simp)
  have named' : n ∈ (x.withFunding (before ++ [last.toppedUp f x, x.spillEntry f.store slot n])).requestAccounts :=
    entry_requested (en := x.spillEntry f.store slot n) (by simp)
  have untouched : (f.store.openAccount last.account (·.addHeld (topUpOf f x last))).account n = b :=
    Memory.account_openAccount_other _ _ other
  refine ⟨?_, ?_, ?_⟩
  · rw [work]
    exact (station_onStation_self ..).trans rfl
  · rw [work, closeAccounts_store, account_foldl_closeAccount named table, onStation_store, onStore_store,
      Memory.account_openAccount_other _ _ other.symm]
    exact requestEnded_opened (·.addHeld (topUpOf f x last)) table (even _ table)
  · rw [work, closeAccounts_store, account_foldl_closeAccount named' listed, onStation_store, onStore_store,
      requestEnded_opened _ listed (by rw [untouched]; exact even _ listed), untouched]

end Meets

section Fails

variable {e : Mode} {i : StationId} {f : Floor}

/-- A check that fails in OPEN or RECOVERY with a last entry of another kind than ACCOUNT: LOW is entered, and an increment asked for
where R85 asks (R83, R85, R126). -/
theorem fundingCheck_entersLow (checks : (f.station i).state.checksFunds = true) (low : (f.station i).state ≠ .low)
    (good : goodOffset f.rptWr) (even : EvenCounts f.store) (fails : (f.station i).fundsPass = false)
    (account : (f.station i).context.lastIs .account = false) :
    let x := f.station i
    let g := fundingCheck e i f
    (¬ x.AsksIncrement → g = lowFloor e i f) ∧
      (x.AsksIncrement → ∃ auth, g.station i = { x.lowEntered e.partTime with auth := auth } ∧
        IncrementAsked e i x (stationNotice e i .low .none f) g) := by
  intro x g
  have work : g = askIncrement e i (lowFloor e i f) := by
    refine (fundingCheck_noRequest checks good even (.inr account)).trans ?_
    rw [checkOutcome_fails fails, if_neg low]
  have good' : goodOffset (lowFloor e i f).rptWr := (stationNotice_reports (e := e) (i := i) .low .none).offset good
  have entered := lowFloor_station (e := e) (i := i) (f := f)
  refine ⟨fun silent => work.trans (askIncrement_silent (by rw [entered]; exact silent)), fun asks => ?_⟩
  obtain ⟨auth, kept⟩ := askIncrement_station e i (lowFloor e i f)
  have asked := askIncrement_asked (e := e) (i := i) good' (by rw [entered]; exact asks)
  rw [entered, ← work] at kept asked
  exact ⟨auth, kept, asked⟩

/-- A check that fails in LOW with a last entry of another kind than ACCOUNT asks for an increment at most (R83, R85). -/
theorem fundingCheck_staysLow (low : (f.station i).state = .low) (good : goodOffset f.rptWr) (even : EvenCounts f.store)
    (fails : (f.station i).fundsPass = false) (account : (f.station i).context.lastIs .account = false) :
    let x := f.station i
    let g := fundingCheck e i f
    (¬ x.AsksIncrement → g = f) ∧
      (x.AsksIncrement → ∃ auth, g.station i = { x with auth := auth } ∧ IncrementAsked e i x f g) := by
  intro x g
  have work : g = askIncrement e i f := by
    refine (fundingCheck_noRequest ((checksFunds_iff _).mpr (.inr (.inl low))) good even (.inr account)).trans ?_
    rw [checkOutcome_fails fails, if_pos low]
  refine ⟨fun silent => work.trans (askIncrement_silent silent), fun asks => ?_⟩
  obtain ⟨auth, kept⟩ := askIncrement_station e i f
  have asked := askIncrement_asked (e := e) good asks
  rw [← work] at kept asked
  exact ⟨auth, kept, asked⟩

/-- A request that does not meet the guard in OPEN or RECOVERY leads to LOW, with the notice of it and without an increment (R82, R83,
R126). -/
theorem fundingCheck_entersLow_unmet (checks : (f.station i).state.checksFunds = true) (low : (f.station i).state ≠ .low)
    (good : goodOffset f.rptWr) (account : (f.station i).context.lastIs .account = true)
    (fails : ((fundingCheck e i f).station i).fundsPass = false) :
    let x := f.station i
    let g := fundingCheck e i f
    g.station i = { x with
      state := .low, lowStart := some e.partTime, context := (g.station i).context
      jam := { x.jam with lost := if x.state = .recovery then [] else x.jam.lost }
      link := x.link.offer (showOn 1 .lowFunds (g.station i).lastUnits ((x.guardValue + 999) / 1000 : Nat)) } ∧
    NoticeHandedOn e (i.val + 1) .low .none x.reportedNumber f g ∧
    ∀ p, ¬ inReport f.rptWr 16 p → ¬ inAccounts p → g.store.read p = f.store.read p := by
  intro x g
  have made := fundingCheck_unmet checks account fails
  dsimp only at made
  rw [if_neg low] at made
  have request := fundsRequested_funds (i := i) (f := f)
  obtain ⟨l, station⟩ := fundsRequested_station (i := i) (f := f)
  generalize fundsRequested i f = h at *
  have work : g = closeAccounts ((lowFloor e i h).station i).requestAccounts (lowFloor e i h) := made
  have good' : goodOffset h.rptWr := by rwa [request.offset]
  have entered : g.station i = (x.withFunding l).lowEntered e.partTime :=
    (congrArg (·.station i) work).trans (lowFloor_station.trans (congrArg (Station.lowEntered e.partTime) station))
  have number : (h.station i).reportedNumber = x.reportedNumber := by rw [station]; rfl
  have handled := lowFloor_handled (e := e) (i := i) good'
  rw [number] at handled
  obtain ⟨handedOn, cells⟩ := handled
  refine ⟨by rw [entered]; rfl, ?_, fun p report apart => ?_⟩
  · rw [work]
    exact (handedOn.of_funds request).closed good _
  · rw [work, closeAccounts_store, foldl_closeAccount_outside _ apart, ← request.cells p apart]
    split at cells
    · exact cells p (by rw [request.offset]; exact report)
    · rw [cells]

/-- A request that does not meet the guard in LOW changes accounts and the funding list alone (R82, R83). -/
theorem fundingCheck_staysLow_unmet (low : (f.station i).state = .low)
    (account : (f.station i).context.lastIs .account = true) (fails : ((fundingCheck e i f).station i).fundsPass = false) :
    let x := f.station i
    let g := fundingCheck e i f
    g.station i = { x with context := (g.station i).context } ∧
      g = { f with store := g.store, stations := g.stations } ∧ ∀ p, ¬ inAccounts p → g.store.read p = f.store.read p := by
  intro x g
  have made := fundingCheck_unmet ((checksFunds_iff _).mpr (.inr (.inl low))) account fails
  dsimp only at made
  rw [if_pos low] at made
  have request := fundsRequested_funds (i := i) (f := f)
  obtain ⟨l, station⟩ := fundsRequested_station (i := i) (f := f)
  generalize fundsRequested i f = h at *
  have work : g = closeAccounts (h.station i).requestAccounts h := made
  have kept : g.station i = x.withFunding l := (congrArg (·.station i) work).trans station
  refine ⟨by rw [kept], ?_, fun p apart => ?_⟩
  · rw [work, request.rest]
    rfl
  · rw [work, closeAccounts_store, foldl_closeAccount_outside _ apart]
    exact request.cells p apart

end Fails

/-- Settles O59: a check is a funding request and its outcome; the request opens accounts that its end closes, and the outcome writes
in the report stream alone. -/
theorem fundingCheckDecidesTheState : Obligations.FundingCheckDecidesTheState := by
  unfold Obligations.FundingCheckDecidesTheState
  intro e i f aligned least x g y checked even remaining passed asks asked
  have good : goodOffset f.rptWr := ⟨aligned, least⟩
  have made : checked → x.state.checksFunds = true := (checksFunds_iff _).mpr
  refine ⟨(fundingCheck_at e i f).others, fun n hn => fundingCheck_facts good hn, fundingCheck_entries e i f, fun checks => ?_,
    fun unmade even => fundingCheck_notMade (fun h => unmade ((checksFunds_iff _).mp h)) even,
    fun checks even pass => (fundingCheck_passes (made checks) good even pass).trans (onStation_congr _ _ rfl),
    fun before last checks even fails funding kind table => ?_, fun state even fails account => ?_,
    fun state even account fails => ?_, fun low even account fails => ?_, fun low even account fails => ?_⟩
  · have decided := fundingCheck_decides (e := e) (made checks)
    cases pass : y.fundsPass with
    | false => exact .inr ⟨rfl, decided.trans (if_neg (Bool.eq_false_iff.mp pass))⟩
    | true =>
      refine .inl ⟨rfl, (decided.trans (if_pos pass)).trans ?_⟩
      change (if x.state = .recovery then StationState.recovery else .opened) = _
      rcases checks with state | state | state <;> rw [state] <;> rfl
  · intro a step wanted units topped c
    refine ⟨fun _ met => fundingCheck_toppedUp (made checks) even fails funding kind table met, ?_⟩
    intro slot n unmet short other target b hold entry met
    exact fundingCheck_spilled (made checks) even fails funding kind table short unmet other target met
  · intro l h
    have low : x.state ≠ .low := by rcases state with state | state <;> simp [state]
    obtain ⟨quiet, increment⟩ := fundingCheck_entersLow (made (state.imp_right .inr)) low good even fails account
    have handled := lowFloor_handled (e := e) (i := i) good
    refine ⟨fun silent => ?_, fun asks => ?_⟩
    · have same : g = lowFloor e i f := quiet silent
      exact ⟨(congrArg (·.station i) same).trans lowFloor_station, same ▸ handled⟩
    · obtain ⟨auth, kept, asked⟩ := increment asks
      exact ⟨(congrArg Station.state kept :), (congrArg Station.lowStart kept :), (congrArg Station.link kept :),
        (congrArg Station.jam kept :), (congrArg Station.context kept :), handled, asked⟩
  · have low : x.state ≠ .low := by rcases state with state | state <;> simp [state]
    exact fundingCheck_entersLow_unmet (made (state.imp_right .inr)) low good account fails
  · obtain ⟨quiet, increment⟩ := fundingCheck_staysLow low good even fails account
    refine ⟨quiet, fun asks => ?_⟩
    obtain ⟨auth, kept, asked⟩ := increment asks
    exact ⟨(congrArg Station.state kept :).trans low, (congrArg Station.lowStart kept :), (congrArg Station.link kept :),
      (congrArg Station.jam kept :), (congrArg Station.context kept :), asked⟩
  · exact fundingCheck_staysLow_unmet low account fails

end Sys2Proof.Machine
end

section
/-! SUPPORT. The cases of an AUTH ANSWER (R106): an answer that belongs to no request or comes before its report is written, and an
answer that is taken, on the floor on which its request is closed. -/

namespace Sys2Proof.Machine

open Sys2Proof
-- One proof after the other: proofs that wait for one another hold a thread each, and its memory.
set_option Elab.async false

section Answer

variable {e : Mode} {i : StationId} {slot : Nat} {f : Floor}

/-- The grant that an answer takes: what is offered, at most what was asked (R106, R112). -/
def grantTaken (m : Memory) (slot : Nat) (a : Auth) : Grant :=
  { reference := BitVec.ofNat 64 (m.param slot 8 8), amount := min (m.param slot 4 4) a.amount }

/-- The result of a grant that is taken: CLAMPED where more is offered than was asked (R106). -/
def grantResult (m : Memory) (slot : Nat) (a : Auth) : Result := if a.amount < m.param slot 4 4 then .clamped else .done

/-- A station whose authorization request is closed (R106, R110). -/
def Station.requestShut (x : Station) : Station := { x with auth := x.auth.shut }

theorem cancelAuth_requestShut : cancelAuth i f = f.onStation i fun _ => (f.station i).requestShut := rfl

theorem outstanding_iff (a : Auth) : a.outstanding = true ↔ a.state = .unsent ∨ a.state = .asked := by
  simp [Auth.outstanding]

/-- An answer without a request, or for another one, is TOO LATE (R106). -/
theorem judgeAnswer_tooLate (late : ¬ ((f.station i).auth.state = .unsent ∨ (f.station i).auth.state = .asked) ∨
    (f.station i).auth.id.toNat ≠ f.store.param slot 2 2) : judgeAnswer e i slot f = .unchanged e f (.bare .tooLate) := by
  rw [← outstanding_iff] at late
  exact if_pos (by simpa using late)

/-- An answer for the outstanding request of its id is not too late (R106). -/
theorem judgeAnswer_own (outstanding : (f.station i).auth.state = .unsent ∨ (f.station i).auth.state = .asked)
    (own : (f.station i).auth.id.toNat = f.store.param slot 2 2) :
    ¬ (!(f.station i).auth.outstanding || (f.station i).auth.id.toNat != f.store.param slot 2 2) = true := by
  simp [(outstanding_iff _).mpr outstanding, own]

/-- An answer to a request whose report waits is WRONG STATE (R106). -/
theorem judgeAnswer_unsent (unsent : (f.station i).auth.state = .unsent)
    (own : (f.station i).auth.id.toNat = f.store.param slot 2 2) :
    judgeAnswer e i slot f = .unchanged e f (.bare .wrongState) :=
  (if_neg (judgeAnswer_own (.inl unsent) own)).trans (if_pos unsent)

/-- An answer to an ASKED request closes it and is taken by its kind (R106). -/
theorem judgeAnswer_asked (asked : (f.station i).auth.state = .asked)
    (own : (f.station i).auth.id.toNat = f.store.param slot 2 2) :
    let a := (f.station i).auth
    judgeAnswer e i slot f =
      if a.kind = .first then firstGrant e i (grantResult f.store slot a) (grantTaken f.store slot a) (cancelAuth i f)
      else incrementGrant e i (grantResult f.store slot a) (grantTaken f.store slot a) (cancelAuth i f) :=
  (if_neg (judgeAnswer_own (.inr asked) own)).trans (if_neg (by simp [asked]))

/-- An AUTH ANSWER that names station `i` is judged there (R106, R175). -/
theorem authAnswer_judged {s : State} (run : s.mode.run ≠ .stopped) (named : s.floor.store.param s.slot 0 1 = i.val + 1) :
    authAnswerOrder s.mode s.slot s.floor = judgeAnswer s.mode i s.slot s.floor := stationOrder_named run named

theorem authReply_size (r : Result) (taken : Nat) (number : BitVec 32) : layoutSize (authReply r taken number).answer ≤ 8 :=
  Nat.le_refl 8

end Answer

end Sys2Proof.Machine
end

section
/-! PROOF. O32: AUTH ANSWER to an INCREMENT request: stop-asking for a grant of 0, else the grant joins the BANK entry and the funding
check judges it (R81, R84, R108, R112). -/

namespace Sys2Proof.Machine

open Sys2Proof
-- One proof after the other: proofs that wait for one another hold a thread each, and its memory.
set_option Elab.async false

section Increment

variable {e : Mode} {i : StationId} {f : Floor} {y : Station} {ok : Result} {g : Grant}

/-- A grant of 0 ends the asking of the session (R108). -/
theorem incrementGrant_declined (nothing : g.amount = 0) :
    incrementGrant e i ok g (f.onStation i fun _ => y) = ⟨.bare .done, e.page, f.onStation i fun _ => { y with
      context := { y.context with stopAsking := true }, link := y.link.offer (showOn y.secondRow .declined 0 0) }⟩ := by
  unfold incrementGrant
  dsimp only
  rw [if_pos nothing, showDeclined, onStation_onStation, offer_eq, onStation_onStation, station_onStation_self]
  rfl

/-- Any other grant joins the session's last entry, and a funding check is made (R81, R108). -/
theorem incrementGrant_joined (some : g.amount ≠ 0) :
    incrementGrant e i ok g (f.onStation i fun _ => y) = ⟨authReply ok g.amount y.context.number, e.page,
      fundingCheck e i (f.onStation i fun _ => y.addGrant g)⟩ := by
  unfold incrementGrant
  dsimp only
  rw [if_neg some, station_onStation_self, onStation_onStation]

/-- A funding entry with one more grant (R112). -/
def FundingEntry.granted (g : Grant) (en : FundingEntry) : FundingEntry :=
  { en with hold := en.hold + g.amount, grants := en.grants ++ [g] }

theorem addGrant_eq {before : List FundingEntry} {last : FundingEntry} (funding : y.context.funding = before ++ [last]) :
    y.addGrant g = y.withFunding (before ++ [last.granted g]) := by
  have joined : y.context.funding.modify (y.context.funding.length - 1) (FundingEntry.granted g) =
      before ++ [last.granted g] := by
    rw [funding]
    simp [List.modify_eq_set_getElem?]
  exact congrArg y.withFunding joined

/-- The check of a station that is not LOW changes nothing where it is not made or finds the guard met (R81). -/
theorem fundingCheck_leaves (even : EvenCounts f.store) (low : y.state ≠ .low)
    (quiet : ¬ y.state.checksFunds = true ∨ y.fundsPass = true) :
    fundingCheck e i (f.onStation i fun _ => y) = f.onStation i fun _ => y := by
  have station : (f.onStation i fun _ => y).station i = y := station_onStation_self ..
  refine fundingCheck_quiet (f := f.onStation i fun _ => y) even (by rwa [station]) ?_
  rw [station]
  refine quiet.imp_left fun unmade => ⟨fun h => unmade ?_, fun h => unmade ?_⟩ <;> rw [h] <;> rfl

/-- The check of a LOW session whose guard is met brings it back to OPEN and does nothing else (R84). -/
theorem fundingCheck_returns (even : EvenCounts f.store) (low : y.state = .low) (pass : y.fundsPass = true) :
    fundingCheck e i (f.onStation i fun _ => y) = f.onStation i fun _ => y.lowEnded := by
  have station : (f.onStation i fun _ => y).station i = y := station_onStation_self ..
  have request : fundsRequested i (f.onStation i fun _ => y) = f.onStation i fun _ => y :=
    if_neg (by rw [station]; simp [pass])
  rw [fundingCheck_made (by rw [station, low]; rfl), request, checkOutcome, station, if_pos pass, checkPassed_eq, station,
    if_pos low, onStation_onStation]
  exact closeAccounts_even _ even

/-- A check that fails where no account can be asked leaves the session LOW, its context as it was (R82, R83, R85). -/
theorem fundingCheck_short (checks : y.state.checksFunds = true) (bank : y.context.lastIs .account = false)
    (fails : y.fundsPass = false) :
    let z := (fundingCheck e i (f.onStation i fun _ => y)).station i
    z.state = .low ∧ z.context = y.context := by
  have station : (f.onStation i fun _ => y).station i = y := station_onStation_self ..
  generalize (f.onStation i fun _ => y) = h at *
  rw [← station] at checks bank fails ⊢
  have request : fundsRequested i h = h := if_neg (by simp [bank])
  have pass : ((fundingCheck e i h).station i).fundsPass = false := by rw [fundingCheck_fundsPass checks, request, fails]
  have decides := fundingCheck_decides (e := e) checks
  refine ⟨decides.trans (if_neg (Bool.eq_false_iff.mp pass)), ?_⟩
  rw [fundingCheck_made checks, request, closeAccounts, station_onStore]
  exact checkOutcome_context e i h

end Increment

section Joined

variable {s : State} {i : StationId} {y : Station} {r : Reply}

/-- The answer has made station `i` `y`, whose funding check is the rest of the order's work (R81, R108). -/
def LeavesToCheck (i : StationId) (s : State) (r : Reply) (y : Station) : Prop :=
  authAnswerOrder s.mode s.slot s.floor = ⟨r, s.mode.page, fundingCheck s.mode i (s.floor.onStation i fun _ => y)⟩

/-- Where the check makes one station of another, so does the order. -/
theorem LeavesToCheck.changes (h : LeavesToCheck i s r y) (l4 : EnableLaw s) (order : OrderAt s 11)
    (size : layoutSize r.answer ≤ 8) {z : Station}
    (made : fundingCheck s.mode i (s.floor.onStation i fun _ => y) = s.floor.onStation i fun _ => z) :
    OrderChangesTo .authAnswer i s r.result r.answer z := by
  unfold LeavesToCheck at h
  rw [made] at h
  exact orderChangesTo_of (body := authAnswerOrder) rfl order rfl l4 size h

/-- Where the check fails at a session without a last ACCOUNT entry, the order leaves it LOW (R83, R85). -/
theorem LeavesToCheck.short (h : LeavesToCheck i s r y) (l4 : EnableLaw s) (order : OrderAt s 11)
    (size : layoutSize r.answer ≤ 8) (checks : y.state.checksFunds = true) (bank : y.context.lastIs .account = false)
    (fails : y.fundsPass = false) :
    ∃ t, exec .authAnswer s = .next t ∧ Answered s t r.result r.answer ∧ (t.floor.station i).state = .low ∧
      (t.floor.station i).context = y.context ∧ (t.floor.station i).line.enable = false := by
  obtain ⟨low, context⟩ := fundingCheck_short (e := s.mode) (i := i) (f := s.floor) checks bank fails
  have others : KeepsOthers i s.floor (fundingCheck s.mode i (s.floor.onStation i fun _ => y)) := fun j other =>
    ((fundingCheck_at ..).others j other).trans (station_onStation_other _ _ _ _ other)
  have taken := exec_order (c := .authAnswer) (body := authAnswerOrder) rfl order rfl
  unfold LeavesToCheck at h
  rw [h] at taken
  generalize fundingCheck s.mode i (s.floor.onStation i fun _ => y) = g at *
  obtain ⟨-, -, ended⟩ := finishOrder_at (x := ⟨r, s.mode.page, g⟩) l4 rfl others
  refine ⟨_, taken, finishOrder_answered _ _ size, ?_⟩
  rw [ended, finished_state, finished_context]
  refine ⟨low, context, ?_⟩
  change Station.mayFeed _ _ = false
  simp [Station.mayFeed, low]

end Joined

/-- Settles O32: the answer is judged by R106, and a grant that is taken is judged by the funding check on the BANK entry it has
joined. -/
theorem authAnswerGrantsAnIncrement : Obligations.AuthAnswerGrantsAnIncrement := by
  unfold Obligations.AuthAnswerGrantsAnIncrement
  intro i s l4 even run order named m x offered taken outstanding
  have counts : EvenCounts s.floor.store := even.evenCounts run
  have judged := authAnswer_judged (notStopped_of_run run) named
  have granted : x.auth.state = .asked → x.auth.id.toNat = m.param s.slot 2 2 → x.auth.kind ≠ .first →
      authAnswerOrder s.mode s.slot s.floor = incrementGrant s.mode i (grantResult m s.slot x.auth) (grantTaken m s.slot x.auth)
        (s.floor.onStation i fun _ => x.requestShut) := fun asked own increment =>
    judged.trans ((judgeAnswer_asked asked own).trans (if_neg increment))
  refine ⟨fun late => ?_, fun unsent own => ?_, fun asked own increment nothing => ?_, ?_⟩
  · exact refusedWith_of_unchanged (body := authAnswerOrder) (r := .bare .tooLate) rfl order rfl l4 (by decide)
      (judged.trans (judgeAnswer_tooLate late))
  · exact refusedWith_of_unchanged (body := authAnswerOrder) (r := .bare .wrongState) rfl order rfl l4 (by decide)
      (judged.trans (judgeAnswer_unsent unsent own))
  · have none : (grantTaken m s.slot x.auth).amount = 0 := Nat.min_eq_zero_iff.mpr nothing
    exact orderChangesTo_of (body := authAnswerOrder) (r := .bare .done) rfl order rfl l4 (by decide)
      ((granted asked own increment).trans (incrementGrant_declined none))
  · intro before last asked own increment some funding bank result answer entry y checked met
    have work := (granted asked own increment).trans (incrementGrant_joined (Nat.pos_iff_ne_zero.mp some))
    rw [addGrant_eq (y := x.requestShut) funding] at work
    have joined : LeavesToCheck i s (authReply result taken x.context.number) y := work
    have size := authReply_size result taken x.context.number
    have pass : y.fundsPass = true ↔ met := fundsPass_iff (x := y) rfl
    refine ⟨fun quiet => ?_, fun low enough => ?_, fun checks short _ => ?_⟩
    · refine joined.changes l4 order size (fundingCheck_leaves counts ?_ ?_)
      · exact quiet.elim (fun unchecked low => unchecked (.inr (.inl low))) And.right
      · exact quiet.imp (fun unchecked made => unchecked ((checksFunds_iff _).mp made)) fun enough => pass.mpr enough.1
    · have returned := joined.changes l4 order size (fundingCheck_returns counts low (pass.mpr enough))
      rw [Station.lowEnded, Station.lastUnits, lastEntry_concat (c := y.context) rfl] at returned
      exact returned
    · refine joined.short l4 order size ((checksFunds_iff _).mpr checks) ?_ (Bool.eq_false_iff.mpr fun h => short (pass.mp h))
      rw [lastIs_concat (c := y.context) rfl]
      exact beq_false_of_ne fun account => by cases bank.symm.trans account

end Sys2Proof.Machine
end

section
/-! SUPPORT. The opening of a session that takes no hold on an account: the floor on which its funding check is made (R19, R73, R74). -/

namespace Sys2Proof.Machine

open Sys2Proof
-- One proof after the other: proofs that wait for one another hold a thread each, and its memory.
set_option Elab.async false

section Opening

variable {e : Mode} {i : StationId} {f h : Floor} {o : Opening}

/-- The floor of an opening's check, reached from the floor `f` on which the opening begins (R73, steps 1 to 5). -/
structure OpenedFrom (e : Mode) (i : StationId) (o : Opening) (f h : Floor) : Prop where
  tally : TallyClosed e i .sessionOpened (f.station i).line.live f h
  others : KeepsOthers i f h
  station : h.station i = ((f.station i).sessionOpened o f.store.sessionNumber e.partTime).withTallies
    (h.station i).line.live (h.station i).line.closed
  number : h.store.header 8 4 = nextNumber f.store.sessionNumber
  cells : ∀ p, ¬ inStream p → ¬ inHeader p → ¬ inAccounts p → h.store.read p = f.store.read p
  even : EvenCounts f.store → EvenCounts h.store

/-- The next session number depends on the header alone (R74). -/
theorem sessionNumber_congr {m m' : Memory} (same : ∀ p, inHeader p → m'.read p = m.read p) :
    m'.sessionNumber = m.sessionNumber := by
  rw [Memory.sessionNumber, Memory.sessionNumber, header_congr (by omega) same]

theorem openedFloor_openedFrom (good : (f.station i).line.live.fed ≠ 0 → goodOffset f.rptWr) :
    OpenedFrom e i o f (openedFloor e i o f) := by
  have closes := closeStray_closes (e := e) .sessionOpened good
  have apart := fun p => closes.cells (p := p) good
  have even := closeStray_even (e := e) .sessionOpened good
  have others := closeStray_others e i .sessionOpened f
  have tallies := closes.station
  unfold openedFloor
  dsimp only
  generalize closeStray e i .sessionOpened f = g at *
  have number : g.store.sessionNumber = f.store.sessionNumber := sessionNumber_congr fun p header =>
    apart p (header_apart header).1 (header_apart header).2
  have station : ((g.onStore Memory.advanceNumber).onStation i
      (Station.sessionOpened o g.store.sessionNumber e.partTime)).station i =
      (g.station i).sessionOpened o f.store.sessionNumber e.partTime := by
    rw [station_onStation_self, station_onStore, number]
  refine ⟨?_, fun j hj => ?_, ?_, ?_, fun p stream header accounts => ?_, fun counts => ?_⟩
  · refine closes.1.congr rfl rfl rfl rfl rfl ?_ ?_ rfl id fun p place => read_advanceNumber_outside _ fun header => ?_
    · rw [station]
      rfl
    · rw [station]
      rfl
    · obtain ⟨stream, accounts⟩ := header_apart header
      refine place.elim accounts fun ⟨_, room, fed, _, inside⟩ => stream ?_
      exact inReport_inStream (e := e) (decide_eq_true room) (good fed) (.inl inside)
  · rw [station_onStation_other _ _ _ _ hj, station_onStore, others j hj]
  · rw [station, tallies]
    rfl
  · exact (advanceNumber_leaves g.store).1.trans (congrArg nextNumber number)
  · exact (read_advanceNumber_outside _ header).trans (apart p stream accounts)
  · exact advanceNumber_tidy.even (even counts)

/-- With an empty tally an opening changes its station and takes the next session number alone (R73, R74). -/
theorem openedFloor_noTally {y : Station} (fed : y.line.live.fed = 0) :
    let h := openedFloor e i o (f.onStation i fun _ => y)
    h = { f with store := f.store.advanceNumber, stations := h.stations } ∧
      h.station i = y.sessionOpened o f.store.sessionNumber e.partTime := by
  intro h
  have floor : h = _ := openedFloor_empty (by rw [station_onStation_self]; exact fed)
  rw [floor]
  exact ⟨rfl, by rw [station_onStation_self, station_onStore, station_onStation_self]; rfl⟩

/-- Where the guard is met the check of the opening changes nothing (R73 step 6, R81). -/
theorem OpenedFrom.quiet (opened : OpenedFrom e i o f h) (even : EvenCounts f.store)
    (pass : ((f.station i).sessionOpened o f.store.sessionNumber e.partTime).fundsPass = true) : fundingCheck e i h = h := by
  have state : (h.station i).state = .opened := congrArg Station.state opened.station
  have passes : (h.station i).fundsPass = true := (congrArg Station.fundsPass opened.station).trans pass
  exact fundingCheck_quiet (opened.even even) (by rw [state]; decide) (.inr passes)

/-- The next session number is kept whole in a session's context (R74). -/
theorem toNat_sessionNumber (m : Memory) : (BitVec.ofNat 32 m.sessionNumber).toNat = m.sessionNumber := by
  have field : m.header 8 4 < 256 ^ 4 := Memory.readLE_lt m (Config.headerBase + 8) 4
  rw [BitVec.toNat_ofNat, Nat.mod_eq_of_lt]
  unfold Memory.sessionNumber
  split <;> omega

end Opening

end Sys2Proof.Machine
end

section
/-! PROOF. O33: AUTH ANSWER to a FIRST request: the card is declined, refused, or opens a bank session with the grant as its hold (R73,
R74, R107). -/

namespace Sys2Proof.Machine

open Sys2Proof
-- One proof after the other: proofs that wait for one another hold a thread each, and its memory.
set_option Elab.async false

section First

variable {e : Mode} {i : StationId} {f : Floor} {y : Station} {ok : Result} {g : Grant}

/-! ### The cases of R107 -/

/-- A card refused at the end of its funding wait: SHOW, EJECT, and IDLE (R107). -/
theorem refusedWait_eq (run : e.run ≠ .stopping) (card : y.nextCard = none) (msg : Message) :
    giveUpFunding e i (showAndEject i msg 0 0 (f.onStation i fun _ => y)) =
      f.onStation i fun _ => (y.refusal msg 0 0).givenUp := by
  rw [showAndEject_eq, onStation_onStation, giveUpFunding_eq run (by rw [station_onStation_self]; exact card),
    onStation_onStation]

/-- A grant of 0 declines the card (R107 case 1). -/
theorem firstGrant_declined (run : e.run ≠ .stopping) (card : y.nextCard = none) (nothing : g.amount = 0) :
    firstGrant e i ok g (f.onStation i fun _ => y) =
      ⟨.bare .done, e.page, f.onStation i fun _ => (y.refusal .declined 0 0).givenUp⟩ := by
  unfold firstGrant
  dsimp only
  rw [if_pos nothing, refusedWait_eq run card]

/-- A station without service refuses the card (R107 case 2). -/
theorem firstGrant_noService (run : e.run ≠ .stopping) (card : y.nextCard = none) (some : g.amount ≠ 0)
    (none : y.noService = true) : firstGrant e i ok g (f.onStation i fun _ => y) =
      ⟨.bare .wrongState, e.page, f.onStation i fun _ => (y.refusal .noService 0 0).givenUp⟩ := by
  unfold firstGrant
  dsimp only
  rw [if_neg some, station_onStation_self, if_pos none, refusedWait_eq run card]

/-- A grant below the hold need declines the card (R107 case 3). -/
theorem firstGrant_short (run : e.run ≠ .stopping) (card : y.nextCard = none) (some : g.amount ≠ 0)
    (serves : y.noService = false) (short : g.amount < y.holdNeed) : firstGrant e i ok g (f.onStation i fun _ => y) =
      ⟨.bare .short, e.page, f.onStation i fun _ => (y.refusal .declined 0 0).givenUp⟩ := by
  unfold firstGrant
  dsimp only
  rw [if_neg some, station_onStation_self, if_neg (Bool.eq_false_iff.mp serves), if_pos short, refusedWait_eq run card]

/-- A grant of the hold need opens a bank session (R107 case 4). -/
theorem firstGrant_opens (some : g.amount ≠ 0) (serves : y.noService = false) (enough : y.holdNeed ≤ g.amount) :
    firstGrant e i ok g (f.onStation i fun _ => y) = ⟨authReply ok g.amount (BitVec.ofNat 32 f.store.sessionNumber), e.page,
      openSession e i (bankOpening y.context.card g) (f.onStation i fun _ => y)⟩ := by
  unfold firstGrant
  dsimp only
  rw [if_neg some, station_onStation_self, if_neg (Bool.eq_false_iff.mp serves), if_neg (Nat.not_lt.mpr enough)]
  rfl

/-- A first grant of the hold need meets the guard (R35, R81). -/
theorem bank_fundsPass {card : Option Card} {number : Nat} {now : Time} (enough : y.holdNeed ≤ g.amount) :
    (y.sessionOpened (bankOpening card g) number now).fundsPass = true := by
  have guardMet : y.guardValue ≤ g.amount * 1000 := by
    unfold Station.holdNeed ceilDiv at enough
    omega
  refine (fundsPass_iff (before := []) rfl).mpr (.inr ?_)
  show (y.guardValue : Int) ≤ (g.amount : Int) * 1000 - 0
  omega

end First

/-! ### The order -/

section Order

variable {s : State} {i : StationId} {y : Station} {o : Opening} {r : Reply}

/-- The answer has made station `i` `y` and opens the session `o` there (R73, R107). -/
def LeavesToOpening (i : StationId) (s : State) (r : Reply) (o : Opening) (y : Station) : Prop :=
  authAnswerOrder s.mode s.slot s.floor = ⟨r, s.mode.page, openSession s.mode i o (s.floor.onStation i fun _ => y)⟩

/-- An opening whose guard is met ends the order on the floor of its check (R73 step 6). -/
theorem LeavesToOpening.reaches (h : LeavesToOpening i s r o y) (order : OrderAt s 11) (even : EvenCounts s.floor.store)
    (pass : (y.sessionOpened o s.floor.store.sessionNumber s.mode.partTime).fundsPass = true)
    (good : y.line.live.fed ≠ 0 → goodOffset s.floor.rptWr) :
    let f := s.floor.onStation i fun _ => y
    OpenedFrom s.mode i o f (openedFloor s.mode i o f) ∧
      exec .authAnswer s = .next (finishOrder s ⟨r, s.mode.page, openedFloor s.mode i o f⟩) := by
  intro f
  have station : f.station i = y := station_onStation_self ..
  have opened : OpenedFrom s.mode i o f (openedFloor s.mode i o f) := openedFloor_openedFrom (by rw [station]; exact good)
  have taken := exec_order (c := .authAnswer) (body := authAnswerOrder) rfl order rfl
  have checked := opened.quiet even (by rw [station]; exact pass)
  unfold LeavesToOpening at h
  rw [h, openSession_eq, checked] at taken
  exact ⟨opened, taken⟩

/-- The next session number stands in the header after the order's answer too (R74, R174). -/
theorem OpenedFrom.number_answered {f g : Floor} {p : Page} (opened : OpenedFrom s.mode i o f g) :
    (finishOrder s ⟨r, p, g⟩).floor.store.header 8 4 = nextNumber f.store.sessionNumber :=
  (header_congr (by decide) fun _ header => finishOrder_high (inHeader_high header)).trans opened.number

/-- With an empty tally the order changes its station, its slot and the next session number (R73, R74). -/
theorem LeavesToOpening.changes (h : LeavesToOpening i s r o y) (l4 : EnableLaw s) (order : OrderAt s 11)
    (even : EvenCounts s.floor.store) (size : layoutSize r.answer ≤ 8)
    (pass : (y.sessionOpened o s.floor.store.sessionNumber s.mode.partTime).fundsPass = true) (fed : y.line.live.fed = 0) :
    ∃ t, exec .authAnswer s = .next t ∧ Answered s t r.result r.answer ∧
      OrderKeeps (· = i) (fun a => inHeaderField 4 2 a ∨ inHeaderField 8 4 a ∨ inHeaderRest a) s t ∧
      t.floor.store.header 8 4 = nextNumber s.floor.store.sessionNumber ∧
      t.floor.station i = finished s.mode (s.floor.station i)
        (y.sessionOpened o s.floor.store.sessionNumber s.mode.partTime) := by
  obtain ⟨opened, taken⟩ := h.reaches order even pass fun closes => absurd fed closes
  have number := opened.number_answered (r := r) (p := s.mode.page)
  have kept : KeepsOthers i s.floor (openedFloor s.mode i o (s.floor.onStation i fun _ => y)) := fun j other =>
    (opened.others j other).trans (station_onStation_other _ _ _ _ other)
  obtain ⟨floor, station⟩ := openedFloor_noTally (e := s.mode) (i := i) (f := s.floor) (o := o) fed
  generalize openedFloor s.mode i o (s.floor.onStation i fun _ => y) = g at *
  obtain ⟨mode, others, ended⟩ := finishOrder_at (x := ⟨r, s.mode.page, g⟩) l4 rfl kept
  rw [station] at ended
  refine ⟨_, taken, finishOrder_answered _ _ size, ⟨mode, ?_, (congrArg Floor.waitQueue floor :), (congrArg Floor.dropped floor :),
    (congrArg Floor.rptWr floor :), others, fun a outside => ?_⟩, number, ended⟩
  · exact (finishOrder_irqFlag ..).trans (congrArg (· ||| IrqFlag.order.mask) (congrArg Floor.irqFlag floor :))
  · refine finishOrder_keepsBytes (stored := fun a => inHeaderField 4 2 a ∨ inHeaderField 8 4 a ∨ inHeaderRest a) others
      (fun p apart => ?_) a fun place => outside ?_
    · simp only [not_or] at apart
      rw [floor]
      exact (advanceNumber_leaves s.floor.store).2 p apart.1 apart.2.1 apart.2.2
    · exact place.imp_right (Or.imp_left fun record => ⟨i, rfl, record⟩)

/-- An opening that closes a tally (R19, R73, R74). -/
theorem LeavesToOpening.closes (h : LeavesToOpening i s r o y) (l4 : EnableLaw s) (order : OrderAt s 11)
    (even : EvenCounts s.floor.store) (size : layoutSize r.answer ≤ 8)
    (pass : (y.sessionOpened o s.floor.store.sessionNumber s.mode.partTime).fundsPass = true) (offset : OffsetLaw s)
    (line : y.line = (s.floor.station i).line) (copy : y.copy = (s.floor.station i).copy) :
    ∃ t, exec .authAnswer s = .next t ∧ Answered s t r.result r.answer ∧ t.mode = s.mode ∧ KeepsOthers i s.floor t.floor ∧
      TallyClosed s.mode i .sessionOpened (s.floor.station i).line.live s.floor t.floor ∧
      t.floor.store.header 8 4 = nextNumber s.floor.store.sessionNumber ∧
      KeepsBytes (fun a => inAnswer s.port.ordDone a ∨ inRecord i a ∨ inHeader a ∨ inStream a ∨ inAccounts a)
        s.floor t.floor ∧
      let z := t.floor.station i
      let opened := y.sessionOpened o s.floor.store.sessionNumber s.mode.partTime
      z.state = opened.state ∧ z.context = opened.context ∧ z.auth = opened.auth ∧ z.line.pace = 0 ∧
        z.line.inPath = y.line.inPath ∧ z.link = opened.link := by
  obtain ⟨opened, taken⟩ := h.reaches order even pass fun _ => offset.good
  have number := opened.number_answered (r := r) (p := s.mode.page)
  obtain ⟨tally, others, station, _, cells, _⟩ := opened
  have kept : KeepsOthers i s.floor (openedFloor s.mode i o (s.floor.onStation i fun _ => y)) := fun j other =>
    (others j other).trans (station_onStation_other _ _ _ _ other)
  rw [station_onStation_self] at tally station
  generalize openedFloor s.mode i o (s.floor.onStation i fun _ => y) = g at *
  obtain ⟨mode, others, ended⟩ := finishOrder_at (x := ⟨r, s.mode.page, g⟩) l4 rfl kept
  have lineOf : ((finishOrder s ⟨r, s.mode.page, g⟩).floor.station i).line = ((g.station i).driveEnable s.mode).line := by
    rw [ended]
    exact settleRecord_line ..
  refine ⟨_, taken, finishOrder_answered _ _ size, mode, others, ?_, number, ?_, ?_⟩
  · rw [line] at tally
    refine tally.congr ?_ ?_ rfl rfl rfl ((congrArg LineUnit.live lineOf).trans rfl)
      ((congrArg LineUnit.closed lineOf).trans rfl) rfl ?_ fun p place => finishOrder_high ?_
    · rw [station_onStation_self, line]
    · rw [station_onStation_self, copy]
    · intro set
      rw [Floor.flag] at set ⊢
      rw [finishOrder_irqFlag, BitVec.getLsbD_or, set, Bool.true_or]
    · rcases place with account | ⟨-, -, -, -, low, -⟩
      · exact inAccounts_high account
      · exact Nat.le_trans (reportPlace_high ..) low
  · refine finishOrder_keepsBytes others fun a outside => ?_
    simp only [not_or] at outside
    exact cells a outside.2.1 outside.1 outside.2.2
  · rw [station] at ended
    dsimp only
    rw [ended]
    exact ⟨finished_state .., finished_context .., settleRecord_auth .., (congrArg LineUnit.pace (settleRecord_line ..)).trans rfl,
      finished_inPath .., settleRecord_link ..⟩

end Order

/-- Settles O33: the answer is judged by R107, and a grant of the hold need opens a session whose funding check finds the guard
met. -/
theorem authAnswerOpensABankSession : Obligations.AuthAnswerOpensABankSession := by
  unfold Obligations.AuthAnswerOpensABankSession
  intro i s l4 even running order named m x offered taken need asked own first slot
  have notStopping : s.mode.run ≠ .stopping := by rw [running]; decide
  have counts : EvenCounts s.floor.store := even.evenCounts (.inl running)
  have granted : authAnswerOrder s.mode s.slot s.floor = firstGrant s.mode i (grantResult m s.slot x.auth)
      (grantTaken m s.slot x.auth) (s.floor.onStation i fun _ => x.requestShut) :=
    (authAnswer_judged (by rw [running]; decide) named).trans ((judgeAnswer_asked asked own).trans (if_pos first))
  have refuses : ∀ (result : Result) (z : Station), firstGrant s.mode i (grantResult m s.slot x.auth)
      (grantTaken m s.slot x.auth) (s.floor.onStation i fun _ => x.requestShut) =
        ⟨.bare result, s.mode.page, s.floor.onStation i fun _ => z⟩ → OrderChangesTo .authAnswer i s result [] z :=
    fun result _ made => orderChangesTo_of (body := authAnswerOrder) (r := .bare result) rfl order rfl l4 (Nat.zero_le _)
      (granted.trans made)
  refine ⟨fun nothing => ?_, fun some none => ?_, fun some serves short => ?_, ?_⟩
  · exact refuses .done _ (firstGrant_declined notStopping slot nothing)
  · exact refuses .wrongState _ (firstGrant_noService notStopping slot (Nat.pos_iff_ne_zero.mp some) none)
  · exact refuses .short _ (firstGrant_short notStopping slot (Nat.pos_iff_ne_zero.mp some) serves short)
  · intro next number session
    have opens : 0 < taken → x.noService = false → need ≤ taken →
        LeavesToOpening i s (authReply (grantResult m s.slot x.auth) taken (BitVec.ofNat 32 number))
          (bankOpening x.context.card (grantTaken m s.slot x.auth)) x.requestShut := fun some serves enough =>
      granted.trans (firstGrant_opens (y := x.requestShut) (Nat.pos_iff_ne_zero.mp some) serves enough)
    have pass : need ≤ taken → (x.requestShut.sessionOpened (bankOpening x.context.card (grantTaken m s.slot x.auth)) number
        s.mode.partTime).fundsPass = true := bank_fundsPass (y := x.requestShut) (g := grantTaken m s.slot x.auth)
    have answer : (authReply (grantResult m s.slot x.auth) taken (BitVec.ofNat 32 number)).answer =
        [(4, taken), (4, number)] := congrArg (fun n => [(4, taken), (4, n)]) (toNat_sessionNumber m)
    refine ⟨fun some serves enough fed => ?_, fun some serves enough _ offset => ?_⟩
    · have changed := (opens some serves enough).changes l4 order counts (authReply_size ..) (pass enough) fed
      rw [answer] at changed
      exact changed
    · have closed := (opens some serves enough).closes l4 order counts (authReply_size ..) (pass enough) offset rfl rfl
      rw [answer] at closed
      exact closed

end Sys2Proof.Machine
end

section
/-! PROOF. O36: JAM ACK empties a HELD jam record (R129), and SESSION END ends a session or gives up a funding wait (R96). -/

namespace Sys2Proof.Machine

open Sys2Proof
-- One proof after the other: proofs that wait for one another hold a thread each, and its memory.
set_option Elab.async false

section Judged

variable {e : Mode} {i : StationId} {slot : Nat} {f : Floor}

/-! ### JAM ACK -/

theorem judgeAck_empty (empty : (f.station i).jam.record = none) :
    judgeAck e i slot f = .unchanged e f (.bare .notFound) := by
  unfold judgeAck
  rw [empty]

/-- JAM ACK answers from a HELD record and empties it (R129). -/
theorem judgeAck_held {r : JamReport} {overflow : Nat} (held : (f.station i).jam.record = some (r, overflow)) :
    judgeAck e i slot f = ⟨ackReply r overflow, e.page, f.onStation i fun _ =>
      { f.station i with jam := { (f.station i).jam with record := none } }⟩ := by
  unfold judgeAck
  rw [held]
  rfl

/-! ### SESSION END -/

/-- The answer of a SESSION END to a LIVE session: its number (R96, 11.1). -/
def endedReply (x : Station) : Reply := { result := .accepted, answer := [(4, x.context.number.toNat)] }

/-- SESSION END ends a LIVE session as R88 says. -/
theorem judgeEnd_live (live : (f.station i).context.condition = .live) :
    judgeEnd e i slot f =
      ⟨endedReply (f.station i), e.page, f.onStation i fun _ => (f.station i).ended e.partTime .staff⟩ := by
  unfold judgeEnd
  dsimp only
  rw [live, endSession_eq]
  rfl

/-- SESSION END gives up a FUNDING wait, its card declined (R96). -/
theorem judgeEnd_funding (run : e.run ≠ .stopping) (card : (f.station i).nextCard = none)
    (funding : (f.station i).context.condition = .funding) :
    judgeEnd e i slot f =
      ⟨.bare .accepted, e.page, f.onStation i fun _ => ((f.station i).refusal .declined 0 0).givenUp⟩ := by
  have wait := refusedWait_eq (f := f) (i := i) run card .declined
  rw [onStation_self f i rfl] at wait
  unfold judgeEnd
  dsimp only
  rw [funding, wait]

/-- SESSION END finds nothing to end in any other condition (R96). -/
theorem judgeEnd_nothing (live : (f.station i).context.condition ≠ .live)
    (funding : (f.station i).context.condition ≠ .funding) : judgeEnd e i slot f = .unchanged e f (.bare .wrongState) := by
  unfold judgeEnd
  dsimp only
  split
  next h => exact absurd h live
  next h => exact absurd h funding
  all_goals rfl

end Judged

/-- Settles O36: either order is judged at the station it names, by the jam record and by the condition of the context. -/
theorem jamAckAndSessionEnd : Obligations.JamAckAndSessionEnd := by
  unfold Obligations.JamAckAndSessionEnd
  intro i s l4 run named x
  have stopped := notStopped_of_run run
  have acked : jamAckOrder s.mode s.slot s.floor = judgeAck s.mode i s.slot s.floor := stationOrder_named stopped named
  have judged : sessionEndOrder s.mode s.slot s.floor = judgeEnd s.mode i s.slot s.floor := stationOrder_named stopped named
  refine ⟨fun order => ⟨fun empty => ?_, fun r overflow held => ?_⟩,
    fun order => ⟨fun live => ?_, fun funding card running => ?_, fun live funding => ?_⟩⟩
  · exact refusedWith_of_unchanged (body := jamAckOrder) (r := .bare .notFound) rfl order rfl l4 (Nat.zero_le _)
      (acked.trans (judgeAck_empty empty))
  · exact orderChangesTo_of (body := jamAckOrder) (r := ackReply r overflow) rfl order rfl l4 (Nat.le_refl 8)
      (acked.trans (judgeAck_held held))
  · exact orderChangesTo_of (body := sessionEndOrder) (r := endedReply x) rfl order rfl l4 (by simp [endedReply, layoutSize])
      (judged.trans (judgeEnd_live live))
  · exact orderChangesTo_of (body := sessionEndOrder) (r := .bare .accepted) rfl order rfl l4 (Nat.zero_le _)
      (judged.trans (judgeEnd_funding (by rw [running]; decide) card funding))
  · exact refusedWith_of_unchanged (body := sessionEndOrder) (r := .bare .wrongState) rfl order rfl l4 (Nat.zero_le _)
      (judged.trans (judgeEnd_nothing live funding))

end Sys2Proof.Machine
end

section
/-! SUPPORT. Account orders: the first test one of them fails, and the work of one that passes them all (R137 to R143). -/

namespace Sys2Proof.Machine

open Sys2Proof
-- One proof after the other: proofs that wait for one another hold a thread each, and its memory.
set_option Elab.async false

/-! ### The tests -/

/-- Whether the parameters of an account order of a kind pass the order's own test (R138 to R141). -/
def paramsPass (kind : Nat) (m : Memory) (slot : Nat) : Bool :=
  match kind with
  | 1 => openParams m slot
  | 2 | 3 => amountValid (m.param slot 4 4)
  | 4 => decide ((m.param slot 4 4 : Int) ≤ Config.maxUnits)
  | _ => true

/-- Whether account 0 is kept from account orders of a kind (R137). -/
def sparesHouse (kind : Nat) : Bool := decide (kind = 1) || decide (5 ≤ kind)

/-- What the state of an account answers to an account order of a kind that it refuses (R138 to R143). -/
def stateVerdict (kind : Nat) (a : Account) : Option Result :=
  if kind = 1 then (if a.isFree then none else some .existing)
  else if a.isFree then some .notFound
  else if (kind = 4 ∧ a.isCredit = false) ∨ (kind = 5 ∧ a.isOpen = false) ∨ (kind = 6 ∧ a.isFrozen = false) ∨
      (kind = 7 ∧ a.isClosing = true) then some .wrongState
  else none

/-- The result of the first test an account order of a kind fails, in the order of R137. -/
def accountVerdict (kind : Nat) (m : Memory) (slot : Nat) : Option Result :=
  let n := m.paramAccount slot
  let a := m.account n
  if Config.accountCount ≤ n then some .badValue
  else if !a.codesValid then some .badValue
  else if !paramsPass kind m slot then some .badValue
  else if sparesHouse kind && n == 0 then some .wrongState
  else stateVerdict kind a

/-- The work of an account order of a kind whose tests have all passed. -/
def accountPassed (kind : Nat) (e : Mode) (slot : Nat) (f : Floor) (n : Nat) (a : Account) : Executed :=
  let amount := f.store.param slot 4 4
  match kind with
  | 1 => accountDone e n (accountWork f n .done (decide (0 < (openedAccount f.store slot a).available)) (openedAccount f.store slot))
  | 2 =>
    accountDone e n (accountWork f n (clampedResult (a.balance.toInt + amount))
      (decide (a.balance.toInt < (a.credit amount).balance.toInt)) (Account.credit amount))
  | 3 => accountDone e n (accountWork f n (clampedResult (a.balance.toInt - amount)) false (Account.debit amount))
  | 4 => accountDone e n (accountWork f n .done (decide (a.limit.toNat < amount)) (Account.setLimit amount))
  | 5 => accountDone e n (accountWork f n .done false (Account.withState 2))
  | 6 => accountDone e n (accountWork f n .done true (Account.withState 1))
  | _ => closeAccountOrder e f n a

/-- What an account order of a kind does to a state: refused by the first test that fails, else carried out. -/
def accountJudged (kind : Nat) (e : Mode) (slot : Nat) (f : Floor) : Executed :=
  let n := f.store.paramAccount slot
  match accountVerdict kind f.store slot with
  | some r => accountRefused e f n r
  | none => accountPassed kind e slot f n (f.store.account n)

section Judged

variable {kind : Nat} {e : Mode} {slot : Nat} {f : Floor}

/-- An account order whose body judges the account's state as the kind says is judged in the order of R137. -/
theorem accountOrder_eq_judged {body : Nat → Account → Executed}
    (judges : ∀ n a, body n a =
      match stateVerdict kind a with
      | some r => accountRefused e f n r
      | none => accountPassed kind e slot f n a) :
    accountOrder (paramsPass kind f.store slot) (sparesHouse kind) body e slot f = accountJudged kind e slot f := by
  unfold accountOrder accountJudged accountVerdict
  dsimp only
  split_ifs with outside codes params house
  · simp [accountRefused, Nat.not_lt.mpr outside, Reply.bare]
  · have empty : accountAnswer (f.store.account (f.store.paramAccount slot)) = [] := by simp_all [accountAnswer]
    simp [accountRefused, empty, Reply.bare]
  · rfl
  · rfl
  · exact judges _ _

/-- FREEZE, THAW and CLOSE are judged as the other account orders are where the part is not STOPPED (R137, R175). -/
theorem runningAccountOrder_eq_judged {body : Nat → Account → Executed} (run : e.run ≠ .stopped)
    (params : paramsPass kind f.store slot = true) (house : sparesHouse kind = true)
    (judges : ∀ n a, body n a =
      match stateVerdict kind a with
      | some r => accountRefused e f n r
      | none => accountPassed kind e slot f n a) :
    runningAccountOrder body e slot f = accountJudged kind e slot f := by
  unfold runningAccountOrder
  rw [if_neg run, ← accountOrder_eq_judged judges, params, house]

theorem accountOpenOrder_eq : accountOpenOrder e slot f = accountJudged 1 e slot f := by
  refine accountOrder_eq_judged (kind := 1) fun n a => ?_
  cases free : a.isFree <;> simp [stateVerdict, accountPassed, free]

theorem accountCreditOrder_eq : accountCreditOrder e slot f = accountJudged 2 e slot f := by
  unfold accountCreditOrder
  refine accountOrder_eq_judged (kind := 2) fun n a => ?_
  cases free : a.isFree <;> simp [stateVerdict, accountPassed, free]

theorem accountDebitOrder_eq : accountDebitOrder e slot f = accountJudged 3 e slot f := by
  unfold accountDebitOrder
  refine accountOrder_eq_judged (kind := 3) fun n a => ?_
  cases free : a.isFree <;> simp [stateVerdict, accountPassed, free]

theorem accountLimitOrder_eq : accountLimitOrder e slot f = accountJudged 4 e slot f := by
  unfold accountLimitOrder
  refine accountOrder_eq_judged (kind := 4) fun n a => ?_
  cases free : a.isFree <;> cases credit : a.isCredit <;> simp [stateVerdict, accountPassed, free, credit]

theorem accountFreezeOrder_eq (run : e.run ≠ .stopped) : accountFreezeOrder e slot f = accountJudged 5 e slot f := by
  refine runningAccountOrder_eq_judged (kind := 5) run rfl rfl fun n a => ?_
  cases free : a.isFree <;> cases opened : a.isOpen <;> simp [stateVerdict, accountPassed, free, opened]

theorem accountThawOrder_eq (run : e.run ≠ .stopped) : accountThawOrder e slot f = accountJudged 6 e slot f := by
  refine runningAccountOrder_eq_judged (kind := 6) run rfl rfl fun n a => ?_
  cases free : a.isFree <;> cases frozen : a.isFrozen <;> simp [stateVerdict, accountPassed, free, frozen]

theorem accountCloseOrder_eq (run : e.run ≠ .stopped) : accountCloseOrder e slot f = accountJudged 7 e slot f := by
  refine runningAccountOrder_eq_judged (kind := 7) run rfl rfl fun n a => ?_
  cases free : a.isFree <;> cases closing : a.isClosing <;> simp [stateVerdict, accountPassed, free, closing]

end Judged

/-- Every account order is judged by the tests of its kind, FREEZE, THAW and CLOSE where the part is not STOPPED (R137, R175). -/
theorem accountOrder_judged {c : Instr} {kind : Nat} (code : orderCode c = some kind) (account : kind ≤ 7) :
    ∃ taken body, orderWork c = some (taken, body) ∧ taken kind = true ∧
      ∀ e slot f, (kind ≤ 4 ∨ e.run ≠ .stopped) → body e slot f = accountJudged kind e slot f := by
  cases c <;> simp only [orderCode, Option.some.injEq, reduceCtorEq] at code <;> subst code <;> try omega
  case accountOpen => exact ⟨_, _, rfl, rfl, fun _ _ _ _ => accountOpenOrder_eq⟩
  case accountCredit => exact ⟨_, _, rfl, rfl, fun _ _ _ _ => accountCreditOrder_eq⟩
  case accountDebit => exact ⟨_, _, rfl, rfl, fun _ _ _ _ => accountDebitOrder_eq⟩
  case accountLimit => exact ⟨_, _, rfl, rfl, fun _ _ _ _ => accountLimitOrder_eq⟩
  case accountFreeze => exact ⟨_, _, rfl, rfl, fun _ _ _ run => accountFreezeOrder_eq (run.resolve_left (by decide))⟩
  case accountThaw => exact ⟨_, _, rfl, rfl, fun _ _ _ run => accountThawOrder_eq (run.resolve_left (by decide))⟩
  case accountClose => exact ⟨_, _, rfl, rfl, fun _ _ _ run => accountCloseOrder_eq (run.resolve_left (by decide))⟩

theorem layoutSize_accountAnswer (a : Account) : layoutSize (accountAnswer a) ≤ 8 := by
  unfold accountAnswer
  split
  · exact Nat.zero_le _
  · exact Nat.le_refl 8

theorem accountAnswer_free {a : Account} (free : a.isFree = true) : accountAnswer a = [] := by simp [accountAnswer, free]

theorem accountAnswer_invalid {a : Account} (codes : a.codesValid = false) : accountAnswer a = [] := by
  simp [accountAnswer, codes]

/-- A FREE account holds valid codes whatever its kind (R137). -/
theorem codesValid_of_isFree {a : Account} (free : a.isFree = true) : a.codesValid = true := by
  have zero : a.state = 0 := by simpa [Account.isFree] using free
  simp [Account.codesValid, free, zero]

/-! ### The verdict, test by test -/

section Verdict

variable {kind slot : Nat} {m : Memory}

theorem amountValid_iff {x : Nat} : amountValid x = true ↔ 1 ≤ x ∧ x ≤ 2147483647 := by
  simp only [amountValid, Bool.and_eq_true, decide_eq_true_eq]
  unfold Config.maxUnits
  omega

theorem verdict_number (outside : 1024 ≤ m.paramAccount slot) : accountVerdict kind m slot = some .badValue := by
  simp [accountVerdict, Config.accountCount, outside]

theorem verdict_codes (inside : m.paramAccount slot < 1024) (codes : (m.account (m.paramAccount slot)).codesValid = false) :
    accountVerdict kind m slot = some .badValue := by
  simp [accountVerdict, Config.accountCount, Nat.not_le.mpr inside, codes]

theorem verdict_params (inside : m.paramAccount slot < 1024) (codes : (m.account (m.paramAccount slot)).codesValid = true)
    (params : paramsPass kind m slot = false) : accountVerdict kind m slot = some .badValue := by
  simp [accountVerdict, Config.accountCount, Nat.not_le.mpr inside, codes, params]

theorem verdict_house (zero : m.paramAccount slot = 0) (codes : (m.account (m.paramAccount slot)).codesValid = true)
    (params : paramsPass kind m slot = true) (spares : sparesHouse kind = true) :
    accountVerdict kind m slot = some .wrongState := by
  rw [zero] at codes
  simp [accountVerdict, Config.accountCount, zero, codes, params, spares]

/-- Past the tests of number, codes, parameters and account 0 the account's state decides (R137). -/
theorem verdict_state {r : Option Result} (inside : m.paramAccount slot < 1024) (codes : (m.account (m.paramAccount slot)).codesValid = true)
    (params : paramsPass kind m slot = true) (house : sparesHouse kind = false ∨ m.paramAccount slot ≠ 0)
    (state : stateVerdict kind (m.account (m.paramAccount slot)) = r) : accountVerdict kind m slot = r := by
  have spared : (sparesHouse kind && m.paramAccount slot == 0) = false := by
    rcases house with spares | other
    · simp [spares]
    · simp [other]
  simp [accountVerdict, Config.accountCount, Nat.not_le.mpr inside, codes, params, spared, state]

theorem paramsPass_amount (which : kind = 2 ∨ kind = 3) : paramsPass kind m slot = amountValid (m.param slot 4 4) := by
  rcases which with rfl | rfl <;> rfl

theorem paramsPass_limit : paramsPass 4 m slot = true ↔ m.param slot 4 4 ≤ 2147483647 := by
  simp only [paramsPass, decide_eq_true_eq]
  unfold Config.maxUnits
  omega

/-- ACCOUNT OPEN finds an account in use (R138). -/
theorem stateVerdict_used {a : Account} (used : a.isFree = false) : stateVerdict 1 a = some .existing := by
  simp [stateVerdict, used]

/-- A FREE account is NOT FOUND but to ACCOUNT OPEN (R138 to R143). -/
theorem stateVerdict_free {a : Account} (free : a.isFree = true) (other : kind ≠ 1) : stateVerdict kind a = some .notFound := by
  simp [stateVerdict, free, other]

/-- The states in which an account in use refuses LIMIT, FREEZE, THAW and CLOSE (R141 to R143). -/
theorem stateVerdict_wrong {a : Account} (used : a.isFree = false)
    (wrong : (kind = 4 ∧ a.isCredit = false) ∨ (kind = 5 ∧ a.isOpen = false) ∨ (kind = 6 ∧ a.isFrozen = false) ∨
      (kind = 7 ∧ a.isClosing = true)) : stateVerdict kind a = some .wrongState := by
  have other : kind ≠ 1 := by omega
  simp [stateVerdict, used, other, wrong]

end Verdict

/-! ### Refusals -/

section Refused

variable {c : Instr} {kind : Nat} {s : State} {r : Result}

/-- An account order is refused with the result of the first test it fails, and its answer shows the account as it stands (R137). -/
theorem refusedWith_of_verdict (code : orderCode c = some kind) (account : kind ≤ 7) (order : OrderAt s kind) (l4 : EnableLaw s)
    (run : kind ≤ 4 ∨ s.mode.run ≠ .stopped) (verdict : accountVerdict kind s.floor.store s.slot = some r) :
    RefusedWith c s r (if s.floor.store.paramAccount s.slot < Config.accountCount then
      accountAnswer (s.floor.store.account (s.floor.store.paramAccount s.slot)) else []) := by
  obtain ⟨taken, body, work, own, judged⟩ := accountOrder_judged code account
  have size : layoutSize (if s.floor.store.paramAccount s.slot < Config.accountCount then
      accountAnswer (s.floor.store.account (s.floor.store.paramAccount s.slot)) else []) ≤ 8 := by
    split
    · exact layoutSize_accountAnswer _
    · exact Nat.zero_le _
  refine refusedWith_of_unchanged (r := ⟨r, _⟩) work order own l4 size ?_
  · rw [judged _ _ _ run, accountJudged, verdict]
    rfl

/-- The answer of a refusal shows an account of the table (R137). -/
theorem refusedWith_account (code : orderCode c = some kind) (account : kind ≤ 7) (order : OrderAt s kind) (l4 : EnableLaw s)
    (run : kind ≤ 4 ∨ s.mode.run ≠ .stopped) (inside : s.floor.store.paramAccount s.slot < 1024)
    (verdict : accountVerdict kind s.floor.store s.slot = some r) :
    RefusedWith c s r (accountAnswer (s.floor.store.account (s.floor.store.paramAccount s.slot))) := by
  have refused := refusedWith_of_verdict code account order l4 run verdict
  rwa [if_pos (show s.floor.store.paramAccount s.slot < Config.accountCount from inside)] at refused

end Refused

/-- Settles O27: each refusal is the verdict of the first test that fails. -/
theorem accountOrdersAreRefusedInOrder : Obligations.AccountOrdersAreRefusedInOrder := by
  unfold Obligations.AccountOrdersAreRefusedInOrder
  intro c kind s l4 place code small order m n a
  have run : kind ≤ 4 ∨ s.mode.run ≠ .stopped := by
    rcases place with low | run | run
    · exact .inl low
    · exact .inr (by rw [run]; decide)
    · exact .inr (by rw [run]; decide)
  have refused {r : Result} (inside : n < 1024) (verdict : accountVerdict kind m s.slot = some r) :
      RefusedWith c s r (accountAnswer a) := refusedWith_account code small order l4 run inside verdict
  have judged {r : Result} (inside : n < 1024) (codes : a.codesValid = true) (params : paramsPass kind m s.slot = true)
      (house : sparesHouse kind = false ∨ n ≠ 0) (state : stateVerdict kind a = some r) :
      RefusedWith c s r (accountAnswer a) := refused inside (verdict_state inside codes params house state)
  have absent (inside : n < 1024) (free : a.isFree = true) (params : paramsPass kind m s.slot = true)
      (house : sparesHouse kind = false ∨ n ≠ 0) (other : kind ≠ 1) : RefusedWith c s .notFound [] := by
    rw [← accountAnswer_free free]
    exact judged inside (codesValid_of_isFree free) params house (stateVerdict_free free other)
  refine ⟨?number, ?codes, ?amount, ?limit, ?opening, ?house, ?free, ?freeLimit, ?prepaid, ?closing, ?freeState, ?used, ?freeze,
    ?thaw⟩
  case number =>
    intro outside
    have answered := refusedWith_of_verdict code small order l4 run (verdict_number outside)
    rwa [if_neg (show ¬ s.floor.store.paramAccount s.slot < Config.accountCount from Nat.not_lt.mpr outside)] at answered
  case codes =>
    intro inside codes
    rw [← accountAnswer_invalid codes]
    exact refused inside (verdict_codes inside codes)
  case amount =>
    intro inside codes which bad
    have params : paramsPass kind m s.slot = false := by
      rw [paramsPass_amount which, Bool.eq_false_iff, ne_eq, amountValid_iff]
      omega
    exact refused inside (verdict_params inside codes params)
  case limit =>
    rintro inside codes rfl bad
    have params : paramsPass 4 m s.slot = false := by
      rw [Bool.eq_false_iff, ne_eq, paramsPass_limit]
      omega
    exact refused inside (verdict_params inside codes params)
  case opening =>
    rintro inside codes rfl params
    exact refused inside (verdict_params inside codes params)
  case house =>
    intro zero codes which
    have inside : n < 1024 := by omega
    rcases which with rfl | rfl | rfl | ⟨rfl, params⟩
    · exact refused inside (verdict_house zero codes rfl rfl)
    · exact refused inside (verdict_house zero codes rfl rfl)
    · exact refused inside (verdict_house zero codes rfl rfl)
    · exact refused inside (verdict_house zero codes params rfl)
  case free =>
    intro inside free which low high
    have params : paramsPass kind m s.slot = true := (paramsPass_amount which).trans (amountValid_iff.mpr ⟨low, high⟩)
    rcases which with rfl | rfl
    · exact absent inside free params (.inl rfl) (by decide)
    · exact absent inside free params (.inl rfl) (by decide)
  case freeLimit =>
    rintro inside free rfl high
    exact absent inside free (paramsPass_limit.mpr high) (.inl rfl) (by decide)
  case prepaid =>
    rintro inside codes rfl high used credit
    exact judged inside codes (paramsPass_limit.mpr high) (.inl rfl) (stateVerdict_wrong used (.inl ⟨rfl, credit⟩))
  case closing =>
    rintro other inside codes rfl closing
    have used : a.isFree = false := by simp_all [Account.isFree, Account.isClosing]
    exact judged inside codes rfl (.inr other) (stateVerdict_wrong used (.inr (.inr (.inr ⟨rfl, closing⟩))))
  case freeState =>
    intro other inside _ free which
    rcases which with rfl | rfl | rfl
    · exact absent inside free rfl (.inr other) (by decide)
    · exact absent inside free rfl (.inr other) (by decide)
    · exact absent inside free rfl (.inr other) (by decide)
  case used =>
    rintro other inside codes rfl params used
    exact judged inside codes params (.inr other) (stateVerdict_used used)
  case freeze =>
    rintro other inside codes rfl used opened
    exact judged inside codes rfl (.inr other) (stateVerdict_wrong used (.inr (.inl ⟨rfl, opened⟩)))
  case thaw =>
    rintro other inside codes rfl used frozen
    exact judged inside codes rfl (.inr other) (stateVerdict_wrong used (.inr (.inr (.inl ⟨rfl, frozen⟩))))

end Sys2Proof.Machine
end

section
/-! PROOF. Account orders that pass their tests: the account they change, and the pass that may follow (R138 to R142, R146). -/

namespace Sys2Proof.Machine

open Sys2Proof
-- One proof after the other: proofs that wait for one another hold a thread each, and its memory.
set_option Elab.async false

/-! ### The end of an order that touches no station -/

section Finish

variable {s : State} {x : Executed}

/-- No station changes at the end of an order whose work touches none, under law L4. -/
theorem finishOrder_stations (l4 : EnableLaw s) (page : x.page = s.mode.page)
    (same : ∀ j, x.floor.station j = s.floor.station j) (j : StationId) :
    (finishOrder s x).floor.station j = s.floor.station j := by
  obtain ⟨reply, _, floor⟩ := x
  dsimp only at page
  subst page
  exact settle_same (same j) (l4 j)

/-- An order whose work touches no station and the cells `stored` keeps every other byte a host reads (R174). -/
theorem finishOrder_keepsCells {stored : Nat → Prop} (stations : ∀ j, (finishOrder s x).floor.station j = s.floor.station j)
    (cells : ∀ a, ¬ stored a → x.floor.store.read a = s.floor.store.read a) :
    KeepsBytes (fun a => inAnswer s.port.ordDone a ∨ stored a) s.floor (finishOrder s x).floor := by
  intro a outside
  by_cases record : inRecords a
  · obtain ⟨j, o, inside, rfl⟩ := record_of_inRecords record
    rw [readByte_record _ j inside, readByte_record _ j inside, stations]
  · rw [finishOrder_read _ _ (fun answer => outside (.inl answer)) record, readByte_cell _ record, readByte_cell _ record]
    exact cells a fun place => outside (.inr place)

/-- An order's answer changes no account record (R164, R174). -/
theorem finishOrder_account (n : Nat) : (finishOrder s x).floor.store.account n = x.floor.store.account n :=
  Memory.account_congr fun a low _ => finishOrder_high (by
    simp only [accountAddr, Config.accountBase, Config.streamBase] at *
    omega)

end Finish

/-! ### One request on the account -/

theorem outside_account {n p : Nat} (outside : ¬ inAccount n p) : p < accountAddr n ∨ accountAddr n + 64 ≤ p := by
  simp only [inAccount, inBytes] at outside
  omega

section Edited

variable {s : State} {x : Executed} {n : Nat} {change : Account → Account}

/-- An order whose work is one request on an account changes that account and its slot alone (R134, R174). -/
theorem finishOrder_edits (l4 : EnableLaw s) (page : x.page = s.mode.page) (hn : n < 1024)
    (floor : x.floor = s.floor.onStore fun m => m.editAccount n change) :
    (finishOrder s x).floor.store.account n = edited (s.floor.store.account n) (change (s.floor.store.account n)) ∧
      OrderKeeps (fun _ => False) (inAccount n) s (finishOrder s x) := by
  have stations := finishOrder_stations l4 page fun j => by rw [floor, station_onStore]
  have bytes := finishOrder_keepsCells (x := x) (stored := inAccount n) stations fun p outside => by
    rw [floor, onStore_store]
    exact Memory.read_editAccount_outside _ _ (outside_account outside)
  refine ⟨?_, ?_, finishOrder_irqFlag .. |>.trans ?_, ?_, ?_, ?_, fun j _ => stations j,
    fun p outside => bytes p fun place => outside (place.imp_right .inr)⟩
  · rw [finishOrder_account, floor, onStore_store, Memory.account_editAccount_self _ _ hn]
    rfl
  · rw [finishOrder_mode, page]
  · rw [floor, onStore_irqFlag]
  · rw [finishOrder_waitQueue, floor, onStore_waitQueue]
  · rw [finishOrder_dropped, floor]
    rfl
  · rw [finishOrder_rptWr, floor, onStore_rptWr]

end Edited

/-! ### The pass changes no facts of an account -/

section Pass

variable {e : Mode} {n : Nat}

theorem fundingCheckOpen_facts {i : StationId} {f : Floor} (good : goodOffset f.rptWr) (hn : n < 1024) :
    ((fundingCheckOpen e i f).store.account n).facts = (f.store.account n).facts := by
  by_cases checks : (f.station i).state.checksFunds = true
  · have request := fundsRequested_funds (i := i) (f := f)
    have work : fundingCheckOpen e i f = checkOutcome e i (fundsRequested i f) := if_pos checks
    rw [work, checkOutcome_reports.account (by rw [request.offset]; exact good) hn]
    exact request.facts n hn
  · have work : fundingCheckOpen e i f = f := if_neg checks
    rw [work]

/-- A re-evaluation pass changes no account but in what holds change (R135, R146). -/
theorem reevaluate_facts {accounts : List Nat} {f : Floor} (good : goodOffset f.rptWr) (hn : n < 1024) :
    ((reevaluate e accounts f).store.account n).facts = (f.store.account n).facts := by
  have served : ∀ (l : List StationId) (g : Floor), goodOffset g.rptWr →
      ((l.foldl (fun g i => fundingCheckOpen e i g) g).store.account n).facts = (g.store.account n).facts := by
    intro l
    induction l with
    | nil => exact fun _ _ => rfl
    | cons i l ih =>
      intro g goodG
      rw [List.foldl_cons, ih _ ((fundingCheckOpen_step e i g).offset goodG), fundingCheckOpen_facts goodG hn]
  have ended : ∀ (l : List StationId) (g : Floor),
      ((l.foldl (fun g i => closeAccounts (g.station i).requestAccounts g) g).store.account n).facts =
        (g.store.account n).facts := by
    intro l
    induction l with
    | nil => exact fun _ => rfl
    | cons i l ih =>
      intro g
      rw [List.foldl_cons, ih, closeAccounts_store, facts_foldl_closeAccount _ hn]
  unfold reevaluate
  split
  · exact (ended ..).trans (served _ _ good)
  · rfl

variable {w : AccountWork}

theorem accountDone_facts (good : goodOffset w.floor.rptWr) (hn : n < 1024) :
    ((accountDone e n w).floor.store.account n).facts = (w.floor.store.account n).facts := by
  unfold accountDone
  dsimp only
  split
  · exact reevaluate_facts good hn
  · rfl

/-- Without a LOW station an account order's work is all that happens (R146). -/
theorem accountDone_quiet (quiet : ∀ j, (w.floor.station j).state ≠ .low) : (accountDone e n w).floor = w.floor := by
  unfold accountDone
  dsimp only
  split
  · exact reevaluate_none quiet
  · rfl

end Pass

/-! ### What each order makes of its account -/

/-- The change an account order of kinds 1 to 6 makes (R138 to R142). -/
def accountRequest (kind : Nat) (m : Memory) (slot : Nat) : Account → Account :=
  let amount := m.param slot 4 4
  match kind with
  | 1 => openedAccount m slot
  | 2 => Account.credit amount
  | 3 => Account.debit amount
  | 4 => Account.setLimit amount
  | 5 => Account.withState 2
  | _ => Account.withState 1

/-- The result of an account order of kinds 1 to 6 that passes its tests (R138 to R142). -/
def passedResult (kind : Nat) (m : Memory) (slot : Nat) (a : Account) : Result :=
  let amount := m.param slot 4 4
  match kind with
  | 2 => clampedResult (a.balance.toInt + amount)
  | 3 => clampedResult (a.balance.toInt - amount)
  | _ => .done

section Changed

variable {kind slot : Nat} {m : Memory} {a : Account}

theorem limit32_up {x : Int} (low : -2147483648 ≤ x) : limit32 x = min 2147483647 x := by
  simp only [limit32, Config.minUnits, Config.maxUnits]
  omega

theorem limit32_down {x : Int} (high : x ≤ 2147483647) : limit32 x = max (-2147483648) x := by
  simp only [limit32, Config.minUnits, Config.maxUnits]
  omega

/-- The request of an order that passes is the change that its kind's statement names (R138 to R142). -/
theorem accountRequest_eq (low : 1 ≤ kind) (high : kind ≤ 6) : accountRequest kind m slot a = accountChanged kind m slot a := by
  have least := a.balance.le_toInt
  have most := a.balance.toInt_lt
  obtain rfl | rfl | rfl | rfl | rfl | rfl : kind = 1 ∨ kind = 2 ∨ kind = 3 ∨ kind = 4 ∨ kind = 5 ∨ kind = 6 := by omega
  · simp only [accountRequest, accountChanged, openedAccount, Account.judgeOverdrawn, Account.freed, Account.belowFloor,
      Account.isPrepaid, Account.isCredit, apply_ite (BitVec.ofNat 32), if_true]
    rfl
  · simp only [accountRequest, accountChanged, Account.credit, Account.withBalance]
    rw [limit32_up (by omega)]
    rfl
  · simp only [accountRequest, accountChanged, Account.debit, Account.withBalance, Account.markOverdrawn]
    rw [limit32_down (by omega)]
    rfl
  · rfl
  · rfl
  · rfl

/-- An order is CLAMPED where the exact balance leaves the signed 32-bit range (R139, R140). -/
theorem clampedResult_eq (x : Int) :
    clampedResult x = if -2147483648 ≤ x ∧ x ≤ 2147483647 then .done else .clamped := by
  simp only [clampedResult, limit32, Config.minUnits, Config.maxUnits]
  refine if_congr ?_ rfl rfl
  omega

/-- Every order of kinds 1 to 6 that passes is one request on its account, and a pass where the account gained funds (R134, R146). -/
theorem accountPassed_eq (low : 1 ≤ kind) (high : kind ≤ 6) (e : Mode) (f : Floor) (n : Nat) :
    ∃ gains, accountPassed kind e slot f n a =
      accountDone e n (accountWork f n (passedResult kind f.store slot a) gains (accountRequest kind f.store slot)) := by
  obtain rfl | rfl | rfl | rfl | rfl | rfl : kind = 1 ∨ kind = 2 ∨ kind = 3 ∨ kind = 4 ∨ kind = 5 ∨ kind = 6 := by omega
  all_goals exact ⟨_, rfl⟩

end Changed

/-! ### The orders that pass -/

section Passes

variable {kind : Nat} {s : State} {n : Nat} {a : Account}

theorem accountOrderPasses_kind (passes : accountOrderPasses kind s n a) : 1 ≤ kind ∧ kind ≤ 6 := by
  obtain ⟨-, -, h | h | h | h | h⟩ := passes <;> omega

/-- FREEZE and THAW pass only while the part runs (R142, R175). -/
theorem accountOrderPasses_run (passes : accountOrderPasses kind s n a) : kind ≤ 4 ∨ s.mode.run ≠ .stopped := by
  obtain ⟨-, -, h | h | h | ⟨-, run, -⟩ | ⟨-, run, -⟩⟩ := passes
  · exact .inl (by omega)
  · exact .inl (by omega)
  · exact .inl (by omega)
  · exact .inr (notStopped_of_run run)
  · exact .inr (notStopped_of_run run)

/-- An order that passes every test of its kind meets no refusal (R137 to R142). -/
theorem verdict_none (passes : accountOrderPasses kind s (s.floor.store.paramAccount s.slot)
    (s.floor.store.account (s.floor.store.paramAccount s.slot))) : accountVerdict kind s.floor.store s.slot = none := by
  obtain ⟨inside, codes, h⟩ := passes
  rcases h with ⟨rfl, other, params, free⟩ | ⟨which, low, high, used⟩ | ⟨rfl, high, used, credit⟩ | ⟨rfl, -, other, opened⟩ |
    ⟨rfl, -, other, frozen⟩
  · exact verdict_state inside codes params (.inr other) (by simp [stateVerdict, free])
  · have params : paramsPass kind s.floor.store s.slot = true :=
      (paramsPass_amount which).trans (amountValid_iff.mpr ⟨low, high⟩)
    rcases which with rfl | rfl
    · exact verdict_state inside codes params (.inl rfl) (by simp [stateVerdict, used])
    · exact verdict_state inside codes params (.inl rfl) (by simp [stateVerdict, used])
  · exact verdict_state inside codes (paramsPass_limit.mpr high) (.inl rfl) (by simp [stateVerdict, used, credit])
  · have used : (s.floor.store.account (s.floor.store.paramAccount s.slot)).isFree = false := by
      simp_all [Account.isFree, Account.isOpen]
    exact verdict_state inside codes rfl (.inr other) (by simp [stateVerdict, used, opened])
  · have used : (s.floor.store.account (s.floor.store.paramAccount s.slot)).isFree = false := by
      simp_all [Account.isFree, Account.isFrozen]
    exact verdict_state inside codes rfl (.inr other) (by simp [stateVerdict, used, frozen])

/-- The account kinds an ACCOUNT OPEN may name (R138). -/
theorem openParams_kind {m : Memory} {slot : Nat} (params : openParams m slot = true) :
    m.param slot 2 1 = 1 ∨ m.param slot 2 1 = 2 ∨ m.param slot 2 1 = 3 := by
  simp only [openParams, Bool.and_eq_true, Bool.or_eq_true, beq_iff_eq] at params
  omega

/-- An account that an order has changed is in use, with valid codes (R137 to R142). -/
theorem accountChanged_inUse (passes : accountOrderPasses kind s n a) :
    (accountChanged kind s.floor.store s.slot a).isFree = false ∧
      (accountChanged kind s.floor.store s.slot a).codesValid = true := by
  obtain ⟨-, codes, h⟩ := passes
  rcases h with ⟨rfl, -, params, -⟩ | ⟨rfl | rfl, -, -, used⟩ | ⟨rfl, -, used, -⟩ | ⟨rfl, -, -, opened⟩ | ⟨rfl, -, -, frozen⟩
  · rcases openParams_kind params with h | h | h
    · simp [accountChanged, h, Account.isFree, Account.codesValid, Account.isPrepaid]
    · simp [accountChanged, h, Account.isFree, Account.codesValid, Account.isCredit]
    · simp [accountChanged, h, Account.isFree, Account.codesValid, Account.isHouse]
  · exact ⟨used, codes⟩
  · exact ⟨used, codes⟩
  · exact ⟨used, codes⟩
  · simp_all [accountChanged, Account.isFree, Account.isOpen, Account.codesValid, Account.isPrepaid, Account.isCredit,
      Account.isHouse]
  · simp_all [accountChanged, Account.isFree, Account.isFrozen, Account.codesValid, Account.isPrepaid, Account.isCredit,
      Account.isHouse]

/-- The answer of an account in use does not show its edit count (R137). -/
theorem accountAnswer_edited {b : Account} (used : b.isFree = false) (codes : b.codesValid = true) :
    accountAnswer (edited a b) = [(4, b.balance.toNat), (4, signed32 (limit32 b.available))] := by
  obtain ⟨c, eq⟩ := edited_eq a b
  have shown : accountAnswer { b with editCount := c } = accountAnswer b := rfl
  rw [eq, shown, accountAnswer, used, codes]
  rfl

end Passes

/-- Settles O28: an order that passes is one request on its account; the pass that may follow keeps the account's facts. -/
theorem accountOrdersChangeTheirAccount : Obligations.AccountOrdersChangeTheirAccount := by
  unfold Obligations.AccountOrdersChangeTheirAccount
  intro c kind s l4 offset code order m n a b exact' passes
  obtain ⟨low, high⟩ := accountOrderPasses_kind passes
  have hn : n < 1024 := passes.1
  obtain ⟨taken, body, work, own, judged⟩ := accountOrder_judged code (by omega)
  obtain ⟨gains, passed⟩ := accountPassed_eq (slot := s.slot) (a := a) low high s.mode s.floor n
  have verdict : accountVerdict kind s.floor.store s.slot = none := verdict_none passes
  have done : body s.mode s.slot s.floor =
      accountDone s.mode n (accountWork s.floor n (passedResult kind m s.slot a) gains (accountRequest kind m s.slot)) := by
    rw [judged _ _ _ (accountOrderPasses_run passes), accountJudged, verdict]
    exact passed
  have request : accountRequest kind m s.slot a = b := accountRequest_eq low high
  have shown : (m.editAccount n (accountRequest kind m s.slot)).account n = edited a b := by
    rw [Memory.account_editAccount_self _ _ hn, ← request]
    rfl
  obtain ⟨used, codes⟩ := accountChanged_inUse passes
  have answer := accountAnswer_edited (a := a) used codes
  have result : passedResult kind m s.slot a = if -2147483648 ≤ exact' ∧ exact' ≤ 2147483647 then .done else .clamped := by
    rw [← clampedResult_eq]
    obtain rfl | rfl | which : kind = 2 ∨ kind = 3 ∨ (kind = 1 ∨ kind = 4 ∨ kind = 5 ∨ kind = 6) := by omega
    · rfl
    · rfl
    · rcases which with rfl | rfl | rfl | rfl <;> rfl
  refine ⟨_, exec_order work order own, ?_, ?_, fun quiet => ?_⟩
  · rw [done, ← result, ← answer, ← shown]
    exact finishOrder_answered s (accountDone ..) (layoutSize_accountAnswer _)
  · obtain ⟨count, eq⟩ := edited_eq a b
    rw [done, finishOrder_account, accountDone_facts offset.good hn]
    exact (congrArg Account.facts (shown.trans eq)).trans rfl
  · rw [done, ← request]
    exact finishOrder_edits l4 rfl hn (accountDone_quiet quiet)

end Sys2Proof.Machine
end

section
/-! PROOF. ACCOUNT CLOSE at an account in use (R143, R144). -/

namespace Sys2Proof.Machine

open Sys2Proof
-- One proof after the other: proofs that wait for one another hold a thread each, and its memory.
set_option Elab.async false

section Close

variable {e : Mode} {n : Nat} {f : Floor} {byRelease : Bool}

/-- A close that fits writes its report and frees the account, and nothing else (R144, R176). -/
theorem writeClose_frees (good : goodOffset f.rptWr) (fit : fits e f 64 = true) (hn : n < 1024)
    (used : (f.store.account n).isFree = false) :
    let g := writeClose e n byRelease f
    g.rptWr = offsetAfter f.rptWr 64 ∧
      g.store.account n = { Account.freed (f.store.account n) with editCount := bracket (f.store.account n).editCount } ∧
      ReportHeaderAt g.store (reportPlace f.rptWr 64) 64 .accountClosed 0 e.partTime ∧
      g.store.readLE (reportPlace f.rptWr 64 + 8) 2 = n ∧
      g.store.readLE (reportPlace f.rptWr 64 + 12) 4 = (f.store.account n).balance.toNat ∧
      ∀ p, ¬ (inAccount n p ∨ inReport f.rptWr 64 p) → g.store.read p = f.store.read p := by
  intro g
  have size : 8 + layoutSize (closedBody n byRelease (f.store.account n)) = 64 := by rw [closedBody_size]
  have fitBody : fits e f (8 + layoutSize (closedBody n byRelease (f.store.account n))) = true := by rw [size]; exact fit
  have floor : g = (writeReport e .accountClosed 0 (closedBody n byRelease (f.store.account n)) f).onStore fun m =>
    m.editAccount n Account.freed := rfl
  have outside : ∀ p, ¬ inReport f.rptWr 64 p →
      (writeReport e .accountClosed 0 (closedBody n byRelease (f.store.account n)) f).store.read p = f.store.read p :=
    fun p hp => read_writeReport_outside (by rw [size]; exact hp)
  have header := writeReport_header (kind := .accountClosed) (station := 0) fitBody good (by omega)
  have field := fun o k => readLE_writeReport (kind := .accountClosed) (station := 0) (o := o) (n := k) fitBody good
  have offset := writeReport_rptWr e .accountClosed 0 (closedBody n byRelease (f.store.account n)) f
  rw [size] at header field offset
  have account : (writeReport e .accountClosed 0 (closedBody n byRelease (f.store.account n)) f).store.account n =
      f.store.account n := Memory.account_congr fun a _ _ => outside a fun h => by
    have := stream_account_apart (n := n) (inReport_inStream fit good h)
    omega
  generalize writeReport e .accountClosed 0 (closedBody n byRelease (f.store.account n)) f = w at *
  have edit : ∀ p, ¬ inAccount n p → g.store.read p = w.store.read p := fun p hp => by
    rw [floor, onStore_store]
    exact Memory.read_editAccount_outside _ _ (outside_account hp)
  have apart : ∀ q, inBytes (reportPlace f.rptWr 64) 64 q → g.store.read q = w.store.read q := fun q hq => by
    refine edit q fun h => ?_
    have := stream_account_apart (n := n) (inReport_inStream fit good (.inl hq))
    simp only [inAccount, inBytes] at h
    omega
  have numbers : ClosedReportAt w.store (reportPlace f.rptWr 64) n (f.store.account n) e.partTime := by
    refine ⟨header, ?_, ?_⟩
    · rw [field 8 2 (by omega)]
      simp only [reportHeader, closedBody, List.cons_append, List.nil_append, imageField_layout_tail, imageField_layout_head,
        Nat.reduceLeDiff, Nat.reduceSub, Nat.le_refl]
      omega
    · rw [field 12 4 (by omega)]
      simp only [reportHeader, closedBody, List.cons_append, List.nil_append, imageField_layout_tail, imageField_layout_head,
        Nat.reduceLeDiff, Nat.reduceSub, Nat.le_refl]
      exact Nat.mod_eq_of_lt (f.store.account n).balance.isLt
  obtain ⟨head, number, balance⟩ := ClosedReportAt.congr (m' := g.store) numbers apart
  refine ⟨?_, ?_, head, number, balance, fun p hp => ?_⟩
  · rw [floor, onStore_rptWr, offset]
  · rw [floor, onStore_store, Memory.account_editAccount_self _ _ hn, account, if_neg]
    exact fun h => by rw [← h] at used; exact absurd used (by simp [Account.freed, Account.isFree])
  · obtain ⟨record, report⟩ := not_or.mp hp
    exact (edit p record).trans (outside p report)

/-- A close writes one report and touches no station (R144). -/
theorem writeClose_shared : (writeClose e n byRelease f).waitQueue = f.waitQueue ∧
    (writeClose e n byRelease f).irqFlag = f.irqFlag ||| IrqFlag.report.mask ∧
    ∀ j, (writeClose e n byRelease f).station j = f.station j := by
  refine ⟨?_, ?_, fun j => congrArg (fun v => v[j]) (writeClose_stations ..)⟩
  · rw [writeClose, onStore_waitQueue, writeReport_waitQueue]
  · rw [writeClose, onStore_irqFlag, writeReport_irqFlag]

end Close

/-- An order whose work is a close that fits has freed its account and left its report (R143, R144). -/
theorem finishOrder_frees {s : State} {x : Executed} {n : Nat} (l4 : EnableLaw s) (good : goodOffset s.floor.rptWr)
    (page : x.page = s.mode.page) (floor : x.floor = writeClose s.mode n false s.floor)
    (room : s.floor.waitQueue = [] ∧ roomNeeded s.floor.rptWr 64 ≤ freeRoom s.floor.rptWr s.mode.rptRd) (hn : n < 1024)
    (used : (s.floor.store.account n).isFree = false) :
    let a := s.floor.store.account n
    let wr := s.floor.rptWr
    let t := finishOrder s x
    t.floor.store.account n = { a.freed with editCount := bracket a.editCount } ∧
      ReportHeaderAt t.floor.store (reportPlace wr 64) 64 .accountClosed 0 s.mode.partTime ∧
      t.floor.store.readLE (reportPlace wr 64 + 8) 2 = n ∧ t.floor.store.readLE (reportPlace wr 64 + 12) 4 = a.balance.toNat ∧
      t.mode = s.mode ∧ t.floor.rptWr = offsetAfter wr 64 ∧ t.floor.flag .report = true ∧ t.floor.waitQueue = [] ∧
      (∀ i, t.floor.station i = s.floor.station i) ∧
      KeepsBytes (fun p => inAnswer s.port.ordDone p ∨ inAccount n p ∨ inReport wr 64 p) s.floor t.floor := by
  intro a wr t
  obtain ⟨wrote, freed, header, number, balance, cells⟩ :=
    writeClose_frees (e := s.mode) (n := n) (byRelease := false) good (decide_eq_true room.2) hn used
  obtain ⟨queue, flag, same⟩ := writeClose_shared (e := s.mode) (n := n) (f := s.floor) (byRelease := false)
  rw [← floor] at wrote freed header number balance cells queue flag same
  obtain ⟨header, number, balance⟩ := ClosedReportAt.congr (m' := t.floor.store) ⟨header, number, balance⟩ fun q inside =>
    finishOrder_high (Nat.le_trans (reportPlace_high _ _) inside.1)
  have stations := finishOrder_stations l4 page same
  refine ⟨?_, header, number, balance, ?_, wrote, ?_, queue.trans room.1, stations, finishOrder_keepsCells stations cells⟩
  · rw [finishOrder_account]
    exact freed
  · rw [finishOrder_mode, page]
  · simp [Floor.flag, t, flag, IrqFlag.mask, IrqFlag.place]

/-- ACCOUNT CLOSE at an OPEN or FROZEN account other than account 0 reaches its work (R137, R143). -/
theorem accountClose_work {s : State} (run : s.mode.run ≠ .stopped) (other : s.floor.store.paramAccount s.slot ≠ 0)
    (inside : s.floor.store.paramAccount s.slot < 1024)
    (codes : (s.floor.store.account (s.floor.store.paramAccount s.slot)).codesValid = true)
    (state : (s.floor.store.account (s.floor.store.paramAccount s.slot)).isFree = false)
    (closing : (s.floor.store.account (s.floor.store.paramAccount s.slot)).isClosing = false) :
    accountCloseOrder s.mode s.slot s.floor = closeAccountOrder s.mode s.floor (s.floor.store.paramAccount s.slot)
      (s.floor.store.account (s.floor.store.paramAccount s.slot)) := by
  have verdict : accountVerdict 7 s.floor.store s.slot = none :=
    verdict_state inside codes rfl (.inr other) (by simp [stateVerdict, state, closing])
  rw [accountCloseOrder_eq run, accountJudged, verdict]
  rfl

/-- Settles O29: the close is refused without room, frees an account without holders, and else waits for their release. -/
theorem accountCloseFreesOrWaits : Obligations.AccountCloseFreesOrWaits := by
  unfold Obligations.AccountCloseFreesOrWaits
  intro s l4 offset run order n a wr room other inside codes state
  have used : a.isFree = false := by
    rcases state with h | h <;> simp_all [Account.isFree, Account.isOpen, Account.isFrozen]
  have closing : a.isClosing = false := by
    rcases state with h | h <;> simp_all [Account.isClosing, Account.isOpen, Account.isFrozen]
  have work : accountCloseOrder s.mode s.slot s.floor = closeAccountOrder s.mode s.floor n a :=
    accountClose_work (notStopped_of_run run) other inside codes used closing
  have answer : accountAnswer a = [(4, a.balance.toNat), (4, signed32 (limit32 a.available))] := by
    rw [accountAnswer, used, codes]
    rfl
  have taken : exec .accountClose s = .next (finishOrder s (closeAccountOrder s.mode s.floor n a)) := by
    rw [← work]
    exact exec_order (c := .accountClose) (body := accountCloseOrder) rfl order rfl
  have may : mayWrite s.mode s.floor 64 = true ↔ room := mayWrite_iff ..
  refine ⟨fun full => ?_, fun fit holders => ?_, fun fit holders => ?_⟩
  · refine refusedWith_of_unchanged (c := .accountClose) (body := accountCloseOrder) (r := ⟨.noRoom, accountAnswer a⟩) rfl order rfl
      l4 (layoutSize_accountAnswer _) (work.trans ?_)
    rw [closeAccountOrder, if_pos (by simpa using mt may.mp full), accountRefused]
    exact congrArg (Executed.unchanged s.mode s.floor ⟨.noRoom, ·⟩) (if_pos inside)
  · have change : closeAccountOrder s.mode s.floor n a =
        accountDone s.mode n (accountWork s.floor n .accepted false (Account.withState 3)) := by
      rw [closeAccountOrder, if_neg (by simpa using may.mpr fit), if_neg holders]
    have shown : (s.floor.store.editAccount n (Account.withState 3)).account n = edited a { a with state := 3 } :=
      Memory.account_editAccount_self _ _ inside
    have waits : accountAnswer (edited a { a with state := 3 }) = _ := accountAnswer_edited rfl (by
      simp_all [Account.codesValid, Account.isFree, Account.isPrepaid, Account.isCredit, Account.isHouse])
    refine ⟨_, taken, ?_, ?_⟩
    · rw [change, show [(4, a.balance.toNat), (4, signed32 (limit32 a.available))] = _ from waits.symm, ← shown]
      exact finishOrder_answered s (accountDone ..) (layoutSize_accountAnswer _)
    · rw [change]
      exact finishOrder_edits (change := Account.withState 3) l4 rfl inside rfl
  · have change : closeAccountOrder s.mode s.floor n a =
        accountDone s.mode n { result := .done, shown := a, floor := writeClose s.mode n false s.floor, gains := false } := by
      rw [closeAccountOrder, if_neg (by simpa using may.mpr fit), if_pos holders]
    have freed := finishOrder_frees (x := accountDone s.mode n
      { result := .done, shown := a, floor := writeClose s.mode n false s.floor, gains := false }) l4 offset.good rfl rfl fit inside used
    refine ⟨_, taken, ?_, ?_⟩
    · rw [change, ← answer]
      exact finishOrder_answered s (accountDone ..) (layoutSize_accountAnswer _)
    · rw [change]
      exact freed

end Sys2Proof.Machine
end

section
/-! SUPPORT. Floors that differ in the edit counts of account records alone: no part of a funding check tells them apart
(R81 to R85, R134). -/

namespace Sys2Proof.Machine

open Sys2Proof
-- One proof after the other: proofs that wait for one another hold a thread each, and its memory.
set_option Elab.async false

/-- An account without its edit count. -/
def Account.uncounted (a : Account) : Account := { a with editCount := 0 }

/-- Two floors are alike when they differ at most in the edit counts of account records. -/
structure Alike (f g : Floor) : Prop where
  rest : g = { f with store := g.store }
  cells : ∀ a, ¬ inAccounts a → g.store.read a = f.store.read a
  accounts : ∀ n, n < 1024 → (g.store.account n).uncounted = (f.store.account n).uncounted

section Requests

variable {e : Mode} {i : StationId} {f g k : Floor} {n : Nat}

theorem Alike.refl (f : Floor) : Alike f f := ⟨rfl, fun _ _ => rfl, fun _ _ => rfl⟩

theorem Alike.trans (a : Alike f g) (b : Alike g k) : Alike f k where
  rest := b.rest.trans (by rw [a.rest])
  cells p outside := (b.cells p outside).trans (a.cells p outside)
  accounts n hn := (b.accounts n hn).trans (a.accounts n hn)

theorem Alike.station (h : Alike f g) (j : StationId) : g.station j = f.station j :=
  (congrArg (fun v => v.station j) h.rest :)

theorem Alike.offset (h : Alike f g) : g.rptWr = f.rptWr := (congrArg Floor.rptWr h.rest :)

theorem Alike.queue (h : Alike f g) : g.waitQueue = f.waitQueue := (congrArg Floor.waitQueue h.rest :)

theorem Alike.mark (h : Alike f g) : g.dropped = f.dropped := (congrArg Floor.dropped h.rest :)

theorem Alike.flags (h : Alike f g) : g.irqFlag = f.irqFlag := (congrArg Floor.irqFlag h.rest :)

/-- A number above 1023 names cells outside the account table. -/
theorem Alike.record (h : Alike f g) (n : Nat) : (g.store.account n).uncounted = (f.store.account n).uncounted := by
  by_cases hn : n < 1024
  · exact h.accounts n hn
  · refine congrArg Account.uncounted (Memory.account_congr fun a low _ => h.cells a fun inside => ?_)
    simp only [inAccounts, accountAddr, Config.accountBase, Config.scratchBase] at *
    omega

theorem isOpen_uncounted (a : Account) : a.uncounted.isOpen = a.isOpen := rfl

theorem available_uncounted (a : Account) : a.uncounted.available = a.available := rfl

theorem Alike.isOpen (h : Alike f g) (n : Nat) : (g.store.account n).isOpen = (f.store.account n).isOpen := by
  rw [← isOpen_uncounted, h.record, isOpen_uncounted]

theorem Alike.available (h : Alike f g) (n : Nat) : (g.store.account n).available = (f.store.account n).available := by
  rw [← available_uncounted, h.record, available_uncounted]

/-! ### The parts of a funding request -/

theorem Alike.onStation (h : Alike f g) (change : Station → Station) : Alike (f.onStation i change) (g.onStation i change) where
  rest := by rw [h.rest]; rfl
  cells := h.cells
  accounts := h.accounts

/-- A request changes the fields of a record as its change says, whatever its edit count. -/
theorem uncounted_openAccount (m : Memory) (change : Account → Account) (hn : n < 1024) :
    ((m.openAccount n change).account n).uncounted = (change (m.account n)).uncounted := by
  rw [Memory.account_openAccount_self m change hn]
  split
  · next same => rw [same]
  · rfl

theorem Alike.openAccount (h : Alike f g) {change : Account → Account}
    (blind : ∀ a, (change a).uncounted = (change a.uncounted).uncounted) :
    Alike (f.onStore fun m => m.openAccount n change) (g.onStore fun m => m.openAccount n change) where
  rest := by rw [h.rest]; rfl
  cells a outside := by
    rw [onStore_store, onStore_store, openAccount_outside outside, openAccount_outside outside, h.cells a outside]
  accounts k hk := by
    rw [onStore_store, onStore_store]
    by_cases same : k = n
    · subst same
      rw [uncounted_openAccount _ _ hk, uncounted_openAccount _ _ hk, blind, h.record, ← blind]
    · rw [Memory.account_openAccount_other _ _ same, Memory.account_openAccount_other _ _ same, h.record]

theorem Alike.topUpUnits (h : Alike f g) (step guardValue : Nat) (entry : FundingEntry) :
    topUpUnits g.store step guardValue entry = topUpUnits f.store step guardValue entry := by
  unfold Machine.topUpUnits
  dsimp only
  rw [h.isOpen, h.available]

theorem Alike.topUp (h : Alike f g) : Alike (topUp i f) (topUp i g) := by
  unfold Machine.topUp
  dsimp only
  rw [h.station]
  split
  · rw [h.topUpUnits]
    exact (h.openAccount fun _ => rfl).onStation _
  · exact h

theorem Alike.spillTo (h : Alike f g) (slot account : Nat) : Alike (spillTo i slot account f) (spillTo i slot account g) := by
  unfold Machine.spillTo
  dsimp only
  have hold : firstHold g.store (f.station i).copy.holdStep account = firstHold f.store (f.station i).copy.holdStep account := by
    unfold firstHold
    rw [h.available]
  rw [h.station, hold]
  exact (h.openAccount fun _ => rfl).onStation _

theorem Alike.spillTarget (h : Alike f g) (x : Station) (last : FundingEntry) :
    spillTarget g.store x last = spillTarget f.store x last := by
  have same : usable g.store x.holdNeed = usable f.store x.holdNeed := by
    funext n
    unfold usable
    rw [h.isOpen, h.available]
  unfold Machine.spillTarget
  rw [same]

theorem Alike.fundingSteps (h : Alike f g) (spills : Nat) : Alike (fundingSteps i spills f) (fundingSteps i spills g) := by
  induction spills generalizing f g with
  | zero => exact h.topUp
  | succ spills ih =>
    have top := h.topUp (i := i)
    simp only [Machine.fundingSteps]
    rw [top.station]
    split
    · exact top
    · split
      · exact top
      · next last _ =>
        rw [top.spillTarget]
        split
        · exact ih (top.spillTo ..)
        · exact top

theorem Alike.fundsRequested (h : Alike f g) : Alike (fundsRequested i f) (fundsRequested i g) := by
  unfold Machine.fundsRequested
  rw [h.station]
  split
  · exact h.fundingSteps 2
  · exact h

/-- The end of a request changes edit counts alone (R134). -/
theorem alike_closeAccounts (accounts : List Nat) (f : Floor) : Alike f (closeAccounts accounts f) where
  rest := rfl
  cells a outside := by
    rw [closeAccounts_store, foldl_closeAccount_outside accounts outside]
  accounts n hn := by
    rw [closeAccounts_store]
    generalize f.store = m
    induction accounts generalizing m with
    | nil => rfl
    | cons k rest ih =>
      refine (ih _).trans ?_
      by_cases same : n = k
      · subst same
        exact Memory.field_closeAccount_self m Account.uncounted hn fun _ _ => rfl
      · rw [Memory.account_closeAccount_other m same]

end Requests

/-! ### Reports -/

section Reports

variable {e : Mode} {i : StationId} {f g : Floor}

/-- A cell after a write depends on the same cell before it, and on what is written. -/
theorem Memory.read_writeBytes_congr {m m' : Memory} {a : Nat} (same : m'.read a = m.read a) (p : Nat) (bs : List Byte) :
    (m'.writeBytes p bs).read a = (m.writeBytes p bs).read a := by
  induction bs generalizing m m' p with
  | nil => exact same
  | cons b bs ih =>
    refine ih ?_ _
    by_cases own : a = p
    · subst own
      by_cases cell : isCell a = true
      · rw [Memory.read_write_self _ _ _ cell, Memory.read_write_self _ _ _ cell]
      · unfold Memory.write
        rwa [if_neg cell, if_neg cell]
    · rwa [Memory.read_write_other _ _ own, Memory.read_write_other _ _ own]

/-- A report that fits changes no account record (R164, R176). -/
theorem account_writeReport (good : goodOffset f.rptWr) (kind : ReportKind) (station : Nat) {body : List (Nat × Nat)}
    (fit : fits e f (8 + layoutSize body) = true) (n : Nat) :
    (writeReport e kind station body f).store.account n = f.store.account n :=
  Memory.account_congr fun _ low high => read_writeReport_outside fun report => by
    have := stream_account_apart (n := n) (inReport_inStream fit good report)
    omega

theorem Alike.fits (h : Alike f g) (len : Nat) : fits e g len = fits e f len := by
  unfold Machine.fits
  rw [h.offset]

theorem Alike.mayWrite (h : Alike f g) (len : Nat) : mayWrite e g len = mayWrite e f len := by
  unfold Machine.mayWrite
  rw [h.queue, h.fits]

theorem Alike.good (h : Alike f g) (good : goodOffset f.rptWr) : goodOffset g.rptWr := by rwa [h.offset]

theorem Alike.writeReport (h : Alike f g) (good : goodOffset f.rptWr) (kind : ReportKind) (station : Nat)
    {body : List (Nat × Nat)} (fit : Machine.fits e f (8 + layoutSize body) = true) :
    Alike (writeReport e kind station body f) (writeReport e kind station body g) where
  rest := by rw [h.rest]; rfl
  cells a outside := by
    simp only [Machine.writeReport, raise_store, h.offset]
    split
    · exact Memory.read_writeBytes_congr (h.cells a outside) ..
    · exact Memory.read_writeBytes_congr (Memory.read_writeBytes_congr (h.cells a outside) ..) ..
  accounts n hn := by
    rw [account_writeReport (h.good good) kind station ((h.fits _).trans fit), account_writeReport good kind station fit]
    exact h.accounts n hn

theorem Alike.offer (h : Alike f g) (frame : TxFrame) : Alike (offer i frame f) (offer i frame g) := h.onStation _

theorem Alike.enqueue (h : Alike f g) (p : Producer) : Alike (f.enqueue p) (g.enqueue p) where
  rest := by rw [h.rest]; rfl
  cells := h.cells
  accounts := h.accounts

theorem Alike.marked (h : Alike f g) (b : Bool) : Alike { f with dropped := b } { g with dropped := b } where
  rest := by rw [h.rest]
  cells := h.cells
  accounts := h.accounts

theorem Alike.stationNotice (h : Alike f g) (good : goodOffset f.rptWr) (event : NoticeEvent) (cause : OutCause) :
    Alike (stationNotice e i event cause f) (stationNotice e i event cause g) := by
  have same : (g.waitQueue.isEmpty && decide (roomNeeded g.rptWr 16 + Config.noticeRoom ≤ freeRoom g.rptWr e.rptRd)) =
      (f.waitQueue.isEmpty && decide (roomNeeded f.rptWr 16 + Config.noticeRoom ≤ freeRoom f.rptWr e.rptRd)) := by
    rw [h.queue, h.offset]
  unfold Machine.stationNotice
  rw [same, h.mark, h.station]
  split
  · split
    · next room =>
      have fit : Machine.fits e f 16 = true := by
        simp only [Bool.and_eq_true, decide_eq_true_eq] at room
        exact decide_eq_true (Nat.le_of_add_right_le room.2)
      exact (h.writeReport good _ _ fit).marked false
    · exact h.marked true
  · exact h

theorem Alike.writeAuth (h : Alike f g) (good : goodOffset f.rptWr) (fit : Machine.fits e f 32 = true) :
    Alike (writeAuth e i f) (writeAuth e i g) := by
  unfold Machine.writeAuth
  rw [h.station]
  split
  · exact h
  · exact (h.writeReport good _ _ fit).onStation _

/-- A request that has been recorded is reported at once or waits (R178). -/
theorem Alike.produced (h : Alike f g) (good : goodOffset f.rptWr) (change : Station → Station) :
    Alike
      (if Machine.mayWrite e (f.onStation i change) 32 then Machine.writeAuth e i (f.onStation i change)
        else (f.onStation i change).enqueue (.auth i))
      (if Machine.mayWrite e (g.onStation i change) 32 then Machine.writeAuth e i (g.onStation i change)
        else (g.onStation i change).enqueue (.auth i)) := by
  rw [(h.onStation change).mayWrite]
  split
  · next may => exact (h.onStation change).writeAuth good (fits_of_mayWrite may)
  · exact (h.onStation change).enqueue _

theorem Alike.wantAuth (h : Alike f g) (good : goodOffset f.rptWr) (kind : AuthKind) (amount : Nat) :
    Alike (wantAuth e i kind amount f) (wantAuth e i kind amount g) := by
  unfold Machine.wantAuth
  rw [h.station]
  split
  · exact h.onStation _
  · exact h.produced good _

/-! ### The outcome of a check -/

theorem Alike.askIncrement (h : Alike f g) (good : goodOffset f.rptWr) : Alike (askIncrement e i f) (askIncrement e i g) := by
  unfold Machine.askIncrement
  dsimp only
  rw [h.station]
  split
  · split
    · exact h.wantAuth good ..
    · exact h
  · exact h

theorem Alike.checkPassed (h : Alike f g) : Alike (checkPassed i f) (checkPassed i g) := by
  unfold Machine.checkPassed showRemaining
  dsimp only
  rw [h.station]
  split
  · rw [(h.onStation _).station]
    exact (h.onStation _).offer _
  · exact h

theorem Alike.checkFailed (h : Alike f g) (good : goodOffset f.rptWr) : Alike (checkFailed e i f) (checkFailed e i g) := by
  unfold Machine.checkFailed
  rw [h.station]
  split
  · exact h.askIncrement good
  · unfold enterLow
    dsimp only
    rw [(h.onStation _).station]
    exact (((((h.onStation _).offer _).stationNotice good ..).onStation _).askIncrement ((stationNotice_step ..).offset good))

/-- A funding check does not see the edit counts (R81, R82). -/
theorem Alike.fundingCheckOpen (h : Alike f g) (good : goodOffset f.rptWr) :
    Alike (fundingCheckOpen e i f) (fundingCheckOpen e i g) := by
  have outcome {f g : Floor} (h : Alike f g) (good : goodOffset f.rptWr) :
      Alike (checkOutcome e i f) (checkOutcome e i g) := by
    unfold checkOutcome
    rw [h.station]
    split
    · exact h.checkPassed
    · exact h.checkFailed good
  by_cases checks : (f.station i).state.checksFunds = true
  · have work : Machine.fundingCheckOpen e i f = checkOutcome e i (Machine.fundsRequested i f) := if_pos checks
    have work' : Machine.fundingCheckOpen e i g = checkOutcome e i (Machine.fundsRequested i g) :=
      if_pos (by rw [h.station]; exact checks)
    rw [work, work']
    exact outcome h.fundsRequested (by rw [fundsRequested_funds.offset]; exact good)
  · have work : Machine.fundingCheckOpen e i f = f := if_neg checks
    have work' : Machine.fundingCheckOpen e i g = g := if_neg (by rw [h.station]; exact checks)
    rwa [work, work']

end Reports

end Sys2Proof.Machine
end

section
/-! PROOF. The re-evaluation pass as funding checks in turn (R146, R147). -/

namespace Sys2Proof.Machine

open Sys2Proof
-- One proof after the other: proofs that wait for one another hold a thread each, and its memory.
set_option Elab.async false

section Pass

variable {e : Mode} {f g : Floor}

/-- The stations a pass serves (R146, R147). -/
def servedStations (accounts : List Nat) (f : Floor) : List StationId :=
  stationIds.filter fun i => (f.station i).state == .low && (f.station i).waitsOn accounts

/-- The checks of a pass before their requests end (R146). -/
def checkedInTurn (e : Mode) (served : List StationId) (f : Floor) : Floor :=
  served.foldl (fun g i => fundingCheckOpen e i g) f

/-- The end of the requests of a pass (R134). -/
def requestsEnded (served : List StationId) (f : Floor) : Floor :=
  served.foldl (fun g i => closeAccounts (g.station i).requestAccounts g) f

theorem reevaluate_runs (runs : e.runs = true) (accounts : List Nat) :
    reevaluate e accounts f = requestsEnded (servedStations accounts f) (checkedInTurn e (servedStations accounts f) f) :=
  if_pos runs

theorem alike_requestsEnded (served : List StationId) : Alike f (requestsEnded served f) := by
  induction served generalizing f with
  | nil => exact .refl f
  | cons i served ih => exact (alike_closeAccounts ..).trans ih

/-- Checks made in turn leave the same whether each request ends at once or all end together, but for edit counts (R134). -/
theorem alike_checkedInTurn (served : List StationId) (h : Alike f g) (good : goodOffset f.rptWr) :
    Alike (checkedInTurn e served f) (served.foldl (fun h i => fundingCheck e i h) g) := by
  induction served generalizing f g with
  | nil => exact h
  | cons i served ih =>
    exact ih ((h.fundingCheckOpen good).trans (alike_closeAccounts ..)) ((fundingCheckOpen_step ..).offset good)

theorem checkedInTurn_station {served : List StationId} {j : StationId} (out : j ∉ served) :
    (checkedInTurn e served f).station j = f.station j := by
  induction served generalizing f with
  | nil => rfl
  | cons i served ih =>
    obtain ⟨other, out⟩ := not_or.mp (List.mem_cons.not.mp out)
    exact (ih out).trans ((fundingCheckOpen_at e i f).others j other)

/-- A station that the pass does not serve is as it was (R146). -/
theorem reevaluate_unserved {accounts : List Nat} {j : StationId} (out : j ∉ servedStations accounts f) :
    (reevaluate e accounts f).station j = f.station j := by
  by_cases runs : e.runs = true
  · rw [reevaluate_runs runs, (alike_requestsEnded _).station]
    exact checkedInTurn_station out
  · exact congrArg (Floor.station · j) (if_neg runs)

/-- Whether a LOW station waits on one of the accounts, by the last entry and the chain slots after it (R147). -/
theorem waitsOn_iff {accounts : List Nat} {x : Station} :
    x.waitsOn accounts = true ↔ ∃ before last, x.context.funding = before ++ [last] ∧ last.kind = .account ∧
      (last.account ∈ accounts ∨ (last.slot < 1 ∧ x.context.chain.first ∈ accounts) ∨
        (last.slot < 2 ∧ x.context.chain.second ∈ accounts) ∨ (last.slot < 3 ∧ x.context.chain.third ∈ accounts)) := by
  unfold Station.waitsOn Context.lastEntry
  rcases List.eq_nil_or_concat x.context.funding with none | ⟨before, last, funding⟩
  · simp [none]
  · rw [List.concat_eq_append] at funding
    have only : (∃ b l, before ++ [last] = b ++ [l] ∧ l.kind = .account ∧
        (l.account ∈ accounts ∨ (l.slot < 1 ∧ x.context.chain.first ∈ accounts) ∨
          (l.slot < 2 ∧ x.context.chain.second ∈ accounts) ∨ (l.slot < 3 ∧ x.context.chain.third ∈ accounts))) ↔
        last.kind = .account ∧
        (last.account ∈ accounts ∨ (last.slot < 1 ∧ x.context.chain.first ∈ accounts) ∨
          (last.slot < 2 ∧ x.context.chain.second ∈ accounts) ∨ (last.slot < 3 ∧ x.context.chain.third ∈ accounts)) := by
      refine ⟨fun ⟨b, l, same, holds⟩ => ?_, fun holds => ⟨before, last, rfl, holds⟩⟩
      obtain ⟨-, rfl⟩ := List.append_inj' same rfl |>.imp id List.singleton_inj.mp
      exact holds
    rw [funding, only, List.getLast?_concat]
    simp [Chain.slots]

theorem mem_servedStations {accounts : List Nat} {i : StationId} :
    i ∈ servedStations accounts f ↔ (f.station i).state = .low ∧ (f.station i).waitsOn accounts = true := by
  have every : ∀ j : StationId, j ∈ stationIds := by decide
  simp [servedStations, every]

theorem servedStations_sorted (accounts : List Nat) (f : Floor) : (servedStations accounts f).Pairwise (· < ·) :=
  List.Pairwise.filter _ (by decide : stationIds.Pairwise (· < ·))

end Pass

/-- Settles O60: the pass is its checks in turn, whose requests end together; only the edit counts tell. -/
theorem reEvaluationServesTheWaitingStations : Obligations.ReEvaluationServesTheWaitingStations := by
  unfold Obligations.ReEvaluationServesTheWaitingStations
  intro e accounts f whole limit even waits g
  have good : goodOffset f.rptWr := ⟨whole, limit⟩
  have member : ∀ i, i ∈ servedStations accounts f ↔ waits (f.station i) := fun i => by
    rw [mem_servedStations, waitsOn_iff]
  refine ⟨fun stopped => if_neg (by rw [stopped]; decide), fun i out => reevaluate_unserved ((member i).not.mpr out),
    fun runs served sorted members => ?_⟩
  intro h
  obtain rfl : servedStations accounts f = served :=
    (servedStations_sorted accounts f).eq_of_mem_iff sorted fun i => (member i).trans (members i).symm
  have pass : Alike (checkedInTurn e (servedStations accounts f) f) g := by
    rw [show g = _ from reevaluate_runs runs accounts]
    exact alike_requestsEnded _
  have turn : Alike (checkedInTurn e (servedStations accounts f) f) h := alike_checkedInTurn _ (.refl f) good
  have stations : ∀ j, g.station j = h.station j := fun j => (pass.station j).trans (turn.station j).symm
  refine ⟨?_, pass.queue.trans turn.queue.symm, pass.mark.trans turn.mark.symm, pass.offset.trans turn.offset.symm,
    pass.flags.trans turn.flags.symm, fun a outside => ?_, fun n hn => ⟨?_, (pass.accounts n hn).trans (turn.accounts n hn).symm⟩⟩
  · exact Vector.ext fun j inside => stations ⟨j, inside⟩
  · by_cases record : inRecords a
    · obtain ⟨j, o, inside, rfl⟩ := record_of_inRecords record
      rw [readByte_record _ j inside, readByte_record _ j inside, stations]
    · rw [readByte_cell _ record, readByte_cell _ record, pass.cells a outside, turn.cells a outside]
  · refine Bool.eq_false_iff.mpr fun odd => ?_
    have before := ((reevaluate_tidy (e := e) (f := f) accounts).store good).odd n hn odd
    rw [even n hn] at before
    cases before

end Sys2Proof.Machine
end

section
/-! SUPPORT. The books of the accounts: what the stations claim of each account, and that the accounts bear it (laws L1 and L2,
R135, R136). -/

namespace Sys2Proof.Machine

open Sys2Proof
-- One proof after the other: proofs that wait for one another hold a thread each, and its memory.
set_option Elab.async false

/-! ### Claims -/

/-- What is claimed of one account: held units, holders, and faces in flight. -/
@[ext] structure Claim where
  held : Nat
  holders : Nat
  faces : Nat

/-- No claim. -/
def Claim.zero : Claim := ⟨0, 0, 0⟩

/-- Two claims together. -/
def Claim.plus (a b : Claim) : Claim := ⟨a.held + b.held, a.holders + b.holders, a.faces + b.faces⟩

@[simp] theorem Claim.plus_held (a b : Claim) : (a.plus b).held = a.held + b.held := rfl
@[simp] theorem Claim.plus_holders (a b : Claim) : (a.plus b).holders = a.holders + b.holders := rfl
@[simp] theorem Claim.plus_faces (a b : Claim) : (a.plus b).faces = a.faces + b.faces := rfl
@[simp] theorem Claim.zero_faces : Claim.zero.faces = 0 := rfl
@[simp] theorem Claim.plus_zero (a : Claim) : a.plus .zero = a := rfl
@[simp] theorem Claim.zero_plus (a : Claim) : Claim.zero.plus a = a := by simp [Claim.plus, Claim.zero]

/-- The claim of funding entries on account `n`. -/
def entriesClaim (entries : List FundingEntry) (n : Nat) : Claim :=
  let named := entries.filter fun en => en.namesAccount && en.account == n
  ⟨(named.map FundingEntry.hold).sum, named.length, 0⟩

/-- The faces, among sheets, of those whose funding entry names account `n` (R136). -/
def Context.facesOn (c : Context) (sheets : List Sheet) (n : Nat) : Nat :=
  ((sheets.filter fun p => c.accountOf p == some n).map fun p => facesOf p.cls).sum

/-- The claim of sheets on account `n`. -/
def Context.sheetsClaim (c : Context) (sheets : List Sheet) (n : Nat) : Claim := ⟨0, 0, c.facesOn sheets n⟩

/-- The claim of a context and its path on account `n`: its live entries and its sheets. -/
def Context.claim (c : Context) (path : List Sheet) (n : Nat) : Claim :=
  ⟨(entriesClaim (if c.holdsFunds then c.funding else []) n).held, (entriesClaim (if c.holdsFunds then c.funding else []) n).holders,
    c.facesOn path n⟩

/-- What a station claims of account `n` (R135, R136). -/
def Station.claim (x : Station) (n : Nat) : Claim := x.context.claim x.line.inPath n

/-- The sum of a count over the stations. -/
@[irreducible] def overStations (v : StationId → Nat) : Nat := (stationIds.map v).sum

/-- What all stations claim of account `n`. -/
def Floor.claims (f : Floor) (n : Nat) : Claim :=
  ⟨overStations fun j => ((f.station j).claim n).held, overStations fun j => ((f.station j).claim n).holders,
    overStations fun j => ((f.station j).claim n).faces⟩

/-! ### The sums -/

/-- Where two counts agree at every station but one, their sums differ as the counts do there. -/
theorem overStations_change {v w : StationId → Nat} {i : StationId} (others : ∀ j, j ≠ i → w j = v j) :
    overStations w + v i = overStations v + w i := by
  have outside : ∀ l : List StationId, i ∉ l → (l.map w).sum = (l.map v).sum := fun l out => by
    congr 1
    exact List.map_congr_left fun j inside => others j fun same => out (same ▸ inside)
  have turn : ∀ l : List StationId, l.Nodup → i ∈ l → (l.map w).sum + v i = (l.map v).sum + w i := by
    intro l
    induction l with
    | nil => exact fun _ inside => absurd inside List.not_mem_nil
    | cons j l ih =>
      intro once inside
      obtain ⟨fresh, once⟩ := List.nodup_cons.mp once
      rw [List.map_cons, List.map_cons, List.sum_cons, List.sum_cons]
      by_cases same : j = i
      · subst same
        have := outside l fresh
        omega
      · have := ih once ((List.mem_cons.mp inside).resolve_left fun h => same h.symm)
        have := others j same
        omega
  unfold overStations
  exact turn stationIds (by decide) ((by decide : ∀ j : StationId, j ∈ stationIds) i)

theorem overStations_le {v : StationId → Nat} {b : Nat} (bound : ∀ j, v j ≤ b) : overStations v ≤ 12 * b := by
  simp only [overStations, stationIds, List.map_cons, List.map_nil, List.sum_cons, List.sum_nil]
  have := bound 0; have := bound 1; have := bound 2; have := bound 3; have := bound 4; have := bound 5
  have := bound 6; have := bound 7; have := bound 8; have := bound 9; have := bound 10; have := bound 11
  omega

theorem overStations_eq_zero {v : StationId → Nat} : overStations v = 0 ↔ ∀ j, v j = 0 := by
  have every : ∀ j : StationId, j ∈ stationIds := by decide
  simp [overStations, List.sum_eq_zero_iff, every]

theorem le_overStations (v : StationId → Nat) (i : StationId) : v i ≤ overStations v := by
  unfold overStations
  exact List.single_le_sum (fun _ _ => Nat.zero_le _) _
    (List.mem_map_of_mem ((by decide : ∀ j : StationId, j ∈ stationIds) i))

/-! ### The claims of the law -/

theorem liveEntries_claims (f : Floor) (n : Nat) :
    ((liveEntries f n).map FundingEntry.hold).sum = (f.claims n).held ∧ (liveEntries f n).length = (f.claims n).holders := by
  have live : ∀ i, (if (f.station i).context.holdsFunds then
      (f.station i).context.funding.filter fun en => en.namesAccount && en.account == n else []) =
        (if (f.station i).context.holdsFunds then (f.station i).context.funding else []).filter
          fun en => en.namesAccount && en.account == n := fun i => by
    split <;> rfl
  simp only [liveEntries, live, Floor.claims, overStations, Station.claim, Context.claim, entriesClaim]
  generalize stationIds = l
  induction l with
  | nil => exact ⟨rfl, rfl⟩
  | cons i l ih =>
    obtain ⟨holds, count⟩ := ih
    simp only [List.flatMap_cons, List.map_append, List.sum_append, List.length_append, List.map_cons, List.sum_cons, holds, count,
      and_self]

theorem facesInPaths_claims (f : Floor) (n : Nat) : facesInPaths f n = (f.claims n).faces := by
  unfold facesInPaths Floor.claims overStations
  rfl

/-! ### What a claim looks at -/

theorem facesOn_append (c : Context) (a b : List Sheet) (n : Nat) : c.facesOn (a ++ b) n = c.facesOn a n + c.facesOn b n := by
  simp [Context.facesOn]

theorem facesOn_cons (c : Context) (s : Sheet) (l : List Sheet) (n : Nat) :
    c.facesOn (s :: l) n = (if c.accountOf s = some n then facesOf s.cls else 0) + c.facesOn l n := by
  unfold Context.facesOn
  by_cases own : c.accountOf s = some n
  · simp [own]
  · rw [List.filter_cons_of_neg (by simpa using own), if_neg own, Nat.zero_add]

theorem facesOf_le (cls : SheetClass) : facesOf cls ≤ 2 := by
  unfold facesOf
  split <;> omega

theorem facesOn_le (c : Context) (sheets : List Sheet) (n : Nat) : c.facesOn sheets n ≤ 2 * sheets.length := by
  induction sheets with
  | nil => exact Nat.le_refl 0
  | cons s l ih =>
    rw [facesOn_cons, List.length_cons]
    have := facesOf_le s.cls
    split <;> omega

/-- Sheets that the context counts on no account make no claim. -/
theorem facesOn_zero {c : Context} {sheets : List Sheet} {n : Nat} (none : ∀ p ∈ sheets, c.accountOf p ≠ some n) :
    c.facesOn sheets n = 0 := by
  have empty : sheets.filter (fun p => c.accountOf p == some n) = [] := List.filter_eq_nil_iff.mpr fun p inside => by
    simpa using none p inside
  unfold Context.facesOn
  rw [empty]
  rfl

theorem facesOn_congr {c d : Context} {sheets : List Sheet} (same : ∀ p ∈ sheets, d.accountOf p = c.accountOf p) (n : Nat) :
    d.facesOn sheets n = c.facesOn sheets n := by
  unfold Context.facesOn
  congr 2
  exact List.filter_congr fun p inside => by rw [same p inside]

/-- The account a sheet is counted on is that of an entry of the context. -/
theorem accountOf_some {c : Context} {p : Sheet} {n : Nat} (own : c.accountOf p = some n) :
    ∃ k : Fin 3, p.target = .entry k ∧ ∃ en, c.funding[k.val]? = some en ∧ en.namesAccount = true ∧ en.account = n := by
  unfold Context.accountOf at own
  split at own
  · cases own
  · next k target =>
    split at own
    · next en found =>
      split at own
      · next names => exact ⟨k, target, en, found, names, Option.some.inj own⟩
      · cases own
    · cases own

theorem entriesClaim_append (a b : List FundingEntry) (n : Nat) :
    entriesClaim (a ++ b) n = (entriesClaim a n).plus (entriesClaim b n) := by
  simp [entriesClaim, Claim.plus]

theorem entriesClaim_one (en : FundingEntry) (n : Nat) :
    entriesClaim [en] n = if en.namesAccount = true ∧ en.account = n then ⟨en.hold, 1, 0⟩ else .zero := by
  unfold entriesClaim
  by_cases own : en.namesAccount = true ∧ en.account = n
  · simp [own]
  · rw [if_neg own, List.filter_cons_of_neg (by simpa using own)]
    rfl

theorem entriesClaim_holders_le (l : List FundingEntry) (n : Nat) : (entriesClaim l n).holders ≤ l.length := List.length_filter_le ..

/-- A context without live entries and with a path that it counts nowhere claims nothing. -/
theorem claim_zero {c : Context} {path : List Sheet} (dead : c.holdsFunds = false) (none : ∀ p ∈ path, c.accountOf p = none)
    (n : Nat) : c.claim path n = .zero := by
  have faces : c.facesOn path n = 0 := facesOn_zero fun p inside => by rw [none p inside]; exact fun h => nomatch h
  unfold Context.claim
  rw [dead, faces]
  rfl

/-! ### Claims that keep their bounds -/

/-- A station's claim on an account: 3 holders at most, 16 faces, and none without a holder. -/
def Claim.Fit (c : Claim) : Prop := c.holders ≤ 3 ∧ c.faces ≤ 16 ∧ (c.holders = 0 → c.faces = 0)

theorem Claim.fit_zero : Claim.zero.Fit := ⟨by decide, by decide, fun _ => rfl⟩

theorem holdsFunds_of_live {c : Context} (live : c.hasLiveSession = true) : c.holdsFunds = true := by
  rcases (hasLive_iff c).mp live with h | h <;> simp [Context.holdsFunds, h]

/-- The station laws bound what a station claims (R6, R79, R80). -/
theorem Sound.fit {e : Mode} {extra : List Sheet} {x : Station} (h : Sound e extra x) (n : Nat) : (x.claim n).Fit := by
  have length : x.context.funding.length ≤ 3 := h.funds.1
  refine ⟨?_, ?_, fun none => ?_⟩
  · refine Nat.le_trans (entriesClaim_holders_le _ n) ?_
    split
    · exact length
    · exact Nat.zero_le _
  · have := facesOn_le x.context x.line.inPath n
    have := h.room
    have := h.depth
    exact Nat.le_trans ‹_ ≤ 2 * _› (by omega)
  · refine facesOn_zero fun p inside own => ?_
    obtain ⟨k, target, en, found, names, number⟩ := accountOf_some own
    have live := (h.named p (List.mem_append_left _ inside) k target).1
    have holders : (entriesClaim x.context.funding n).holders = 0 := by
      have := none
      simpa [Station.claim, Context.claim, holdsFunds_of_live live] using this
    have listed : en ∈ x.context.funding.filter fun en => en.namesAccount && en.account == n :=
      List.mem_filter.mpr ⟨List.mem_of_getElem? found, by simp [names, number]⟩
    have : x.context.funding.filter (fun en => en.namesAccount && en.account == n) = [] := List.eq_nil_of_length_eq_zero holders
    rw [this] at listed
    cases listed

/-! ### The books -/

/-- An account bears a claim: its held amount, holders and in-flight faces are those claimed, a FREE one has no holder, and the limit
of a CREDIT account is within its range (R132, R135, R136). -/
structure Account.Bears (a : Account) (c : Claim) : Prop where
  held : a.held.toNat = c.held
  holders : a.holders.toNat = c.holders
  faces : a.inFlight.toNat = c.faces
  free : a.isFree = true → a.holders.toNat = 0
  limit : a.isCredit = true → a.isFree = false → a.limit.toNat ≤ 2147483647

/-- The books of a floor: every account bears what the stations claim of it and what is owed besides, on its way from or to a station;
account 0 is OPEN; and a close that waits has no holder to wait for (R135, R136, R144). -/
structure Ledger (owed : Nat → Claim) (f : Floor) : Prop where
  good : goodOffset f.rptWr
  light : ∀ n, (owed n).holders ≤ 8 ∧ (owed n).faces ≤ 64
  house : (f.store.account 0).isOpen = true
  fit : ∀ j n, ((f.station j).claim n).Fit
  each : ∀ n, n < 1024 → (f.store.account n).Bears ((f.claims n).plus (owed n))
  closes : ∀ n, n < 1024 → .close n ∈ f.waitQueue → (f.store.account n).isOpen = false ∧ (f.store.account n).holders.toNat = 0

/-- Nothing is on its way. -/
def nothing (_ : Nat) : Claim := .zero

@[simp] theorem plus_nothing (c : Claim) (n : Nat) : c.plus (nothing n) = c := rfl

/-- A move of one account: its amounts change as the claim on it does, and a close that waits keeps waiting for nobody. -/
structure Moves (a b : Account) (p q : Claim) : Prop where
  held : b.held.toNat + p.held = a.held.toNat + q.held
  holders : b.holders.toNat + p.holders = a.holders.toNat + q.holders
  faces : b.inFlight.toNat + p.faces = a.inFlight.toNat + q.faces
  free : b.isFree = true → b.holders.toNat = 0
  limit : b.isCredit = true → b.isFree = false → b.limit.toNat ≤ 2147483647
  shut : a.isOpen = false → a.holders.toNat = 0 → b.isOpen = false ∧ b.holders.toNat = 0

/-- What the books look at in an account. -/
def Account.stake (a : Account) : Account :=
  { a with tier := false, overdrawn := false, editCount := 0, balance := 0, delivered := 0, money := 0, faces := .replicate 8 0 }

section Stake

variable {a b : Account}

theorem stake_held (same : b.stake = a.stake) : b.held = a.held := (congrArg Account.held same :)
theorem stake_holders (same : b.stake = a.stake) : b.holders = a.holders := (congrArg Account.holders same :)
theorem stake_inFlight (same : b.stake = a.stake) : b.inFlight = a.inFlight := (congrArg Account.inFlight same :)
theorem stake_isFree (same : b.stake = a.stake) : b.isFree = a.isFree := (congrArg Account.isFree same :)
theorem stake_isOpen (same : b.stake = a.stake) : b.isOpen = a.isOpen := (congrArg Account.isOpen same :)
theorem stake_isCredit (same : b.stake = a.stake) : b.isCredit = a.isCredit := (congrArg Account.isCredit same :)
theorem stake_limit (same : b.stake = a.stake) : b.limit = a.limit := (congrArg Account.limit same :)

theorem Moves.same {c p : Claim} (bears : a.Bears c) (same : b.stake = a.stake) : Moves a b p p where
  held := by rw [stake_held same]
  holders := by rw [stake_holders same]
  faces := by rw [stake_inFlight same]
  free := by rw [stake_isFree same, stake_holders same]; exact bears.free
  limit := by rw [stake_isCredit same, stake_isFree same, stake_limit same]; exact bears.limit
  shut shut none := by rw [stake_isOpen same, stake_holders same]; exact ⟨shut, none⟩

end Stake

section Work

variable {i : StationId} {f g : Floor} {owed owed' : Nat → Claim}

/-- The claims of a floor change as those of the one station that changes. -/
theorem claims_change (others : KeepsOthers i f g) (n : Nat) :
    (g.claims n).plus ((f.station i).claim n) = (f.claims n).plus ((g.station i).claim n) := by
  have same : ∀ j, j ≠ i → (g.station j).claim n = (f.station j).claim n := fun j other => by rw [others j other]
  have held := overStations_change (v := fun j => ((f.station j).claim n).held) (w := fun j => ((g.station j).claim n).held)
    fun j other => congrArg Claim.held (same j other)
  have holders := overStations_change (v := fun j => ((f.station j).claim n).holders) (w := fun j => ((g.station j).claim n).holders)
    fun j other => congrArg Claim.holders (same j other)
  have faces := overStations_change (v := fun j => ((f.station j).claim n).faces) (w := fun j => ((g.station j).claim n).faces)
    fun j other => congrArg Claim.faces (same j other)
  unfold Floor.claims Claim.plus
  dsimp only at held holders faces ⊢
  rw [held, holders, faces]

/-- Work at one station keeps the books when each account moves as the station's claim and what is owed do. -/
theorem Ledger.at (h : Ledger owed f) (others : KeepsOthers i f g) (good : goodOffset g.rptWr)
    (light : ∀ n, (owed' n).holders ≤ 8 ∧ (owed' n).faces ≤ 64)
    (house : (g.store.account 0).isOpen = true) (fit : ∀ n, ((g.station i).claim n).Fit)
    (each : ∀ n, n < 1024 → (f.store.account n).Bears ((f.claims n).plus (owed n)) →
      Moves (f.store.account n) (g.store.account n) (((f.station i).claim n).plus (owed n)) (((g.station i).claim n).plus (owed' n)))
    (closes : ∀ n, n < 1024 → .close n ∈ g.waitQueue → .close n ∈ f.waitQueue ∨
      ((g.store.account n).isOpen = false ∧ (g.store.account n).holders.toNat = 0)) : Ledger owed' g where
  good := good
  light := light
  house := house
  fit j n := by
    by_cases own : j = i
    · exact own ▸ fit n
    · rw [others j own]
      exact h.fit j n
  each n hn := by
    have bears := h.each n hn
    obtain ⟨held, holders, faces, free, limit, -⟩ := each n hn bears
    have change := claims_change others n
    have changeHeld := congrArg Claim.held change
    have changeHolders := congrArg Claim.holders change
    have changeFaces := congrArg Claim.faces change
    have := bears.held
    have := bears.holders
    have := bears.faces
    simp only [Claim.plus_held, Claim.plus_holders, Claim.plus_faces] at *
    exact ⟨by simp only [Claim.plus_held]; omega, by simp only [Claim.plus_holders]; omega, by simp only [Claim.plus_faces]; omega,
      free, limit⟩
  closes n hn waits := (closes n hn waits).elim
    (fun before => (each n hn (h.each n hn)).shut (h.closes n hn before).1 (h.closes n hn before).2) id

end Work

end Sys2Proof.Machine
end

section
/-! SUPPORT. Work that leaves the books of the accounts alone: reports, notices, frames, requests, tallies, link states. -/

namespace Sys2Proof.Machine

open Sys2Proof
-- One proof after the other: proofs that wait for one another hold a thread each, and its memory.
set_option Elab.async false

/-! ### The books and the laws -/

/-- The laws between commands make up the books of a part that runs. -/
theorem ledger_of_books {s : State} (h : Books s) (runs : s.mode.runs = true) : Ledger nothing s.floor := by
  obtain ⟨stations, accounts, wait, offset, -⟩ := h
  obtain ⟨house, each⟩ := accounts runs
  obtain ⟨-, -, -, -, closes⟩ := wait
  refine ⟨offset.good, fun _ => ⟨Nat.zero_le _, Nat.zero_le _⟩, house,
    fun j n => ((sound_iff _ _).mpr (stations j)).fit n, fun n hn => ?_, fun n hn waits => ?_⟩
  · obtain ⟨held, holders, faces, free, limit⟩ := each n hn
    obtain ⟨holds, count⟩ := liveEntries_claims s.floor n
    rw [plus_nothing]
    exact ⟨held.trans holds, holders.trans count, faces.trans (facesInPaths_claims _ n),
      fun zero => by rw [holders, free zero]; rfl, limit⟩
  · obtain ⟨closing, none⟩ := (closes runs n hn).mp waits
    have state : (s.floor.store.account n).state = 3 := by simpa [Account.isClosing] using closing
    exact ⟨by simp [Account.isOpen, state], by rw [none]; rfl⟩

/-- Books that are kept while the part runs are laws L1 and L2. -/
theorem accountLaw_of_ledger {t : State} (h : t.mode.runs = true → Ledger nothing t.floor) : AccountLaw t := by
  intro runs
  have books := h runs
  refine ⟨books.house, fun n hn => ?_⟩
  obtain ⟨held, holders, faces, free, limit⟩ := books.each n hn
  obtain ⟨holds, count⟩ := liveEntries_claims t.floor n
  rw [plus_nothing] at held holders faces
  refine ⟨held.trans holds.symm, holders.trans count.symm, faces.trans (facesInPaths_claims _ n).symm, fun zero => ?_, limit⟩
  exact List.eq_nil_of_length_eq_zero (count.trans (holders.symm.trans (free zero)))

/-! ### Neutral work -/

/-- Work that leaves the books alone: no account's stake and no station's claim changes, and no close begins to wait. -/
structure Neutral (f g : Floor) : Prop where
  offset : goodOffset f.rptWr → goodOffset g.rptWr
  accounts : goodOffset f.rptWr → ∀ n, n < 1024 → (g.store.account n).stake = (f.store.account n).stake
  claims : ∀ j n, (g.station j).claim n = (f.station j).claim n
  closes : ∀ n, .close n ∈ g.waitQueue → .close n ∈ f.waitQueue

section Work

variable {e : Mode} {i : StationId} {f g k : Floor} {owed : Nat → Claim}

theorem Neutral.refl (f : Floor) : Neutral f f := ⟨id, fun _ _ _ => rfl, fun _ _ => rfl, fun _ => id⟩

theorem Neutral.trans (a : Neutral f g) (b : Neutral g k) : Neutral f k where
  offset good := b.offset (a.offset good)
  accounts good n hn := (b.accounts (a.offset good) n hn).trans (a.accounts good n hn)
  claims j n := (b.claims j n).trans (a.claims j n)
  closes n waits := a.closes n (b.closes n waits)

/-- Neutral work keeps the books, whatever is on its way. -/
theorem Neutral.ledger (h : Neutral f g) (books : Ledger owed f) : Ledger owed g where
  good := h.offset books.good
  light := books.light
  house := by rw [stake_isOpen (h.accounts books.good 0 (by decide))]; exact books.house
  fit j n := by rw [h.claims]; exact books.fit j n
  each n hn := by
    have stake := h.accounts books.good n hn
    have claims : g.claims n = f.claims n := by
      unfold Floor.claims
      simp only [h.claims]
    obtain ⟨held, holders, faces, free, limit⟩ := books.each n hn
    rw [claims]
    exact ⟨by rw [stake_held stake, held], by rw [stake_holders stake, holders], by rw [stake_inFlight stake, faces],
      by rw [stake_isFree stake, stake_holders stake]; exact free,
      by rw [stake_isCredit stake, stake_isFree stake, stake_limit stake]; exact limit⟩
  closes n hn waits := by
    have stake := h.accounts books.good n hn
    rw [stake_isOpen stake, stake_holders stake]
    exact books.closes n hn (h.closes n waits)

/-! ### Frames -/

theorem neutral_onStation {change : Station → Station}
    (same : ∀ n, (change (f.station i)).claim n = (f.station i).claim n := by exact fun _ => rfl) :
    Neutral f (f.onStation i change) where
  offset := id
  accounts _ _ _ := rfl
  claims j n := by
    by_cases own : j = i
    · subst own
      rw [station_onStation_self, same]
    · rw [station_onStation_other _ _ _ _ own]
  closes _ := id

theorem neutral_onStore {change : Memory → Memory}
    (same : ∀ n, n < 1024 → ((change f.store).account n).stake = (f.store.account n).stake) : Neutral f (f.onStore change) where
  offset := id
  accounts _ n hn := by rw [onStore_store, same n hn]
  claims j n := by rw [station_onStore]
  closes _ := id

/-- A request that keeps an account's stake. -/
theorem neutral_editAccount {n : Nat} {change : Account → Account} (keeps : ∀ a, (change a).stake = a.stake) :
    Neutral f (f.onStore fun m => m.editAccount n change) := by
  refine neutral_onStore fun k hk => ?_
  by_cases same : k = n
  · subst same
    rw [Memory.field_editAccount_self _ _ Account.stake hk fun _ _ => rfl, keeps]
  · rw [Memory.account_editAccount_other _ _ same]

theorem neutral_bracketAccount {n : Nat} {change : Account → Account} (keeps : ∀ a, (change a).stake = a.stake) :
    Neutral f (f.onStore fun m => m.bracketAccount n change) := by
  refine neutral_onStore fun k hk => ?_
  by_cases same : k = n
  · subst same
    rw [Memory.account_bracketAccount_self _ _ hk]
    exact keeps _
  · rw [Memory.account_bracketAccount_other _ _ same]

theorem neutral_closeAccounts (accounts : List Nat) : Neutral f (closeAccounts accounts f) := by
  refine neutral_onStore fun n hn => ?_
  have same := (alike_closeAccounts accounts f).accounts n hn
  exact (congrArg Account.stake same :)

/-- Work that writes no account record. -/
theorem neutral_of_reports (reports : ReportStep f g) (claims : ∀ j n, (g.station j).claim n = (f.station j).claim n)
    (closes : ∀ n, .close n ∈ g.waitQueue → .close n ∈ f.waitQueue) : Neutral f g :=
  ⟨reports.offset, fun good n hn => by rw [reports.account good hn], claims, closes⟩

theorem neutral_enqueue {p : Producer} (other : ∀ n, p ≠ .close n) : Neutral f (f.enqueue p) where
  offset := id
  accounts _ _ _ := rfl
  claims _ _ := rfl
  closes n waits := by
    rcases List.mem_append.mp waits with before | own
    · exact before
    · exact absurd (List.mem_singleton.mp own).symm (other n)

theorem neutral_offer (t : TxFrame) : Neutral f (offer i t f) := neutral_onStation

theorem neutral_showAndEject (msg : Message) (a b : Int) : Neutral f (showAndEject i msg a b f) :=
  (neutral_offer _).trans (neutral_offer _)

theorem neutral_showRemaining : Neutral f (showRemaining i f) := neutral_offer _

/-! ### Reports -/

/-- A report that fits is written outside the accounts, whatever fits it (R176). -/
theorem neutral_writeReport {kind : ReportKind} {station : Nat} {body : List (Nat × Nat)}
    (whole : layoutSize body % 4 = 0) (fit : fits e f (8 + layoutSize body) = true) :
    Neutral f (writeReport e kind station body f) where
  offset := (writeReport_step e f kind station body whole fit).offset
  accounts good n _ := by rw [account_writeReport good kind station fit]
  claims j n := by rw [station_writeReport]
  closes _ := id

theorem neutral_stationNotice (event : NoticeEvent) (cause : OutCause) : Neutral f (stationNotice e i event cause f) := by
  refine neutral_of_reports (stationNotice_reports event cause) (fun j n => by rw [station_stationNotice]) fun n waits => ?_
  unfold stationNotice at waits
  split at waits
  · split at waits <;> exact waits
  · exact waits

theorem neutral_writeAuth (fit : fits e f 32 = true) : Neutral f (writeAuth e i f) := by
  unfold writeAuth
  split
  · exact .refl f
  · exact (neutral_writeReport (by rw [authBody_size]) fit).trans neutral_onStation

/-- A request that has been recorded is reported at once or waits (R178). -/
theorem neutral_produced {change : Station → Station} (same : ∀ x n, (change x).claim n = x.claim n) :
    Neutral f (if mayWrite e (f.onStation i change) 32 then writeAuth e i (f.onStation i change)
      else (f.onStation i change).enqueue (.auth i)) := by
  refine Neutral.trans (g := f.onStation i change) (neutral_onStation (same _)) ?_
  split
  · next may => exact neutral_writeAuth (fits_of_mayWrite may)
  · exact neutral_enqueue fun _ h => nomatch h

theorem neutral_produceAuth (kind : AuthKind) (amount : Nat) : Neutral f (produceAuth e i kind amount f) :=
  neutral_produced fun _ _ => rfl

theorem neutral_wantAuth (kind : AuthKind) (amount : Nat) : Neutral f (wantAuth e i kind amount f) := by
  unfold wantAuth
  split
  · exact neutral_onStation
  · exact neutral_produceAuth ..

theorem neutral_cancelAuth : Neutral f (cancelAuth i f) := neutral_onStation

theorem neutral_writeWaitingAuth (fit : fits e f 32 = true) : Neutral f (writeWaitingAuth e i f) := by
  unfold writeWaitingAuth
  dsimp only
  split
  · exact (neutral_writeAuth fit).trans (neutral_produceAuth ..)
  · exact neutral_writeAuth fit

theorem neutral_writeJam (fit : ∀ r, (f.station i).jam.pendingReport = some r → fits e f (8 + layoutSize r.body) = true) :
    Neutral f (writeJam e i f) := by
  unfold writeJam
  split
  · exact .refl f
  · next r pending =>
    exact (neutral_writeReport (by rw [jamBody_size]; omega) (fit r pending)).trans neutral_onStation

theorem neutral_produceJam (r : JamReport) : Neutral f (produceJam e i r f) := by
  unfold produceJam
  dsimp only
  split
  · next may =>
    refine (neutral_onStation).trans (neutral_writeJam fun r' pending => ?_)
    rw [station_onStation_self] at pending
    rw [← Option.some.inj pending]
    exact fits_of_mayWrite may
  · exact (neutral_onStation).trans (neutral_enqueue fun _ h => nomatch h)

/-! ### The outcome of a funding check -/

theorem neutral_askIncrement : Neutral f (askIncrement e i f) := by
  unfold askIncrement
  dsimp only
  split
  · split
    · exact neutral_wantAuth ..
    · exact .refl f
  · exact .refl f

theorem neutral_enterLow : Neutral f (enterLow e i f) := by
  unfold enterLow
  dsimp only
  refine Neutral.trans (neutral_onStation fun n => ?_) ((neutral_offer _).trans ((neutral_stationNotice ..).trans
    ((neutral_onStation).trans neutral_askIncrement)))
  split <;> rfl

theorem neutral_checkOutcome : Neutral f (checkOutcome e i f) := by
  unfold checkOutcome checkPassed checkFailed
  split_ifs
  · exact (neutral_onStation).trans neutral_showRemaining
  · exact .refl f
  · exact neutral_askIncrement
  · exact neutral_enterLow

/-! ### Tallies -/

theorem stake_spend (a : Account) (units : Nat) : (a.spend units).stake = a.stake := rfl

theorem neutral_writeStray (fit : fits e f 96 = true) : Neutral f (writeStray e i f) := by
  unfold writeStray
  dsimp only
  exact (neutral_writeReport (by rw [strayBody_size]) (by rw [strayBody_size]; exact fit)).trans
    ((neutral_bracketAccount fun a => stake_spend a _).trans neutral_onStation)

theorem neutral_closeStray (cause : EndCause) : Neutral f (closeStray e i cause f) := by
  unfold closeStray
  dsimp only
  split_ifs with _ _ may
  · exact .refl f
  · exact neutral_onStation
  · exact (neutral_onStation).trans (neutral_writeStray (fits_of_mayWrite may))
  · exact (neutral_onStation).trans (neutral_enqueue fun _ h => nomatch h)

/-! ### The link -/

theorem neutral_linkDown : Neutral f (linkDown e i f) := (neutral_onStation).trans (neutral_stationNotice ..)

theorem neutral_applySerial (old : WorkingCopy) : Neutral f (applySerial e i old f) := by
  unfold applySerial
  dsimp only
  split_ifs
  · exact (neutral_onStation).trans neutral_linkDown
  · exact neutral_onStation
  · exact (neutral_onStation).trans (neutral_offer _)
  · exact .refl f

end Work

end Sys2Proof.Machine
end

section
/-! SUPPORT. A funding check keeps the books: what a top-up or a spill holds is claimed (R82, R135). -/

namespace Sys2Proof.Machine

open Sys2Proof
-- One proof after the other: proofs that wait for one another hold a thread each, and its memory.
set_option Elab.async false

/-! ### One account moves -/

section Moves

variable {i : StationId} {f g : Floor} {owed owed' : Nat → Claim} {n : Nat}

/-- Work at one station that touches the stake of one account. -/
theorem Ledger.atAccount (h : Ledger owed f) (others : KeepsOthers i f g) (good : goodOffset g.rptWr)
    (light : ∀ k, (owed' k).holders ≤ 8 ∧ (owed' k).faces ≤ 64) (fit : ∀ k, ((g.station i).claim k).Fit)
    (stakes : ∀ k, k < 1024 → k ≠ n → (g.store.account k).stake = (f.store.account k).stake)
    (claims : ∀ k, k ≠ n → ((g.station i).claim k).plus (owed' k) = ((f.station i).claim k).plus (owed k))
    (opened : (f.store.account n).isOpen = true → (g.store.account n).isOpen = true)
    (own : n < 1024 → (f.store.account n).Bears ((f.claims n).plus (owed n)) →
      Moves (f.store.account n) (g.store.account n) (((f.station i).claim n).plus (owed n)) (((g.station i).claim n).plus (owed' n)))
    (closes : ∀ k, .close k ∈ g.waitQueue → .close k ∈ f.waitQueue) : Ledger owed' g := by
  refine h.at others good light ?_ fit (fun k hk bears => ?_) fun k _ waits => .inl (closes k waits)
  · by_cases same : 0 = n
    · subst same
      exact opened h.house
    · rw [stake_isOpen (stakes 0 (by decide) same)]
      exact h.house
  · by_cases same : k = n
    · subst same
      exact own hk bears
    · rw [claims k same]
      exact Moves.same bears (stakes k hk same)

/-- At most 44 holders and 256 faces are ever claimed of an account. -/
theorem Ledger.bounds (h : Ledger owed f) (n : Nat) :
    ((f.claims n).plus (owed n)).holders ≤ 44 ∧ ((f.claims n).plus (owed n)).faces ≤ 256 := by
  obtain ⟨holders, faces⟩ := h.light n
  have claimed := overStations_le (v := fun j => ((f.station j).claim n).holders) fun j => (h.fit j n).1
  have flying := overStations_le (v := fun j => ((f.station j).claim n).faces) fun j => (h.fit j n).2.1
  simp only [Claim.plus_holders, Claim.plus_faces, Floor.claims]
  omega

end Moves

section Holds

variable {a b : Account} {c p q : Claim} {units count : Nat}

/-- An account with more held on it and more holders. -/
def Account.holding (units count : Nat) (a : Account) : Account :=
  { a with held := a.held + BitVec.ofNat 32 units, holders := a.holders + BitVec.ofNat 8 count }

/-- A hold taken on an account is claimed of it; a holder is added to an OPEN account alone. -/
theorem moves_hold (bears : a.Bears c) (few : c.holders ≤ 44) (one : count ≤ 1) (opened : a.isOpen = true ∨ count = 0)
    (changed : b.stake = (a.holding units count).stake) (room : a.held.toNat + units < 4294967296)
    (held : q.held = p.held + units) (holders : q.holders = p.holders + count) (faces : q.faces = p.faces) : Moves a b p q := by
  have small := bears.holders
  have heldNow : b.held.toNat = a.held.toNat + units := by
    rw [stake_held changed]
    simp only [Account.holding, BitVec.toNat_add, BitVec.toNat_ofNat]
    omega
  have holdersNow : b.holders.toNat = a.holders.toNat + count := by
    rw [stake_holders changed]
    simp only [Account.holding, BitVec.toNat_add, BitVec.toNat_ofNat]
    omega
  have isFree : b.isFree = a.isFree := (stake_isFree changed :)
  have isOpen : b.isOpen = a.isOpen := (stake_isOpen changed :)
  refine ⟨by omega, by omega, ?_, fun free => ?_, ?_, fun shut none => ?_⟩
  · rw [stake_inFlight changed, faces]
    rfl
  · rcases opened with opened | zero
    · simp_all [Account.isFree, Account.isOpen]
    · have := bears.free (by rwa [← isFree])
      omega
  · rw [stake_isCredit changed, isFree, stake_limit changed]
    exact bears.limit
  · rcases opened with opened | zero
    · rw [shut] at opened
      cases opened
    · exact ⟨by rw [isOpen, shut], by omega⟩

/-- Units taken from what an account has available fit its held amount (R79, R132, R135). -/
theorem hold_fits (bears : a.Bears c) (available : a.isOpen = true ∧ units ≤ a.available.toNat ∨ units = 0) :
    a.held.toNat + units < 4294967296 := by
  have held := a.held.isLt
  rcases available with ⟨opened, within⟩ | none
  · have used : a.isFree = false := by simp_all [Account.isFree, Account.isOpen]
    have balance := a.balance.toInt_lt
    have limit := bears.limit
    unfold Account.available at within
    split at within
    · next credit =>
      have := limit credit used
      omega
    · omega
  · omega

end Holds

/-! ### Claims of a funding list that grows -/

section Lists

variable {x : Station} {c d : Context} {l : List FundingEntry} {p : Sheet}

theorem accountOf_eq (c : Context) (k : Fin 3) (target : p.target = .entry k) :
    c.accountOf p = (c.shapes[k.val]?).bind fun en => if en.namesAccount then some en.account else none := by
  unfold Context.accountOf Context.shapes
  rw [target, List.getElem?_map]
  dsimp only
  cases c.funding[k.val]? <;> rfl

/-- A sheet is counted on the account of its entry, which a list that grows keeps. -/
theorem accountOf_prefix (grows : c.shapes <+: d.shapes) (named : c.Names p) : d.accountOf p = c.accountOf p := by
  cases target : p.target with
  | stray =>
    unfold Context.accountOf
    rw [target]
  | entry k =>
    have inside : k.val < c.shapes.length := by
      have := (named k target).2
      simpa using this
    obtain ⟨more, list⟩ := grows
    rw [accountOf_eq c k target, accountOf_eq d k target, ← list, List.getElem?_append_left inside]

theorem claim_live (holds : x.context.holdsFunds = true) (n : Nat) :
    x.claim n = ⟨(entriesClaim x.context.funding n).held, (entriesClaim x.context.funding n).holders,
      x.context.facesOn x.line.inPath n⟩ := by
  unfold Station.claim Context.claim
  rw [if_pos holds]

/-- A station whose list has grown claims by its entries, and its path as before. -/
theorem claim_withFunding (holds : x.context.holdsFunds = true) (grows : x.context.shapes <+: l.map FundingEntry.shape)
    (named : ∀ p ∈ x.line.inPath, x.context.Names p) (n : Nat) :
    (x.withFunding l).claim n = ⟨(entriesClaim l n).held, (entriesClaim l n).holders, (x.claim n).faces⟩ := by
  have faces : (x.withFunding l).context.facesOn x.line.inPath n = x.context.facesOn x.line.inPath n :=
    facesOn_congr (fun p inside => accountOf_prefix grows (named p inside)) n
  exact (claim_live (x := x.withFunding l) holds n).trans (congrArg (Claim.mk _ _) faces)

end Lists

theorem entriesClaim_named {en : FundingEntry} (names : en.namesAccount = true) (n : Nat) :
    entriesClaim [en] n = if en.account = n then ⟨en.hold, 1, 0⟩ else .zero := by
  rw [entriesClaim_one]
  exact if_congr (and_iff_right names) rfl rfl

/-! ### The parts of a request -/

section Request

variable {e : Mode} {i : StationId} {extra : List Sheet} {f g k : Floor} {owed : Nat → Claim}

theorem uncounted_stake (a : Account) : a.uncounted.stake = a.stake := rfl

/-- A request on one account leaves the stakes of the others and changes its own as it says. -/
theorem stake_openAccount (m : Memory) (n : Nat) (change : Account → Account) {k : Nat} (hk : k < 1024) :
    ((m.openAccount n change).account k).stake = if k = n then (change (m.account k)).stake else (m.account k).stake := by
  split
  · next same =>
    subst same
    rw [← uncounted_stake, uncounted_openAccount _ _ hk, uncounted_stake]
  · next other => rw [Memory.account_openAccount_other _ _ other]

/-- A number above 1023 names no account (00, Numbering). -/
theorem openAccount_none (m : Memory) {n : Nat} (change : Account → Account) (hn : ¬ n < 1024) : m.openAccount n change = m := by
  unfold Memory.openAccount Memory.putAccount
  dsimp only
  split
  · rfl
  · exact if_neg hn

theorem stake_addHeld (units : Nat) (a : Account) : (a.addHeld units).stake = (a.holding units 0).stake := by
  simp [Account.addHeld, Account.holding, Account.stake]

theorem stake_addHolder (units : Nat) (a : Account) : (a.addHolder units).stake = (a.holding units 1).stake := rfl

/-- A request of a live session that holds more on one account and lists it so keeps the books (R82, R135). -/
theorem requested_ledger {n units count : Nat} {l : List FundingEntry} {change : Account → Account} {x : Station}
    (station : f.station i = x) (holds : x.context.holdsFunds = true)
    (named : ∀ p ∈ x.line.inPath, x.context.Names p) (grows : x.context.shapes <+: l.map FundingEntry.shape) (short : l.length ≤ 3)
    (one : count ≤ 1) (changes : ∀ a, (change a).stake = (a.holding units count).stake)
    (claims : ∀ k, entriesClaim l k = (entriesClaim x.context.funding k).plus (if k = n then ⟨units, count, 0⟩ else .zero))
    (opened : (f.store.account n).isOpen = true ∨ count = 0)
    (available : (f.store.account n).isOpen = true ∧ units ≤ (f.store.account n).available.toNat ∨ units = 0)
    (h : Ledger owed f) :
    Ledger owed ((f.onStore fun m => m.openAccount n change).onStation i (Station.withFunding l)) := by
  subst station
  have stakes : ∀ k, k < 1024 → ((f.store.openAccount n change).account k).stake =
      if k = n then ((f.store.account k).holding units count).stake else (f.store.account k).stake := fun k hk => by
    rw [stake_openAccount _ _ _ hk, changes]
  have claim : ∀ k, ((((f.onStore fun m => m.openAccount n change).onStation i (Station.withFunding l)).station i).claim k) =
      ((f.station i).claim k).plus (if k = n then ⟨units, count, 0⟩ else .zero) := fun k => by
    rw [station_onStation_self, station_onStore, claim_withFunding holds grows named, claims, claim_live holds]
    split <;> rfl
  refine h.atAccount (n := n) (i := i) (fun j other => ?_) h.good h.light (fun k => ?_) (fun k hk other => ?_) (fun k other => ?_)
    (fun isOpen => ?_) (fun hn bears => ?_) fun _ => id
  · rw [station_onStation_other _ _ _ _ other, station_onStore]
  · rw [station_onStation_self, station_onStore, claim_withFunding holds grows named]
    refine ⟨Nat.le_trans (entriesClaim_holders_le l k) short, (h.fit i k).2.1, fun none => (h.fit i k).2.2 ?_⟩
    have sum := congrArg Claim.holders (claims k)
    rw [claim_live holds]
    simp only [Claim.plus_holders] at sum none ⊢
    omega
  · rw [onStation_store, onStore_store, stakes k hk, if_neg other]
  · rw [claim, if_neg other, Claim.plus_zero]
  · by_cases hn : n < 1024
    · have stake := stakes n hn
      rw [if_pos rfl] at stake
      rw [onStation_store, onStore_store, stake_isOpen stake]
      exact isOpen
    · have none : f.store.openAccount n change = f.store := openAccount_none _ _ hn
      rw [onStation_store, onStore_store, none]
      exact isOpen
  · have stake := stakes n hn
    rw [if_pos rfl] at stake
    rw [onStation_store, onStore_store, claim, if_pos rfl]
    refine moves_hold bears (h.bounds n).1 one opened stake (hold_fits bears available) ?_ ?_ ?_ <;>
      simp only [Claim.plus_held, Claim.plus_holders, Claim.plus_faces] <;> omega

/-- What a funding request needs of its station: a live session whose last entry is of kind ACCOUNT (R82). -/
structure Station.Requesting (x : Station) : Prop where
  live : x.context.condition = .live
  account : x.context.lastIs .account = true
  named : ∀ p ∈ x.line.inPath, x.context.Names p
  short : x.context.funding.length ≤ 3

theorem Station.Requesting.holds {x : Station} (h : x.Requesting) : x.context.holdsFunds = true := by
  simp [Context.holdsFunds, h.live]

/-- The list of such a station, with its last entry. -/
theorem Station.Requesting.list {x : Station} (h : x.Requesting) :
    ∃ before last, x.context.funding = before ++ [last] ∧ last.kind = .account := by
  obtain ⟨last, entry, kind⟩ := (lastIs_iff _ _).mp h.account
  obtain ⟨before, funding⟩ := List.getLast?_eq_some_iff.mp entry
  exact ⟨before, last, funding, kind⟩

theorem Station.Requesting.grow {x : Station} {l : List FundingEntry} (h : x.Requesting)
    (grows : x.context.shapes <+: l.map FundingEntry.shape) (short : l.length ≤ 3)
    (account : (x.withFunding l).context.lastIs .account = true) : (x.withFunding l).Requesting where
  live := h.live
  account := account
  named p inside := (h.named p inside).congr rfl (by simpa using grows.length_le)
  short := short

theorem Sound.requesting {x : Station} (h : Sound e extra x) (live : x.context.condition = .live)
    (account : x.context.lastIs .account = true) : x.Requesting :=
  ⟨live, account, fun p inside => h.named p (List.mem_append_left _ inside), h.funds.1⟩

/-- A top-up holds what the account has available, if it is OPEN (R82 step 1). -/
theorem topUpUnits_available (m : Memory) (step guardValue : Nat) (en : FundingEntry) :
    (m.account en.account).isOpen = true ∧ topUpUnits m step guardValue en ≤ (m.account en.account).available.toNat ∨
      topUpUnits m step guardValue en = 0 := by
  unfold topUpUnits
  dsimp only
  split
  · next isOpen => exact .inl ⟨isOpen, by omega⟩
  · exact .inr rfl

theorem topUp_ledger (ready : (f.station i).Requesting) (h : Ledger owed f) :
    Ledger owed (topUp i f) ∧ ((topUp i f).station i).Requesting := by
  obtain ⟨before, last, funding, kind⟩ := ready.list
  have grows : (f.station i).context.shapes <+: (before ++ [last.toppedUp f (f.station i)]).map FundingEntry.shape := by
    rw [Context.shapes, funding, List.map_append, List.map_append]
    exact List.prefix_refl _
  have short : (before ++ [last.toppedUp f (f.station i)]).length ≤ 3 := by
    have := ready.short
    rw [funding] at this
    simpa using this
  rw [topUp_eq funding]
  refine ⟨requested_ledger (count := 0) rfl ready.holds ready.named grows short (Nat.zero_le 1) (stake_addHeld _) (fun k => ?_)
    (.inr rfl) (topUpUnits_available ..) h, ?_⟩
  · have names : last.namesAccount = true := by simp [FundingEntry.namesAccount, kind]
    rw [funding, entriesClaim_append, entriesClaim_append, entriesClaim_named names, entriesClaim_named (en := last.toppedUp _ _) names,
      show (last.toppedUp f (f.station i)).account = last.account from rfl]
    by_cases same : k = last.account
    · subst same
      simp [Claim.plus, Nat.add_assoc, FundingEntry.toppedUp]
    · rw [if_neg (Ne.symm same), if_neg (Ne.symm same), if_neg same]
      rfl
  · rw [station_onStation_self, station_onStore]
    refine ready.grow grows short ((lastIs_iff _ _).mpr ⟨_, List.getLast?_concat, ?_⟩)
    exact kind

/-- The target of a spill is an OPEN account with the hold available (R82 step 2). -/
theorem spillTarget_usable {m : Memory} {x : Station} {last : FundingEntry} {slot n : Nat}
    (target : spillTarget m x last = some (slot, n)) :
    x.context.funding.length < 3 ∧ usable m x.holdNeed n = true := by
  unfold spillTarget at target
  split at target
  · next room =>
    have found := List.find?_some target
    simp only [Bool.and_eq_true] at found
    exact ⟨room, found.1.2⟩
  · cases target

theorem usable_open {m : Memory} {need n : Nat} (h : usable m need n = true) : n < 1024 ∧ (m.account n).isOpen = true := by
  simp only [usable, Bool.and_eq_true, decide_eq_true_eq] at h
  exact h.1

theorem firstHold_le (m : Memory) (step n : Nat) : firstHold m step n ≤ (m.account n).available.toNat := Nat.min_le_right ..

theorem spillTo_ledger {slot n : Nat} {last : FundingEntry} (ready : (f.station i).Requesting)
    (target : spillTarget f.store (f.station i) last = some (slot, n)) (h : Ledger owed f) :
    Ledger owed (spillTo i slot n f) ∧ ((spillTo i slot n f).station i).Requesting := by
  obtain ⟨room, isUsable⟩ := spillTarget_usable target
  have opened := (usable_open isUsable).2
  have within := firstHold_le f.store (f.station i).copy.holdStep n
  have eq : spillTo i slot n f = (f.onStore fun m => m.openAccount n
      (·.addHolder (firstHold f.store (f.station i).copy.holdStep n))).onStation i
        (Station.withFunding ((f.station i).context.funding ++ [(f.station i).spillEntry f.store slot n])) := by
    unfold spillTo
    refine onStation_congr _ _ ?_
    rw [station_onStore]
    rfl
  have grows : (f.station i).context.shapes <+:
      ((f.station i).context.funding ++ [(f.station i).spillEntry f.store slot n]).map FundingEntry.shape := by
    rw [List.map_append]
    exact List.prefix_append ..
  have short : ((f.station i).context.funding ++ [(f.station i).spillEntry f.store slot n]).length ≤ 3 := by
    simpa using room
  rw [eq]
  refine ⟨requested_ledger (count := 1) rfl ready.holds ready.named grows short (Nat.le_refl 1) (stake_addHolder _) (fun k => ?_)
    (.inl opened) (.inl ⟨opened, within⟩) h, ?_⟩
  · rw [entriesClaim_append, entriesClaim_one]
    by_cases same : k = n
    · subst same
      rw [if_pos ⟨rfl, rfl⟩, if_pos rfl]
      rfl
    · rw [if_neg (fun own => same own.2.symm), if_neg same]
  · rw [station_onStation_self, station_onStore]
    exact ready.grow grows short ((lastIs_iff _ _).mpr ⟨_, List.getLast?_concat, rfl⟩)

/-- A funding request keeps the books (R82). -/
theorem fundingSteps_ledger (spills : Nat) (ready : (f.station i).Requesting) (h : Ledger owed f) :
    Ledger owed (fundingSteps i spills f) := by
  induction spills generalizing f with
  | zero => exact (topUp_ledger ready h).1
  | succ spills ih =>
    obtain ⟨top, ready'⟩ := topUp_ledger ready h
    simp only [fundingSteps]
    split
    · exact top
    · split
      · exact top
      · split
        · next target =>
          obtain ⟨spilled, again⟩ := spillTo_ledger ready' target top
          exact ih again spilled
        · exact top

theorem fundsRequested_ledger (sound : Sound e extra (f.station i)) (live : (f.station i).context.condition = .live)
    (h : Ledger owed f) : Ledger owed (fundsRequested i f) := by
  unfold fundsRequested
  split
  · next request =>
    simp only [Bool.and_eq_true] at request
    exact fundingSteps_ledger 2 (sound.requesting live request.2) h
  · exact h

theorem fundingCheckOpen_ledger (sound : Sound e extra (f.station i)) (h : Ledger owed f) :
    Ledger owed (fundingCheckOpen e i f) := by
  by_cases checks : (f.station i).state.checksFunds = true
  · have work : fundingCheckOpen e i f = checkOutcome e i (fundsRequested i f) := if_pos checks
    rw [work]
    exact neutral_checkOutcome.ledger (fundsRequested_ledger sound (sound.condition_of_checks checks) h)
  · have work : fundingCheckOpen e i f = f := if_neg checks
    rwa [work]

theorem fundingCheck_ledger (sound : Sound e extra (f.station i)) (h : Ledger owed f) : Ledger owed (fundingCheck e i f) :=
  (neutral_closeAccounts _).ledger (fundingCheckOpen_ledger sound h)

/-- A sheet of the session is counted on the same account after a check (R82, R136). -/
theorem fundingCheck_accountOf {p : Sheet} (named : (f.station i).context.Names p) :
    ((fundingCheck e i f).station i).context.accountOf p = (f.station i).context.accountOf p :=
  accountOf_prefix fundingCheck_shapes named

/-- A re-evaluation pass keeps the books (R146). -/
theorem reevaluate_ledger (accounts : List Nat) (sound : ∀ j, (f.station j).state = .low → Sound e [] (f.station j))
    (h : Ledger owed f) : Ledger owed (reevaluate e accounts f) := by
  have turn : ∀ (l : List StationId) (g : Floor), l.Nodup → (∀ j ∈ l, Sound e [] (g.station j)) → Ledger owed g →
      Ledger owed (checkedInTurn e l g) := by
    intro l
    induction l with
    | nil => exact fun _ _ _ books => books
    | cons j l ih =>
      intro g once sounds books
      obtain ⟨fresh, once⟩ := List.nodup_cons.mp once
      refine ih _ once (fun k inside => ?_) (fundingCheckOpen_ledger (sounds j List.mem_cons_self) books)
      rw [(fundingCheckOpen_at e j g).others k fun same => fresh (same ▸ inside)]
      exact sounds k (List.mem_cons_of_mem _ inside)
  have ended : ∀ (l : List StationId) (g : Floor), Ledger owed g → Ledger owed (requestsEnded l g) := by
    intro l
    induction l with
    | nil => exact fun _ books => books
    | cons j l ih => exact fun g books => ih _ ((neutral_closeAccounts _).ledger books)
  by_cases runs : e.runs = true
  · rw [reevaluate_runs runs]
    refine ended _ _ (turn _ _ ?_ (fun j served => sound j (mem_servedStations.mp served).1) h)
    exact (servedStations_sorted accounts f).imp fun less => Nat.ne_of_lt less |> fun ne same => ne (congrArg Fin.val same)
  · have none : reevaluate e accounts f = f := if_neg runs
    rwa [none]

end Request

end Sys2Proof.Machine
end

section
/-! SUPPORT. The work of the session controller keeps the books: cards judged, sessions opened and ended, IDLE and OUT. -/

namespace Sys2Proof.Machine

open Sys2Proof
-- One proof after the other: proofs that wait for one another hold a thread each, and its memory.
set_option Elab.async false

/-! ### Work that keeps laws and books -/

/-- Work that keeps the laws of station `i`, and under them the books of the accounts. -/
structure Pays (e : Mode) (i : StationId) (f g : Floor) : Prop where
  keeps : Keeps e i [] f g
  books : Sound e [] (f.station i) → Ledger nothing f → Ledger nothing g

section Work

variable {e : Mode} {i : StationId} {extra : List Sheet} {f g k : Floor} {owed : Nat → Claim} {x y : Station}

theorem Pays.refl (f : Floor) : Pays e i f f := ⟨.refl f, fun _ => id⟩

theorem Pays.trans (a : Pays e i f g) (b : Pays e i g k) : Pays e i f k :=
  ⟨a.keeps.trans b.keeps, fun sound books => b.books (a.keeps.sound sound) (a.books sound books)⟩

theorem Pays.neutral (keeps : Keeps e i [] f g) (neutral : Neutral f g) : Pays e i f g := ⟨keeps, fun _ => neutral.ledger⟩

/-! ### Contexts that claim nothing -/

theorem claim_of (holds : y.context.holdsFunds = x.context.holdsFunds) (funding : y.context.funding = x.context.funding)
    (path : y.line.inPath = x.line.inPath) (n : Nat) : y.claim n = x.claim n := by
  have accounts : ∀ p, y.context.accountOf p = x.context.accountOf p := fun p => by
    unfold Context.accountOf
    rw [funding]
  unfold Station.claim Context.claim
  rw [holds, funding, path, facesOn_congr (fun p _ => accounts p)]

/-- Strays are counted on no account (R117). -/
theorem accountOf_stray {c : Context} {p : Sheet} (stray : p.target = .stray) : c.accountOf p = none := by
  unfold Context.accountOf
  rw [stray]

theorem claim_strays (dead : x.context.holdsFunds = false) (strays : ∀ p ∈ x.line.inPath, p.target = .stray) (n : Nat) :
    x.claim n = .zero := claim_zero dead (fun p inside => accountOf_stray (strays p inside)) n

theorem hasLive_of_dead {c : Context} (dead : c.holdsFunds = false) : c.hasLiveSession = false :=
  Bool.eq_false_iff.mpr fun live => by rw [holdsFunds_of_live live] at dead; cases dead

theorem Sound.strays (h : Sound e extra x) (dead : x.context.hasLiveSession = false) :
    ∀ p ∈ x.line.inPath, p.target = .stray := fun p inside => (h.named p (List.mem_append_left _ inside)).stray dead

/-- A station without live funding entries claims nothing (R135, R136). -/
theorem Sound.claim_dead (h : Sound e extra x) (dead : x.context.holdsFunds = false) (n : Nat) : x.claim n = .zero :=
  claim_strays dead (h.strays (hasLive_of_dead dead)) n

theorem holdsFunds_of_rest {c : Context} (rest : c.condition = .empty ∨ c.condition = .abandoned ∨ c.condition = .funding) :
    c.holdsFunds = false := by
  rcases rest with h | h | h <;> simp [Context.holdsFunds, h]

/-- An IDLE or FUNDING station claims nothing. -/
theorem Sound.dead_of_state (h : Sound e extra x) (state : x.state = .idle ∨ x.state = .out ∨ x.state = .funding) :
    x.context.holdsFunds = false := by
  have stands := h.stands
  refine holdsFunds_of_rest ?_
  rcases state with s | s | s <;> rw [s] at stands
  · exact stands.imp_right .inl
  · exact stands.imp_right .inl
  · exact .inr (.inr stands)

/-! ### The hold of an opening -/

theorem stake_editAccount (m : Memory) (n : Nat) (change : Account → Account) {k : Nat} (hk : k < 1024) :
    ((m.editAccount n change).account k).stake = if k = n then (change (m.account k)).stake else (m.account k).stake := by
  split
  · next same =>
    subst same
    exact Memory.field_editAccount_self _ _ Account.stake hk fun _ _ => rfl
  · next other => rw [Memory.account_editAccount_other _ _ other]

theorem entriesClaim_light (en : FundingEntry) (n : Nat) :
    (entriesClaim [en] n).holders ≤ 8 ∧ (entriesClaim [en] n).faces ≤ 64 := by
  rw [entriesClaim_one]
  split
  · exact ⟨Nat.le_of_ble_eq_true rfl, Nat.zero_le _⟩
  · exact ⟨Nat.zero_le _, Nat.zero_le _⟩

/-- A hold taken for an entry to come is owed until the entry is listed (R73, R135). -/
theorem reserve_ledger {en : FundingEntry} (names : en.namesAccount = true) (inside : en.account < 1024)
    (opened : (f.store.account en.account).isOpen = true)
    (available : en.hold ≤ (f.store.account en.account).available.toNat ∨ en.hold = 0) (h : Ledger nothing f) :
    Ledger (entriesClaim [en]) (f.onStore fun m => m.editAccount en.account (·.addHolder en.hold)) := by
  refine h.atAccount (n := en.account) (i := 0) (fun j _ => station_onStore ..) h.good (entriesClaim_light en)
    (fun k => by rw [station_onStore]; exact h.fit 0 k) (fun k hk other => ?_) (fun k other => ?_) (fun _ => ?_)
    (fun _ bears => ?_) fun _ => id
  · rw [onStore_store, stake_editAccount _ _ _ hk, if_neg other]
  · rw [station_onStore, entriesClaim_named names, if_neg (Ne.symm other), plus_nothing, Claim.plus_zero]
  · have stake := stake_editAccount f.store en.account (·.addHolder en.hold) inside
    rw [if_pos rfl, stake_addHolder] at stake
    rw [onStore_store, stake_isOpen stake]
    exact opened
  · have stake := stake_editAccount f.store en.account (·.addHolder en.hold) inside
    rw [if_pos rfl, stake_addHolder] at stake
    refine moves_hold bears (h.bounds _).1 (Nat.le_refl 1) (.inl opened) stake
      (hold_fits bears (available.imp_left fun within => ⟨opened, within⟩)) ?_ ?_ ?_ <;>
      rw [station_onStore, entriesClaim_named names, if_pos rfl] <;> rfl

theorem entriesClaim_bank {en : FundingEntry} (bank : en.namesAccount = false) : entriesClaim [en] = nothing := by
  funext n
  rw [entriesClaim_one, if_neg (by simp [bank])]
  rfl

/-! ### Openings -/

theorem openedFloor_sound {o : Opening} (good : o.Fits) (runs : e.runs = true)
    (state : (f.station i).state = .idle ∨ (f.station i).state = .funding) (auth : (f.station i).auth.state = .none)
    (h : Sound e [] (f.station i)) : Sound e [] ((openedFloor e i o f).station i) := by
  have books := closeStray_books e i .sessionOpened f
  have sound := (closeStray_keeps .sessionOpened).sound h
  unfold openedFloor
  generalize closeStray e i .sessionOpened f = g at *
  dsimp only
  rw [station_onStation_self, station_onStore]
  have opened := sound.opened (by rwa [books.state]) runs (books.authState.trans auth) (good.begins g.store.sessionNumber e.partTime)
  exact opened.congr (by constructor <;> rfl) rfl

/-- The floor of an opening lists the hold that was taken for it (R73). -/
theorem openedFloor_ledger {o : Opening} (good : o.Fits) (runs : e.runs = true)
    (state : (f.station i).state = .idle ∨ (f.station i).state = .funding) (auth : (f.station i).auth.state = .none)
    (h : Sound e [] (f.station i)) (owes : Ledger (entriesClaim [o.entry]) f) : Ledger nothing (openedFloor e i o f) := by
  have after := openedFloor_sound good runs state auth h
  have sound := (closeStray_keeps .sessionOpened).sound h
  have idle : ((closeStray e i .sessionOpened f).station i).state = (f.station i).state := (closeStray_books ..).state
  have closed := (neutral_closeStray (e := e) (i := i) .sessionOpened).ledger owes
  unfold openedFloor at after ⊢
  generalize closeStray e i .sessionOpened f = g at *
  dsimp only at after ⊢
  have numbered : Ledger (entriesClaim [o.entry]) (g.onStore Memory.advanceNumber) :=
    (neutral_onStore fun n hn => by rw [account_advanceNumber _ hn]).ledger closed
  have dead := sound.dead_of_state (by rw [idle]; exact state.imp_right .inr)
  have strays := sound.strays (hasLive_of_dead dead)
  refine numbered.at (i := i) (fun j other => station_onStation_other _ _ _ _ other) numbered.good
    (fun _ => ⟨Nat.zero_le _, Nat.zero_le _⟩) numbered.house after.fit (fun n hn bears => ?_) fun _ _ waits => .inl waits
  have faces : (o.context g.store.sessionNumber e.partTime).facesOn (g.station i).line.inPath n = 0 :=
    facesOn_zero fun p inside => by rw [accountOf_stray (strays p inside)]; exact fun h => nomatch h
  have claim : ((g.station i).sessionOpened o g.store.sessionNumber e.partTime).claim n = entriesClaim [o.entry] n := by
    rw [claim_live rfl]
    exact congrArg (Claim.mk _ _) faces
  rw [station_onStation_self, station_onStore, sound.claim_dead dead, claim, plus_nothing, Claim.zero_plus]
  exact Moves.same bears rfl

theorem openSession_ledger {o : Opening} (good : o.Fits) (runs : e.runs = true)
    (state : (f.station i).state = .idle ∨ (f.station i).state = .funding) (auth : (f.station i).auth.state = .none)
    (h : Sound e [] (f.station i)) (owes : Ledger (entriesClaim [o.entry]) f) : Ledger nothing (openSession e i o f) := by
  rw [openSession_eq]
  exact fundingCheck_ledger (openedFloor_sound good runs state auth h) (openedFloor_ledger good runs state auth h owes)

/-- The account of a service session is OPEN (R71). -/
theorem serviceAccount_open {w : WorkingCopy} (house : (f.store.account 0).isOpen = true) :
    (f.store.account (serviceAccount f.store w)).isOpen = true := by
  unfold serviceAccount
  split
  · assumption
  · exact house

theorem openService_pays (card : Card) (d : DirEntry) (runs : e.runs = true) (state : (f.station i).state = .idle)
    (auth : (f.station i).auth.state = .none) : Pays e i f (openService e i card d f) := by
  refine ⟨openService_keeps card d runs state auth, fun sound books => ?_⟩
  unfold openService
  exact openSession_ledger ⟨(nomatch ·), fun _ => serviceAccount_small sound.house, Nat.zero_le _⟩ runs
    (.inl (by rw [station_onStore]; exact state)) (by rw [station_onStore]; exact auth) (by rw [station_onStore]; exact sound)
    (reserve_ledger rfl (serviceAccount_small sound.house) (serviceAccount_open books.house) (.inr rfl) books)

theorem acceptCustomer_pays (card : Card) (d : DirEntry) (runs : e.runs = true) (state : (f.station i).state = .idle)
    (auth : (f.station i).auth.state = .none) : Pays e i f (acceptCustomer e i card d f) := by
  refine ⟨acceptCustomer_keeps card d runs state auth, fun sound books => ?_⟩
  unfold acceptCustomer
  dsimp only
  split
  · next slot account found =>
    obtain ⟨inside, opened⟩ := usable_open (m := f.store) (need := (f.station i).holdNeed) (n := account)
      (List.find?_some (p := fun s : Nat × Nat => usable f.store (f.station i).holdNeed s.2) found)
    exact openSession_ledger ⟨fun _ => List.mem_of_find?_eq_some found, fun _ => inside, Nat.zero_le _⟩ runs
      (.inl (by rw [station_onStore]; exact state)) (by rw [station_onStore]; exact auth) (by rw [station_onStore]; exact sound)
      (reserve_ledger rfl inside opened (.inl (firstHold_le ..)) books)
  · exact (neutral_showAndEject ..).ledger books

/-- A change of station `i` after which it claims what it claimed (R135, R136). -/
theorem neutral_claim {change : Station → Station} (before : ∀ n, (f.station i).claim n = .zero)
    (after : ∀ n, (change (f.station i)).claim n = .zero) : Neutral f (f.onStation i change) :=
  neutral_onStation fun n => by rw [before, after]

theorem beginFunding_pays (card : Card) (runs : e.runs = true) (state : (f.station i).state = .idle) :
    Pays e i f (beginFunding e i card f) := by
  refine ⟨beginFunding_keeps card runs state, fun sound books => ?_⟩
  have dead := sound.dead_of_state (.inl state)
  unfold beginFunding
  dsimp only
  refine (Neutral.trans (neutral_claim (sound.claim_dead dead) fun n => ?_)
    ((neutral_wantAuth ..).trans (neutral_offer _))).ledger books
  refine claim_strays ?_ ?_ n
  · rfl
  · exact sound.strays (hasLive_of_dead dead)

theorem judgeCard_pays (card : Card) (runs : e.runs = true) (state : (f.station i).state = .idle) :
    Pays e i f (judgeCard e i card f) := by
  refine ⟨judgeCard_keeps card runs state, fun sound books => ?_⟩
  have auth := sound.noRequest_of_idle state
  have refused : ∀ msg a b, Ledger nothing (showAndEject i msg a b f) := fun msg a b => (neutral_showAndEject msg a b).ledger books
  unfold judgeCard
  dsimp only
  split
  · exact refused ..
  · split
    · split
      · exact refused ..
      · exact (beginFunding_pays card runs state).books sound books
    · split
      · exact refused ..
      · next d _ =>
        split_ifs
        · exact refused ..
        · exact (openService_pays card d runs state auth).books sound books
        · exact refused ..
        · exact (acceptCustomer_pays card d runs state auth).books sound books

/-! ### IDLE and OUT -/

theorem neutral_stopTally : Neutral f (if e.run = .stopping then closeStray e i .stop f else f) := by
  split
  · exact neutral_closeStray _
  · exact .refl f

theorem reachIdle_ledger (runs : e.runs = true) (h : Sound e [] { f.station i with state := .idle, nextCard := none })
    (books : Ledger nothing f) : Ledger nothing (reachIdle e i f) := by
  have rested := (neutral_stopTally (e := e) (i := i)).ledger
    ((neutral_onStation (i := i) (f := f) (change := fun x => { x with state := .idle })).ledger books)
  have same := stopTally_books e i (f.onStation i fun x => { x with state := .idle })
  unfold reachIdle
  dsimp only
  generalize (if e.run = .stopping then closeStray e i .stop (f.onStation i fun x => { x with state := .idle })
    else f.onStation i fun x => { x with state := .idle }) = g at *
  rw [station_onStation_self] at same
  split
  · next card _ =>
    have sound : Sound e [] ((g.onStation i fun x => { x with nextCard := none }).station i) := by
      rw [station_onStation_self]
      exact h.congr same.clearNext rfl
    exact (judgeCard_pays card runs (by rw [station_onStation_self]; exact same.state)).books sound
      ((neutral_onStation).ledger rested)
  · exact rested

theorem neutral_answerNextCard : Neutral f (answerNextCard i f) := by
  unfold answerNextCard
  split
  · exact (neutral_onStation).trans (neutral_showAndEject ..)
  · exact .refl f

/-- A station with neither live entries nor sheets of a session enters OUT without a change of the books (R20, R98). -/
theorem neutral_enterOut (cause : OutCause) (dead : (f.station i).context.holdsFunds = false)
    (strays : ∀ p ∈ (f.station i).line.inPath, p.target = .stray) : Neutral f (enterOut e i cause f) := by
  have out : Neutral f (f.onStation i fun x =>
      { x with state := .out, outCause := cause, outPending := .none, line := x.line.dropPath }) :=
    neutral_claim (claim_strays dead strays) (claim_strays dead fun p inside => nomatch inside)
  unfold enterOut
  dsimp only
  refine out.trans (Neutral.trans ?_ (neutral_answerNextCard.trans ((neutral_offer _).trans (neutral_stationNotice ..))))
  split
  · exact neutral_closeStray _
  · exact .refl _

theorem enterOut_ledger (cause : OutCause) (h : Sound e [] { f.station i with state := .idle, nextCard := none })
    (books : Ledger nothing f) : Ledger nothing (enterOut e i cause f) := by
  have dead := h.dead_of_state (.inl rfl)
  exact (neutral_enterOut cause dead (h.strays (hasLive_of_dead dead))).ledger books

/-- A funding wait whose context is cleared claims nothing, as before (R107). -/
theorem neutral_clearWait (h : Sound e extra (f.station i)) (dead : (f.station i).context.holdsFunds = false) :
    Neutral f ((cancelAuth i f).onStation i Station.clearContext) := by
  have station : (cancelAuth i f).station i = { f.station i with auth := (f.station i).auth.closed } := station_onStation_self ..
  have strays := h.strays (hasLive_of_dead dead)
  refine neutral_cancelAuth.trans (neutral_claim (fun n => ?_) fun n => ?_) <;> rw [station]
  · exact claim_strays dead strays n
  · refine claim_strays ?_ ?_ n
    · rfl
    · exact strays

theorem giveUpFunding_pays (state : (f.station i).state = .funding) : Pays e i f (giveUpFunding e i f) := by
  refine ⟨giveUpFunding_keeps state, fun h books => ?_⟩
  have cleared := (neutral_clearWait h (h.dead_of_state (.inr (.inr state)))).ledger books
  refine reachIdle_ledger (h.runs (by simp [state]) (by simp [state])) ?_ cleared
  rw [station_onStation_self, cancelAuth, station_onStation_self]
  exact h.wait_freed state

/-! ### Ends, cards and keys -/

theorem neutral_endSession (cause : EndCause) (live : (f.station i).context.condition = .live) :
    Neutral f (endSession e i cause f) := by
  rw [endSession_eq]
  refine neutral_onStation fun n => claim_of (x := f.station i) (y := (f.station i).ended e.partTime cause) ?_ rfl rfl n
  have holds : (f.station i).context.holdsFunds = true := by simp [Context.holdsFunds, live]
  rw [holds]
  rfl

theorem endSession_pays (cause : EndCause) (live : (f.station i).context.condition = .live) :
    Pays e i f (endSession e i cause f) := .neutral (endSession_keeps cause live) (neutral_endSession cause live)

theorem endIfLive_pays (cause : EndCause) : Pays e i f (endIfLive e i cause f) := by
  refine .neutral (endIfLive_keeps cause) ?_
  unfold endIfLive
  split
  · exact neutral_endSession cause ‹_›
  · exact .refl f

theorem cardInGrace_pays (card : Card)
    (waits : (f.station i).context.condition = .live ∨ (f.station i).context.condition = .funding) :
    Pays e i f (cardInGrace e i card f) := by
  refine ⟨cardInGrace_keeps card waits, fun h books => ?_⟩
  unfold cardInGrace
  dsimp only
  split
  · exact (neutral_onStation).ledger books
  · split
    · next live => exact ((neutral_endSession .cardOut live).trans neutral_onStation).ledger books
    · next dead =>
      have state := h.state_of_funding (waits.resolve_left dead)
      have runs := h.runs (by simp [state]) (by simp [state])
      have none := h.nextCard_none (by simp [state]) (by simp [state]) (by simp [state])
      exact ((giveUpFunding_pays state).trans (judgeCard_pays _ runs (giveUpFunding_state none))).books h books

theorem sessionCardIn_pays (card : Card) : Pays e i f (sessionCardIn e i card f) := by
  refine ⟨sessionCardIn_keeps card, fun h books => ?_⟩
  unfold sessionCardIn
  dsimp only
  split
  · exact (neutral_showAndEject ..).ledger books
  · next service =>
    have runs : e.runs = true := by
      simp [inService] at service
      exact service.1
    split
    · next grace =>
      simp only [Bool.and_eq_true, Bool.or_eq_true, beq_iff_eq] at grace
      exact (cardInGrace_pays card grace.2).books h books
    · split
      · exact (judgeCard_pays card runs ‹_›).books h books
      · exact (neutral_onStation).ledger books
      · exact (neutral_onStation).ledger books
      · split
        · exact books
        · exact (neutral_onStation).ledger books
      all_goals exact books

theorem sessionCardOut_pays : Pays e i f (sessionCardOut e i f) := by
  unfold sessionCardOut
  dsimp only
  refine Pays.trans (g := f.onStation i fun x => { x with nextCard := none })
    (.neutral (.change fun h => h.clearNext) neutral_onStation) ?_
  split
  · exact giveUpFunding_pays ‹_›
  · split
    · exact endIfLive_pays .cardOut
    · exact .refl _

theorem offer_pays (t : TxFrame) : Pays e i f (offer i t f) := .neutral (offer_keeps t) (neutral_offer t)

theorem sessionKeyEnd_pays : Pays e i f (sessionKeyEnd e i f) := by
  unfold sessionKeyEnd
  dsimp only
  split
  · exact .refl f
  · split
    · next state => exact (offer_pays _).trans (giveUpFunding_pays (by rw [offer_eq, station_onStation_self]; exact state))
    · split
      · exact endIfLive_pays .userEnd
      · exact .refl f

theorem sessionKeyBalance_pays : Pays e i f (sessionKeyBalance e i f) := by
  unfold sessionKeyBalance
  dsimp only
  split
  · exact .refl f
  · split
    · exact .refl f
    · exact offer_pays _

end Work

end Sys2Proof.Machine
end

section
/-! SUPPORT. Sheets and jams keep the books: a sheet on its way is owed to the account it is counted on, until it is placed, delivered
or lost (R117, R136). -/

namespace Sys2Proof.Machine

open Sys2Proof
-- One proof after the other: proofs that wait for one another hold a thread each, and its memory.
set_option Elab.async false

section Work

variable {e : Mode} {i : StationId} {extra rest : List Sheet} {f g : Floor} {owed : Nat → Claim} {x y : Station} {s : Sheet}

/-! ### What a claim looks at in an entry -/

/-- What a claim looks at in a funding entry. -/
def FundingEntry.pledge (en : FundingEntry) : FundingEntry := { en with committed := 0, grants := [] }

/-- The pledges of a context. -/
abbrev Context.pledges (c : Context) : List FundingEntry := c.funding.map FundingEntry.pledge

theorem entriesClaim_pledge (l : List FundingEntry) (n : Nat) : entriesClaim (l.map FundingEntry.pledge) n = entriesClaim l n := by
  unfold entriesClaim
  dsimp only
  rw [List.filter_map, List.map_map, List.length_map]
  rfl

theorem pledges_modify (l : List FundingEntry) (k : Nat) (change : FundingEntry → FundingEntry)
    (keeps : ∀ en, (change en).pledge = en.pledge) :
    (l.modify k change).map FundingEntry.pledge = l.map FundingEntry.pledge := by
  apply List.ext_getElem?
  intro j
  rw [List.getElem?_map, List.getElem?_map, List.getElem?_modify]
  cases l[j]? with
  | none => rfl
  | some en => by_cases own : k = j <;> simp [own, keeps]

theorem accountOf_pledges {c d : Context} (pledges : d.pledges = c.pledges) (p : Sheet) : d.accountOf p = c.accountOf p := by
  have seen : ∀ b : Context, b.accountOf p = match p.target with
      | .stray => none
      | .entry k => (b.pledges[k.val]?).bind fun en => if en.namesAccount then some en.account else none := fun b => by
    unfold Context.accountOf Context.pledges
    cases p.target with
    | stray => rfl
    | entry k =>
      dsimp only
      rw [List.getElem?_map]
      cases b.funding[k.val]? <;> rfl
  rw [seen, seen, pledges]

/-- A station whose entries keep their pledges, and whose path stays, claims what it claimed. -/
theorem claim_pledged (holds : y.context.holdsFunds = x.context.holdsFunds) (pledges : y.context.pledges = x.context.pledges)
    (path : y.line.inPath = x.line.inPath) (n : Nat) : y.claim n = x.claim n := by
  have entries : entriesClaim y.context.funding n = entriesClaim x.context.funding n := by
    rw [← entriesClaim_pledge, ← entriesClaim_pledge x.context.funding]
    exact congrArg (entriesClaim · n) pledges
  unfold Station.claim Context.claim
  rw [holds, path, facesOn_congr fun p _ => accountOf_pledges pledges p]
  split
  · rw [entries]
  · rfl

/-- A change of a station that keeps its pledges and its path. -/
theorem neutral_pledged {change : Station → Station}
    (holds : (change (f.station i)).context.holdsFunds = (f.station i).context.holdsFunds)
    (pledges : (change (f.station i)).context.pledges = (f.station i).context.pledges)
    (path : (change (f.station i)).line.inPath = (f.station i).line.inPath) : Neutral f (f.onStation i change) :=
  neutral_onStation (claim_pledged holds pledges path)

/-! ### A sheet on its way -/

theorem sheetsClaim_congr {c d : Context} {sheets : List Sheet} (same : ∀ p ∈ sheets, d.accountOf p = c.accountOf p) :
    d.sheetsClaim sheets = c.sheetsClaim sheets := by
  funext n
  unfold Context.sheetsClaim
  rw [facesOn_congr same]

/-- Sheets that a context counts nowhere are owed to nobody. -/
theorem sheetsClaim_none {c : Context} {sheets : List Sheet} (none : ∀ p ∈ sheets, c.accountOf p = none) :
    c.sheetsClaim sheets = nothing := by
  funext n
  unfold Context.sheetsClaim
  rw [facesOn_zero fun p inside => by rw [none p inside]; exact fun h => nomatch h]
  rfl

theorem sheetsClaim_light (c : Context) {sheets : List Sheet} (few : sheets.length ≤ 32) (n : Nat) :
    (c.sheetsClaim sheets n).holders ≤ 8 ∧ (c.sheetsClaim sheets n).faces ≤ 64 := by
  refine ⟨Nat.zero_le _, ?_⟩
  have := facesOn_le c sheets n
  simp only [Context.sheetsClaim]
  omega

/-- What the books look at in an account, but for the faces in flight. -/
def Account.unflown (a : Account) : Account := { a.stake with inFlight := 0 }

theorem unflown_of_stake {a b : Account} (same : b.stake = a.stake) : b.unflown = a.unflown := by
  unfold Account.unflown
  rw [same]

theorem unflown_isOpen {a b : Account} (same : b.unflown = a.unflown) : b.isOpen = a.isOpen := (congrArg Account.isOpen same :)

/-- Faces that join or leave an account. -/
theorem moves_faces {a b : Account} {c p q : Claim} (bears : a.Bears c) (changed : b.unflown = a.unflown)
    (held : q.held = p.held) (holders : q.holders = p.holders)
    (faces : b.inFlight.toNat + p.faces = a.inFlight.toNat + q.faces) : Moves a b p q := by
  have heldSame : b.held = a.held := (congrArg Account.held changed :)
  have holdersSame : b.holders = a.holders := (congrArg Account.holders changed :)
  have isFree : b.isFree = a.isFree := (congrArg Account.isFree changed :)
  have isCredit : b.isCredit = a.isCredit := (congrArg Account.isCredit changed :)
  have limit : b.limit = a.limit := (congrArg Account.limit changed :)
  refine ⟨by rw [heldSame, held], by rw [holdersSame, holders], faces, ?_, ?_, ?_⟩
  · rw [isFree, holdersSame]
    exact bears.free
  · rw [isCredit, isFree, limit]
    exact bears.limit
  · rw [unflown_isOpen changed, holdersSame]
    exact fun shut none => ⟨shut, none⟩

/-- The account a sheet is counted on changes, and no other. -/
theorem stake_onSheetAccount (f : Floor) (s : Sheet) (change : Account → Account) {k : Nat} (hk : k < 1024) :
    ((onSheetAccount i s change f).store.account k).stake =
      if (f.station i).context.accountOf s = some k then (change (f.store.account k)).stake else (f.store.account k).stake := by
  unfold onSheetAccount
  split
  · next n own =>
    rw [onStore_store, stake_editAccount _ _ _ hk, own]
    by_cases same : k = n
    · rw [if_pos same, if_pos (congrArg some same.symm)]
    · rw [if_neg same, if_neg fun equal => same (Option.some.inj equal).symm]
  · next own => rw [own, if_neg (fun equal => nomatch equal)]

/-- Work that changes the in-flight faces of accounts at most, and at one station the path at most. -/
theorem Ledger.atFaces {owed' : Nat → Claim} (h : Ledger owed f) (others : KeepsOthers i f g) (offset : g.rptWr = f.rptWr)
    (queue : g.waitQueue = f.waitQueue) (light : ∀ n, (owed' n).holders ≤ 8 ∧ (owed' n).faces ≤ 64)
    (fit : ∀ n, ((g.station i).claim n).Fit)
    (accounts : ∀ n, n < 1024 → (g.store.account n).unflown = (f.store.account n).unflown)
    (held : ∀ n, ((g.station i).claim n).held + (owed' n).held = ((f.station i).claim n).held + (owed n).held)
    (holders : ∀ n, ((g.station i).claim n).holders + (owed' n).holders = ((f.station i).claim n).holders + (owed n).holders)
    (faces : ∀ n, n < 1024 → (f.store.account n).inFlight.toNat = (f.claims n).faces + (owed n).faces →
      (g.store.account n).inFlight.toNat + (((f.station i).claim n).faces + (owed n).faces) =
        (f.store.account n).inFlight.toNat + (((g.station i).claim n).faces + (owed' n).faces)) : Ledger owed' g := by
  refine h.at others (offset ▸ h.good) light ?_ fit (fun n hn bears => ?_) fun n _ waits => .inl (queue ▸ waits)
  · rw [unflown_isOpen (accounts 0 (by decide))]
    exact h.house
  · exact moves_faces bears (accounts n hn) (held n) (holders n) (faces n hn bears.faces)

theorem inFlight_drop (a : Account) (k : Nat) : (a.dropInFlight k).inFlight.toNat = a.inFlight.toNat - k := by
  have := a.inFlight.isLt
  simp only [Account.dropInFlight, BitVec.toNat_ofNat]
  omega

/-- An account that a sheet leaves owes its faces no longer (R136). -/
theorem sheetGone_ledger {change : Account → Account}
    (drops : ∀ a, (change a).stake = (a.dropInFlight (facesOf s.cls)).stake)
    (h : Ledger ((f.station i).context.sheetsClaim (s :: rest)) f) :
    Ledger ((f.station i).context.sheetsClaim rest) (onSheetAccount i s change f) := by
  have owes : ∀ n, ((f.station i).context.sheetsClaim (s :: rest) n).faces =
      (if (f.station i).context.accountOf s = some n then facesOf s.cls else 0) +
        ((f.station i).context.sheetsClaim rest n).faces := fun n => facesOn_cons ..
  have same := onSheetAccount_station i s change f
  have floor := (onSheetAccount_keeps i s change f).1
  have offset : (onSheetAccount i s change f).rptWr = f.rptWr := by rw [floor]
  have queue : (onSheetAccount i s change f).waitQueue = f.waitQueue := by rw [floor]
  have stakes : ∀ n, n < 1024 → ((onSheetAccount i s change f).store.account n).stake =
      if (f.station i).context.accountOf s = some n then ((f.store.account n).dropInFlight (facesOf s.cls)).stake
      else (f.store.account n).stake := fun n hn => by
    rw [stake_onSheetAccount f s change hn, drops]
  refine h.atFaces (i := i) (fun j _ => same j) offset queue (fun n => ?_) (fun n => by rw [same]; exact h.fit i n)
    (fun n hn => ?_) (fun n => by rw [same]; rfl) (fun n => by rw [same]; rfl) fun n hn total => ?_
  · have := (h.light n).2
    rw [owes] at this
    exact ⟨Nat.zero_le _, by omega⟩
  · by_cases own : (f.station i).context.accountOf s = some n
    · have stake := stakes n hn
      rw [if_pos own] at stake
      exact (unflown_of_stake stake :)
    · have stake := stakes n hn
      rw [if_neg own] at stake
      exact unflown_of_stake stake
  · have flying : ((onSheetAccount i s change f).store.account n).inFlight.toNat = (f.store.account n).inFlight.toNat -
        if (f.station i).context.accountOf s = some n then facesOf s.cls else 0 := by
      by_cases own : (f.station i).context.accountOf s = some n
      · have stake := stakes n hn
        rw [if_pos own] at stake
        rw [stake_inFlight stake, inFlight_drop, if_pos own]
      · have stake := stakes n hn
        rw [if_neg own] at stake
        rw [stake_inFlight stake, if_neg own, Nat.sub_zero]
    rw [same, flying, total, owes]
    omega

/-! ### Loss -/

theorem pledges_lose (c : Context) (s : Sheet) (fate : Fate) : (c.lose s fate).pledges = c.pledges := by
  unfold Context.lose
  cases fate <;> cases s.target <;> try rfl
  exact pledges_modify _ _ _ fun _ => rfl

theorem holdsFunds_lose (c : Context) (s : Sheet) (fate : Fate) : (c.lose s fate).holdsFunds = c.holdsFunds := by
  unfold Context.lose
  cases fate <;> cases s.target <;> rfl

/-- A sheet on its way is lost (R117). -/
theorem loseSheet_ledger (h : Ledger ((f.station i).context.sheetsClaim (s :: rest)) f) :
    Ledger ((f.station i).context.sheetsClaim rest) (loseSheet i s f) := by
  have gone := sheetGone_ledger (change := (·.dropInFlight (facesOf s.cls))) (fun _ => rfl) h
  unfold loseSheet
  dsimp only
  refine (neutral_onStation fun n => ?_).ledger gone
  refine claim_pledged (holdsFunds_lose ..) (pledges_lose ..) ?_ n
  dsimp only
  split <;> rfl

theorem loseSheet_accounts (p : Sheet) :
    ((loseSheet i s f).station i).context.accountOf p = (f.station i).context.accountOf p := by
  unfold loseSheet
  dsimp only
  rw [station_onStation_self, onSheetAccount_station]
  exact accountOf_lose ..

/-- The sheets of a jam are lost one by one (R116 steps 3 and 4). -/
theorem loseToList_ledger (sheets : List Sheet) (h : Ledger ((f.station i).context.sheetsClaim sheets) f) :
    Ledger nothing (loseToList i sheets f) := by
  induction sheets generalizing f with
  | nil => exact h
  | cons s rest ih =>
    simp only [loseToList]
    refine ih ?_
    have lost := (neutral_onStation (i := i) (change := fun x =>
      { x with jam := { x.jam with lost := x.jam.lost ++ [⟨s, (f.station i).fateOf s⟩] } })).ledger (loseSheet_ledger h)
    rw [station_onStation_self]
    rwa [sheetsClaim_congr fun p _ => loseSheet_accounts p]

/-! ### Jams -/

/-- The sheets of the path are taken for lost; a funding wait that is given up claims nothing (R94, R116). -/
theorem jamming_ledger (few : extra.length ≤ 1) (sound : Sound e extra (f.station i))
    (h : Ledger ((f.station i).context.sheetsClaim extra) f) :
    Ledger ((f.station i).jamming.context.sheetsClaim ((f.station i).line.inPath ++ extra)) (f.onStation i Station.jamming) := by
  by_cases funding : (f.station i).state = .funding
  · have dead := sound.dead_of_state (.inr (.inr funding))
    have strays : ∀ p ∈ (f.station i).line.inPath ++ extra, p.target = .stray := fun p inside =>
      (sound.named p inside).stray (hasLive_of_dead dead)
    have none : ∀ c : Context, ∀ p ∈ (f.station i).line.inPath ++ extra, c.accountOf p = .none :=
      fun c p inside => accountOf_stray (strays p inside)
    rw [sheetsClaim_none (none _)]
    rw [sheetsClaim_none fun p inside => none _ p (List.mem_append_right _ inside)] at h
    refine (neutral_claim (sound.claim_dead dead) fun n => ?_).ledger h
    rw [jamming_funding funding]
    rfl
  · have context : (f.station i).jamming.context = (f.station i).context := by rw [jamming_other funding]
    have path : (f.station i).jamming.line.inPath = [] := (jamming_empty (f.station i)).1
    have room := sound.room
    have depth := sound.depth
    have claim : ∀ n, (f.station i).jamming.claim n =
        ⟨((f.station i).claim n).held, ((f.station i).claim n).holders, 0⟩ := fun n => by
      unfold Station.claim
      rw [context, path]
      rfl
    refine h.atFaces (i := i) (fun j other => station_onStation_other _ _ _ _ other) rfl rfl
      (sheetsClaim_light _ (by rw [List.length_append]; omega)) (fun n => ?_) (fun n _ => rfl) (fun n => ?_) (fun n => ?_)
      fun n _ total => ?_
    · rw [station_onStation_self, claim]
      exact ⟨(h.fit i n).1, Nat.zero_le _, fun _ => rfl⟩
    · rw [station_onStation_self, claim]
      rfl
    · rw [station_onStation_self, claim]
      rfl
    · rw [station_onStation_self, claim, context]
      have together := facesOn_append (f.station i).context (f.station i).line.inPath extra n
      simp only [Context.sheetsClaim, together, Nat.zero_add]
      rfl

theorem declareJam_ledger (cause : JamCause) (few : extra.length ≤ 1) (sound : Sound e extra (f.station i))
    (h : Ledger ((f.station i).context.sheetsClaim extra) f) : Ledger nothing (declareJam e i cause extra f) := by
  have parts := declareJam_eq e i cause extra f
  dsimp only at parts
  rw [parts]
  have lost := loseToList_ledger (i := i) (f := f.onStation i Station.jamming) _
    (by rw [station_onStation_self]; exact jamming_ledger few sound h)
  generalize loseToList i _ (f.onStation i Station.jamming) = q at *
  refine Neutral.ledger (f := q) ?_ lost
  refine (neutral_onStation fun n => ?_).trans ((neutral_produceJam _).trans neutral_onStation)
  refine claim_of (x := q.station i) (y := (q.station i).jamMarked e.partTime cause) ?_ ?_ rfl n <;> unfold Station.jamMarked <;>
    split <;> rfl

theorem jamCause_ledger (cause : JamCause) (few : extra.length ≤ 1) (service : inService e (f.station i) = true)
    (free : (f.station i).state ≠ .jammed) (sound : Sound e extra (f.station i))
    (h : Ledger ((f.station i).context.sheetsClaim extra) f) : Ledger nothing (jamCause e i cause extra f) := by
  unfold jamCause
  dsimp only
  rw [if_pos (by simp [service, free])]
  exact declareJam_ledger cause few sound h

theorem jamCause_pays (cause : JamCause) : Pays e i f (jamCause e i cause [] f) := by
  refine ⟨jamCause_keeps cause, fun sound h => ?_⟩
  unfold jamCause
  dsimp only
  split
  · exact declareJam_ledger cause (Nat.zero_le 1) sound h
  · exact h

end Work

end Sys2Proof.Machine
end

section
/-! SUPPORT. The events of the copier lines and the timers keep the books. -/

namespace Sys2Proof.Machine

open Sys2Proof
-- One proof after the other: proofs that wait for one another hold a thread each, and its memory.
set_option Elab.async false

section Work

variable {e : Mode} {i : StationId} {extra rest : List Sheet} {f g : Floor} {owed : Nat → Claim} {x y : Station} {s : Sheet}

/-! ### FEED -/

/-- A sheet charged to the last entry is counted on the account that this entry names (R7, R136). -/
theorem accountOf_last {entry : FundingEntry} {c : Context} (short : c.funding.length ≤ 3) (last : c.lastEntry = some entry)
    (target : s.target = c.lastTarget) : c.accountOf s = if entry.namesAccount then some entry.account else none := by
  have index : (Fin.ofNat 3 (c.funding.length - 1)).val = c.funding.length - 1 := by
    rw [Fin.val_ofNat]
    omega
  have found : c.funding[(Fin.ofNat 3 (c.funding.length - 1)).val]? = some entry := by
    rw [index, ← List.getLast?_eq_getElem?]
    exact last
  unfold Context.accountOf
  rw [target, Context.lastTarget]
  dsimp only
  rw [found]

theorem pledges_charge (c : Context) (price : Nat) (lag : Bool) : (c.charge price lag).pledges = c.pledges :=
  pledges_modify _ _ _ fun _ => rfl

theorem inFlight_add {a : Account} {k : Nat} (room : a.inFlight.toNat + k < 4294967296) :
    (a.addInFlight k).inFlight.toNat = a.inFlight.toNat + k := by
  simp only [Account.addInFlight, satAdd32, satAdd, Config.max32, BitVec.toNat_ofNat]
  omega

/-- The faces of a sheet that is fed are owed to its account (R136). -/
theorem sheetFed_ledger (h : Ledger nothing f) :
    Ledger ((f.station i).context.sheetsClaim [s]) (onSheetAccount i s (·.addInFlight (facesOf s.cls)) f) := by
  have same := onSheetAccount_station i s (·.addInFlight (facesOf s.cls)) f
  have floor := (onSheetAccount_keeps i s (·.addInFlight (facesOf s.cls)) f).1
  have offset : (onSheetAccount i s (·.addInFlight (facesOf s.cls)) f).rptWr = f.rptWr := by rw [floor]
  have queue : (onSheetAccount i s (·.addInFlight (facesOf s.cls)) f).waitQueue = f.waitQueue := by rw [floor]
  have stakes := fun n hn => stake_onSheetAccount (i := i) (k := n) f s (·.addInFlight (facesOf s.cls)) hn
  have owes : ∀ n, ((f.station i).context.sheetsClaim [s] n).faces =
      if (f.station i).context.accountOf s = some n then facesOf s.cls else 0 := fun n => facesOn_cons ..
  generalize onSheetAccount i s _ f = g at *
  refine h.atFaces (i := i) (fun j _ => same j) offset queue (sheetsClaim_light _ (Nat.le_of_ble_eq_true rfl))
    (fun n => by rw [same]; exact h.fit i n) (fun n hn => ?_) (fun n => by rw [same]; rfl) (fun n => by rw [same]; rfl)
    fun n hn total => ?_
  · have stake := stakes n hn
    split at stake
    · exact (unflown_of_stake stake :)
    · exact unflown_of_stake stake
  · have stake := stakes n hn
    have flying := (h.bounds n).2
    have faces := facesOf_le s.cls
    rw [same, owes]
    simp only [Claim.plus_faces] at flying
    split at stake
    · next own =>
      rw [stake_inFlight stake, inFlight_add (by omega), if_pos own]
      simp only [nothing, Claim.zero_faces]
      omega
    · next other =>
      rw [stake_inFlight stake, if_neg other]
      rfl

/-- A sheet charged to its session is on its way (R7, R80). -/
theorem chargeSession_ledger {entry : FundingEntry} (feed : (f.station i).context.feedEntry = some entry)
    (target : s.target = (f.station i).context.lastTarget) (sound : Sound e [] (f.station i)) (h : Ledger nothing f) :
    Ledger (((chargeSession e i entry s f).station i).context.sheetsClaim [s]) (chargeSession e i entry s f) := by
  have live := hasLive_of_feedEntry feed
  have last : (f.station i).context.lastEntry = some entry := by
    unfold Context.feedEntry at feed
    rwa [if_pos live] at feed
  have own := accountOf_last sound.funds.1 last target
  have fed := sheetFed_ledger (i := i) (s := s) h
  have edit : (if entry.namesAccount then f.onStore fun m => m.editAccount entry.account (·.addInFlight (facesOf s.cls)) else f) =
      onSheetAccount i s (·.addInFlight (facesOf s.cls)) f := by
    unfold onSheetAccount
    rw [own]
    by_cases names : entry.namesAccount = true
    · rw [if_pos names, if_pos names]
    · rw [if_neg names, if_neg names]
  have same := onSheetAccount_station i s (·.addInFlight (facesOf s.cls)) f
  unfold chargeSession
  dsimp only
  rw [edit]
  generalize onSheetAccount i s _ f = a at *
  generalize hg : a.onStation i (Station.onContext (Context.charge s.price !(f.station i).line.enable)) = g
  have station : g.station i = (f.station i).onContext (Context.charge s.price !(f.station i).line.enable) := by
    rw [← hg, station_onStation_self, same]
  have charged : Ledger ((f.station i).context.sheetsClaim [s]) g :=
    hg ▸ (neutral_pledged rfl (pledges_charge (a.station i).context s.price _) rfl).ledger fed
  have fedSound : Sound e [s] (g.station i) := station ▸ sound.sessionFed live target s.price _
  have named : (g.station i).context.Names s := fedSound.named s (List.mem_append_right _ (List.mem_singleton_self s))
  have accounts : ∀ p ∈ [s], ((fundingCheck e i g).station i).context.accountOf p = (f.station i).context.accountOf p :=
    fun p one => by
      obtain rfl := List.mem_singleton.mp one
      rw [fundingCheck_accountOf named, station]
      exact accountOf_pledges (pledges_charge ..) p
  rw [sheetsClaim_congr accounts]
  exact fundingCheck_ledger fedSound charged

theorem neutral_chargeStray : Neutral f (chargeStray e i s f) := by
  unfold chargeStray
  dsimp only
  split
  · exact (neutral_onStation).trans (neutral_closeStray _)
  · exact neutral_onStation

/-- A sheet charged as its target says is on its way (R7). -/
theorem chargeSheet_ledger (sound : Sound e [] (f.station i))
    (target : s.target = if (f.station i).context.feedEntry.isSome then (f.station i).context.lastTarget else .stray)
    (h : Ledger nothing f) : Ledger (((chargeSheet e i s f).station i).context.sheetsClaim [s]) (chargeSheet e i s f) := by
  unfold chargeSheet
  cases feed : (f.station i).context.feedEntry with
  | some entry =>
    rw [feed] at target
    exact chargeSession_ledger feed target sound h
  | none =>
    rw [feed] at target
    dsimp only
    rw [sheetsClaim_none fun p one => by rw [List.mem_singleton.mp one]; exact accountOf_stray target]
    exact neutral_chargeStray.ledger h

/-- A sheet on its way goes to the path, is lost at feed, or comes with a jam (R8, R118). -/
theorem placeSheet_ledger (runs : e.runs = true) (service : (f.station i).state ≠ .out) (sound : Sound e [s] (f.station i))
    (h : Ledger ((f.station i).context.sheetsClaim [s]) f) : Ledger nothing (placeSheet e i s f) := by
  have placed := placeSheet_sound runs service sound
  have inside : inService e (f.station i) = true := by simp [inService, runs, service]
  unfold placeSheet at placed ⊢
  dsimp only at placed ⊢
  split at placed
  · next room =>
    rw [if_pos room]
    have claim : ∀ n, (((f.station i).onLine fun l => { l with inPath := l.inPath ++ [s] }).claim n) =
        ⟨((f.station i).claim n).held, ((f.station i).claim n).holders,
          ((f.station i).claim n).faces + ((f.station i).context.sheetsClaim [s] n).faces⟩ := fun n =>
      congrArg (Claim.mk _ _) (facesOn_append (f.station i).context (f.station i).line.inPath [s] n)
    refine h.atFaces (i := i) (fun j other => station_onStation_other _ _ _ _ other) rfl rfl
      (fun _ => ⟨Nat.zero_le _, Nat.zero_le _⟩) placed.fit (fun n _ => rfl) (fun n => ?_) (fun n => ?_) fun n _ total => ?_ <;>
      rw [station_onStation_self, claim]
    · rfl
    · rfl
    · rw [onStation_store, total]
      simp only [nothing, Claim.zero_faces]
      omega
  · next full =>
    rw [if_neg full]
    split
    · exact loseSheet_ledger h
    · next free => exact jamCause_ledger .overfull (Nat.le_refl 1) inside free sound h

theorem neutral_noteFeed (cls : SheetClass) : Neutral f (noteFeed e i cls f) := by
  unfold noteFeed
  exact neutral_pledged rfl rfl rfl

theorem feedInService_pays (cls : SheetClass) (service : inService e (f.station i) = true) :
    Pays e i f (feedInService e i cls f) := by
  refine ⟨feedInService_keeps cls service, fun sound h => ?_⟩
  obtain ⟨runs, state⟩ : e.runs = true ∧ (f.station i).state ≠ .out := by simpa [inService] using service
  obtain ⟨books, context⟩ := noteFeed_books e i cls f
  have noted : Sound e [] ((noteFeed e i cls f).station i) := sound.congr books rfl
  have target : (sheetOf e i cls f).target = if ((noteFeed e i cls f).station i).context.feedEntry.isSome then
      ((noteFeed e i cls f).station i).context.lastTarget else .stray := by rw [context]; exact sheetOf_target ..
  obtain ⟨charged, service'⟩ := chargeSheet_sound noted (by rw [books.state]; exact state) target
  have placed := placeSheet_ledger runs service' charged (chargeSheet_ledger noted target ((neutral_noteFeed cls).ledger h))
  unfold feedInService
  dsimp only
  split
  · exact (neutral_closeStray .stop).ledger placed
  · exact placed

theorem feedTaken_pays (size colour sides : Bool) : Pays e i f (feedTaken i size colour sides e f) := by
  unfold feedTaken feedEvent
  dsimp only
  split
  · split
    · next service => exact (Pays.neutral keeps_onStation neutral_onStation).trans (feedInService_pays _ service)
    · exact .neutral keeps_onStation neutral_onStation
  · exact .refl f

/-! ### EXIT -/

theorem neutral_showDelivery : Neutral f (showDelivery i f) := by
  unfold showDelivery
  dsimp only
  split
  · exact neutral_offer _
  · exact neutral_showRemaining

/-- A sheet on its way is delivered (R11, R12, R136). -/
theorem deliverSheet_ledger (h : Ledger ((f.station i).context.sheetsClaim [s]) f) : Ledger nothing (deliverSheet i s f) := by
  unfold deliverSheet
  split
  · next stray =>
    rw [sheetsClaim_none fun p one => by rw [List.mem_singleton.mp one]; exact accountOf_stray stray] at h
    exact (neutral_onStation).ledger h
  · dsimp only
    exact ((neutral_onStation).trans neutral_showDelivery).ledger (sheetGone_ledger (rest := []) (fun _ => rfl) h)

theorem claim_countRecovery (x : Station) (n : Nat) : x.countRecovery.claim n = x.claim n := by
  refine claim_of ?_ ?_ ?_ n <;> unfold Station.countRecovery <;> dsimp only <;> split_ifs <;> rfl

theorem exitInPath_pays (path : (f.station i).line.inPath = s :: rest) : Pays e i f (exitInPath e i s rest f) := by
  refine ⟨exitInPath_keeps path, fun sound h => ?_⟩
  unfold exitInPath
  dsimp only
  have taken : Sound e [s] ((f.onStation i (Station.onLine fun l => { l.matchExit e.partTime with inPath := rest })).station i) := by
    rw [station_onStation_self]
    exact sound.taken path rfl
  refine (neutral_onStation (claim_countRecovery _)).ledger (deliverSheet_ledger ?_)
  have claim : ∀ n, (f.station i).claim n = ⟨((f.station i).claim n).held, ((f.station i).claim n).holders,
      ((f.station i).context.sheetsClaim [s] n).faces + (f.station i).context.facesOn rest n⟩ := fun n => by
    refine congrArg (Claim.mk _ _) ?_
    rw [path, facesOn_cons]
    exact congrArg (· + _) (facesOn_cons (f.station i).context s [] n).symm
  refine h.atFaces (i := i) (fun j other => station_onStation_other _ _ _ _ other) rfl rfl
    (sheetsClaim_light _ (Nat.le_of_ble_eq_true rfl)) taken.fit (fun n _ => rfl) (fun n => ?_) (fun n => ?_) fun n _ total => ?_ <;>
    rw [station_onStation_self]
  · rfl
  · rfl
  · rw [onStation_store, total, claim n]
    simp only [Station.claim, Context.claim, nothing, Claim.zero_faces, Station.onLine]
    omega

theorem pledges_recover (c : Context) (l : LostSheet) : (c.recover l).pledges = c.pledges := by
  unfold Context.recover
  split
  · exact pledges_modify _ _ _ fun _ => rfl
  · rfl
  · rfl

theorem holdsFunds_recover (c : Context) (l : LostSheet) : (c.recover l).holdsFunds = c.holdsFunds := by
  unfold Context.recover
  split <;> rfl

/-- A late delivery that is booked changes neither stakes nor claims (R124). -/
theorem neutral_lateBooked (l : LostSheet) :
    Neutral f (showDelivery i ((onSheetAccount i l.sheet (·.addDelivered l.sheet.cls (facesOf l.sheet.cls)) f).onStation i
      (Station.onContext fun c => (c.recover l).deliver l.sheet.cls))) := by
  have booked : Neutral f (onSheetAccount i l.sheet (·.addDelivered l.sheet.cls (facesOf l.sheet.cls)) f) := by
    unfold onSheetAccount
    split
    · exact neutral_editAccount fun _ => rfl
    · exact .refl f
  exact booked.trans ((neutral_pledged (holdsFunds_recover _ l) (pledges_recover _ l) rfl).trans neutral_showDelivery)

theorem exitLate_pays {l : LostSheet} {rest : List LostSheet} (lost : (f.station i).jam.lost = l :: rest) :
    Pays e i f (exitLate e i l rest f) := by
  refine ⟨exitLate_keeps lost, fun sound h => ?_⟩
  unfold exitLate
  dsimp only
  have path := matchExit_inPath e.partTime (f.station i).line
  generalize late : f.onStation i (fun x => (x.onLine (LineUnit.matchExit e.partTime)).onJam fun j => { j with lost := rest }) = g
  have station : g.station i =
      ((f.station i).onLine (LineUnit.matchExit e.partTime)).onJam fun j => { j with lost := rest } := by
    rw [← late, station_onStation_self]
  have left : Ledger nothing g := late ▸ (neutral_pledged rfl rfl path).ledger h
  have booked := (neutral_lateBooked (i := i) (f := g) l).ledger left
  have shown : l.fate ≠ .stray → ∀ change, Sound e [] ((showDelivery i ((onSheetAccount i l.sheet change g).onStation i
      (Station.onContext fun c => (c.recover l).deliver l.sheet.cls))).station i) := fun session change => by
    refine showDelivery_keeps.sound ?_
    rw [station_onStation_self, onSheetAccount_station, station]
    exact (sound.recovered lost session l.sheet.cls (j := { (f.station i).jam with lost := rest }) rfl rfl).congr
      { SameBooks.refl _ with path := path } rfl
  unfold deliverLate
  split
  · exact (neutral_onStation).ledger left
  all_goals
    next fate =>
    dsimp only
    split
    · exact fundingCheck_ledger (shown (by rw [fate]; exact fun c => nomatch c) _) booked
    · exact booked

theorem exitInService_pays : Pays e i f (exitInService e i f) := by
  have orphaned : Pays e i f (f.onStation i (Station.onLine LineUnit.orphan)) := .neutral keeps_onStation neutral_onStation
  unfold exitInService
  dsimp only
  split
  · exact exitInPath_pays ‹_›
  · split
    · exact exitLate_pays ‹_›
    · exact orphaned
  · exact orphaned

theorem exitTaken_pays : Pays e i f (exitTaken i e f) := by
  have level : Pays e i f (f.onStation i fun x => (x.takeExitLevel true).onLine LineUnit.countExit) :=
    .neutral keeps_onStation neutral_onStation
  unfold exitTaken exitEvent
  dsimp only
  split
  · split
    · exact level.trans exitInService_pays
    · exact level
  · exact .refl f

/-! ### FAULT and inactive levels -/

theorem faultTaken_pays (active : Bool) : Pays e i f (faultTaken i active e f) := by
  have level : Pays e i f (f.onStation i (Station.takeFaultLevel active)) := .neutral keeps_onStation neutral_onStation
  unfold faultTaken faultEvent
  dsimp only
  split
  · split_ifs
    · exact level
    · exact level.trans (jamCause_pays .copier)
    · exact level.trans (.neutral keeps_onStation neutral_onStation)
    · exact level
  · exact .refl f

theorem inactiveTaken_pays (line : PulseLine) : Pays e i f (inactiveTaken i line e f) := by
  refine .neutral (inactiveTaken_keeps line) ?_
  unfold inactiveTaken
  cases line <;> dsimp only <;> split
  · exact neutral_onStation
  · exact .refl f
  · exact neutral_onStation
  · exact .refl f

/-! ### Timers -/

theorem transitDue_pays : Pays e i f (transitDue i e f) := by
  unfold transitDue
  split
  · exact jamCause_pays .transit
  · exact .refl f

theorem lowDue_pays : Pays e i f (lowDue i e f) := by
  unfold lowDue
  dsimp only
  split
  · exact endIfLive_pays .lowTimeout
  · exact .refl f

/-- A funding wait given up at a station whose context waits for funds (R92). -/
theorem giveUpFunding_pays_of (condition : (f.station i).context.condition = .funding) : Pays e i f (giveUpFunding e i f) :=
  ⟨giveUpFunding_of_condition condition, fun sound => (giveUpFunding_pays (sound.state_of_funding condition)).books sound⟩

theorem graceDue_pays : Pays e i f (graceDue i e f) := by
  unfold graceDue
  dsimp only
  split_ifs
  · exact endSession_pays .linkLost ‹_›
  · exact giveUpFunding_pays_of ‹_›
  · exact .refl f
  · exact .refl f

/-- A refused card's wait is given up behind its SHOW and EJECT (R96, R107, R109). -/
theorem refusedWait_pays (msg : Message) (a b : Int) (condition : (f.station i).context.condition = .funding) :
    Pays e i f (giveUpFunding e i (showAndEject i msg a b f)) := by
  refine (Pays.neutral (showAndEject_keeps msg a b) (neutral_showAndEject ..)).trans (giveUpFunding_pays_of ?_)
  obtain ⟨l, station⟩ := showAndEject_station i msg a b f
  rw [station]
  exact condition

theorem cancelAuth_pays : Pays e i f (cancelAuth i f) := .neutral cancelAuth_keeps neutral_cancelAuth

theorem authDue_pays : Pays e i f (authDue i e f) := by
  refine ⟨authDue_keeps, fun h books => ?_⟩
  unfold authDue
  dsimp only
  split_ifs with asked first
  · simp only [Bool.and_eq_true, beq_iff_eq] at asked
    have condition : (f.station i).context.condition = .funding := by
      rcases h.request with none | ⟨-, c⟩ | ⟨kind, -⟩
      · rw [none] at asked; cases asked.1
      · exact c
      · rw [kind] at first; cases first
    refine (cancelAuth_pays.trans (refusedWait_pays .declined 0 0 ?_)).books h books
    rw [cancelAuth, station_onStation_self]
    exact condition
  · exact (neutral_cancelAuth.trans ((neutral_onStation).trans (neutral_offer _))).ledger books
  · exact books

theorem silenceDue_pays : Pays e i f (silenceDue i e f) := by
  unfold silenceDue
  dsimp only
  split
  · exact .neutral linkDown_keeps neutral_linkDown
  · exact .refl f

theorem busyDue_pays : Pays e i f (busyDue i e f) := by
  unfold busyDue
  dsimp only
  split
  · exact .neutral linkDown_keeps neutral_linkDown
  · exact .refl f

theorem gapDue_pays : Pays e i f (gapDue i e f) := by
  unfold gapDue
  dsimp only
  split
  · exact .neutral keeps_onStation neutral_onStation
  · exact .refl f

theorem enterRecovery_ledger (sound : Sound e [] (f.station i)) (live : (f.station i).context.condition = .live)
    (report : (f.station i).jam.pendingReport = none) (books : Ledger nothing f) : Ledger nothing (enterRecovery e i f) := by
  unfold enterRecovery
  dsimp only
  generalize entered : f.onStation i _ = g
  have recovering : Sound e [] (g.station i) := by
    rw [← entered, station_onStation_self]
    exact sound.goesOn live (.inr (.inr rfl)) (.inr ⟨rfl, rfl⟩) report
  exact fundingCheck_ledger (showRemaining_keeps.sound recovering)
    (neutral_showRemaining.ledger (entered ▸ (neutral_onStation).ledger books))

theorem neutral_endAtJamLimit (live : (f.station i).context.condition = .live) : Neutral f (endAtJamLimit e i f) := by
  unfold endAtJamLimit
  dsimp only
  exact (neutral_onStation).trans ((neutral_endSession .jamLimit (by rw [station_onStation_self]; exact live)).trans neutral_onStation)

theorem afterJam_pays (runs : e.runs = true) (jammed : (f.station i).state = .jammed)
    (report : (f.station i).jam.pendingReport = none) : Pays e i f (afterJam e i f) := by
  refine ⟨afterJam_keeps runs jammed report, fun h books => ?_⟩
  have final : Ledger nothing (f.onStation i Station.finaliseLost) := (neutral_onStation).ledger books
  have notFunding : (f.station i).context.condition ≠ .funding := by simpa [jammed, Stands] using h.stands
  have leave : (f.station i).context.condition = .empty ∨ (f.station i).context.condition = .abandoned →
      Ledger nothing (if (f.station i).outPending ≠ .none then enterOut e i (f.station i).outPending (f.onStation i Station.finaliseLost)
        else reachIdle e i (f.onStation i Station.finaliseLost)) := fun context => by
    have free : Sound e [] { (f.onStation i Station.finaliseLost).station i with state := .idle, nextCard := none } := by
      rw [station_onStation_self]
      exact h.finaliseLost.freed context rfl report
    split
    · exact enterOut_ledger _ free final
    · exact reachIdle_ledger runs free final
  unfold afterJam
  dsimp only
  split
  · split
    · exact (neutral_endAtJamLimit ‹_›).ledger books
    · exact enterRecovery_ledger h ‹_› report books
  · exact (neutral_onStation).ledger books
  · exact (neutral_onStation).ledger books
  · exact leave (.inl ‹_›)
  · exact absurd ‹_› notFunding
  · exact leave (.inr ‹_›)

theorem jamDue_pays : Pays e i f (jamDue i e f) := by
  unfold jamDue
  split
  · next due =>
    simp only [Station.jamOver, Bool.and_eq_true, beq_iff_eq, Option.isNone_iff_eq_none] at due
    obtain ⟨runs, ⟨⟨jammed, -⟩, -⟩, report⟩ := due
    exact afterJam_pays runs jammed report
  · exact .refl f

theorem recoveryDue_pays : Pays e i f (recoveryDue i e f) := by
  refine .neutral recoveryDue_keeps ?_
  unfold recoveryDue
  dsimp only
  split
  · exact neutral_onStation
  · exact .refl f

/-! ### The terminal -/

theorem onLink_pays (change : Station → LinkUnit → LinkUnit) : Pays e i f (f.onStation i fun x => x.onLink (change x)) :=
  .neutral (onLink_keeps change) neutral_onStation

theorem pays_terminal (e : Mode) (i : StationId) : Terminal e i (Pays e i) where
  refl := .refl
  trans := .trans
  link _ := onLink_pays
  notice event cause _ := .neutral (stationNotice_keeps i event cause) (neutral_stationNotice ..)
  refusal msg a b _ := .neutral (showAndEject_keeps msg a b) (neutral_showAndEject ..)
  cardIn card _ := sessionCardIn_pays card
  cardOut _ := sessionCardOut_pays
  keyEnd _ := sessionKeyEnd_pays
  keyBalance _ := sessionKeyBalance_pays

end Work

end Sys2Proof.Machine
end

section
/-! SUPPORT. Closes, settlements and the wait queue keep the books: a settlement releases what its entries held (R156), and an account
is freed when nothing is claimed of it (R144). -/

namespace Sys2Proof.Machine

open Sys2Proof
-- One proof after the other: proofs that wait for one another hold a thread each, and its memory.
set_option Elab.async false

section Work

variable {e : Mode} {i : StationId} {f g : Floor} {owed : Nat → Claim} {x y : Station} {n : Nat}

/-! ### A request on one account -/

/-- A request that leaves an account's amounts as they are, and its new state and limit such that the books still hold; `waits` says
that a close of the account waits. -/
structure Restates (waits : Prop) (n : Nat) (a b : Account) : Prop where
  held : b.held = a.held
  holders : b.holders = a.holders
  inFlight : b.inFlight = a.inFlight
  free : b.isFree = true → b.holders.toNat = 0
  limit : b.isCredit = true → b.isFree = false → b.limit.toNat ≤ 2147483647
  house : n = 0 → b.isOpen = true
  closes : waits → b.isOpen = false

theorem edit_ledger {change : Account → Account}
    (restates : n < 1024 → Restates (.close n ∈ f.waitQueue) n (f.store.account n) (change (f.store.account n)))
    (h : Ledger owed f) : Ledger owed (f.onStore fun m => m.editAccount n change) := by
  have others : ∀ k, k < 1024 → k ≠ n → ((f.onStore fun m => m.editAccount n change).store.account k).stake =
      (f.store.account k).stake := fun k hk other => by rw [onStore_store, stake_editAccount _ _ _ hk, if_neg other]
  have own : n < 1024 → ((f.onStore fun m => m.editAccount n change).store.account n).stake =
      (change (f.store.account n)).stake := fun hn => by rw [onStore_store, stake_editAccount _ _ _ hn, if_pos rfl]
  have claims : ∀ k, (f.onStore fun m => m.editAccount n change).claims k = f.claims k := fun _ => rfl
  generalize hg : f.onStore (fun m => m.editAccount n change) = g at *
  have station : ∀ j, g.station j = f.station j := fun j => by rw [← hg, station_onStore]
  have queue : g.waitQueue = f.waitQueue := by rw [← hg, onStore_waitQueue]
  refine ⟨by rw [← hg]; exact h.good, h.light, ?_, fun j k => by rw [station]; exact h.fit j k, fun k hk => ?_, fun k hk waits => ?_⟩
  · by_cases same : 0 = n
    · have zero : n < 1024 := by omega
      have stake := own zero
      rw [← same] at stake restates
      rw [stake_isOpen stake]
      exact (restates (by decide)).house rfl
    · rw [stake_isOpen (others 0 (by decide) same)]
      exact h.house
  · obtain ⟨held, holders, faces, free, limit⟩ := h.each k hk
    rw [claims]
    by_cases same : k = n
    · subst same
      obtain ⟨held', holders', faces', free', limit', -, -⟩ := restates hk
      have stake := own hk
      refine ⟨by rw [stake_held stake, held', held], by rw [stake_holders stake, holders', holders],
        by rw [stake_inFlight stake, faces', faces], ?_, ?_⟩
      · rw [stake_isFree stake, stake_holders stake]
        exact free'
      · rw [stake_isCredit stake, stake_isFree stake, stake_limit stake]
        exact limit'
    · have stake := others k hk same
      refine ⟨by rw [stake_held stake, held], by rw [stake_holders stake, holders], by rw [stake_inFlight stake, faces], ?_, ?_⟩
      · rw [stake_isFree stake, stake_holders stake]
        exact free
      · rw [stake_isCredit stake, stake_isFree stake, stake_limit stake]
        exact limit
  · rw [queue] at waits
    obtain ⟨shut, none⟩ := h.closes k hk waits
    by_cases same : k = n
    · subst same
      have stake := own hk
      obtain ⟨-, holders', -, -, -, -, closes⟩ := restates hk
      rw [stake_isOpen stake, stake_holders stake, holders']
      exact ⟨closes waits, none⟩
    · have stake := others k hk same
      rw [stake_isOpen stake, stake_holders stake]
      exact ⟨shut, none⟩

/-! ### Closes -/

/-- Nothing is claimed of an account without holders. -/
theorem claims_unheld (h : Ledger owed f) (none : (f.claims n).holders = 0) : f.claims n = .zero := by
  have holders := overStations_eq_zero.mp none
  have held : (f.claims n).held = 0 := overStations_eq_zero.mpr fun j => by
    have list := List.eq_nil_of_length_eq_zero (holders j)
    simp only [Station.claim, Context.claim, entriesClaim]
    rw [list]
    rfl
  have faces : (f.claims n).faces = 0 := overStations_eq_zero.mpr fun j => (h.fit j n).2.2 (holders j)
  exact Claim.ext held none faces

/-- A close frees an account without holders, other than account 0 (R144). -/
theorem writeClose_ledger {byRelease : Bool} (fit : fits e f 64 = true) (other : n ≠ 0)
    (none : n < 1024 → (f.store.account n).holders.toNat = 0) (h : Ledger nothing f) :
    Ledger nothing (writeClose e n byRelease f) := by
  have size : 8 + layoutSize (closedBody n byRelease (f.store.account n)) = 64 := by rw [closedBody_size]
  have fitBody : fits e f (8 + layoutSize (closedBody n byRelease (f.store.account n))) = true := by rw [size]; exact fit
  have written : Neutral f (writeReport e .accountClosed 0 (closedBody n byRelease (f.store.account n)) f) :=
    neutral_writeReport (by rw [closedBody_size]) fitBody
  have account : (writeReport e .accountClosed 0 (closedBody n byRelease (f.store.account n)) f).store.account n = f.store.account n :=
    account_writeReport h.good .accountClosed 0 fitBody n
  have books := written.ledger h
  unfold writeClose
  generalize writeReport e .accountClosed 0 (closedBody n byRelease (f.store.account n)) f = w at *
  refine edit_ledger (fun hn => ?_) books
  have bears := books.each n hn
  rw [plus_nothing, account] at bears
  rw [account]
  have zero := claims_unheld (n := n) books (by rw [← bears.holders]; exact none hn)
  rw [zero] at bears
  obtain ⟨held, holders, faces, -, -⟩ := bears
  exact {
    held := BitVec.eq_of_toNat_eq held.symm
    holders := BitVec.eq_of_toNat_eq holders.symm
    inFlight := BitVec.eq_of_toNat_eq faces.symm
    free := fun _ => rfl
    limit := fun _ used => nomatch used
    house := fun same => absurd same other
    closes := fun _ => rfl }

/-- An account that has reached its close is closed or waits for room (R144, R178). -/
theorem produceClose_ledger (closing : (f.store.account n).isOpen = false) (none : (f.store.account n).holders.toNat = 0)
    (h : Ledger nothing f) : Ledger nothing (produceClose e n f) := by
  have other : n ≠ 0 := fun same => by
    rw [same, h.house] at closing
    cases closing
  unfold produceClose
  split
  · next may => exact writeClose_ledger (fits_of_mayWrite may) other (fun _ => none) h
  · refine ⟨h.good, h.light, h.house, h.fit, h.each, fun k hk waits => ?_⟩
    rcases List.mem_append.mp waits with before | own
    · exact h.closes k hk before
    · obtain rfl : k = n := by simpa using own
      exact ⟨closing, none⟩

theorem closeReleased_ledger (en : FundingEntry) (h : Ledger nothing f) : Ledger nothing (closeReleased e f en) := by
  rw [closeReleased_eq]
  split
  · next due =>
    obtain ⟨-, reached⟩ := due
    simp only [Account.closes, Account.isClosing, Bool.and_eq_true, beq_iff_eq] at reached
    obtain ⟨closing, none⟩ := reached
    exact produceClose_ledger (by simp [Account.isOpen, closing]) (by rw [none]; rfl) h
  · exact h

theorem foldl_closeReleased_ledger (funding : List FundingEntry) (h : Ledger nothing f) :
    Ledger nothing (funding.foldl (closeReleased e) f) := by
  induction funding generalizing f with
  | nil => exact h
  | cons en rest ih => exact ih (closeReleased_ledger en h)

/-- A report looks at no station. -/
theorem writeReport_onStation (kind : ReportKind) (station : Nat) (body : List (Nat × Nat)) (change : Station → Station) (f : Floor) :
    writeReport e kind station body (f.onStation i change) = (writeReport e kind station body f).onStation i change := by
  simp only [writeReport, Floor.raise, onStation_store, onStation_rptWr, onStation_irqFlag]
  rfl

theorem writeClose_onStation {byRelease : Bool} (change : Station → Station) (f : Floor) :
    writeClose e n byRelease (f.onStation i change) = (writeClose e n byRelease f).onStation i change := by
  unfold writeClose
  rw [writeReport_onStation, onStation_store]
  generalize writeReport e _ _ _ f = w
  rfl

/-- The closes look at no station. -/
theorem closeReleased_onStation (change : Station → Station) (f : Floor) (en : FundingEntry) :
    closeReleased e (f.onStation i change) en = (closeReleased e f en).onStation i change := by
  have room : mayWrite e (f.onStation i change) 64 = mayWrite e f 64 := rfl
  rw [closeReleased_eq, closeReleased_eq, onStation_store]
  unfold produceClose
  rw [room, writeClose_onStation]
  split
  · split
    · rfl
    · rfl
  · rfl

theorem foldl_closeReleased_onStation (change : Station → Station) (funding : List FundingEntry) (f : Floor) :
    funding.foldl (closeReleased e) (f.onStation i change) = (funding.foldl (closeReleased e) f).onStation i change := by
  induction funding generalizing f with
  | nil => rfl
  | cons en rest ih =>
    rw [List.foldl_cons, List.foldl_cons, closeReleased_onStation, ih]

/-! ### Settlement -/

/-- An account less its held amount and holders. -/
def Account.unheld (a : Account) : Account := { a.stake with held := 0, holders := 0 }

/-- What the blocks of a settlement release is what its entries claim (R156). -/
theorem settledBy_releases (funding : List FundingEntry) (a : Account) (held : (entriesClaim funding n).held ≤ a.held.toNat)
    (holders : (entriesClaim funding n).holders ≤ a.holders.toNat) :
    (settledBy funding n a).held.toNat + (entriesClaim funding n).held = a.held.toNat ∧
      (settledBy funding n a).holders.toNat + (entriesClaim funding n).holders = a.holders.toNat ∧
      (settledBy funding n a).unheld = a.unheld := by
  induction funding generalizing a with
  | nil => exact ⟨rfl, rfl, rfl⟩
  | cons en rest ih =>
    have apart := entriesClaim_append [en] rest n
    rw [List.singleton_append, entriesClaim_one] at apart
    rw [show settledBy (en :: rest) n a = settledBy rest n (settledBy [en] n a) from rfl]
    by_cases own : en.namesAccount = true ∧ en.account = n
    · rw [if_pos own] at apart
      have one : settledBy [en] n a =
          { a.charged (settledAmount en.committed) with held := a.held - BitVec.ofNat 32 en.hold, holders := a.holders - 1 } :=
        if_pos ⟨(namesAccount_iff en).mp own.1, own.2⟩
      have sumHeld := congrArg Claim.held apart
      have sumHolders := congrArg Claim.holders apart
      simp only [Claim.plus_held, Claim.plus_holders] at sumHeld sumHolders
      have heldNow : (settledBy [en] n a).held.toNat = a.held.toNat - en.hold := by
        have := a.held.isLt
        rw [one]
        simp only [BitVec.toNat_sub, BitVec.toNat_ofNat]
        omega
      have holdersNow : (settledBy [en] n a).holders.toNat = a.holders.toNat - 1 := by
        have := a.holders.isLt
        rw [one]
        simp only [BitVec.toNat_sub, show (1 : BitVec 8).toNat = 1 from rfl]
        omega
      obtain ⟨heldRest, holdersRest, kept⟩ := ih (settledBy [en] n a) (by omega) (by omega)
      refine ⟨by omega, by omega, kept.trans ?_⟩
      rw [one]
      rfl
    · rw [if_neg own, Claim.zero_plus] at apart
      have none : settledBy [en] n a = a := if_neg fun h => own ⟨(namesAccount_iff en).mpr h.1, h.2⟩
      rw [apart] at held holders ⊢
      rw [none]
      exact ih a held holders

/-- A settlement that is applied and whose context is cleared keeps the books (R156, R157). -/
theorem sessionApplied_ledger (fit : fits e f (8 + layoutSize (sessionBody (f.station i).context)) = true)
    (settling : (f.station i).context.condition = .settling) (sound : Sound e [] (f.station i)) (h : Ledger nothing f) :
    Ledger nothing ((sessionApplied e i f).onStation i Station.clearContext) := by
  have written : Neutral f (writeReport e .settlement (stationNumber i) (sessionBody (f.station i).context) f) :=
    neutral_writeReport (by have := settlementLength_fours (f.station i).context; omega) fit
  have same : ∀ j, (writeReport e .settlement (stationNumber i) (sessionBody (f.station i).context) f).station j = f.station j :=
    fun j => station_writeReport ..
  have books := written.ledger h
  unfold sessionApplied
  generalize writeReport e .settlement (stationNumber i) (sessionBody (f.station i).context) f = w at *
  have live : (f.station i).context.holdsFunds = true := by simp [Context.holdsFunds, settling]
  have dead : (f.station i).context.hasLiveSession = false := by simp [Context.hasLiveSession, settling]
  have strays := sound.strays dead
  have before : ∀ k, (w.station i).claim k = entriesClaim (f.station i).context.funding k := fun k => by
    rw [same, claim_live live, facesOn_zero fun p inside => by rw [accountOf_stray (strays p inside)]; exact fun h => nomatch h]
    rfl
  have after : ∀ k, (f.station i).clearContext.claim k = .zero := fun k => by
    refine claim_strays ?_ ?_ k
    · rfl
    · exact strays
  refine books.at (i := i) (fun j other => ?_) books.good books.light ?_ (fun k => ?_) (fun k hk bears => ?_) fun k _ waits => .inl waits
  · rw [station_onStation_other _ _ _ _ other, station_onStore]
  · rw [onStation_store, onStore_store, account_applyEntries _ _ (by decide)]
    unfold Account.isOpen
    rw [settledBy_state]
    exact books.house
  · rw [station_onStation_self, station_onStore, same, after]
    exact Claim.fit_zero
  · rw [onStation_store, onStore_store, account_applyEntries _ _ hk, station_onStation_self, station_onStore, before, same, after,
      plus_nothing, plus_nothing]
    have inside := le_overStations (fun j => ((w.station j).claim k).held) i
    have insideHolders := le_overStations (fun j => ((w.station j).claim k).holders) i
    simp only [before] at inside insideHolders
    rw [plus_nothing] at bears
    have heldSum : _ = (w.claims k).held := bears.held
    have holdersSum : _ = (w.claims k).holders := bears.holders
    obtain ⟨held, holders, kept⟩ := settledBy_releases (n := k) (f.station i).context.funding (w.store.account k)
      (heldSum ▸ inside) (holdersSum ▸ insideHolders)
    generalize settledBy (f.station i).context.funding k (w.store.account k) = b at *
    have isFree : b.isFree = (w.store.account k).isFree := (congrArg Account.isFree kept :)
    have isOpen : b.isOpen = (w.store.account k).isOpen := (congrArg Account.isOpen kept :)
    have isCredit : b.isCredit = (w.store.account k).isCredit := (congrArg Account.isCredit kept :)
    have limit : b.limit = (w.store.account k).limit := (congrArg Account.limit kept :)
    have inFlight : b.inFlight = (w.store.account k).inFlight := (congrArg Account.inFlight kept :)
    refine ⟨by rw [held]; rfl, by rw [holders]; rfl, ?_, fun free => ?_, ?_, fun shut none => ?_⟩
    · rw [inFlight]
      rfl
    · have := bears.free (isFree ▸ free)
      omega
    · rw [isCredit, isFree, limit]
      exact bears.limit
    · exact ⟨by rw [isOpen, shut], by omega⟩

theorem sessionReleased_ledger (fit : fits e f (8 + layoutSize (sessionBody (f.station i).context)) = true)
    (settling : (f.station i).context.condition = .settling) (sound : Sound e [] (f.station i)) (h : Ledger nothing f) :
    Ledger nothing (sessionReleased e i f) := by
  unfold sessionReleased
  rw [← foldl_closeReleased_onStation]
  exact foldl_closeReleased_ledger _ (sessionApplied_ledger fit settling sound h)

/-- A settled station stays JAMMED, goes OUT or reaches IDLE (R157 step 4). -/
theorem moveOn_ledger (runs : e.runs = true)
    (free : (f.station i).state ≠ .jammed → Sound e [] { f.station i with state := .idle, nextCard := none })
    (h : Ledger nothing f) : Ledger nothing (moveOn e i f) := by
  unfold moveOn
  dsimp only
  split
  · exact h
  · split
    · exact enterOut_ledger _ (free ‹_›) h
    · exact reachIdle_ledger runs (free ‹_›) h

/-- A settlement finished keeps the books (R155 to R157). -/
theorem writeSession_ledger (fit : fits e f (8 + layoutSize (sessionBody (f.station i).context)) = true)
    (settling : (f.station i).context.condition = .settling) (all : AllSound e f) (h : Ledger nothing f) :
    Ledger nothing (writeSession e i f) := by
  have sound := all i
  have states := sound.state_of_settling settling
  have runs : e.runs = true := sound.runs (by rcases states with s | s <;> simp [s]) (by rcases states with s | s <;> simp [s])
  have dead : (f.station i).context.hasLiveSession = false := by simp [Context.hasLiveSession, settling]
  have auth := sound.noRequest (by simp [settling]) (by simp [settling])
  have released := sessionReleased_ledger fit settling sound h
  obtain ⟨self, others⟩ := sessionReleased_stations e i f
  rw [writeSession_eq]
  generalize (gainedAccounts f.store (sessionApplied e i f).store (f.station i).context.funding).filter _ = gained
  generalize sessionReleased e i f = a at *
  have notLow : (a.station i).state ≠ .low := by rw [self]; rcases states with s | s <;> simp [Station.clearContext, s]
  have own : (reevaluate e gained a).station i = (f.station i).clearContext := by rw [reevaluate_station notLow, self]
  have passed : Ledger nothing (reevaluate e gained a) := reevaluate_ledger gained (fun j low => by
    by_cases same : j = i
    · exact absurd (same ▸ low) notLow
    · rw [others j same]
      exact all j) released
  refine moveOn_ledger runs (fun free => ?_) passed
  rw [own] at free ⊢
  have state : (f.station i).state = .settling := states.resolve_right free
  have lost := sound.noLost free (by simp [state])
  exact (sound.idled dead auth lost (sound.noReport_none free)).congr (by constructor <;> rfl) rfl

/-- A DRAINING station whose path is empty enters SETTLING (R90). -/
theorem neutral_enterSettling (ending : (f.station i).context.condition = .ending) (t : TxFrame) :
    Neutral f (offer i t (f.onStation i fun x =>
      { x with state := .settling, context := { x.context with condition := .settling } })) := by
  refine Neutral.trans (neutral_pledged ?_ rfl rfl) (neutral_offer t)
  simp [Context.holdsFunds, ending]

theorem enterSettling_ledger (all : AllSound e f) (state : (f.station i).state = .draining)
    (path : (f.station i).line.inPath = []) (h : Ledger nothing f) : Ledger nothing (enterSettling e i f) := by
  have ending : (f.station i).context.condition = .ending := by simpa [state, Stands] using (all i).stands
  have entered := fun t => (neutral_enterSettling (i := i) (f := f) ending t).ledger h
  unfold enterSettling
  dsimp only
  generalize start : f.onStation i _ = a at *
  have station : a.station i =
      { f.station i with state := .settling, context := { (f.station i).context with condition := .settling } } := by
    rw [← start, station_onStation_self]
  have others : KeepsOthers i f a := fun j other => by rw [← start, station_onStation_other _ _ _ _ other]
  have shown : ∀ t, AllSound e (offer i t a) ∧ ((offer i t a).station i).context = (a.station i).context := fun t => by
    rw [offer_eq, station_onStation_self]
    refine ⟨all.at (i := i) (fun j other => by rw [station_onStation_other _ _ _ _ other, others j other]) ?_, rfl⟩
    rw [station_onStation_self, station]
    exact ((all i).settling state path).congr (by constructor <;> rfl) rfl
  generalize showOn 1 .sessionTotal _ _ = t
  obtain ⟨sound, context⟩ := shown t
  split
  · next may =>
    rw [← context] at may
    exact writeSession_ledger (fits_of_mayWrite may) (by rw [context, station]) sound (entered t)
  · exact (neutral_enqueue (p := .session i) fun _ same => nomatch same).ledger (entered t)

theorem quietDue_ledger (all : AllSound e f) (h : Ledger nothing f) : Ledger nothing (quietDue i e f) := by
  unfold quietDue
  dsimp only
  split
  · next due =>
    simp only [Station.quiet, Bool.and_eq_true, beq_iff_eq, List.isEmpty_iff] at due
    obtain ⟨⟨-, draining⟩, path, -⟩ := due
    exact enterSettling_ledger all draining path h
  · exact h

/-! ### The wait queue -/

/-- A waiting report written keeps the books (R178). -/
theorem writeWaiting_ledger {p : Producer} {rest : List Producer} (queue : f.waitQueue = p :: rest)
    (fit : fits e f (waitingLength f p) = true) (sound : QueueSound e f) (h : Ledger nothing f) :
    Ledger nothing (writeWaiting e { f with waitQueue := rest } p) := by
  have popped : Ledger nothing { f with waitQueue := rest } :=
    { h with closes := fun n hn waits => h.closes n hn (queue ▸ List.mem_cons_of_mem _ waits) }
  cases p with
  | session i =>
    have settling := sound.settling i (by rw [Floor.waitingSessions, queue]; simp [Producer.session?])
    exact writeSession_ledger (f := { f with waitQueue := rest }) fit settling sound.stations popped
  | stray i => exact (neutral_writeStray (f := { f with waitQueue := rest }) fit).ledger popped
  | auth i => exact (neutral_writeWaitingAuth (f := { f with waitQueue := rest }) fit).ledger popped
  | jam i =>
    refine (neutral_writeJam (f := { f with waitQueue := rest }) fun r pending => ?_).ledger popped
    have pending : (f.station i).jam.pendingReport = some r := pending
    have length : waitingLength f (.jam i) = 8 + layoutSize r.body := by
      simp only [waitingLength, pending]
    rw [← length]
    exact fit
  | close n =>
    refine writeClose_ledger (f := { f with waitQueue := rest }) fit (fun same => ?_) (fun hn => ?_) popped
    · have shut := (h.closes n (by omega) (queue ▸ List.mem_cons_self)).1
      rw [same, h.house] at shut
      cases shut
    · exact (h.closes n hn (queue ▸ List.mem_cons_self)).2

theorem moveQueue_ledger (turns : Nat) (sound : QueueSound e f) (h : Ledger nothing f) : Ledger nothing (moveQueue e turns f) := by
  induction turns generalizing f with
  | zero => exact h
  | succ turns ih =>
    simp only [moveQueue]
    split
    · exact h
    · next p rest queue =>
      split
      · next fit => exact ih (writeWaiting_sound queue sound) (writeWaiting_ledger queue fit sound h)
      · exact h

/-! ### Every event -/

/-- Every event of the station units keeps the books. -/
theorem unitWork_ledger {c : Instr} {work : Mode → Floor → Floor} (event : unitWork c = some work) (sound : QueueSound e f)
    (h : Ledger nothing f) : Ledger nothing (work e f) := by
  have all := sound.stations
  have pays : ∀ {i g}, Pays e i f g → Ledger nothing g := fun {i g} p => p.books (all i) h
  cases c <;> cases event
  case feedEvent => exact pays (feedTaken_pays ..)
  case exitEvent => exact pays exitTaken_pays
  case faultChange => exact pays (faultTaken_pays _)
  case takenChange => exact pays (inactiveTaken_pays _)
  case transitCheck => exact pays transitDue_pays
  case quietNotice => exact quietDue_ledger all h
  case lowTimerExpiry => exact pays lowDue_pays
  case linkLossGraceExpiry => exact pays graceDue_pays
  case authorizationTimerExpiry => exact pays authDue_pays
  case silenceTimerExpiry => exact pays silenceDue_pays
  case busyTimerExpiry => exact pays busyDue_pays
  case gapLimit => exact pays gapDue_pays
  case jamClears => exact pays jamDue_pays
  case recoveryTimeout => exact pays recoveryDue_pays
  case waitingReportWritten => exact moveQueue_ledger _ sound h
  case frameSent => exact pays (onLink_pays _)
  case nextFrameStart => exact pays (onLink_pays _)
  case byteError => exact pays (characterFailed_rel (pays_terminal e _) ..)
  case invalidFrame => exact pays (onLink_pays fun _ => _)
  case hello => exact pays (receiveFrame_rel (pays_terminal e _) _)
  case tick => exact pays (receiveFrame_rel (pays_terminal e _) _)
  case cardIn => exact pays (receiveFrame_rel (pays_terminal e _) _)
  case cardOut => exact pays (receiveFrame_rel (pays_terminal e _) _)
  case keyEnd => exact pays (receiveFrame_rel (pays_terminal e _) _)
  case keyBalance => exact pays (receiveFrame_rel (pays_terminal e _) _)
  case byteReceived => exact pays (characterReceived_rel (pays_terminal e _) _)
  case characterSent => exact pays (onLink_pays _)
  case busyLevelChange => exact pays (onLink_pays _)

end Work

end Sys2Proof.Machine
end

section
/-! SUPPORT. Orders keep the books (R134 to R144, R160, R66, R107, R108, R36, R97, R99). -/

namespace Sys2Proof.Machine

open Sys2Proof
-- One proof after the other: proofs that wait for one another hold a thread each, and its memory.
set_option Elab.async false

section Work

variable {e : Mode} {i : StationId} {f g : Floor} {owed : Nat → Claim} {n kind slot : Nat}

/-! ### The header -/

/-- A change of header fields leaves every account alone. -/
theorem account_editHeader {m : Memory} {change : Memory → Memory} (outside : ∀ a, ¬ inHeader a → (change m).read a = m.read a)
    (hn : n < 1024) : (m.editHeader change).account n = m.account n := by
  refine Memory.account_congr fun a low high => ?_
  have apart : ¬ inHeader a := fun header => (header_apart header).2 (inAccount_inAccounts hn ⟨low, high⟩)
  unfold Memory.editHeader
  rw [setHeader_keeps _ _ (by omega) apart, clearReserved_keeps _ apart, outside _ apart]

theorem neutral_editHeader {change : Memory → Memory} (outside : ∀ m a, ¬ inHeader a → (change m).read a = m.read a) :
    Neutral f (f.onStore fun m => m.editHeader change) :=
  neutral_onStore fun _ hk => congrArg Account.stake (account_editHeader (outside _) hk)

theorem neutral_header {o size x : Nat} (inside : o + size ≤ 128) :
    Neutral f (f.onStore fun m => m.editHeader fun h => h.setHeader o size x) :=
  neutral_editHeader fun m _ apart => setHeader_keeps m x inside apart

/-! ### Account orders -/

/-- What the passing of all tests says of an account order (R137). -/
theorem verdict_passes {m : Memory} (passes : accountVerdict kind m slot = none) :
    m.paramAccount slot < 1024 ∧ paramsPass kind m slot = true ∧ (sparesHouse kind = true → m.paramAccount slot ≠ 0) ∧
      stateVerdict kind (m.account (m.paramAccount slot)) = none := by
  unfold accountVerdict at passes
  dsimp only at passes
  split_ifs at passes with outside codes params house
  refine ⟨Nat.lt_of_not_le outside, by simpa using params, fun spares zero => ?_, passes⟩
  simp [spares, zero] at house

/-- A change that keeps an account's stake restates it. -/
theorem Restates.of_stake {waits : Prop} {a b : Account} {c : Claim} (bears : a.Bears c) (same : b.stake = a.stake)
    (house : n = 0 → a.isOpen = true) (closes : waits → a.isOpen = false) : Restates waits n a b where
  held := stake_held same
  holders := stake_holders same
  inFlight := stake_inFlight same
  free := by rw [stake_isFree same, stake_holders same]; exact bears.free
  limit := by rw [stake_isCredit same, stake_isFree same, stake_limit same]; exact bears.limit
  house zero := by rw [stake_isOpen same]; exact house zero
  closes waiting := by rw [stake_isOpen same]; exact closes waiting

/-- A change of the state of an account in use, other than account 0 (R142, R143). -/
theorem Restates.withState {waits : Prop} {a : Account} {c : Claim} {state : Byte} (bears : a.Bears c) (other : n ≠ 0)
    (used : a.isFree = false) (next : state ≠ 0) (closes : waits → (a.withState state).isOpen = false) :
    Restates waits n a (a.withState state) where
  held := rfl
  holders := rfl
  inFlight := rfl
  free zero := absurd (show state = 0 by simpa [Account.isFree, Account.withState] using zero) next
  limit credit _ := bears.limit credit used
  house zero := absurd zero other
  closes := closes

/-- The limit that ACCOUNT OPEN accepts (R138). -/
theorem openedAccount_limit {m : Memory} {a : Account} (params : openParams m slot = true)
    (credit : (openedAccount m slot a).isCredit = true) : (openedAccount m slot a).limit.toNat ≤ 2147483647 := by
  have kinds := openParams_kind params
  unfold openParams at params
  simp only [Bool.and_eq_true, Bool.or_eq_true, decide_eq_true_eq] at params
  unfold Config.maxUnits at params
  have two : m.param slot 2 1 = 2 := by
    rcases kinds with k | k | k
    · simp [openedAccount, Account.judgeOverdrawn, Account.isCredit, k] at credit
    · exact k
    · simp [openedAccount, Account.judgeOverdrawn, Account.isCredit, k] at credit
  have small : m.param slot 4 4 ≤ 2147483647 := by
    have := params.2
    simp only [two, bne_self_eq_false, Bool.false_eq_true, false_or] at this
    omega
  simp only [openedAccount, Account.judgeOverdrawn, two, if_true, BitVec.toNat_ofNat]
  omega

/-- The request of an account order that passes its tests keeps the books (R138 to R142). -/
theorem accountRequest_restates (low : 1 ≤ kind) (high : kind ≤ 6) (passes : accountVerdict kind f.store slot = none)
    (closing : ∀ k, k < 1024 → .close k ∈ f.waitQueue → (f.store.account k).isClosing = true)
    (h : Ledger nothing f) :
    Restates (.close (f.store.paramAccount slot) ∈ f.waitQueue) (f.store.paramAccount slot)
      (f.store.account (f.store.paramAccount slot))
      (accountRequest kind f.store slot (f.store.account (f.store.paramAccount slot))) := by
  obtain ⟨inside, params, spared, verdict⟩ := verdict_passes passes
  generalize hn : f.store.paramAccount slot = n at *
  have bears := h.each n inside
  rw [plus_nothing] at bears
  have house : n = 0 → (f.store.account n).isOpen = true := fun zero => zero ▸ h.house
  have shut : .close n ∈ f.waitQueue → (f.store.account n).isOpen = false := fun waits => (h.closes n inside waits).1
  have waiting := closing n inside
  have holders := claims_unheld (n := n) h
  generalize f.store.account n = a at *
  obtain rfl | rfl | rfl | rfl | rfl | rfl : kind = 1 ∨ kind = 2 ∨ kind = 3 ∨ kind = 4 ∨ kind = 5 ∨ kind = 6 := by omega
  · have free : a.isFree = true := by
      by_contra used
      simp [stateVerdict, used] at verdict
    have unheld : f.claims n = .zero := holders (by rw [← bears.holders]; exact bears.free free)
    rw [unheld] at bears
    exact {
      held := BitVec.eq_of_toNat_eq bears.held.symm
      holders := BitVec.eq_of_toNat_eq bears.holders.symm
      inFlight := BitVec.eq_of_toNat_eq bears.faces.symm
      free := fun _ => rfl
      limit := fun credit _ => openedAccount_limit params credit
      house := fun zero => absurd zero (spared rfl)
      closes := fun waits => by
        have := waiting waits
        simp_all [Account.isClosing, Account.isFree] }
  · exact .of_stake bears rfl house shut
  · exact .of_stake bears rfl house shut
  · have limit := paramsPass_limit.mp params
    exact {
      held := rfl
      holders := rfl
      inFlight := rfl
      free := bears.free
      limit := fun _ _ => by
        simp only [accountRequest, Account.setLimit, Account.judgeOverdrawn, BitVec.toNat_ofNat]
        omega
      house := house
      closes := shut }
  · have used : a.isFree = false := by
      cases free : a.isFree
      · rfl
      · simp [stateVerdict, free] at verdict
    exact .withState bears (spared rfl) used (by decide) fun _ => rfl
  · have frozen : a.isFrozen = true := by
      cases frozen : a.isFrozen
      · cases free : a.isFree <;> simp [stateVerdict, frozen, free] at verdict
      · rfl
    have used : a.isFree = false := by simp_all [Account.isFree, Account.isFrozen]
    refine .withState bears (spared rfl) used (by decide) fun waits => ?_
    have := waiting waits
    simp_all [Account.isClosing, Account.isFrozen]

theorem accountDone_ledger {w : AccountWork} (all : AllSound e w.floor) (h : Ledger nothing w.floor) :
    Ledger nothing (accountDone e n w).floor := by
  unfold accountDone
  dsimp only
  split
  · exact reevaluate_ledger [n] (fun j _ => all j) h
  · exact h

theorem accountRefused_ledger (r : Result) (h : Ledger nothing f) : Ledger nothing (accountRefused e f n r).floor := h

/-- ACCOUNT CLOSE keeps the books (R143, R144). -/
theorem closeAccountOrder_ledger (passes : accountVerdict 7 f.store slot = none) (all : AllSound e f) (h : Ledger nothing f) :
    Ledger nothing (closeAccountOrder e f (f.store.paramAccount slot) (f.store.account (f.store.paramAccount slot))).floor := by
  obtain ⟨inside, -, spared, verdict⟩ := verdict_passes passes
  generalize f.store.paramAccount slot = n at *
  have other := spared rfl
  have bears := h.each n inside
  have used : (f.store.account n).isFree = false := by
    cases free : (f.store.account n).isFree
    · rfl
    · simp [stateVerdict, free] at verdict
  unfold closeAccountOrder
  split_ifs with full none
  · exact h
  · exact writeClose_ledger (fits_of_mayWrite (by simpa using full)) other (fun _ => by rw [none]; rfl) h
  · refine accountDone_ledger (all.of_same rfl) (edit_ledger (fun _ => ?_) h)
    exact .withState bears other used (by decide) fun _ => rfl

theorem accountJudged_ledger (low : 1 ≤ kind) (high : kind ≤ 7)
    (closing : ∀ k, k < 1024 → .close k ∈ f.waitQueue → (f.store.account k).isClosing = true)
    (all : AllSound e f) (h : Ledger nothing f) : Ledger nothing (accountJudged kind e slot f).floor := by
  unfold accountJudged
  dsimp only
  split
  · exact accountRefused_ledger _ h
  · next passes =>
    by_cases close : kind = 7
    · subst close
      exact closeAccountOrder_ledger passes all h
    · obtain ⟨gains, work⟩ := accountPassed_eq (slot := slot) (a := f.store.account (f.store.paramAccount slot)) low (by omega) e f
        (f.store.paramAccount slot)
      rw [work]
      exact accountDone_ledger (all.of_same rfl) (edit_ledger (fun _ => accountRequest_restates low (by omega) passes closing h) h)

/-! ### PERIOD CLOSE -/

theorem neutral_closePeriods {accounts : List Nat} (size position : Nat) (good : goodOffset f.rptWr) (read : e.rptRd < 8192)
    (fit : fitsAll (freeRoom f.rptWr e.rptRd) f.rptWr 64 accounts.length = true) :
    Neutral f (closePeriods e size position accounts f) := by
  induction accounts generalizing f position with
  | nil => exact .refl f
  | cons n rest ih =>
    simp only [List.length_cons, fitsAll, Bool.and_eq_true, decide_eq_true_eq] at fit
    obtain ⟨first, later⟩ := fit
    have one : Neutral f (closeOnePeriod e n position size f) := by
      unfold closeOnePeriod
      refine (neutral_writeReport (by rw [periodBody_size]) ?_).trans (neutral_editAccount fun _ => rfl)
      rw [periodBody_size]
      exact decide_eq_true first
    have after : (closeOnePeriod e n position size f).rptWr = offsetAfter f.rptWr 64 := by
      rw [closeOnePeriod, onStore_rptWr, writeReport_rptWr, periodBody_size]
    rw [← (freeRoom_offsetAfter good read first).1, ← after] at later
    exact one.trans (ih _ (one.offset good) later)

theorem neutral_periodBatch (accounts : List Nat) (good : goodOffset f.rptWr) (read : e.rptRd < 8192) :
    Neutral f (periodBatch e accounts f).floor := by
  unfold periodBatch
  split
  · next fit =>
    simp only [Bool.and_eq_true] at fit
    exact neutral_closePeriods _ _ good read fit.2
  · exact .refl f

theorem neutral_periodCloseOrder (good : goodOffset f.rptWr) (read : e.rptRd < 8192) :
    Neutral f (periodCloseOrder e slot f).floor := by
  unfold periodCloseOrder
  dsimp only
  split_ifs
  · exact .refl f
  · exact neutral_periodBatch _ good read
  · exact .refl f
  · exact .refl f
  · exact neutral_periodBatch _ good read

/-! ### Card orders -/

/-- A card edit leaves every account alone. -/
theorem neutral_rewritten {change : Memory → Memory} {k count : Nat} {ds : List DirEntry}
    (edit : Rewritten f.store (change f.store) k ds count) : Neutral f (f.onStore change) :=
  neutral_onStore fun _ hn => congrArg Account.stake (edit.account hn)

theorem neutral_putEntry {d : DirEntry} (sound : f.store.directoryFault = none) : Neutral f (putEntry e d f).floor := by
  have small := ((directoryFault_none_iff _).mp sound).1
  unfold putEntry
  dsimp only
  split
  · next k found =>
    exact neutral_rewritten (change := fun m => m.replaceEntry k d)
      (replaceEntry_rewritten f.store d (Nat.lt_of_lt_of_le (findIdx_number found).1 small))
  · next absent =>
    rw [findIdx_number_none] at absent
    split
    · next room =>
      have ascends := ((directoryFault_none_iff _).mp sound).2
      exact neutral_rewritten (change := fun m => m.insertEntry _ d)
        (insertEntry_rewritten f.store d (insertIndex_splits ascends absent).1 room)
    · exact .refl f

theorem neutral_cardPutOrder (sound : f.store.directoryFault = none) : Neutral f (cardPutOrder e slot f).floor := by
  unfold cardPutOrder
  dsimp only
  split
  · exact .refl f
  · split
    · exact .refl f
    · exact neutral_putEntry sound

theorem neutral_cardDropOrder (sound : f.store.directoryFault = none) : Neutral f (cardDropOrder e slot f).floor := by
  have small := ((directoryFault_none_iff _).mp sound).1
  unfold cardDropOrder
  dsimp only
  split
  · exact .refl f
  · split
    · next k found =>
      exact neutral_rewritten (change := fun m => m.removeEntry k) (removeEntry_rewritten f.store (findIdx_number found).1 small)
    · exact .refl f

/-! ### AUTH ANSWER -/

theorem firstGrant_pays (ok : Result) (g : Grant) (condition : (f.station i).context.condition = .funding)
    (auth : (f.station i).auth.state = .none) : Pays e i f (firstGrant e i ok g f).floor := by
  refine ⟨firstGrant_keeps ok g condition auth, fun sound books => ?_⟩
  have state := sound.state_of_funding condition
  unfold firstGrant
  dsimp only
  split_ifs
  · exact (refusedWait_pays _ _ _ condition).books sound books
  · exact (refusedWait_pays _ _ _ condition).books sound books
  · exact (refusedWait_pays _ _ _ condition).books sound books
  · refine openSession_ledger (bankOpening_fits ..) (sound.runs (by simp [state]) (by simp [state])) (.inr state) auth sound ?_
    rw [entriesClaim_bank rfl]
    exact books

/-- A change of amounts leaves the accounts that sheets are counted on. -/
theorem accountOf_modify (c : Context) {k : Nat} {change : FundingEntry → FundingEntry}
    (names : ∀ en, (change en).namesAccount = en.namesAccount) (account : ∀ en, (change en).account = en.account) (p : Sheet) :
    ({ c with funding := c.funding.modify k change } : Context).accountOf p = c.accountOf p := by
  unfold Context.accountOf
  cases p.target with
  | stray => rfl
  | entry j =>
    dsimp only
    rw [List.getElem?_modify]
    cases c.funding[j.val]? with
    | none => rfl
    | some en => by_cases own : k = j.val <;> simp [own, names, account]

/-- A grant joins a BANK entry, which claims nothing of an account (R108). -/
theorem claim_addGrant {x : Station} (g : Grant) (ask : x.context.mayAsk = true) (n : Nat) : (x.addGrant g).claim n = x.claim n := by
  obtain ⟨before, last, list, kind, -⟩ := (mayAsk_iff _).mp ask
  have funding : (x.addGrant g).context.funding =
      before ++ [{ last with hold := last.hold + g.amount, grants := last.grants ++ [g] }] := by
    rw [Station.addGrant, Context.onLast, list, List.length_append, List.length_singleton, Nat.add_sub_cancel]
    simp [List.modify_eq_set_getElem?]
  have bank : ∀ en : FundingEntry, en.kind = .bank → entriesClaim [en] = nothing := fun en kind =>
    entriesClaim_bank (by simp [FundingEntry.namesAccount, kind])
  have entries : entriesClaim (x.addGrant g).context.funding n = entriesClaim x.context.funding n := by
    rw [funding, list, entriesClaim_append, entriesClaim_append, bank _ kind,
      bank { last with hold := last.hold + g.amount, grants := last.grants ++ [g] } kind]
  have sheets : (x.addGrant g).context.facesOn x.line.inPath n = x.context.facesOn x.line.inPath n :=
    facesOn_congr (fun p _ => accountOf_modify (change := fun en => { en with hold := en.hold + g.amount, grants := en.grants ++ [g] })
      x.context (fun _ => rfl) (fun _ => rfl) p) n
  have holds : (x.addGrant g).context.holdsFunds = x.context.holdsFunds := rfl
  have path : (x.addGrant g).line = x.line := rfl
  unfold Station.claim Context.claim
  rw [holds, path, sheets]
  split
  · rw [entries]
  · rfl

theorem incrementGrant_pays (ok : Result) (g : Grant) (ask : (f.station i).context.mayAsk = true)
    (auth : (f.station i).auth.state = .none) : Pays e i f (incrementGrant e i ok g f).floor := by
  refine ⟨incrementGrant_keeps ok g ask auth, fun sound books => ?_⟩
  unfold incrementGrant
  dsimp only
  split
  · exact ((neutral_onStation).trans (neutral_offer _)).ledger books
  · refine fundingCheck_ledger (extra := []) ?_ ((neutral_onStation (claim_addGrant g ask)).ledger books)
    rw [station_onStation_self]
    exact sound.granted ask auth g

/-- An answer taken belongs to the request of its kind (R103, R106). -/
theorem judgeAnswer_pays (slot : Nat) : Pays e i f (judgeAnswer e i slot f).floor := by
  refine ⟨judgeAnswer_keeps slot, fun sound books => ?_⟩
  have closed : (cancelAuth i f).station i = { f.station i with auth := (f.station i).auth.closed } := station_onStation_self ..
  unfold judgeAnswer
  dsimp only
  split
  · exact books
  · next taken =>
    have outstanding : (f.station i).auth.outstanding = true := by
      simp only [Bool.or_eq_true, Bool.not_eq_true', not_or, Bool.not_eq_false] at taken
      exact taken.1
    have own := sound.request.resolve_left fun none => by simp [Auth.outstanding, none] at outstanding
    split
    · exact books
    · split
      · next kind =>
        have condition : (f.station i).context.condition = .funding := by
          rcases own with ⟨-, c⟩ | ⟨k, -⟩
          · exact c
          · rw [kind] at k; cases k
        exact (cancelAuth_pays.trans (firstGrant_pays _ _ (by rw [closed]; exact condition) (by rw [closed]; rfl))).books sound books
      · next kind =>
        have ask : (f.station i).context.mayAsk = true := by
          rcases own with ⟨k, -⟩ | ⟨-, -, ask⟩
          · exact absurd k kind
          · exact ask
        exact (cancelAuth_pays.trans (incrementGrant_pays _ _ (by rw [closed]; exact ask) (by rw [closed]; rfl))).books sound books

/-! ### PRICE SWITCH -/

theorem switchGuard_pays (p : Page) : Pays e i f (switchGuard e p i f) := by
  refine ⟨switchGuard_keeps p, fun sound books => ?_⟩
  have guarded : Ledger nothing (f.onStation i (Station.recomputeGuard f.store p)) := (neutral_pledged rfl rfl rfl).ledger books
  unfold switchGuard
  dsimp only
  split
  · exact fundingCheck_ledger (((recomputeGuard_keeps _ _).sound sound).congr (.refl _) rfl) guarded
  · exact guarded

/-- Work at each station in turn. -/
theorem forStations_ledger {act : StationId → Floor → Floor} (keeps : ∀ i g, AllSound e g → AllSound e (act i g))
    (books : ∀ i g, AllSound e g → Ledger nothing g → Ledger nothing (act i g)) (all : AllSound e f) (h : Ledger nothing f) :
    Ledger nothing (forStations act f) := by
  unfold forStations
  generalize stationIds = l
  induction l generalizing f with
  | nil => exact h
  | cons i l ih => exact ih (keeps i f all) (books i f all h)

theorem priceSwitchOrder_ledger (slot : Nat) (all : AllSound e f) (h : Ledger nothing f) :
    Ledger nothing (priceSwitchOrder e slot f).floor := by
  unfold priceSwitchOrder
  dsimp only
  split
  · exact h
  · dsimp only
    exact forStations_ledger (act := switchGuard e e.page.other)
      (fun i g sound => sound.step (switchGuard_at e _ i g) (switchGuard_keeps _))
      (fun i g sound => (switchGuard_pays _).books (sound i)) all h

/-! ### STATION OUT and STATION IN -/

theorem takeOut_pays : Pays e i f (takeOut e i f) := by
  refine ⟨takeOut_keeps, fun sound books => ?_⟩
  unfold takeOut
  dsimp only
  split_ifs with idle funding
  · exact enterOut_ledger _ (sound.entered (.inl idle)) books
  · obtain ⟨l, station⟩ := showAndEject_station i .outOfService 0 0 f
    have refused := (neutral_showAndEject (i := i) (f := f) .outOfService 0 0).ledger books
    have shown := (showAndEject_keeps (i := i) (f := f) .outOfService 0 0).sound sound
    generalize showAndEject i .outOfService 0 0 f = g at *
    have state : (g.station i).state = .funding := by rw [station]; exact funding
    refine enterOut_ledger _ ?_ ((neutral_clearWait shown (shown.dead_of_state (.inr (.inr state)))).ledger refused)
    rw [station_onStation_self, cancelAuth, station_onStation_self]
    exact shown.wait_freed state
  · exact ((Pays.neutral keeps_onStation neutral_onStation).trans (endIfLive_pays .staff)).books sound books

theorem judgeOut_pays (slot : Nat) : Pays e i f (judgeOut e i slot f).floor := by
  unfold judgeOut
  split
  · exact .refl f
  · exact takeOut_pays

theorem neutral_countClamps {count : Memory → Nat} : Neutral f (f.onStore fun m => m.countClamps (count m)) := by
  refine neutral_onStore fun k hk => congrArg Account.stake ?_
  unfold Memory.countClamps
  split
  · rfl
  · exact account_editHeader (fun _ apart => setHeader_keeps _ _ (by omega) apart) hk

theorem neutral_takeProfile : Neutral f (takeProfile e i f) := by
  unfold takeProfile
  dsimp only
  exact (neutral_pledged rfl rfl rfl).trans (neutral_applySerial _)

theorem takeIn_pays (out : (f.station i).state = .out) : Pays e i f (takeIn e i f) := by
  refine ⟨takeIn_keeps out, fun sound books => ?_⟩
  unfold takeIn
  dsimp only
  have counted := (neutral_countClamps (f := f) (count := fun m => (m.profile i).clampCount)).ledger books
  have same : (f.onStore fun m => m.countClamps (m.profile i).clampCount).station i = f.station i := station_onStore ..
  generalize f.onStore (fun m => m.countClamps (m.profile i).clampCount) = g at *
  have entered : Pays e i g (stationNotice e i .entered .none ((takeProfile e i g).onStation i Station.inServiceAgain)) := by
    refine .neutral ?_ (neutral_takeProfile.trans ((neutral_onStation).trans (neutral_stationNotice ..)))
    refine (takeProfile_keeps ?_).trans ((inServiceAgain_keeps (.inr ?_)).trans (stationNotice_keeps ..))
    · rw [same]
      exact sound.outPath out
    · rw [takeProfile_state, same]
      exact out
  split
  · exact (entered.trans (jamCause_pays .copier)).books (same ▸ sound) counted
  · exact entered.books (same ▸ sound) counted

theorem judgeIn_pays (slot : Nat) : Pays e i f (judgeIn e i slot f).floor := by
  unfold judgeIn
  split
  · exact takeIn_pays ‹_›
  · exact .refl f

/-! ### JAM ACK and SESSION END -/

theorem judgeAck_pays (slot : Nat) : Pays e i f (judgeAck e i slot f).floor := by
  unfold judgeAck
  split
  · dsimp only
    exact .neutral keeps_onStation neutral_onStation
  · exact .refl f

theorem judgeEnd_pays (slot : Nat) : Pays e i f (judgeEnd e i slot f).floor := by
  unfold judgeEnd
  dsimp only
  split
  · exact endSession_pays .staff ‹_›
  · exact refusedWait_pays _ _ _ ‹_›
  all_goals exact .refl f

/-! ### Every order -/

theorem stationOrder_ledger {body : Mode → StationId → Nat → Floor → Executed} (pays : ∀ i, Pays e i f (body e i slot f).floor)
    (all : AllSound e f) (h : Ledger nothing f) : Ledger nothing (stationOrder body e slot f).floor := by
  unfold stationOrder
  split
  · exact h
  · split
    · exact h
    · exact (pays _).books (all _) h

/-- Every order that the part takes while it runs keeps the books. -/
theorem orderWork_ledger {c : Instr} {taken : Nat → Bool} {body : Mode → Nat → Floor → Executed}
    (order : orderWork c = some (taken, body)) (slot : Nat) (runs : e.runs = true) (read : e.rptRd < 8192)
    (directory : f.store.directoryFault = none)
    (closing : ∀ k, k < 1024 → .close k ∈ f.waitQueue → (f.store.account k).isClosing = true)
    (all : AllSound e f) (h : Ledger nothing f) : Ledger nothing (body e slot f).floor := by
  have run : e.run ≠ .stopped := fun stopped => by simp [Mode.runs, stopped] at runs
  have judged : ∀ kind, 1 ≤ kind → kind ≤ 7 → Ledger nothing (accountJudged kind e slot f).floor := fun kind low high =>
    accountJudged_ledger low high closing all h
  cases c <;> cases order
  case accountOpen => rw [accountOpenOrder_eq]; exact judged 1 (by decide) (by decide)
  case accountCredit => rw [accountCreditOrder_eq]; exact judged 2 (by decide) (by decide)
  case accountDebit => rw [accountDebitOrder_eq]; exact judged 3 (by decide) (by decide)
  case accountLimit => rw [accountLimitOrder_eq]; exact judged 4 (by decide) (by decide)
  case accountFreeze => rw [accountFreezeOrder_eq run]; exact judged 5 (by decide) (by decide)
  case accountThaw => rw [accountThawOrder_eq run]; exact judged 6 (by decide) (by decide)
  case accountClose => rw [accountCloseOrder_eq run]; exact judged 7 (by decide) (by decide)
  case periodClose => exact (neutral_periodCloseOrder h.good read).ledger h
  case cardPut => exact (neutral_cardPutOrder directory).ledger h
  case cardDrop => exact (neutral_cardDropOrder directory).ledger h
  case authAnswer => exact stationOrder_ledger (fun _ => judgeAnswer_pays slot) all h
  case priceSwitch => exact priceSwitchOrder_ledger slot all h
  case stationOut => exact stationOrder_ledger (fun _ => judgeOut_pays slot) all h
  case stationIn =>
    unfold stationInOrder
    split
    · exact h
    · exact stationOrder_ledger (fun _ => judgeIn_pays slot) all h
  case jamAck => exact stationOrder_ledger (fun _ => judgeAck_pays slot) all h
  case sessionEnd => exact stationOrder_ledger (fun _ => judgeEnd_pays slot) all h
  case badKind => exact h

end Work

end Sys2Proof.Machine
end

section
/-! PROOF. Laws L1 and L2 under every command: the start opens the books, and each command keeps them (R135, R136). -/

namespace Sys2Proof.Machine

open Sys2Proof
-- One proof after the other: proofs that wait for one another hold a thread each, and its memory.
set_option Elab.async false

section Floors

variable {e : Mode} {i : StationId} {f g : Floor} {n : Nat}

/-! ### Ends of steps -/

theorem neutral_raise (flag : IrqFlag) : Neutral f (f.raise flag) := ⟨id, fun _ _ _ => rfl, fun _ _ => rfl, fun _ => id⟩

/-- The end of a step drives ENABLE and counts record edits (R16, R78). -/
theorem neutral_settle (before : Floor) : Neutral f (settle e before f) where
  offset := id
  accounts _ _ _ := rfl
  claims j n := by
    rw [settle_station]
    exact claim_of (x := f.station j) (y := (before.station j).settleRecord ((f.station j).driveEnable e)) rfl rfl rfl n
  closes _ := id

/-- An order's answer is no account record (R174). -/
theorem neutral_finishOrder (s : State) (x : Executed) : Neutral x.floor (finishOrder s x).floor where
  offset := id
  accounts _ n _ := by rw [finishOrder_account]
  claims := (neutral_settle (e := { s.mode with page := x.page })
    (f := (x.floor.onStore fun m => m.writeReply (slotAddr s.port.ordDone) x.reply).raise .order) s.floor).claims
  closes _ := id

/-! ### The start -/

/-- What the start work leaves of an account: nothing held, and a limit within its range (R133, R148). -/
structure Account.Fresh (n : Nat) (a : Account) : Prop where
  held : a.held = 0
  holders : a.holders = 0
  inFlight : a.inFlight = 0
  limit : a.isCredit = true → a.isFree = false → a.limit.toNat ≤ 2147483647
  house : n = 0 → a.isOpen = true

theorem Account.Fresh.of_stake {a b : Account} (h : a.Fresh n) (same : b.stake = a.stake) : b.Fresh n where
  held := (stake_held same).trans h.held
  holders := (stake_holders same).trans h.holders
  inFlight := (stake_inFlight same).trans h.inFlight
  limit := by rw [stake_isCredit same, stake_isFree same, stake_limit same]; exact h.limit
  house zero := by rw [stake_isOpen same]; exact h.house zero

/-- The limit the start work leaves (R148). -/
theorem startLimit_le (a : Account) (credit : a.isCredit = true) (used : a.isFree = false) :
    (if a.limitClamped then BitVec.ofInt 32 Config.maxUnits else a.limit).toNat ≤ 2147483647 := by
  split
  · decide
  · next within =>
    simp only [Account.limitClamped, used, credit, Bool.not_false, Bool.and_self, Bool.true_and, decide_eq_true_eq] at within
    unfold Config.maxUnits at within
    omega

theorem started_fresh (n : Nat) (a : Account) : (a.started n).Fresh n := by
  have judged : ∀ c : Account, c.Fresh n → (if c.isFree then c else c.judgeOverdrawn).Fresh n := fun c fresh => by
    split
    · exact fresh
    · exact fresh.of_stake rfl
  unfold Account.started
  dsimp only
  refine judged _ ?_
  by_cases zero : n = 0
  · rw [if_pos zero]
    exact ⟨rfl, rfl, rfl, (nomatch ·), fun _ => rfl⟩
  · rw [if_neg zero]
    exact ⟨rfl, rfl, rfl, startLimit_le a, fun same => absurd same zero⟩

theorem startAccount_fresh_self {m : Memory} (hn : n < 1024) : ((m.startAccount n).account n).Fresh n := by
  have ended : ((m.startAccount n).account n).stake = ((m.editAccount n (Account.started n)).account n).stake := by
    unfold Memory.startAccount
    rw [account_closeAccount_self hn]
    unfold Account.requestEnded
    split <;> rfl
  have edited := stake_editAccount m n (Account.started n) hn
  rw [if_pos rfl] at edited
  exact (started_fresh n (m.account n)).of_stake (ended.trans edited)

theorem startAccount_fresh {m : Memory} (k : Nat) (hn : n < 1024) (fresh : (m.account n).Fresh n) :
    ((m.startAccount k).account n).Fresh n := by
  by_cases same : n = k
  · exact same ▸ startAccount_fresh_self hn
  · unfold Memory.startAccount
    rw [Memory.account_closeAccount_other _ same, Memory.account_editAccount_other _ _ same]
    exact fresh

/-- The start work goes through every account (R148). -/
theorem startAccounts_fresh {l : List Nat} {m : Memory} (hn : n < 1024) (listed : n ∈ l) :
    ((l.foldl Memory.startAccount m).account n).Fresh n := by
  have kept : ∀ (l : List Nat) (m : Memory), (m.account n).Fresh n → ((l.foldl Memory.startAccount m).account n).Fresh n := by
    intro l
    induction l with
    | nil => exact fun _ fresh => fresh
    | cons k l ih => exact fun m fresh => ih _ (startAccount_fresh k hn fresh)
  induction l generalizing m with
  | nil => cases listed
  | cons k l ih =>
    rcases List.mem_cons.mp listed with rfl | later
    · exact kept l _ (startAccount_fresh_self hn)
    · exact ih later

/-- The header fields and the accounts of a start are in the store (R148, R169). -/
theorem startFloor_rest (s : State) : s.startFloor.rptWr = s.floor.rptWr ∧ s.startFloor.waitQueue = s.floor.waitQueue ∧
    s.startFloor.stations = s.floor.stations := by
  unfold State.startFloor
  dsimp only
  rw [onStore_rptWr, onStore_rptWr, onStore_waitQueue, onStore_waitQueue, onStore_stations, onStore_stations]
  exact ⟨rfl, rfl, rfl⟩

/-- At rest no station claims anything of an account, and the start work opens the books (R148). -/
theorem startFloor_ledger {s : State} (good : goodOffset s.floor.rptWr) (empty : s.floor.waitQueue = [])
    (all : AllSound s.mode s.floor) (stopped : s.mode.runs = false) : Ledger nothing s.startFloor := by
  have fresh : ∀ n, n < 1024 → (s.startFloor.store.account n).Fresh n := fun n hn => by
    rw [State.startFloor, onStore_store]
    exact startAccounts_fresh hn (by rw [accountNumbers, List.mem_range]; exact hn)
  obtain ⟨offset, queue, stations⟩ := startFloor_rest s
  generalize s.startFloor = f at *
  have sound : AllSound s.mode f := all.of_same stations
  have rest : ∀ j n, (f.station j).claim n = .zero := fun j n =>
    (sound j).claim_dead ((sound j).dead_of_state (((sound j).resting stopped).1.imp_right .inl)) n
  have claims : ∀ n, f.claims n = .zero := fun n => by
    have none : ∀ part : Claim → Nat, part .zero = 0 →
        overStations (fun j => part ((f.station j).claim n)) = 0 := fun part zero =>
      overStations_eq_zero.mpr fun j => by rw [rest, zero]
    exact Claim.ext (none Claim.held rfl) (none Claim.holders rfl) (none Claim.faces rfl)
  refine ⟨offset ▸ good, fun _ => ⟨Nat.zero_le _, Nat.zero_le _⟩, (fresh 0 (by decide)).house rfl,
    fun j n => by rw [rest]; exact Claim.fit_zero, fun n hn => ?_, fun n _ waits => ?_⟩
  · obtain ⟨held, holders, inFlight, limit, -⟩ := fresh n hn
    rw [claims, plus_nothing]
    exact ⟨by rw [held]; rfl, by rw [holders]; rfl, by rw [inFlight]; rfl, fun _ => by rw [holders]; rfl, limit⟩
  · rw [queue, empty] at waits
    cases waits

theorem atRunning_pays : Pays e i f (atRunning e i f) := by
  unfold atRunning
  dsimp only
  split_ifs
  · exact .neutral (closeStray_keeps .out) (neutral_closeStray .out)
  · exact jamCause_pays .copier
  · exact .refl f

theorem passStart_ledger {s : State} (good : goodOffset s.floor.rptWr) (empty : s.floor.waitQueue = [])
    (all : AllSound s.mode s.floor) (stopped : s.mode.runs = false) : Ledger nothing (passStart s).floor := by
  have profileKeeps : ∀ i f, AllSound s.mode f →
      AllSound s.mode (if s.floor.store.profileEnabled i then takeProfile s.mode i f else f) :=
    fun i f sound => by
      split
      · exact sound.step (takeProfile_at s.mode i f) (takeProfile_keeps ((sound i).resting stopped).2)
      · exact sound
  have profileBooks : ∀ i f, AllSound s.mode f → Ledger nothing f →
      Ledger nothing (if s.floor.store.profileEnabled i then takeProfile s.mode i f else f) := fun i f _ h => by
    split
    · exact neutral_takeProfile.ledger h
    · exact h
  have serviceKeeps : ∀ i f, AllSound s.mode f → AllSound s.mode
      (if s.floor.store.profileEnabled i then f.onStation i Station.inServiceAgain else enterOut s.mode i .staff f) := fun i f sound => by
    have state := ((sound i).resting stopped).1
    split
    · exact sound.step (onStation_lists (change := Station.inServiceAgain)) (inServiceAgain_keeps state)
    · exact sound.at (enterOut_at ..).others (enterOut_sound _ ((sound i).entered state))
  have serviceBooks : ∀ i f, AllSound s.mode f → Ledger nothing f → Ledger nothing
      (if s.floor.store.profileEnabled i then f.onStation i Station.inServiceAgain else enterOut s.mode i .staff f) :=
    fun i f sound h => by
      split
      · exact (neutral_onStation).ledger h
      · exact enterOut_ledger _ ((sound i).entered ((sound i).resting stopped).1) h
  obtain ⟨-, -, stations⟩ := startFloor_rest s
  have begun : AllSound s.mode s.startFloor := all.of_same stations
  have profiled := begun.forStations _ profileKeeps
  have served := profiled.forStations _ serviceKeeps
  have books := forStations_ledger serviceKeeps serviceBooks profiled
    (forStations_ledger profileKeeps profileBooks begun (startFloor_ledger good empty all stopped))
  exact (neutral_settle _).ledger (forStations_ledger (e := { s.mode with run := .running })
    (fun i f sound => sound.step (atRunning_at _ i f) atRunning_keeps) (fun i f sound => atRunning_pays.books (sound i))
    ((served.start rfl).of_same rfl) ((neutral_raise .run).ledger books))

/-! ### The stop -/

theorem stopStation_pays : Pays e i f (stopStation e i f) := by
  unfold stopStation
  dsimp only
  split_ifs
  · exact endSession_pays .stop ‹_›
  · exact refusedWait_pays _ _ _ ‹_›
  · exact .neutral (closeStray_keeps .stop) (neutral_closeStray .stop)
  · exact .refl f

end Floors

/-! ### Every command -/

section Steps

variable {s t : State}

/-- The books of a part that runs (R135, R136). -/
def Balanced (t : State) : Prop := t.mode.runs = true → Ledger nothing t.floor

theorem balanced_of_rest (rest : t.mode.runs = false) : Balanced t := fun runs => by rw [rest] at runs; cases runs

theorem Books.balanced (books : Books s) : Balanced s := ledger_of_books books

theorem Books.queueSound (books : Books s) : QueueSound s.mode s.floor := by
  obtain ⟨stations, -, wait, -, -⟩ := books
  obtain ⟨settling, once⟩ := wait.sessions
  exact ⟨fun j => (sound_iff _ _).mpr (stations j), settling, once⟩

/-- A step between states that run alike keeps the books when its work is neutral. -/
theorem balanced_of_neutral (books : Books s) (run : t.mode.run = s.mode.run) (neutral : Neutral s.floor t.floor) : Balanced t :=
  fun runs => neutral.ledger (books.balanced (by rwa [Mode.runs, ← run]))

theorem unitStep_balanced {c : Instr} {work : Mode → Floor → Floor} (event : unitWork c = some work) (books : Books s) :
    Balanced (s.unitStep work) := by
  unfold State.unitStep
  split
  · exact books.balanced
  · exact fun runs => (neutral_settle _).ledger (unitWork_ledger event books.queueSound (books.balanced runs))

theorem takeOrder_balanced {c : Instr} {taken : Nat → Bool} {body : Mode → Nat → Floor → Executed}
    (order : orderWork c = some (taken, body)) (books : Books s) : Balanced (takeOrder taken body s) := by
  unfold takeOrder
  split
  · intro runs
    have runs : s.mode.runs = true := runs
    have sound := books.queueSound.stations
    have balanced := books.balanced runs
    obtain ⟨-, -, ⟨-, -, -, -, closes⟩, offset, directory⟩ := books
    exact (neutral_finishOrder s _).ledger (orderWork_ledger order _ runs offset.readLimit
      ((directoryLaw_iff s).mp directory runs) (fun k hk waits => ((closes runs k hk).mp waits).1) sound balanced)
  · exact books.balanced

theorem requestRun_balanced (books : Books s) : Balanced (requestRun s) := by
  unfold requestRun
  split
  · next stopped =>
    split
    · exact balanced_of_rest (by simp [refuseStart, Mode.runs, stopped])
    · have rest : s.mode.runs = false := by simp [Mode.runs, stopped]
      have sound := books.queueSound.stations
      obtain ⟨-, -, ⟨-, empty, -⟩, offset, -⟩ := books
      exact fun _ => passStart_ledger offset.good (empty rest) sound rest
  · exact books.balanced

theorem requestStop_balanced (books : Books s) : Balanced (requestStop s) := by
  unfold requestStop
  split
  · next running =>
    intro _
    have runs : s.mode.runs = true := by simp [Mode.runs, running]
    have sound : AllSound { s.mode with run := .stopping } s.floor := books.queueSound.stations.mode (by rw [runs]; rfl)
    exact (neutral_settle _).ledger (forStations_ledger (e := { s.mode with run := .stopping })
      (fun i f sound => sound.step (stopStation_at _ i f) stopStation_keeps) (fun i f sound => stopStation_pays.books (sound i))
      (sound.of_same rfl) ((neutral_raise .run).ledger (books.balanced runs)))
  · exact books.balanced

theorem requestSoftReset_balanced (books : Books s) : Balanced (requestSoftReset s) := by
  unfold requestSoftReset
  split
  · exact books.balanced
  · exact balanced_of_rest rfl

theorem clock_balanced (books : Books s) (ticked : execPartTimeTick s = .next t) : Balanced t := by
  unfold execPartTimeTick at ticked
  dsimp only at ticked
  split at ticked <;> cases ticked
  · next clearing => exact balanced_of_rest (by simp [Mode.runs, clearing])
  · have header := neutral_header (f := s.floor) (o := 12) (size := 4) (x := (s.mode.partTime + 1).toNat) (by omega)
    refine balanced_of_neutral books rfl (header.trans (Neutral.trans ?_ (neutral_settle _)))
    refine ⟨id, fun _ _ _ => rfl, fun j n => ?_, fun _ => id⟩
    rw [station_map]
    exact claim_of (y := (s.floor.station j).sampleInputs _) rfl rfl rfl n

/-! ### The host port -/

theorem hostWrite_balanced {change : State → State} (books : Books s) (h : Balanced (change s)) : Balanced (s.hostWrite change) := by
  unfold State.hostWrite
  split
  · exact books.balanced
  · exact h

theorem writeOrdpost_balanced (books : Books s) (v : Half) : Balanced (writeOrdpost v s) := by
  unfold writeOrdpost
  split
  · exact balanced_of_neutral books rfl (.refl _)
  · exact balanced_of_neutral books rfl (neutral_raise _)

theorem writeRptrd_balanced (books : Books s) (v : Half) : Balanced (writeRptrd v s) := by
  unfold writeRptrd
  split
  · exact balanced_of_neutral books rfl (.refl _)
  · refine balanced_of_neutral books rfl (Neutral.trans (neutral_onStore fun n hn => congrArg Account.stake ?_) (neutral_raise .guard))
    exact account_editHeader (fun _ apart => setHeader_keeps _ _ (by omega) apart) hn

theorem writeRunctl_balanced (books : Books s) (v : Half) : Balanced (writeRunctl v s) := by
  unfold writeRunctl
  split_ifs
  · exact requestSoftReset_balanced books
  · exact requestRun_balanced books
  · exact requestStop_balanced books

theorem writeIrqflag_balanced (books : Books s) (v : Half) : Balanced (writeIrqflag v s) :=
  balanced_of_neutral books rfl ⟨id, fun _ _ _ => rfl, fun _ _ => rfl, fun _ => id⟩

theorem writeRegister_balanced (books : Books s) (reg : BitVec 3) (high : Bool) (v : Half) : Balanced (writeRegister reg high v s) := by
  unfold writeRegister
  split_ifs
  · exact books.balanced
  · exact writeRunctl_balanced books v
  · exact writeOrdpost_balanced books v
  · exact writeRptrd_balanced books v
  · exact writeIrqflag_balanced books v
  · exact balanced_of_neutral books rfl (.refl _)
  · exact books.balanced

/-- A word written outside header, station records, directory and accounts (R164). -/
theorem neutral_writeWord {f : Floor} {a : Nat} (v : Half) (apart : a + 2 ≤ Config.headerBase ∨ Config.scratchBase ≤ a) :
    Neutral f (f.writeWord a v) := by
  have none : stationPlace a = .none := by
    rw [stationPlace, dif_neg]
    simp only [Config.headerBase, Config.stationBase, Config.stationEnd, Config.scratchBase] at *
    omega
  unfold Floor.writeWord
  rw [none]
  refine neutral_onStore fun n hn => congrArg Account.stake (Memory.account_congr fun p low high => ?_)
  refine Memory.read_writeLE_outside _ _ ?_
  simp only [accountAddr, Config.accountBase, Config.headerBase, Config.scratchBase] at *
  omega

theorem hostStore_balanced (books : Books s) (word : BitVec 16) (v : Half) : Balanced (hostStore (2 * word.toNat) v s) := by
  unfold hostStore
  split
  · refine balanced_of_neutral books rfl (Neutral.trans (neutral_onStore fun n hn => congrArg Account.stake ?_) (neutral_raise .guard))
    refine account_editHeader (fun _ apart => ?_) hn
    rw [setHeader_keeps _ _ (by omega) apart, setHeader_keeps _ _ (by omega) apart]
  · next free =>
    by_cases runs : s.mode.runs = true
    · refine balanced_of_neutral books rfl (neutral_writeWord v ?_)
      by_contra inside
      refine free (partOwns_directory runs ?_ ?_)
      all_goals
        simp only [Config.headerBase, Config.scratchBase] at *
        omega
    · exact balanced_of_rest (by simpa using runs)

theorem exec_balanced {c : Instr} (books : Books s) (h : exec c s = .next t) : Balanced t := by
  cases event : unitWork c with
  | some work =>
    rw [exec_unitWork event] at h
    cases h
    exact unitStep_balanced event books
  | none =>
    cases order : orderWork c with
    | some work =>
      rw [exec_orderWork order] at h
      cases h
      exact takeOrder_balanced order books
    | none =>
      cases c with
      | powerOn => cases h; exact balanced_of_rest rfl
      | clearingDone =>
        change execClearingDone s = .next t at h
        unfold execClearingDone at h
        split at h <;> cases h
        · exact balanced_of_rest rfl
        · exact books.balanced
      | softReset => cases h; exact requestSoftReset_balanced books
      | runRequest => cases h; exact requestRun_balanced books
      | stopRequest => cases h; exact requestStop_balanced books
      | stoppedEntry =>
        change execStoppedEntry s = .next t at h
        unfold execStoppedEntry at h
        split at h <;> cases h
        · exact balanced_of_rest rfl
        · exact books.balanced
      | ordpostWrite v => cases h; exact hostWrite_balanced books (writeOrdpost_balanced books v)
      | rptrdWrite v => cases h; exact hostWrite_balanced books (writeRptrd_balanced books v)
      | irqflagWrite v => cases h; exact hostWrite_balanced books (writeIrqflag_balanced books v)
      | registerWrite reg high v => cases h; exact hostWrite_balanced books (writeRegister_balanced books reg high v)
      | lowHalfRead reg => cases h; exact balanced_of_neutral books rfl (.refl _)
      | storeWrite word v => cases h; exact hostWrite_balanced books (hostStore_balanced books word v)
      | partTimeTick => exact clock_balanced books h
      | _ => simp only [unitWork, orderWork, reduceCtorEq] at event order

end Steps

/-- Settles O11: every account bears what the stations claim of it, and each piece of work moves an account and the claims on it
together; what is on its way between the two is owed meanwhile. -/
theorem everyStepKeepsTheAccountsBalanced : Obligations.EveryStepKeepsTheAccountsBalanced := by
  unfold Obligations.EveryStepKeepsTheAccountsBalanced
  exact fun _ _ _ books _ h => accountLaw_of_ledger (exec_balanced books h)

end Sys2Proof.Machine
end
